-- ==== Sys2Proof/Word.lean ====
section
/-! DEFINITION. The widths the manual treats as bits: bytes, words, pointers, W48 values, register numbers (R31, R32, R35, R51). -/

namespace Sys2Proof

abbrev Byte := BitVec 8
abbrev W32 := BitVec 32
abbrev W48 := BitVec 48
/-- A code word, a g register, a pointer or a CSR value. -/
abbrev W64 := BitVec 64
/-- The number of a g register, g0 to g31 (R32). -/
abbrev GReg := BitVec 5
/-- A 9-bit lane register operand (R36): bit 8 adds XI. -/
abbrev VReg := BitVec 9

end Sys2Proof
end

