-- ==== Sys2Proof/Syntax.lean ====
section
/-! DEFINITION. The steps of the part as syntax: one constructor of Instr per row of spec/opcode_table.json. Instructions carry their
decoded fields; the steps of agents that act on their own, and inputs from outside, carry which agent or which input. -/

namespace Sys2Proof

/-- Orders of R42. -/
inductive MOrd where
  | rlx | acq | rel | acqrel | sc
  deriving DecidableEq, Repr

/-- Scopes of R42. -/
inductive Scope where
  | self | team | cluster | task | die | package | fabric | system
  deriving DecidableEq, Repr

/-- The last source of a generator instruction: gb, or imm34 with I = 1 (R32). -/
inductive GSrc where
  | reg (r : GReg)
  | imm (v : BitVec 34)
  deriving DecidableEq, Repr

/-- Conditions of BC (R97). -/
inductive BCond where
  | eq | ne | lt | ge | ltn | gen
  deriving DecidableEq, Repr

/-- Types of LD and ST (R92). -/
inductive LdTy where
  | n8 | n16 | n32 | d64 | s8 | s16 | s32
  deriving DecidableEq, Repr

/-- Types of atomic and reduction words (R160). -/
inductive ATy where
  | n32 | s32 | n64 | s64 | f32 | f16x2 | bf16x2
  deriving DecidableEq, Repr

/-- Operations of atomic and reduction words (R160). -/
inductive AOp where
  | swap | add | and | or | xor | min | max | incw | decw
  deriving DecidableEq, Repr

/-- Conditions of WAITC (R176). -/
inductive WCond where
  | eq | ne | ltn | gen | lt | ge
  deriving DecidableEq, Repr

/-- The field a hole replaces (R102). -/
inductive HoleKind where
  | base | i9 | i32
  deriving DecidableEq, Repr

/-- Orders and scope of a fence (R167): acquire, release, acq_rel or sc. -/
structure FenceF where
  ord : MOrd
  scope : Scope
  deriving DecidableEq, Repr

/-- The fields of LD and ST (R92); r is the destination or the source. -/
structure LdF where
  ty : LdTy
  ord : MOrd
  scope : Scope
  r : GReg
  a : GReg
  disp : BitVec 34
  deriving DecidableEq, Repr

/-- The fields of LDX and STX (R92, R93); r is the first register of the quad. -/
structure LdxF where
  ord : MOrd
  scope : Scope
  r : GReg
  a : GReg
  disp : BitVec 34
  deriving DecidableEq, Repr

/-- The layout of R162 that atomics, barriers and monitors share. -/
structure AtF where
  ord : MOrd
  scope : Scope
  d : GReg
  a : GReg
  b : GReg
  disp : BitVec 20
  deriving DecidableEq, Repr

/-- A 9-bit register source with its FE bit (R35, R36, R39). -/
structure Src where
  r : VReg
  fe : Bool
  deriving DecidableEq, Repr

/-- The immediate of a lane word: imm9, or the 32 bits of an XT word (R42). -/
inductive LImm where
  | i9 (v : BitVec 9)
  | x32 (v : W32)
  deriving DecidableEq, Repr

/-- The last source of a lane word. -/
inductive LSrc where
  | reg (s : Src)
  | imm (v : LImm)
  deriving DecidableEq, Repr

/-- Uniform bit and predicate of a lane word (R35, R37, R38). -/
structure Guard where
  u : Bool
  pred : BitVec 3
  neg : Bool
  deriving DecidableEq, Repr

/-- Integer lane type (R121). -/
inductive ITy where
  | s32 | n32
  deriving DecidableEq, Repr

/-- Integer word with type and saturation (R121). -/
structure IOp where
  g : Guard
  ty : ITy
  sat : Bool
  d : VReg
  a : Src
  b : LSrc
  deriving DecidableEq, Repr

/-- VIMAD (R121). -/
structure IMad where
  g : Guard
  ty : ITy
  sat : Bool
  d : VReg
  a : Src
  b : Src
  c : LSrc
  deriving DecidableEq, Repr

/-- Bitwise and shift words (R121). -/
structure BOp where
  g : Guard
  d : VReg
  a : Src
  b : LSrc
  deriving DecidableEq, Repr

/-- One-source words (R121, R123). -/
structure UOp where
  g : Guard
  d : VReg
  a : Src
  deriving DecidableEq, Repr

/-- Integer comparisons (R121). -/
inductive ICc where
  | eq | ne | lt | le | gt | ge
  deriving DecidableEq, Repr

/-- Floating-point lane types (R123). -/
inductive FTy where
  | f32 | f16x2 | bf16x2
  deriving DecidableEq, Repr

/-- Floating-point word with type and rounding code 0 to 3 or 7 (R123). -/
structure FOp where
  g : Guard
  ty : FTy
  rm : BitVec 3
  d : VReg
  a : Src
  b : LSrc
  deriving DecidableEq, Repr

/-- VFFMA (R123). -/
structure FMad where
  g : Guard
  ty : FTy
  rm : BitVec 3
  d : VReg
  a : Src
  b : Src
  c : LSrc
  deriving DecidableEq, Repr

/-- Memory operand of a lane word: index scale, index register or lane number, displacement, base, order and scope (R146, R148). -/
structure LAddr where
  sc : BitVec 2
  ix : Option Src
  disp : LImm
  base : W64
  ord : MOrd
  scope : Scope
  deriving DecidableEq, Repr

/-- Types of lane memory words (R146). -/
inductive LTy where
  | n8 | s8 | n16 | s16 | n32 | d64
  deriving DecidableEq, Repr

/-- Cache policy of lane memory words (R146). -/
inductive Cp where
  | normal | l2 | ef
  deriving DecidableEq, Repr

/-- A load word (R147). -/
structure VLd where
  g : Guard
  ty : LTy
  cp : Cp
  ua : Bool
  d : VReg
  m : LAddr
  deriving DecidableEq, Repr

/-- A store word (R147); v is the data source. -/
structure VSt where
  g : Guard
  ty : LTy
  cp : Cp
  ua : Bool
  v : Src
  m : LAddr
  deriving DecidableEq, Repr

/-- A lane atomic (R163): d is ignored by VRED, op by VCAS. -/
structure VAt where
  g : Guard
  ty : ATy
  op : AOp
  d : VReg
  b : Src
  m : LAddr
  deriving DecidableEq, Repr

/-- VQPACK and VQUNPK (R126): format code, rounding code, optional scale and tensor-scale registers. -/
structure QOp where
  g : Guard
  fmtc : BitVec 4
  rm : BitVec 3
  d : VReg
  a : Src
  s : Option Src
  t : Option Src
  deriving DecidableEq, Repr

/-- Where VVOTE sends its result (R133). -/
inductive VoteDest where
  | q | v | qv
  deriving DecidableEq, Repr

inductive VoteOp where
  | any | all | popc
  deriving DecidableEq, Repr

inductive ShMode where
  | idx | up | down | xor
  deriving DecidableEq, Repr

/-- Operations of VTRED and VTSCAN (R135), codes 0 to 10. -/
inductive RedOp where
  | addS | addF | minS | minN | minF | maxS | maxN | maxF | and | or | xor
  deriving DecidableEq, Repr

/-- Operations of VPLOG that give a predicate from predicates (R130), and the two that move to or from a register. -/
inductive PlogOp where
  | and | or | xor | andn | not | set | clr | fromv | tov
  deriving DecidableEq, Repr

/-- Tile layouts 0 to 5 of MTILE and MSTT (R194). -/
inductive TLay where
  | l32x192 | l96x64 | l192x32 | l256x24 | l384x16 | w48
  deriving DecidableEq, Repr

/-- The functions a register write comes from (R339, R363): PF0, or the VF of a tenant. -/
inductive Fn where
  | pf0
  | vf (n : Nat)
  deriving DecidableEq, Repr

/-- Which register space a write addresses: PF0's BAR0, a VF's BAR0, or a VF's BAR2 (R339, R340, R363). -/
inductive RegSpace where
  | pf
  | vf (n : Nat)
  | bar2 (n : Nat)
  deriving DecidableEq, Repr

/-- What an incoming drawbar request asks for (R344, R345). -/
inductive InReq where
  | load (pa n : Nat)
  | store (pa : Nat) (bytes : List Byte)
  | atom (op : AOp) (ty : ATy) (pa : Nat) (v : Nat)
  | red (op : AOp) (ty : ATy) (pa : Nat) (v : Nat)
  | cas (ty : ATy) (pa e v : Nat)
  /-- A WAITC on this package's memory: the word, its bytes, condition, comparand and the peer's number for it (R176, R317). -/
  | monitor (pa : Nat) (wide : Bool) (cc : WCond) (b id : Nat)
  | tspawn (node : W64)
  | push (q : Nat) (dedup range : Bool) (w : List W64)
  deriving DecidableEq, Repr

/-- One constructor per row of spec/opcode_table.json; those without operands stand last. -/
inductive Instr where
  -- generator arithmetic (R47, R89 to R91)
  | add (d a : GReg) (b : GSrc)
  | sub (d a : GReg) (b : GSrc)
  | mul (d a : GReg) (b : GSrc)
  | mulh (d a : GReg) (b : GSrc)
  | mulhn (d a : GReg) (b : GSrc)
  | div (d a : GReg) (b : GSrc)
  | divn (d a : GReg) (b : GSrc)
  | rem (d a : GReg) (b : GSrc)
  | remn (d a : GReg) (b : GSrc)
  | and (d a : GReg) (b : GSrc)
  | or (d a : GReg) (b : GSrc)
  | xor (d a : GReg) (b : GSrc)
  | shl (d a : GReg) (b : GSrc)
  | shr (d a : GReg) (b : GSrc)
  | sar (d a : GReg) (b : GSrc)
  | min (d a : GReg) (b : GSrc)
  | max (d a : GReg) (b : GSrc)
  | minn (d a : GReg) (b : GSrc)
  | maxn (d a : GReg) (b : GSrc)
  | clz (d a : GReg)
  | popc (d a : GReg)
  | seq (d a : GReg) (b : GSrc)
  | slt (d a : GReg) (b : GSrc)
  | sltn (d a : GReg) (b : GSrc)
  | sel (d a : GReg) (b : GSrc)
  | li (d : GReg) (v : W64)
  -- CSRs (R88)
  | csrr (d : GReg) (n : BitVec 12)
  | csrw (n : BitVec 12) (a : GReg)
  | csrwSet (d : GReg) (n : BitVec 12) (a : GReg)
  | csrwClr (d : GReg) (n : BitVec 12) (a : GReg)
  -- loads, stores, branches (R92, R93, R97)
  | ld (f : LdF)
  | st (f : LdF)
  | ldx (f : LdxF)
  | stx (f : LdxF)
  | b (off : BitVec 34)
  | bc (c : BCond) (a b : GReg) (off : BitVec 34)
  | call (off : BitVec 34)
  | jr (d a : GReg)
  | loop (d : GReg) (off : BitVec 34)
  -- emission (R99 to R114)
  | laneUnitEmission (ws : List W64)
  | teamN (n : GSrc)
  | teamM (a : GReg) (i : GSrc)
  | qset (ctx : BitVec 3) (a : GReg)
  | beginS (rake : BitVec 6)
  | hole (k : BitVec 3) (kind : HoleKind) (v : GSrc)
  | replay (rake : BitVec 6) (a : GReg)
  | replayi (rake : BitVec 6) (a : GReg)
  | dropS (rake : BitVec 6)
  | vqpop (d : GReg)
  | vqtry (d : GReg)
  -- atomics and synchronisation (R162 to R177)
  | atom (op : AOp) (ty : ATy) (f : AtF)
  | cas (ty : ATy) (f : AtF)
  | red (op : AOp) (ty : ATy) (f : AtF)
  | fence (f : FenceF)
  | semacq (d : GReg) (s : BitVec 6) (n : GSrc)
  | semrel (d : GReg) (s : BitVec 6) (n : GSrc)
  | semtry (d : GReg) (s : BitVec 6) (n : GSrc)
  | semset (s : BitVec 6) (a : GReg)
  | semget (d : GReg) (s : BitVec 6)
  | barinit (f : AtF)
  | bararr (f : AtF)
  | barwait (f : AtF)
  | bartest (f : AtF)
  | waitc (wide : Bool) (cc : WCond) (f : AtF)
  | tryw (d : GReg) (t : GSrc)
  -- matrix engine (R183 to R202)
  | mcfgA (q : GReg)
  | mcfgB (q : GReg)
  | mzero (mask : BitVec 8)
  | mloop (z : BitVec 3) (adp : Bool) (a : GReg)
  | mloopr (ra rb : Bool) (z : BitVec 3) (adp : Bool) (ha hb : BitVec 4) (a : GReg)
  | engineOpCompletion (cl : Nat) (drainPipe : Bool)
  | mtile (lay : TLay) (z : BitVec 3) (a b : GReg)
  | mtileEng (a : GReg)
  | mstt (lay : TLay) (z : BitVec 3) (a b : GReg)
  | msttEng (a : GReg)
  | mdrain (z : BitVec 3) (clr : Bool) (a b : GReg) (ring : Option (BitVec 4))
  | mwaitTile (z : BitVec 3)
  | madpt (q : GReg)
  | mprog (a b : GReg)
  | mmovt (toTile w48 : Bool) (z : BitVec 3) (v : BitVec 8)
  -- epilogue micro-instructions (R206, R207)
  | eadd (d a b : BitVec 3)
  | emul (d a b : BitVec 3)
  | efma (d a b c : BitVec 3)
  | emax (d a b : BitVec 3)
  | emin (d a b : BitVec 3)
  | esel (d a b c : BitVec 3) (cc : BitVec 3)
  | eexp2 (d a : BitVec 3)
  | ercp (d a : BitVec 3)
  | ecvt (d a : BitVec 3) (rm : BitVec 3) (fmt : BitVec 4)
  | eldc (d : BitVec 3) (kind : BitVec 2) (k : BitVec 4)
  | eldr (d : BitVec 3) (rv : Bool)
  | eldm (d : BitVec 3)
  | eadpt (d a : BitVec 3)
  | ermax (d a : BitVec 3)
  | ersum (d a : BitVec 3)
  | est (a : BitVec 3) (bs : BitVec 2) (rm : BitVec 3) (fmt : BitVec 4) (mode : BitVec 2)
  -- sparse (R222, R224)
  | spxWait (d : GReg) (z : BitVec 3) (a : GReg)
  | spxFb (d : GReg) (z : BitVec 3) (a : GReg)
  | patternCompile (die : Nat)
  | spcomp (d a : GReg)
  | spinv (a : GReg)
  | spqry (d a : GReg)
  | spqryWord (d a b : GReg)
  | spcfg (d a : GReg)
  -- copies and rings (R226 to R243)
  | ctpl (idx : BitVec 8) (a : GReg)
  | copyStart (cl ch : Nat)
  | copyBeat (cl ch : Nat)
  | copyCompletion (cl ch : Nat)
  | ringdef (h : BitVec 4) (q : GReg)
  | ringdefShare (h : BitVec 4) (ctx : BitVec 3) (hs : BitVec 4)
  | ringdefOff (h : BitVec 4)
  | rtag (d : GReg) (h : BitVec 4) (a : GReg)
  | rtagCas (d : GReg) (h : BitVec 4) (a b : GReg)
  | rwait (d : GReg) (h : BitVec 4) (a b : GReg)
  | chst (d : GReg) (c : BitVec 3)
  | chresRetry (d : GReg) (c : BitVec 3)
  | chresAbort (d : GReg) (c : BitVec 3)
  | chdrain (d : GReg) (b : GSrc)
  | subsFill (d : GReg) (h : BitVec 4) (a : GReg)
  | subsStore (d : GReg) (h : BitVec 4) (a : GReg)
  | subsTile (id : Nat)
  | subk (d : GReg) (h : BitVec 4) (a : GReg)
  | subkWarm (id : Nat)
  | unsub (d a : GReg)
  -- tasks (R257 to R261)
  | twaitp (k : BitVec 4)
  | tspawn (d a b : GReg)
  | remoteReply (id code : Nat)
  | retireNotice (id : Nat)
  -- queues and message rings (R264 to R275)
  | qpush (d a q : GReg)
  | qinsd (d a q : GReg)
  | qrange (d a q : GReg)
  | qpopb (q : GReg) (n : GSrc)
  | qnext (d : GReg)
  | qstat (d : GReg) (n : GSrc)
  | msgpop (o : GReg) (n : GSrc)
  | msgpeek (o : GReg) (n : GSrc)
  | msgrst (d a b : GReg)
  -- traps, pre-emption, translation, debug (R276 to R303)
  | trap (code : BitVec 16)
  | svstrm (d a : GReg)
  | rsstrm (a : GReg)
  | brk (code : BitVec 16)
  | sysopXtinv (d a b : GReg)
  | sysopTcinv (a b : GReg)
  | migopClaim (d a b : GReg)
  | migopComplete (d a b : GReg)
  | haltSoft (d a b : GReg)
  | haltHard (d a b : GReg)
  | resume (d a b : GReg)
  | dbgopStatus (d a b : GReg)
  -- lane integer (R122)
  | viadd (o : IOp)
  | visub (o : IOp)
  | vimul (o : IOp)
  | vimulh (o : IOp)
  | vimad (o : IMad)
  | vimin (o : IOp)
  | vimax (o : IOp)
  | viabs (sat : Bool) (o : UOp)
  | vand (o : BOp)
  | vor (o : BOp)
  | vxor (o : BOp)
  | vnot (o : UOp)
  | vshl (o : BOp)
  | vshr (o : BOp)
  | vsar (o : BOp)
  | vclz (o : UOp)
  | vpopc (o : UOp)
  | viset (g : Guard) (ty : ITy) (cc : ICc) (pd : BitVec 3) (a : Src) (b : LSrc)
  -- lane floating point (R124)
  | vfadd (o : FOp)
  | vfsub (o : FOp)
  | vfmul (o : FOp)
  | vffma (o : FMad)
  | vfmin (o : FOp)
  | vfmax (o : FOp)
  | vfsgn (g : Guard) (ty : FTy) (op : BitVec 2) (d : VReg) (a b : Src)
  | vfset (g : Guard) (cc : BitVec 3) (pd : BitVec 3) (a : Src) (b : LSrc)
  | vrcp (ty : FTy) (rm : BitVec 3) (o : UOp)
  | vrsq (ty : FTy) (rm : BitVec 3) (o : UOp)
  | vexp2 (ty : FTy) (o : UOp)
  | vlog2 (ty : FTy) (o : UOp)
  | vfclass (ty : FTy) (o : UOp)
  -- conversion, packing, moves (R125 to R129)
  | vcvt (dt st rm : BitVec 3) (o : UOp)
  | vcvtSeed (g : Guard) (a : LSrc)
  | vqpack (o : QOp)
  | vqunpk (o : QOp)
  | vmov (g : Guard) (d : VReg) (a : LSrc)
  | vsel (g : Guard) (ps : BitVec 3) (d : VReg) (a : Src) (b : LSrc)
  | vlid (g : Guard) (which : BitVec 2) (d : VReg)
  | vxi (add : Bool) (a : LSrc)
  -- predicates, FMT, votes, cross-lane (R130 to R135)
  | vplog (g : Guard) (op : PlogOp) (d : VReg) (a : Src) (pb : BitVec 3)
  | vppush (ps : BitVec 3) (neg : Bool)
  | vfmt (op : BitVec 2) (a : LSrc)
  | vvote (g : Guard) (op : VoteOp) (dest : VoteDest) (d : VReg) (ps : BitVec 3)
  | vshfl (g : Guard) (mode : ShMode) (lg : BitVec 4) (d : VReg) (a : Src) (b : LSrc)
  | vtred (g : Guard) (op : RedOp) (lg : BitVec 4) (d : VReg) (a : Src)
  | vtscan (g : Guard) (op : RedOp) (lg : BitVec 4) (ex : Bool) (d : VReg) (a : Src)
  -- lane memory (R147, R149)
  | vld (o : VLd)
  | vst (o : VSt)
  | vldg (o : VLd)
  | vstg (o : VSt)
  | vldu (o : VLd)
  | vpref (g : Guard) (toL2 : Bool) (m : LAddr)
  | vldq (o : VLd)
  | vstq (o : VSt)
  | vatom (o : VAt)
  | vcas (o : VAt)
  | vred (o : VAt)
  | vfence (f : FenceF)
  | vbararr (g : Guard) (lanes : Bool) (disp : BitVec 9) (base : W64) (ord : MOrd) (scope : Scope)
  -- steps of other agents, and inputs
  | accessCompletion (cid k : Nat)
  | pageWalk (k : Nat)
  | l1Sweep (cl line : Nat)
  | tailMonitorWake (t : Nat)
  | submit (t : Nat)
  | link (t : Nat)
  | unlink (t : Nat)
  | launchResume (t : Nat)
  | launchNop (t : Nat)
  | rcbStateWrite (t node st : Nat)
  | taskPlacement (t launch lin : Nat)
  | edgeIn (task cl : Nat)
  | edgeOut (task : Nat)
  | quantumExpiry (node elapsed : Nat)
  | vfFlr (t : Nat)
  | vfEnable (t : Nat)
  | vfDisable (t : Nat)
  | vfXtlen (t len : Nat)
  | registerWrite (fn : Fn) (sp : RegSpace) (off : Nat) (v : Nat)
  | powerSample (watts : Nat)
  | thermalSample (t0 t1 : Nat)
  | setcap (w : Nat)
  | setprio (c : Nat)
  | attach (cl ctx v : Nat)
  | stage (block : List Byte)
  | spdmRequest (req : List Byte)
  | ingressRequest (peer remten : Nat) (req : InReq)
  | flitRetry (port sq : Nat)
  | drawbarTimeout (port : Nat)
  | hostMemWrite (addr : Nat) (bytes : List Byte)
  | hostMemRead (addr n : Nat)
  | hostSnoop (addr : Nat) (bytes : List Byte)
  | launchAreaResume (t : Nat)
  | portableTranslation (t launch lin : Nat)
  | holdOffExpiry (t va : Nat)
  | mgmtUnknownCode (code : Nat)
  -- without operands; the steps among them act for State.cur or State.curCl
  | nop
  | ret
  | controlEntryEffect
  | endS
  | replayInstanceExpansion
  | dropSAll
  | mcastOff
  | mcastOn
  | mcastRecv
  | drain
  | waitcPoll
  | trywTimeout
  | mcfgResume
  | mcfgAbandon
  | kStep
  | sideStep
  | drainRow
  | mwait
  | mwaitStop
  | madptOff
  | eend
  | timetableGroup
  | spinvAll
  | twaitpAll
  | thint
  | tdone
  | trapEntry
  | eret
  | eretSkip
  | eretFlush
  | yield
  | barfl
  | sysopHalt
  | sysopIcsync
  | vppop
  | vppopElse
  | earlyToRunning
  | preempt
  | notpresentSave
  | restore
  | watchdog
  | chdrainBound
  | coldReset
  | pf0Flr
  | mgmtStatus
  | counters
  | voteResultReady
  | drawbarMonitorWake
  | ideMacFailure
  deriving DecidableEq, Repr

end Sys2Proof
end

