-- ==== Sys2Proof/WellFormed.lean ====
section
/-! DEFINITION. Which instructions an encoding exists for: operand limits of R33, R38, R47 and of each instruction's own entry.
The steps of agents that act on their own have no encoding, and are well formed as they stand. -/

namespace Sys2Proof

/-- A quad: a register number that is a multiple of 4 (R93, R183, R264). -/
def quadOk (r : GReg) : Bool := r &&& 3#5 == 0#5

/-- An octet: a multiple of 8 (R274). -/
def octOk (r : GReg) : Bool := r &&& 7#5 == 0#5

/-- A count of at most n bits when it is an immediate (R170, R264, R274). -/
def GSrc.fits (n : Nat) : GSrc → Bool
  | .reg _ => true
  | .imm v => decide (v.toNat < 2 ^ n)

/-- U requires p0 true, and (!p0) is reserved (R37, R38). -/
def Guard.wf (g : Guard) : Bool := !(g.neg && g.pred == 0#3) && !(g.u && (g.neg || !(g.pred == 0#3)))

/-- A guard on a word that forbids U (R45). -/
def Guard.wfN (g : Guard) : Bool := g.wf && !g.u

/-- The guard of a word that takes no predicate and no U (R129, R131, R132). -/
def Guard.plain : Guard := ⟨false, 0#3, false⟩

/-- Rounding codes of the floating-point family: 0 to 3 and 7 (R123). -/
def rmArith (r : BitVec 3) : Bool := !(r == 4#3 || r == 5#3 || r == 6#3)

/-- Orders LD and LDX take (R92), and VLD and its kin (R42). -/
def ordLoad : MOrd → Bool
  | .rlx | .acq | .sc => true
  | _ => false

/-- Orders ST, STX, RED, BARINIT, VST and VRED take. -/
def ordStore : MOrd → Bool
  | .rlx | .rel | .sc => true
  | _ => false

/-- Orders a fence takes (R167). -/
def ordFence : MOrd → Bool
  | .rlx => false
  | _ => true

/-- Types an ST takes (R92). -/
def LdTy.storable : LdTy → Bool
  | .n8 | .n16 | .n32 | .d64 => true
  | _ => false

def ATy.isInt : ATy → Bool
  | .n32 | .s32 | .n64 | .s64 => true
  | _ => false

/-- Pairings of R160. -/
def atomOk (red : Bool) (op : AOp) (ty : ATy) : Bool :=
  match op with
  | .swap => !red
  | .add | .min | .max => true
  | .and | .or | .xor => ty.isInt
  | .incw | .decw => !red && (ty == .n32 || ty == .n64)

/-- Types a lane store takes (R146). -/
def LTy.storable : LTy → Bool
  | .s8 | .s16 => false
  | _ => true

/-- VLDG and VSTG need an index register (R147). -/
def LAddr.wfG (m : LAddr) : Bool := m.ix.isSome

/-- VLDU has no index and no scale (R147). -/
def LAddr.wfU (m : LAddr) : Bool := m.ix.isNone && m.sc == 0#2

/-- Format codes of VQPACK and VQUNPK (R126). -/
def fmtcOk (c : BitVec 4) : Bool := !(c == 12#4 || c == 13#4 || c == 14#4)

def QOp.wf (q : QOp) : Bool := q.g.wf && fmtcOk q.fmtc && !(q.rm == 6#3)

/-- Codes of VCVT (R125). -/
def cvtOk (dt st rm : BitVec 3) : Bool :=
  !(dt == 7#3) && !(st == 7#3) && !(rm == 6#3) && (!(rm == 5#3) || dt == 1#3 || dt == 2#3 || dt == 5#3 || dt == 6#3)
    && !(dt == st && decide (3 ≤ dt.toNat))

/-- Groups of 2 to 1,024 lanes (R134). -/
def lgOk (g : BitVec 4) : Bool := decide (1 ≤ g.toNat ∧ g.toNat ≤ 10)

/-- The predicate forms of VPLOG name a predicate in pd, and one in pa where the operation reads it; others are zero (R130). -/
def plogOk (op : PlogOp) (d : VReg) (a : Src) (pb : BitVec 3) : Bool :=
  match op with
  | .and | .or | .xor | .andn => decide (d.toNat < 8) && decide (a.r.toNat < 8) && !a.fe
  | .not => decide (d.toNat < 8) && decide (a.r.toNat < 8) && !a.fe && pb == 0#3
  | .set | .clr => decide (d.toNat < 8) && a.r == 0#9 && !a.fe && pb == 0#3
  | .fromv => decide (d.toNat < 8) && pb == 0#3
  | .tov => decide (a.r.toNat < 8) && !a.fe && pb == 0#3

/-- EST's fields (R205 to R207): aux codes that are not reserved, block scales only with a block-scaled format. -/
def estOk (bs : BitVec 2) (rm : BitVec 3) (fmt : BitVec 4) (mode : BitVec 2) : Bool :=
  !(mode == 3#2) && !(bs == 3#2) && !(rm == 5#3 || rm == 6#3) && decide (fmt.toNat ≤ 13)
    && (!(mode == 1#2 || mode == 2#2) || (bs == 0#2 && rm == 0#3 && fmt == 0#4))
    && (bs == 0#2 || decide (fmt.toNat ≤ 5))

/-- The instructions an encoding exists for, each with the limits of its entry; the others are true. -/
def Instr.wf : Instr → Bool
  | .semacq _ _ n | .semrel _ _ n | .semtry _ _ n => n.fits 32
  | .ld f => ordLoad f.ord
  | .st f => ordStore f.ord && f.ty.storable
  | .ldx f => ordLoad f.ord && quadOk f.r
  | .stx f => ordStore f.ord && quadOk f.r
  | .loop d _ => !(d == 0#5)
  | .teamM _ i => i.fits 5
  | .atom op ty _ => atomOk false op ty
  | .cas ty _ => ty.isInt
  | .red op ty f => atomOk true op ty && ordStore f.ord && f.d == 0#5
  | .fence f => ordFence f.ord
  | .barinit f => ordStore f.ord
  | .barwait f | .bartest f | .waitc _ _ f => ordLoad f.ord
  | .mcfgA q | .mcfgB q | .madpt q | .ringdef _ q => quadOk q
  | .mloopr ra rb _ _ ha hb _ => (ra || rb) && (ra || ha == 0#4) && (rb || hb == 0#4)
  | .mstt lay _ _ _ => lay == .l32x192 || lay == .w48
  | .mdrain _ _ x y ring => ring.isNone || (x == 0#5 && y == 0#5)
  | .qpush _ _ q | .qinsd _ _ q | .qrange _ _ q => quadOk q
  | .qpopb q n => quadOk q && n.fits 12
  | .qstat _ n => n.fits 12
  | .msgpop o n | .msgpeek o n => octOk o && n.fits 10
  | .viadd o | .visub o | .vimul o => o.g.wf
  | .vimulh o | .vimin o | .vimax o => o.g.wf && !o.sat
  | .vimad o => o.g.wf
  | .viabs _ o | .vnot o | .vclz o | .vpopc o => o.g.wf
  | .vand o | .vor o | .vxor o | .vshl o | .vshr o | .vsar o => o.g.wf
  | .viset g _ _ _ _ _ => g.wf
  | .vfadd o | .vfsub o | .vfmul o => o.g.wf && rmArith o.rm
  | .vffma o => o.g.wf && rmArith o.rm
  | .vfmin o | .vfmax o => o.g.wf && o.rm == 0#3
  | .vfsgn g _ op _ _ _ => g.wf && !(op == 3#2)
  | .vfset g _ _ _ _ => g.wf
  | .vrcp _ rm o | .vrsq _ rm o => o.g.wf && rmArith rm
  | .vexp2 _ o | .vlog2 _ o | .vfclass _ o => o.g.wf
  | .vcvt dty sty rm o => o.g.wf && cvtOk dty sty rm
  | .vcvtSeed g _ => g.wf
  | .vqpack q => q.wf && q.s.elim true (fun s => !s.fe)
  | .vqunpk q => q.wf && !(q.rm == 5#3)
  | .vmov g _ _ => g.wf
  | .vsel g _ _ _ _ => g.wf
  | .vlid g w _ => g.wfN && !(w == 3#2)
  | .vplog g op d a pb => g.wf && plogOk op d a pb
  | .vfmt op _ => !(op == 3#2)
  | .vvote g _ dest d _ => g.wfN && (dest != .q || d == 0#9)
  | .vshfl g _ lg _ _ _ | .vtred g _ lg _ _ | .vtscan g _ lg _ _ _ => g.wfN && lgOk lg
  | .vld o => o.g.wfN && ordLoad o.m.ord
  | .vst o => o.g.wfN && o.ty.storable && ordStore o.m.ord
  | .vldg o => o.g.wfN && o.m.wfG && ordLoad o.m.ord
  | .vstg o => o.g.wfN && o.ty.storable && o.m.wfG && ordStore o.m.ord
  | .vldu o => o.g.wfN && o.m.wfU && ordLoad o.m.ord
  | .vpref g _ m => g.wfN && m.ord == .rlx && m.scope == .cluster
  | .vldq o => o.g.wfN && o.ty == .n8 && !o.ua && ordLoad o.m.ord
  | .vstq o => o.g.wfN && o.ty == .n8 && !o.ua && ordStore o.m.ord
  | .vatom o => o.g.wf && atomOk false o.op o.ty
  | .vcas o => o.g.wf && o.op == .swap && o.ty.isInt
  | .vred o => o.g.wf && atomOk true o.op o.ty && ordStore o.m.ord && o.d == 0#9
  | .vfence f => ordFence f.ord
  | .vbararr g _ _ _ _ _ => g.wfN
  | .esel _ _ _ _ cc => decide (cc.toNat < 6)
  | .ecvt _ _ rm fmt => !(rm == 5#3 || rm == 6#3) && decide (fmt.toNat ≤ 12)
  | .eldc _ kind _ => !(kind == 3#2)
  | .est _ bs rm fmt mode => estOk bs rm fmt mode
  | _ => true

end Sys2Proof
end

