-- ==== Sys2Proof/Decode.lean ====
section
/-! DEFINITION. The words of the ISA (R31 to R48): fields of the three word formats, the decoder, and after it the encoder. A field no
entry uses must be zero; a word that breaks a rule is refused, with the fault R47 and R48 give it. -/

namespace Sys2Proof

/-- Why a word or unit is refused, in the order of R48. The position counts words from the unit's first. -/
inductive Reject where
  /-- A generator word with an unassigned opcode, an unassigned minor, or a reserved field that is not zero (R47). -/
  | illegal
  /-- A prefix word with a reserved order or a reserved field that is not zero (R47). -/
  | illegalPrefix (at_ : Nat)
  /-- A unit arranged otherwise than R43 allows. -/
  | prefixMisuse
  /-- A lane word or second word that R47 refuses. -/
  | illegalLane (at_ : Nat)
  /-- An epilogue word that R47, R205 or R206 refuses. -/
  | illegalEpilogue
  deriving DecidableEq, Repr

/-! Fields. -/

/-- The fields of a generator word (R32), bit 63 apart. -/
structure GWord where
  maj : BitVec 7
  min : BitVec 6
  gd : GReg
  ga : GReg
  gb : GReg
  i : BitVec 1
  imm : BitVec 34
  deriving DecidableEq, Repr

def GWord.ofWord (w : W64) : GWord :=
  { maj := w.extractLsb' 56 7, min := w.extractLsb' 50 6, gd := w.extractLsb' 45 5, ga := w.extractLsb' 40 5,
    gb := w.extractLsb' 35 5, i := w.extractLsb' 34 1, imm := w.extractLsb' 0 34 }

def GWord.word (g : GWord) : W64 := 0#1 ++ (g.maj ++ (g.min ++ (g.gd ++ (g.ga ++ (g.gb ++ (g.i ++ g.imm))))))

/-- The fields of a lane word (R35), bit 63 apart. -/
structure LWord where
  u : BitVec 1
  op : BitVec 8
  vd : VReg
  va : VReg
  vb : VReg
  vc : VReg
  pred : BitVec 3
  neg : BitVec 1
  fea : BitVec 1
  feb : BitVec 1
  fec : BitVec 1
  mods : BitVec 11
  deriving DecidableEq, Repr

def LWord.ofWord (w : W64) : LWord :=
  { u := w.extractLsb' 62 1, op := w.extractLsb' 54 8, vd := w.extractLsb' 45 9, va := w.extractLsb' 36 9,
    vb := w.extractLsb' 27 9, vc := w.extractLsb' 18 9, pred := w.extractLsb' 15 3, neg := w.extractLsb' 14 1,
    fea := w.extractLsb' 13 1, feb := w.extractLsb' 12 1, fec := w.extractLsb' 11 1, mods := w.extractLsb' 0 11 }

def LWord.word (l : LWord) : W64 :=
  1#1 ++ (l.u ++ (l.op ++ (l.vd ++ (l.va ++ (l.vb ++ (l.vc ++ (l.pred ++ (l.neg ++ (l.fea ++ (l.feb ++ (l.fec ++ l.mods)))))))))))

/-- The fields of an epilogue word (R205). -/
structure EWord where
  op : BitVec 5
  ed : BitVec 3
  ea : BitVec 3
  eb : BitVec 3
  ec : BitVec 3
  aux : BitVec 15
  deriving DecidableEq, Repr

def EWord.ofWord (w : W32) : EWord :=
  { op := w.extractLsb' 27 5, ed := w.extractLsb' 24 3, ea := w.extractLsb' 21 3, eb := w.extractLsb' 18 3,
    ec := w.extractLsb' 15 3, aux := w.extractLsb' 0 15 }

def EWord.word (e : EWord) : W32 := e.op ++ (e.ed ++ (e.ea ++ (e.eb ++ (e.ec ++ e.aux))))

/-! Codes of the enumerations. -/

/-- Orders of R42. -/
def MOrd.ofCode (c : BitVec 3) : Option MOrd :=
  match c.toNat with
  | 0 => some .rlx | 1 => some .acq | 2 => some .rel | 3 => some .acqrel | 4 => some .sc | _ => none

def MOrd.code : MOrd → BitVec 3
  | .rlx => 0 | .acq => 1 | .rel => 2 | .acqrel => 3 | .sc => 4

/-- Scopes of R42. -/
def Scope.ofCode (c : BitVec 3) : Scope :=
  match c.toNat with
  | 0 => .self | 1 => .team | 2 => .cluster | 3 => .task | 4 => .die | 5 => .package | 6 => .fabric | _ => .system

def Scope.code : Scope → BitVec 3
  | .self => 0 | .team => 1 | .cluster => 2 | .task => 3 | .die => 4 | .package => 5 | .fabric => 6 | .system => 7

/-- Orders of LD and ST, two bits (R92). -/
def ord2 (c : BitVec 2) : MOrd :=
  match c.toNat with
  | 0 => .rlx | 1 => .acq | 2 => .rel | _ => .sc

def ord2Code : MOrd → BitVec 2
  | .rlx => 0 | .acq => 1 | .rel => 2 | _ => 3

def LdTy.ofCode (c : BitVec 3) : Option LdTy :=
  match c.toNat with
  | 0 => some .n8 | 1 => some .n16 | 2 => some .n32 | 3 => some .d64 | 4 => some .s8 | 5 => some .s16 | 6 => some .s32 | _ => none

def LdTy.code : LdTy → BitVec 3
  | .n8 => 0 | .n16 => 1 | .n32 => 2 | .d64 => 3 | .s8 => 4 | .s16 => 5 | .s32 => 6

def ATy.ofCode (c : BitVec 3) : Option ATy :=
  match c.toNat with
  | 0 => some .n32 | 1 => some .s32 | 2 => some .n64 | 3 => some .s64 | 4 => some .f32 | 5 => some .f16x2 | 6 => some .bf16x2
  | _ => none

def ATy.code : ATy → BitVec 3
  | .n32 => 0 | .s32 => 1 | .n64 => 2 | .s64 => 3 | .f32 => 4 | .f16x2 => 5 | .bf16x2 => 6

def AOp.ofCode (c : Nat) : Option AOp :=
  match c with
  | 0 => some .swap | 1 => some .add | 2 => some .and | 3 => some .or | 4 => some .xor | 5 => some .min | 6 => some .max
  | 7 => some .incw | 8 => some .decw | _ => none

def AOp.code : AOp → Nat
  | .swap => 0 | .add => 1 | .and => 2 | .or => 3 | .xor => 4 | .min => 5 | .max => 6 | .incw => 7 | .decw => 8

def BCond.ofCode (c : BitVec 6) : Option BCond :=
  match c.toNat with
  | 0 => some .eq | 1 => some .ne | 2 => some .lt | 3 => some .ge | 4 => some .ltn | 5 => some .gen | _ => none

def BCond.code : BCond → BitVec 6
  | .eq => 0 | .ne => 1 | .lt => 2 | .ge => 3 | .ltn => 4 | .gen => 5

def WCond.ofCode (c : BitVec 6) : Option WCond :=
  match c.toNat with
  | 0 => some .eq | 1 => some .ne | 2 => some .ltn | 3 => some .gen | 4 => some .lt | 5 => some .ge | _ => none

def WCond.code : WCond → BitVec 6
  | .eq => 0 | .ne => 1 | .ltn => 2 | .gen => 3 | .lt => 4 | .ge => 5

def HoleKind.ofCode (c : BitVec 3) : Option HoleKind :=
  match c.toNat with
  | 0 => some .base | 1 => some .i9 | 2 => some .i32 | _ => none

def HoleKind.code : HoleKind → BitVec 3
  | .base => 0 | .i9 => 1 | .i32 => 2

def TLay.ofCode (c : BitVec 3) : Option TLay :=
  match c.toNat with
  | 0 => some .l32x192 | 1 => some .l96x64 | 2 => some .l192x32 | 3 => some .l256x24 | 4 => some .l384x16 | 5 => some .w48
  | _ => none

def TLay.code : TLay → BitVec 3
  | .l32x192 => 0 | .l96x64 => 1 | .l192x32 => 2 | .l256x24 => 3 | .l384x16 => 4 | .w48 => 5

def ITy.ofBit (b : BitVec 1) : ITy := if b = 0#1 then .s32 else .n32
def ITy.bit : ITy → BitVec 1
  | .s32 => 0#1 | .n32 => 1#1

def ICc.ofCode (c : BitVec 3) : Option ICc :=
  match c.toNat with
  | 0 => some .eq | 1 => some .ne | 2 => some .lt | 3 => some .le | 4 => some .gt | 5 => some .ge | _ => none

def ICc.code : ICc → BitVec 3
  | .eq => 0 | .ne => 1 | .lt => 2 | .le => 3 | .gt => 4 | .ge => 5

def FTy.ofCode (c : BitVec 2) : Option FTy :=
  match c.toNat with
  | 0 => some .f32 | 1 => some .f16x2 | 2 => some .bf16x2 | _ => none

def FTy.code : FTy → BitVec 2
  | .f32 => 0 | .f16x2 => 1 | .bf16x2 => 2

def LTy.ofCode (c : BitVec 3) : Option LTy :=
  match c.toNat with
  | 0 => some .n8 | 1 => some .s8 | 2 => some .n16 | 3 => some .s16 | 4 => some .n32 | 5 => some .d64 | _ => none

def LTy.code : LTy → BitVec 3
  | .n8 => 0 | .s8 => 1 | .n16 => 2 | .s16 => 3 | .n32 => 4 | .d64 => 5

def Cp.ofCode (c : BitVec 2) : Option Cp :=
  match c.toNat with
  | 0 => some .normal | 1 => some .l2 | 2 => some .ef | _ => none

def Cp.code : Cp → BitVec 2
  | .normal => 0 | .l2 => 1 | .ef => 2

def VoteDest.ofCode (c : BitVec 2) : Option VoteDest :=
  match c.toNat with
  | 1 => some .q | 2 => some .v | 3 => some .qv | _ => none

def VoteDest.code : VoteDest → BitVec 2
  | .q => 1 | .v => 2 | .qv => 3

def VoteOp.ofCode (c : BitVec 2) : Option VoteOp :=
  match c.toNat with
  | 0 => some .any | 1 => some .all | 2 => some .popc | _ => none

def VoteOp.code : VoteOp → BitVec 2
  | .any => 0 | .all => 1 | .popc => 2

def ShMode.ofCode (c : BitVec 2) : ShMode :=
  match c.toNat with
  | 0 => .idx | 1 => .up | 2 => .down | _ => .xor

def ShMode.code : ShMode → BitVec 2
  | .idx => 0 | .up => 1 | .down => 2 | .xor => 3

def RedOp.ofCode (c : BitVec 4) : Option RedOp :=
  match c.toNat with
  | 0 => some .addS | 1 => some .addF | 2 => some .minS | 3 => some .minN | 4 => some .minF | 5 => some .maxS | 6 => some .maxN
  | 7 => some .maxF | 8 => some .and | 9 => some .or | 10 => some .xor | _ => none

def RedOp.code : RedOp → BitVec 4
  | .addS => 0 | .addF => 1 | .minS => 2 | .minN => 3 | .minF => 4 | .maxS => 5 | .maxN => 6 | .maxF => 7 | .and => 8 | .or => 9
  | .xor => 10

def PlogOp.ofCode (c : BitVec 4) : Option PlogOp :=
  match c.toNat with
  | 0 => some .and | 1 => some .or | 2 => some .xor | 3 => some .andn | 4 => some .not | 5 => some .set | 6 => some .clr
  | 8 => some .fromv | 9 => some .tov | _ => none

def PlogOp.code : PlogOp → BitVec 4
  | .and => 0 | .or => 1 | .xor => 2 | .andn => 3 | .not => 4 | .set => 5 | .clr => 6 | .fromv => 8 | .tov => 9

def bit1 (b : Bool) : BitVec 1 := if b then 1#1 else 0#1
def ofBit1 (b : BitVec 1) : Bool := b == 1#1

/-! The generator decoder. Each group has a reader of its fields; `keep` refuses a word whose other fields are not zero. -/

/-- x when c holds. -/
def keep {α : Type} (c : Bool) (x : α) : Option α := if c then some x else none

/-- Low n bits of imm34, when the bits above are zero. -/
def immLow (g : GWord) (n : Nat) : Option (BitVec n) :=
  keep (decide (g.imm.toNat < 2 ^ n)) (g.imm.setWidth n)

/-- gb or imm34 (R32, R33). -/
def gsrc (g : GWord) : Option GSrc :=
  if g.i = 0#1 then keep (g.imm == 0#34) (.reg g.gb) else keep (g.gb == 0#5) (.imm g.imm)

def gsrcFits (g : GWord) (n : Nat) : Option GSrc := (gsrc g).bind fun s => keep (s.fits n) s

/-- No operand beyond gd and ga. -/
def noB (g : GWord) : Bool := g.gb == 0#5 && g.i == 0#1 && g.imm == 0#34

/-- I set, gb zero. -/
def immForm (g : GWord) : Bool := g.i == 1#1 && g.gb == 0#5

/-- I clear, imm34 zero. -/
def regForm (g : GWord) : Bool := g.i == 0#1 && g.imm == 0#34

def dAlu (mk : GReg → GReg → GSrc → Instr) (g : GWord) : Option Instr :=
  if g.min = 0#6 then (gsrc g).map (mk g.gd g.ga) else none

def dUn (mk : GReg → GReg → Instr) (g : GWord) : Option Instr := keep (g.min == 0#6 && noB g) (mk g.gd g.ga)

/-- The fields of LD and ST (R92). -/
def ldF (g : GWord) : Option LdF :=
  if g.i = 1#1 ∧ g.min.extractLsb' 5 1 = 0#1 ∧ g.gb.extractLsb' 3 2 = 0#2 then
    (LdTy.ofCode (g.min.extractLsb' 0 3)).map fun ty =>
      { ty := ty, ord := ord2 (g.min.extractLsb' 3 2), scope := Scope.ofCode (g.gb.extractLsb' 0 3), r := g.gd, a := g.ga, disp := g.imm }
  else none

/-- The fields of LDX and STX: type 0, a quad (R92, R93). -/
def ldxF (g : GWord) : Option LdxF :=
  (ldF g).bind fun f => keep (f.ty == .n8 && quadOk f.r) { ord := f.ord, scope := f.scope, r := f.r, a := f.a, disp := f.disp }

/-- The layout of R162, its type apart. -/
def atF (g : GWord) : Option AtF :=
  if g.i = 0#1 ∧ g.imm.extractLsb' 20 5 = 0#5 then
    (MOrd.ofCode (g.imm.extractLsb' 31 3)).map fun o =>
      { ord := o, scope := Scope.ofCode (g.imm.extractLsb' 28 3), d := g.gd, a := g.ga, b := g.gb, disp := g.imm.extractLsb' 0 20 }
  else none

def atTy (g : GWord) : BitVec 3 := g.imm.extractLsb' 25 3

def dCsrr (g : GWord) : Option Instr :=
  if g.min = 0#6 ∧ g.ga = 0#5 ∧ immForm g then (immLow g 12).map (.csrr g.gd) else none

def dCsrw (g : GWord) : Option Instr :=
  if immForm g then
    (immLow g 12).bind fun n =>
      match g.min.toNat with
      | 0 => keep (g.gd == 0#5) (.csrw n g.ga)
      | 1 => some (.csrwSet g.gd n g.ga)
      | 2 => some (.csrwClr g.gd n g.ga)
      | _ => none
  else none

def dLd (g : GWord) : Option Instr := (ldF g).bind fun f => keep (ordLoad f.ord) (.ld f)
def dSt (g : GWord) : Option Instr := (ldF g).bind fun f => keep (ordStore f.ord && f.ty.storable) (.st f)
def dLdx (g : GWord) : Option Instr := (ldxF g).bind fun f => keep (ordLoad f.ord) (.ldx f)
def dStx (g : GWord) : Option Instr := (ldxF g).bind fun f => keep (ordStore f.ord) (.stx f)

def dB (g : GWord) : Option Instr := keep (g.min == 0#6 && g.gd == 0#5 && g.ga == 0#5 && g.gb == 0#5 && g.i == 0#1) (.b g.imm)
def dBc (g : GWord) : Option Instr :=
  if g.gd = 0#5 ∧ g.i = 0#1 then (BCond.ofCode g.min).map fun c => .bc c g.ga g.gb g.imm else none
def dCall (g : GWord) : Option Instr := keep (g.min == 0#6 && g.gd == 0#5 && g.ga == 0#5 && g.gb == 0#5 && g.i == 0#1) (.call g.imm)

/-- No field beyond the minor. -/
def noFields (g : GWord) : Bool := g.gd == 0#5 && g.ga == 0#5 && noB g

def dRet (g : GWord) : Option Instr := keep (g.min == 0#6 && noFields g) .ret
def dJr (g : GWord) : Option Instr := dUn .jr g
def dLoop (g : GWord) : Option Instr :=
  keep (g.min == 0#6 && g.ga == 0#5 && g.gb == 0#5 && g.i == 0#1 && !(g.gd == 0#5)) (.loop g.gd g.imm)

def dTeam (g : GWord) : Option Instr :=
  if g.gd = 0#5 then
    match g.min.toNat with
    | 0 => if g.i = 0#1 then keep (g.gb == 0#5 && g.imm == 0#34) (.teamN (.reg g.ga)) else keep (g.ga == 0#5 && g.gb == 0#5) (.teamN (.imm g.imm))
    | 1 => (gsrcFits g 5).map (.teamM g.ga)
    | _ => none
  else none

/-- Rake number in imm34<5:0>, I set (R102). -/
def rakeOf (g : GWord) : Option (BitVec 6) := if immForm g then immLow g 6 else none

def dQset (g : GWord) : Option Instr :=
  if g.min = 0#6 ∧ g.gd = 0#5 ∧ immForm g then (immLow g 3).map fun c => .qset c g.ga else none
def dBegin (g : GWord) : Option Instr := if g.min = 0#6 ∧ g.gd = 0#5 ∧ g.ga = 0#5 then (rakeOf g).map .beginS else none
def dEnd (g : GWord) : Option Instr := keep (g.min == 0#6 && noFields g) .endS
def dHole (g : GWord) : Option Instr :=
  if g.gd = 0#5 then
    (HoleKind.ofCode (g.min.extractLsb' 0 3)).bind fun kd =>
      if g.i = 0#1 then keep (g.gb == 0#5 && g.imm == 0#34) (.hole (g.min.extractLsb' 3 3) kd (.reg g.ga))
      else keep (g.ga == 0#5 && g.gb == 0#5) (.hole (g.min.extractLsb' 3 3) kd (.imm g.imm))
  else none
def dReplay (g : GWord) : Option Instr := if g.min = 0#6 ∧ g.gd = 0#5 then (rakeOf g).map fun r => .replay r g.ga else none
def dReplayi (g : GWord) : Option Instr := if g.min = 0#6 ∧ g.gd = 0#5 then (rakeOf g).map fun r => .replayi r g.ga else none
def dDrop (g : GWord) : Option Instr :=
  match g.min.toNat with
  | 0 => if g.gd = 0#5 ∧ g.ga = 0#5 then (rakeOf g).map .dropS else none
  | 1 => keep (noFields g) .dropSAll
  | _ => none
def dMcast (g : GWord) : Option Instr :=
  if noFields g then
    match g.min.toNat with
    | 0 => some .mcastOff | 1 => some .mcastOn | 2 => some .mcastRecv | _ => none
  else none
def dVqpop (g : GWord) : Option Instr := keep (g.min == 0#6 && g.ga == 0#5 && noB g) (.vqpop g.gd)
def dVqtry (g : GWord) : Option Instr := keep (g.min == 0#6 && g.ga == 0#5 && noB g) (.vqtry g.gd)
def dDrain (g : GWord) : Option Instr := keep (g.min == 0#6 && noFields g) .drain

def dAtom (g : GWord) : Option Instr :=
  (AOp.ofCode g.min.toNat).bind fun op => (ATy.ofCode (atTy g)).bind fun ty => (atF g).bind fun f => keep (atomOk false op ty) (.atom op ty f)
def dCas (g : GWord) : Option Instr :=
  if g.min = 0#6 then (ATy.ofCode (atTy g)).bind fun ty => (atF g).bind fun f => keep ty.isInt (.cas ty f) else none
def dRed (g : GWord) : Option Instr :=
  (AOp.ofCode g.min.toNat).bind fun op => (ATy.ofCode (atTy g)).bind fun ty => (atF g).bind fun f =>
    keep (atomOk true op ty && ordStore f.ord && f.d == 0#5) (.red op ty f)
def dFence (g : GWord) : Option Instr :=
  if g.min.extractLsb' 3 3 = 0#3 ∧ g.gd = 0#5 ∧ g.ga = 0#5 ∧ g.gb.extractLsb' 3 2 = 0#2 ∧ regForm g then
    (MOrd.ofCode (g.min.extractLsb' 0 3)).bind fun o => keep (ordFence o) (.fence { ord := o, scope := Scope.ofCode (g.gb.extractLsb' 0 3) })
  else none

def dSem (mk : GReg → BitVec 6 → GSrc → Instr) (g : GWord) : Option Instr :=
  if g.ga = 0#5 then (gsrcFits g 32).map (mk g.gd g.min) else none
def dSemset (g : GWord) : Option Instr := keep (g.gd == 0#5 && noB g) (.semset g.min g.ga)
def dSemget (g : GWord) : Option Instr := keep (g.ga == 0#5 && noB g) (.semget g.gd g.min)

/-- Barriers: op and type zero, an order the instruction takes (R173). -/
def dBar (ok : MOrd → Bool) (mk : AtF → Instr) (g : GWord) : Option Instr :=
  if g.min = 0#6 ∧ atTy g = 0#3 then (atF g).bind fun f => keep (ok f.ord) (mk f) else none
def dWaitc (g : GWord) : Option Instr :=
  (WCond.ofCode g.min).bind fun cc => (atF g).bind fun f =>
    if ordLoad f.ord then (if atTy g = 0#3 then some (.waitc false cc f) else if atTy g = 2#3 then some (.waitc true cc f) else none) else none
def dTryw (g : GWord) : Option Instr := if g.min = 0#6 ∧ g.ga = 0#5 then (gsrc g).map (.tryw g.gd) else none

def dMcfg (g : GWord) : Option Instr :=
  if g.gd = 0#5 ∧ noB g then
    match g.min.toNat with
    | 0 => keep (quadOk g.ga) (.mcfgA g.ga)
    | 1 => keep (quadOk g.ga) (.mcfgB g.ga)
    | 2 => keep (g.ga == 0#5) .mcfgResume
    | 3 => keep (g.ga == 0#5) .mcfgAbandon
    | _ => none
  else none
def dMzero (g : GWord) : Option Instr :=
  if g.min = 0#6 ∧ g.gd = 0#5 ∧ g.ga = 0#5 ∧ immForm g then (immLow g 8).map .mzero else none
def dMloop (g : GWord) : Option Instr :=
  if g.min = 0#6 ∧ g.gd = 0#5 ∧ immForm g then
    (immLow g 4).map fun v => .mloop (v.extractLsb' 0 3) (ofBit1 (v.extractLsb' 3 1)) g.ga
  else none
def dMloopr (g : GWord) : Option Instr :=
  if g.min.extractLsb' 2 4 = 0#4 ∧ g.gd = 0#5 ∧ immForm g then
    (immLow g 12).bind fun v =>
      let ra := ofBit1 (g.min.extractLsb' 0 1)
      let rb := ofBit1 (g.min.extractLsb' 1 1)
      let ha := v.extractLsb' 4 4
      let hb := v.extractLsb' 8 4
      keep ((ra || rb) && (ra || ha == 0#4) && (rb || hb == 0#4))
        (.mloopr ra rb (v.extractLsb' 0 3) (ofBit1 (v.extractLsb' 3 1)) ha hb g.ga)
  else none
def dMtile (g : GWord) : Option Instr :=
  if g.gd = 0#5 ∧ regForm g then
    if g.min = 56#6 then keep (g.gb == 0#5) (.mtileEng g.ga)
    else (TLay.ofCode (g.min.extractLsb' 3 3)).map fun l => .mtile l (g.min.extractLsb' 0 3) g.ga g.gb
  else none
def dMstt (g : GWord) : Option Instr :=
  if g.gd = 0#5 ∧ regForm g then
    if g.min = 56#6 then keep (g.gb == 0#5) (.msttEng g.ga)
    else (TLay.ofCode (g.min.extractLsb' 3 3)).bind fun l =>
      keep (l == .l32x192 || l == .w48) (.mstt l (g.min.extractLsb' 0 3) g.ga g.gb)
  else none
def dMdrain (g : GWord) : Option Instr :=
  if g.min.extractLsb' 4 2 = 0#2 ∧ g.gd = 0#5 then
    let z := g.min.extractLsb' 0 3
    let c := ofBit1 (g.min.extractLsb' 3 1)
    if g.i = 0#1 then keep (g.imm == 0#34) (.mdrain z c g.ga g.gb none)
    else if g.ga = 0#5 ∧ g.gb = 0#5 then (immLow g 4).map fun h => .mdrain z c 0#5 0#5 (some h) else none
  else none
def dMwait (g : GWord) : Option Instr :=
  match g.min.toNat with
  | 0 => keep (noFields g) .mwait
  | 1 => if g.gd = 0#5 ∧ g.ga = 0#5 ∧ immForm g then (immLow g 3).map .mwaitTile else none
  | 2 => keep (noFields g) .mwaitStop
  | _ => none
def dMadpt (g : GWord) : Option Instr :=
  match g.min.toNat with
  | 0 => keep (g.gd == 0#5 && noB g && quadOk g.ga) (.madpt g.ga)
  | 1 => keep (noFields g) .madptOff
  | _ => none
def dMprog (g : GWord) : Option Instr := keep (g.min == 0#6 && g.gd == 0#5 && regForm g) (.mprog g.ga g.gb)
def dMmovt (g : GWord) : Option Instr :=
  if g.min.extractLsb' 5 1 = 0#1 ∧ g.gd = 0#5 ∧ g.ga = 0#5 ∧ immForm g then
    (immLow g 8).map fun v => .mmovt (ofBit1 (g.min.extractLsb' 0 1)) (ofBit1 (g.min.extractLsb' 1 1)) (g.min.extractLsb' 2 3) v
  else none

def dSpx (g : GWord) : Option Instr :=
  if immForm g then
    (immLow g 3).bind fun z =>
      match g.min.toNat with
      | 0 => some (.spxWait g.gd z g.ga) | 1 => some (.spxFb g.gd z g.ga) | _ => none
  else none
def dSpcomp (g : GWord) : Option Instr := dUn .spcomp g
def dSpinv (g : GWord) : Option Instr :=
  match g.min.toNat with
  | 0 => keep (g.gd == 0#5 && noB g) (.spinv g.ga) | 1 => keep (noFields g) .spinvAll | _ => none
def dSpqry (g : GWord) : Option Instr :=
  match g.min.toNat with
  | 0 => keep (noB g) (.spqry g.gd g.ga) | 1 => keep (regForm g) (.spqryWord g.gd g.ga g.gb) | _ => none
def dSpcfg (g : GWord) : Option Instr := dUn .spcfg g

def dCtpl (g : GWord) : Option Instr :=
  if g.min = 0#6 ∧ g.gd = 0#5 ∧ immForm g then (immLow g 8).map fun x => .ctpl x g.ga else none
def dRingdef (g : GWord) : Option Instr :=
  if g.gd = 0#5 ∧ immForm g then
    match g.min.toNat with
    | 0 => (immLow g 4).bind fun h => keep (quadOk g.ga) (.ringdef h g.ga)
    | 1 => (immLow g 12).bind fun v =>
        keep (g.ga == 0#5 && v.extractLsb' 7 1 == 0#1) (.ringdefShare (v.extractLsb' 0 4) (v.extractLsb' 4 3) (v.extractLsb' 8 4))
    | 2 => (immLow g 4).bind fun h => keep (g.ga == 0#5) (.ringdefOff h)
    | _ => none
  else none
def dRtag (g : GWord) : Option Instr :=
  if g.min.extractLsb' 4 2 = 0#2 then keep (noB g) (.rtag g.gd (g.min.extractLsb' 0 4) g.ga)
  else if g.min.extractLsb' 4 2 = 1#2 then keep (regForm g) (.rtagCas g.gd (g.min.extractLsb' 0 4) g.ga g.gb)
  else none
def dRwait (g : GWord) : Option Instr :=
  keep (g.min.extractLsb' 4 2 == 0#2 && regForm g) (.rwait g.gd (g.min.extractLsb' 0 4) g.ga g.gb)
def dChst (g : GWord) : Option Instr := keep (g.min.extractLsb' 3 3 == 0#3 && g.ga == 0#5 && noB g) (.chst g.gd (g.min.extractLsb' 0 3))
def dChres (g : GWord) : Option Instr :=
  if g.ga = 0#5 ∧ noB g then
    if g.min.extractLsb' 3 3 = 0#3 then some (.chresRetry g.gd (g.min.extractLsb' 0 3))
    else if g.min.extractLsb' 3 3 = 1#3 then some (.chresAbort g.gd (g.min.extractLsb' 0 3)) else none
  else none
def dChdrain (g : GWord) : Option Instr := if g.min = 0#6 ∧ g.ga = 0#5 then (gsrc g).map (.chdrain g.gd) else none
def dSubs (g : GWord) : Option Instr :=
  if noB g then
    if g.min.extractLsb' 4 2 = 0#2 then some (.subsFill g.gd (g.min.extractLsb' 0 4) g.ga)
    else if g.min.extractLsb' 4 2 = 1#2 then some (.subsStore g.gd (g.min.extractLsb' 0 4) g.ga) else none
  else none
def dSubk (g : GWord) : Option Instr := keep (g.min.extractLsb' 4 2 == 0#2 && noB g) (.subk g.gd (g.min.extractLsb' 0 4) g.ga)
def dUnsub (g : GWord) : Option Instr := dUn .unsub g

def dTwaitp (g : GWord) : Option Instr :=
  match g.min.toNat with
  | 0 => if g.gd = 0#5 ∧ g.ga = 0#5 ∧ immForm g then (immLow g 4).map .twaitp else none
  | 1 => keep (noFields g) .twaitpAll
  | _ => none
def dThint (g : GWord) : Option Instr := keep (g.min == 0#6 && noFields g) .thint
def dTdone (g : GWord) : Option Instr := keep (g.min == 0#6 && noFields g) .tdone

/-- Three registers, minor 0. -/
def dTri (mk : GReg → GReg → GReg → Instr) (g : GWord) : Option Instr := keep (g.min == 0#6 && regForm g) (mk g.gd g.ga g.gb)

def dPush (mk : GReg → GReg → GReg → Instr) (g : GWord) : Option Instr := keep (g.min == 0#6 && regForm g && quadOk g.gb) (mk g.gd g.ga g.gb)

/-- A queue or ring number: in ga with I = 0, or in n bits of imm34 with I = 1 and ga zero (R264, R274). -/
def nameSrc (n : Nat) (g : GWord) : Option GSrc :=
  if g.gb = 0#5 then
    if g.i = 0#1 then keep (g.imm == 0#34) (.reg g.ga) else keep (g.ga == 0#5 && decide (g.imm.toNat < 2 ^ n)) (.imm g.imm)
  else none

def dQpopb (g : GWord) : Option Instr := if g.min = 0#6 ∧ quadOk g.gd then (nameSrc 12 g).map (.qpopb g.gd) else none
def dQnext (g : GWord) : Option Instr := keep (g.min == 0#6 && g.ga == 0#5 && noB g) (.qnext g.gd)
def dQstat (g : GWord) : Option Instr := if g.min = 0#6 then (nameSrc 12 g).map (.qstat g.gd) else none
def dMsgpop (g : GWord) : Option Instr := if g.min = 0#6 ∧ octOk g.gd then (nameSrc 10 g).map (.msgpop g.gd) else none
def dMsgpeek (g : GWord) : Option Instr := if g.min = 0#6 ∧ octOk g.gd then (nameSrc 10 g).map (.msgpeek g.gd) else none

def dTrap (g : GWord) : Option Instr :=
  if g.min = 0#6 ∧ g.gd = 0#5 ∧ g.ga = 0#5 ∧ immForm g then (immLow g 16).map .trap else none
def dEret (g : GWord) : Option Instr :=
  if noFields g then
    match g.min.toNat with
    | 0 => some .eret | 1 => some .eretSkip | 2 => some .eretFlush | _ => none
  else none
def dYield (g : GWord) : Option Instr := keep (g.min == 0#6 && noFields g) .yield
def dSvstrm (g : GWord) : Option Instr := dUn .svstrm g
def dRsstrm (g : GWord) : Option Instr := keep (g.min == 0#6 && g.gd == 0#5 && noB g) (.rsstrm g.ga)
def dBarfl (g : GWord) : Option Instr := keep (g.min == 0#6 && noFields g) .barfl
def dBrk (g : GWord) : Option Instr :=
  if g.min = 0#6 ∧ g.gd = 0#5 ∧ g.ga = 0#5 ∧ immForm g then (immLow g 16).map .brk else none
/-- SYSOP (R281). The operation of MIGOP and DBGOP stands in a register: the decoder answers the first form of each, and the step
picks the form by the register (R298, R303). -/
def dSysop (g : GWord) : Option Instr :=
  match g.min.toNat with
  | 0 => keep (noFields g) .sysopHalt
  | 1 => keep (noFields g) .sysopIcsync
  | 2 => keep (regForm g) (.sysopXtinv g.gd g.ga g.gb)
  | 3 => keep (g.gd == 0#5 && regForm g) (.sysopTcinv g.ga g.gb)
  | 4 => keep (regForm g) (.migopClaim g.gd g.ga g.gb)
  | 5 => keep (regForm g) (.haltSoft g.gd g.ga g.gb)
  | _ => none

/-- LI: the second word is taken whole (R34, R91). -/
def dLi (g : GWord) (w2 : W64) : Option Instr := keep (g.min == 0#6 && g.ga == 0#5 && noB g) (.li g.gd w2)

/-- The opcode map of R44, in rows of 16 majors. -/
def decRow0 (g : GWord) : Option Instr :=
  match (g.maj.extractLsb' 0 4).toNat with
  | 0 => keep (g.min == 0#6 && noFields g) .nop
  | 1 => dAlu .add g
  | 2 => dAlu .sub g
  | 3 => dAlu .mul g
  | 4 => dAlu .mulh g
  | 5 => dAlu .mulhn g
  | 6 => dAlu .div g
  | 7 => dAlu .divn g
  | 8 => dAlu .rem g
  | 9 => dAlu .remn g
  | 10 => dAlu .and g
  | 11 => dAlu .or g
  | 12 => dAlu .xor g
  | 13 => dAlu .shl g
  | 14 => dAlu .shr g
  | _ => dAlu .sar g

def decRow1 (g : GWord) (w2 : W64) : Option Instr :=
  match (g.maj.extractLsb' 0 4).toNat with
  | 0 => dAlu .min g
  | 1 => dAlu .max g
  | 2 => dAlu .minn g
  | 3 => dAlu .maxn g
  | 4 => dUn .clz g
  | 5 => dUn .popc g
  | 6 => dAlu .seq g
  | 7 => dAlu .slt g
  | 8 => dAlu .sltn g
  | 9 => dAlu .sel g
  | 10 => dLi g w2
  | 11 => dCsrr g
  | 12 => dCsrw g
  | _ => none

def decRow2 (g : GWord) : Option Instr :=
  match (g.maj.extractLsb' 0 4).toNat with
  | 0 => dLd g
  | 1 => dSt g
  | 2 => dLdx g
  | 3 => dStx g
  | 8 => dB g
  | 9 => dBc g
  | 10 => dCall g
  | 11 => dRet g
  | 12 => dJr g
  | 13 => dLoop g
  | _ => none

def decRow3 (g : GWord) : Option Instr :=
  match (g.maj.extractLsb' 0 4).toNat with
  | 0 => dTeam g
  | 1 => dQset g
  | 2 => dBegin g
  | 3 => dEnd g
  | 4 => dHole g
  | 5 => dReplay g
  | 6 => dReplayi g
  | 7 => dDrop g
  | 8 => dMcast g
  | 9 => dVqpop g
  | 10 => dVqtry g
  | 11 => dDrain g
  | _ => none

def decRow4 (g : GWord) : Option Instr :=
  match (g.maj.extractLsb' 0 4).toNat with
  | 0 => dAtom g
  | 1 => dCas g
  | 2 => dRed g
  | 3 => dFence g
  | 4 => dSem .semacq g
  | 5 => dSem .semrel g
  | 6 => dSem .semtry g
  | 7 => dSemset g
  | 8 => dSemget g
  | 9 => dBar ordStore .barinit g
  | 10 => dBar (fun _ => true) .bararr g
  | 11 => dBar ordLoad .barwait g
  | 12 => dBar ordLoad .bartest g
  | 13 => dWaitc g
  | 14 => dTryw g
  | _ => none

def decRow5 (g : GWord) : Option Instr :=
  match (g.maj.extractLsb' 0 4).toNat with
  | 0 => dMcfg g
  | 1 => dMzero g
  | 2 => dMloop g
  | 3 => dMloopr g
  | 4 => dMtile g
  | 5 => dMstt g
  | 6 => dMdrain g
  | 7 => dMwait g
  | 8 => dMadpt g
  | 9 => dMprog g
  | 10 => dMmovt g
  | 11 => dSpx g
  | 12 => dSpcomp g
  | 13 => dSpinv g
  | 14 => dSpqry g
  | _ => dSpcfg g

def decRow6 (g : GWord) : Option Instr :=
  match (g.maj.extractLsb' 0 4).toNat with
  | 0 => dCtpl g
  | 1 => dRingdef g
  | 2 => dRtag g
  | 3 => dRwait g
  | 4 => dChst g
  | 5 => dChres g
  | 6 => dChdrain g
  | 7 => dSubs g
  | 8 => dSubk g
  | 9 => dUnsub g
  | 10 => dTwaitp g
  | 11 => dThint g
  | 12 => dTdone g
  | 13 => dTri .tspawn g
  | 14 => dPush .qpush g
  | _ => dQpopb g

def decRow7 (g : GWord) : Option Instr :=
  match (g.maj.extractLsb' 0 4).toNat with
  | 0 => dPush .qinsd g
  | 1 => dPush .qrange g
  | 2 => dQnext g
  | 3 => dQstat g
  | 4 => dMsgpop g
  | 5 => dMsgpeek g
  | 6 => dTri .msgrst g
  | 8 => dTrap g
  | 9 => dEret g
  | 10 => dYield g
  | 11 => dSvstrm g
  | 12 => dRsstrm g
  | 13 => dBarfl g
  | 14 => dBrk g
  | 15 => dSysop g
  | _ => none

/-- A generator word, with the word after it, as an instruction (R44). -/
def decodeG (g : GWord) (w2 : W64) : Option Instr :=
  match (g.maj.extractLsb' 4 3).toNat with
  | 0 => decRow0 g | 1 => decRow1 g w2 | 2 => decRow2 g | 3 => decRow3 g | 4 => decRow4 g | 5 => decRow5 g | 6 => decRow6 g
  | _ => decRow7 g


/-! The lane decoder. -/

def lBit (l : LWord) (k : Nat) : Bool := ofBit1 (l.mods.extractLsb' k 1)
def lFld (l : LWord) (lo n : Nat) : BitVec n := l.mods.extractLsb' lo n

def srcA (l : LWord) : Src := ⟨l.va, ofBit1 l.fea⟩
def srcB (l : LWord) : Src := ⟨l.vb, ofBit1 l.feb⟩
def srcC (l : LWord) : Src := ⟨l.vc, ofBit1 l.fec⟩
def zeroD (l : LWord) : Bool := l.vd == 0#9
def zeroA (l : LWord) : Bool := l.va == 0#9 && l.fea == 0#1
def zeroB (l : LWord) : Bool := l.vb == 0#9 && l.feb == 0#1
def zeroC (l : LWord) : Bool := l.vc == 0#9 && l.fec == 0#1

/-- The guard, where the word allows U (R38, R45). -/
def guardU (l : LWord) : Option Guard :=
  let g : Guard := ⟨ofBit1 l.u, l.pred, ofBit1 l.neg⟩
  keep g.wf g

/-- The guard of a word that forbids U. -/
def guardN (l : LWord) : Option Guard :=
  let g : Guard := ⟨ofBit1 l.u, l.pred, ofBit1 l.neg⟩
  keep g.wfN g

/-- No U and no predicate (R129, R131, R132, R168). -/
def guardNone (l : LWord) : Bool := l.u == 0#1 && l.pred == 0#3 && l.neg == 0#1

/-- The immediate: imm9, or the 32 bits of an XT, with imm9 then zero (R42). -/
def limm (l : LWord) : Option W32 → Option LImm
  | none => keep (l.fec == 0#1) (.i9 l.vc)
  | some v => keep (l.vc == 0#9 && l.fec == 0#1) (.x32 v)

/-- Last source in vb, or the immediate with vb zero (R121). -/
def lastB (l : LWord) (imm : Bool) (xt : Option W32) : Option LSrc :=
  if imm then (if zeroB l then (limm l xt).map .imm else none) else keep (zeroC l) (.reg (srcB l))

/-- Last source in vc, or the immediate in the same field (VIMAD, VFFMA). -/
def lastC (l : LWord) (imm : Bool) (xt : Option W32) : Option LSrc :=
  if imm then (limm l xt).map .imm else some (.reg (srcC l))

/-- The only source in va, or the immediate with va zero (R125, R129, R132). -/
def lastA (l : LWord) (imm : Bool) (xt : Option W32) : Option LSrc :=
  if zeroB l then
    if imm then (if zeroA l then (limm l xt).map .imm else none) else keep (zeroC l) (.reg (srcA l))
  else none

/-- Modifiers of R121. -/
def intMods (ty : BitVec 1) (sat : BitVec 1) (imm : BitVec 1) (cc : BitVec 3) : BitVec 11 := ty ++ (sat ++ (imm ++ (cc ++ 0#5)))

def lowZero (l : LWord) (n : Nat) : Bool := (lFld l 0 n) == 0

def dIOp (satOk : Bool) (mk : IOp → Instr) (l : LWord) (xt : Option W32) : Option Instr :=
  if lowZero l 8 ∧ (satOk ∨ lBit l 9 = false) then
    (guardU l).bind fun g => (lastB l (lBit l 8) xt).map fun b =>
      mk { g := g, ty := ITy.ofBit (lFld l 10 1), sat := lBit l 9, d := l.vd, a := srcA l, b := b }
  else none

def dIMad (l : LWord) (xt : Option W32) : Option Instr :=
  if lowZero l 8 then
    (guardU l).bind fun g => (lastC l (lBit l 8) xt).map fun c =>
      .vimad { g := g, ty := ITy.ofBit (lFld l 10 1), sat := lBit l 9, d := l.vd, a := srcA l, b := srcB l, c := c }
  else none

def dBOp (mk : BOp → Instr) (l : LWord) (xt : Option W32) : Option Instr :=
  if lowZero l 8 ∧ lFld l 9 2 = 0#2 then
    (guardU l).bind fun g => (lastB l (lBit l 8) xt).map fun b => mk { g := g, d := l.vd, a := srcA l, b := b }
  else none

/-- One source, in va; every other register field zero. -/
def uOp (l : LWord) : Option UOp :=
  if zeroB l ∧ zeroC l then (guardU l).map fun g => { g := g, d := l.vd, a := srcA l } else none

def dAbs (l : LWord) : Option Instr :=
  if lowZero l 9 ∧ lBit l 10 = false then (uOp l).map (.viabs (lBit l 9)) else none
def dUnary (mk : UOp → Instr) (l : LWord) : Option Instr := if l.mods = 0#11 then (uOp l).map mk else none

/-- A predicate destination: bits 8:3 of vd zero. -/
def predD (l : LWord) : Option (BitVec 3) := keep (decide (l.vd.toNat < 8)) (l.vd.extractLsb' 0 3)

def dViset (l : LWord) (xt : Option W32) : Option Instr :=
  if lowZero l 5 ∧ lBit l 9 = false then
    (guardU l).bind fun g => (ICc.ofCode (lFld l 5 3)).bind fun cc => (predD l).bind fun pd => (lastB l (lBit l 8) xt).map fun b =>
      .viset g (ITy.ofBit (lFld l 10 1)) cc pd (srcA l) b
  else none

/-- Modifiers of R123. -/
def fMods (ty : BitVec 2) (rm : BitVec 3) (imm : BitVec 1) (cc : BitVec 3) : BitVec 11 := ty ++ (rm ++ (imm ++ (cc ++ 0#2)))

def dFOp (rmOk : BitVec 3 → Bool) (mk : FOp → Instr) (l : LWord) (xt : Option W32) : Option Instr :=
  if lowZero l 5 ∧ rmOk (lFld l 6 3) then
    (guardU l).bind fun g => (FTy.ofCode (lFld l 9 2)).bind fun ty => (lastB l (lBit l 5) xt).map fun b =>
      mk { g := g, ty := ty, rm := lFld l 6 3, d := l.vd, a := srcA l, b := b }
  else none

def dFMad (l : LWord) (xt : Option W32) : Option Instr :=
  if lowZero l 5 ∧ rmArith (lFld l 6 3) then
    (guardU l).bind fun g => (FTy.ofCode (lFld l 9 2)).bind fun ty => (lastC l (lBit l 5) xt).map fun c =>
      .vffma { g := g, ty := ty, rm := lFld l 6 3, d := l.vd, a := srcA l, b := srcB l, c := c }
  else none

def dVfsgn (l : LWord) : Option Instr :=
  if lowZero l 2 ∧ lFld l 4 5 = 0#5 ∧ zeroC l ∧ ¬ lFld l 2 2 = 3#2 then
    (guardU l).bind fun g => (FTy.ofCode (lFld l 9 2)).map fun ty => .vfsgn g ty (lFld l 2 2) l.vd (srcA l) (srcB l)
  else none

def dVfset (l : LWord) (xt : Option W32) : Option Instr :=
  if lowZero l 2 ∧ lFld l 6 5 = 0#5 then
    (guardU l).bind fun g => (predD l).bind fun pd => (lastB l (lBit l 5) xt).map fun b => .vfset g (lFld l 2 3) pd (srcA l) b
  else none

def dFUn (rmOk : BitVec 3 → Bool) (mk : FTy → BitVec 3 → UOp → Instr) (l : LWord) : Option Instr :=
  if lowZero l 6 ∧ rmOk (lFld l 6 3) then
    (FTy.ofCode (lFld l 9 2)).bind fun ty => (uOp l).map (mk ty (lFld l 6 3))
  else none

def rmZero (r : BitVec 3) : Bool := r == 0#3

/-- VCVT and its SEED form (R125). -/
def dVcvt (l : LWord) (xt : Option W32) : Option Instr :=
  if lBit l 1 then
    if lFld l 2 9 = 0#9 ∧ zeroD l then (guardU l).bind fun g => (lastA l (lBit l 0) xt).map (.vcvtSeed g) else none
  else if lBit l 0 = false ∧ cvtOk (lFld l 8 3) (lFld l 5 3) (lFld l 2 3) then
    (uOp l).map (.vcvt (lFld l 8 3) (lFld l 5 3) (lFld l 2 3))
  else none

/-- Modifiers of R126. -/
def qMods (fmtc : BitVec 4) (rm : BitVec 3) (sc ts : BitVec 1) : BitVec 11 := fmtc ++ (rm ++ (sc ++ (ts ++ 0#2)))

def qOp (l : LWord) : Option QOp :=
  if lowZero l 2 ∧ fmtcOk (lFld l 7 4) ∧ ¬ lFld l 4 3 = 6#3 then
    (guardU l).bind fun g =>
      (if lBit l 3 then some (some (srcB l)) else keep (zeroB l) none).bind fun s =>
        (if lBit l 2 then some (some (srcC l)) else keep (zeroC l) none).map fun t =>
          { g := g, fmtc := lFld l 7 4, rm := lFld l 4 3, d := l.vd, a := srcA l, s := s, t := t }
  else none

def dVqpack (l : LWord) : Option Instr := if l.feb = 0#1 then (qOp l).map .vqpack else none
def dVqunpk (l : LWord) : Option Instr := (qOp l).bind fun q => if q.rm = 5#3 then none else some (.vqunpk q)

def dVmov (l : LWord) (xt : Option W32) : Option Instr :=
  if lFld l 1 10 = 0#10 then (guardU l).bind fun g => (lastA l (lBit l 0) xt).map (.vmov g l.vd) else none
def dVsel (l : LWord) (xt : Option W32) : Option Instr :=
  if lFld l 4 7 = 0#7 then (guardU l).bind fun g => (lastB l (lBit l 3) xt).map (.vsel g (lFld l 0 3) l.vd (srcA l)) else none
def dVlid (l : LWord) : Option Instr :=
  if lFld l 2 9 = 0#9 ∧ ¬ lFld l 0 2 = 3#2 ∧ zeroA l ∧ zeroB l ∧ zeroC l then (guardN l).map fun g => .vlid g (lFld l 0 2) l.vd else none
def dVxi (l : LWord) (xt : Option W32) : Option Instr :=
  if lFld l 2 9 = 0#9 ∧ guardNone l ∧ zeroD l then (lastA l (lBit l 0) xt).map (.vxi (lBit l 1)) else none

def dVplog (l : LWord) : Option Instr :=
  if lFld l 4 7 = 0#7 ∧ zeroC l ∧ l.feb = 0#1 ∧ l.vb.toNat < 8 then
    (guardU l).bind fun g => (PlogOp.ofCode (lFld l 0 4)).bind fun op =>
      keep (plogOk op l.vd (srcA l) (l.vb.extractLsb' 0 3)) (.vplog g op l.vd (srcA l) (l.vb.extractLsb' 0 3))
  else none

/-- A predicate named in va<2:0>. -/
def predA (l : LWord) : Option (BitVec 3) := keep (decide (l.va.toNat < 8) && l.fea == 0#1) (l.va.extractLsb' 0 3)

def dVppush (l : LWord) : Option Instr :=
  if lFld l 1 10 = 0#10 ∧ guardNone l ∧ zeroD l ∧ zeroB l ∧ zeroC l then (predA l).map fun p => .vppush p (lBit l 0) else none
def dVppop (l : LWord) : Option Instr :=
  if lFld l 1 10 = 0#10 ∧ guardNone l ∧ zeroD l ∧ zeroA l ∧ zeroB l ∧ zeroC l then some (if lBit l 0 then .vppopElse else .vppop) else none
def dVfmt (l : LWord) (xt : Option W32) : Option Instr :=
  if lFld l 3 8 = 0#8 ∧ guardNone l ∧ zeroD l ∧ ¬ lFld l 0 2 = 3#2 then (lastA l (lBit l 2) xt).map (.vfmt (lFld l 0 2)) else none
def dVvote (l : LWord) : Option Instr :=
  if lFld l 4 7 = 0#7 ∧ zeroB l ∧ zeroC l then
    (guardN l).bind fun g => (VoteOp.ofCode (lFld l 0 2)).bind fun op => (VoteDest.ofCode (lFld l 2 2)).bind fun de => (predA l).bind fun p =>
      keep (de != .q || zeroD l) (.vvote g op de l.vd p)
  else none
def dVshfl (l : LWord) (xt : Option W32) : Option Instr :=
  if lFld l 7 2 = 0#2 ∧ lowZero l 2 ∧ lgOk (lFld l 3 4) then
    (guardN l).bind fun g => (lastB l (lBit l 2) xt).map (.vshfl g (ShMode.ofCode (lFld l 9 2)) (lFld l 3 4) l.vd (srcA l))
  else none
def dVtred (l : LWord) : Option Instr :=
  if lowZero l 3 ∧ lgOk (lFld l 3 4) ∧ zeroB l ∧ zeroC l then
    (guardN l).bind fun g => (RedOp.ofCode (lFld l 7 4)).map fun op => .vtred g op (lFld l 3 4) l.vd (srcA l)
  else none
def dVtscan (l : LWord) : Option Instr :=
  if lowZero l 2 ∧ lgOk (lFld l 3 4) ∧ zeroB l ∧ zeroC l then
    (guardN l).bind fun g => (RedOp.ofCode (lFld l 7 4)).map fun op => .vtscan g op (lFld l 3 4) (lBit l 2) l.vd (srcA l)
  else none

/-- Modifiers of R146. -/
def memMods (ty : BitVec 3) (sc : BitVec 2) (ix : BitVec 1) (cp : BitVec 2) (ua : BitVec 1) : BitVec 11 :=
  ty ++ (sc ++ (ix ++ (cp ++ (ua ++ 0#2))))

/-- Scale, index, displacement, base, order and scope; without IX the va field is zero (R146, R147). -/
def laddr (l : LWord) (xt : Option W32) (os : MOrd × Scope) (base : W64) : Option LAddr :=
  (limm l xt).bind fun disp =>
    (if lBit l 5 then some (some (srcA l)) else keep (zeroA l) none).map fun ix =>
      { sc := lFld l 6 2, ix := ix, disp := disp, base := base, ord := os.1, scope := os.2 }

/-- A load word: vb zero. -/
def vldF (l : LWord) (xt : Option W32) (os : MOrd × Scope) (base : W64) : Option VLd :=
  if lowZero l 2 ∧ zeroB l ∧ ordLoad os.1 then
    (guardN l).bind fun g => (LTy.ofCode (lFld l 8 3)).bind fun ty => (Cp.ofCode (lFld l 3 2)).bind fun cp => (laddr l xt os base).map fun m =>
      { g := g, ty := ty, cp := cp, ua := lBit l 2, d := l.vd, m := m }
  else none

/-- A store word: vd zero, data in vb. -/
def vstF (l : LWord) (xt : Option W32) (os : MOrd × Scope) (base : W64) : Option VSt :=
  if lowZero l 2 ∧ zeroD l ∧ ordStore os.1 then
    (guardN l).bind fun g => (LTy.ofCode (lFld l 8 3)).bind fun ty => (Cp.ofCode (lFld l 3 2)).bind fun cp => (laddr l xt os base).bind fun m =>
      keep ty.storable { g := g, ty := ty, cp := cp, ua := lBit l 2, v := srcB l, m := m }
  else none

def dVpref (l : LWord) (xt : Option W32) (base : W64) : Option Instr :=
  if lFld l 0 3 = 0#3 ∧ lFld l 8 3 = 0#3 ∧ lBit l 4 = false ∧ zeroD l ∧ zeroB l then
    (guardN l).bind fun g => (laddr l xt (.rlx, .cluster) base).map (.vpref g (lBit l 3))
  else none

/-- Modifiers of R163. -/
def atMods (ty : BitVec 3) (sc : BitVec 2) (ix : BitVec 1) (op : BitVec 4) : BitVec 11 := ty ++ (sc ++ (ix ++ (op ++ 0#1)))

def vatF (l : LWord) (xt : Option W32) (os : MOrd × Scope) (base : W64) : Option VAt :=
  if lowZero l 1 then
    (guardU l).bind fun g => (ATy.ofCode (lFld l 8 3)).bind fun ty => (AOp.ofCode (lFld l 1 4).toNat).bind fun op => (laddr l xt os base).map fun m =>
      { g := g, ty := ty, op := op, d := l.vd, b := srcB l, m := m }
  else none

def dVfence (l : LWord) : Option Instr :=
  if lowZero l 5 ∧ guardNone l ∧ zeroD l ∧ zeroA l ∧ zeroB l ∧ zeroC l then
    (MOrd.ofCode (lFld l 8 3)).bind fun o => keep (ordFence o) (.vfence { ord := o, scope := Scope.ofCode (lFld l 5 3) })
  else none
def dVbararr (l : LWord) (os : MOrd × Scope) (base : W64) : Option Instr :=
  if lFld l 1 10 = 0#10 ∧ zeroD l ∧ zeroA l ∧ zeroB l ∧ l.fec = 0#1 then
    (guardN l).map fun g => .vbararr g (lBit l 0) l.vc base os.1 os.2
  else none

/-- Opcodes 0x00 to 0x1F. -/
def decInt (l : LWord) (xt : Option W32) : Option Instr :=
  match (l.op.extractLsb' 0 5).toNat with
  | 0x00 => dIOp true .viadd l xt | 0x01 => dIOp true .visub l xt | 0x02 => dIOp true .vimul l xt | 0x03 => dIOp false .vimulh l xt
  | 0x04 => dIMad l xt | 0x05 => dIOp false .vimin l xt | 0x06 => dIOp false .vimax l xt | 0x07 => dAbs l
  | 0x08 => dBOp .vand l xt | 0x09 => dBOp .vor l xt | 0x0A => dBOp .vxor l xt | 0x0B => dUnary .vnot l
  | 0x0C => dBOp .vshl l xt | 0x0D => dBOp .vshr l xt | 0x0E => dBOp .vsar l xt | 0x0F => dUnary .vclz l
  | 0x10 => dUnary .vpopc l | 0x11 => dViset l xt
  | _ => none

/-- Opcodes 0x20 to 0x3F. -/
def decFp (l : LWord) (xt : Option W32) : Option Instr :=
  match (l.op.extractLsb' 0 5).toNat with
  | 0x00 => dFOp rmArith .vfadd l xt | 0x01 => dFOp rmArith .vfsub l xt | 0x02 => dFOp rmArith .vfmul l xt | 0x03 => dFMad l xt
  | 0x04 => dFOp rmZero .vfmin l xt | 0x05 => dFOp rmZero .vfmax l xt | 0x06 => dVfsgn l | 0x07 => dVfset l xt
  | 0x08 => dFUn rmArith .vrcp l | 0x09 => dFUn rmArith .vrsq l
  | 0x0A => dFUn rmZero (fun t _ o => .vexp2 t o) l | 0x0B => dFUn rmZero (fun t _ o => .vlog2 t o) l
  | 0x0C => dFUn rmZero (fun t _ o => .vfclass t o) l
  | _ => none

/-- Opcodes 0x40 to 0x5F. -/
def decConv (l : LWord) (xt : Option W32) : Option Instr :=
  match (l.op.extractLsb' 0 5).toNat with
  | 0x00 => dVcvt l xt | 0x01 => dVqpack l | 0x02 => dVqunpk l | 0x03 => dVmov l xt | 0x04 => dVsel l xt | 0x05 => dVlid l
  | 0x06 => dVxi l xt
  | _ => none

/-- Opcodes 0x60 to 0x7F. -/
def decCross (l : LWord) (xt : Option W32) : Option Instr :=
  match (l.op.extractLsb' 0 5).toNat with
  | 0x00 => dVplog l | 0x01 => dVppush l | 0x02 => dVppop l | 0x03 => dVfmt l xt | 0x04 => dVvote l | 0x05 => dVshfl l xt
  | 0x06 => dVtred l | 0x07 => dVtscan l
  | _ => none

/-- Opcodes 0x80 to 0x9F. -/
def decMem (l : LWord) (xt : Option W32) (os : MOrd × Scope) (base : W64) : Option Instr :=
  match (l.op.extractLsb' 0 5).toNat with
  | 0x00 => (vldF l xt os base).map .vld
  | 0x01 => (vstF l xt os base).map .vst
  | 0x02 => (vldF l xt os base).bind fun o => keep o.m.wfG (.vldg o)
  | 0x03 => (vstF l xt os base).bind fun o => keep o.m.wfG (.vstg o)
  | 0x04 => (vldF l xt os base).bind fun o => keep o.m.wfU (.vldu o)
  | 0x05 => dVpref l xt base
  | 0x06 => (vldF l xt os base).bind fun o => keep (o.ty == .n8 && !o.ua) (.vldq o)
  | 0x07 => (vstF l xt os base).bind fun o => keep (o.ty == .n8 && !o.ua) (.vstq o)
  | 0x10 => (vatF l xt os base).bind fun o => keep (atomOk false o.op o.ty) (.vatom o)
  | 0x11 => (vatF l xt os base).bind fun o => keep (o.op == .swap && o.ty.isInt) (.vcas o)
  | 0x12 => (vatF l xt os base).bind fun o => keep (atomOk true o.op o.ty && ordStore o.m.ord && o.d == 0#9) (.vred o)
  | 0x13 => dVfence l
  | 0x14 => dVbararr l os base
  | _ => none

/-- A lane word with its prefixes and base pointer as an instruction (R45). -/
def decodeLane (l : LWord) (xt : Option W32) (os : MOrd × Scope) (base : W64) : Option Instr :=
  match (l.op.extractLsb' 5 3).toNat with
  | 0 => decInt l xt | 1 => decFp l xt | 2 => decConv l xt | 3 => decCross l xt | 4 => decMem l xt os base
  | _ => none

/-! Units of emission (R40, R42, R43). -/

def opORD : BitVec 8 := 0xFE#8
def opXT : BitVec 8 := 0xFD#8

def isLaneClass (w : W64) : Bool := w.extractLsb' 63 1 == 1#1
def wOp (w : W64) : BitVec 8 := w.extractLsb' 54 8
def isPrefixWord (w : W64) : Bool := isLaneClass w && (wOp w == opORD || wOp w == opXT)

/-- Words that take a second word (R40). -/
def takesSecond (w : W64) : Bool :=
  let o := (wOp w).toNat
  decide (0x80 ≤ o ∧ o ≤ 0x87) || decide (0x90 ≤ o ∧ o ≤ 0x92) || decide (o = 0x94)

/-- Words whose form, as encoded, reads imm9 (R42, R45). -/
def takesXt (w : W64) : Bool :=
  let l := LWord.ofWord w
  let o := l.op.toNat
  if o ≤ 0x11 then !(o == 0x07 || o == 0x0B || o == 0x0F || o == 0x10) && lBit l 8
  else if 0x20 ≤ o ∧ o ≤ 0x27 then !(o == 0x26) && lBit l 5
  else if o = 0x40 then lBit l 1 && lBit l 0
  else if o = 0x43 ∨ o = 0x46 then lBit l 0
  else if o = 0x44 then lBit l 3
  else if o = 0x63 ∨ o = 0x65 then lBit l 2
  else decide (0x80 ≤ o ∧ o ≤ 0x87) || decide (0x90 ≤ o ∧ o ≤ 0x92)

/-- Orders a target allows under ORD (R42). -/
def takesOrd (w : W64) (o : MOrd) : Bool :=
  match (wOp w).toNat with
  | 0x80 | 0x82 | 0x84 | 0x86 => ordLoad o
  | 0x81 | 0x83 | 0x87 | 0x92 => ordStore o
  | 0x90 | 0x91 | 0x94 => true
  | _ => false

/-- The order and scope of an ORD word. -/
def ordOf (w : W64) : Option (MOrd × Scope) :=
  if w.extractLsb' 62 1 = 0#1 ∧ w.extractLsb' 0 48 = 0#48 then
    (MOrd.ofCode (w.extractLsb' 51 3)).map fun o => (o, Scope.ofCode (w.extractLsb' 48 3))
  else none

/-- The immediate or the register of an XT word. -/
def xtOf (w : W64) : Option (W32 ⊕ GReg) :=
  if w.extractLsb' 62 1 = 0#1 ∧ w.extractLsb' 0 16 = 0#16 then
    if w.extractLsb' 21 1 = 0#1 then keep (w.extractLsb' 16 5 == 0#5) (.inl (w.extractLsb' 22 32))
    else keep (w.extractLsb' 22 32 == 0#32) (.inr (w.extractLsb' 16 5))
  else none

/-- The base of a second word in code: a pointer, or the g register that is bound (R40). -/
def secondOf (w : W64) : Option (W64 ⊕ GReg) :=
  if w.extractLsb' 63 1 = 0#1 then some (.inl (w.extractLsb' 62 1 ++ w.extractLsb' 0 63))
  else keep (w.extractLsb' 5 58 == 0#58) (.inr (w.extractLsb' 0 5))

/-- A unit in the form in which it stands in the stream and in a rake: bound values in place, the second word a pointer (R99). -/
def decodeUnit (ws : List W64) : Option Instr :=
  let (os, ws) := match ws with
    | w :: r => if isLaneClass w && wOp w == opORD then ((ordOf w).getD (.rlx, .cluster), r) else ((.rlx, .cluster), ws)
    | [] => ((.rlx, .cluster), ws)
  let (xt, ws) := match ws with
    | w :: r => if isLaneClass w && wOp w == opXT then (some (w.extractLsb' 22 32), r) else (none, ws)
    | [] => (none, ws)
  match ws with
  | [w] => if isLaneClass w && !takesSecond w then decodeLane (LWord.ofWord w) xt os 0#64 else none
  | [w, b] => if isLaneClass w && takesSecond w then decodeLane (LWord.ofWord w) xt os b else none
  | _ => none

/-- The prefixes of a unit, then the rest. -/
def splitPrefixes : List W64 → List W64 × List W64
  | [] => ([], [])
  | w :: r => if isPrefixWord w then (let (p, q) := splitPrefixes r; (w :: p, q)) else ([], w :: r)

/-- The first prefix word with a reserved order or a reserved field that is not zero. -/
def badPrefix : List W64 → Nat → Option Nat
  | [], _ => none
  | w :: r, k =>
    let ok := if wOp w == opORD then (ordOf w).isSome else (xtOf w).isSome
    if ok then badPrefix r (k + 1) else some k

/-- A prefix word in the form of the stream: an XT bound to a register carries the register's value (R99). -/
def bindPrefix (g : GReg → W64) (w : W64) : W64 :=
  if wOp w == opXT then
    match xtOf w with
    | some (.inr r) => 1#1 ++ (0#1 ++ (opXT ++ ((g r).extractLsb' 0 32 ++ (0#1 ++ (0#5 ++ 0#16)))))
    | _ => w
  else w

/-- The prefixes allowed before target w: an ORD, then an XT, each at most once (R43). -/
def prefixesOk (ps : List W64) (w : W64) : Bool :=
  match ps with
  | [] => true
  | [p] => if wOp p == opORD then (match ordOf p with | some (o, _) => takesOrd w o | none => false) else takesXt w
  | [p, q] => wOp p == opORD && wOp q == opXT && (match ordOf p with | some (o, _) => takesOrd w o | none => false) && takesXt w
  | _ => false

/-- The check of a unit at emission, in the order of R48, and its words with values bound. The words after the prefixes are the target
and, where it takes one, its second word; a missing target, or a generator word after a prefix, is misuse. -/
def checkUnit (g : GReg → W64) (ws : List W64) : Except Reject (Instr × List W64) :=
  let (ps, rest) := splitPrefixes ws
  match badPrefix ps 0 with
  | some k => .error (.illegalPrefix k)
  | none =>
    match rest with
    | [] => .error .prefixMisuse
    | w :: r =>
      if !isLaneClass w || !prefixesOk ps w then .error .prefixMisuse
      else if takesSecond w then
        match r with
        | [] => .error .prefixMisuse
        | b :: _ =>
          match secondOf b with
          | none => (match decodeUnit (ps.map (bindPrefix g) ++ [w, 0#64]) with
            | none => .error (.illegalLane ps.length)
            | some _ => .error (.illegalLane (ps.length + 1)))
          | some (.inl p) => (let us := ps.map (bindPrefix g) ++ [w, p]
            match decodeUnit us with
            | none => .error (.illegalLane ps.length)
            | some i => .ok (i, us))
          | some (.inr q) => (let us := ps.map (bindPrefix g) ++ [w, g q]
            match decodeUnit us with
            | none => .error (.illegalLane ps.length)
            | some i => .ok (i, us))
      else
        (let us := ps.map (bindPrefix g) ++ [w]
        match decodeUnit us with
        | none => .error (.illegalLane ps.length)
        | some i => .ok (i, us))

/-! The epilogue decoder (R46, R205, R206). -/

def eAux (e : EWord) (lo n : Nat) : BitVec n := e.aux.extractLsb' lo n
def eZero (e : EWord) (useA useB useC : Bool) : Bool :=
  (useA || e.ea == 0#3) && (useB || e.eb == 0#3) && (useC || e.ec == 0#3)

def decodeE (e : EWord) : Option Instr :=
  match e.op.toNat with
  | 0x00 => keep (eZero e true true false && e.aux == 0#15) (.eadd e.ed e.ea e.eb)
  | 0x01 => keep (eZero e true true false && e.aux == 0#15) (.emul e.ed e.ea e.eb)
  | 0x02 => keep (e.aux == 0#15) (.efma e.ed e.ea e.eb e.ec)
  | 0x03 => keep (eZero e true true false && e.aux == 0#15) (.emax e.ed e.ea e.eb)
  | 0x04 => keep (eZero e true true false && e.aux == 0#15) (.emin e.ed e.ea e.eb)
  | 0x05 => keep (eAux e 3 12 == 0#12 && decide ((eAux e 0 3).toNat < 6)) (.esel e.ed e.ea e.eb e.ec (eAux e 0 3))
  | 0x06 => keep (eZero e true false false && e.aux == 0#15) (.eexp2 e.ed e.ea)
  | 0x07 => keep (eZero e true false false && e.aux == 0#15) (.ercp e.ed e.ea)
  | 0x08 => keep (eZero e true false false && eAux e 7 8 == 0#8 && !(eAux e 4 3 == 5#3 || eAux e 4 3 == 6#3) && decide ((eAux e 0 4).toNat ≤ 12))
      (.ecvt e.ed e.ea (eAux e 4 3) (eAux e 0 4))
  | 0x09 => keep (eZero e false false false && eAux e 6 9 == 0#9 && !(eAux e 4 2 == 3#2)) (.eldc e.ed (eAux e 4 2) (eAux e 0 4))
  | 0x0A => keep (eZero e false false false && eAux e 1 14 == 0#14) (.eldr e.ed (ofBit1 (eAux e 0 1)))
  | 0x0B => keep (eZero e false false false && e.aux == 0#15) (.eldm e.ed)
  | 0x0C => keep (eZero e true false false && e.aux == 0#15) (.eadpt e.ed e.ea)
  | 0x0D => keep (eZero e true false false && e.aux == 0#15) (.ermax e.ed e.ea)
  | 0x0E => keep (eZero e true false false && e.aux == 0#15) (.ersum e.ed e.ea)
  | 0x0F => keep (e.ed == 0#3 && eZero e true false false && eAux e 11 4 == 0#4 && estOk (eAux e 9 2) (eAux e 6 3) (eAux e 2 4) (eAux e 0 2))
      (.est e.ea (eAux e 9 2) (eAux e 6 3) (eAux e 2 4) (eAux e 0 2))
  | 0x10 => keep (e.ed == 0#3 && eZero e false false false && e.aux == 0#15) .eend
  | _ => none

/-! The encoder, from the same tables. -/

def gEnc (maj : BitVec 7) (min : BitVec 6) (d a b : GReg) (i : BitVec 1) (imm : BitVec 34) : W64 :=
  (GWord.mk maj min d a b i imm).word

/-- Generator word with a last source. -/
def gEncS (maj : BitVec 7) (min : BitVec 6) (d a : GReg) : GSrc → W64
  | .reg b => gEnc maj min d a b 0 0
  | .imm v => gEnc maj min d a 0 1 v

def gEncImm (maj : BitVec 7) (min : BitVec 6) (d a : GReg) (v : BitVec 34) : W64 := gEnc maj min d a 0 1 v

def encLd (maj : BitVec 7) (f : LdF) : W64 :=
  gEnc maj (0#1 ++ (ord2Code f.ord ++ f.ty.code)) f.r f.a (0#2 ++ f.scope.code) 1 f.disp
def encLdx (maj : BitVec 7) (f : LdxF) : W64 :=
  gEnc maj (0#1 ++ (ord2Code f.ord ++ 0#3)) f.r f.a (0#2 ++ f.scope.code) 1 f.disp
def encAt (maj : BitVec 7) (op : BitVec 6) (ty : BitVec 3) (f : AtF) : W64 :=
  gEnc maj op f.d f.a f.b 0 (f.ord.code ++ (f.scope.code ++ (ty ++ (0#5 ++ f.disp))))

/-- A name in ga, or in imm34 (R264, R274). -/
def gEncN (maj : BitVec 7) (d : GReg) : GSrc → W64
  | .reg a => gEnc maj 0 d a 0 0 0
  | .imm v => gEnc maj 0 d 0 0 1 v

/-- The words of a generator instruction (R32 to R34). -/
def encodeG : Instr → Option (List W64)
  | .nop => some [gEnc 0 0 0 0 0 0 0]
  | .add d a b => some [gEncS 0x01 0 d a b]
  | .sub d a b => some [gEncS 0x02 0 d a b]
  | .mul d a b => some [gEncS 0x03 0 d a b]
  | .mulh d a b => some [gEncS 0x04 0 d a b]
  | .mulhn d a b => some [gEncS 0x05 0 d a b]
  | .div d a b => some [gEncS 0x06 0 d a b]
  | .divn d a b => some [gEncS 0x07 0 d a b]
  | .rem d a b => some [gEncS 0x08 0 d a b]
  | .remn d a b => some [gEncS 0x09 0 d a b]
  | .and d a b => some [gEncS 0x0A 0 d a b]
  | .or d a b => some [gEncS 0x0B 0 d a b]
  | .xor d a b => some [gEncS 0x0C 0 d a b]
  | .shl d a b => some [gEncS 0x0D 0 d a b]
  | .shr d a b => some [gEncS 0x0E 0 d a b]
  | .sar d a b => some [gEncS 0x0F 0 d a b]
  | .min d a b => some [gEncS 0x10 0 d a b]
  | .max d a b => some [gEncS 0x11 0 d a b]
  | .minn d a b => some [gEncS 0x12 0 d a b]
  | .maxn d a b => some [gEncS 0x13 0 d a b]
  | .clz d a => some [gEnc 0x14 0 d a 0 0 0]
  | .popc d a => some [gEnc 0x15 0 d a 0 0 0]
  | .seq d a b => some [gEncS 0x16 0 d a b]
  | .slt d a b => some [gEncS 0x17 0 d a b]
  | .sltn d a b => some [gEncS 0x18 0 d a b]
  | .sel d a b => some [gEncS 0x19 0 d a b]
  | .li d v => some [gEnc 0x1A 0 d 0 0 0 0, v]
  | .csrr d n => some [gEncImm 0x1B 0 d 0 (n.setWidth 34)]
  | .csrw n a => some [gEncImm 0x1C 0 0 a (n.setWidth 34)]
  | .csrwSet d n a => some [gEncImm 0x1C 1 d a (n.setWidth 34)]
  | .csrwClr d n a => some [gEncImm 0x1C 2 d a (n.setWidth 34)]
  | .ld f => some [encLd 0x20 f]
  | .st f => some [encLd 0x21 f]
  | .ldx f => some [encLdx 0x22 f]
  | .stx f => some [encLdx 0x23 f]
  | .b o => some [gEnc 0x28 0 0 0 0 0 o]
  | .bc c a b o => some [gEnc 0x29 c.code 0 a b 0 o]
  | .call o => some [gEnc 0x2A 0 0 0 0 0 o]
  | .ret => some [gEnc 0x2B 0 0 0 0 0 0]
  | .jr d a => some [gEnc 0x2C 0 d a 0 0 0]
  | .loop d o => some [gEnc 0x2D 0 d 0 0 0 o]
  | .teamN (.reg a) => some [gEnc 0x30 0 0 a 0 0 0]
  | .teamN (.imm v) => some [gEncImm 0x30 0 0 0 v]
  | .teamM a i => some [gEncS 0x30 1 0 a i]
  | .qset c a => some [gEncImm 0x31 0 0 a (c.setWidth 34)]
  | .beginS r => some [gEncImm 0x32 0 0 0 (r.setWidth 34)]
  | .endS => some [gEnc 0x33 0 0 0 0 0 0]
  | .hole k kd (.reg a) => some [gEnc 0x34 (k ++ kd.code) 0 a 0 0 0]
  | .hole k kd (.imm v) => some [gEncImm 0x34 (k ++ kd.code) 0 0 v]
  | .replay r a => some [gEncImm 0x35 0 0 a (r.setWidth 34)]
  | .replayi r a => some [gEncImm 0x36 0 0 a (r.setWidth 34)]
  | .dropS r => some [gEncImm 0x37 0 0 0 (r.setWidth 34)]
  | .dropSAll => some [gEnc 0x37 1 0 0 0 0 0]
  | .mcastOff => some [gEnc 0x38 0 0 0 0 0 0]
  | .mcastOn => some [gEnc 0x38 1 0 0 0 0 0]
  | .mcastRecv => some [gEnc 0x38 2 0 0 0 0 0]
  | .vqpop d => some [gEnc 0x39 0 d 0 0 0 0]
  | .vqtry d => some [gEnc 0x3A 0 d 0 0 0 0]
  | .drain => some [gEnc 0x3B 0 0 0 0 0 0]
  | .atom op ty f => some [encAt 0x40 (BitVec.ofNat 6 op.code) ty.code f]
  | .cas ty f => some [encAt 0x41 0 ty.code f]
  | .red op ty f => some [encAt 0x42 (BitVec.ofNat 6 op.code) ty.code f]
  | .fence f => some [gEnc 0x43 (0#3 ++ f.ord.code) 0 0 (0#2 ++ f.scope.code) 0 0]
  | .semacq d s n => some [gEncS 0x44 s d 0 n]
  | .semrel d s n => some [gEncS 0x45 s d 0 n]
  | .semtry d s n => some [gEncS 0x46 s d 0 n]
  | .semset s a => some [gEnc 0x47 s 0 a 0 0 0]
  | .semget d s => some [gEnc 0x48 s d 0 0 0 0]
  | .barinit f => some [encAt 0x49 0 0 f]
  | .bararr f => some [encAt 0x4A 0 0 f]
  | .barwait f => some [encAt 0x4B 0 0 f]
  | .bartest f => some [encAt 0x4C 0 0 f]
  | .waitc w cc f => some [encAt 0x4D cc.code (if w then 2#3 else 0#3) f]
  | .tryw d t => some [gEncS 0x4E 0 d 0 t]
  | .mcfgA q => some [gEnc 0x50 0 0 q 0 0 0]
  | .mcfgB q => some [gEnc 0x50 1 0 q 0 0 0]
  | .mcfgResume => some [gEnc 0x50 2 0 0 0 0 0]
  | .mcfgAbandon => some [gEnc 0x50 3 0 0 0 0 0]
  | .mzero m => some [gEncImm 0x51 0 0 0 (m.setWidth 34)]
  | .mloop z adp a => some [gEncImm 0x52 0 0 a ((bit1 adp ++ z).setWidth 34)]
  | .mloopr ra rb z adp ha hb a => some [gEncImm 0x53 (0#4 ++ (bit1 rb ++ bit1 ra)) 0 a ((hb ++ (ha ++ (bit1 adp ++ z))).setWidth 34)]
  | .mtile l z a b => some [gEnc 0x54 (l.code ++ z) 0 a b 0 0]
  | .mtileEng a => some [gEnc 0x54 56 0 a 0 0 0]
  | .mstt l z a b => some [gEnc 0x55 (l.code ++ z) 0 a b 0 0]
  | .msttEng a => some [gEnc 0x55 56 0 a 0 0 0]
  | .mdrain z c a b none => some [gEnc 0x56 (0#2 ++ (bit1 c ++ z)) 0 a b 0 0]
  | .mdrain z c _ _ (some h) => some [gEncImm 0x56 (0#2 ++ (bit1 c ++ z)) 0 0 (h.setWidth 34)]
  | .mwait => some [gEnc 0x57 0 0 0 0 0 0]
  | .mwaitTile z => some [gEncImm 0x57 1 0 0 (z.setWidth 34)]
  | .mwaitStop => some [gEnc 0x57 2 0 0 0 0 0]
  | .madpt q => some [gEnc 0x58 0 0 q 0 0 0]
  | .madptOff => some [gEnc 0x58 1 0 0 0 0 0]
  | .mprog a b => some [gEnc 0x59 0 0 a b 0 0]
  | .mmovt t w z v => some [gEncImm 0x5A (0#1 ++ (z ++ (bit1 w ++ bit1 t))) 0 0 (v.setWidth 34)]
  | .spxWait d z a => some [gEncImm 0x5B 0 d a (z.setWidth 34)]
  | .spxFb d z a => some [gEncImm 0x5B 1 d a (z.setWidth 34)]
  | .spcomp d a => some [gEnc 0x5C 0 d a 0 0 0]
  | .spinv a => some [gEnc 0x5D 0 0 a 0 0 0]
  | .spinvAll => some [gEnc 0x5D 1 0 0 0 0 0]
  | .spqry d a => some [gEnc 0x5E 0 d a 0 0 0]
  | .spqryWord d a b => some [gEnc 0x5E 1 d a b 0 0]
  | .spcfg d a => some [gEnc 0x5F 0 d a 0 0 0]
  | .ctpl x a => some [gEncImm 0x60 0 0 a (x.setWidth 34)]
  | .ringdef h q => some [gEncImm 0x61 0 0 q (h.setWidth 34)]
  | .ringdefShare h c hs => some [gEncImm 0x61 1 0 0 ((hs ++ (0#1 ++ (c ++ h))).setWidth 34)]
  | .ringdefOff h => some [gEncImm 0x61 2 0 0 (h.setWidth 34)]
  | .rtag d h a => some [gEnc 0x62 (0#2 ++ h) d a 0 0 0]
  | .rtagCas d h a b => some [gEnc 0x62 (1#2 ++ h) d a b 0 0]
  | .rwait d h a b => some [gEnc 0x63 (0#2 ++ h) d a b 0 0]
  | .chst d c => some [gEnc 0x64 (0#3 ++ c) d 0 0 0 0]
  | .chresRetry d c => some [gEnc 0x65 (0#3 ++ c) d 0 0 0 0]
  | .chresAbort d c => some [gEnc 0x65 (1#3 ++ c) d 0 0 0 0]
  | .chdrain d n => some [gEncS 0x66 0 d 0 n]
  | .subsFill d h a => some [gEnc 0x67 (0#2 ++ h) d a 0 0 0]
  | .subsStore d h a => some [gEnc 0x67 (1#2 ++ h) d a 0 0 0]
  | .subk d h a => some [gEnc 0x68 (0#2 ++ h) d a 0 0 0]
  | .unsub d a => some [gEnc 0x69 0 d a 0 0 0]
  | .twaitp k => some [gEncImm 0x6A 0 0 0 (k.setWidth 34)]
  | .twaitpAll => some [gEnc 0x6A 1 0 0 0 0 0]
  | .thint => some [gEnc 0x6B 0 0 0 0 0 0]
  | .tdone => some [gEnc 0x6C 0 0 0 0 0 0]
  | .tspawn d a b => some [gEnc 0x6D 0 d a b 0 0]
  | .qpush d a q => some [gEnc 0x6E 0 d a q 0 0]
  | .qpopb q n => some [gEncN 0x6F q n]
  | .qinsd d a q => some [gEnc 0x70 0 d a q 0 0]
  | .qrange d a q => some [gEnc 0x71 0 d a q 0 0]
  | .qnext d => some [gEnc 0x72 0 d 0 0 0 0]
  | .qstat d n => some [gEncN 0x73 d n]
  | .msgpop o n => some [gEncN 0x74 o n]
  | .msgpeek o n => some [gEncN 0x75 o n]
  | .msgrst d a b => some [gEnc 0x76 0 d a b 0 0]
  | .trap c => some [gEncImm 0x78 0 0 0 (c.setWidth 34)]
  | .eret => some [gEnc 0x79 0 0 0 0 0 0]
  | .eretSkip => some [gEnc 0x79 1 0 0 0 0 0]
  | .eretFlush => some [gEnc 0x79 2 0 0 0 0 0]
  | .yield => some [gEnc 0x7A 0 0 0 0 0 0]
  | .svstrm d a => some [gEnc 0x7B 0 d a 0 0 0]
  | .rsstrm a => some [gEnc 0x7C 0 0 a 0 0 0]
  | .barfl => some [gEnc 0x7D 0 0 0 0 0 0]
  | .brk c => some [gEncImm 0x7E 0 0 0 (c.setWidth 34)]
  | .sysopHalt => some [gEnc 0x7F 0 0 0 0 0 0]
  | .sysopIcsync => some [gEnc 0x7F 1 0 0 0 0 0]
  | .sysopXtinv d a b => some [gEnc 0x7F 2 d a b 0 0]
  | .sysopTcinv a b => some [gEnc 0x7F 3 0 a b 0 0]
  | .migopClaim d a b | .migopComplete d a b => some [gEnc 0x7F 4 d a b 0 0]
  | .haltSoft d a b | .haltHard d a b | .resume d a b | .dbgopStatus d a b => some [gEnc 0x7F 5 d a b 0 0]
  | _ => none

/-! Lane units, in the form of the stream. -/

def lEnc (op : BitVec 8) (g : Guard) (vd va vb vc : VReg) (fa fb fc : Bool) (mods : BitVec 11) : LWord :=
  { u := bit1 g.u, op := op, vd := vd, va := va, vb := vb, vc := vc, pred := g.pred, neg := bit1 g.neg,
    fea := bit1 fa, feb := bit1 fb, fec := bit1 fc, mods := mods }

/-- imm9 of an immediate: zero when an XT carries it. -/
def LImm.field : LImm → BitVec 9
  | .i9 v => v
  | .x32 _ => 0#9

def LImm.xt : LImm → Option W32
  | .i9 _ => none
  | .x32 v => some v

def LSrc.xt : LSrc → Option W32
  | .reg _ => none
  | .imm v => v.xt

def LSrc.isImm : LSrc → BitVec 1
  | .reg _ => 0#1
  | .imm _ => 1#1

/-- vb and vc, with their FE bits, of a last source in vb. -/
def LSrc.inB : LSrc → VReg × Bool × VReg
  | .reg s => (s.r, s.fe, 0#9)
  | .imm v => (0#9, false, v.field)

/-- vc, with its FE bit, of a last source in vc. -/
def LSrc.inC : LSrc → VReg × Bool
  | .reg s => (s.r, s.fe)
  | .imm v => (v.field, false)

def lEncB (op : BitVec 8) (g : Guard) (d : VReg) (a : Src) (b : LSrc) (mods : BitVec 11) : LWord :=
  lEnc op g d a.r b.inB.1 b.inB.2.2 a.fe b.inB.2.1 false mods

def lEncC (op : BitVec 8) (g : Guard) (d : VReg) (a b : Src) (c : LSrc) (mods : BitVec 11) : LWord :=
  lEnc op g d a.r b.r c.inC.1 a.fe b.fe c.inC.2 mods

/-- One source in va, or the immediate. -/
def lEncA (op : BitVec 8) (g : Guard) (d : VReg) (a : LSrc) (mods : BitVec 11) : LWord :=
  match a with
  | .reg s => lEnc op g d s.r 0#9 0#9 s.fe false false mods
  | .imm v => lEnc op g d 0#9 0#9 v.field false false false mods

def lEncU (op : BitVec 8) (o : UOp) (mods : BitVec 11) : LWord := lEnc op o.g o.d o.a.r 0#9 0#9 o.a.fe false false mods

def iEnc (op : BitVec 8) (o : IOp) : LWord := lEncB op o.g o.d o.a o.b (intMods o.ty.bit (bit1 o.sat) o.b.isImm 0)
def bEnc (op : BitVec 8) (o : BOp) : LWord := lEncB op o.g o.d o.a o.b (intMods 0 0 o.b.isImm 0)
def fEnc (op : BitVec 8) (o : FOp) : LWord := lEncB op o.g o.d o.a o.b (fMods o.ty.code o.rm o.b.isImm 0)

def qEnc (op : BitVec 8) (q : QOp) : LWord :=
  lEnc op q.g q.d q.a.r (q.s.elim 0#9 Src.r) (q.t.elim 0#9 Src.r) q.a.fe (q.s.elim false Src.fe) (q.t.elim false Src.fe)
    (qMods q.fmtc q.rm (bit1 q.s.isSome) (bit1 q.t.isSome))

def ldEnc (op : BitVec 8) (o : VLd) : LWord :=
  lEnc op o.g o.d (o.m.ix.elim 0#9 Src.r) 0#9 o.m.disp.field (o.m.ix.elim false Src.fe) false false
    (memMods o.ty.code o.m.sc (bit1 o.m.ix.isSome) o.cp.code (bit1 o.ua))
def stEnc (op : BitVec 8) (o : VSt) : LWord :=
  lEnc op o.g 0#9 (o.m.ix.elim 0#9 Src.r) o.v.r o.m.disp.field (o.m.ix.elim false Src.fe) o.v.fe false
    (memMods o.ty.code o.m.sc (bit1 o.m.ix.isSome) o.cp.code (bit1 o.ua))
def atEnc (op : BitVec 8) (o : VAt) : LWord :=
  lEnc op o.g o.d (o.m.ix.elim 0#9 Src.r) o.b.r o.m.disp.field (o.m.ix.elim false Src.fe) o.b.fe false
    (atMods o.ty.code o.m.sc (bit1 o.m.ix.isSome) (BitVec.ofNat 4 o.op.code))

/-- A lane unit apart: order and scope, XT immediate, word, base pointer. -/
structure LUnit where
  os : MOrd × Scope
  xt : Option W32
  l : LWord
  base : Option W64
  deriving DecidableEq, Repr

def uPlain (xt : Option W32) (l : LWord) : LUnit := ⟨(.rlx, .cluster), xt, l, none⟩
def uMem (m : LAddr) (l : LWord) : LUnit := ⟨(m.ord, m.scope), m.disp.xt, l, some m.base⟩

/-- The unit of a lane instruction (R35, R45). -/
def encodeL : Instr → Option LUnit
  | .viadd o => some (uPlain o.b.xt (iEnc 0x00 o))
  | .visub o => some (uPlain o.b.xt (iEnc 0x01 o))
  | .vimul o => some (uPlain o.b.xt (iEnc 0x02 o))
  | .vimulh o => some (uPlain o.b.xt (iEnc 0x03 o))
  | .vimad o => some (uPlain o.c.xt (lEncC 0x04 o.g o.d o.a o.b o.c (intMods o.ty.bit (bit1 o.sat) o.c.isImm 0)))
  | .vimin o => some (uPlain o.b.xt (iEnc 0x05 o))
  | .vimax o => some (uPlain o.b.xt (iEnc 0x06 o))
  | .viabs sat o => some (uPlain none (lEncU 0x07 o (intMods 0 (bit1 sat) 0 0)))
  | .vand o => some (uPlain o.b.xt (bEnc 0x08 o))
  | .vor o => some (uPlain o.b.xt (bEnc 0x09 o))
  | .vxor o => some (uPlain o.b.xt (bEnc 0x0A o))
  | .vnot o => some (uPlain none (lEncU 0x0B o 0))
  | .vshl o => some (uPlain o.b.xt (bEnc 0x0C o))
  | .vshr o => some (uPlain o.b.xt (bEnc 0x0D o))
  | .vsar o => some (uPlain o.b.xt (bEnc 0x0E o))
  | .vclz o => some (uPlain none (lEncU 0x0F o 0))
  | .vpopc o => some (uPlain none (lEncU 0x10 o 0))
  | .viset g ty cc pd a b => some (uPlain b.xt (lEncB 0x11 g (0#6 ++ pd) a b (intMods ty.bit 0 b.isImm cc.code)))
  | .vfadd o => some (uPlain o.b.xt (fEnc 0x20 o))
  | .vfsub o => some (uPlain o.b.xt (fEnc 0x21 o))
  | .vfmul o => some (uPlain o.b.xt (fEnc 0x22 o))
  | .vffma o => some (uPlain o.c.xt (lEncC 0x23 o.g o.d o.a o.b o.c (fMods o.ty.code o.rm o.c.isImm 0)))
  | .vfmin o => some (uPlain o.b.xt (fEnc 0x24 o))
  | .vfmax o => some (uPlain o.b.xt (fEnc 0x25 o))
  | .vfsgn g ty op d a b => some (uPlain none (lEncB 0x26 g d a (.reg b) (fMods ty.code 0 0 (0#1 ++ op))))
  | .vfset g cc pd a b => some (uPlain b.xt (lEncB 0x27 g (0#6 ++ pd) a b (fMods 0 0 b.isImm cc)))
  | .vrcp ty rm o => some (uPlain none (lEncU 0x28 o (fMods ty.code rm 0 0)))
  | .vrsq ty rm o => some (uPlain none (lEncU 0x29 o (fMods ty.code rm 0 0)))
  | .vexp2 ty o => some (uPlain none (lEncU 0x2A o (fMods ty.code 0 0 0)))
  | .vlog2 ty o => some (uPlain none (lEncU 0x2B o (fMods ty.code 0 0 0)))
  | .vfclass ty o => some (uPlain none (lEncU 0x2C o (fMods ty.code 0 0 0)))
  | .vcvt dt st rm o => some (uPlain none (lEncU 0x40 o (dt ++ (st ++ (rm ++ 0#2)))))
  | .vcvtSeed g a => some (uPlain a.xt (lEncA 0x40 g 0 a (0#9 ++ (1#1 ++ a.isImm))))
  | .vqpack q => some (uPlain none (qEnc 0x41 q))
  | .vqunpk q => some (uPlain none (qEnc 0x42 q))
  | .vmov g d a => some (uPlain a.xt (lEncA 0x43 g d a (0#10 ++ a.isImm)))
  | .vsel g ps d a b => some (uPlain b.xt (lEncB 0x44 g d a b (0#7 ++ (b.isImm ++ ps))))
  | .vlid g w d => some (uPlain none (lEnc 0x45 g d 0 0 0 false false false (0#9 ++ w)))
  | .vxi add a => some (uPlain a.xt (lEncA 0x46 Guard.plain 0 a (0#9 ++ (bit1 add ++ a.isImm))))
  | .vplog g op d a pb => some (uPlain none (lEnc 0x60 g d a.r (0#6 ++ pb) 0 a.fe false false (0#7 ++ op.code)))
  | .vppush ps neg => some (uPlain none (lEnc 0x61 Guard.plain 0 (0#6 ++ ps) 0 0 false false false (0#10 ++ bit1 neg)))
  | .vppop => some (uPlain none (lEnc 0x62 Guard.plain 0 0 0 0 false false false 0))
  | .vppopElse => some (uPlain none (lEnc 0x62 Guard.plain 0 0 0 0 false false false 1))
  | .vfmt op a => some (uPlain a.xt (lEncA 0x63 Guard.plain 0 a (0#8 ++ (a.isImm ++ op))))
  | .vvote g op de d ps => some (uPlain none (lEnc 0x64 g d (0#6 ++ ps) 0 0 false false false (0#7 ++ (de.code ++ op.code))))
  | .vshfl g mode lg d a b => some (uPlain b.xt (lEncB 0x65 g d a b (mode.code ++ (0#2 ++ (lg ++ (b.isImm ++ 0#2))))))
  | .vtred g op lg d a => some (uPlain none (lEnc 0x66 g d a.r 0 0 a.fe false false (op.code ++ (lg ++ 0#3))))
  | .vtscan g op lg ex d a => some (uPlain none (lEnc 0x67 g d a.r 0 0 a.fe false false (op.code ++ (lg ++ (bit1 ex ++ 0#2)))))
  | .vld o => some (uMem o.m (ldEnc 0x80 o))
  | .vst o => some (uMem o.m (stEnc 0x81 o))
  | .vldg o => some (uMem o.m (ldEnc 0x82 o))
  | .vstg o => some (uMem o.m (stEnc 0x83 o))
  | .vldu o => some (uMem o.m (ldEnc 0x84 o))
  | .vpref g l2 m => some (uMem m (lEnc 0x85 g 0 (m.ix.elim 0#9 Src.r) 0 m.disp.field (m.ix.elim false Src.fe) false false
      (memMods 0 m.sc (bit1 m.ix.isSome) (0#1 ++ bit1 l2) 0)))
  | .vldq o => some (uMem o.m (ldEnc 0x86 o))
  | .vstq o => some (uMem o.m (stEnc 0x87 o))
  | .vatom o => some (uMem o.m (atEnc 0x90 o))
  | .vcas o => some (uMem o.m (atEnc 0x91 o))
  | .vred o => some (uMem o.m (atEnc 0x92 o))
  | .vfence f => some (uPlain none (lEnc 0x93 Guard.plain 0 0 0 0 false false false (f.ord.code ++ (f.scope.code ++ 0#5))))
  | .vbararr g lanes disp base ord scope =>
      some ⟨(ord, scope), none, lEnc 0x94 g 0 0 0 disp false false false (0#10 ++ bit1 lanes), some base⟩
  | _ => none

/-- The words of a unit in the form of the stream: an ORD unless it is relaxed at CLUSTER, an XT for an immediate of 32 bits. -/
def LUnit.words (u : LUnit) : List W64 :=
  (if u.os = (.rlx, .cluster) then [] else [1#1 ++ (0#1 ++ (opORD ++ (u.os.1.code ++ (u.os.2.code ++ 0#48))))])
    ++ (u.xt.elim [] fun v => [1#1 ++ (0#1 ++ (opXT ++ (v ++ 0#22)))])
    ++ (u.l.word :: u.base.toList)

/-- The fields of an epilogue instruction's word. -/
def encodeE : Instr → Option EWord
  | .eadd d a b => some ⟨0x00, d, a, b, 0, 0⟩
  | .emul d a b => some ⟨0x01, d, a, b, 0, 0⟩
  | .efma d a b c => some ⟨0x02, d, a, b, c, 0⟩
  | .emax d a b => some ⟨0x03, d, a, b, 0, 0⟩
  | .emin d a b => some ⟨0x04, d, a, b, 0, 0⟩
  | .esel d a b c cc => some ⟨0x05, d, a, b, c, 0#12 ++ cc⟩
  | .eexp2 d a => some ⟨0x06, d, a, 0, 0, 0⟩
  | .ercp d a => some ⟨0x07, d, a, 0, 0, 0⟩
  | .ecvt d a rm fmt => some ⟨0x08, d, a, 0, 0, 0#8 ++ (rm ++ fmt)⟩
  | .eldc d kind k => some ⟨0x09, d, 0, 0, 0, 0#9 ++ (kind ++ k)⟩
  | .eldr d rv => some ⟨0x0A, d, 0, 0, 0, 0#14 ++ bit1 rv⟩
  | .eldm d => some ⟨0x0B, d, 0, 0, 0, 0⟩
  | .eadpt d a => some ⟨0x0C, d, a, 0, 0, 0⟩
  | .ermax d a => some ⟨0x0D, d, a, 0, 0, 0⟩
  | .ersum d a => some ⟨0x0E, d, a, 0, 0, 0⟩
  | .est a bs rm fmt mode => some ⟨0x0F, 0, a, 0, 0, 0#4 ++ (bs ++ (rm ++ (fmt ++ mode)))⟩
  | .eend => some ⟨0x10, 0, 0, 0, 0, 0⟩
  | _ => none

/-- The words of a well-formed generator or lane instruction; an epilogue word stands in the low half. Empty for the steps of other
agents, which have no encoding. -/
def encode (i : Instr) : List W64 :=
  match encodeG i with
  | some ws => ws
  | none =>
    match encodeL i with
    | some u => u.words
    | none =>
      match encodeE i with
      | some e => [e.word.setWidth 64]
      | none => []

/-- The instruction that code words hold: a generator word, or a lane unit in the form of the stream (R31). -/
def decodeWords (ws : List W64) : Option Instr :=
  match ws with
  | [] => none
  | w :: r => if isLaneClass w then decodeUnit ws else decodeG (GWord.ofWord w) (r.headD 0#64)

/-- The host's question: bits numbered from the first word. A row of 32 bits is an epilogue word; a lane word is followed by its second
word in code, zero where the table gives it no bits. -/
def decodeTableWord (nbits w : Nat) : Option Instr :=
  if nbits ≤ 32 then decodeE (EWord.ofWord (BitVec.ofNat 32 w))
  else
    let w0 := BitVec.ofNat 64 w
    let w1 := BitVec.ofNat 64 (w / 2 ^ 64)
    if isLaneClass w0 then
      (match checkUnit (fun _ => 0#64) (if takesSecond w0 then [w0, w1] else [w0]) with
      | .ok (i, _) => some i
      | .error _ => none)
    else decodeG (GWord.ofWord w0) w1

end Sys2Proof
end

