-- ==== Sys2Proof/Config.lean ====
section
/-! DEFINITION. What the manual leaves open: free values with no body, so that no proof sees what they are.
A free value drawn by a step is one of these functions applied to the counter State.freeCtr (log 2, DESIGN CHOICE). -/

namespace Sys2Proof.Config

/-- Main-clock cycles that step number n takes: timing is free (log 10, DESIGN CHOICE). -/
opaque stepMc : Nat → Nat
/-- Microseconds of the device timebase that step number n takes (log 10, DESIGN CHOICE). -/
opaque stepUs : Nat → Nat
/-- A free 64-bit value, the n-th drawn (g registers before the restore routine reloads them, log 7, DESIGN CHOICE). -/
opaque freeW64 : Nat → W64
/-- A free 32-bit value, the n-th drawn. -/
opaque freeW32 : Nat → W32
/-- A free yes or no, the n-th drawn: whether a reduction joins the pending entry (R65). -/
opaque mergeChoice : Nat → Bool
/-- The way of an L1 set that is replaced when all 16 are in use (R144 names no replacement order). -/
opaque l1Victim : Nat → Nat
/-- The line of a full slice of the host partition that the n-th fill replaces (R341 names no replacement order). -/
opaque partVictim : Nat → Nat
/-- Whether an agent of a peer has written a byte of its memory since this package last accessed it, at the n-th read. -/
opaque peerWrote : Nat → Bool
/-- The choice of a drawbar port among those of a peer's mask, by 256-byte line (R344). -/
opaque portHash : Nat → Nat
/-- The rank, in the n-th atomic word, of a lane among those that meet at one location (R164). -/
opaque laneRank : Nat → Nat → Nat
/-- Faithful rounding (R64): true takes the upper of the two bracketing values. Operation, format code, operand code. -/
opaque faithfulUp : Nat → Nat → Nat → Bool
/-- Entry of the firmware save routine (R302). -/
opaque fwSaveVec : W64
/-- Entry of the firmware restore routine (R302). -/
opaque fwRestVec : W64
/-- A peer's answer, modulo 3, to an access to a 256-byte line at step n: 0 granted, 1 refused by its ingress entries, 2 the packet was
lost (R343, R345). -/
opaque peerAnswer : Nat → Nat → Nat
/-- Whether the spawn queue of this package's dispatcher is full at step n (R261 gives no size). -/
opaque spawnFull : Nat → Bool
/-- The value a peer's memory or unit returns for the n-th drawbar read, where other agents of the peer may write it. -/
opaque peerReply : Nat → Nat
/-- Whether both signatures over an image verify (R348); the keys are the device's. -/
opaque fwVerifies : List Byte → Bool
/-- The security version an image carries (R348). -/
opaque fwVersion : List Byte → Nat
/-- The minimum security version fused in the device (R348). -/
opaque fusedVersion : Nat
/-- The n-th signed SPDM response, in its ML-DSA-65 form or the Ed25519 one, to a request, over the measured image, its security version and
the configuration of PF0 (R348). -/
opaque spdmResponse : Nat → Bool → List Byte → List Byte → Nat → List Nat → List Byte
/-- Whether an image is still being staged when a request arrives at step n (R364). -/
opaque stagingBusy : Nat → Bool
/-- Whether the flash entry of a digest passes its checksum in the n-th reset sequence (R355). -/
opaque flashOk : Nat → List Byte → Bool
/-- The word at an offset of reserved memory that the firmware's save and restore routines consist of (R291, R292, R358). -/
opaque fwWord : Nat → W64
/-- Keys of the bytes in which an uncorrectable error arises at step n (R347). -/
opaque upsets : Nat → List Nat
/-- Soft errors that die d corrects at step n (R347). -/
opaque corrected : Nat → Nat → Nat
/-- The translator version of a firmware image (R353). -/
opaque xlVersion : List Byte → Nat
/-- Whether phase p of the n-th reset sequence succeeds (R358, phases 1, 3, 4, 5 and 6). -/
opaque phaseOk : Nat → Nat → Bool

/-- The choice among the moves that are possible at step n, when the agenda names none (log 1, DESIGN CHOICE). -/
opaque sched : Nat → Nat
/-- Byte b of a frame of internal layout whose number is n (R198, R287). -/
opaque frameByte : Nat → Nat → Byte
/-- The HBM stack of a physical address, modulo 12 (R9 gives the stacks, no map of addresses to them). -/
opaque stackOf : Nat → Nat
/-- The issue port, modulo 2, that a generator's move at step n uses (R81). -/
opaque genPort : Nat → Nat
/-- Whether a cluster's fetched code still holds a word at step n (R356 names no replacement order). -/
opaque codeHeld : Nat → Nat → Bool

end Sys2Proof.Config
end

