-- ==== Sys2Proof/Machine/SMap.lean ====
section
/-! DEFINITION. Sparse maps: lists of (key, value) with keys strictly rising. Reads of an unlisted key give the reader's default. -/

namespace Sys2Proof.Machine

/-- A sparse map, keys strictly rising. -/
abbrev SMap (α : Type) := List (Nat × α)

/-- The value at key k, or d when k is not listed. -/
def smGet {α : Type} (d : α) : SMap α → Nat → α
  | [], _ => d
  | (a, v) :: m, k => if k = a then v else smGet d m k

/-- The entry at key k, if listed. -/
def smFind {α : Type} : SMap α → Nat → Option α
  | [], _ => none
  | (a, v) :: m, k => if k = a then some v else smFind m k

/-- Writes v at key k, in key order. -/
def smSet {α : Type} : SMap α → Nat → α → SMap α
  | [], k, v => [(k, v)]
  | (a, w) :: m, k, v => if k < a then (k, v) :: (a, w) :: m else if k = a then (k, v) :: m else (a, w) :: smSet m k v

/-- Removes key k. -/
def smDel {α : Type} : SMap α → Nat → SMap α
  | [], _ => []
  | (a, w) :: m, k => if k = a then smDel m k else (a, w) :: smDel m k

/-- Keys strictly rising from a bound. -/
def smSortedFrom {α : Type} : Nat → SMap α → Bool
  | _, [] => true
  | lo, (a, _) :: m => decide (lo ≤ a) && smSortedFrom (a + 1) m

/-- The first n numbers from lo. -/
def rangeFrom (lo n : Nat) : List Nat := (List.range n).map (lo + ·)

/-- The lowest number below n that is not in xs. -/
def firstFree (n : Nat) (xs : List Nat) : Option Nat := (List.range n).find? (fun k => !xs.contains k)

/-! The memory of the part (R9, R139, R143): bytes by physical key. An unlisted byte reads zero (log 3, DESIGN CHOICE). -/

/-- What an unlisted address reads as. -/
def memDefault : Byte := 0

def memGet (m : List Host.Cell) (a : Nat) : Byte := smGet memDefault m a

/-- Writes one byte and keeps the canonical form: a byte equal to the default is not listed. -/
def memSet (m : List Host.Cell) (a : Nat) (v : Byte) : List Host.Cell :=
  if v = memDefault then smDel m a else smSet m a v

/-- No listed byte equals the default. -/
def memNoDefault : List Host.Cell → Bool
  | [] => true
  | (_, v) :: m => !decide (v = memDefault) && memNoDefault m

/-- The canonical form: addresses strictly rising, no entry equal to the default. -/
def memWf (m : List Host.Cell) : Bool := smSortedFrom 0 m && memNoDefault m

/-- Writes consecutive bytes from address a. -/
def memSetList (m : List Host.Cell) (a : Nat) : List Byte → List Host.Cell
  | [] => m
  | v :: vs => memSetList (memSet m a v) (a + 1) vs

/-- n consecutive bytes from address a. -/
def memBytes (m : List Host.Cell) (a n : Nat) : List Byte := (rangeFrom a n).map (memGet m)

/-- The little-endian number a byte list holds (R31, R49). -/
def leNat : List Byte → Nat
  | [] => 0
  | b :: bs => b.toNat + 256 * leNat bs

/-- The n low bytes of v, lowest first. -/
def leBytes : Nat → Nat → List Byte
  | 0, _ => []
  | n + 1, v => BitVec.ofNat 8 v :: leBytes n (v / 256)

/-- n bytes at a, as a number. -/
def memNat (m : List Host.Cell) (a n : Nat) : Nat := leNat (memBytes m a n)

/-- Bits hi down to lo of a number. -/
def bitsOf (v hi lo : Nat) : Nat := (v / 2 ^ lo) % 2 ^ (hi + 1 - lo)

/-- Bit k of a number. -/
def bitOf (v k : Nat) : Bool := (v / 2 ^ k) % 2 = 1

/-- The low n bits of v as a signed number. -/
def signedOf (n v : Nat) : Int :=
  let u := v % 2 ^ n
  if u < 2 ^ (n - 1) then (u : Int) else (u : Int) - 2 ^ n

/-- A pointer or register value of an integer, modulo 2^64. -/
def w64 (v : Int) : W64 := BitVec.ofInt 64 v

/-- Ceiling of a division. -/
def ceilDiv (a b : Nat) : Nat := (a + b - 1) / b

end Sys2Proof.Machine
end

