-- ==== Sys2Proof/Machine/Num.lean ====
section
/-! DEFINITION. Number formats, rounding, conversion and the K-step (spec/04, R49 to R64). Values are exact: sign, natural
mantissa and power of two; a quotient is a pair of naturals. Every result is rounded once from the exact value. -/

namespace Sys2Proof.Machine

/-- The element formats of R49, and the two 32-bit integer types of the lanes. -/
inductive EFmt where
  | e5m2 | e4m3 | e3m2 | e2m3 | e2m1 | mk8 | s8 | n8 | s4 | n4 | fp16 | bf16 | fp32 | w48 | s32 | n32
  deriving DecidableEq, Repr

/-- The format of a code of R49; 0xE and 0xF are reserved. -/
def EFmt.ofCode : Nat → Option EFmt
  | 0 => some .e5m2 | 1 => some .e4m3 | 2 => some .e3m2 | 3 => some .e2m3 | 4 => some .e2m1 | 5 => some .mk8
  | 6 => some .s8 | 7 => some .n8 | 8 => some .s4 | 9 => some .n4 | 10 => some .fp16 | 11 => some .bf16
  | 12 => some .fp32 | 13 => some .w48 | _ => none

def EFmt.code : EFmt → Nat
  | .e5m2 => 0 | .e4m3 => 1 | .e3m2 => 2 | .e2m3 => 3 | .e2m1 => 4 | .mk8 => 5 | .s8 => 6 | .n8 => 7 | .s4 => 8
  | .n4 => 9 | .fp16 => 10 | .bf16 => 11 | .fp32 => 12 | .w48 => 13 | .s32 => 14 | .n32 => 15

/-- Width in bits of a stored element (R49); W48 uses a 64-bit container. -/
def EFmt.width : EFmt → Nat
  | .e5m2 | .e4m3 | .mk8 | .s8 | .n8 => 8
  | .e3m2 | .e2m3 => 6
  | .e2m1 | .s4 | .n4 => 4
  | .fp16 | .bf16 => 16
  | .fp32 | .s32 | .n32 => 32
  | .w48 => 64

/-- Whether the format carries block scales (R49). -/
def EFmt.blockScaled : EFmt → Bool
  | .e5m2 | .e4m3 | .e3m2 | .e2m3 | .e2m1 | .mk8 => true
  | _ => false

def EFmt.isInt : EFmt → Bool
  | .s8 | .n8 | .s4 | .n4 | .s32 | .n32 => true
  | _ => false

def EFmt.isSigned : EFmt → Bool
  | .s8 | .s4 | .s32 => true
  | _ => false

/-- Formats whose codes FC decodes as finite (R53). -/
def EFmt.narrow : EFmt → Bool
  | .e5m2 | .e4m3 | .e3m2 | .e2m3 | .e2m1 | .mk8 => true
  | _ => false

/-- Exponent bits, fraction bits and bias of the IEEE-style and MX formats (R50 to R52). -/
def EFmt.params : EFmt → Nat × Nat × Int
  | .e5m2 => (5, 2, 15) | .e4m3 => (4, 3, 7) | .e3m2 => (3, 2, 3) | .e2m3 => (2, 3, 1) | .e2m1 => (2, 1, 1)
  | .fp16 => (5, 10, 15) | .bf16 => (8, 7, 127) | .fp32 => (8, 23, 127) | .w48 => (11, 36, 1023)
  | _ => (0, 0, 0)

/-- An exact value: NaN, an infinity, or (-1)^neg * m * 2^e; m = 0 is a signed zero. -/
inductive FV where
  | nan
  | inf (neg : Bool)
  | fin (neg : Bool) (m : Nat) (e : Int)
  deriving DecidableEq, Repr

def FV.isZero : FV → Bool
  | .fin _ 0 _ => true
  | _ => false

def FV.isNan : FV → Bool
  | .nan => true
  | _ => false

def FV.neg? : FV → Bool
  | .nan => false
  | .inf n => n
  | .fin n _ _ => n

def FV.zero (neg : Bool) : FV := .fin neg 0 0

def FV.ofInt (v : Int) : FV := .fin (decide (v < 0)) v.natAbs 0

def FV.negate : FV → FV
  | .nan => .nan
  | .inf n => .inf (!n)
  | .fin n m e => .fin (!n) m e

/-- The signed mantissa of a finite value at exponent e0 (e0 at most its own exponent). -/
def scaledInt (neg : Bool) (m : Nat) (e e0 : Int) : Int :=
  let v : Int := (m * 2 ^ (e - e0).toNat : Nat)
  if neg then -v else v

/-! MK8 (R54). -/

/-- Magnitude code m of MK8 as a mantissa and a power of two. -/
def mk8Mag (m : Nat) : Nat × Int :=
  if m ≥ 0x40 then (64 + m % 64, -6)
  else if m ≥ 0x20 then (16 + m % 16, -6 + (m / 16 % 2 : Nat))
  else if m ≥ 0x10 then (4 + m % 4, -8 + (m / 4 % 4 : Nat))
  else if m ≥ 0x08 then (1, -14 + (m % 8 : Nat))
  else if m ≥ 0x04 then (1, -18 + (m % 4 : Nat))
  else if m ≥ 0x02 then (1, -20 + (m % 2 : Nat))
  else if m = 1 then (1, -21)
  else (0, 0)

/-- Decodes a code of a format, FC as in R53 (R50 to R54, R56). -/
def decodeElem (f : EFmt) (fc : Bool) (c : Nat) : FV :=
  match f with
  | .s8 => .ofInt (signedOf 8 c) | .n8 => .ofInt (c % 256) | .s4 => .ofInt (signedOf 4 c) | .n4 => .ofInt (c % 16)
  | .s32 => .ofInt (signedOf 32 c) | .n32 => .ofInt (c % 2 ^ 32)
  | .mk8 =>
    let neg := bitOf c 7
    let m := c % 128
    if m = 0 then (if neg then (if fc then .zero true else .nan) else .zero false)
    else .fin neg (mk8Mag m).1 (mk8Mag m).2
  | f =>
    let (eb, fb, bias) := f.params
    let fr := c % 2 ^ fb
    let ex := c / 2 ^ fb % 2 ^ eb
    let neg := bitOf c (eb + fb)
    let special : Bool := match f with
      | .fp32 | .fp16 | .bf16 | .w48 => decide (ex = 2 ^ eb - 1)
      | .e5m2 => !fc && decide (ex = 31)
      | .e4m3 => !fc && decide (c % 128 = 0x7F)
      | _ => false
    if special then
      (if f = .e4m3 then .nan else if fr = 0 then .inf neg else .nan)
    else if ex = 0 then .fin neg fr (1 - bias - fb)
    else .fin neg (2 ^ fb + fr) (ex - bias - fb)

/-- A subnormal code (R60), judged before block scaling. -/
def isSubnormal (f : EFmt) (c : Nat) : Bool :=
  match f with
  | .mk8 | .s8 | .n8 | .s4 | .n4 | .s32 | .n32 => false
  | f => let (eb, fb, _) := f.params; decide (c / 2 ^ fb % 2 ^ eb = 0) && decide (c % 2 ^ fb ≠ 0)

/-- Reads a code, a subnormal read as a zero of its sign when flush is set (R60). -/
def readElem (f : EFmt) (fc flush : Bool) (c : Nat) : FV :=
  if flush && isSubnormal f c then .zero ((decodeElem f fc c).neg?) else decodeElem f fc c

/-- The canonical NaN of a type (R50, R51, R52, R61). -/
def canonNan : EFmt → Nat
  | .fp32 => 0x7FC00000 | .fp16 => 0x7E00 | .bf16 => 0x7FC0 | .w48 => 0x7FF800000000
  | .e5m2 | .e4m3 => 0x7F | .mk8 => 0x80 | _ => 0

/-! Rounding (R58). -/

inductive RM where
  | rne | rtz | rdn | rup | rna | sr
  deriving DecidableEq, Repr

/-- The rounding mode of a code 0 to 5. -/
def RM.ofCode : Nat → RM
  | 0 => .rne | 1 => .rtz | 2 => .rdn | 3 => .rup | 4 => .rna | _ => .sr

def RM.code : RM → Nat
  | .rne => 0 | .rtz => 1 | .rdn => 2 | .rup => 3 | .rna => 4 | .sr => 5

/-- A mode as floating-point arithmetic takes it: RNA and SR round as RNE (R58). -/
def RM.arith : RM → RM
  | .rna | .sr => .rne
  | r => r

/-- Whether rounding moves up in magnitude: half is the comparison of the discarded part with one half unit (R58). -/
def roundsUp (rm : RM) (neg odd exact : Bool) (half : Ordering) : Bool :=
  if exact then false else
  match rm with
  | .rtz => false
  | .rdn => neg
  | .rup => !neg
  | .rna => half ≠ .lt
  | .rne | .sr => half = .gt || (half = .eq && odd)

/-- floor (log2 (n / d)) for n, d > 0. -/
def floorLog2 (n d : Nat) : Int :=
  let l : Int := (Nat.log2 n : Int) - Nat.log2 d
  if (if 0 ≤ l then d * 2 ^ l.toNat ≤ n else d ≤ n * 2 ^ (-l).toNat) then l else l - 1

/-- n / d scaled by 2^(-q) as a pair of naturals. -/
def scaleQ (n d : Nat) (q : Int) : Nat × Nat := if 0 ≤ q then (n, d * 2 ^ q.toNat) else (n * 2 ^ (-q).toNat, d)

/-- The exponent of the unit in the last place at magnitude n / d, with the format's exponent range. -/
def ulpExp (f : EFmt) (n d : Nat) : Int :=
  let (_, fb, bias) := f.params
  max (floorLog2 n d) (1 - bias) - fb

/-- Magnitude code, unbounded above, of t units at exponent q (R51, R52). -/
def magCode (f : EFmt) (t : Nat) (q : Int) : Nat :=
  let (_, fb, bias) := f.params
  (q + fb - (1 - bias)).toNat * 2 ^ fb + t

/-- Rounds the magnitude n / d, n > 0, to a magnitude code with an unbounded exponent. -/
def roundIeee (f : EFmt) (rm : RM) (neg : Bool) (n d : Nat) : Nat :=
  let q := ulpExp f n d
  let (a, b) := scaleQ n d q
  let t := a / b
  let r := a % b
  let half : Ordering := compare (2 * r) b
  magCode f (if roundsUp rm neg (t % 2 = 1) (r = 0) half then t + 1 else t) q

/-- The highest MK8 magnitude code, 0 to 128, whose value is at most n / d; 128 stands for 2, beyond the largest. -/
def mk8Below (n d : Nat) : Nat :=
  (List.range 128).foldl (fun best m =>
    let (k, e) := mk8Mag m
    let (a, b) := scaleQ k 1 (-e)
    if a * d ≤ n * b then m else best) 0

def mk8Value (m : Nat) : Nat × Nat :=
  if m = 128 then (2, 1) else let (k, e) := mk8Mag m; scaleQ k 1 (-e)

/-- MK8 rounding between adjacent codes, ties by the code's lowest bit (R58). -/
def roundMk8 (rm : RM) (neg : Bool) (n d : Nat) : Nat :=
  if 2 * d ≤ n then 128 else
  let lo := mk8Below n d
  let (a, b) := mk8Value lo
  let (a', b') := mk8Value (lo + 1)
  let exact : Bool := a * d = n * b
  -- compare n/d with (a/b + a'/b') / 2
  let half : Ordering := compare (2 * n * b * b') ((a * b' + a' * b) * d)
  if roundsUp rm neg (lo % 2 = 1) exact half then lo + 1 else lo

/-- The largest finite magnitude code (R50 to R54). -/
def maxCode (f : EFmt) (fc : Bool) : Nat :=
  match f with
  | .e5m2 => if fc then 0x7F else 0x7B
  | .e4m3 => if fc then 0x7F else 0x7E
  | .e3m2 | .e2m3 => 0x1F
  | .e2m1 => 0x7
  | .mk8 => 0x7F
  | .fp16 => 0x7BFF | .bf16 => 0x7F7F | .fp32 => 0x7F7FFFFF | .w48 => 0x7FEFFFFFFFFF
  | _ => 0

/-- The sign bit's place. -/
def signBit (f : EFmt) : Nat :=
  match f with
  | .mk8 => 7
  | f => let (eb, fb, _) := f.params; eb + fb

def withSign (f : EFmt) (neg : Bool) (mag : Nat) : Nat := if neg then 2 ^ signBit f + mag else mag

/-- An infinity's magnitude code in the IEEE-style formats and E5M2. -/
def infMag (f : EFmt) : Nat := let (eb, fb, _) := f.params; (2 ^ eb - 1) * 2 ^ fb

/-- Result of an overflow (R61). toMax: the rounding directions that give the largest finite value. -/
def overflowCode (f : EFmt) (fc sat toMax neg : Bool) : Nat :=
  if toMax || sat || (fc && f.narrow) then withSign f neg (maxCode f fc) else
  match f with
  | .fp32 | .fp16 | .bf16 | .w48 | .e5m2 => withSign f neg (infMag f)
  | .e4m3 => withSign f neg 0x7F
  | .mk8 => 0x80
  | f => withSign f neg (maxCode f fc)

/-- Whether a direction sends an overflow to the largest finite value (R61). -/
def toMaxDir (rm : RM) (neg : Bool) : Bool :=
  match rm with
  | .rtz => true | .rdn => !neg | .rup => neg | _ => false

/-- Code of a rounded magnitude, overflow judged after rounding (R61); FTZ replaces a subnormal result by a zero (R60). -/
def finishCode (f : EFmt) (fc sat ftz toMax neg : Bool) (mag : Nat) : Nat :=
  if mag > maxCode f fc then overflowCode f fc sat toMax neg
  else if ftz && isSubnormal f mag then withSign f neg 0
  else if f = .mk8 && mag = 0 then 0
  else withSign f neg mag

/-- The code of an infinity as a conversion source (R61). -/
def infCode (f : EFmt) (fc sat neg : Bool) : Nat :=
  if fc && f.narrow then withSign f neg (maxCode f fc) else
  match f with
  | .fp32 | .fp16 | .bf16 | .w48 | .e5m2 => withSign f neg (infMag f)
  | .e4m3 => if sat then withSign f neg 0x7E else 0x7F
  | .mk8 => if sat then withSign f neg 0x7F else 0x80
  | f => withSign f neg (maxCode f fc)

/-- The code of a NaN source (R61). -/
def nanCode (f : EFmt) (fc : Bool) : Nat := if fc && f.narrow then 0 else canonNan f

/-- Rounds a positive magnitude to a magnitude code of the format. -/
def roundMag (f : EFmt) (rm : RM) (neg : Bool) (n d : Nat) : Nat :=
  if f = .mk8 then roundMk8 rm neg n d else roundIeee f rm neg n d

/-- The clamped range of an integer type. -/
def intRange : EFmt → Int × Int
  | .s8 => (-128, 127) | .n8 => (0, 255) | .s4 => (-8, 7) | .n4 => (0, 15)
  | .s32 => (-2147483648, 2147483647) | .n32 => (0, 4294967295) | _ => (0, 0)

def clampInt (lo hi v : Int) : Int := if v < lo then lo else if hi < v then hi else v

/-- An integer as a code of width w bits. -/
def intCode (w : Nat) (v : Int) : Nat := (v % (2 ^ w : Nat)).toNat

/-- Rounds the magnitude n / d to an integer (R58). -/
def roundNat (rm : RM) (neg : Bool) (n d : Nat) : Nat :=
  let t := n / d
  let r := n % d
  if roundsUp rm neg (t % 2 = 1) (r = 0) (compare (2 * r) d) then t + 1 else t

/-- Converts the exact value (-1)^neg n / d, one rounding (R61), to an integer type, clamped. -/
def toIntCode (f : EFmt) (rm : RM) (neg : Bool) (n d : Nat) : Nat :=
  let t := roundNat rm neg n d
  let v : Int := if neg then -(t : Int) else t
  let (lo, hi) := intRange f
  intCode f.width (clampInt lo hi v)

/-- Converts (-1)^neg n / d to a code of f, one rounding (R58, R61). -/
def roundQ (f : EFmt) (fc sat ftz : Bool) (rm : RM) (neg : Bool) (n d : Nat) : Nat :=
  if f.isInt then toIntCode f rm neg n d
  else if n = 0 then (if f = .mk8 then 0 else withSign f neg 0)
  else finishCode f fc sat ftz (toMaxDir rm neg) neg (roundMag f rm neg n d)

/-- A finite value's magnitude as a pair of naturals. -/
def magQ (m : Nat) (e : Int) : Nat × Nat := scaleQ m 1 (-e)

/-- Converts an exact value to a code of f, one rounding (R61). -/
def cvt (f : EFmt) (fc sat ftz : Bool) (rm : RM) : FV → Nat
  | .nan => if f.isInt then 0 else nanCode f fc
  | .inf neg => if f.isInt then intCode f.width (if neg then (intRange f).1 else (intRange f).2) else infCode f fc sat neg
  | .fin neg m e => let (n, d) := magQ m e; roundQ f fc sat ftz rm neg n d

/-! Stochastic rounding (R59). -/

/-- One step of a lane's shift register: x^32 + x^22 + x^2 + x + 1. -/
def lfsrStep (x : W32) : W32 := if x.getLsbD 31 then (x <<< 1) ^^^ 0x00400007#32 else x <<< 1

def lfsrSteps : Nat → W32 → W32
  | 0, x => x
  | n + 1, x => lfsrSteps n (lfsrStep x)

/-- The exponent of the lowest bit the source's format carries at a value of magnitude m * 2^e; integers carry units. -/
def srcUlpExp (src : EFmt) (m : Nat) (e : Int) : Int :=
  if src.isInt then 0 else
  let (_, fb, bias) := src.params
  if m = 0 then 1 - bias - fb else let (n, d) := magQ m e; max (floorLog2 n d) (1 - bias) - fb

/-- The unit of the target at a magnitude: for MK8 the gap between the bracketing codes, given as a pair; else a power of two, also above
the target's largest exponent (log 144, DEDUCED). -/
def targetUlp (f : EFmt) (n d : Nat) : Int :=
  if f.isInt then 0
  else if f = .mk8 then
    let lo := mk8Below n d
    let (a, b) := mk8Value lo
    let (a', b') := mk8Value (lo + 1)
    if lo = 0 then -21 else floorLog2 (a' * b - a * b') (b * b')
  else if n = 0 then (let (_, fb, bias) := f.params; 1 - bias - fb) else ulpExp f n d

/-- SR conversion of magnitude n / d (R59): kSrc is the number of bits below the target's unit that the exact value carries,
already cut to 16. Answers the magnitude in units of 2^q, rounded, and the advanced state. -/
def srUnits (n d : Nat) (q : Int) (k : Nat) (st : W32) : Nat × W32 :=
  let (a, b) := scaleQ n d q
  let t := a / b
  if k = 0 then (t, st) else
  let dd := (a % b) * 2 ^ k / b
  let r := st.toNat % 2 ^ k
  (if dd + r ≥ 2 ^ k then t + 1 else t, lfsrSteps k st)

/-- SR conversion of (-1)^neg n / d to f, with its k (R59, overflow under R61). -/
def cvtSrQ (f : EFmt) (fc sat ftz : Bool) (neg : Bool) (n d : Nat) (k : Nat) (st : W32) : Nat × W32 :=
  let q := targetUlp f n d
  let (t, st') := srUnits n d q k st
  if f.isInt then
    let v : Int := if neg then -(t : Int) else t
    let (lo, hi) := intRange f
    (intCode f.width (clampInt lo hi v), st')
  else if t = 0 then (if f = .mk8 then 0 else withSign f neg 0, st')
  else if f = .mk8 then
    let (a, b) := scaleQ t 1 (-q)
    (finishCode f fc sat ftz false neg (if 2 * b ≤ a then 128 else mk8Below a b), st')
  else (finishCode f fc sat ftz false neg (magCode f t q), st')

/-- k of R59: the bits the source carries below the target's unit, at most 16 (log 11, DEDUCED). -/
def srBits (src dst : EFmt) (m : Nat) (e : Int) : Nat :=
  let (n, d) := magQ m e
  min 16 (targetUlp dst n d - srcUlpExp src m e).toNat

/-- SR conversion of a decoded source value; infinities and NaN consume nothing. -/
def cvtSr (src f : EFmt) (fc sat ftz : Bool) (x : FV) (st : W32) : Nat × W32 :=
  match x with
  | .fin neg m e => let (n, d) := magQ m e; cvtSrQ f fc sat ftz neg n d (srBits src f m e) st
  | x => (cvt f fc sat ftz .rne x, st)

/-! Exact arithmetic on values. -/

/-- Exact sum of finite terms given as signed mantissas and exponents: the sum at the lowest exponent. -/
def sumDyadic (ts : List (Bool × Nat × Int)) : Int × Int :=
  let e0 := ts.foldl (fun a t => min a t.2.2) 0
  (ts.foldl (fun acc t => acc + scaledInt t.1 t.2.1 t.2.2 e0) 0, e0)

/-- a + b before rounding; the sign of an exact zero sum follows IEEE 754 in mode rm. -/
def fvAdd (rm : RM) (a b : FV) : FV :=
  match a, b with
  | .nan, _ => .nan
  | _, .nan => .nan
  | .inf x, .inf y => if x = y then .inf x else .nan
  | .inf x, _ => .inf x
  | _, .inf y => .inf y
  | .fin x m e, .fin y k g =>
    let (s, e0) := sumDyadic [(x, m, e), (y, k, g)]
    if s = 0 then (if m = 0 && k = 0 && x = y then .zero x else .zero (rm = .rdn))
    else .fin (decide (s < 0)) s.natAbs e0

def fvMul (a b : FV) : FV :=
  match a, b with
  | .nan, _ => .nan
  | _, .nan => .nan
  | .inf x, .inf y => .inf (x != y)
  | .inf x, .fin y k _ => if k = 0 then .nan else .inf (x != y)
  | .fin x m _, .inf y => if m = 0 then .nan else .inf (x != y)
  | .fin x m e, .fin y k g => .fin (x != y) (m * k) (e + g)

/-- Order of two non-NaN values as reals with infinities: zeros are equal. -/
def fvCmp (a b : FV) : Ordering :=
  match a, b with
  | .inf x, .inf y => if x = y then .eq else if x then .lt else .gt
  | .inf x, _ => if x then .lt else .gt
  | _, .inf y => if y then .gt else .lt
  | .fin x m e, .fin y k g => let (s, _) := sumDyadic [(x, m, e), (!y, k, g)]; if s < 0 then .lt else if s = 0 then .eq else .gt
  | _, _ => .eq

/-- Strictly below, with -0 below +0 (R124, R161). -/
def fvBelow (a b : FV) : Bool :=
  match fvCmp a b with
  | .lt => true
  | .gt => false
  | .eq => a.isZero && b.isZero && a.neg? && !b.neg?

/-- Comparison conditions of VFSET (R123). The condition or is false on a NaN operand, as R123 calls it ordered (log 154, DEDUCED). -/
def fvCond (cc : Nat) (a b : FV) : Bool :=
  let un := a.isNan || b.isNan
  match cc with
  | 0 => !un && fvCmp a b = .eq
  | 1 => un || fvCmp a b ≠ .eq
  | 2 => !un && fvCmp a b = .lt
  | 3 => !un && fvCmp a b ≠ .gt
  | 4 => !un && fvCmp a b = .gt
  | 5 => !un && fvCmp a b ≠ .lt
  | 6 => un
  | _ => !un

/-! Reciprocal, reciprocal square root, 2^x and log2 (R64). -/

/-- Integer square root by bits, on fuel: the largest r with r * r ≤ n. -/
def isqrtGo (n : Nat) : Nat → Nat → Nat
  | 0, r => r
  | k + 1, r => let c := r + 2 ^ k; isqrtGo n k (if c * c ≤ n then c else r)

def isqrt (n : Nat) : Nat := isqrtGo n (Nat.log2 n / 2 + 1) 0

/-- 1/√(n/d) rounded to a magnitude code of f. -/
def rsqrtMag (f : EFmt) (rm : RM) (n d : Nat) : Nat :=
  -- x = √(d/n); exponent floor(log2 x) = floor(floor(log2 (d/n)) / 2)
  let (_, fb, bias) := f.params
  let q : Int := max ((floorLog2 d n) / 2) (1 - bias) - fb
  -- (x / 2^q)^2 = d / (n 2^(2q))
  let (a, b) := scaleQ d n (2 * q)
  let t := isqrt (a / b)
  let exact : Bool := t * t * b = a
  let half : Ordering := compare (4 * a) ((2 * t + 1) * (2 * t + 1) * b)
  magCode f (if roundsUp rm false (t % 2 = 1) exact half then t + 1 else t) q

/-- Working precision, in bits, of the faithful functions' brackets. -/
def fixPrec : Nat := 200

/-- √ of a fixed-point number, rounded down or up. -/
def fixSqrt (up : Bool) (x : Nat) : Nat :=
  let v := x * 2 ^ fixPrec
  let r := isqrt v
  if up && r * r < v then r + 1 else r

/-- 2^(0.b_n ... b_1 b_0) at fixPrec bits, from the lowest bit up: k bits of f. -/
def exp2Frac (up : Bool) : Nat → Nat → Nat → Nat
  | 0, _, r => r
  | k + 1, f, r => exp2Frac up k (f / 2) (fixSqrt up (if f % 2 = 1 then 2 * r else r))

/-- Brackets of 2^x for finite x: (numerator at fixPrec bits, exponent of two), rounded down or up. -/
def exp2Bound (up : Bool) (neg : Bool) (m : Nat) (e : Int) : Nat × Int :=
  -- x at 80 fraction bits, floored or ceiled
  let fx : Nat := 80
  let v : Int := scaledInt neg m e (min e (-(fx : Int)))
  let sh := (-(fx : Int) - min e (-(fx : Int))).toNat
  let fl : Int := v / (2 ^ sh : Nat)
  let x80 : Int := if up && fl * (2 ^ sh : Nat) < v then fl + 1 else fl
  let ip : Int := x80 / (2 ^ fx : Nat)
  let fr : Nat := (x80 - ip * (2 ^ fx : Nat)).toNat
  (exp2Frac up fx fr (2 ^ fixPrec), ip)

/-- Digits of log2 of a fixed-point y in [1, 2), k fraction bits. -/
def log2Digits (up : Bool) : Nat → Nat → Nat → Nat
  | 0, _, acc => acc
  | k + 1, y, acc =>
    let z := y * y
    let y2 := z / 2 ^ fixPrec + (if up && z % 2 ^ fixPrec ≠ 0 then 1 else 0)
    if y2 ≥ 2 * 2 ^ fixPrec then log2Digits up k (if up then (y2 + 1) / 2 else y2 / 2) (2 * acc + 1)
    else log2Digits up k y2 (2 * acc)

/-- Picks between the codes of the two bounds (R64): equal bounds give the code, else the free choice between the directions. -/
def faithful (op : Nat) (f : EFmt) (code lo hi : Nat) : Nat :=
  if lo = hi then lo else if Config.faithfulUp op f.code code then hi else lo

/-- Magnitude code of a faithful result between n/d and n'/d', with overflow left to the caller. -/
def faithfulMag (op : Nat) (f : EFmt) (neg : Bool) (code : Nat) (n d n' d' : Nat) : Nat :=
  -- toward zero at the lower bound, away from zero at the upper bound
  let lo := if n = 0 then 0 else roundIeee f .rtz false n d
  let hi := roundIeee f .rup false n' d'
  if neg then faithful op f code hi lo else faithful op f code lo hi

/-- VEXP2, EEXP2 of a code of f (R64). -/
def exp2Code (f : EFmt) (sat ftz daz : Bool) (code : Nat) : Nat :=
  match readElem f false daz code with
  | .nan => canonNan f
  | .inf true => withSign f false 0
  | .inf false => withSign f false (infMag f)
  | .fin neg m e =>
    if m = 0 then cvt f false sat ftz .rne (.ofInt 1) else
    let ipart : Bool := 0 ≤ e || m % 2 ^ (-e).toNat = 0
    -- far beyond the format's range: overflow, or a value below the least code
    let big : Bool := (let (a, b) := magQ m e; a ≥ 4096 * b)
    if big && !neg then (if sat then maxCode f false else infMag f)
    else if big && neg then (finishCode f false sat ftz false false (faithful 0 f code 0 1))
    else if ipart then
      let k : Int := if 0 ≤ e then scaledInt neg m e 0 else (if neg then -1 else 1) * (m / 2 ^ (-e).toNat : Nat)
      let exactCode := cvt f false sat ftz .rne (.fin false 1 k)
      let (_, fb, bias) := f.params
      if k < 1 - bias - fb then finishCode f false sat ftz false false (faithful 0 f code 0 1) else exactCode
    else
      let (a, p) := exp2Bound false neg m e
      let (a', p') := exp2Bound true neg m e
      let (n, d) := magQ a (p - fixPrec)
      let (n', d') := magQ a' (p' - fixPrec)
      finishCode f false sat ftz false false (faithfulMag 0 f false code n d n' d')

/-- VLOG2 of a code of f (R64). -/
def log2Code (f : EFmt) (sat ftz daz : Bool) (code : Nat) : Nat :=
  match readElem f false daz code with
  | .nan => canonNan f
  | .inf true => canonNan f
  | .inf false => infMag f
  | .fin neg m e =>
    if m = 0 then withSign f true (infMag f)
    else if neg then canonNan f
    else
      let l := Nat.log2 m
      let ex : Int := e + l
      if m = 2 ^ l then cvt f false sat ftz .rne (.ofInt ex) else
      let y := m * 2 ^ fixPrec / 2 ^ l
      let yUp := y + (if m * 2 ^ fixPrec % 2 ^ l ≠ 0 then 1 else 0)
      let k : Nat := 80
      let lo : Int := ex * (2 ^ k : Nat) + log2Digits false k y 0
      let hi : Int := ex * (2 ^ k : Nat) + log2Digits true k yUp 0 + 1
      let ng : Bool := decide (hi ≤ 0)
      let (a, b) := if ng then (hi.natAbs, lo.natAbs) else (lo.toNat, hi.toNat)
      let mag := faithfulMag 1 f ng code a (2 ^ k) b (2 ^ k)
      finishCode f false sat ftz false ng mag

/-- VRCP, ERCP: 1/a, correctly rounded (R64). -/
def rcpCode (f : EFmt) (sat ftz daz : Bool) (rm : RM) (code : Nat) : Nat :=
  match readElem f false daz code with
  | .nan => canonNan f
  | .inf neg => withSign f neg 0
  | .fin neg m e =>
    if m = 0 then withSign f neg (infMag f)
    else let (n, d) := magQ m e; roundQ f false sat ftz rm neg d n

/-- VRSQ: 1/√a, correctly rounded (R64). -/
def rsqCode (f : EFmt) (sat ftz daz : Bool) (rm : RM) (code : Nat) : Nat :=
  match readElem f false daz code with
  | .nan => canonNan f
  | .inf true => canonNan f
  | .inf false => withSign f false 0
  | .fin neg m e =>
    if m = 0 then withSign f neg (infMag f)
    else if neg then canonNan f
    else let (n, d) := magQ m e; finishCode f false sat ftz (toMaxDir rm false) false (rsqrtMag f rm n d)

/-! The K-step (R62). -/

def w48Nan : W48 := 0x7FF800000000#48
def w48Inf (neg : Bool) : W48 := BitVec.ofNat 48 (withSign .w48 neg (infMag .w48))
def w48Zero : W48 := 0#48

/-- RoundW48, RNE; overflow gives an infinity, or the largest finite value when SAT is set. -/
def roundW48 (sat : Bool) (v : FV) : W48 := BitVec.ofNat 48 (cvt .w48 false sat false .rne v)

def w48Val (x : W48) : FV := decodeElem .w48 false x.toNat

structure KAcc where
  anyNan : Bool
  posInf : Bool
  negInf : Bool
  terms : List (Bool × Nat × Int)
  allZero : Bool
  deriving DecidableEq, Repr

/-- The sum's start from the incoming accumulator. -/
def KAcc.start (acc : W48) : KAcc :=
  match w48Val acc with
  | .nan => ⟨true, false, false, [], true⟩
  | .inf n => ⟨false, !n, n, [], true⟩
  | .fin n m e => ⟨false, false, false, [(n, m, e)], true⟩

/-- One product of the K-step: a zero of A makes a zero whatever B holds. -/
def KAcc.mul (k : KAcc) (a b : FV) : KAcc :=
  if a.isZero then k
  else match a, b with
    | .nan, _ => { k with anyNan := true }
    | _, .nan => { k with anyNan := true }
    | .inf x, b => if b.isZero then { k with anyNan := true } else if x = b.neg? then { k with posInf := true } else { k with negInf := true }
    | .fin x _ _, .inf y => if x = y then { k with posInf := true } else { k with negInf := true }
    | .fin x m e, .fin y n g => if n = 0 then k else { k with terms := (x != y, m * n, e + g) :: k.terms, allZero := false }

/-- One K-step for one output element (R62), over the pairs of decoded elements. -/
def kstep (sat : Bool) (acc : W48) (ab : List (FV × FV)) : W48 :=
  let k := ab.foldl (fun k p => k.mul p.1 p.2) (KAcc.start acc)
  if k.anyNan || (k.posInf && k.negInf) then w48Nan
  else if k.posInf then w48Inf false
  else if k.negInf then w48Inf true
  else
    let (s, e0) := sumDyadic k.terms
    if s = 0 then (if (w48Val acc).isZero && k.allZero then acc else w48Zero)
    else roundW48 sat (.fin (decide (s < 0)) s.natAbs e0)

/-- A block scale applied to a decoded element (R55): 0xFF makes it NaN whatever its code. -/
def scaleElem (s : Nat) (v : FV) : FV :=
  if s = 0xFF then .nan else
  match v with
  | .fin n m e => .fin n m (e + (s : Int) - 127)
  | v => v

end Sys2Proof.Machine
end

