-- ==== Sys2Proof/Machine/State.lean ====
section
/-! DEFINITION. The state of the package: what each rule names, as plain data. Numbers of clusters, contexts, rows and slots are Nat;
register contents are bit vectors. Reads of an unlisted key of a map give the default that the reader names. -/

namespace Sys2Proof.Machine

/-! Teams, streams and rakes. -/

/-- One entry of the path stack: active mask, FMT and predicate bits (R131). -/
structure PathE where
  act : Nat
  fmt : W32
  c : Nat
  deriving DecidableEq, Repr

/-- The lane-side state of a team (R24, R36, R57, R59, R103, R130, R131). Masks are numbers, bit ℓ for lane ℓ. -/
structure Team where
  /-- Width in lanes, 8 to 1,024. -/
  w : Nat
  /-- First row and rows allotted. -/
  vb : Nat
  vl : Nat
  act : Nat
  xi : BitVec 16
  fmt : W32
  /-- Predicates p1 to p7; unlisted is 0. -/
  preds : SMap Nat
  /-- Stochastic-rounding state; an unlisted lane ℓ holds ℓ + 1. -/
  lfsr : SMap W32
  /-- Path stack, top first. -/
  stack : List PathE
  deriving DecidableEq, Repr

/-- Control entries of a stream (R98). -/
inductive Ctl where
  | teamN (n : Nat)
  | teamM (i : Nat) (v : W32)
  | qset (ctx n : Nat)
  | mcastOn
  | mcastOff
  deriving DecidableEq, Repr

/-- Entries of a stream buffer (R98). A unit of emission is one item of this list and counts its words. -/
inductive SEnt where
  | lane (tag : W64) (ws : List W64)
  /-- A replay instance: the context whose rake it is, rake, instance number, next word to present, hole values. -/
  | inst (lead rake num widx : Nat) (vals : List (Nat × W64))
  | ctrl (c : Ctl)
  deriving DecidableEq, Repr

/-- A fault of a lane word that waits for its trap (R100, R150). -/
structure LaneF where
  code : Nat
  info : W64
  lane : Nat
  acc : Nat
  tag : W64
  /-- Raised by a word that a handler emitted (R280). -/
  own : Bool := false
  deriving DecidableEq, Repr

/-- The stream of a context (R98, R109, R113, R276, R288). -/
structure Strm where
  ents : List SEnt
  /-- The unit the replay engine presents: its tag and words (R101). -/
  pres : Option (W64 × List W64)
  /-- Stopped at a lane fault until ERET. -/
  stopped : Bool
  /-- Gate closed by RSSTRM until ERET: entries wait. -/
  gate : Bool
  instCount : Nat
  votesOut : Nat
  /-- Readable results, oldest first. -/
  voteQ : List W64
  /-- Results in flight: the value for the queue, and the fill of vd (R119). -/
  voteFly : List (Option W64 × Option Nat)
  /-- Multicast: ON in force at a leader; RECV accepted at a follower (R112). -/
  mcOn : Bool
  mcRecv : Bool
  /-- Entries at the tail that the handler now running emitted (R276, R280). -/
  own : Nat
  /-- Cycles in which the entries entered, oldest first (R336). -/
  born : List Nat
  /-- Passes of the slice for which the team was ready and passed over (R30, R336). -/
  passed : Nat
  deriving DecidableEq, Repr

/-- A rake slot (R105). Words as captured, hole fields zero. -/
structure Rake where
  flags : Nat
  hmask : Nat
  votes : Nat
  beginpc : W64
  holes : SMap Nat
  last : SMap W64
  ws : List W64
  deriving DecidableEq, Repr

/-- The capture store of a context, the open capture and the pending holes (R105, R107, R108). -/
structure Cap where
  openR : Option Nat
  holes : List (Nat × HoleKind × W64)
  /-- Pending holes that SVSTRM has put by (R111). -/
  kept : List (Nat × HoleKind × W64)
  /-- Words of the unit of the pending holes that its stream had no room for; the model's own. -/
  want : Nat
  rakes : SMap Rake
  deriving DecidableEq, Repr

/-! Traps, debug, waits. -/

/-- A copy or subscription fault that waits for its trap: the code it is delivered with, CTX.TRAPINFO (R236). -/
structure CopyF where
  code : Nat
  info : W64
  deriving DecidableEq, Repr

/-- Trap state of a context (R86, R276 to R292, R302). -/
structure Trap where
  pl : Bool
  dbgatt : Bool
  intrap : Bool
  scratch0 : W64
  scratch1 : W64
  vec : W64
  epc : W64
  reason : W64
  info : W64
  stag : W64
  brkskip : W64
  wdog : W64
  /-- Value of mc when INTRAP was set. -/
  since : Nat
  /-- PREEMPT posted, with its kind (R284). -/
  preempt : Option Nat
  laneF : Option LaneF
  engF : Bool
  copyF : List CopyF
  /-- Inside the save routine; SVSTRM has run (R290). -/
  inSave : Bool
  svDone : Bool
  /-- Between restore and its ERET (R169, R292). -/
  restoring : Bool
  savevec : W64
  restvec : W64
  deriving DecidableEq, Repr

/-- Debug state of a context (R300, R302). -/
structure Dbg where
  brkhalt : Bool
  skip1 : Bool
  halted : Bool
  hard : Bool
  /-- A halt asked for and not yet in force: HARD or not, and its DBG.REASON (R280, R301). -/
  pend : Option (Bool × Nat)
  reason : W64
  bpa : SMap W64
  bpc : SMap W64
  deriving DecidableEq, Repr

/-- A TRYW whose waiting word has not completed (R177): destination, limit in mc, address of the TRYW, mc at issue, and whether the
condition has been met in time. -/
structure Tryw where
  d : GReg
  t : Nat
  at_ : W64
  start : Nat
  met : Bool
  deriving DecidableEq, Repr

/-- Row values and full bits that a load or atomic brings when it completes (R39, R149). -/
structure Fill where
  vals : List (Nat × W32)
  rows : List Nat
  /-- A lane fault found in the returned data (R152). -/
  ecc : Option LaneF
  deriving DecidableEq, Repr

/-- What a waiting word waits for. -/
inductive Watch where
  /-- A semaphore or a queue, whose unit serves its waiters (R170, R265). -/
  | served
  /-- WAITC (R176): key, bytes, condition, comparand, whether a monitor watches, and the word's order, scope and destination. -/
  | word (k n : Nat) (cc : WCond) (b : Nat) (held : Bool) (f : AtF)
  /-- BARWAIT (R173): key and token. -/
  | bar (k tok : Nat)
  /-- RWAIT (R235): ring object, slot, mask, value, destination. -/
  | tag (o k mask v : Nat) (d : GReg)
  /-- VQPOP (R113). -/
  | vote
  /-- TWAITP of a region, or of all (R258). -/
  | prod (k : Option Nat)
  /-- MSGPOP or MSGPEEK (R274): the ring, whether it pops, its octet and the operand that names the ring. -/
  | msg (m : Nat) (pop : Bool) (o : GReg) (n : GSrc)
  deriving DecidableEq, Repr

/-- An operand descriptor's registers (R183), the K-step operand source of a loop. -/
structure OpDesc where
  base : W64
  q1 : W64
  q2 : W64
  q3 : W64
  deriving DecidableEq, Repr

/-- What an SPX captures at its issue: T, the header and the address of the object, B's descriptor and FMT (R185, R222). -/
structure SpxIssue where
  t : W64
  h : List Byte
  pa : Nat
  b : OpDesc
  f : W32
  deriving DecidableEq, Repr

/-- The states of a context (R27); waiting keeps whether it left RESIDENT-EARLY. -/
inductive CState where
  | dormant | early | running | waiting (early : Bool) | saved | retired
  deriving DecidableEq, Repr

/-- A context: placement, program, registers and what it owns (R24, R81 to R86, R137, R270). -/
structure Ctx where
  st : CState
  task : Nat
  idx : Nat
  gpos : Nat
  gsize : Nat
  cl : Nat
  slot : Nat
  slice : Nat
  quarter : Nat
  pc : W64
  g : SMap W64
  team : Team
  strm : Strm
  cap : Cap
  trap : Trap
  dbg : Dbg
  /-- Q.HOLD, Q.HOLDLO, Q.HOLDHI, Q.HOLDP0, Q.HOLDP1 (R270). -/
  hold : List W64
  bounds : SMap (BitVec 128)
  /-- Ring handles: the ring object each names (R234). -/
  rings : SMap Nat
  /-- Handles, by number, that became undefined while the context was away: no alias of them comes back with its stream part (R234, R369). -/
  ringsGone : List Nat
  fills : SMap Fill
  bgerr : W64
  lookups : W64
  misses : W64
  tryw : Option Tryw
  watch : Option Watch
  /-- A CHDRAIN that waits: mc at its issue, bound, destination (R239). -/
  waitAt : Option (Nat × Nat × GReg)
  /-- The compile that an SPX.wait of the context waits for, and what SPORDER has to report of it (R222). -/
  ticket : Option Nat
  spErr : Option W64
  /-- What an SPX.wait that waits captured at its issue (R222, R370). -/
  spx : Option SpxIssue
  /-- A TSPAWN or push whose target's reply is awaited: its number and destination (R261, R265). -/
  remote : Option (Nat × GReg)
  /-- A SYSOP that waits: the generation of an XTINV, or any number for a CLAIM (R295, R297). -/
  sysWait : Option Nat
  /-- Saved under the REPORT policy, and not resumed yet (R23, R326). -/
  report : Bool
  /-- µs from which cluster-time has not been counted, and what a context that accrues no more has not added yet (R329). -/
  runUs : Nat
  owed : Nat
  /-- Step of the placement, and whether it was made out of turn (R332). -/
  born : Nat
  outTurn : Bool
  deriving DecidableEq, Repr

/-! Clusters. -/

/-- An L1 line (R144): masks by byte, widest scope since allocation (0 SELF, 1 TEAM, 2 CLUSTER), bytes, first for eviction. -/
structure L1Line where
  valid : Nat
  dirty : Nat
  t : Nat
  data : SMap Byte
  ef : Bool
  /-- The context that stored a dirty byte, by offset (R152). -/
  by_ : SMap Nat
  deriving DecidableEq, Repr

/-- A translation-cache entry (R142, R249): tenant, task that filled it, window VA<63:21>, base physical key, target, peer. The list of
entries runs from the least recently used. -/
structure TcEnt where
  tenant : Nat
  task : Nat
  win : Nat
  pa : Nat
  tgt : Nat
  peer : Nat
  deriving DecidableEq, Repr

/-- A range-lock entry (R151, R178): owner operation, destination or source, physical segments. -/
structure Lock where
  id : Nat
  task : Nat
  dst : Bool
  /-- Which of the operation's ranges: they may be released apart (R191). -/
  part : Nat
  segs : List (Nat × Nat)
  deriving DecidableEq, Repr

structure Sem where
  v : Nat
  e : Bool
  /-- Waiters, oldest first: context, count, destination (R170). -/
  ws : List (Nat × Nat × GReg)
  deriving DecidableEq, Repr

/-- A copy held by a channel (R228 to R232). -/
structure Copy where
  cid : Nat
  task : Nat
  tidx : Nat
  tmpl : List Byte
  n2 : Nat
  nosem : Bool
  /-- Level of the STX. -/
  lvl1 : Bool
  src : W64
  dst : W64
  /-- Started: slot claimed and ranges registered. -/
  started : Bool
  /-- Ring object and slot, when the template names a ring. -/
  slot : Option (Nat × Nat)
  ring : Option Nat
  /-- The handle that its store named, and those it is an alias of (R234, R369). -/
  via : List Nat
  /-- Elements delivered, and their destination bytes. -/
  elems : Nat
  off : Nat
  lock : Nat
  deriving DecidableEq, Repr

structure Chan where
  q : List Copy
  fault : Option Nat
  faddr : W64
  deriving DecidableEq, Repr

/-- A ring of vault slots (R233): positions, slots an engine holds. -/
structure RingObj where
  cl : Nat
  task : Nat
  sbase : Nat
  tbase : Nat
  size : Nat
  count : Nat
  ppos : Nat
  cpos : Nat
  claimed : List Nat
  deriving DecidableEq, Repr

/-- Row progress (R192). -/
structure RowProg where
  step : Nat
  sidx : Nat
  side : Bool
  row : Nat
  deriving DecidableEq, Repr

/-- The captured values of an engine operation (R185, R196, R222). -/
inductive EOpK where
  | mzero (mask : Nat)
  /-- Loop: tile, steps, side path, A, B, FMT, adapter quad, ring objects. -/
  | mloop (z n : Nat) (adp : Bool) (a b : OpDesc) (f : W32) (ad : List W64) (ra rb : Option Nat)
  | mtile (lay : TLay) (z : Nat) (p : W64) (stride : W64)
  | mstt (lay : TLay) (z : Nat) (p : W64) (stride : W64)
  /-- Lanes to tile: the 32 x 32 values read at issue. -/
  | mmovtIn (z : Nat) (vals : List W48)
  /-- Tile to lanes: first register, .w48. -/
  | mmovtOut (z : Nat) (v : Nat) (w48 : Bool)
  /-- Drain: destination in memory, or a ring, whose handle may be undefined. -/
  | mdrain (z : Nat) (clr : Bool) (p stride : W64) (ring : Option (Option Nat)) (f : W32) (prog : List W32) (param : W64)
  /-- Sparse run: tile, object, its header, timetable (none for a dense run), B, FMT. -/
  | spx (z : Nat) (t : W64) (hdr : List Byte) (tt : Option (List W64)) (b : OpDesc) (f : W32)
  deriving DecidableEq, Repr

structure EOp where
  k : EOpK
  cid : Nat
  id : Nat
  lvl1 : Bool
  running : Bool
  /-- Issued by the save routine while the queue was held: it passes the queue (R291). -/
  ovr : Bool
  /-- The work of a start, or of a resume, has been done: tags read, parameter block copied. -/
  begun : Bool
  /-- Ring slots claimed: of A or of a drain, and of B. -/
  sa : Option Nat
  sb : Option Nat
  /-- The copy of the parameter block of a drain that has started (R204). -/
  blk : Option (List Byte)
  /-- The ring handles that its word named, each with those it is an alias of (R234, R369). -/
  via : List (List Nat)
  deriving DecidableEq, Repr

/-- The epilogue processor (R203): registers by e * 32 + column, program, next word, row, values of the drain it serves. -/
structure Epi where
  on : Bool
  regs : SMap W48
  prog : List W32
  pcw : Nat
  row : Nat
  param : List Byte
  fmt : W32
  z : Nat
  cid : Nat
  /-- Destination of the element store: base pointer and stride, or a ring slot's vault key. -/
  dst : W64
  stride : W64
  /-- Key of the first byte of the ring slot, for a drain to a ring. -/
  slot : Option Nat
  lvl1 : Bool
  /-- U of the adapter pass, by 32 i + j, and the scale of each row that has an adapter (R200). -/
  up : SMap W48
  scales : SMap W32
  /-- Bytes the row has stored, performed after its program: key and byte (R210). -/
  stores : List (Nat × Byte)
  /-- What the bytes held that earlier rows of the drain have stored to (R208). -/
  olds : List (Nat × Byte)
  /-- A fault that ends the row; code 0 when the row waits for a walk. -/
  fault : Option (Nat × W64)
  deriving DecidableEq, Repr

/-- The matrix engine of a cluster (R180, R181, R200, R202). -/
structure Eng where
  owner : Option Nat
  /-- Tiles by z * 1024 + 32 i + j; unlisted is +0. -/
  tiles : SMap W48
  /-- Side tile by 64 i + m. -/
  side : SMap W48
  q : List EOp
  opa : OpDesc
  opb : OpDesc
  ad : Option OpDesc
  prog : W64
  param : W64
  words : List W32
  rp : RowProg
  drow : Nat
  fcode : Nat
  faulted : Bool
  /-- The operation that faulted (R193). -/
  fop : Option Nat
  faddr : W64
  frow : Nat
  stopped : Bool
  /-- Stopped by a HARD halt, so that RESUME starts it again (R301). -/
  haltStop : Bool
  /-- MSTT.ENG has been performed since the engine was last held (R290). -/
  framed : Bool
  adpend : Bool
  adtile : Nat
  /-- Row tags and entries that the loop into ADTILE read, and its c0 (R199). -/
  adTags : List Nat
  adEnts : SMap (List Byte)
  adC0 : Nat
  deriving DecidableEq, Repr

/-- A frame whose layout is internal to the part, by the number that its bytes are drawn from (R198, R287). -/
inductive Saved where
  | eng (e : Eng)
  /-- Control entries, the group position of each instance's leader, MCAST, ring definitions by handle and ring number (slots and tags
  relative to the allotment) and the team's state. -/
  | strm (ctls : List Ctl) (leads : List Nat) (mcOn : Bool) (rings : List (Nat × Nat × RingObj)) (team : Team)
  deriving DecidableEq, Repr

/-- A cluster's units that no context owns (R8). -/
structure Cluster where
  l1 : SMap L1Line
  tc : List TcEnt
  locks : List Lock
  barc : List (Nat × List Nat)
  icache : SMap (W64 × Nat)
  eng : Eng
  epi : Epi
  /-- SUB.KSKIP by task (R245). -/
  kskip : SMap Nat
  deriving DecidableEq, Repr

/-! Tasks, launches, tenants. -/

/-- A task record's fields (R18). -/
structure TRec where
  entry : W64
  isav : Nat
  nctx : Nat
  flags : Nat
  mcg : Nat
  nreg : Nat
  affcl : Nat
  tw : List Nat
  rows : List Nat
  vbytes : Nat
  adapter : Nat
  arg : W64
  waybill : W64
  producer : W64
  box : List (Int × Int × Int)
  vimage : W64
  vilen : Nat
  deriving DecidableEq, Repr

/-- A waybill region (R246): mode 0 R, 1 W, 2 RW, 3 RED, 4 ATOMIC. -/
structure Region where
  base : Nat
  /-- Tenant address of the first byte (R250). -/
  va : Nat
  extent : Nat
  mode : Nat
  redop : Nat
  redty : Nat
  isLazy : Bool
  forward : Bool
  deriving DecidableEq, Repr

/-- An entry of the extent table (R248): tenant base, length, physical base, target, peer, region. -/
structure Extent where
  va : Nat
  len : Nat
  pa : Nat
  tgt : Nat
  peer : Nat
  region : Nat
  deriving DecidableEq, Repr

inductive TState where
  | resident | edgeOut | retired | killed
  deriving DecidableEq, Repr

/-- A task that has been placed, or made RESIDENT-EARLY. -/
structure Task where
  tenant : Nat
  launch : Nat
  lin : Nat
  x : Nat
  y : Nat
  z : Nat
  r : TRec
  st : TState
  early : Bool
  regions : List Region
  extents : List Extent
  /-- Regions whose edge-in has been applied, by 16 * position + region (R258, R262). -/
  edgedIn : List Nat
  /-- Clusters of the group, by position. -/
  cls : List Nat
  /-- Vault allotment on a cluster: first byte. -/
  vbase : SMap Nat
  tmpl : SMap (List Byte)
  hinted : Bool
  /-- Clusters where a context has run since the last edge (R254). -/
  ranOn : List Nat
  /-- Where its last context retired (R253, R334). -/
  lastCl : Option Nat
  /-- Step at which its last context retired. -/
  doneAt : Nat
  /-- A save of the task is pinned: its vault stays reserved (R291, R376). -/
  pinned : Bool
  /-- The extent table is to be rebuilt at a restore (R295). -/
  rebuild : Bool
  /-- Runs the translation of a portable object (R353). -/
  xlat : Bool
  deriving DecidableEq, Repr

/-- A launch whose record the dispatcher has consumed, by the key of its RCB (R21, R22, R23, R326). -/
structure Launch where
  tenant : Nat
  /-- Tenant pointer to the RCB. -/
  node : W64
  submitted : Bool
  /-- Linear indices that have been dispatched, and those retired or killed. -/
  placed : List Nat
  gone : List Nat
  /-- Tasks that never fit and of which the tenant has been told (R24). -/
  placeErr : List Nat
  /-- Steps at which the launch was submitted, and at which a task of it first executed THINT (R367). -/
  subAt : Nat
  hintAt : Option Nat
  /-- The launch completed since the last discard of fetched code (R357). -/
  completed : Bool
  /-- Eighths of a cluster-µs not yet counted in CLTIME (R329). -/
  rem : Nat
  deriving DecidableEq, Repr

/-- A tenant: the registers of its VF (R339), shoot-downs (R295), and what the dispatcher keeps for it. -/
structure Tenant where
  root : W64
  ptroot : Nat
  bnds : Nat
  qwin : Nat
  mwin : Nat
  enable : Bool
  done : Bool
  err : Nat
  xtstart : W64
  xtgen : Nat
  xtbusy : Bool
  /-- The generation of the VF's shoot-down that is under way. -/
  xtnew : Nat
  savevec : W64
  restvec : W64
  xgen : Nat
  /-- The 64 most recent shoot-downs: generation, first window, one past the last. -/
  shoots : List (Nat × Nat × Nat)
  thresh : Nat
  /-- Consuming launch records after a tail write (R327). -/
  consuming : Bool
  /-- Causes of IVEC vectors that are set (R340). -/
  ivec : SMap Bool
  /-- The TAIL word was last written by the host (R357). -/
  hostTail : Bool
  deriving DecidableEq, Repr

/-- A queue entry kept beside the entry array: range or plain, key in the filter, who counts it (R263, R265, R15). -/
structure QEnt where
  range : Bool
  key : Option W64
  /-- The pusher's launch key, whose path counts the entry in QUSED. -/
  owner : Option Nat
  /-- Pushed from the other die: counted in OUTST of that path too (R337). -/
  outst : Bool
  /-- Pushed by a peer: who gets the notice of its removal. -/
  remote : Option Nat
  deriving DecidableEq, Repr

/-- The queue unit's part of a queue (R263 to R270). The control block stands in memory. -/
structure Queue where
  checked : Bool
  ents : List QEnt
  /-- Waiters, oldest first: context and quad. -/
  ws : List (Nat × GReg)
  /-- Steal requests: holder, requester (R269). -/
  steals : List (Nat × Nat)
  deriving DecidableEq, Repr

structure MRing where
  checked : Bool
  deriving DecidableEq, Repr

/-- A timetable directory entry (R218, R219). -/
structure TtEnt where
  tenant : Nat
  pa : Nat
  fmtc : Nat
  fc : Bool
  n : Nat
  /-- The footprint: physical key, where there is one, and length of each run. -/
  runs : List (Option Nat × Nat)
  dense : Bool
  nz : Nat
  ops : List W64
  deriving DecidableEq, Repr

/-- A compile that is queued or running on a die (R222, R223): key, the tile's pointer, footprint, the contexts that asked for it without
waiting. -/
structure Comp where
  id : Nat
  tenant : Nat
  pa : Nat
  fmtc : Nat
  fc : Bool
  n : Nat
  ptr : W64
  runs : List (Option Nat × Nat)
  bg : List Nat
  running : Bool
  /-- The threshold when the compile began (R224), and the cluster whose L1 it reads against (R320). -/
  thresh : Nat
  cl : Nat
  /-- The key's generation has moved since the compile began (R219). -/
  stale : Bool
  deriving DecidableEq, Repr

/-- A base-die subscription (R240 to R243). -/
inductive SubK where
  | fill | store | adapt
  deriving DecidableEq, Repr

structure Sub where
  k : SubK
  cid : Nat
  task : Nat
  cl : Nat
  ring : Nat
  desc : List Byte
  tile : Nat
  /-- The slot of the tile in hand, and the bytes of it that have been delivered. -/
  slot : Option Nat
  off : Nat
  /-- What the lines of the pattern were translated to at issue: first key and length of each run (R241). -/
  lines : List (List (Nat × Nat))
  lock : Nat
  /-- SUBK: ids warmed, newest first; entries to handle. -/
  ids : List Nat
  pend : List (List Byte)
  queue : Nat
  /-- Stopped by a fault (R236, R241). -/
  stopped : Bool
  lvl1 : Bool
  /-- The handle that its word named, and those it is an alias of (R234, R369). -/
  via : List Nat
  /-- SUBK with VAULT: the adapter that is being staged, its entry, and whether a byte of it was left out (R242). -/
  aid : Nat
  ent : List Byte
  part : Bool
  deriving DecidableEq, Repr

/-- A page walk (R142, R294, R295): where its entry goes, and the generation at which it began. -/
structure Walk where
  tenant : Nat
  task : Nat
  cl : Nat
  win : Nat
  gen : Nat
  /-- An ended walk that found no page: NOTPRESENT for the access that waits. -/
  missing : Bool
  /-- One that ended at a table entry with an uncorrectable error: ECC for the access (R347). -/
  bad : Bool
  deriving DecidableEq, Repr

/-- A pending reduction entry at an L2 home (R65, R165): physical key, type, W48 values by half. -/
structure RedE where
  key : Nat
  ty : ATy
  acc : List W48
  /-- The context that contributed last (R152). -/
  by_ : Nat
  deriving DecidableEq, Repr

/-- A TSPAWN, or a push to a peer, that is counted in OUTST of its launch (R337); or a peer's TSPAWN that this package performs. -/
structure Remote where
  id : Nat
  /-- The issuer's launch; none for a peer's TSPAWN. -/
  launch : Option Nat
  peer : Option Nat
  spawn : Bool
  /-- The spawned launch, when it lies in this package. -/
  node : Option Nat
  deriving DecidableEq, Repr

/-- A WAITC of a peer on memory of this package (R176, R317): the peer, its number for the WAITC, key, bytes, condition, comparand. -/
structure PeerMon where
  peer : Nat
  id : Nat
  key : Nat
  n : Nat
  cc : WCond
  b : Nat
  deriving DecidableEq, Repr

/-- An outstanding drawbar packet (R343): port, sequence, tenant, whose it is, the count it carries. -/
structure Packet where
  port : Nat
  sq : Nat
  tenant : Nat
  cid : Option Nat
  remote : Option Nat
  deriving DecidableEq, Repr

/-- A translation held in the region, in the flash store, or in both (R353, R354): its key, code and places. -/
structure Transl where
  digest : List Byte
  /-- Translator version. -/
  ver : Nat
  /-- NCTX and the TW bytes. -/
  tws : List Nat
  code : List Byte
  /-- Offset of the entry point. -/
  entry : Nat
  /-- First byte in the translation region, when it stands there. -/
  addr : Option Nat
  /-- Erase block that holds it in flash. -/
  blk : Option Nat
  /-- Latest use, in µs of the timebase; one of before a reset lies below zero. -/
  used : Int
  deriving DecidableEq, Repr

/-- PF0's registers and device-wide controls (R358 to R364). -/
structure Pf where
  ready : Bool
  fail : Bool
  trip : Bool
  throt : Bool
  failph : Nat
  rsvbase : Nat
  hcpkb : Nat
  hdmbase : Nat
  hdmsize : Nat
  powcap : Nat
  pownow : Nat
  temp : Nat
  clkmhz : Nat
  priocap : Nat
  eccCor : Nat
  eccUnc : Nat
  route : SMap Nat
  ingress : SMap Nat
  dieEcc : List Nat
  linkUp : Bool
  /-- Samples of the power controller, newest first, and ms the average has stood below 95% (R361). -/
  samples : List Nat
  lowMs : Nat
  lastTemp : Nat
  /-- Staged image blocks and the running image (R348, R364). -/
  staged : List Byte
  staging : Bool
  image : List Byte
  resets : Nat
  deriving DecidableEq, Repr

/-- Answers of the management and SPDM mailboxes, and of host reads: outputs of the device. -/
inductive Out where
  | mgmt (code status : Nat) (vals : List Nat)
  /-- An SPDM response; whether it carries the ML-DSA-65 signature (R348). -/
  | spdm (ml : Bool) (bytes : List Byte)
  | hostRead (bytes : List Byte)
  /-- A read of the host, or of a peer, that met an uncorrectable error (R347). -/
  | hostPoison (addr : Nat)
  | peerPoison (peer : Nat)
  | msix (fn vec : Nat)
  | wake (port peer id : Nat)
  | notice (peer id : Nat)
  | peerReply (peer : Nat) (ok : Bool) (v : Nat)
  deriving DecidableEq, Repr

/-- A move of one agent: the machine makes one at each step (log 1, DESIGN CHOICE). -/
inductive Move where
  /-- The generator of a context. -/
  | gen (cid : Nat)
  /-- The team of a context. -/
  | team (cid : Nat)
  /-- The epilogue processor of a cluster. -/
  | epi (cl : Nat)
  /-- A step of another agent, or an input; for a context or on a cluster where the step needs one. -/
  | event (cid cl : Nat) (i : Instr)
  deriving DecidableEq, Repr

/-- The package. -/
structure State where
  /-- The model's own: moves to make, oldest first; context and cluster a step acts for; steps made; free values drawn (logs 1, 2). -/
  agenda : List Move
  cur : Nat
  curCl : Nat
  ticks : Nat
  freeCtr : Nat
  nextId : Nat
  /-- CTX.CYCLE and the timebase in µs. -/
  mc : Nat
  us : Nat
  mem : List Host.Cell
  /-- Keys of bytes with an uncorrectable error. -/
  ecc : List Nat
  redq : List RedE
  /-- Reports due to fault domains, by 3 * context: 0 a store or reduction that a peer refused, 1 one whose packet was lost, 2 an error
  found merging at a home (R152, R343, R345). -/
  reports : List Nat
  /-- Bytes of peers' memory as this package last wrote or read them (R153, R309). -/
  peerMem : SMap Byte
  /-- Floating-point reductions sent to peers and still pending in the write queues of their homes (R65, R165). -/
  peerRed : List RedE
  /-- Lane rows by ((cluster * 4 + slice) * 2048 + row) * 32 + datapath lane; empty quarters by 4 * row number + quarter (R39). -/
  rows : SMap W32
  empt : SMap Bool
  ctxs : SMap Ctx
  tasks : SMap Task
  launches : SMap Launch
  tenants : SMap Tenant
  cls : SMap Cluster
  /-- Semaphores by 64 * cluster + number; channels by 8 * cluster + number. -/
  sems : SMap Sem
  /-- Waiters of a semaphore whose owner is away, oldest first, by 8 * context + number (R169, R170). -/
  semAway : SMap (List (Nat × Nat × GReg))
  chans : SMap Chan
  ringObjs : SMap RingObj
  queues : SMap Queue
  mrings : SMap MRing
  subs : SMap Sub
  warm : SMap Nat
  walks : SMap Walk
  ttdir : List TtEnt
  comps : SMap (List Comp)
  remotes : List Remote
  packets : List Packet
  /-- Monitors that serve peers' WAITCs. -/
  peerMons : List PeerMon
  /-- By 2 * cluster + issue port: the context that the port served last, and the mc in which it did (R81). -/
  ports : SMap (Nat × Nat)
  seqs : SMap Nat
  transl : List Transl
  /-- Turns (R330), by node: the child that holds the turn, the child last served at each level (8 * node + level), deficits in µs; and the
  cluster-time of the last 10 ms as time, node, level, eighths of a cluster-µs (R331). -/
  turns : SMap Nat
  servedLast : SMap Nat
  defs : SMap Int
  turnLog : List (Nat × Nat × Nat × Nat)
  erases : SMap Nat
  /-- Device lines the host may cache, by 64-byte line; host lines the partition holds: state 0 shared, 1 exclusive, 2 modified. -/
  filter : List Nat
  part : SMap Nat
  pf : Pf
  outs : List Out
  /-- Frames of internal layout that have been stored. -/
  saved : SMap Saved
  /-- The model's own: a device address beyond the memory that an access has reached; the next step stops there. -/
  hole : Option Nat
  deriving DecidableEq, Repr

/-- Ways the machine stops. -/
inductive Fault where
  /-- Raised by an access to a device physical address at or above 432 GiB, which no memory of the package answers (R9; R293 gives a
  48-bit field). The step after that access raises it. Safe: the manual gives such an access no effect. -/
  | noDevice (pa : Nat)
  deriving DecidableEq, Repr

inductive Refusal where
  /-- Raised by an arm of exec whose instruction has no meaning yet. Safe: nothing is claimed of it. -/
  | notModelled (mnemonic : String)
  deriving DecidableEq, Repr

/-! Values at reset. -/

/-- A team before dispatch. -/
def Team.none : Team := ⟨32, 0, 0, 0, 0, 0, [], [], []⟩
def Strm.none : Strm := ⟨[], Option.none, false, false, 0, 0, [], [], false, false, 0, [], 0⟩
def Cap.none : Cap := ⟨Option.none, [], [], 0, []⟩
/-- Reset values of R86 and R302. -/
def Trap.none : Trap :=
  { pl := false, dbgatt := false, intrap := false, scratch0 := 0, scratch1 := 0, vec := 0, epc := 0, reason := 0, info := 0, stag := 0,
    brkskip := 0, wdog := 3300000, since := 0, preempt := Option.none, laneF := Option.none, engF := false, copyF := [],
    inSave := false, svDone := false, restoring := false, savevec := 0, restvec := 0 }
def Dbg.none : Dbg := ⟨false, false, false, false, Option.none, 0, [], []⟩

/-- What an unlisted context number stands for: no context. -/
def Ctx.none : Ctx :=
  { st := .dormant, task := 0, idx := 0, gpos := 0, gsize := 1, cl := 0, slot := 0, slice := 0, quarter := 0, pc := 0, g := [],
    team := Team.none, strm := Strm.none, cap := Cap.none, trap := Trap.none, dbg := Dbg.none, hold := [0, 0, 0, 0, 0], bounds := [],
    rings := [], ringsGone := [], fills := [], bgerr := 0, lookups := 0, misses := 0, tryw := Option.none, watch := Option.none, waitAt := Option.none, ticket := Option.none,
    spErr := Option.none, spx := Option.none, remote := Option.none, sysWait := Option.none, report := false, runUs := 0, owed := 0, born := 0, outTurn := false }

def OpDesc.zero : OpDesc := ⟨0, 0, 0, 0⟩
def RowProg.zero : RowProg := ⟨0, 0, false, 0⟩

/-- The engine at reset and when a task takes it (R180, R202). -/
def Eng.reset : Eng :=
  { owner := Option.none, tiles := [], side := [], q := [], opa := OpDesc.zero, opb := OpDesc.zero, ad := Option.none, prog := 0,
    param := 0, words := [], rp := RowProg.zero, drow := 0, fcode := 0, faulted := false, fop := Option.none, faddr := 0, frow := 0, stopped := false, haltStop := false, framed := false,
    adpend := false, adtile := 0, adTags := [], adEnts := [], adC0 := 0 }

def Epi.idle : Epi :=
  { on := false, regs := [], prog := [], pcw := 0, row := 0, param := [], fmt := 0, z := 0, cid := 0, dst := 0, stride := 0,
    slot := Option.none, lvl1 := false, up := [], scales := [], stores := [], olds := [], fault := Option.none }

def Cluster.reset : Cluster := ⟨[], [], [], [], [], Eng.reset, Epi.idle, []⟩
def Sem.zero : Sem := ⟨0, false, []⟩
def Chan.idle : Chan := ⟨[], Option.none, 0⟩
def RingObj.none : RingObj := ⟨0, 0, 0, 0, 0, 0, 0, 0, []⟩
def Queue.none : Queue := ⟨false, [], [], []⟩
def MRing.none : MRing := ⟨false⟩

def TRec.none : TRec :=
  { entry := 0, isav := 0, nctx := 0, flags := 0, mcg := 1, nreg := 0, affcl := 0xFF, tw := [], rows := [], vbytes := 0, adapter := 0,
    arg := 0, waybill := 0, producer := 0, box := [], vimage := 0, vilen := 0 }

def Task.none : Task :=
  { tenant := 0, launch := 0, lin := 0, x := 0, y := 0, z := 0, r := TRec.none, st := .retired, early := false, regions := [],
    extents := [], edgedIn := [], cls := [], vbase := [], tmpl := [], hinted := false, ranOn := [], lastCl := Option.none, doneAt := 0, pinned := false,
    rebuild := false, xlat := false }

def Launch.none : Launch := ⟨0, 0, false, [], [], [], 0, Option.none, false, 0⟩

/-- A VF's block at its reset values (R339), the threshold of 60% (R215). -/
def Tenant.reset : Tenant :=
  { root := 0, ptroot := 0, bnds := 0, qwin := 0, mwin := 0, enable := false, done := false, err := 0, xtstart := 0, xtgen := 0,
    xtbusy := false, xtnew := 0, savevec := 0, restvec := 0, xgen := 0, shoots := [], thresh := 60, consuming := false, ivec := [], hostTail := false }

def Sub.none : Sub := ⟨.fill, 0, 0, 0, 0, [], 0, Option.none, 0, [], 0, [], [], 0, false, false, [], 0, [], false⟩
def Walk.none : Walk := ⟨0, 0, 0, 0, 0, false, false⟩

/-- PF0 after a reset sequence that ended in phase 7 (R358, R363); PF.RSVBASE is firmware's choice (log 5, DESIGN CHOICE). -/
def Pf.reset : Pf :=
  { ready := true, fail := false, trip := false, throt := false, failph := 0, rsvbase := 430 * 2 ^ 30, hcpkb := 0, hdmbase := 0,
    hdmsize := 0, powcap := 2800, pownow := 0, temp := 0, clkmhz := 3300, priocap := 90, eccCor := 0, eccUnc := 0, route := [],
    ingress := [], dieEcc := [0, 0], linkUp := true, samples := [], lowMs := 0, lastTemp := 0, staged := [], staging := false,
    image := [], resets := 0 }

/-- The package right after reset: no context, no launch, empty memory, every unit at its reset value (R358). -/
def State.reset : State :=
  { agenda := [], cur := 0, curCl := 0, ticks := 0, freeCtr := 0, nextId := 1, mc := 0, us := 0, mem := [], ecc := [], redq := [], reports := [], peerMem := [], peerRed := [],
    rows := [], empt := [], ctxs := [], tasks := [], launches := [], tenants := [], cls := [], sems := [], semAway := [], chans := [], ringObjs := [],
    queues := [], mrings := [], subs := [], warm := [], walks := [], ttdir := [], comps := [], remotes := [], packets := [], peerMons := [], ports := [],
    seqs := [], transl := [], turns := [], servedLast := [], defs := [], turnLog := [], erases := [], filter := [], part := [], pf := Pf.reset, outs := [], saved := [], hole := Option.none }

end Sys2Proof.Machine
end

