-- ==== Sys2Proof/Machine/Basic.lean ====
section
/-! DEFINITION. Reads and writes of the parts of the state: contexts, g registers, tasks, tenants, clusters, lane registers. -/

namespace Sys2Proof.Machine

/-! Parts by number. -/

def State.ctx (s : State) (cid : Nat) : Ctx := smGet Ctx.none s.ctxs cid
def State.setCtx (s : State) (cid : Nat) (c : Ctx) : State := { s with ctxs := smSet s.ctxs cid c }
def State.modCtx (s : State) (cid : Nat) (f : Ctx → Ctx) : State := s.setCtx cid (f (s.ctx cid))

/-- The context that the executing step acts for. -/
def State.me (s : State) : Ctx := s.ctx s.cur
def State.setMe (s : State) (c : Ctx) : State := s.setCtx s.cur c
def State.modMe (s : State) (f : Ctx → Ctx) : State := s.modCtx s.cur f

def State.task (s : State) (t : Nat) : Task := smGet Task.none s.tasks t
def State.setTask (s : State) (t : Nat) (v : Task) : State := { s with tasks := smSet s.tasks t v }
def State.modTask (s : State) (t : Nat) (f : Task → Task) : State := s.setTask t (f (s.task t))
def State.tenant (s : State) (t : Nat) : Tenant := smGet Tenant.reset s.tenants t
def State.setTenant (s : State) (t : Nat) (v : Tenant) : State := { s with tenants := smSet s.tenants t v }
def State.modTenant (s : State) (t : Nat) (f : Tenant → Tenant) : State := s.setTenant t (f (s.tenant t))
def State.launch (s : State) (k : Nat) : Launch := smGet Launch.none s.launches k
def State.setLaunch (s : State) (k : Nat) (v : Launch) : State := { s with launches := smSet s.launches k v }
def State.modLaunch (s : State) (k : Nat) (f : Launch → Launch) : State := s.setLaunch k (f (s.launch k))
def State.cl (s : State) (k : Nat) : Cluster := smGet Cluster.reset s.cls k
def State.setCl (s : State) (k : Nat) (v : Cluster) : State := { s with cls := smSet s.cls k v }
def State.modCl (s : State) (k : Nat) (f : Cluster → Cluster) : State := s.setCl k (f (s.cl k))
def State.eng (s : State) (k : Nat) : Eng := (s.cl k).eng
def State.setEng (s : State) (k : Nat) (e : Eng) : State := s.modCl k fun c => { c with eng := e }
def State.modEng (s : State) (k : Nat) (f : Eng → Eng) : State := s.modCl k fun c => { c with eng := f c.eng }
def State.epi (s : State) (k : Nat) : Epi := (s.cl k).epi
def State.setEpi (s : State) (k : Nat) (e : Epi) : State := s.modCl k fun c => { c with epi := e }
def State.sem (s : State) (k : Nat) : Sem := smGet Sem.zero s.sems k
def State.setSem (s : State) (k : Nat) (v : Sem) : State := { s with sems := smSet s.sems k v }
def State.chan (s : State) (k : Nat) : Chan := smGet Chan.idle s.chans k
def State.setChan (s : State) (k : Nat) (v : Chan) : State := { s with chans := smSet s.chans k v }
def State.ring (s : State) (k : Nat) : RingObj := smGet RingObj.none s.ringObjs k
def State.setRing (s : State) (k : Nat) (v : RingObj) : State := { s with ringObjs := smSet s.ringObjs k v }
def State.queue (s : State) (k : Nat) : Queue := smGet Queue.none s.queues k
def State.setQueue (s : State) (k : Nat) (v : Queue) : State := { s with queues := smSet s.queues k v }
def State.sub (s : State) (k : Nat) : Sub := smGet Sub.none s.subs k
def State.setSub (s : State) (k : Nat) (v : Sub) : State := { s with subs := smSet s.subs k v }

/-- The tenant of a context. -/
def State.tenOf (s : State) (c : Ctx) : Nat := (s.task c.task).tenant

/-- Sends an output of the device. -/
def State.emit (s : State) (o : Out) : State := { s with outs := s.outs ++ [o] }

/-- A new identifier. -/
def State.fresh (s : State) : Nat × State := (s.nextId, { s with nextId := s.nextId + 1 })

/-- Draws a free value: the counter before it advances (log 2, DESIGN CHOICE). -/
def State.draw (s : State) : Nat × State := (s.freeCtr, { s with freeCtr := s.freeCtr + 1 })

/-! g registers (R33, R83): g0 reads zero and its writes are discarded. -/

def Ctx.reg (c : Ctx) (r : GReg) : W64 := if r = 0#5 then 0#64 else smGet 0#64 c.g r.toNat
def Ctx.setReg (c : Ctx) (r : GReg) (v : W64) : Ctx := if r = 0#5 then c else { c with g := smSet c.g r.toNat v }
def State.reg (s : State) (r : GReg) : W64 := s.me.reg r
def State.setReg (s : State) (r : GReg) (v : W64) : State := s.modMe fun c => c.setReg r v

/-- Writes consecutive registers from r: a quad or an octet. -/
def State.setRegs (s : State) (r : GReg) : List W64 → State
  | [] => s
  | v :: vs => (s.setReg r v).setRegs (r + 1#5) vs

/-- The n registers from r. -/
def State.regs (s : State) (r : GReg) (n : Nat) : List W64 := (List.range n).map fun k => s.reg (r + BitVec.ofNat 5 k)

/-- The last source of a generator word: gb, or imm34 sign-extended (R89). -/
def State.src (s : State) : GSrc → W64
  | .reg r => s.reg r
  | .imm v => v.signExtend 64

/-- A source whose immediate is unsigned (R102, R170). -/
def State.srcN (s : State) : GSrc → W64
  | .reg r => s.reg r
  | .imm v => v.setWidth 64

/-- The state a context leaves a wait for: running, or early (R27). -/
def CState.awake : CState → CState
  | .waiting true => .early
  | .waiting false => .running
  | x => x

/-- Resident contexts (R27). -/
def CState.resident : CState → Bool
  | .early | .running | .waiting _ => true
  | _ => false

def CState.isEarly : CState → Bool
  | .early | .waiting true => true
  | _ => false

/-- A context that is WAITING or halted is charged, as one that is RUNNING (R329). -/
def Ctx.charged (c : Ctx) : Bool :=
  match c.st with
  | .running | .waiting _ => true
  | .early => c.dbg.halted
  | _ => false

/-- The cluster-time of a RESIDENT-EARLY context is put by before it begins or ceases to be charged. -/
def Ctx.counted (c : Ctx) (us : Nat) : Ctx :=
  if !c.st.isEarly then c
  else if c.charged then { c with owed := c.owed + (us - c.runUs), runUs := us } else { c with runUs := us }

/-- The PC moves past n words, and a wait is over. SKIP1 clears itself at a word that issues (R300). -/
def Ctx.past (c : Ctx) (us n : Nat) : Ctx :=
  { c.counted us with pc := c.pc + BitVec.ofNat 64 (8 * n), st := c.st.awake, watch := Option.none, dbg := { c.dbg with skip1 := false } }
def State.advN (s : State) (n : Nat) : State := s.modMe fun c => c.past s.us n
def State.adv (s : State) : State := s.advN 1

/-- The instruction ends: its result register, then the PC. -/
def State.done (s : State) (d : GReg) (v : W64) : State := (s.setReg d v).adv

/-- The context is not ready: nothing changes, and its instruction is tried again at its next move (R81). -/
def State.stall (s : State) : State := s

/-- The context waits on a condition (R27). -/
def State.toWait (s : State) : State :=
  s.modMe fun c =>
    { c.counted s.us with st := (match c.st with | .running => .waiting false | .early => .waiting true | x => x), dbg := { c.dbg with skip1 := false } }

/-! Lane rows (R8, R36). A team of 32 lanes or more puts lane ℓ at datapath lane ℓ mod 32 of pass ℓ div 32; a narrow team at 8 q + ℓ. -/

/-- Rows per register. -/
def Team.rpr (t : Team) : Nat := max 1 (t.w / 32)

def Ctx.rowBase (c : Ctx) : Nat := (c.cl * 4 + c.slice) * 2048

/-- Datapath lane (R117). -/
def Ctx.dpLane (c : Ctx) (l : Nat) : Nat := if c.team.w < 32 then 8 * c.quarter + l else l % 32

/-- The row, in its slice, of register L for lane ℓ. -/
def Ctx.rowOf (c : Ctx) (reg l : Nat) : Nat := c.team.vb + reg * c.team.rpr + (if c.team.w < 32 then 0 else l / 32)

def Ctx.laneKey (c : Ctx) (reg l : Nat) : Nat := (c.rowBase + c.rowOf reg l) * 32 + c.dpLane l

/-- The value of logical register reg in lane ℓ. -/
def State.lane (s : State) (c : Ctx) (reg l : Nat) : W32 := smGet 0#32 s.rows (c.laneKey reg l)
def State.setLane (s : State) (c : Ctx) (reg l : Nat) (v : W32) : State := { s with rows := smSet s.rows (c.laneKey reg l) v }

/-- Quarters that a team occupies (R39, R117). -/
def Ctx.quarters (c : Ctx) : List Nat :=
  if c.team.w = 8 then [c.quarter] else if c.team.w = 16 then [c.quarter, c.quarter + 1] else [0, 1, 2, 3]

/-- Keys of the full/empty bits of one register's row in pass j. -/
def Ctx.feKeys (c : Ctx) (reg j : Nat) : List Nat :=
  c.quarters.map fun q => (c.rowBase + c.team.vb + reg * c.team.rpr + j) * 4 + q

def State.isEmpty (s : State) (k : Nat) : Bool := smGet false s.empt k
def State.markEmpty (s : State) (ks : List Nat) : State := { s with empt := ks.foldl (fun m k => smSet m k true) s.empt }
def State.markFull (s : State) (ks : List Nat) : State := { s with empt := ks.foldl smDel s.empt }

/-! Contexts of a task. -/

/-- Number of a context: task, position in the group, index (128 numbers a task). -/
def cidOf (task gpos idx : Nat) : Nat := task * 128 + gpos * 8 + idx

def State.ctxsOf (s : State) (task : Nat) : List (Nat × Ctx) := s.ctxs.filter fun e => e.2.task = task

def State.residentOf (s : State) (task : Nat) : List (Nat × Ctx) := (s.ctxsOf task).filter fun e => e.2.st.resident

/-- The context at hardware number n of a cluster. -/
def State.ctxAt (s : State) (cl n : Nat) : Option (Nat × Ctx) := s.ctxs.find? fun e => e.2.st.resident && e.2.cl = cl && e.2.slot = n

/-- The sibling with index i at the same position. -/
def State.sibling (s : State) (c : Ctx) (i : Nat) : Nat := cidOf c.task c.gpos i

/-! Masks. -/

def fullMask (w : Nat) : Nat := 2 ^ w - 1

/-- A mask of the lanes below w that satisfy p. -/
def maskOf (w : Nat) (p : Nat → Bool) : Nat := (List.range w).foldl (fun m l => if p l then m + 2 ^ l else m) 0

/-- Predicate p(k) at lane ℓ; p0 is all true (R37). -/
def Team.pred (t : Team) (k l : Nat) : Bool := k = 0 || bitOf (smGet 0 t.preds k) l

/-- Writes a predicate bit; p0 is discarded (R120). -/
def Team.setPred (t : Team) (k l : Nat) (b : Bool) : Team :=
  if k = 0 then t else
    let m := smGet 0 t.preds k
    { t with preds := smSet t.preds k (if bitOf m l = b then m else if b then m + 2 ^ l else m - 2 ^ l) }

def Team.setPreds (t : Team) (k : Nat) : List (Nat × Bool) → Team
  | [] => t
  | (l, b) :: r => (t.setPred k l b).setPreds k r

/-- The executing lanes of a word (R37); a uniform word executes on lane 0 (R38). -/
def Team.lanes (t : Team) (g : Guard) : List Nat :=
  if g.u then [0] else (List.range t.w).filter fun l => bitOf t.act l && (t.pred g.pred.toNat l != g.neg)

/-- Lanes whose result a word writes: a uniform word writes every lane (R38). -/
def Team.dests (t : Team) (g : Guard) : List Nat := if g.u then List.range t.w else t.lanes g

end Sys2Proof.Machine
end

