-- ==== Sys2Proof/Machine/CsrRead.lean ====
section
/-! DEFINITION. The value of every CSR (R86, R87, R202, R225, R245, R270, R302), and which are assigned and writable (R85). -/

namespace Sys2Proof.Machine

def b2n (b : Bool) : Nat := if b then 1 else 0

/-- A status word from its fields, each at its bit. -/
def fields (fs : List (Nat × Nat)) : W64 := BitVec.ofNat 64 (fs.foldl (fun a f => a + f.1 * 2 ^ f.2) 0)

/-- CTX.STATUS (R86). -/
def statusWord (c : Ctx) : W64 := fields [(b2n c.trap.pl, 0), (b2n c.trap.dbgatt, 1), (b2n c.trap.intrap, 2)]

/-- CTX.CTXID (R86). -/
def ctxIdWord (c : Ctx) : W64 := fields [(c.slot, 0), (c.slice, 4), (c.gpos, 8), (c.gsize - 1, 12)]

/-- TR.PENDING (R302). -/
def pendingWord (c : Ctx) : W64 :=
  fields [(b2n (c.trap.preempt.isSome && c.trap.intrap), 0), (b2n c.trap.laneF.isSome, 1), (b2n c.trap.engF, 2),
    (b2n (!c.trap.copyF.isEmpty), 3), (b2n (c.dbg.pend.isSome && c.trap.intrap), 4)]

/-- DBG.CTL (R302). -/
def dbgCtlWord (d : Dbg) : W64 := fields [(b2n d.brkhalt, 0), (b2n d.skip1, 1), (b2n d.halted, 2), (b2n d.hard, 3)]

/-- ME.ROWPROG (R192). -/
def rowProgWord (r : RowProg) : W64 := fields [(r.row, 0), (b2n r.side, 6), (r.sidx, 8), (r.step, 32)]

/-- ME.STATUS (R202). -/
def meStatusWord (e : Eng) : W64 :=
  fields [(b2n (!e.q.isEmpty), 0), (b2n e.faulted, 1), (b2n e.stopped, 2), (b2n e.adpend, 3), (if e.adpend then e.adtile else 0, 4),
    (if e.faulted then e.fcode else 0, 8), (e.q.length, 16)]

/-- A HARD halt is in force in a context of the task: its channels and loaders stand still (R244). -/
def hardHeld (s : State) (task : Nat) : Bool := s.ctxs.any fun e => e.2.task = task && e.2.st.resident && e.2.dbg.halted && e.2.dbg.hard

/-- The status word of a channel (R237): faulted before frozen. -/
def chanWord (s : State) (ch : Chan) : W64 :=
  let st := if ch.q.isEmpty then 0 else if ch.fault.isSome then 2 else if ch.q.head?.any (fun c => hardHeld s c.task) then 3 else 1
  match ch.q with
  | [] => fields [(0, 0)]
  | cp :: _ => fields [(st, 0), (ch.q.length, 2), (cp.tidx, 8), (ch.fault.getD 0, 16), (cp.off, 32)]

/-! Ring handles (R234, R369). The number of a handle is 16 times its context's plus its own, and is the number of the ring it defines. -/

def ringKey (cid h : Nat) : Nat := cid * 16 + h

/-- A handle by its number, and the handles it is an alias of, one after another. -/
def ringChain (s : State) : Nat → Nat → List Nat
  | 0, _ => []
  | n + 1, k =>
    k :: (match smFind (s.ctx (k / 16)).rings (k % 16) with
      | some j => if j = k then [] else ringChain s n j
      | none => [])

/-- Longer than any chain of the handles of a task. -/
def chainFuel : Nat := 129

/-- The ring that a handle, by its number, defines or is an alias of. -/
def ringEnd (s : State) (k : Nat) : Option Nat :=
  (ringChain s chainFuel k).getLast?.filter fun o => smFind (s.ctx (o / 16)).rings (o % 16) = some o && (smFind s.ringObjs o).isSome

/-- The ring that a handle of a context names. -/
def ringOf (s : State) (c : Ctx) (h : Nat) : Option Nat := (smFind c.rings h).bind (ringEnd s)

/-- RING.POS of a handle (R245): zero when undefined. -/
def ringPosWord (s : State) (c : Ctx) (h : Nat) : W64 :=
  match (ringOf s c h).bind (smFind s.ringObjs) with
  | none => 0
  | some r => fields [(r.ppos, 0), (r.cpos, 8), (r.count, 32)]

def OpDesc.get (d : OpDesc) (k : Nat) : W64 :=
  match k with
  | 0 => d.base | 1 => d.q1 | 2 => d.q2 | _ => d.q3

/-- The engine as a context sees its CSRs: reset values while another task, or none, has it (R180; log 12, DEDUCED). -/
def seenEng (s : State) (c : Ctx) : Eng := if (s.eng c.cl).owner = some c.task then s.eng c.cl else Eng.reset

/-- Bits of a stream tag that are not RSV, by its KIND (R100). -/
def tagMask (kind1 : Bool) : W64 := if kind1 then 0x0000FFFFFFFFFFFF#64 else 0xFFFFFFFFFFFFFFFF#64

/-- The address of a comparator of KIND 0: bits 2:0 are zero (R302), whatever has been written there (log 146, DEDUCED). -/
def bpaAddr (v : W64) : W64 := v &&& 0xFFFFFFFFFFFFFFF8#64

/-- CTX.STREAMTAG holds the layout of KIND 1 (R100). -/
def tagKind1 (v : W64) : Bool := v.extractLsb' 0 3 = 1#3

/-- Comparator k matches rake words: its DBG.BPA has the CTX.STREAMTAG KIND 1 layout (R302). -/
def Dbg.rakeCmp (d : Dbg) (k : Nat) : Bool := (smGet 0#64 d.bpc k).getLsbD 1

/-- The value of CSR n in a context; none when n is unassigned. RSV fields read zero (R4). -/
def csrRead (s : State) (c : Ctx) (n : Nat) : Option W64 :=
  let t := s.task c.task
  let e := seenEng s c
  if n < 0x100 then
    match n with
    | 0x000 => some 0x0302 | 0x001 => some (BitVec.ofNat 64 c.cl) | 0x002 => some (ctxIdWord c) | 0x003 => some (statusWord c)
    | 0x004 => some t.r.arg | 0x005 => some (BitVec.ofNat 64 s.mc) | 0x006 => some (BitVec.ofNat 64 c.team.w)
    | 0x008 => some (fields [(t.x, 0), (t.y, 32)]) | 0x009 => some (fields [(t.z, 0), (t.lin, 32)])
    | 0x010 => some (c.team.fmt.setWidth 64) | 0x011 => some (BitVec.ofNat 64 c.team.vb) | 0x012 => some (BitVec.ofNat 64 c.team.vl)
    | 0x018 => some c.trap.scratch0 | 0x019 => some c.trap.scratch1 | 0x020 => some c.trap.vec | 0x021 => some c.trap.epc
    | 0x022 => some c.trap.reason | 0x023 => some c.trap.info | 0x024 => some (c.trap.stag &&& tagMask (tagKind1 c.trap.stag)) | 0x030 => some c.trap.brkskip
    | _ => none
  else if n < 0x200 then
    match n with
    | 0x100 => some (rowProgWord e.rp) | 0x101 => some (meStatusWord e) | 0x102 => some e.faddr
    | 0x104 => some e.opa.base | 0x105 => some e.opa.q1 | 0x106 => some e.opa.q2 | 0x107 => some e.opa.q3
    | 0x108 => some e.opb.base | 0x109 => some e.opb.q1 | 0x10A => some e.opb.q2 | 0x10B => some e.opb.q3
    | 0x10C => some ((e.ad.getD OpDesc.zero).get 0) | 0x10D => some ((e.ad.getD OpDesc.zero).get 1)
    | 0x10E => some ((e.ad.getD OpDesc.zero).get 2) | 0x10F => some ((e.ad.getD OpDesc.zero).get 3)
    | 0x110 => some e.prog | 0x111 => some e.param
    | _ => none
  else if n < 0x300 then
    match n with
    | 0x200 => some (BitVec.ofNat 64 (s.tenant t.tenant).thresh) | 0x201 => some c.bgerr | 0x202 => some c.lookups | 0x203 => some c.misses
    | _ => none
  else if n < 0x400 then
    if n < 0x308 then some (chanWord s (s.chan (8 * c.cl + (n - 0x300))))
    else if n < 0x310 then some (s.chan (8 * c.cl + (n - 0x308))).faddr
    else if n < 0x320 then some (ringPosWord s c (n - 0x310))
    else if n = 0x320 then some (BitVec.ofNat 64 (smGet 0 (s.cl c.cl).kskip c.task))
    else none
  else if n < 0x500 then
    if 0x410 ≤ n ∧ n ≤ 0x41F then 
      let v := smGet 0 c.dbg.bpa (n - 0x410)
      some (if c.dbg.rakeCmp (n - 0x410) then v &&& tagMask true else bpaAddr v)
    else if 0x420 ≤ n ∧ n ≤ 0x42F then some (smGet 0 c.dbg.bpc (n - 0x420))
    else
      match n with
      | 0x400 => some c.trap.savevec | 0x401 => some c.trap.restvec | 0x402 => some 0xFD00000001000000 | 0x403 => some c.trap.wdog
      | 0x404 => some (pendingWord c) | 0x408 => some (dbgCtlWord c.dbg) | 0x409 => some c.dbg.reason
      | _ => none
  else if n ≤ 0x504 ∧ 0x500 ≤ n then some (c.hold.getD (n - 0x500) 0)
  else none

/-- Write level of a CSR: none when it is RO or unassigned (R85, R86). -/
inductive CsrAcc where
  | ro | user | priv
  deriving DecidableEq, Repr

/-- Access of an assigned CSR. -/
def csrAcc (n : Nat) : CsrAcc :=
  match n with
  | 0x018 | 0x019 | 0x021 | 0x022 | 0x023 | 0x024 => .priv
  | 0x020 | 0x030 => .user
  | 0x201 => .user
  | 0x403 | 0x408 => .priv
  | 0x500 | 0x501 | 0x502 | 0x503 | 0x504 => .priv
  | n => if 0x410 ≤ n ∧ n ≤ 0x42F then .priv else .ro

/-- Keeps the bits of old where mask is 0. -/
def keepBits (mask old new : W64) : W64 := (new &&& mask) ||| (old &&& ~~~mask)

/-- Writable bits of a CSR, by the value written: RSV and RO fields keep their value (R4, R88, R100, R277, R302, R270). A write of
CTX.STREAMTAG takes the layout of the KIND it writes (log 123, DESIGN CHOICE). -/
def csrMask (c : Ctx) (n : Nat) (new : W64) : W64 :=
  match n with
  | 0x022 => 0x00000000DFFF00FF#64
  | 0x024 => tagMask (tagKind1 new)
  | 0x408 => 3#64
  | 0x500 => 0x8000000000000FFF#64
  | n => if 0x420 ≤ n ∧ n ≤ 0x42F then 7#64 else if 0x410 ≤ n ∧ n ≤ 0x41F then tagMask (c.dbg.rakeCmp (n - 0x410)) else 0xFFFFFFFFFFFFFFFF#64

/-- Writes an assigned writable CSR of a context, RSV and RO fields kept (R88). -/
def csrPut (c : Ctx) (n : Nat) (old new : W64) : Ctx :=
  let v := keepBits (csrMask c n new) old new
  match n with
  | 0x018 => { c with trap := { c.trap with scratch0 := v } }
  | 0x019 => { c with trap := { c.trap with scratch1 := v } }
  | 0x020 => { c with trap := { c.trap with vec := v } }
  | 0x021 => { c with trap := { c.trap with epc := v } }
  | 0x022 => { c with trap := { c.trap with reason := v } }
  | 0x023 => { c with trap := { c.trap with info := v } }
  | 0x024 => { c with trap := { c.trap with stag := v } }
  | 0x030 => { c with trap := { c.trap with brkskip := v } }
  | 0x201 => { c with bgerr := v }
  | 0x403 => { c with trap := { c.trap with wdog := v } }
  | 0x408 => { c with dbg := { c.dbg with brkhalt := bitOf v.toNat 0, skip1 := bitOf v.toNat 1 } }
  | n =>
    if 0x410 ≤ n ∧ n ≤ 0x41F then { c with dbg := { c.dbg with bpa := smSet c.dbg.bpa (n - 0x410) v } }
    else if 0x420 ≤ n ∧ n ≤ 0x42F then { c with dbg := { c.dbg with bpc := smSet c.dbg.bpc (n - 0x420) v } }
    else if 0x500 ≤ n ∧ n ≤ 0x504 then { c with hold := (List.range 5).map fun i => if i = n - 0x500 then v else c.hold.getD i 0 }
    else c

end Sys2Proof.Machine
end

