-- ==== Sys2Proof/Machine/Mem.lean ====
section
/-! DEFINITION. Memory: homes, L1, release and acquire, pointers to physical keys, the checks of an access in the order of R94 and R150. -/

namespace Sys2Proof.Machine

/-! Physical keys. Device addresses stand for themselves. -/

def hostKey (pa : Nat) : Nat := 2 ^ 48 + pa
def peerKey (p pa : Nat) : Nat := 2 ^ 48 * (2 + p) + pa
def vaultKey (cl b : Nat) : Nat := 2 ^ 60 + cl * 2 ^ 22 + b
/-- Byte b of the save frame of a context (R285, R377). -/
def frameKey (cid b : Nat) : Nat := 2 ^ 61 + cid * 2 ^ 24 + b
/-- Byte b of a context's view of its capture store (R105); not memory: the store is structured. -/
def capKey (cid b : Nat) : Nat := 2 ^ 62 + cid * 2 ^ 24 + b
/-- Byte b of the CSR shadows of a context (R140). -/
def shadowKey (cid b : Nat) : Nat := 2 ^ 63 + cid * 2 ^ 16 + b

def tgtKey (tgt peer pa : Nat) : Nat := if tgt = 0 then pa else if tgt = 1 then hostKey pa else peerKey peer pa

/-- Device and host bytes pass through L1 (R143). -/
def isCached (k : Nat) : Bool := k < 2 ^ 49
def isDevice (k : Nat) : Bool := k < 2 ^ 48
def isHost (k : Nat) : Bool := 2 ^ 48 ≤ k && k < 2 ^ 49
def isPeer (k : Nat) : Bool := 2 ^ 49 ≤ k && k < 2 ^ 60
/-- What a peer answers to an access to a byte at this step: 0 performed, 1 refused, 2 lost (R343, R345). -/
def peerSays (s : State) (k : Nat) : Nat := if isPeer k then Config.peerAnswer s.ticks (k / 256) % 3 else 0
/-- Who acts while a peer's request is performed for a local tenant (R345): a number that no context has. -/
def peerActor (loc : Nat) : Nat := 2 ^ 32 + loc
/-- A report becomes due to a fault domain: it is made when the step is over. -/
def addReport (s : State) (r : Nat) : State := if s.reports.contains r then s else { s with reports := s.reports ++ [r] }
/-- A store or reduction of the acting context that a peer did not perform is reported. -/
def peerLost (s : State) (k : Nat) : State := if peerSays s k = 0 then s else addReport s (3 * s.cur + (peerSays s k - 1))
def isVault (k : Nat) : Bool := 2 ^ 60 ≤ k && k < 2 ^ 61

/-- The drawbar port of a request to a peer for a 256-byte line: one of its mask, by a free function of the line (R344). -/
def portOf (s : State) (peer line : Nat) : Nat :=
  let ports := (List.range 12).filter (bitOf (smGet 0 s.pf.route peer))
  (ports[Config.portHash line % ports.length]?).getD 0

/-- A request for a line of a peer's memory takes the next sequence number of its port; it is answered within the access (R343, R344). -/
def drawbar (s : State) (line : Nat) : State :=
  let port := portOf s (line / 2 ^ 40 - 2) line
  { s with seqs := smSet s.seqs port ((smGet 0 s.seqs port + 1) % 4096) }

/-- The lines of peers' memory that an access touches. -/
def peerLines (ks : List Nat) : List Nat := ((ks.filter isPeer).map (· / 256)).eraseDups

/-- What stands at a byte of a peer's memory: what this package last wrote or read there, unless an agent of the peer has written it since,
which is free (log 13, DESIGN CHOICE). -/
def peerAt (s : State) (k : Nat) : State × Byte :=
  let (n, s) := s.draw
  let v := match smFind s.peerMem k with
    | some v => if Config.peerWrote n then BitVec.ofNat 8 (Config.peerReply n) else v
    | none => BitVec.ofNat 8 (Config.peerReply n)
  ({ s with peerMem := smSet s.peerMem k v }, v)

/-! Uncorrectable errors (R152, R347). -/

/-- An uncorrectable error is counted when it is found; the counter saturates (R347, R363). -/
def countUnc (s : State) : State := { s with pf := { s.pf with eccUnc := min (2 ^ 32 - 1) (s.pf.eccUnc + 1) } }

/-- A write of some bytes merges them into their 8-byte words of code (R347): an error is found in a byte that the write leaves, or, when
the operation reads what it changes, in any. -/
def mergeBad (s : State) (reads : Bool) (ks : List Nat) : Bool :=
  ks.any fun k => (rangeFrom (k / 8 * 8) 8).any fun b => s.ecc.contains b && (reads || !ks.contains b)

/-- An error found at a merge is counted, and reported to the fault domain of the task of context cid (R152). -/
def mergeNote (s : State) (cid : Nat) (reads : Bool) (ks : List Nat) : State :=
  if s.ecc.isEmpty || !mergeBad s reads ks then s else addReport (countUnc s) (3 * cid + 2)

/-- The merge of bytes that several contexts stored: an error is reported for each whose bytes lie in its word. -/
def mergeWho (s : State) (ks : List Nat) (who : Nat → Nat) : State :=
  if s.ecc.isEmpty || !mergeBad s false ks then s
  else (ks.filter fun k => (rangeFrom (k / 8 * 8) 8).any fun b => s.ecc.contains b && !ks.contains b).foldl
    (fun s k => addReport s (3 * who k + 2)) (countUnc s)

/-- Bytes of device memory: 12 stacks of 36 GiB (R9). -/
def deviceBytes : Nat := 432 * 2 ^ 30

/-! Reductions pending at homes (R65, R165). -/

/-- The element format of a floating-point type. -/
def atyFmt : ATy → EFmt
  | .f16x2 => .fp16
  | .bf16x2 => .bf16
  | _ => .fp32

/-- Size in bytes (R160). -/
def atySize : ATy → Nat
  | .n64 | .s64 => 8
  | _ => 4

/-- The element codes of a floating-point operand: one, or two halves, the lower first (R161). -/
def fparts (ty : ATy) (v : Nat) : List Nat := if ty = .f32 then [v % 2 ^ 32] else [v % 2 ^ 16, v / 2 ^ 16 % 2 ^ 16]
def fjoin (ty : ATy) (vs : List Nat) : Nat := if ty = .f32 then vs.headD 0 else vs.headD 0 + 2 ^ 16 * vs.tail.headD 0

/-- Adds a merged W48 value to a memory element, one rounding (R65). -/
def applyRed (f : EFmt) (old : Nat) (acc : W48) : Nat :=
  cvt f false false false .rne (fvAdd .rne (decodeElem f false old) (w48Val acc))

/-- The value of four bytes after an entry has been applied to them. -/
def RedE.sum (r : RedE) (old : Nat) : Nat := fjoin r.ty ((fparts r.ty old).zip r.acc |>.map fun p => applyRed (atyFmt r.ty) p.1 p.2)

/-- Applies an entry at its home. -/
def RedE.apply (r : RedE) (m : List Host.Cell) : List Host.Cell := memSetList m r.key (leBytes 4 (r.sum (memNat m r.key 4)))

def RedE.meets (r : RedE) (k n : Nat) : Bool := r.key < k + n && k < r.key + 4

/-- An entry pending at a peer's home is applied there. -/
def peerApply (s : State) (r : RedE) : State :=
  let (s, bs) := (rangeFrom r.key 4).foldl (fun x k => let (s, b) := peerAt x.1 k; (s, x.2 ++ [b])) (s, [])
  { s with peerMem := ((rangeFrom r.key 4).zip (leBytes 4 (r.sum (leNat bs)))).foldl (fun m e => smSet m e.1 e.2) s.peerMem }

/-- Any other access to the bytes at a peer's home first applies the entries pending there (R165). -/
def peerSettle (s : State) (k n : Nat) : State :=
  (s.peerRed.filter fun r => r.meets k n).foldl peerApply { s with peerRed := s.peerRed.filter fun r => !r.meets k n }

/-- A read of a byte of a peer's memory. -/
def peerByte (s : State) (k : Nat) : State × Byte := peerAt (peerSettle s k 1) k

/-- A write of a byte of a peer's memory: performed, or reported. -/
def peerPut (s : State) (k : Nat) (v : Byte) : State :=
  if peerSays s k = 0 then let s := peerSettle s k 1; { s with peerMem := smSet s.peerMem k v } else peerLost s k

/-- A write at a home invalidates the timetables whose footprint holds a byte, before it is performed (R219). -/
def ttTouch (s : State) (k n : Nat) : State :=
  let ov (runs : List (Option Nat × Nat)) : Bool := runs.any fun r => r.1.any fun a => decide (a < k + n) && decide (k < a + r.2)
  if s.ttdir.any (fun e => ov e.runs) || s.comps.any (fun d => d.2.any fun q => ov q.runs) then
    { s with ttdir := s.ttdir.filter (fun e => !ov e.runs),
             comps := s.comps.map fun d => (d.1, d.2.map fun q => if ov q.runs then { q with stale := true } else q) }
  else s

/-- A write at a home whose line the host may hold waits for the back-invalidate: the line leaves the filter (R342). -/
def backInval (s : State) (k n : Nat) : State :=
  if isDevice k && !s.filter.isEmpty then { s with filter := s.filter.filter fun l => !(l * 64 < k + n && k < l * 64 + 64) } else s

/-- Any other access to the bytes first applies the pending entries (R165). -/
def settle (s : State) (k n : Nat) : State :=
  let hit := s.redq.filter fun r => r.meets k n
  if hit.isEmpty then s
  else
    let s := hit.foldl (fun s r => mergeNote (backInval (ttTouch s r.key 4) r.key 4) r.by_ true (rangeFrom r.key 4)) s
    { s with redq := s.redq.filter (fun r => !r.meets k n), mem := hit.foldl (fun m r => r.apply m) s.mem }

/-- Barrier objects held in a cluster's cache are recalled to their home by a plain access to one of their bytes (R175). -/
def recallBar (s : State) (k n : Nat) : State :=
  let hit (e : Nat × List Nat) : Bool := e.1 < k + n && k < e.1 + 64
  if s.cls.any (fun c => c.2.barc.any hit) then
    { s with cls := s.cls.map fun c => (c.1, { c.2 with barc := c.2.barc.filter fun e => !hit e }) }
  else s

/-- The cluster whose L2 slice is the home of a device or host byte (R143). -/
def homeOf (k : Nat) : Nat :=
  let line := k % 2 ^ 48 / 2 ^ 8
  (line % 2 ^ 16 ^^^ line / 2 ^ 16 % 2 ^ 16 ^^^ line / 2 ^ 32 % 2 ^ 8) % 192

/-- A line that the partition gives up takes its soft errors with it, unless it was modified; its bytes are then in error wherever they stand
(log 151, DESIGN CHOICE). -/
def healLine (s : State) (e : Nat × Nat) : State :=
  if e.2 = 2 then s else { s with ecc := s.ecc.filter fun k => k / 64 ≠ e.1 }

/-- The partition obtains one host line in a state: 0 shared, 1 exclusive, 2 modified. A full slice first gives up a line of a free choice;
its dirty bytes go back to the host, whose memory the model holds as one coherent view (R318, R341). -/
def partLine (s : State) (st line : Nat) : State :=
  match smFind s.part line with
  | some old => { s with part := smSet s.part line (max old st) }
  | none =>
    let held := s.part.filter fun e => homeOf (e.1 * 64) = homeOf (line * 64)
    if held.length < 32 * s.pf.hcpkb then { s with part := smSet s.part line st }
    else
      let (n, s) := s.draw
      match held[Config.partVictim n % held.length]? with
      | some e => healLine { s with part := smSet (smDel s.part e.1) line st } e
      | none => s

/-- The partition obtains the lines of a host access of n bytes in a state: shared for a load, exclusive for an atomic, modified by a write
(R341). -/
def partTouch (s : State) (k n st : Nat) : State :=
  if isHost k then (rangeFrom (k / 64) ((k + n - 1) / 64 + 1 - k / 64)).foldl (fun s l => partLine s st l) s else s

/-- Reads n bytes at their home. -/
def homeRead (s : State) (k n : Nat) : State × List Byte :=
  let s := partTouch (recallBar (settle s k n) k n) k n 0
  (s, memBytes s.mem k n)

/-- A write at a home, but for the recall of barrier objects: what a cluster that holds an object does to it. -/
def homePut (s : State) (k : Nat) (bs : List Byte) : State :=
  let n := bs.length
  let s := partTouch (backInval (ttTouch (settle s k n) k n) k n) k n 2
  { s with mem := memSetList s.mem k bs, ecc := s.ecc.filter fun e => !(k ≤ e && e < k + n) }

/-- Writes bytes at their home. -/
def homeWrite (s : State) (k : Nat) (bs : List Byte) : State := homePut (recallBar s k bs.length) k bs

/-! L1 (R144). -/

/-- Ranks of scopes (R42). -/
def scopeRank : Scope → Nat
  | .self => 0 | .team => 1 | .cluster => 2 | .task => 3 | .die => 4 | .package => 5 | .fabric => 6 | .system => 7

/-- How an access uses L1: scope rank, .l2 and .ef policies. -/
structure Pol where
  rank : Nat
  l2 : Bool
  ef : Bool
  deriving DecidableEq, Repr

def Pol.through (p : Pol) : Bool := p.l2 || 2 < p.rank

/-- The policy of engines (R189, R190). -/
def polEng : Pol := ⟨2, true, false⟩
/-- A plain access at CLUSTER scope. -/
def polCl : Pol := ⟨2, false, false⟩

/-- The dirty bytes of a line, as physical keys and values. -/
def L1Line.dirtyBytes (line : Nat) (l : L1Line) : List (Nat × Byte) :=
  (List.range 64).filterMap fun o => if bitOf l.dirty o then some (line * 64 + o, smGet 0 l.data o) else none

/-- The context that stored a dirty byte. -/
def L1Line.storer (l : L1Line) (k : Nat) : Nat := smGet 0 l.by_ (k % 64)

/-- Writes a line's dirty bytes to their homes, with byte enables. -/
def writeDirty (s : State) (line : Nat) (l : L1Line) : State :=
  let bs := l.dirtyBytes line
  bs.foldl (fun s p => homeWrite s p.1 [p.2]) (mergeWho s (bs.map (·.1)) l.storer)

def setLine (s : State) (cl line : Nat) (l : L1Line) : State := s.modCl cl fun c => { c with l1 := smSet c.l1 line l }
def dropLine (s : State) (cl line : Nat) : State := s.modCl cl fun c => { c with l1 := smDel c.l1 line }

/-- Writes back a present line; it stays valid and becomes clean. -/
def cleanLine (s : State) (cl line : Nat) : State :=
  match smFind (s.cl cl).l1 line with
  | none => s
  | some l => if l.dirty = 0 then s else setLine (writeDirty s line l) cl line { l with dirty := 0 }

/-- Room for a line in its set of 16 ways: an .ef line leaves first, else a line of a free choice (R144). -/
def makeRoom (s : State) (cl line : Nat) : State :=
  let set := (s.cl cl).l1.filter fun e => e.1 % 256 = line % 256
  if set.length < 16 then s else
    let (k, s) := s.draw
    let v := (match set.find? (fun e => e.2.ef) with | some e => some e | none => set[Config.l1Victim k % set.length]?)
    match v with
    | none => s
    | some e => dropLine (writeDirty s e.1 e.2) cl e.1

/-- The line of a byte, allocated with tag t when absent. -/
def getLine (s : State) (cl line t : Nat) : State × L1Line :=
  match smFind (s.cl cl).l1 line with
  | some l => (s, l)
  | none => (makeRoom s cl line, ⟨0, 0, t, [], false, []⟩)

/-- Brings bytes of a line from its home: those of a mask that are not dirty are replaced, and are valid but for those with an error. -/
def bringLine (s : State) (line mask : Nat) (l : L1Line) : State × L1Line :=
  let (s, bs) := homeRead s (line * 64) 64
  let take (o : Nat) : Bool := bitOf mask o && !bitOf l.dirty o
  (s, { l with valid := maskOf 64 (fun o => if take o then !s.ecc.contains (line * 64 + o) else bitOf l.valid o),
               data := (List.range 64).foldl (fun d o => if take o then smSet d o (bs.getD o 0) else d) l.data })

/-- Fills a line from its home. -/
def fillLine (s : State) (line : Nat) (l : L1Line) : State × L1Line := bringLine s line (fullMask 64) l

/-- A load at the home refreshes the clean bytes of a present line (R144). -/
def refreshLine (s : State) (cl line : Nat) : State :=
  match smFind (s.cl cl).l1 line with
  | none => s
  | some l => let (s, l') := bringLine s line l.valid l; setLine s cl line l'

/-- What a load does to a line before it reads bytes at offsets os there (R144): a hit needs every one of them valid. -/
def l1Open (s : State) (cl : Nat) (p : Pol) (line : Nat) (os : List Nat) : State :=
  if p.through then refreshLine s cl line
  else
    let (s, l) := getLine s cl line p.rank
    let (s, l) := if os.all (bitOf l.valid) then (s, l) else fillLine s line l
    setLine s cl line { l with t := max l.t p.rank, ef := p.ef }

/-- A cached byte of a load whose line has been opened: from L1 where it is valid, else at its home. -/
def l1Byte (s : State) (cl k : Nat) : State × Byte :=
  match smFind (s.cl cl).l1 (k / 64) with
  | some l => if bitOf l.valid (k % 64) then (s, smGet 0 l.data (k % 64)) else (let (s, bs) := homeRead s k 1; (s, bs.headD 0))
  | none => let (s, bs) := homeRead s k 1; (s, bs.headD 0)

/-- L1 supplies byte k of a load of bytes ks, so that no error of its home is met. -/
def fromL1 (s : State) (cl : Nat) (p : Pol) (ks : List Nat) (k : Nat) : Bool :=
  isCached k && match smFind (s.cl cl).l1 (k / 64) with
    | none => false
    | some l => bitOf l.dirty (k % 64) || (!p.through && (ks.filter fun q => q / 64 = k / 64).all fun q => bitOf l.valid (q % 64))

/-- A load of bytes ks meets an uncorrectable error (R152). -/
def eccHit (s : State) (cl : Nat) (p : Pol) (ks : List Nat) : Bool := ks.any fun k => s.ecc.contains k && !fromL1 s cl p ks k

def orBit (m o : Nat) : Nat := if bitOf m o then m else m + 2 ^ o
def clrBit (m o : Nat) : Nat := if bitOf m o then m - 2 ^ o else m

/-- Stores one cached byte (R144). -/
def l1StoreB (s : State) (cl k : Nat) (p : Pol) (v : Byte) : State :=
  let line := k / 64
  let o := k % 64
  if p.through then
    let s := homeWrite s k [v]
    match smFind (s.cl cl).l1 line with
    | some l => setLine s cl line { l with data := smSet l.data o v, valid := orBit l.valid o, dirty := clrBit l.dirty o }
    | none => s
  else
    let (s, l) := getLine s cl line p.rank
    setLine s cl line
      { l with data := smSet l.data o v, valid := orBit l.valid o, dirty := orBit l.dirty o, t := max l.t p.rank, ef := p.ef, by_ := smSet l.by_ o s.cur }

/-- The dirty bytes of a line that lie in a range go home, and no byte of the range is valid any longer. -/
def yieldLine (s : State) (cl k n line : Nat) : State :=
  match smFind (s.cl cl).l1 line with
  | none => s
  | some l =>
    let hit (b : Nat) : Bool := decide (k ≤ b) && decide (b < k + n)
    let bs := (l.dirtyBytes line).filter fun p => hit p.1
    let s := bs.foldl (fun s p => homeWrite s p.1 [p.2]) (mergeWho s (bs.map (·.1)) l.storer)
    let keep (m : Nat) : Nat := maskOf 64 fun o => bitOf m o && !hit (line * 64 + o)
    setLine s cl line { l with dirty := keep l.dirty, valid := keep l.valid }

/-- Lines of a cluster's L1 that overlap a physical range. -/
def linesOver (s : State) (cl k n : Nat) : List Nat := ((s.cl cl).l1.filter fun e => e.1 * 64 < k + n && k < e.1 * 64 + 64).map (·.1)

/-- Write-back of the dirty bytes of an operation's range and loss of their valid bits, before it leaves for the home (R166). -/
def l1Yield (s : State) (cl k n : Nat) : State := (linesOver s cl k n).foldl (fun s l => yieldLine s cl k n l) s

/-- Writes back the lines that overlap a physical range; they stay valid (R254). -/
def l1CleanRange (s : State) (cl k n : Nat) : State := (linesOver s cl k n).foldl (fun s l => cleanLine s cl l) s

/-- Writes back, then invalidates, every line that overlaps a physical range (R252). -/
def l1FlushRange (s : State) (cl k n : Nat) : State :=
  (linesOver s cl k n).foldl (fun s l => dropLine (cleanLine s cl l) cl l) s

/-- A valid clean byte of a line is older than what its home holds. -/
def L1Line.stale (s : State) (line : Nat) (l : L1Line) (o : Nat) : Bool :=
  bitOf l.valid o && !bitOf l.dirty o && (smGet 0 l.data o != memGet s.mem (line * 64 + o) || s.redq.any fun r => r.meets (line * 64 + o) 1)

/-- A cluster's clean bytes of a physical range that are older than their homes are no longer valid. -/
def dropStale (s : State) (cl k n : Nat) : State :=
  (linesOver s cl k n).foldl (fun s line =>
    match smFind (s.cl cl).l1 line with
    | none => s
    | some l => setLine s cl line
        { l with valid := maskOf 64 fun o => bitOf l.valid o && !(decide (k ≤ line * 64 + o) && decide (line * 64 + o < k + n) && l.stale s line o) }) s

/-- The release action at a scope rank (R145): every dirty line whose tag is narrower is written back. -/
def release (s : State) (cl rank : Nat) : State :=
  ((s.cl cl).l1.filter fun e => e.2.t < rank && e.2.dirty != 0).foldl (fun s e => cleanLine s cl e.1) s

/-- The acquire action at a scope rank (R145): clean bytes of narrower lines are invalidated. -/
def acquire (s : State) (cl rank : Nat) : State :=
  s.modCl cl fun c => { c with l1 := c.l1.filterMap fun e =>
    if e.2.t < rank then (if e.2.dirty = 0 then none else some (e.1, { e.2 with valid := e.2.dirty })) else some e }

/-- Orders: what precedes and what follows an access (R145). -/
def ordBefore (s : State) (cl : Nat) (o : MOrd) (sc : Scope) : State :=
  match o with
  | .rel | .acqrel | .sc => release s cl (scopeRank sc)
  | _ => s
def ordAfter (s : State) (cl : Nat) (o : MOrd) (sc : Scope) : State :=
  match o with
  | .acq | .acqrel | .sc => acquire s cl (scopeRank sc)
  | _ => s

/-! Capture store as bytes (R105). -/

/-- Byte b of a rake slot. -/
def rakeByte (r : Rake) (b : Nat) : Byte :=
  if b < 0x1000 then BitVec.ofNat 8 ((r.ws.getD (b / 8) 0).toNat / 2 ^ (8 * (b % 8)))
  else if b < 0x1010 then
    BitVec.ofNat 8 ((r.flags + r.hmask * 2 ^ 8 + r.ws.length * 2 ^ 16 + r.votes * 2 ^ 32 + r.beginpc.toNat * 2 ^ 64) / 2 ^ (8 * (b - 0x1000)))
  else if b < 0x1020 then BitVec.ofNat 8 (smGet 0 r.holes ((b - 0x1010) / 2) / 2 ^ (8 * ((b - 0x1010) % 2)))
  else if 0x1040 ≤ b ∧ b < 0x1080 then BitVec.ofNat 8 ((smGet 0 r.last ((b - 0x1040) / 8)).toNat / 2 ^ (8 * ((b - 0x1040) % 8)))
  else 0

def Rake.zero : Rake := ⟨0, 0, 0, 0, [], [], []⟩

/-! Reads and writes by key, for an agent of cluster cl. -/

/-- Loads one byte by its key, its L1 line opened. -/
def loadB (s : State) (cl k : Nat) : State × Byte :=
  if isCached k then l1Byte s cl k
  else if isPeer k then peerByte s k
  else if k < 2 ^ 62 then (s, memGet s.mem k)
  else if k < 2 ^ 63 then
    (let cid := (k - 2 ^ 62) / 2 ^ 24
     let b := (k - 2 ^ 62) % 2 ^ 24
     (s, rakeByte (smGet Rake.zero (s.ctx cid).cap.rakes (b / 0x2000)) (b % 0x2000)))
  else
    (let cid := (k - 2 ^ 63) / 2 ^ 16
     let b := (k - 2 ^ 63) % 2 ^ 16
     (s, BitVec.ofNat 8 (((csrRead s (s.ctx cid) (b / 8)).getD 0).toNat / 2 ^ (8 * (b % 8)))))

/-- Stores one byte by its key. -/
def storeB (s : State) (cl k : Nat) (p : Pol) (v : Byte) : State :=
  if isCached k then l1StoreB s cl k p v
  else if isPeer k then peerPut s k v
  else { s with mem := memSet s.mem k v, ecc := s.ecc.filter (· ≠ k) }

/-- Loads bytes one by one. -/
def loadEach (s : State) (cl : Nat) : List Nat → State × List Byte
  | [] => (s, [])
  | k :: ks => let (s, b) := loadB s cl k; let (s, bs) := loadEach s cl ks; (s, b :: bs)

/-- One load of the bytes of an access: its lines are opened, then its bytes are read. -/
def loadKeys (s : State) (cl : Nat) (p : Pol) (ks : List Nat) : State × List Byte :=
  let cs := ks.filter isCached
  let s := (peerLines ks).foldl drawbar s
  loadEach ((cs.map (· / 64)).eraseDups.foldl (fun s l => l1Open s cl p l ((cs.filter (· / 64 = l)).map (· % 64))) s) cl ks

/-- Stores bytes one by one. -/
def storeEach (s : State) (cl : Nat) (p : Pol) : List Nat → List Byte → State
  | k :: ks, b :: bs => storeEach (storeB s cl k p b) cl p ks bs
  | _, _ => s

/-- One store of the bytes of an access; those that it writes at their homes are merged there. -/
def storeKeys (s : State) (cl : Nat) (p : Pol) (ks : List Nat) (bs : List Byte) : State :=
  let s := (peerLines ks).foldl drawbar s
  storeEach (mergeNote s s.cur false (ks.filter fun k => if isCached k then p.through else !isPeer k)) cl p ks bs

/-! Pointers (R136 to R142). -/

def ridOf (p : W64) : Nat := (p.extractLsb' 56 8).toNat
def offOf (p : W64) : Nat := (p.extractLsb' 0 56).toNat

/-- A bounds-table entry's fields (R137). -/
structure Bnd where
  base : Nat
  peer : Nat
  tgt : Nat
  v : Bool
  x : Bool
  a : Bool
  w : Bool
  rp : Bool
  limit : Nat
  deriving DecidableEq, Repr

def Bnd.of (e : BitVec 128) : Bnd :=
  { base := (e.extractLsb' 76 52).toNat, peer := (e.extractLsb' 56 8).toNat, tgt := (e.extractLsb' 54 2).toNat, v := e.getLsbD 48,
    x := e.getLsbD 47, a := e.getLsbD 46, w := e.getLsbD 45, rp := e.getLsbD 44, limit := (e.extractLsb' 0 44).toNat }

/-- An entry that may be used: TGT 3 is not valid, nor is TGT 1 while the partition is absent (R138, R341). -/
def Bnd.ok (s : State) (b : Bnd) : Bool := b.v && b.tgt != 3 && !(b.tgt = 1 && s.pf.hcpkb = 0)

def Bnd.va (b : Bnd) (off : Nat) : Nat := (b.base * 4096 + off) % 2 ^ 64

/-- The bounds entry of a pointer in a context's copy of the table. -/
def bndOf (c : Ctx) (p : W64) : Bnd := Bnd.of (smGet 0#128 c.bounds (ridOf p - 1))

/-- What an access does (R137, R141, R158). -/
inductive AKind where
  | ld | st | at_ | red (op ty : Nat) | rd
  deriving DecidableEq, Repr

def AKind.isStore : AKind → Bool
  | .st | .at_ | .red _ _ => true
  | _ => false

def Bnd.perm (b : Bnd) : AKind → Bool
  | .ld => b.rp
  | .st => b.w
  | .at_ | .red _ _ => b.a
  | .rd => b.rp

/-- Whether a region's mode allows an access (R141, R158). -/
def Region.allows (r : Region) : AKind → Bool
  | .ld => r.mode ≠ 3
  | .st => r.mode = 1 || r.mode = 2
  | .at_ => r.mode = 2 || r.mode = 4
  | .red op ty => r.mode = 1 || r.mode = 2 || r.mode = 4 || (r.mode = 3 && r.redop = op && r.redty = ty)
  | .rd => r.mode ≠ 3

def Region.has (r : Region) (p : Nat) : Bool := r.base ≤ p && p < r.base + r.extent

/-- The result of translating one byte. -/
inductive Tr where
  | key (k : Nat)
  | miss (win : Nat)
  | gone
  /-- A table entry of the walk has an uncorrectable error. -/
  | bad
  deriving DecidableEq, Repr

/-- Translation through a cluster's cache, for a tenant and the task whose entries serve it (R142, R249). A walk that ended without a
page answers NOTPRESENT, and one that met an error ECC. -/
def tcLook (s : State) (cl tenant task va : Nat) : Tr :=
  let win := va / 2 ^ 21
  match (s.cl cl).tc.find? (fun e => e.tenant = tenant && e.task = task && e.win = win) with
  | some e => .key (tgtKey e.tgt e.peer (e.pa + va % 2 ^ 21))
  | none =>
    match s.walks.find? (fun w => w.2.cl = cl && w.2.tenant = tenant && w.2.task = task && w.2.win = win && w.2.missing) with
    | some w => if w.2.bad then .bad else .gone
    | none => .miss win

/-- Translation of a data byte: extent table, then translation cache for LAZY regions (R142, R248). Where a byte lies in both, an extent of
a region that allows the access serves it (log 122, DESIGN CHOICE). -/
def trByte (s : State) (c : Ctx) (k : AKind) (va : Nat) : Tr :=
  let t := s.task c.task
  match t.extents.find? (fun e => e.va ≤ va && va < e.va + e.len && (t.regions[e.region]?).any (·.allows k)) with
  | some e => .key (tgtKey e.tgt e.peer (e.pa + (va - e.va)))
  | none => tcLook s c.cl t.tenant c.task va

/-- The entries that served an access become the most recently used (R142). -/
def tcUse (s : State) (cl tenant task : Nat) (wins : List Nat) : State :=
  let hit (e : TcEnt) : Bool := e.tenant = tenant && e.task = task && wins.contains e.win
  if (s.cl cl).tc.any hit then s.modCl cl fun c => { c with tc := c.tc.filter (fun e => !hit e) ++ c.tc.filter hit } else s

/-- Windows of the n bytes from a data pointer that no extent serves. -/
def tcWins (s : State) (c : Ctx) (k : AKind) (p : W64) (n : Nat) : List Nat :=
  if ridOf p = 0 || 0xFD ≤ ridOf p then [] else
    let t := s.task c.task
    let vas := (rangeFrom (offOf p) n).map (bndOf c p).va
    ((vas.filter fun va => !t.extents.any fun e => e.va ≤ va && va < e.va + e.len && (t.regions[e.region]?).any (·.allows k)).map
      (· / 2 ^ 21)).eraseDups

/-- A checked data access has used its translation-cache entries. -/
def used (s : State) (c : Ctx) (k : AKind) (p : W64) (n : Nat) : State := tcUse s c.cl (s.tenOf c) c.task (tcWins s c k p n)

/-- Starts a walk for a window, unless one is under way or all 32 walkers are busy (R142). -/
def startWalk (s : State) (cl tenant task win : Nat) : State :=
  if s.walks.any (fun w => w.2.cl = cl && w.2.tenant = tenant && w.2.task = task && w.2.win = win && !w.2.missing) then s
  else if 32 ≤ (s.walks.filter fun w => !w.2.missing).length then s
  else
    let (n, s) := s.fresh
    { s with walks := smSet s.walks n ⟨tenant, task, cl, win, (s.tenant tenant).xgen, false, false⟩ }

/-- Forgets the walks that ended without a page, or at an error, for a task on a cluster, once their fault has been raised. -/
def dropGone (s : State) (cl task : Nat) (bad : Bool) : State :=
  { s with walks := s.walks.filter fun w => !(w.2.cl = cl && w.2.task = task && w.2.missing && w.2.bad == bad) }

/-- The outcome of an access's checks: keys of its bytes, a fault, or a wait for a walk. -/
inductive ARes where
  | ok (keys : List Nat)
  | fault (code : Nat) (info : W64)
  | wait (s : State)
  deriving DecidableEq, Repr

/-- PERM of an access whose packet was lost (R343): what raises it sets UNDELIV, and it is PERM from then on. -/
def fLOST : Nat := 0x108

def fILLEGAL : Nat := 0x01
def fPREFIX : Nat := 0x02
def fREGBOUND : Nat := 0x03
def fFETRAP : Nat := 0x04
def fPRIV : Nat := 0x05
def fUNDECLARED : Nat := 0x06
def fRIDBOUND : Nat := 0x07
def fPERM : Nat := 0x08
def fNOTPRESENT : Nat := 0x09
def fALIGN : Nat := 0x0A
def fRANGELOCK : Nat := 0x0B
def fATOMTYPE : Nat := 0x0C
def fSTRETCH : Nat := 0x0D
def fSPORDER : Nat := 0x0E
def fCOPY : Nat := 0x0F
def fMSGERR : Nat := 0x10
def fQUEUE : Nat := 0x11
def fADAPTER : Nat := 0x12
def fEPILOGUE : Nat := 0x13
def fECC : Nat := 0x14
def fBRK : Nat := 0x15
def fWATCHDOG : Nat := 0x16

/-- The fault code of an access as a trap reports it. -/
def plainCode (code : Nat) : Nat := if code = fLOST then fPERM else code

/-- The tag bytes of the rings defined on a cluster: stores and atomics to them raise PERM (R233). -/
def isRingTag (s : State) (k : Nat) : Bool :=
  s.ringObjs.any fun r => vaultKey r.2.cl r.2.tbase ≤ k && k < vaultKey r.2.cl (r.2.tbase + r.2.count)

/-- Range-lock check of one byte, in the tables of the agent's cluster and, for a vault byte, of the vault's (R151). -/
def lockHit (s : State) (cl k : Nat) (store : Bool) : Bool :=
  let tabs := (s.cl cl).locks ++ (if isVault k then (s.cl ((k - 2 ^ 60) / 2 ^ 22)).locks else [])
  tabs.any fun l => (l.dst || store) && l.segs.any fun g => g.1 ≤ k && k < g.2

/-- The vault bytes of an access (R139). -/
def vaultKeys (s : State) (c : Ctx) (lvl1 : Bool) (p : W64) (n : Nat) : Option (List Nat) :=
  let off := offOf p
  let t := s.task c.task
  let cl0 := bitsOf off 29 22
  let cl := if cl0 = 0xFF then c.cl else cl0
  let b := off % 2 ^ 22
  match smFind t.vbase cl with
  | none => none
  | some vb =>
    if off / 2 ^ 30 ≠ 0 ∨ 192 ≤ cl then none
    else if lvl1 then (if 2 ^ 22 < b + n then none else some (rangeFrom (vaultKey cl b) n))
    else if t.r.vbytes < b + n then none else some (rangeFrom (vaultKey cl (vb + b)) n)

/-- Bytes of a context's frame (R285). -/
def frameSize (s : State) (c : Ctx) : Nat :=
  let r := (s.task c.task).r
  0x20000 + 128 * r.rows.foldl (· + ·) 0 + (if c.idx = 0 then r.vbytes else 0)

/-- The checks of R94 and R150 from RIDBOUND on, but for RANGELOCK, ECC and ATOMTYPE, for n bytes from p. lvl1 gives the level. The RIDBOUND
of a peer with no path (R344) comes when the page is known, after UNDECLARED and NOTPRESENT (log 156, DESIGN CHOICE); an uncorrectable error
that a page walk met is ECC of the access (log 157, DESIGN CHOICE). -/
def resolve (s : State) (c : Ctx) (cid : Nat) (lvl1 : Bool) (k : AKind) (p : W64) (n : Nat) : ARes :=
  let rid := ridOf p
  let off := offOf p
  if rid = 0 then .fault fRIDBOUND p
  else if rid = 0xFD then
    if off + n ≤ 0x80000 then (if k = .ld then .ok (rangeFrom (capKey cid off) n) else .fault fPERM p)
    else if 0x1000000 ≤ off ∧ off + n ≤ 0x2000000 then
      if frameSize s c < off - 0x1000000 + n then .fault fRIDBOUND p
      else if !lvl1 then .fault fPERM p
      else (match k with
        | .ld | .st => .ok (rangeFrom (frameKey cid (off - 0x1000000)) n)
        | _ => .fault fPERM p)
    else .fault fRIDBOUND p
  else if rid = 0xFE then
    match vaultKeys s c lvl1 p n with
    | none => .fault fRIDBOUND p
    | some ks => if k.isStore && ks.any (isRingTag s) then .fault fPERM p else .ok ks
  else if rid = 0xFF then
    if 0x100000 ≤ off ∧ off + n ≤ 0x108000 then (if k = .ld ∧ n = 8 ∧ off % 8 = 0 then .ok (rangeFrom (shadowKey cid (off - 0x100000)) n) else .fault fPERM p)
    else if off + n ≤ 0x1000 ∨ (0x10000 ≤ off ∧ off + n ≤ 0x20000) ∨ (0x20000 ≤ off ∧ off + n ≤ 0x24000) then .fault fPERM p
    else .fault fRIDBOUND p
  else
    let b := bndOf c p
    if !b.ok s || b.limit * 4096 < off + n then .fault fRIDBOUND p
    else if !b.perm k then .fault fPERM p
    else
      let ps := rangeFrom p.toNat n
      let rs := (s.task c.task).regions
      if ps.any (fun q => !rs.any fun r => r.has q && r.allows k) then .fault fUNDECLARED p
      else
        let trs := (rangeFrom off n).map fun o => trByte s c k (b.va o)
        match trs.find? (fun t => match t with | .miss _ => true | _ => false) with
        | some (.miss w) => .wait (startWalk s c.cl (s.tenOf c) c.task w)
        | _ =>
          if trs.any (fun t => t == .gone) then .fault fNOTPRESENT p
          else if trs.any (fun t => t == .bad) then .fault fECC p
          else
            let ks := trs.map fun t => match t with | .key k => k | _ => 0
            if ks.any (fun k => isPeer k && smGet 0 s.pf.route (k / 2 ^ 48 - 2) = 0) then .fault fRIDBOUND p
            else if (k = .ld || k = .at_ || k = .rd) && ks.any (fun k => peerSays s k ≠ 0) then
              .fault (if ks.any (fun k => peerSays s k = 2) then fLOST else fPERM) p
            else
              match ks.find? (fun k => isDevice k && deviceBytes ≤ k) with
              | some h => .wait { s with hole := some h }
              | none => .ok ks

/-- RANGELOCK, then ECC of a load, of an access that passed the other checks. -/
def lockEcc (s : State) (cl : Nat) (k : AKind) (pol : Pol) (p : W64) (ks : List Nat) : ARes :=
  if ks.any (fun q => lockHit s cl q k.isStore) then .fault fRANGELOCK p
  else if !k.isStore && eccHit s cl pol ks then .fault fECC p
  else .ok ks

/-- An access of a context's generator, its alignment apart (R94). -/
def genAccess (s : State) (k : AKind) (pol : Pol) (p : W64) (n : Nat) : ARes :=
  let c := s.me
  match resolve s c s.cur c.trap.pl k p n with
  | .ok ks => lockEcc s c.cl k pol p ks
  | r => r

/-- A pointer moved by a signed distance: only its offset changes (R136). -/
def ptrAdd (p : W64) (d : Int) : W64 := p.extractLsb' 56 8 ++ (p.extractLsb' 0 56 + BitVec.ofInt 56 d)

def aligned (p : W64) (n : Nat) : Bool := p.toNat % n = 0

end Sys2Proof.Machine
end

