-- ==== Sys2Proof/Machine/Tree.lean ====
section
/-! DEFINITION. The dispatcher's view of memory: page tables, tenant pointers, region control blocks, budgets, interrupts, and killing a
subtree (R12 to R23, R293, R294, R339). -/

namespace Sys2Proof.Machine

/-! What a read at the homes finds (R165): memory with every pending reduction applied. -/

def homeMem (s : State) : List Host.Cell := s.redq.foldl (fun m r => r.apply m) s.mem

/-- Every pending reduction is applied: before an agent reads at the homes (R165). -/
def settleAll (s : State) : State := s.redq.foldl (fun s r => settle s r.key 4) s

/-- A byte of a peer's memory as a read finds it at this step: what this package last wrote or read there, unless an agent of the peer has
written it since (log 13, DESIGN CHOICE). -/
def peerView (s0 : State) (k : Nat) : Byte :=
  let s := peerSettle s0 k 1
  let n := s.ticks * 2 ^ 64 + k
  match smFind s.peerMem k with
  | some v => if Config.peerWrote n then BitVec.ofNat 8 (Config.peerReply n) else v
  | none => BitVec.ofNat 8 (Config.peerReply n)

def homeByte (s : State) (k : Nat) : Byte := if isPeer k then peerView s k else memGet (homeMem s) k

/-! Page tables (R293, R294): entries are read at their homes. -/

/-- A page-table entry that ends a walk in NOTPRESENT whatever its level. -/
def pteBad (e : Nat) : Bool := !bitOf e 0 || bitOf e 4 || bitsOf e 55 48 ≠ 0 || bitsOf e 11 5 ≠ 0 || bitsOf e 3 2 = 3

/-- The address of the entry for va of a table at level lv. -/
def pteAddr (va lv tab : Nat) : Nat := tab + 8 * bitsOf va (29 + 9 * lv) (21 + 9 * lv)

/-- Walks from a table at level lv (3 to 0) and gives the physical base of the 2 MiB window of va, its target and peer. -/
def walkFrom (m : List Host.Cell) (va : Nat) : Nat → Nat → Option (Nat × Nat × Nat)
  | 0, tab =>
    let e := memNat m (pteAddr va 0 tab) 8
    if pteBad e || !bitOf e 1 then none else some (bitsOf e 47 21 * 2 ^ 21, bitsOf e 3 2, bitsOf e 63 56)
  | lv + 1, tab =>
    let e := memNat m (pteAddr va (lv + 1) tab) 8
    if pteBad e then none
    else if bitOf e 1 then
      (if lv = 0 then some (bitsOf e 47 30 * 2 ^ 30 + bitsOf va 29 21 * 2 ^ 21, bitsOf e 3 2, bitsOf e 63 56) else none)
    else walkFrom m va lv (bitsOf e 47 12 * 2 ^ 12)

/-- A walk of a tenant's page table; VA<63:57> must be zero. Reserved memory is outside every mapping (R346): a leaf that names it is no
page (log 148, DESIGN CHOICE). -/
def walkVA (s : State) (tn va : Nat) : Option (Nat × Nat × Nat) :=
  if 2 ^ 57 ≤ va then none
  else (walkFrom (homeMem s) va 3 (s.tenant tn).ptroot).filter fun r => !(r.2.1 = 0 && s.pf.rsvbase ≤ r.1)

/-- The table entries that a walk reads. -/
def walkKeys (m : List Host.Cell) (va : Nat) : Nat → Nat → List Nat
  | 0, tab => [pteAddr va 0 tab]
  | lv + 1, tab =>
    let a := pteAddr va (lv + 1) tab
    let e := memNat m a 8
    a :: (if pteBad e || bitOf e 1 then [] else walkKeys m va lv (bitsOf e 47 12 * 2 ^ 12))

/-- A walk meets an uncorrectable error (R347). -/
def walkBad (s : State) (tn va : Nat) : Bool :=
  !s.ecc.isEmpty && va < 2 ^ 57 && (walkKeys (homeMem s) va 3 (s.tenant tn).ptroot).any fun a => (rangeFrom a 8).any s.ecc.contains

/-! Tenant pointers of the dispatcher (R16): the bounds table as it stands in memory, no waybill. -/

/-- Entry of a tenant's bounds table in memory. -/
def tBnd (s : State) (tn : Nat) (p : W64) : Bnd :=
  Bnd.of (BitVec.ofNat 128 (memNat (homeMem s) ((s.tenant tn).bnds + 16 * (ridOf p - 1)) 16))

/-- A byte in a peer's memory resolves where the package has a route and the peer grants it, as for a context (R344, R345). -/
def peerOpen (s : State) (k : Nat) : Bool := !isPeer k || (smGet 0 s.pf.route (k / 2 ^ 48 - 2) ≠ 0 && peerSays s k = 0)

/-- Physical key of one byte of a tenant pointer, whatever a peer says; the write flag asks for W. -/
def tPlace (s : State) (tn : Nat) (write : Bool) (p : W64) : Option Nat :=
  let rid := ridOf p
  if rid = 0 ∨ 0xFD ≤ rid then none
  else
    let b := tBnd s tn p
    if !b.ok s || b.limit * 4096 ≤ offOf p || !(if write then b.w else b.rp) then none
    else
      let va := b.va (offOf p)
      (walkVA s tn va).map fun r => tgtKey r.2.1 r.2.2 (r.1 + va % 2 ^ 21)

/-- Physical key of one byte of a tenant pointer. -/
def tByte (s : State) (tn : Nat) (write : Bool) (p : W64) : Option Nat := (tPlace s tn write p).filter (peerOpen s)

/-- Keys of n bytes from a pointer, by the key of each. -/
def keysOf (f : W64 → Option Nat) (p : W64) (n : Nat) : Option (List Nat) :=
  ((List.range n).map fun (k : Nat) => f (ptrAdd p k)).foldr (fun x acc => x.bind fun k => acc.map fun ks => k :: ks) (some [])

/-- Keys of n bytes from a tenant pointer. -/
def tKeys (s : State) (tn : Nat) (write : Bool) (p : W64) (n : Nat) : Option (List Nat) := keysOf (tByte s tn write) p n

/-- What the dispatcher sees of bytes from a tenant pointer, at their homes: a look, which no agent notices (log 149, DESIGN CHOICE). -/
def tLook (s : State) (tn : Nat) (p : W64) (n : Nat) : Option (List Byte) := (tKeys s tn false p n).map fun ks => ks.map (homeByte s)

/-- A number read through a tenant pointer, zero when it does not resolve. -/
def tNat (s : State) (tn : Nat) (p : W64) (n : Nat) : Nat := leNat ((tLook s tn p n).getD [])

/-- Bytes of a record, an image or an object, which the dispatcher takes whole: none of them may have an error (R347). -/
def tRead (s : State) (tn : Nat) (p : W64) (n : Nat) : Option (List Byte) :=
  (tLook s tn p n).filter fun _ => s.ecc.isEmpty || !((tKeys s tn false p n).getD []).any s.ecc.contains

/-- Writes bytes through a tenant pointer; an unresolved pointer writes nothing. A store that a peer refuses, or that is lost, is reported
to the tenant (R343, R345; log 149, DESIGN CHOICE). -/
def tWrite (s : State) (tn : Nat) (p : W64) (bs : List Byte) : State :=
  match keysOf (tPlace s tn true) p bs.length with
  | none => s
  | some ks =>
    if ks.any fun k => isPeer k && smGet 0 s.pf.route (k / 2 ^ 48 - 2) = 0 then s
    else
      let t := (ks.zip bs).foldl (fun s e => if isPeer e.1 then peerPut { s with cur := peerActor tn } e.1 e.2 else homeWrite s e.1 [e.2])
        ((peerLines ks).foldl drawbar s)
      { t with cur := s.cur }

/-! Region control blocks (R13). -/

def rcb (s : State) (tn : Nat) (p : W64) (off n : Nat) : Nat := tNat s tn (ptrAdd p off) n
def rcbPtr (s : State) (tn : Nat) (p : W64) (off : Nat) : W64 := BitVec.ofNat 64 (rcb s tn p off 8)
def rcbSet (s : State) (tn : Nat) (p : W64) (off n v : Nat) : State := tWrite s tn (ptrAdd p off) (leBytes n v)

def rcbKind (s : State) (tn : Nat) (p : W64) : Nat := rcb s tn p 0 1
def rcbState (s : State) (tn : Nat) (p : W64) : Nat := rcb s tn p 4 1
def rcbOutst (s : State) (tn : Nat) (p : W64) : Nat := rcb s tn p 0x50 8

/-- A node and its ancestors, the root last (R12); a chain that comes back to a node of it ends there. -/
def pathUp (s : State) (tn : Nat) : Nat → List W64 → W64 → List W64
  | 0, _, _ => []
  | k + 1, seen, p =>
    if p = 0#64 || seen.contains p then [] else p :: (if rcbKind s tn p = 1 then [] else pathUp s tn k (p :: seen) (rcbPtr s tn p 8))

/-- The path of a node: longer than any chain of 256-byte nodes in 2^56 bytes can be. -/
def pathOf (s : State) (tn : Nat) (p : W64) : List W64 := pathUp s tn (2 ^ 48) [] p

/-- The effective value of an inheritable field (R14): path from the node to the root. -/
def effVal (s : State) (tn : Nat) (bit : Nat) (rd : W64 → Nat) : List W64 → Nat
  | [] => 0
  | [p] => rd p
  | p :: ps => if bitOf (rcb s tn p 2 2) bit then rd p else effVal s tn bit rd ps

/-- The effective value of a budget, clamped to the parent's (R14). -/
def effMin (s : State) (tn : Nat) (bit : Nat) (rd : W64 → Nat) : List W64 → Nat
  | [] => 0
  | [p] => rd p
  | p :: ps => let up := effMin s tn bit rd ps; if bitOf (rcb s tn p 2 2) bit then min (rd p) up else up

def effMaxcl (s : State) (tn : Nat) (path : List W64) : Nat := effMin s tn 0 (fun p => rcb s tn p 0x20 2) path
def effVault (s : State) (tn : Nat) (path : List W64) : Nat := effMin s tn 1 (fun p => rcb s tn p 0x24 4) path
def effQslots (s : State) (tn : Nat) (path : List W64) : Nat := effMin s tn 2 (fun p => rcb s tn p 0x28 4) path
def effWeight (s : State) (tn : Nat) (path : List W64) : Nat := effVal s tn 5 (fun p => rcb s tn p 7 1) path
def effPrio (s : State) (tn : Nat) (path : List W64) : Nat := effVal s tn 4 (fun p => rcb s tn p 6 1 % 8) path

/-- Every node of a path is ACTIVE and of non-zero effective weight (R21). -/
def pathLive (s : State) (tn : Nat) : List W64 → Bool
  | [] => true
  | p :: ps => rcbState s tn p = 0 && effWeight s tn (p :: ps) ≠ 0 && pathLive s tn ps

/-! Interrupts (R339, R340). -/

/-- Sets a cause of VF.ERR; its vector is sent when the cause passes from clear to set. -/
def vfErr (s : State) (tn bit : Nat) : State :=
  let t := s.tenant tn
  if bitOf t.err bit then s
  else (s.setTenant tn { t with err := t.err + 2 ^ bit }).emit (.msix tn (if bit = 3 then 1 else 0))

/-- What the dispatcher leaves behind when it takes bytes of a record, an image or an object: a request for each line of a peer's memory
takes a port (R344), a lost one sets UNDELIV (R343), and an error is counted (R347). -/
def tTouch (s : State) (tn : Nat) (p : W64) (n : Nat) : State :=
  match keysOf (tPlace s tn false) p n with
  | none => s
  | some ks =>
    if ks.any fun k => isPeer k && smGet 0 s.pf.route (k / 2 ^ 48 - 2) = 0 then s
    else
      let t := (peerLines ks).foldl drawbar s
      let t := if ks.any fun k => peerSays s k = 2 then vfErr t tn 4 else t
      if ks.any s.ecc.contains then countUnc t else t

/-- An IVEC condition of a queue or ring (R263, R271, R340), by its number. -/
def vfIvec (s : State) (tn src vec : Nat) : State :=
  let t := s.tenant tn
  if smGet false t.ivec src then s else (s.setTenant tn { t with ivec := smSet t.ivec src true }).emit (.msix tn vec)

/-- A node is set to ERROR, with the tenant's error interrupt (R12). -/
def rcbError (s : State) (tn : Nat) (p : W64) : State := vfErr (rcbSet s tn p 4 1 3) tn 0

/-! Counts (R22). -/

/-- Adds to OUTST along a path; a TENANT or JOB that reaches zero has its completion word written. -/
def addOutst (s : State) (tn : Nat) (d : Int) : List W64 → State
  | [] => s
  | p :: ps =>
    let v := ((rcbOutst s tn p : Int) + d).toNat
    let s := rcbSet s tn p 0x50 8 v
    let dn := rcbPtr s tn p 0x38
    let s := if v = 0 && d < 0 && rcbKind s tn p ≠ 3 && dn ≠ 0#64 then tWrite s tn dn (leBytes 8 (rcb s tn p 0x60 8)) else s
    addOutst s tn d ps

/-- Adds to a counter field along a path. -/
def addField (s : State) (tn off n : Nat) (d : Int) : List W64 → State
  | [] => s
  | p :: ps => addField (rcbSet s tn p off n (((rcb s tn p off n : Nat) : Int) + d).toNat) tn off n d ps

/-- The RCB of a task's launch and its path. -/
def taskPath (s : State) (t : Nat) : List W64 := let k := s.task t; pathOf s k.tenant (s.launch k.launch).node

/-! Leaving a cluster. -/

/-- Another resident context of the cluster waits on a barrier object. -/
def barWaited (s : State) (cid k : Nat) : Bool :=
  s.ctxs.any fun e => e.1 ≠ cid && e.2.st.resident && e.2.cl = (s.ctx cid).cl && (match e.2.watch with | some (.bar q _) => q = k | _ => false)

/-- The WAITCL bit of a cluster is clear once no context of it waits (R172). -/
def clearWaitcl (s : State) (cid : Nat) : State :=
  match (s.ctx cid).watch with
  | some (.bar k _) =>
    if barWaited s cid k then s
    else
      let t := mergeNote (settle s (k + 0x10) 24) cid true (rangeFrom (k + 0x10) 24)
      { homePut t (k + 0x10) (leBytes 24 (clrBit (memNat t.mem (k + 0x10) 24) (s.ctx cid).cl)) with ecc := s.ecc }
  | _ => s

def notCid (cid : Nat) (ws : List (Nat × Nat × GReg)) : List (Nat × Nat × GReg) := ws.filter fun w => w.1 ≠ cid

/-- A context leaves every queue of waiters. -/
def unwait (s : State) (cid : Nat) : State :=
  let s := clearWaitcl s cid
  { s with sems := s.sems.map fun e => (e.1, { e.2 with ws := notCid cid e.2.ws }),
           semAway := s.semAway.map fun e => (e.1, notCid cid e.2),
           queues := s.queues.map fun e => (e.1, { e.2 with ws := e.2.ws.filter fun w => w.1 ≠ cid }) }

/-! Steal requests (R269). -/

def holdOf (c : Ctx) : Nat := (c.hold.getD 0 0).toNat
/-- Indices left in a held range. -/
def holdLeft (c : Ctx) : Nat := (c.hold.getD 2 0 - c.hold.getD 1 0).toNat
def holds (c : Ctx) : Bool := bitOf (holdOf c) 63
def setSteal (c : Ctx) (b : Bool) : Ctx :=
  { c with hold := c.hold.set 0 (BitVec.ofNat 64 (bitsOf (holdOf c) 61 0 + (if b then 2 ^ 62 else 0) + (if holds c then 2 ^ 63 else 0))) }

/-- Holders that may be asked for a part of a range of queue q. -/
def stealable (s : State) (q : Nat) (not : List Nat) : List (Nat × Ctx) :=
  s.ctxs.filter fun e => e.2.st.resident && holds e.2 && holdOf e.2 % 4096 = q && !bitOf (holdOf e.2) 62 && 2 ≤ holdLeft e.2 && !not.contains e.1

/-- The better of two holders: the larger remainder, then the lower cluster, then the lower context. -/
def stealBetter (a b : Nat × Ctx) : Nat × Ctx :=
  if holdLeft b.2 < holdLeft a.2 then a
  else if holdLeft a.2 < holdLeft b.2 then b
  else if 16 * b.2.cl + b.2.slot < 16 * a.2.cl + a.2.slot then b else a

/-- Posts a request for a requester to the best holder, but for those in a list; without one nothing is posted. -/
def postSteal (s : State) (q req : Nat) (not : List Nat) : State :=
  match stealable s q not with
  | [] => s
  | x :: xs =>
    let h := xs.foldl stealBetter x
    (s.setCtx h.1 (setSteal h.2 true)).setQueue q { s.queue q with steals := (s.queue q).steals ++ [(h.1, req)] }

/-- The request that a holder carries goes back: to the next eligible holder, while a context waits on the queue. -/
def returnSteal (s : State) (cid : Nat) : State :=
  let c := s.ctx cid
  if !bitOf (holdOf c) 62 then s
  else
    let q := holdOf c % 4096
    let qq := s.queue q
    let s := (s.setCtx cid (setSteal c false)).setQueue q { qq with steals := qq.steals.filter fun p => p.1 ≠ cid }
    match qq.steals.find? (fun p => p.1 = cid), qq.ws with
    | some p, _ :: _ => postSteal s q p.2 [cid]
    | _, _ => s

/-- The engine becomes free when no context of its task is resident there (R180). -/
def freeEng (s : State) (task cl : Nat) : State :=
  if (s.eng cl).owner = some task && !s.ctxs.any (fun e => e.2.task = task && e.2.cl = cl && e.2.st.resident) then
    { s with cls := smSet s.cls cl { s.cl cl with eng := Eng.reset, epi := Epi.idle } }
  else s

/-- Range-lock entries of a task are released when it is killed (R179). -/
def dropLocks (s : State) (task : Nat) : State :=
  { s with cls := s.cls.map fun e => (e.1, { e.2 with locks := e.2.locks.filter fun l => l.task ≠ task }) }

/-- Copies, subscriptions and engine operations of a killed task are cancelled (R179, R180). -/
def cancelOps (s : State) (task : Nat) : State :=
  { s with
    chans := s.chans.map fun e =>
      (e.1, { e.2 with q := e.2.q.filter fun c => c.task ≠ task,
                       fault := if (e.2.q.head?.map (·.task)) = some task then none else e.2.fault }),
    subs := s.subs.filter fun e => e.2.task ≠ task,
    ringObjs := s.ringObjs.filter fun e => e.2.task ≠ task }

/-! Cluster-time (R329, R331). -/

/-- The number of a node, and of the package above the tenants. -/
def nodeId (tn : Nat) (p : W64) : Nat := tn * 2 ^ 64 + p.toNat
def pkgNode : Nat := 2 ^ 80

/-- Cluster-time of one context by parent and priority level, up its path. -/
def turnEntries (s : State) (tn e : Nat) : List W64 → List (Nat × Nat × Nat × Nat)
  | [] => []
  | p :: ps => (s.us, (match ps with | q :: _ => nodeId tn q | [] => pkgNode), effPrio s tn (p :: ps), e) :: turnEntries s tn e ps

/-- Counts a context's cluster-time since it was last counted: an eighth of a cluster-µs each µs, for a context that is RUNNING, WAITING or
halted. The log keeps 10 ms. -/
def accrue (s : State) (cid : Nat) : State :=
  let c := s.ctx cid
  let e := c.owed + (if c.charged then s.us - c.runUs else 0)
  if !c.st.resident || e = 0 then s
  else
    let k := s.task c.task
    let l := s.launch k.launch
    let path := taskPath s c.task
    let s := addField s k.tenant 0x58 8 ((l.rem + e) / 8) path
    let s := s.setLaunch k.launch { l with rem := (l.rem + e) % 8 }
    let s : State := { s with turnLog := (s.turnLog.filter fun x => s.us ≤ x.1 + 10000) ++ turnEntries s k.tenant e path }
    s.modCtx cid fun c => { c with runUs := s.us, owed := 0 }

/-- A context retires: its slot and rows are free, its hold is discarded (R28, R269). Counts it has taken at a peer stay (R337). -/
def retireCtx (s : State) (cid : Nat) : State :=
  let s := returnSteal (accrue s cid) cid
  let c := s.ctx cid
  freeEng ((unwait s cid).setCtx cid { c with st := .retired, hold := [0, 0, 0, 0, 0], strm := Strm.none, fills := [], remote := none, watch := none }) c.task c.cl

/-- Kills a task (R23, R255): no edge-out, no completion bit. -/
def killTask (s : State) (t : Nat) : State :=
  let k := s.task t
  if k.st = .retired || k.st = .killed then s else
    let s := (s.ctxsOf t).foldl (fun s e => retireCtx s e.1) s
    let s := cancelOps (dropLocks s t) t
    (k.cls.foldl (fun s c => freeEng s t c) s).setTask t { k with st := .killed, vbase := [] }

/-- Tasks of a launch (R17). -/
def launchSize (s : State) (tn : Nat) (p : W64) : Nat := rcb s tn p 0x40 4 * rcb s tn p 0x44 4 * rcb s tn p 0x48 4

/-- Kills every task of a launch that is submitted and not yet retired (R23). -/
def killLaunch (s : State) (key : Nat) : State :=
  let l := s.launch key
  if !l.submitted then s else
    let n := launchSize s l.tenant l.node
    let s := (s.tasks.filter fun e => e.2.launch = key).foldl (fun s e => killTask s e.1) s
    let left := n - l.gone.length
    let s := s.setLaunch key { l with gone := List.range n, submitted := false }
    addOutst s l.tenant (-(left : Int)) (pathOf s l.tenant l.node)

/-- KILL-SUBTREE at a node (R23). -/
def killSubtree (s : State) (tn : Nat) (root : W64) : State :=
  let ls := s.launches.filter fun e => e.2.tenant = tn && (pathOf s tn e.2.node).contains root
  let s := ls.foldl (fun s e => killLaunch s e.1) s
  rcbSet s tn root 4 1 2

/-! Fault domains (R23). -/

/-- The root of the fault domain on a path: the nearest node whose policy is overridden, else the tenant's root. -/
def domainRoot (s : State) (tn : Nat) : List W64 → W64
  | [] => 0
  | [p] => p
  | p :: ps => if bitOf (rcb s tn p 2 2) 6 then p else domainRoot s tn ps

/-- Writes FAULTREC of a domain root when it is empty, and raises the fault interrupt. -/
def recordFault (s : State) (tn : Nat) (root : W64) (code cl cx lin : Nat) (addr : W64) : State :=
  let s := if rcb s tn root 0x68 1 = 0 then
      tWrite s tn (ptrAdd root 0x68) (leBytes 1 code ++ leBytes 1 cl ++ leBytes 1 cx ++ [0] ++ leBytes 4 lin ++ leBytes 8 addr.toNat)
    else s
  vfErr s tn 3

/-- The policy of a domain root: 0 kill, 1 pause, 2 report (3 reads as 2). -/
def policyOf (s : State) (tn : Nat) (root : W64) : Nat := min 2 (bitsOf (rcb s tn root 6 1) 5 4)

/-- Contexts of the subtree of a node. -/
def domainCtxs (s : State) (tn : Nat) (root : W64) : List Nat :=
  (s.ctxs.filter fun e => e.2.st.resident && s.tenOf e.2 = tn && (taskPath s e.2.task).contains root).map (·.1)

/-- Posts PREEMPT of a kind to a context; one posted earlier stays. -/
def postPreempt (s : State) (kind cid : Nat) : State :=
  s.modCtx cid fun c => { c with trap := { c.trap with preempt := some (c.trap.preempt.getD kind) } }

/-- PAUSE-SUBTREE: every context of the domain is to be saved, the root is PAUSED. -/
def pauseSubtree (s : State) (tn : Nat) (root : W64) : State :=
  rcbSet ((domainCtxs s tn root).foldl (postPreempt · 3 ·) s) tn root 4 1 1

/-- A fault of a task that has no placement: a bad record or waybill (R18, R247). -/
def recordTaskFault (s : State) (tn : Nat) (node : W64) (code lin : Nat) : State :=
  let root := domainRoot s tn (pathOf s tn node)
  let s := recordFault s tn root code 0xFF 0xFF lin 0
  match policyOf s tn root with
  | 0 => killSubtree s tn root
  | 1 => pauseSubtree s tn root
  | _ => s

end Sys2Proof.Machine
end

