-- ==== Sys2Proof/Machine/Ops.lean ====
section
/-! DEFINITION. Taking a trap, entering the save routine, unhandled faults, and the return from a trap (R23, R276 to R284). -/

namespace Sys2Proof.Machine

abbrev R := Host.Outcome State Fault Refusal

/-- CTX.TRAPREASON (R277). -/
def reasonWord (orig : Nat) (imp : Bool) (acc lane code : Nat) : W64 :=
  fields [(code, 0), (lane, 16), (acc, 26), (b2n imp, 28), (orig, 30)]

/-- What a trap records: code, origin, imprecise, access, lane, information, stream tag of a lane fault, CTX.EPC. -/
structure TrapRec where
  code : Nat
  orig : Nat
  imp : Bool
  acc : Nat
  lane : Nat
  info : W64
  tag : Option W64
  epc : W64
  deriving DecidableEq, Repr

/-- A stream entry that an interrupted QSET left behind: the QSET runs again from its start (R28, R104). -/
def isQset : SEnt → Bool
  | .ctrl (.qset _ _) => true
  | _ => false

/-- The saved registers of trap entry (R276). A wait, a TRYW, a bounded wait, a QSET that waits and a reception are over. -/
def trapRegs (s : State) (cid : Nat) (r : TrapRec) : State :=
  (unwait s cid).modCtx cid fun c =>
    let c := c.counted s.us
    { c with st := c.st.awake, tryw := none, watch := none, waitAt := none, ticket := none, spErr := none, spx := none, sysWait := none,
             strm := { c.strm with mcRecv := false, ents := c.strm.ents.filter (fun e => !isQset e), own := 0,
                                   born := if c.strm.ents.any isQset then c.strm.born.dropLast else c.strm.born },
             trap := { c.trap with epc := r.epc, reason := reasonWord r.orig r.imp r.acc r.lane r.code, info := r.info,
                                   stag := r.tag.getD c.trap.stag } }

/-- Holes that are pending when a trap is taken at their unit are put by, for the handler's words are not between them and it; they are
pending again at its ERET (R108, R287; log 136, DEDUCED). -/
def Cap.putBy (c : Cap) : Cap := { c with holes := [], kept := c.kept ++ c.holes }
def Cap.again (c : Cap) : Cap := { c with holes := c.kept, kept := [] }

/-- Level 1, INTRAP, and the PC at an entry point. -/
def trapGo (s : State) (cid : Nat) (pc : W64) : State :=
  s.modCtx cid fun c => { c with pc := pc, cap := c.cap.putBy, trap := { c.trap with pl := true, intrap := true, since := s.mc } }

/-- Entry to the save routine (R284): as trap entry, at TR.SAVEVEC. -/
def saveEntry (s : State) (cid : Nat) (r : TrapRec) : State :=
  let s := trapGo (trapRegs s cid r) cid (s.ctx cid).trap.savevec
  s.modCtx cid fun c => { c with trap := { c.trap with inSave := true, svDone := false, preempt := none } }

/-- A GANG task, or a multicast group, is saved on all its contexts together (R25). -/
def gangPost (s : State) (cid kind : Nat) : State :=
  let t := s.task (s.ctx cid).task
  if bitOf t.r.flags 0 || 1 < t.r.mcg then
    ((s.residentOf (s.ctx cid).task).filter fun e => e.1 ≠ cid && !e.2.trap.inSave).foldl (fun s e => postPreempt s kind e.1) s
  else s

/-- An unhandled fault of a context (R23): FAULTREC, the interrupt, the policy of the fault domain. A fault that strikes with INTRAP
set and kind WATCHDOG kills its context whatever the policy (R280). -/
def unhandled (s : State) (cid : Nat) (r : TrapRec) : State :=
  let c := s.ctx cid
  let tn := s.tenOf c
  let root := domainRoot s tn (taskPath s c.task)
  let s := recordFault s tn root r.code c.cl c.slot (s.task c.task).lin r.epc
  let s := if r.code = fWATCHDOG then retireCtx s cid else s
  match policyOf s tn root with
  | 0 => killSubtree s tn root
  | 1 => let s := pauseSubtree s tn root; if r.code = fWATCHDOG then s else saveEntry s cid r
  | _ => if r.code = fWATCHDOG then s else gangPost ((saveEntry s cid r).modCtx cid fun c => { c with report := true }) cid 3

/-- Takes a trap in a context (R276): to its handler, or unhandled when CTX.TRAPVEC is 0 or INTRAP is set. NOTPRESENT goes to the save
routine instead (R284), and is unhandled while INTRAP is set (R280). A context that enters its handler is past its restore. -/
def takeTrap (s : State) (cid : Nat) (r : TrapRec) : State :=
  let c := s.ctx cid
  if r.code = fNOTPRESENT then
    (if c.trap.intrap then unhandled (trapRegs s cid r) cid r else gangPost (saveEntry (dropGone s c.cl c.task false) cid r) cid 0)
  else if c.trap.vec = 0 ∨ c.trap.intrap then unhandled (trapRegs s cid r) cid r
  else trapGo ((trapRegs s cid r).modCtx cid fun c => { c with trap := { c.trap with restoring := false } }) cid c.trap.vec

/-- Where a context resumes when it is saved: a TRYW and its waiting word form one step (R177). -/
def Ctx.resumePc (c : Ctx) : W64 :=
  match c.tryw with
  | some t => t.at_
  | _ => c.pc

/-- What is noted when a fault is raised: a lost packet sets UNDELIV (R343), and an uncorrectable error counts (R347). -/
def noteFault (s : State) (c : Ctx) (code : Nat) : State :=
  if code = fLOST then vfErr s (s.tenOf c) 4 else if code = fECC then countUnc (dropGone s c.cl c.task true) else s

/-- A precise trap of the executing context at its own word (R278). -/
def trap (s : State) (code : Nat) (info : W64) : State :=
  let pc := if code = fNOTPRESENT then s.me.resumePc else s.me.pc
  takeTrap ((noteFault s s.me code).modMe fun c => { c with dbg := { c.dbg with skip1 := false } }) s.cur
    { code := plainCode code, orig := 0, imp := false, acc := 0, lane := 0, info := info, tag := none, epc := pc }

/-- A precise trap with a subcode in CTX.TRAPINFO. -/
def trapSub (s : State) (code sub : Nat) : State := trap s code (BitVec.ofNat 64 sub)

/-- Does f on the keys of a checked access, takes the trap, or waits for the walk. -/
def ARes.run (r : ARes) (s : State) (f : List Nat → State) : State :=
  match r with
  | .ok ks => f ks
  | .fault code info => trap s code info
  | .wait s' => s'

/-- An access of the executing context's generator (R94): its checks, then f on the keys. -/
def genDo (s : State) (k : AKind) (pol : Pol) (p : W64) (n : Nat) (f : State → List Nat → State) : State :=
  (genAccess s k pol p n).run s (f (used s s.me k p n))

/-- The return from a trap (R283), after the form's own action: the gate opens, level 0, INTRAP clear, PC at CTX.EPC. -/
def trapReturn (s : State) : State :=
  s.modMe fun c =>
    { c with pc := c.trap.epc, strm := { c.strm with stopped := false, gate := false, own := 0 }, cap := c.cap.again,
             dbg := { c.dbg with skip1 := false }, trap := { c.trap with pl := false, intrap := false, inSave := false, restoring := false } }

/-- Privileged words (R84): PRIV at level 0, else f. -/
def privileged (s : State) (f : State → State) : State := if s.me.trap.pl then f s else trap s fPRIV 0

/-- The entry at the head of the stream comes from the handler that runs. -/
def Ctx.ownHead (c : Ctx) : Bool := c.trap.intrap && decide (c.strm.ents.length ≤ c.strm.own)

/-- The trap record of a lane fault (R278). -/
def laneRec (c : Ctx) (f : LaneF) : TrapRec :=
  { code := f.code, orig := 1, imp := true, acc := f.acc, lane := f.lane, info := f.info, tag := some f.tag, epc := c.resumePc }

/-- Raises a lane fault (R100, R150): the stream stops at its word, and the fault waits for the generator's boundary. One of a word that
the running handler emitted is unhandled (R280). -/
def raiseLane (s : State) (f : LaneF) : State :=
  let s := (noteFault s s.me f.code).modMe fun c => { c with strm := { c.strm with stopped := true } }
  let f := { f with code := plainCode f.code }
  if f.own && s.me.trap.intrap then takeTrap s s.cur (laneRec s.me f)
  else s.modMe fun c => { c with trap := { c.trap with laneF := some f } }

/-- Raises a lane fault of the word at the head. -/
def laneFault (s : State) (f : LaneF) : State := raiseLane s { f with own := s.me.ownHead }

/-- An operation that stands still: it starts again, with a new copy of what it had copied. -/
def EOp.stop (o : EOp) : EOp := { o with running := false, begun := false, blk := none }

/-- Raises an engine fault (R193): the operation stops, and the context that issued it takes the trap at its next boundary. An operation of
the other pipe that meets a fault while FAULTED is set stops, and meets it again when it starts again. -/
def engFault (s : State) (cl : Nat) (o : EOp) (code row : Nat) (info : W64) : State :=
  let stop (x : EOp) : EOp := if x.id = o.id then x.stop else x
  if (s.eng cl).faulted && !o.ovr then s.modEng cl fun e => { e with q := e.q.map stop }
  else
  ((noteFault s (s.ctx o.cid) code).modEng cl fun e =>
      { e with faulted := true, fop := some o.id, framed := false, fcode := plainCode code, faddr := info, frow := row, q := e.q.map stop }).modCtx o.cid
    fun c => { c with trap := { c.trap with engF := true } }

/-- Raises a copy or subscription fault of a context (R236), for the cause of an access. -/
def copyFault (s : State) (cid code : Nat) (info : W64) (cause : Nat) : State :=
  (noteFault s (s.ctx cid) cause).modCtx cid fun c => { c with trap := { c.trap with copyF := c.trap.copyF ++ [⟨code, info⟩] } }

/-! Stream (R98 to R100). -/

/-- Entries a stream holds, counted in words (R98). -/
def entWords : List SEnt → Nat
  | [] => 0
  | .lane _ ws :: r => ws.length + entWords r
  | _ :: r => 1 + entWords r

def Strm.free (t : Strm) : Nat := 128 - entWords t.ents

/-- A context whose stream has taken an entry at its tail, in cycle mc (R98): it counts for a handler that runs, and its age is kept. -/
def Ctx.queues (c : Ctx) (mc : Nat) (e : SEnt) : Ctx :=
  let t := c.strm
  { c with strm := { t with ents := t.ents ++ [e], own := if c.trap.intrap then t.own + 1 else t.own,
                            born := t.born.drop (t.born.length - t.ents.length) ++ [mc] } }

/-- Appends an entry to a context's stream. -/
def pushEnt (s : State) (cid : Nat) (e : SEnt) : State := s.modCtx cid fun c => c.queues s.mc e

/-- The age of the word at the head: when its entry entered (R336). -/
def Strm.headBorn (t : Strm) : Nat := t.born.getD (t.born.length - t.ents.length) 0

/-- The same-numbered contexts at the other positions of a multicast group (R112). -/
def followers (s : State) (c : Ctx) : List Nat :=
  ((List.range c.gsize).filter (· ≠ c.gpos)).map fun g => cidOf c.task g c.idx

/-- Contexts whose streams receive what the executing context emits (R112). -/
def receivers (s : State) : List Nat := if s.me.strm.mcOn then s.cur :: followers s s.me else [s.cur]

/-- Room for n words in every receiving stream, and every follower in RECV (R99, R112). -/
def roomFor (s : State) (n : Nat) : Bool :=
  (receivers s).all fun cid => n ≤ (s.ctx cid).strm.free && (cid = s.cur || (s.ctx cid).strm.mcRecv)

/-- Appends an entry to every receiving stream. -/
def emitEnt (s : State) (e : SEnt) : State := (receivers s).foldl (fun s cid => pushEnt s cid e) s

/-- Every lane word emitted before has issued: the stream holds nothing and nothing is presented. -/
def Strm.idle (t : Strm) : Bool := t.ents.isEmpty && t.pres.isNone

/-- No control entry of a kind stands in the stream. -/
def Strm.hasInst (t : Strm) (lead rake : Nat) : Bool :=
  t.ents.any fun e => match e with | .inst l r .. => l = lead && r = rake | _ => false

/-- The conditions of DRAIN (R114). -/
def drained (c : Ctx) : Bool := c.strm.idle && c.fills.isEmpty

/-- The open capture is given up (R107), with the holes that are pending for it. -/
def abandonCapture (s : State) : State :=
  s.modMe fun c =>
    match c.cap.openR with
    | none => c
    | some r =>
      let k := smGet Rake.zero c.cap.rakes r
      { c with cap := { c.cap with openR := none, holes := [], kept := [], want := 0, rakes := smSet c.cap.rakes r { k with flags := 0 } } }

/-- A STRETCH fault (R115); R107 names those that abandon an open capture. -/
def stretch (s : State) (sub : Nat) (abandon : Bool) : State :=
  trapSub (if abandon then abandonCapture s else s) fSTRETCH sub

/-! Semaphores (R169 to R171). -/

/-- The semaphore, by its number in the package, of task-relative index i; its owner must be resident, and back from its restore unless it
is the issuer. -/
def semKey (s : State) (c : Ctx) (i : Nat) : Option Nat :=
  let o := s.ctx (s.sibling c (i / 8))
  if o.st.resident && (!o.trap.restoring || s.sibling c (i / 8) = s.cur) then some (64 * o.cl + 8 * o.slot + i % 8) else none

/-- Adds n as SEMREL does, saturating with E (R170). -/
def Sem.add (m : Sem) (n : Nat) : Sem := if 2 ^ 32 - 1 < m.v + n then { m with v := 2 ^ 32 - 1, e := true } else { m with v := m.v + n }

/-- The result word (R170). -/
def semWord (m : Sem) (f : Bool) : W64 := fields [(m.v, 0), (b2n m.e, 32), (b2n f, 33)]

/-- The context of a handle is saved, or has not returned from its restore. -/
def ringHeld (s : State) (k : Nat) : Bool := let c := s.ctx (k / 16); c.st = .saved || (c.st.resident && c.trap.restoring)

/-- An engine operation that names a handle, given with those it is an alias of, is held while the context of one of these is away (R369). -/
def viaHeld (s : State) (via : List Nat) : Bool := via.tail.any (ringHeld s)

/-- The executing context names a ring through an alias whose owner is away (R369). -/
def aliasAway (s : State) (h : Nat) : Bool := viaHeld s (ringChain s chainFuel (ringKey s.cur h))

/-- Ring handles that an instruction names. -/
def handlesOf : Instr → List Nat
  | .mloopr ra rb _ _ ha hb _ => (if ra then [ha.toNat] else []) ++ (if rb then [hb.toNat] else [])
  | .mdrain _ _ _ _ (some h) => [h.toNat]
  | .ringdef h _ | .ringdefShare h _ _ => [h.toNat]
  | .csrr _ n => if 0x310 ≤ n.toNat ∧ n.toNat < 0x320 then [n.toNat - 0x310] else []
  | .ringdefOff h | .rtag _ h _ | .rtagCas _ h _ _ | .rwait _ h _ _ | .subsFill _ h _ | .subsStore _ h _ | .subk _ h _ => [h.toNat]
  | _ => []

/-! TRYW (R177). -/

/-- Words that TRYW may bound. -/
def boundable : Instr → Bool
  | .semacq .. | .barwait .. | .waitc .. | .rwait .. | .vqpop .. | .twaitp .. | .twaitpAll | .qpopb .. | .msgpop .. | .msgpeek .. => true
  | _ => false

/-- A TRYW whose time is over: its waiting word ends with no effect, and its register gets 1. -/
def trywOver (s : State) (t : Tryw) : State := (((unwait s s.cur).modMe fun c => { c with tryw := none }).setReg t.d 1).adv

/-- A TRYW with a limit of 0 tests its condition once. -/
def testsOnce (s : State) : Bool := s.me.tryw.any fun t => t.t = 0

/-- A TRYW's time ran out before the condition of its waiting word was met. -/
def Ctx.expired (c : Ctx) (mc : Nat) : Bool :=
  match c.tryw, c.st with
  | some t, .waiting _ => decide (t.start + t.t < mc) && !t.met
  | _, _ => false

/-- A waiting word whose condition does not hold: the context waits for what w says, with TRYW for t mc from its issue. -/
def waitOn (s : State) (w : Watch) : State :=
  let s' := s.modMe fun c => { c with watch := some w }
  match s.me.tryw with
  | none => s'.toWait
  | some t =>
    if t.t = 0 then trywOver s t
    else (match s.me.st with
      | .waiting _ => s'.modMe fun c => { c with tryw := some { t with met := false } }
      | _ => (s'.modMe fun c => { c with tryw := some { t with start := s.mc } }).toWait)

/-- A waiting word completes: TRYW's register gets 0 (R177). -/
def waitDone (s : State) : State :=
  match s.me.tryw with
  | none => s.adv
  | some t => ((s.modMe fun c => { c with tryw := none }).setReg t.d 0).adv

/-- A waiting word of a context completes with a value in its register: it wakes past the word, and a TRYW's register gets 0. -/
def wakeWith (s : State) (cid : Nat) (d : GReg) (v : W64) : State :=
  s.modCtx cid fun c =>
    let c := match c.tryw with
      | some t => { c with tryw := none }.setReg t.d 0
      | _ => c
    { (c.setReg d v).counted s.us with pc := c.pc + 8, st := c.st.awake, watch := none }

/-- Serves the waiters of a semaphore, oldest first; one that does not fit holds nobody back, and E serves everyone (R170). A waiter that
subtracts takes the acquire action at TASK scope (R171); one whose TRYW's time is over gets nothing. -/
def semServe (k : Nat) : List (Nat × Nat × GReg) → State → State
  | [], s => s
  | (cid, n, d) :: r, s =>
    let m := s.sem k
    if (s.ctx cid).expired s.mc then semServe k r s
    else if m.e || decide (n ≤ m.v) then
      let fits := decide (n ≤ m.v)
      let s := s.setSem k { m with v := if fits then m.v - n else m.v, ws := m.ws.filter fun w => w.1 ≠ cid }
      let s := if fits then acquire s (s.ctx cid).cl 3 else s
      semServe k r (wakeWith s cid d (semWord m (!fits)))
    else semServe k r s

/-- Adds to a semaphore and serves its waiters. -/
def semAdd (s : State) (k n : Nat) : State := semServe k (s.sem k).ws (s.setSem k ((s.sem k).add n))

end Sys2Proof.Machine
end

