-- ==== Sys2Proof/Machine/Fetch.lean ====
section
/-! DEFINITION. What a generator context or a team does next: traps that are due, code fetch, and the unit at the stream's head
(R81, R96, R99, R101, R111, R276, R278, R280, R300, R356). -/

namespace Sys2Proof.Machine

/-! Traps that are due at a boundary. -/

/-- No unit of the team is part way: what R111 waits for before a context leaves its program. -/
def quiet (c : Ctx) : Bool :=
  c.strm.stopped || (c.strm.pres.isNone && (match c.strm.ents with | .inst _ _ _ w _ :: _ => w = 0 | _ => true))

/-- Where a context may leave its program: its team is quiet, and it is not between a HOLE and its unit (R111, R276). -/
def atBoundary (c : Ctx) : Bool := quiet c && c.cap.holes.isEmpty

/-- Whether the team may begin an entry: not once PREEMPT is posted (R365), nor while a halt waits for it; but a unit whose HOLEs are
pending, and for which the stream has no room, must get it, or the PREEMPT would never land (log 124, DESIGN CHOICE). -/
def mayStart (c : Ctx) : Bool :=
  (c.trap.preempt.isNone && c.dbg.pend.isNone) || (!c.cap.holes.isEmpty && decide (c.strm.free < c.cap.want))

/-- The imprecise fault a context takes next, in the order lane, engine, copy (R278). -/
def pendingFault (s : State) (c : Ctx) : Option TrapRec :=
  match c.trap.laneF with
  | some f => some (laneRec c f)
  | none =>
    if c.trap.engF then
      (let e := s.eng c.cl
       some { code := e.fcode, orig := 2, imp := true, acc := 3, lane := e.frow, info := e.faddr, tag := none, epc := c.resumePc })
    else
      match c.trap.copyF with
      | f :: _ => some { code := f.code, orig := 3, imp := true, acc := 0, lane := 0, info := f.info, tag := none, epc := c.resumePc }
      | [] => none

/-- The fault of pendingFault is no longer pending. -/
def clearPending (t : Trap) : Trap :=
  if t.laneF.isSome then { t with laneF := none }
  else if t.engF then { t with engF := false }
  else { t with copyF := t.copyF.tail }

/-- What is due at a context's boundary. -/
inductive Due where
  /-- Nothing: the context issues its next word. -/
  | none
  /-- A PREEMPT or a halt waits for the team (R111). -/
  | hold
  | take (i : Instr)
  deriving DecidableEq, Repr

/-- R278, R280, R284: a PREEMPT first, then a halt, then the imprecise faults; none inside a handler or between a HOLE and its unit. -/
def dueAt (s : State) (c : Ctx) : Due :=
  if c.remote.isSome then .hold
  else if c.trap.intrap || !c.cap.holes.isEmpty then .none
  else
    match c.trap.preempt, c.dbg.pend with
    | some _, _ => if atBoundary c then .take .preempt else .hold
    | none, some _ => if atBoundary c then .take .trapEntry else .hold
    | none, none =>
      match pendingFault s c with
      | some r => .take (if r.code = fNOTPRESENT then .notpresentSave else .trapEntry)
      | none => .none

/-! Code (R96, R356). -/

inductive Fet where
  | word (s : State) (w : W64)
  | fault (code : Nat)
  | wait (s : State)
  deriving DecidableEq, Repr

/-- Eight bytes of code by physical key: a word the cluster holds for the tenant, or the home's. -/
def codeWord (s : State) (cl tenant k : Nat) : State × W64 :=
  match smFind (s.cl cl).icache k with
  | some (w, t) =>
    if t = tenant && Config.codeHeld s.ticks k then (s, w)
    else
      let (s, bs) := if isPeer k then loadKeys s cl polCl (rangeFrom k 8) else homeRead s k 8
      let w := BitVec.ofNat 64 (leNat bs)
      (s.modCl cl fun c => { c with icache := smSet c.icache k (w, tenant) }, w)
  | none =>
    let (s, bs) := if isPeer k then loadKeys s cl polCl (rangeFrom k 8) else homeRead s k 8
    let w := BitVec.ofNat 64 (leNat bs)
    (s.modCl cl fun c => { c with icache := smSet c.icache k (w, tenant) }, w)

/-- The address is one of reserved memory that the package has. -/
def reserved (s : State) (off : Nat) : Bool := decide (s.pf.rsvbase ≤ off) && decide (off + 8 ≤ deviceBytes)

/-- A context that runs a firmware routine, which a VF that names none of its own selects, fetches it in reserved memory (R302, R339;
log 19, DEDUCED). -/
def firmware (s : State) (c : Ctx) (off : Nat) : Bool :=
  reserved s off && c.trap.pl && ((c.trap.inSave && c.trap.savevec = Config.fwSaveVec) || (c.trap.restoring && c.trap.restvec = Config.fwRestVec))

/-- A context whose task runs a translation fetches that translation in reserved memory (R353). Any other fetch in RID 0 raises RIDBOUND
(R96). -/
def translated (s : State) (c : Ctx) (off : Nat) : Bool :=
  let entry := offOf (s.task c.task).r.entry
  reserved s off && (s.task c.task).xlat && s.transl.any fun t => t.addr.any fun a =>
    decide (a ≤ entry) && decide (entry < a + t.code.length) && decide (a ≤ off) && decide (off + 8 ≤ a + t.code.length)

/-- Fetches the word at an address. -/
def fetchAt (s : State) (c : Ctx) (a : W64) : Fet :=
  let rid := ridOf a
  if !aligned a 8 then .fault fALIGN
  else if rid = 0 && firmware s c (offOf a) then .word s (Config.fwWord (offOf a))
  else if rid = 0 && translated s c (offOf a) then
    (let (s, w) := codeWord s c.cl (s.tenOf c) (offOf a); .word s w)
  else if rid = 0 then .fault fRIDBOUND
  else if 0xFD ≤ rid then .fault fPERM
  else
    let b := bndOf c a
    if !b.ok s || b.limit * 4096 < offOf a + 8 then .fault fRIDBOUND
    else if !b.x then .fault fPERM
    else
      match tcLook s c.cl (s.tenOf c) c.task (b.va (offOf a)) with
      | .miss w => .wait (startWalk s c.cl (s.tenOf c) c.task w)
      | .gone => .fault fNOTPRESENT
      | .bad => .fault fECC
      | .key k =>
        if isDevice k && deviceBytes ≤ k then .wait { s with hole := some k }
        else if isPeer k && smGet 0 s.pf.route (k / 2 ^ 48 - 2) = 0 then .fault fRIDBOUND
        else if peerSays s k ≠ 0 then .fault (if peerSays s k = 2 then fLOST else fPERM)
        else if (rangeFrom k 8).any s.ecc.contains then .fault fECC
        else
          let (s, w) := codeWord (tcUse s c.cl (s.tenOf c) c.task [b.va (offOf a) / 2 ^ 21]) c.cl (s.tenOf c) k
          .word s w

/-- The words of a unit that starts with a lane word: its prefixes, its target and the target's second word. -/
inductive Gat where
  | unit (s : State) (ws : List W64)
  | fault (code : Nat) (a : W64)
  | wait (s : State)
  deriving DecidableEq, Repr

/-- Gathers on from word number n, whose value is w. -/
def gather (c : Ctx) : Nat → Nat → State → W64 → List W64 → Gat
  | 0, _, s, _, acc => .unit s acc
  | fuel + 1, n, s, w, acc =>
    let acc := acc ++ [w]
    let a := c.pc + BitVec.ofNat 64 (8 * (n + 1))
    if isPrefixWord w then
      (if 3 ≤ acc.length then .unit s acc else
        match fetchAt s c a with
        | .word s w' => gather c fuel (n + 1) s w' acc
        | .fault e => .fault e a
        | .wait s => .wait s)
    else if isLaneClass w && takesSecond w then
      match fetchAt s c a with
      | .word s w' => .unit s (acc ++ [w'])
      | .fault e => .fault e a
      | .wait s => .wait s
    else .unit s acc

/-! Breakpoints (R300). -/

/-- The comparator that matches: KIND 0 at an address, KIND 1 at a rake word. -/
def brkMatch (d : Dbg) (kind : Bool) (v : W64) : Option Nat :=
  if d.skip1 then none else
  (List.range 16).find? fun k =>
    let cc := smGet 0#64 d.bpc k
    let a := smGet 0#64 d.bpa k
    cc.getLsbD 0 && cc.getLsbD 1 = kind &&
      (if !kind then bpaAddr a = v
       else a.extractLsb' 0 18 = v.extractLsb' 0 18 && (!cc.getLsbD 2 || a.extractLsb' 18 30 = v.extractLsb' 18 30))

/-- A HARD halt stops the engine of the context's task at a row boundary, as MWAIT.STOP does (R198, R301). -/
def hardStop (s : State) (c : Ctx) : State :=
  s.modEng c.cl fun e =>
    if e.owner = some c.task && !e.q.isEmpty && !e.stopped && !e.faulted then { e with stopped := true, haltStop := true, framed := false, q := e.q.map EOp.stop } else e

/-- A halt in force (R300, R301). -/
def haltNow (s : State) (cid : Nat) (reason : Nat) (hard : Bool) : State :=
  (if hard then hardStop s (s.ctx cid) else s).modCtx cid fun c =>
    { c.counted s.us with dbg := { c.dbg with halted := true, hard := hard, pend := none, reason := BitVec.ofNat 64 reason } }

/-- A BRK of a context halts it, where DBG.CTL.BRKHALT is set in an attached context (R300). -/
def brkHalts (c : Ctx) : Bool := c.dbg.brkhalt && c.trap.dbgatt

/-- A halt that a BRK asks for inside a handler is held until its ERET, and the word goes on (R280; log 125, DESIGN CHOICE); one held
already stays. -/
def holdBrk (s : State) (k : Nat) : State :=
  s.modMe fun c => { c with dbg := { c.dbg with pend := some (c.dbg.pend.getD (false, fBRK + 256 * k)) } }

/-- A BRK of a context outside a handler, or of one that does not halt: a halt once the team is quiet, or a precise trap. -/
def brkRaise (s : State) (k : Nat) (info : W64) : State :=
  if brkHalts s.me then (if quiet s.me then haltNow s s.cur (fBRK + 256 * k) false else s) else trap s fBRK info

/-! The generator's next word. -/

/-- Forms of MIGOP and DBGOP that a register selects (R297, R301); a code with no form is illegal. -/
def resolveForm (s : State) : Instr → Option Instr
  | .migopClaim d a b => (match (s.reg b).extractLsb' 0 2 with | 0#2 => some (.migopClaim d a b) | 1#2 => some (.migopComplete d a b) | _ => none)
  | .haltSoft d a b =>
    (match (s.reg b).toNat % 16 with
     | 0 => some (.haltSoft d a b) | 1 => some (.haltHard d a b) | 2 => some (.resume d a b) | 3 => some (.dbgopStatus d a b) | _ => none)
  | i => some i

/-- Privileged instructions (R281). -/
def isPriv : Instr → Bool
  | .eret | .eretSkip | .eretFlush | .yield | .svstrm .. | .rsstrm _ | .barfl | .sysopHalt | .sysopIcsync | .sysopXtinv .. | .sysopTcinv ..
  | .migopClaim .. | .migopComplete .. | .haltSoft .. | .haltHard .. | .resume .. | .dbgopStatus .. => true
  | _ => false

/-- A CSR access that is ILLEGAL or PRIV whatever else holds (R48, R84, R85). -/
def csrRefused (s : State) : Instr → Bool
  | .csrr _ n => (csrRead s s.me n.toNat).isNone
  | .csrw n _ | .csrwSet _ n _ | .csrwClr _ n _ =>
    (csrRead s s.me n.toNat).isNone || csrAcc n.toNat = .ro || (csrAcc n.toNat = .priv && !s.me.trap.pl)
  | _ => false

/-- A decoded word before its meaning: ILLEGAL and PRIV stand before the other checks (R48); a TRYW bounds only a waiting word (R177), and
only a HOLE may stand while holes are pending (R108). -/
def admit1 (s : State) (i : Instr) : State × Option Instr :=
  if s.me.tryw.isSome && !boundable i then (trap s fILLEGAL 0, none)
  else if (isPriv i && !s.me.trap.pl) || csrRefused s i then (s, some i)
  else if !s.me.cap.holes.isEmpty && (match i with | .hole .. => false | _ => true) then (stretch s 3 false, none)
  else
    match resolveForm s i with
    | some i => (s, if (handlesOf i).any (aliasAway s) then none else some i)
    | none => (trap s fILLEGAL 0, none)

/-- Fetches, checks and decodes the word at the program counter. A fetch fault of a later word of a unit comes before what its earlier
words would raise, but for LI, whose own word is judged first (log 126, DESIGN CHOICE). -/
def issueNext (s : State) : State × Option Instr :=
  let c := s.me
  match fetchAt s c c.pc with
  | .fault e => (trap s e c.pc, none)
  | .wait s => (s, none)
  | .word s w =>
    if isLaneClass w then
      (if c.tryw.isSome then (trap s fILLEGAL 0, none) else
        match gather c 4 0 s w [] with
        | .fault e a => (trap s e a, none)
        | .wait s => (s, none)
        | .unit s ws => (s, some (.laneUnitEmission ws)))
    else
      let g := GWord.ofWord w
      if g.maj = 0x1A#7 then
        (match fetchAt s c (c.pc + 8) with
         | .fault e => if (decodeG g 0).isNone then (trap s fILLEGAL 0, none) else (trap s e (c.pc + 8), none)
         | .wait s => (s, none)
         | .word s w2 => match decodeG g w2 with | some i => admit1 s i | none => (trap s fILLEGAL 0, none))
      else
        match decodeG g 0 with
        | some i => admit1 s i
        | none => (trap s fILLEGAL 0, none)

/-- The next move of the generator of the context s.cur. -/
def genNext (s : State) : State × Option Instr :=
  let c := s.me
  if !c.st.resident || c.dbg.halted then (s, none)
  else
    match dueAt s c with
    | .take i => (s, some i)
    | .hold => (s, none)
    | .none =>
      if c.expired s.mc then (s, some .trywTimeout)
      else
        match (if (c.st = .running || c.st = .early) && c.cap.holes.isEmpty then brkMatch c.dbg false c.pc else none) with
        | some k => if brkHalts c && c.trap.intrap then issueNext (holdBrk s k) else (brkRaise s k (BitVec.ofNat 64 k), none)
        | none => issueNext s

/-! The team's next word. -/

/-- The tag of the unit at the head (R100). -/
def headTag (c : Ctx) : W64 :=
  match c.strm.pres, c.strm.ents with
  | some (t, _), _ => t
  | none, .lane t _ :: _ => t
  | _, _ => 0

/-- The words of the unit the team is to execute. -/
def headUnit (c : Ctx) : Option (List W64) :=
  match c.strm.pres, c.strm.ents with
  | some (_, ws), _ => some ws
  | none, .lane _ ws :: _ => some ws
  | _, _ => none

/-- The next move of the team of the context s.cur. A team that a PREEMPT or a halt waits for starts nothing new, nor does one whose save
routine has not run SVSTRM (R111, R287). -/
def teamNext (s : State) : State × Option Instr :=
  let c := s.me
  if !c.st.resident || c.dbg.halted || c.strm.stopped || c.strm.gate then (s, none)
  else if c.trap.inSave && !c.trap.svDone && quiet c then (s, none)
  else if !c.trap.intrap && !mayStart c && quiet c then (s, none)
  else
    match headUnit c with
    | some ws =>
      (match decodeUnit ws with
       | some i => (s, some i)
       | none => (laneFault s { code := fILLEGAL, info := 0, lane := 0, acc := 0, tag := headTag c }, none))
    | none =>
      match c.strm.ents with
      | .inst _ _ _ w _ :: _ => (s, if w = 0 && c.trap.preempt.isSome && !mayStart c then none else some .replayInstanceExpansion)
      | .ctrl _ :: _ => (s, some .controlEntryEffect)
      | _ => (s, none)

/-- The next micro-instruction of a cluster's epilogue processor (R205). -/
def epiNext (s : State) : Option Instr :=
  let e := s.epi s.curCl
  if !e.on then none else
    match e.prog[e.pcw]? with
    | none => none
    | some w => decodeE (EWord.ofWord w)

end Sys2Proof.Machine
end

