-- ==== Sys2Proof/Machine/Operands.lean ====
section
/-! DEFINITION. Operands of lane words: the registers a word names, the checks at emission and at issue, reads and writes by lane, and
immediates (R36 to R39, R116, R118, R120, R123). -/

namespace Sys2Proof.Machine

/-! FMT (R57). -/

def fmtFc (f : W32) : Bool := f.getLsbD 31
def fmtEf (f : W32) : Nat := (f.extractLsb' 12 4).toNat
def fmtBs (f : W32) : Nat := (f.extractLsb' 10 2).toNat
def fmtSat (f : W32) : Bool := f.getLsbD 9
def fmtDaz (f : W32) : Bool := f.getLsbD 8
def fmtFtz (f : W32) : Bool := f.getLsbD 7
def fmtRm (f : W32) : Nat := (f.extractLsb' 4 3).toNat

/-- A reserved code in RM, BS or EF. -/
def fmtBad (f : W32) : Bool := 6 ≤ fmtRm f || fmtBs f = 3 || 14 ≤ fmtEf f

/-- FMT with the RSV fields kept. -/
def fmtKeep (old new : W32) : W32 := (new &&& 0x8000FFF0#32) ||| (old &&& 0x7FFF000F#32)

/-- The rounding mode of a modifier code; 7 takes FMT.RM (R58). -/
def rmOf (fmt : W32) (code : BitVec 3) : RM := RM.ofCode (if code = 7#3 then fmtRm fmt else code.toNat)

/-- Element format of VQPACK and VQUNPK: FMTC, or FMT.EF for 0xF; none for 0xC to 0xE (R126). -/
def qFmt (fmt : W32) (c : BitVec 4) : Option EFmt :=
  let k := if c = 15#4 then fmtEf fmt else c.toNat
  if k < 12 then EFmt.ofCode k else none

/-- Elements per lane and packed words (R126). -/
def qElems (f : EFmt) : Nat :=
  match f with
  | .e3m2 | .e2m3 => 16
  | .e2m1 | .s4 | .n4 => 8
  | .fp16 | .bf16 => 2
  | _ => 4

def qWords (f : EFmt) : Nat :=
  match f with
  | .e3m2 | .e2m3 => 3
  | _ => 1

/-! The registers a word names. -/

/-- One run of registers: first register, length, FE bit of a source (none for a destination). -/
structure Opnd where
  f : VReg
  n : Nat
  fe : Option Bool
  deriving DecidableEq, Repr

def oSrc (s : Src) (n : Nat) : Opnd := ⟨s.r, n, some s.fe⟩
def oDst (d : VReg) (n : Nat) : Opnd := ⟨d, n, none⟩

def oLast : LSrc → List Opnd
  | .reg s => [oSrc s 1]
  | .imm _ => []

def oOpt (s : Option Src) (n : Nat) : List Opnd :=
  match s with
  | some s => [oSrc s n]
  | none => []

/-- Registers an element of a memory type takes (R147). -/
def lTyRegs : LTy → Nat
  | .d64 => 2
  | _ => 1

/-- Registers an operand of an atomic type takes (R163). -/
def aTyRegs (ty : ATy) : Nat := atySize ty / 4

/-- The runs of a word, in the order its entry lists them. Lengths of VQPACK and VQUNPK follow FMT when FMTC is 0xF; one that FMT makes
illegal counts its first registers. -/
def laneOpnds (fmt : W32) : Instr → List Opnd
  | .viadd o | .visub o | .vimul o | .vimulh o | .vimin o | .vimax o => oDst o.d 1 :: oSrc o.a 1 :: oLast o.b
  | .vimad o => oDst o.d 1 :: oSrc o.a 1 :: oSrc o.b 1 :: oLast o.c
  | .viabs _ o | .vnot o | .vclz o | .vpopc o => [oDst o.d 1, oSrc o.a 1]
  | .vand o | .vor o | .vxor o | .vshl o | .vshr o | .vsar o => oDst o.d 1 :: oSrc o.a 1 :: oLast o.b
  | .viset _ _ _ _ a b => oSrc a 1 :: oLast b
  | .vfadd o | .vfsub o | .vfmul o | .vfmin o | .vfmax o => oDst o.d 1 :: oSrc o.a 1 :: oLast o.b
  | .vffma o => oDst o.d 1 :: oSrc o.a 1 :: oSrc o.b 1 :: oLast o.c
  | .vfsgn _ _ _ d a b => [oDst d 1, oSrc a 1, oSrc b 1]
  | .vfset _ _ _ a b => oSrc a 1 :: oLast b
  | .vrcp _ _ o | .vrsq _ _ o | .vexp2 _ o | .vlog2 _ o | .vfclass _ o | .vcvt _ _ _ o => [oDst o.d 1, oSrc o.a 1]
  | .vcvtSeed _ a => oLast a
  | .vqpack o =>
    let f := (qFmt fmt o.fmtc).getD .fp16
    oDst o.d (qWords f) :: oSrc o.a (qElems f) :: (match o.s with | some s => [oDst s.r 1] | none => []) ++ oOpt o.t 1
  | .vqunpk o =>
    let f := (qFmt fmt o.fmtc).getD .fp16
    oDst o.d (qElems f) :: oSrc o.a (qWords f) :: oOpt o.s 1 ++ oOpt o.t 1
  | .vmov _ d a => oDst d 1 :: oLast a
  | .vsel _ _ d a b => oDst d 1 :: oSrc a 1 :: oLast b
  | .vlid _ _ d => [oDst d 1]
  | .vxi _ a | .vfmt _ a => oLast a
  | .vplog _ .fromv _ a _ => [oSrc a 1]
  | .vplog _ .tov d _ _ => [oDst d 1]
  | .vvote _ _ dest d _ => if dest = .q then [] else [oDst d 1]
  | .vshfl _ _ _ d a b => oDst d 1 :: oSrc a 1 :: oLast b
  | .vtred _ _ _ d a | .vtscan _ _ _ _ d a => [oDst d 1, oSrc a 1]
  | .vld o => oDst o.d (lTyRegs o.ty) :: oOpt o.m.ix 1
  | .vst o => oSrc o.v (lTyRegs o.ty) :: oOpt o.m.ix 1
  | .vldg o => oDst o.d (lTyRegs o.ty) :: oOpt o.m.ix 2
  | .vstg o => oSrc o.v (lTyRegs o.ty) :: oOpt o.m.ix 2
  | .vldu o => [oDst o.d (lTyRegs o.ty)]
  | .vpref _ _ m => oOpt m.ix 1
  | .vldq o => oDst o.d 4 :: oOpt o.m.ix 1
  | .vstq o => oSrc o.v 4 :: oOpt o.m.ix 1
  | .vatom o => oDst o.d (aTyRegs o.ty) :: oSrc o.b (aTyRegs o.ty) :: oOpt o.m.ix 1
  | .vcas o => oDst o.d (aTyRegs o.ty) :: oSrc o.b (2 * aTyRegs o.ty) :: oOpt o.m.ix 1
  | .vred o => oSrc o.b (aTyRegs o.ty) :: oOpt o.m.ix 1
  | _ => []

/-- A word whose run lengths follow FMT, which is known only at its issue. -/
def lateRuns : Instr → Bool
  | .vqpack o | .vqunpk o => o.fmtc = 15#4
  | _ => false

/-- The guard of a lane word; team-level words have none. -/
def laneGuard : Instr → Guard
  | .viadd o | .visub o | .vimul o | .vimulh o | .vimin o | .vimax o => o.g
  | .vimad o => o.g
  | .viabs _ o | .vnot o | .vclz o | .vpopc o => o.g
  | .vand o | .vor o | .vxor o | .vshl o | .vshr o | .vsar o => o.g
  | .viset g _ _ _ _ _ => g
  | .vfadd o | .vfsub o | .vfmul o | .vfmin o | .vfmax o => o.g
  | .vffma o => o.g
  | .vfsgn g _ _ _ _ _ | .vfset g _ _ _ _ => g
  | .vrcp _ _ o | .vrsq _ _ o | .vexp2 _ o | .vlog2 _ o | .vfclass _ o | .vcvt _ _ _ o => o.g
  | .vcvtSeed g _ | .vmov g _ _ | .vsel g _ _ _ _ | .vlid g _ _ | .vplog g _ _ _ _ | .vvote g _ _ _ _ | .vshfl g _ _ _ _ _
  | .vtred g _ _ _ _ | .vtscan g _ _ _ _ _ | .vpref g _ _ | .vbararr g _ _ _ _ _ => g
  | .vqpack o | .vqunpk o => o.g
  | .vld o | .vldg o | .vldu o | .vldq o => o.g
  | .vst o | .vstg o | .vstq o => o.g
  | .vatom o | .vcas o | .vred o => o.g
  | _ => Guard.plain

/-- Words that issue every pass, and words that take one pass in all (R116). -/
def crossLane : Instr → Bool
  | .vvote .. | .vshfl .. | .vtred .. | .vtscan .. => true
  | _ => false
def teamLevel : Instr → Bool
  | .vppush .. | .vppop | .vppopElse | .vfmt .. | .vxi .. | .vfence _ => true
  | _ => false

/-! Resolution and checks. -/

/-- The logical register of an operand (R36). -/
def regNo (t : Team) (f : VReg) : Nat := (f.extractLsb' 0 8).toNat + (if f.getLsbD 8 then t.xi.toNat else 0)

/-- A run that leaves the allotment. -/
def outOfBound (t : Team) (o : Opnd) : Bool := t.vl < (regNo t o.f + o.n) * t.rpr

/-- The check of operands with f<8> clear: at emission, and again at each replay (R48). -/
def boundClear (t : Team) (i : Instr) : Bool := (laneOpnds t.fmt i).any fun o => !o.f.getLsbD 8 && outOfBound t { o with n := if lateRuns i then 1 else o.n }

/-- Passes a team has. -/
def Team.passes (t : Team) : Nat := max 1 (t.w / 32)

/-- Passes of lanes whose mask word is not zero (R116). -/
def Team.livePasses (t : Team) : List Nat := (List.range t.passes).filter fun j => bitsOf t.act (32 * j + 31) (32 * j) ≠ 0

/-- Passes in which a word reads its sources, and in which it writes its destinations (R38, R116). -/
def srcPasses (t : Team) (i : Instr) : List Nat :=
  if (laneGuard i).u || teamLevel i then [0] else if crossLane i then List.range t.passes else t.livePasses
def dstPasses (t : Team) (i : Instr) : List Nat :=
  if (laneGuard i).u || crossLane i then List.range t.passes else if teamLevel i then [0] else t.livePasses

/-- Full/empty keys that a run is examined at (R39). -/
def opndKeys (c : Ctx) (ps : List Nat) (o : Opnd) : List Nat :=
  (List.range o.n).flatMap fun k => ps.flatMap fun j => c.feKeys (regNo c.team o.f + k) j

/-- Whether a word may issue. -/
inductive Ready where
  | go | wait
  | fault (code : Nat)
  deriving DecidableEq, Repr

/-- The tensor scale of VQPACK and VQUNPK is lane 0 of vc, which is read even when pass 0 is skipped (R39, R126). -/
def tensorOpnd : Instr → List Opnd
  | .vqpack o | .vqunpk o => oOpt o.t 1
  | _ => []

/-- The checks at slice issue (R39, R48): REGBOUND for f<8> set, FETRAP, then the wait for full rows. At a follower of a multicast every
operand is checked against its own CTX.VL, since the emission checked the leader's (R36, R112; log 127, DESIGN CHOICE). A word of which
every pass is skipped meets these checks too (log 155, DESIGN CHOICE). -/
def issueCheck (s : State) (c : Ctx) (i : Instr) : Ready :=
  let os := laneOpnds c.team.fmt i
  if os.any (fun o => (o.f.getLsbD 8 || lateRuns i || c.gpos ≠ 0) && outOfBound c.team o) then .fault fREGBOUND
  else
    let keys (o : Opnd) : List Nat :=
      opndKeys c (if o.fe.isSome then srcPasses c.team i else dstPasses c.team i) o ++
        (if (tensorOpnd i).contains o then opndKeys c [0] o else [])
    if os.any (fun o => o.fe = some true && (keys o).any s.isEmpty) then .fault fFETRAP
    else if os.any (fun o => (keys o).any s.isEmpty) then .wait
    else .go

/-- The head unit leaves the stream: a unit of its own, or one unit of an instance, which leaves with its last word (R98). -/
def popHead (s : State) : State :=
  s.modMe fun c =>
    match c.strm.pres, c.strm.ents with
    | some (_, ws), .inst l r n w vs :: es =>
      let w := w + ws.length
      let len := (smGet Rake.zero (s.ctx l).cap.rakes r).ws.length
      { c with strm := { c.strm with pres := none, ents := if len ≤ w then es else .inst l r n w vs :: es } }
    | _, _ :: es => { c with strm := { c.strm with pres := none, ents := es } }
    | _, [] => { c with strm := { c.strm with pres := none } }

/-- A lane fault of the head word. -/
def headFault (s : State) (code : Nat) (info : W64) (lane acc : Nat) : State :=
  laneFault s { code := code, info := info, lane := lane, acc := acc, tag := headTag s.me }

/-- Issues a lane word: its checks, then its effect, which sees the context as it was and the stream without the word. -/
def issueLane (i : Instr) (s : State) (eff : Ctx → State → State) : State :=
  match issueCheck s s.me i with
  | .fault code => headFault s code 0 0 0
  | .wait => s.stall
  | .go => eff s.me (popHead s)

/-! Values by lane. -/

/-- Register k of the run at f, in lane l. -/
def rd (s : State) (c : Ctx) (f : VReg) (k l : Nat) : W32 := s.lane c (regNo c.team f + k) l

/-- A signed immediate (R120). -/
def LImm.sgn : LImm → W32
  | .i9 v => v.signExtend 32
  | .x32 v => v

/-- An unsigned immediate. -/
def LImm.uns : LImm → W32
  | .i9 v => v.setWidth 32
  | .x32 v => v

/-- The last source of an integer, bitwise, move or selection word. -/
def rdLast (s : State) (c : Ctx) (b : LSrc) (l : Nat) : W32 :=
  match b with
  | .reg r => rd s c r.r 0 l
  | .imm v => LImm.sgn v

/-- The last source where an immediate is unsigned. -/
def rdLastU (s : State) (c : Ctx) (b : LSrc) (l : Nat) : W32 :=
  match b with
  | .reg r => rd s c r.r 0 l
  | .imm v => LImm.uns v

/-- Element format and element count of a floating-point lane type. -/
def ftyFmt : FTy → EFmt
  | .f32 => .fp32
  | .f16x2 => .fp16
  | .bf16x2 => .bf16
def ftyLanes : FTy → Nat
  | .f32 => 1
  | _ => 2

/-- Element codes of a lane value, element 0 first (R123). -/
def felems (ty : FTy) (v : W32) : List Nat :=
  match ty with
  | .f32 => [v.toNat]
  | _ => [v.toNat % 2 ^ 16, v.toNat / 2 ^ 16]

def fpack (ty : FTy) (es : List Nat) : W32 :=
  match ty with
  | .f32 => BitVec.ofNat 32 (es.headD 0)
  | _ => BitVec.ofNat 32 (es.headD 0 + 2 ^ 16 * es.tail.headD 0)

/-- A floating-point immediate (R123): imm9 is an integer, converted exactly. -/
def fimm (ty : FTy) (v : LImm) : W32 :=
  match v with
  | .i9 v =>
    let code := cvt (ftyFmt ty) false false false .rne (.ofInt v.toInt)
    fpack ty [code, code]
  | .x32 v => if ty = .f32 then v else fpack ty [v.toNat % 2 ^ 16, v.toNat % 2 ^ 16]

def rdLastF (s : State) (c : Ctx) (ty : FTy) (b : LSrc) (l : Nat) : W32 :=
  match b with
  | .reg r => rd s c r.r 0 l
  | .imm v => fimm ty v

/-- Writes register k of the run at d in lanes ls. -/
def wr (s : State) (c : Ctx) (d : VReg) (k : Nat) (ls : List Nat) (v : Nat → W32) : State :=
  ls.foldl (fun t l => t.setLane c (regNo c.team d + k) l (v l)) s

/-- The effect of a word on one destination register: the value of each executing lane, or lane 0's in every lane (R37, R38). The values
are computed from the state before the word. -/
def wrGuard (c : Ctx) (g : Guard) (d : VReg) (v : Nat → W32) (s : State) : State :=
  if g.u then let x := v 0; wr s c d 0 (List.range c.team.w) fun _ => x
  else wr s c d 0 (c.team.lanes g) v

/-- A word with one destination register and no other effect. -/
def laneAlu (i : Instr) (g : Guard) (d : VReg) (v : State → Ctx → Nat → W32) (s : State) : State :=
  issueLane i s fun c t => wrGuard c g d (v s c) t

/-- A word that writes a predicate. -/
def lanePred (i : Instr) (g : Guard) (pd : Nat) (v : State → Ctx → Nat → Bool) (s : State) : State :=
  issueLane i s fun c t => t.modMe fun c' =>
    { c' with team := c'.team.setPreds pd ((c.team.dests g).map fun l => (l, v s c (if g.u then 0 else l))) }

end Sys2Proof.Machine
end

