-- ==== Sys2Proof/Machine/Flags.lean ====
section
/-! DEFINITION. Conditions: branches, monitors, comparisons that write predicates, class masks, votes (R97, R121, R123, R124, R133, R176). -/

namespace Sys2Proof.Machine

def bit32 (b : Bool) : W32 := if b then 1 else 0
def bit64 (b : Bool) : W64 := if b then 1 else 0

/-- A condition of BC (R97). -/
def bcHolds (c : BCond) (a b : W64) : Bool :=
  match c with
  | .eq => a == b | .ne => a != b
  | .lt => decide (a.toInt < b.toInt) | .ge => decide (b.toInt ≤ a.toInt)
  | .ltn => decide (a.toNat < b.toNat) | .gen => decide (b.toNat ≤ a.toNat)

/-- A condition of WAITC on a word of n bits (R176). -/
def wcHolds (c : WCond) (n a b : Nat) : Bool :=
  let a := a % 2 ^ n
  let b := b % 2 ^ n
  match c with
  | .eq => a == b | .ne => a != b | .ltn => decide (a < b) | .gen => decide (b ≤ a)
  | .lt => decide (signedOf n a < signedOf n b) | .ge => decide (signedOf n b ≤ signedOf n a)

/-- A lane integer read as its type (R122). -/
def ival (ty : ITy) (v : W32) : Int :=
  match ty with
  | .s32 => v.toInt
  | .n32 => v.toNat

/-- A condition of VISET. -/
def icHolds (cc : ICc) (a b : Int) : Bool :=
  match cc with
  | .eq => decide (a = b) | .ne => decide (a ≠ b) | .lt => decide (a < b) | .le => decide (a ≤ b) | .gt => decide (b < a)
  | .ge => decide (b ≤ a)

/-- An exact integer result: clamped to the type under SAT, else its low 32 bits (R122). -/
def isat (ty : ITy) (sat : Bool) (v : Int) : W32 :=
  BitVec.ofInt 32 (if sat then (match ty with | .s32 => clampInt (-2147483648) 2147483647 v | .n32 => clampInt 0 4294967295 v) else v)

/-- The class bit of a code (R124): 0 to 9. -/
def fclassBit (f : EFmt) (code : Nat) : Nat :=
  match decodeElem f false code with
  | .nan => let (_, fb, _) := f.params; if bitOf code (fb - 1) then 9 else 8
  | .inf n => if n then 0 else 7
  | .fin n m _ =>
    if m = 0 then (if n then 3 else 4)
    else if isSubnormal f code then (if n then 2 else 5)
    else (if n then 1 else 6)

/-- The class mask of a lane value: element 1 from bit 16 (R124). -/
def fclass (ty : FTy) (v : W32) : W32 :=
  match ty with
  | .f32 => BitVec.ofNat 32 (2 ^ fclassBit .fp32 v.toNat)
  | ty => BitVec.ofNat 32 (2 ^ fclassBit (ftyFmt ty) (v.toNat % 2 ^ 16) + 2 ^ 16 * 2 ^ fclassBit (ftyFmt ty) (v.toNat / 2 ^ 16))

/-- A vote over the participants' predicate bits (R133). -/
def voteVal (op : VoteOp) (bs : List Bool) : Nat :=
  match op with
  | .any => b2n (bs.any id)
  | .all => b2n (bs.all id)
  | .popc => (bs.filter id).length

end Sys2Proof.Machine
end

