-- ==== Sys2Proof/Machine/Atomics.lean ====
section
/-! DEFINITION. Atomics, compare-and-swap, reductions, barrier objects and monitors, at the unit that performs them, and their generator
forms (R157 to R162, R164 to R167, R172, R173, R175, R176). -/

namespace Sys2Proof.Machine

/-! Results (R161). -/

/-- The lesser or greater of two element codes: canonical NaN when either is NaN. -/
def fminCode (f : EFmt) (greater : Bool) (a b : Nat) : Nat :=
  let x := decodeElem f false a
  let y := decodeElem f false b
  if x.isNan || y.isNan then canonNan f
  else if fvBelow x y != greater then a else b

/-- RoundF of a sum. -/
def faddCode (f : EFmt) (a b : Nat) : Nat := cvt f false false false .rne (fvAdd .rne (decodeElem f false a) (decodeElem f false b))

/-- The new value of an integer operation of w bits. -/
def intNew (op : AOp) (signed : Bool) (w old b : Nat) : Nat :=
  let old := old % 2 ^ w
  let b := b % 2 ^ w
  let less : Bool := if signed then decide (signedOf w old < signedOf w b) else decide (old < b)
  match op with
  | .swap => b
  | .add => (old + b) % 2 ^ w
  | .and => old &&& b
  | .or => old ||| b
  | .xor => old ^^^ b
  | .min => if less then old else b
  | .max => if less then b else old
  | .incw => if b ≤ old then 0 else old + 1
  | .decw => if old = 0 ∨ b < old then b else old - 1

/-- The new value of a floating-point operation on one element. -/
def fltNew (op : AOp) (f : EFmt) (old b : Nat) : Nat :=
  match op with
  | .add => faddCode f old b
  | .min => fminCode f false old b
  | .max => fminCode f true old b
  | _ => b

/-- The new value at a location (R161): paired types work on each half. -/
def atomNew (op : AOp) (ty : ATy) (old b : Nat) : Nat :=
  if ty.isInt then intNew op (ty = .s32 || ty = .s64) (8 * atySize ty) old b
  else fjoin ty (((fparts ty old).zip (fparts ty b)).map fun p => fltNew op (atyFmt ty) p.1 p.2)

/-! At the executing unit. -/

/-- Reads n bytes where operations on them are performed: the home, after the cluster's L1 has given up its bytes (R166), the partition, which
takes the line exclusive (R157), or the host's cache, which gives a device line up (R342), has done so; the vault, or the peer. -/
def unitRead (s : State) (cl k n : Nat) : State × Nat :=
  if isCached k then (let (s, bs) := homeRead (backInval (partTouch (l1Yield s cl k n) k n 1) k n) k n; (s, leNat bs))
  else let (s, bs) := loadEach ((peerLines [k]).foldl drawbar s) cl (rangeFrom k n); (s, leNat bs)

/-- Writes n bytes there. -/
def unitWrite (s : State) (k n v : Nat) : State :=
  if isCached k then homeWrite s k (leBytes n v) else storeEach s 0 polEng (rangeFrom k n) (leBytes n v)

/-- ATOM at key k: the old value. -/
def atomAt (s : State) (cl : Nat) (op : AOp) (ty : ATy) (k b : Nat) : State × Nat :=
  let n := atySize ty
  let (s, old) := unitRead (mergeNote s s.cur false (rangeFrom k n)) cl k n
  (unitWrite s k n (atomNew op ty old b), old)

/-- CAS at key k: the old value. -/
def casAt (s : State) (cl : Nat) (ty : ATy) (k e v : Nat) : State × Nat :=
  let n := atySize ty
  let (s, old) := unitRead s cl k n
  (if old = e % 2 ^ (8 * n) then unitWrite (mergeNote s s.cur false (rangeFrom k n)) k n v else s, old)

/-- A floating-point contribution as W48, which holds it exactly (R65). -/
def redPart (f : EFmt) (code : Nat) : W48 := roundW48 false (decodeElem f false code)

/-- Adds a contribution to an entry, each element rounded once. -/
def RedE.merge (r : RedE) (b : Nat) : RedE :=
  { r with acc := (r.acc.zip (fparts r.ty b)).map fun p => roundW48 false (fvAdd .rne (w48Val p.1) (w48Val (redPart (atyFmt r.ty) p.2))) }

/-- The contribution of context cid joins the last entry of its bytes, or starts one: the grouping is free (R65). -/
def redJoin (q : List RedE) (join : Bool) (cid k : Nat) (ty : ATy) (b : Nat) : List RedE :=
  match q with
  | [] => [⟨k, ty, (fparts ty b).map (redPart (atyFmt ty)), cid⟩]
  | r :: rs => if join && r.key = k && r.ty = ty then { r.merge b with by_ := cid } :: rs else r :: redJoin rs join cid k ty b

/-- A reduction that is performed at once: an error in what it changes is found there, and stays (R152, R159). -/
def redNow (s : State) (cl : Nat) (op : AOp) (ty : ATy) (k b : Nat) : State :=
  let n := atySize ty
  let (s, old) := unitRead (mergeNote s s.cur true (rangeFrom k n)) cl k n
  { unitWrite s k n (atomNew op ty old b) with ecc := s.ecc }

/-- RED at key k (R165): a floating-point sum waits in the write queue of its home, in this package or at a peer. -/
def redAt (s : State) (cl : Nat) (op : AOp) (ty : ATy) (k b : Nat) : State :=
  if isDevice k && op = .add && !ty.isInt then
    let s := l1Yield s cl k 4
    let s := if s.redq.any (fun r => r.meets k 4 && !(r.key = k && r.ty = ty)) then settle s k 4 else s
    let s := backInval (ttTouch (recallBar s k 4) k 4) k 4
    let (c, s) := s.draw
    { s with redq := redJoin s.redq (Config.mergeChoice c) s.cur k ty b }
  else if isPeer k && op = .add && !ty.isInt then
    let s := (peerLines [k]).foldl drawbar s
    if peerSays s k ≠ 0 then peerLost s k
    else
      let s := if s.peerRed.any (fun r => r.meets k 4 && !(r.key = k && r.ty = ty)) then peerSettle s k 4 else s
      let (c, s) := s.draw
      { s with peerRed := redJoin s.peerRed (Config.mergeChoice c) s.cur k ty b }
  else redNow s cl op ty k b

/-! Checks of a generator form (R159): ALIGN, then the access path, then ATOMTYPE, RANGELOCK and ECC. -/

/-- Types host memory accepts (R157). -/
def typeOk (ty : ATy) (k : Nat) : Bool := !isHost k || ty.isInt

/-- The checks after translation; the bytes dirty in the cluster's L1 go home first (R166). -/
def atomLate (s : State) (cl : Nat) (store old : Bool) (p : W64) (ok : Nat → Bool) (ks : List Nat) : ARes :=
  if !ok (ks.headD 0) then .fault fATOMTYPE p
  else if ks.any (fun q => lockHit s cl q store) then .fault fRANGELOCK p
  else if old && eccHit s cl polEng ks then .fault fECC p
  else .ok ks

/-- The address of the layout of R162. -/
def atAddr (s : State) (f : AtF) : W64 := s.reg f.a + f.disp.signExtend 64

/-- The access of a generator form. -/
def atomAccess (s : State) (k : AKind) (old : Bool) (p : W64) (n : Nat) (ok : Nat → Bool) : ARes :=
  if !aligned p n then .fault fALIGN p
  else
    match resolve s s.me s.cur s.me.trap.pl k p n with
    | .ok ks => atomLate s s.me.cl k.isStore old p ok ks
    | r => r

def atomDo (s : State) (k : AKind) (old : Bool) (p : W64) (n : Nat) (ok : Nat → Bool) (f : State → List Nat → State) : State :=
  (atomAccess s k old p n ok).run s (f (used s s.me k p n))

/-- An old value in a g register: sign-extended for .s32, otherwise zero-extended (R162, log 16, DEDUCED). -/
def atomReg (ty : ATy) (v : Nat) : W64 := if ty = .s32 then (BitVec.ofNat 32 v).signExtend 64 else BitVec.ofNat 64 v

/-- ATOM. -/
def execAtom (op : AOp) (ty : ATy) (f : AtF) (s : State) : R :=
  .next (atomDo s .at_ true (atAddr s f) (atySize ty) (typeOk ty) fun s ks =>
    let cl := s.me.cl
    let b := (s.reg f.b).toNat
    let s := ordBefore s cl f.ord f.scope
    let (s, old) := atomAt s cl op ty (ks.headD 0) b
    (ordAfter s cl f.ord f.scope).done f.d (atomReg ty old))

/-- CAS: gd holds the expected value, gb the new one. -/
def execCas (ty : ATy) (f : AtF) (s : State) : R :=
  .next (atomDo s .at_ true (atAddr s f) (atySize ty) (typeOk ty) fun s ks =>
    let cl := s.me.cl
    let e := (s.reg f.d).toNat
    let v := (s.reg f.b).toNat
    let s := ordBefore s cl f.ord f.scope
    let (s, old) := casAt s cl ty (ks.headD 0) e v
    (ordAfter s cl f.ord f.scope).done f.d (atomReg ty old))

/-- RED. -/
def execRed (op : AOp) (ty : ATy) (f : AtF) (s : State) : R :=
  .next (atomDo s (.red op.code ty.code.toNat) false (atAddr s f) (atySize ty) (typeOk ty) fun s ks =>
    let cl := s.me.cl
    let b := (s.reg f.b).toNat
    let s := ordBefore s cl f.ord f.scope
    (ordAfter (redAt s cl op ty (ks.headD 0) b) cl f.ord f.scope).adv)

/-- The actions of a fence on its cluster's L1 (R167). -/
def fenceAct (s : State) (cl : Nat) (f : FenceF) : State := ordAfter (ordBefore s cl f.ord f.scope) cl f.ord f.scope

/-- FENCE. -/
def execFence (f : FenceF) (s : State) : R := .next (fenceAct s s.me.cl f).adv

/-! Barrier objects (R172 to R175). -/

/-- A cluster no longer holds an object. -/
def dropBar (k : Nat) (c : Cluster) : Cluster := { c with barc := c.barc.filter fun e => e.1 ≠ k }

/-- A cluster takes an object into its cache, from any other holder; the 33rd object displaces the one used least recently. -/
def barTake (s : State) (cl task k : Nat) : State :=
  let old := ((s.cl cl).barc.find? (fun e => e.1 = k)).elim [] (·.2)
  let s : State := { s with cls := s.cls.map fun e => (e.1, dropBar k e.2) }
  s.modCl cl fun c => { c with barc := ((k, if old.contains task then old else task :: old) :: c.barc).take 32 }

/-- A field of an object. -/
def barGet (s : State) (k off n : Nat) : Nat := memNat s.mem (k + off) n

/-- Writes TARGET, ARRIVED, PHASE and WAITCL, as one step of the cluster that holds the object. An error in a byte that the operation uses
is found as in a merge, and stays (R152, R159). -/
def barPut (s : State) (k target arrived phase waitcl : Nat) (uses : List Nat) : State :=
  let s := mergeNote (mergeNote s s.cur true uses) s.cur false ((rangeFrom k 10 ++ rangeFrom (k + 0x10) 24).filter (!uses.contains ·))
  { homePut (homePut s k (leBytes 4 target ++ leBytes 4 arrived ++ leBytes 2 phase)) (k + 0x10) (leBytes 24 waitcl) with
    ecc := s.ecc.filter fun e => uses.contains e || !(k ≤ e && e < k + 10 || k + 0x10 ≤ e && e < k + 0x28) }

/-- What an operation does to an object before its own step: the cluster's L1 gives up its bytes, and pending reductions are applied. -/
def barOpen (s : State) (cl k : Nat) : State := settle (l1Yield s cl k 64) k 64

/-- TARGET as an operation of the acting context finds it. -/
def barTarget (s : State) (k : Nat) : Nat := barGet (barOpen s s.me.cl k) k 0 4

/-- An arrival of n at an object whose TARGET is not zero: the token, and the state after (R173). -/
def barArrive (s : State) (cl task k n : Nat) : State × Nat :=
  let t := barGet s k 0 4
  let a := barGet s k 4 4
  let ph := barGet s k 8 2
  let q := (a + n) / t
  (barTake (barPut s k t ((a + n) % t) ((ph + q) % 2 ^ 16) (if q = 0 then barGet s k 0x10 24 else 0)
    (rangeFrom k 10 ++ (if q = 0 then rangeFrom (k + 0x10) 24 else []))) cl task k, ph)

/-- Objects lie in device memory (R172). -/
def barOk (k : Nat) : Bool := isDevice k

/-- BARINIT. -/
def execBarinit (f : AtF) (s : State) : R :=
  .next (atomDo s .at_ true (atAddr s f) 64 barOk fun s ks =>
    let c := s.me
    let k := ks.headD 0
    let n := (s.reg f.b).toNat % 2 ^ 32
    let s := barOpen (ordBefore s c.cl f.ord f.scope) c.cl k
    let ph := (barGet s k 8 2 + 1) % 2 ^ 16
    (ordAfter (barTake (barPut s k n 0 ph 0 []) c.cl c.task k) c.cl f.ord f.scope).done f.d (BitVec.ofNat 64 ph))

/-- BARARR: TARGET = 0 raises ATOMTYPE, in R159's place for it. -/
def execBararr (f : AtF) (s : State) : R :=
  .next (atomDo s .at_ true (atAddr s f) 64 (fun k => barOk k && barTarget s k ≠ 0) fun s ks =>
    let c := s.me
    let k := ks.headD 0
    let n := (s.reg f.b).toNat % 2 ^ 32
    let s := barOpen (ordBefore s c.cl f.ord f.scope) c.cl k
    let (s, ph) := barArrive s c.cl c.task k n
    (ordAfter s c.cl f.ord f.scope).done f.d (BitVec.ofNat 64 ph))

/-- BARWAIT: waits until PHASE differs from the token; its WAITCL bit is set while it waits. -/
def execBarwait (f : AtF) (s : State) : R :=
  .next (atomDo s .rd true (atAddr s f) 64 barOk fun s ks =>
    let c := s.me
    let k := ks.headD 0
    let tok := (s.reg f.b).toNat % 2 ^ 16
    let t := barOpen (ordBefore s c.cl f.ord f.scope) c.cl k
    let ph := barGet t k 8 2
    if ph = tok then
      (if testsOnce s then waitOn s (.bar k tok) else
        waitOn (barTake (barPut t k (barGet t k 0 4) (barGet t k 4 4) ph (barGet t k 0x10 24 ||| 2 ^ c.cl) []) c.cl c.task k) (.bar k tok))
    else waitDone ((ordAfter (barTake t c.cl c.task k) c.cl f.ord f.scope).setReg f.d (BitVec.ofNat 64 ph)))

/-- BARTEST. -/
def execBartest (f : AtF) (s : State) : R :=
  .next (atomDo s .rd true (atAddr s f) 64 barOk fun s ks =>
    let c := s.me
    let k := ks.headD 0
    let tok := (s.reg f.b).toNat % 2 ^ 16
    let s := barTake (barOpen (ordBefore s c.cl f.ord f.scope) c.cl k) c.cl c.task k
    if barGet s k 8 2 = tok then s.done f.d 0 else (ordAfter s c.cl f.ord f.scope).done f.d 1)

/-! Monitors (R176). -/

/-- Bytes of WAITC's word. -/
def wcSize (wide : Bool) : Nat := if wide then 8 else 4

/-- The word of a monitor, read at its home: the cluster's dirty bytes of it go there first, and its clean copy is refreshed. -/
def wcRead (s : State) (cl k n : Nat) : State × Nat :=
  let s := if isCached k then refreshLine (l1CleanRange s cl k n) cl (k / 64) else s
  let (s, bs) := if isCached k then homeRead s k n else loadEach ((peerLines [k]).foldl drawbar s) cl (rangeFrom k n)
  (s, leNat bs)

/-- The word that a monitor watches, as it stands at its home. -/
def wordAtHome (s : State) (cl k n : Nat) : Nat := leNat (if isCached k then (homeRead s k n).2 else (loadEach s cl (rangeFrom k n)).2)

def wordMet (s : State) (c : Ctx) (k n : Nat) (cc : WCond) (b : Nat) : Bool := wcHolds cc (8 * n) (wordAtHome s c.cl k n) b

/-- A monitor hands a word over to its waiting context, with the word's acquire action; one with an uncorrectable error raises ECC (R347). -/
def serveWord (s : State) (cid k n : Nat) (f : AtF) : State :=
  let c := s.ctx cid
  let t : State := { s with cur := cid, curCl := c.cl }
  if (rangeFrom k n).any s.ecc.contains then { trap t fECC (atAddr t f) with cur := s.cur, curCl := s.curCl }
  else
    let v := wordAtHome s c.cl k n
    wakeWith (ordAfter (if isCached k then refreshLine s c.cl (k / 64) else s) c.cl f.ord f.scope) cid f.d (BitVec.ofNat 64 v)

/-- A peer's WAITC whose condition holds gets its wake; while no port leads to the peer the wake is kept (R344; log 162, DESIGN CHOICE). -/
def servePeer (s : State) (p : PeerMon) : State :=
  if wcHolds p.cc (8 * p.n) (wordAtHome s 0 p.key p.n) p.b && smGet 0 s.pf.route p.peer ≠ 0 then
    { s with peerMons := s.peerMons.filter (· ≠ p) }.emit (.wake (portOf s p.peer (p.key / 256)) p.peer p.id)
  else s

/-- The monitors of bytes that have been written examine their words (R176). -/
def examineAt (s : State) (ks : List Nat) : State :=
  let hit (k n : Nat) : Bool := ks.any fun q => decide (k ≤ q) && decide (q < k + n)
  let s := s.ctxs.foldl (fun s e =>
    match e.2.watch with
    | some (.word k n cc b true f) =>
      let c := s.ctx e.1
      if hit k n && c.watch = e.2.watch && c.st.resident && !c.expired s.mc && wordMet s c k n cc b then serveWord s e.1 k n f else s
    | _ => s) s
  (s.peerMons.filter fun p => hit p.key p.n).foldl servePeer s

/-- A monitor for a word is free (R176): one of the 256 of its L2 slice, or the vault's own. A peer's home sends its wakes. -/
def monFree (s : State) (k : Nat) : Bool :=
  isVault k || (isCached k && (s.peerMons.filter fun p => homeOf p.key = homeOf k).length + (s.ctxs.filter fun e => match e.2.watch with
    | some (.word q _ _ _ true _) => isCached q && homeOf q = homeOf k
    | _ => false).length < 256)

/-- WAITC: sleeps until the word meets the condition. -/
def execWaitc (wide : Bool) (cc : WCond) (f : AtF) (s : State) : R :=
  .next (atomDo s .rd true (atAddr s f) (wcSize wide) (fun _ => true) fun s ks =>
    let c := s.me
    let n := wcSize wide
    let k := ks.headD 0
    let b := (s.reg f.b).toNat
    let s := ordBefore s c.cl f.ord f.scope
    let (s, v) := wcRead s c.cl k n
    if wcHolds cc (8 * n) v b then
      waitDone ((ordAfter s c.cl f.ord f.scope).setReg f.d (BitVec.ofNat 64 v))
    else waitOn s (match c.watch with | some w => w | none => .word k n cc b (monFree s k) f))

/-- The waiting context tries its WAITC again. -/
def retryWaitc (s : State) : R :=
  match s.me.st with
  | .waiting _ =>
    (match genNext s with
     | (s', some (.waitc wide cc f)) => execWaitc wide cc f s'
     | _ => .next s)
  | _ => .next s

/-- WAITC_POLL: a WAITC without a monitor reads its word again. -/
def execWaitcPoll (s : State) : R := retryWaitc s
/-- DRAWBAR_MONITOR_WAKE: a peer's home wakes a WAITC, which examines its word. -/
def execDrawbarMonitorWake (s : State) : R := retryWaitc s

/-! TRYW (R177). -/

def execTryw (d : GReg) (t : GSrc) (s : State) : R :=
  .next ((s.modMe fun c => { c with tryw := some { d := d, t := (s.srcN t).toNat, at_ := c.pc, start := s.mc, met := false } }).adv)

/-- TRYW_TIMEOUT: the time is out before the condition was met, and the waiting word ends with no effect. -/
def execTrywTimeout (s : State) : R :=
  .next (match s.me.tryw, s.me.st with
    | some t, .waiting _ => if t.start + t.t ≤ s.mc && !t.met then trywOver s t else s
    | _, _ => s)

end Sys2Proof.Machine
end

