-- ==== Sys2Proof/Machine/LaneInt.lean ====
section
/-! DEFINITION. Lane integer words, moves, selection, indices and predicates (R121, R122, R129 to R132). -/

namespace Sys2Proof.Machine

/-- Register source a of a word, in lane l. -/
def va (s : State) (c : Ctx) (a : Src) (l : Nat) : W32 := rd s c a.r 0 l

/-- An integer word on two sources: f gives the exact result. -/
def laneI (i : Instr) (o : IOp) (f : Int → Int → Int) (s : State) : State :=
  laneAlu i o.g o.d (fun s c l => isat o.ty o.sat (f (ival o.ty (va s c o.a l)) (ival o.ty (rdLast s c o.b l)))) s

/-- A bitwise word on two sources. -/
def laneB (i : Instr) (o : BOp) (f : W32 → W32 → W32) (s : State) : State :=
  laneAlu i o.g o.d (fun s c l => f (va s c o.a l) (rdLast s c o.b l)) s

/-- A word on one source. -/
def laneU (i : Instr) (o : UOp) (f : W32 → W32) (s : State) : State := laneAlu i o.g o.d (fun s c l => f (va s c o.a l)) s

def execViadd (o : IOp) (s : State) : R := .next (laneI (.viadd o) o (· + ·) s)
def execVisub (o : IOp) (s : State) : R := .next (laneI (.visub o) o (· - ·) s)
def execVimul (o : IOp) (s : State) : R := .next (laneI (.vimul o) o (· * ·) s)
/-- VIMULH: bits 63:32 of the product. -/
def execVimulh (o : IOp) (s : State) : R := .next (laneI (.vimulh o) o (fun a b => a * b / 2 ^ 32) s)
def execVimad (o : IMad) (s : State) : R :=
  .next (laneAlu (.vimad o) o.g o.d
    (fun s c l => isat o.ty o.sat (ival o.ty (va s c o.a l) * ival o.ty (va s c o.b l) + ival o.ty (rdLast s c o.c l))) s)
def execVimin (o : IOp) (s : State) : R := .next (laneI (.vimin o) o min s)
def execVimax (o : IOp) (s : State) : R := .next (laneI (.vimax o) o max s)
def execViabs (sat : Bool) (o : UOp) (s : State) : R := .next (laneU (.viabs sat o) o (fun a => isat .s32 sat a.toInt.natAbs) s)
def execVand (o : BOp) (s : State) : R := .next (laneB (.vand o) o (· &&& ·) s)
def execVor (o : BOp) (s : State) : R := .next (laneB (.vor o) o (· ||| ·) s)
def execVxor (o : BOp) (s : State) : R := .next (laneB (.vxor o) o (· ^^^ ·) s)
def execVnot (o : UOp) (s : State) : R := .next (laneU (.vnot o) o (~~~ ·) s)
def execVshl (o : BOp) (s : State) : R := .next (laneB (.vshl o) o (fun a b => a <<< (b.toNat % 32)) s)
def execVshr (o : BOp) (s : State) : R := .next (laneB (.vshr o) o (fun a b => a >>> (b.toNat % 32)) s)
def execVsar (o : BOp) (s : State) : R := .next (laneB (.vsar o) o (fun a b => a.sshiftRight (b.toNat % 32)) s)

/-- Leading zeros among n bits. -/
def clzNat (n v : Nat) : Nat := if v = 0 then n else n - 1 - Nat.log2 v
/-- One bits among n bits. -/
def popNat (n v : Nat) : Nat := ((List.range n).filter (bitOf v)).length

def execVclz (o : UOp) (s : State) : R := .next (laneU (.vclz o) o (fun a => BitVec.ofNat 32 (clzNat 32 a.toNat)) s)
def execVpopc (o : UOp) (s : State) : R := .next (laneU (.vpopc o) o (fun a => BitVec.ofNat 32 (popNat 32 a.toNat)) s)

/-- VISET: the predicate bit of each executing lane. -/
def execViset (g : Guard) (ty : ITy) (cc : ICc) (pd : BitVec 3) (a : Src) (b : LSrc) (s : State) : R :=
  .next (lanePred (.viset g ty cc pd a b) g pd.toNat (fun s c l => icHolds cc (ival ty (va s c a l)) (ival ty (rdLast s c b l))) s)

/-! Moves, selection, indices (R129). -/

def execVmov (g : Guard) (d : VReg) (a : LSrc) (s : State) : R := .next (laneAlu (.vmov g d a) g d (fun s c l => rdLast s c a l) s)
def execVsel (g : Guard) (ps : BitVec 3) (d : VReg) (a : Src) (b : LSrc) (s : State) : R :=
  .next (laneAlu (.vsel g ps d a b) g d (fun s c l => if c.team.pred ps.toNat l then va s c a l else rdLast s c b l) s)
/-- VLID: lane number, datapath lane, or pass. -/
def execVlid (g : Guard) (which : BitVec 2) (d : VReg) (s : State) : R :=
  .next (laneAlu (.vlid g which d) g d
    (fun _ c l => BitVec.ofNat 32 (match which with | 0#2 => l | 1#2 => c.dpLane l | _ => l / 32)) s)
/-- VXI: the index register, from lane 0 or the unsigned immediate. -/
def execVxi (add : Bool) (a : LSrc) (s : State) : R :=
  .next (issueLane (.vxi add a) s fun c t =>
    let v := (rdLastU s c a 0).setWidth 16
    t.modMe fun c' => { c' with team := { c'.team with xi := if add then c.team.xi + v else v } })

/-! Predicates and paths (R130, R131). -/

/-- VPLOG: a predicate from predicates or from a register, or a register from a predicate. -/
def execVplog (g : Guard) (op : PlogOp) (d : VReg) (a : Src) (pb : BitVec 3) (s : State) : R :=
  let i := Instr.vplog g op d a pb
  let pd := d.toNat % 8
  let pa (c : Ctx) (l : Nat) : Bool := c.team.pred (a.r.toNat % 8) l
  let pb' (c : Ctx) (l : Nat) : Bool := c.team.pred pb.toNat l
  .next (match op with
    | .tov => laneAlu i g d (fun _ c l => bit32 (pa c l)) s
    | .fromv => lanePred i g pd (fun s c l => (va s c a l).getLsbD 0) s
    | .and => lanePred i g pd (fun _ c l => pa c l && pb' c l) s
    | .or => lanePred i g pd (fun _ c l => pa c l || pb' c l) s
    | .xor => lanePred i g pd (fun _ c l => pa c l != pb' c l) s
    | .andn => lanePred i g pd (fun _ c l => pa c l && !pb' c l) s
    | .not => lanePred i g pd (fun _ c l => !pa c l) s
    | .set => lanePred i g pd (fun _ _ _ => true) s
    | .clr => lanePred i g pd (fun _ _ _ => false) s)

/-- A new active mask. -/
def Team.withAct (t : Team) (m : Nat) : Team := { t with act := m }

/-- VPPUSH: opens a path. A seventeenth entry discards the oldest. -/
def execVppush (ps : BitVec 3) (neg : Bool) (s : State) : R :=
  .next (issueLane (.vppush ps neg) s fun c t =>
    let m := maskOf c.team.w fun l => c.team.pred ps.toNat l != neg
    t.modMe fun c' => { c' with team := { c'.team with
      stack := ⟨c.team.act, c.team.fmt, m⟩ :: c.team.stack.take 15, act := c.team.act &&& m } })

/-- VPPOP: closes a path. -/
def execVppop (s : State) : R :=
  .next (issueLane .vppop s fun c t =>
    match c.team.stack with
    | [] => t
    | e :: r => t.modMe fun c' => { c' with team := { c'.team with stack := r, act := e.act, fmt := e.fmt } })

/-- VPPOP.else: the other branch of the path. -/
def execVppopElse (s : State) : R :=
  .next (issueLane .vppopElse s fun c t =>
    match c.team.stack with
    | [] => t
    | e :: _ => t.modMe fun c' =>
        { c' with team := { c'.team with act := e.act &&& (fullMask c.team.w ^^^ (e.c &&& fullMask c.team.w)), fmt := e.fmt } })

/-- The FMT that VFMT would set (R132). -/
def vfmtNew (op : BitVec 2) (old v : W32) : W32 :=
  fmtKeep old (match op with | 0#2 => v | 1#2 => old ||| v | _ => old &&& ~~~v)

/-- VFMT: a reserved code leaves FMT as it is and raises ILLEGAL at issue. -/
def execVfmt (op : BitVec 2) (a : LSrc) (s : State) : R :=
  .next (match issueCheck s s.me (.vfmt op a) with
    | .fault code => headFault s code 0 0 0
    | .wait => s.stall
    | .go =>
      let c := s.me
      let f := vfmtNew op c.team.fmt (rdLast s c a 0)
      if fmtBad f then headFault s fILLEGAL 0 0 0
      else (popHead s).modMe fun c' => { c' with team := { c'.team with fmt := f } })

end Sys2Proof.Machine
end

