-- ==== Sys2Proof/Machine/LaneFp.lean ====
section
/-! DEFINITION. Lane floating-point words (R123, R124, R64). -/

namespace Sys2Proof.Machine

/-- An element code read with DAZ. -/
def fread (fmt : W32) (f : EFmt) (code : Nat) : FV := readElem f false (fmtDaz fmt) code

/-- Rounds an exact value to an element code, under FMT.SAT and FMT.FTZ. -/
def fround (fmt : W32) (f : EFmt) (rm : RM) (v : FV) : Nat := cvt f false (fmtSat fmt) (fmtFtz fmt) rm.arith v

/-- The arithmetic of one element: f combines the values read with DAZ. -/
def felem2 (fmt : W32) (f : EFmt) (rm : RM) (op : RM → FV → FV → FV) (a b : Nat) : Nat :=
  fround fmt f rm (op rm.arith (fread fmt f a) (fread fmt f b))

/-- A two-source word, element by element. -/
def laneF2 (i : Instr) (o : FOp) (op : RM → FV → FV → FV) (s : State) : State :=
  laneAlu i o.g o.d (fun s c l =>
    let rm := rmOf c.team.fmt o.rm
    fpack o.ty (((felems o.ty (va s c o.a l)).zip (felems o.ty (rdLastF s c o.ty o.b l))).map fun p =>
      felem2 c.team.fmt (ftyFmt o.ty) rm op p.1 p.2)) s

def execVfadd (o : FOp) (s : State) : R := .next (laneF2 (.vfadd o) o fvAdd s)
def execVfsub (o : FOp) (s : State) : R := .next (laneF2 (.vfsub o) o (fun rm a b => fvAdd rm a b.negate) s)
def execVfmul (o : FOp) (s : State) : R := .next (laneF2 (.vfmul o) o (fun _ a b => fvMul a b) s)

/-- a * b + c before its one rounding; an infinity times zero is NaN even when c is NaN. -/
def fvFma (rm : RM) (a b c : FV) : FV := fvAdd rm (fvMul a b) c

/-- VFFMA. -/
def execVffma (o : FMad) (s : State) : R :=
  .next (laneAlu (.vffma o) o.g o.d (fun s c l =>
    let fmt := c.team.fmt
    let f := ftyFmt o.ty
    let rm := rmOf fmt o.rm
    fpack o.ty (((felems o.ty (va s c o.a l)).zip ((felems o.ty (va s c o.b l)).zip (felems o.ty (rdLastF s c o.ty o.c l)))).map fun p =>
      fround fmt f rm (fvFma rm.arith (fread fmt f p.1) (fread fmt f p.2.1) (fread fmt f p.2.2)))) s)

/-- The lesser, or the greater, of two values; a NaN operand yields the other (R124). -/
def fvMinMax (greater : Bool) (a b : FV) : FV :=
  match a, b with
  | .nan, b => b
  | a, .nan => a
  | a, b => if fvBelow a b != greater then a else b

def execVfmin (o : FOp) (s : State) : R := .next (laneF2 (.vfmin o) o (fun _ a b => fvMinMax false a b) s)
def execVfmax (o : FOp) (s : State) : R := .next (laneF2 (.vfmax o) o (fun _ a b => fvMinMax true a b) s)

/-- VFSGN works on codes: the sign bit of each element. -/
def vfsgnVal (ty : FTy) (op : BitVec 2) (a b : W32) : W32 :=
  let m : W32 := if ty = .f32 then 0x80000000 else 0x80008000
  let sb := match op with | 0#2 => b | 1#2 => ~~~b | _ => a ^^^ b
  (a &&& ~~~m) ||| (sb &&& m)

def execVfsgn (g : Guard) (ty : FTy) (op : BitVec 2) (d : VReg) (a b : Src) (s : State) : R :=
  .next (laneAlu (.vfsgn g ty op d a b) g d (fun s c l => vfsgnVal ty op (va s c a l) (va s c b l)) s)

/-- VFSET: an FP32 comparison with DAZ. -/
def execVfset (g : Guard) (cc : BitVec 3) (pd : BitVec 3) (a : Src) (b : LSrc) (s : State) : R :=
  .next (lanePred (.vfset g cc pd a b) g pd.toNat (fun s c l =>
    fvCond cc.toNat (fread c.team.fmt .fp32 (va s c a l).toNat) (fread c.team.fmt .fp32 (rdLastF s c .f32 b l).toNat)) s)

/-- A one-source word, element by element, on codes. -/
def laneF1 (i : Instr) (ty : FTy) (o : UOp) (f : W32 → Nat → Nat) (s : State) : State :=
  laneAlu i o.g o.d (fun s c l => fpack ty ((felems ty (va s c o.a l)).map (f c.team.fmt))) s

def execVrcp (ty : FTy) (rm : BitVec 3) (o : UOp) (s : State) : R :=
  .next (laneF1 (.vrcp ty rm o) ty o (fun m x => rcpCode (ftyFmt ty) (fmtSat m) (fmtFtz m) (fmtDaz m) (rmOf m rm).arith x) s)
def execVrsq (ty : FTy) (rm : BitVec 3) (o : UOp) (s : State) : R :=
  .next (laneF1 (.vrsq ty rm o) ty o (fun m x => rsqCode (ftyFmt ty) (fmtSat m) (fmtFtz m) (fmtDaz m) (rmOf m rm).arith x) s)
def execVexp2 (ty : FTy) (o : UOp) (s : State) : R :=
  .next (laneF1 (.vexp2 ty o) ty o (fun m x => exp2Code (ftyFmt ty) (fmtSat m) (fmtFtz m) (fmtDaz m) x) s)
def execVlog2 (ty : FTy) (o : UOp) (s : State) : R :=
  .next (laneF1 (.vlog2 ty o) ty o (fun m x => log2Code (ftyFmt ty) (fmtSat m) (fmtFtz m) (fmtDaz m) x) s)
def execVfclass (ty : FTy) (o : UOp) (s : State) : R := .next (laneU (.vfclass ty o) o (fclass ty) s)

end Sys2Proof.Machine
end

