-- ==== Sys2Proof/Machine/LaneConv.lean ====
section
/-! DEFINITION. Conversion and packing (R59, R61, R125 to R128). -/

namespace Sys2Proof.Machine

/-- A lane's stochastic-rounding state; lane l starts at l + 1 (R59). -/
def Team.lfsrAt (t : Team) (l : Nat) : W32 := smGet (BitVec.ofNat 32 (l + 1)) t.lfsr l
def Team.setLfsr (t : Team) (l : Nat) (v : W32) : Team := { t with lfsr := smSet t.lfsr l v }

/-- The lane types of VCVT (R125). -/
def laneTy (c : BitVec 3) : EFmt :=
  match c with
  | 0#3 => .fp32 | 1#3 => .fp16 | 2#3 => .bf16 | 3#3 => .s32 | 4#3 => .n32 | 5#3 => .s8 | _ => .n8

/-- A result in a lane register: 8-bit results are extended as their type, 16-bit results by zeros. -/
def laneWord (f : EFmt) (code : Nat) : W32 :=
  if f = .s8 then (BitVec.ofNat 8 code).signExtend 32 else BitVec.ofNat 32 code

/-- An integer converted to another integer type: clamped when it is widened, or under SAT; its low bits otherwise (R61). -/
def intToInt (src dst : EFmt) (sat : Bool) (v : Int) : Nat :=
  let (lo, hi) := intRange dst
  if sat || src.width < dst.width then intCode dst.width (clampInt lo hi v) else intCode dst.width v

/-- One VCVT: source code, FMT, rounding code and the lane's state; the result code and the state after. -/
def vcvtCode (fmt : W32) (dst src : EFmt) (rm : BitVec 3) (code : Nat) (st : W32) : Nat × W32 :=
  if src.isInt && dst.isInt then
    (intToInt src dst (fmtSat fmt) (if src.isSigned then signedOf src.width code else (code % 2 ^ src.width : Nat)), st)
  else
    let x := readElem src false (fmtDaz fmt) (code % 2 ^ src.width)
    let m := rmOf fmt rm
    if m = .sr && dst.width ≤ 16 then cvtSr src dst false (fmtSat fmt) (fmtFtz fmt) x st
    else (cvt dst false (fmtSat fmt) (fmtFtz fmt) (if m = .sr then .rne else m) x, st)

/-- Executing lanes with what each computes and its new state; a uniform word takes lane 0 once. -/
def laneSr (i : Instr) (g : Guard) (d : VReg) (f : State → Ctx → Nat → W32 → W32 × W32) (s : State) : State :=
  issueLane i s fun c t =>
    let rs := (c.team.lanes g).map fun l => (l, f s c l (c.team.lfsrAt l))
    let t := t.modMe fun c' => { c' with team := rs.foldl (fun m r => if r.2.2 = m.lfsrAt r.1 then m else m.setLfsr r.1 r.2.2) c'.team }
    wrGuard c g d (fun l => (rs.find? (fun r => r.1 = l)).elim 0 (·.2.1)) t

def execVcvt (dt st rm : BitVec 3) (o : UOp) (s : State) : R :=
  .next (laneSr (.vcvt dt st rm o) o.g o.d (fun s c l x =>
    let (code, x') := vcvtCode c.team.fmt (laneTy dt) (laneTy st) rm (va s c o.a l).toNat x
    (laneWord (laneTy dt) code, x')) s)

/-- VCVT.SEED: the state of each executing lane; a value of 0 is stored as 1. -/
def execVcvtSeed (g : Guard) (a : LSrc) (s : State) : R :=
  .next (issueLane (.vcvtSeed g a) s fun c t =>
    t.modMe fun c' => { c' with team := (c.team.dests g).foldl (fun m l =>
      let v := rdLast s c a (if g.u then 0 else l)
      m.setLfsr l (if v = 0 then 1 else v)) c'.team })

/-! Packing (R126, R127). -/

/-- Bits of element j of a lane's packed words, as one number. -/
def packNat (w : Nat) (cs : List Nat) : Nat := cs.foldr (fun c acc => c % 2 ^ w + 2 ^ w * acc) 0

/-- EMAX of a block-scaled format (R126). -/
def qEmax (f : EFmt) (fc : Bool) : Int :=
  match f with
  | .e5m2 => if fc then 16 else 15
  | .e4m3 => 8 | .e3m2 => 4 | .e2m3 => 2 | .e2m1 => 2 | _ => 0

/-- Lanes of one block (R126): 32 elements along the lanes. -/
def qBlock (f : EFmt) : Nat := 32 / qElems f

/-- x / t for exact values, as a sign and a pair of naturals, or a special value. -/
inductive QV where
  | nan
  | inf (neg : Bool)
  | q (neg : Bool) (n d : Nat)
  deriving DecidableEq, Repr

def fvDiv (x t : FV) : QV :=
  match x, t with
  | .nan, _ => .nan
  | _, .nan => .nan
  | .inf _, .inf _ => .nan
  | .inf a, .fin b _ _ => .inf (a != b)
  | .fin a _ _, .inf b => .q (a != b) 0 1
  | .fin a m e, .fin b n g =>
    if n = 0 then (if m = 0 then .nan else .inf (a != b))
    else let (p, r) := scaleQ m n (g - e); .q (a != b) p r

/-- Bits of the exact value n / d below 2^q, at most 16; an expansion without end counts as 16 (R59). -/
def quotBits (n d : Nat) (q : Int) : Nat :=
  let (a, b) := scaleQ n d q
  ((List.range 17).find? fun k => a * 2 ^ k % b = 0).getD 16

/-- One conversion of VQPACK: x divided by the scale value t * 2^(s - 127) (R127). An FP32 value divided by a power of two carries its 24
bits; another quotient has the bits of its expansion (log 11, DEDUCED). -/
def qpackCode (fmt : W32) (f : EFmt) (rm : BitVec 3) (x : FV) (t : FV) (st : W32) : Nat × W32 :=
  let fc := fmtFc fmt
  let sat := fmtSat fmt
  let ftz := fmtFtz fmt
  let m := rmOf fmt rm
  match fvDiv x t with
  | .nan => (nanCode f fc, st)
  | .inf neg => (infCode f fc sat neg, st)
  | .q neg n d =>
    if m = .sr then
      let pow2 : Bool := match t with | .fin _ k _ => k = 2 ^ Nat.log2 k | _ => false
      let k := match x, t with
        | .fin _ xm xe, .fin _ tm te =>
          if pow2 then min 16 (targetUlp f n d - (srcUlpExp .fp32 xm xe - te - Nat.log2 tm)).toNat else quotBits n d (targetUlp f n d)
        | _, _ => quotBits n d (targetUlp f n d)
      cvtSrQ f fc sat ftz neg n d k st
    else (roundQ f fc sat ftz m neg n d, st)

/-- The scale byte of a block: the quotients of its executing lanes (R127). -/
def qScale (fc : Bool) (f : EFmt) (vals : List QV) : Nat :=
  if vals.any (fun v => v = .nan) then 0xFF
  else
    let m := vals.foldl (fun (m : Nat × Nat) v => match v with | .q _ n d => if m.1 * d < n * m.2 then (n, d) else m | _ => m) (0, 1)
    if m.1 = 0 then 127 else (clampInt 0 254 (floorLog2 m.1 m.2 - qEmax f fc + 127)).toNat

/-- Positive, finite and normal (R127). -/
def posNormal (code : Nat) : Bool :=
  match decodeElem .fp32 false code with
  | .fin n m _ => !n && m ≠ 0 && !isSubnormal .fp32 code
  | _ => false

/-- The FP32 code of a word's tensor scale: lane 0 of vc, or 1 (R126). DAZ reads it as it does every input of a conversion (R60; log 152,
DEDUCED). -/
def qTensor (s : State) (c : Ctx) (o : QOp) : Nat :=
  match o.t with
  | some t => if fmtBs c.team.fmt = 2 then (rd s c t.r 0 0).toNat else 0x3F800000
  | none => 0x3F800000

/-- Whether VQPACK and VQUNPK use block scales. -/
def qScaled (fmt : W32) (f : EFmt) : Bool := f.blockScaled && fmtBs fmt ≠ 0

/-- Packed codes of one lane, with its new state. -/
def qpackLane (s : State) (c : Ctx) (o : QOp) (f : EFmt) (t : FV) (l : Nat) (st : W32) : List Nat × W32 :=
  (List.range (qElems f)).foldl (fun (a : List Nat × W32) j =>
    let v := rd s c o.a.r j l
    if f.isInt then (a.1 ++ [intToInt .s32 f (fmtSat c.team.fmt) v.toInt], a.2)
    else
      let (code, x) := qpackCode c.team.fmt f o.rm (fread c.team.fmt .fp32 v.toNat) t a.2
      (a.1 ++ [code], x)) ([], st)

/-- VQPACK. A format that FMT.EF does not allow is ILLEGAL at issue. -/
def execVqpack (o : QOp) (s : State) : R :=
  .next (match qFmt s.me.team.fmt o.fmtc with
    | none => (match issueCheck s s.me (.vqpack o) with
      | .fault code => headFault s code 0 0 0
      | .wait => s.stall
      | .go => headFault s fILLEGAL 0 0 0)
    | some f => issueLane (.vqpack o) s fun c st =>
      let fmt := c.team.fmt
      let tc := qTensor s c o
      let tv := fread fmt .fp32 tc
      let ls := c.team.lanes o.g
      let scale (l : Nat) : Nat :=
        if !qScaled fmt f then 127
        else if !posNormal tc then 0xFF
        else qScale (fmtFc fmt) f ((ls.filter fun k => k / qBlock f = l / qBlock f).flatMap fun k =>
          (List.range (qElems f)).map fun j => fvDiv (fread fmt .fp32 (rd s c o.a.r j k).toNat) tv)
      let rs := ls.map fun l =>
        let b := scale l
        let q : FV := if b = 0xFF then .ofInt 1 else scaleElem b tv
        (l, b, qpackLane s c o f q l (c.team.lfsrAt l))
      let st := st.modMe fun c' => { c' with team := rs.foldl (fun m r => if r.2.2.2 = m.lfsrAt r.1 then m else m.setLfsr r.1 r.2.2.2) c'.team }
      let find (l : Nat) : Nat × List Nat := (rs.find? (fun r => r.1 = l)).elim (0, []) fun r => (r.2.1, r.2.2.1)
      let out (k : Nat) (l : Nat) : W32 := BitVec.ofNat 32 (packNat f.width (find l).2 / 2 ^ (32 * k))
      let st := (List.range (qWords f)).foldl (fun t k =>
        if o.g.u then let x := out k 0; wr t c o.d k (List.range c.team.w) fun _ => x else wr t c o.d k ls (out k)) st
      match o.s with
      | none => st
      | some v => wrGuard c o.g v.r (fun l => BitVec.ofNat 32 (find l).1) st)

/-- One element of VQUNPK: code, scale byte, tensor scale (R128). The value of an integer format takes no scale (log 153, DESIGN CHOICE). -/
def qunpkElem (fmt : W32) (f : EFmt) (rm : BitVec 3) (s : Nat) (t : FV) (code : Nat) : W32 :=
  if f.isInt then BitVec.ofInt 32 (if f.isSigned then signedOf f.width code else (code : Int))
  else
    let y := fvMul (scaleElem s (readElem f (fmtFc fmt) (fmtDaz fmt) code)) t
    BitVec.ofNat 32 (cvt .fp32 false (fmtSat fmt) (fmtFtz fmt) (let m := rmOf fmt rm; if m = .sr then .rne else m) y)

/-- VQUNPK. A block-scaled format that names no scale register has the scale 127 (log 153, DESIGN CHOICE). -/
def execVqunpk (o : QOp) (s : State) : R :=
  .next (match qFmt s.me.team.fmt o.fmtc with
    | none => (match issueCheck s s.me (.vqunpk o) with
      | .fault code => headFault s code 0 0 0
      | .wait => s.stall
      | .go => headFault s fILLEGAL 0 0 0)
    | some f => issueLane (.vqunpk o) s fun c st =>
      let fmt := c.team.fmt
      let tv := fread fmt .fp32 (qTensor s c o)
      let words (l : Nat) : Nat := packNat 32 ((List.range (qWords f)).map fun k => (rd s c o.a.r k l).toNat)
      let scale (l : Nat) : Nat := match o.s with | some v => if qScaled fmt f then (rd s c v.r 0 l).toNat % 256 else 127 | none => 127
      let out (j l : Nat) : W32 := qunpkElem fmt f o.rm (scale l) tv (words l / 2 ^ (f.width * j) % 2 ^ f.width)
      (List.range (qElems f)).foldl (fun t j =>
        if o.g.u then let x := out j 0; wr t c o.d j (List.range c.team.w) fun _ => x else wr t c o.d j (c.team.lanes o.g) (out j)) st)

end Sys2Proof.Machine
end

