-- ==== Sys2Proof/Machine/LaneCross.lean ====
section
/-! DEFINITION. Votes, shuffles, reductions and scans (R113, R133 to R135). -/

namespace Sys2Proof.Machine

/-- Keys of the full/empty bits of n registers from f, in the passes ps. -/
def rowKeys (c : Ctx) (f : VReg) (n : Nat) (ps : List Nat) : List Nat := opndKeys c ps ⟨f, n, none⟩

/-- Row values of a fill: each listed lane's value of register k of the run at d. -/
def fillVals (c : Ctx) (d : VReg) (k : Nat) (vs : List (Nat × W32)) : List (Nat × W32) :=
  vs.map fun e => (c.laneKey (regNo c.team d + k) e.1, e.2)

/-- Marks rows empty and keeps the fill that will bring their values (R39). Answers the fill's key. -/
def pushFill (s : State) (f : Fill) : State × Nat :=
  let (n, s) := s.fresh
  ((s.markEmpty f.rows).modMe fun c => { c with fills := smSet c.fills n f }, n)

/-- VVOTE: the result goes to the vote queue, to vd in every lane, or both, when it is ready (R113, R119). -/
def execVvote (g : Guard) (op : VoteOp) (dest : VoteDest) (d : VReg) (ps : BitVec 3) (s : State) : R :=
  .next (issueLane (.vvote g op dest d ps) s fun c t =>
    let v := voteVal op ((c.team.lanes g).map (c.team.pred ps.toNat))
    let (t, key) := if dest = .q then (t, none) else
      let (t, n) := pushFill t { vals := fillVals c d 0 ((List.range c.team.w).map fun l => (l, BitVec.ofNat 32 v)),
                                 rows := rowKeys c d 1 (List.range c.team.passes), ecc := none }
      (t, some n)
    t.modMe fun c' => { c' with strm := { c'.strm with
      voteFly := c'.strm.voteFly ++ [(if dest = .v then none else some (BitVec.ofNat 64 v), key)] } })

/-- Writes lane values by key. -/
def putRows (m : SMap W32) : List (Nat × W32) → SMap W32
  | [] => m
  | e :: r => putRows (smSet m e.1 e.2) r

/-- A fill's values reach their rows, which become full. -/
def applyFill (s : State) (cid k : Nat) : State :=
  match smFind (s.ctx cid).fills k with
  | none => s
  | some f =>
    let s := { s with rows := putRows s.rows f.vals }
    let s := (s.markFull f.rows).modCtx cid fun c => { c with fills := smDel c.fills k }
    match f.ecc with
    | none => s
    | some e =>
      if (s.ctx cid).trap.laneF.isSome then s else { raiseLane { s with cur := cid } e with cur := s.cur }

/-- VOTE_RESULT_READY: the oldest result in flight becomes readable, and vd is written. -/
def execVoteResultReady (s : State) : R :=
  .next (match s.me.strm.voteFly with
    | [] => s
    | (v, k) :: r =>
      let s := s.modMe fun c => { c with strm := { c.strm with voteFly := r, voteQ := c.strm.voteQ ++ v.toList } }
      match k with
      | none => s
      | some k => applyFill s s.cur k)

/-- First lane of lane l's group of 2^g. -/
def grpBase (lg : BitVec 4) (l : Nat) : Nat := l / 2 ^ lg.toNat * 2 ^ lg.toNat

/-- The source lane of VSHFL (R134). -/
def shflLane (mode : ShMode) (lg : BitVec 4) (l n : Nat) : Nat :=
  let size := 2 ^ lg.toNat
  let b := grpBase lg l
  match mode with
  | .idx => b + n % size
  | .up => if l < b + n then l else l - n
  | .down => if b + size ≤ l + n then l else l + n
  | .xor => b + ((l - b) ^^^ (n % size))

def execVshfl (g : Guard) (mode : ShMode) (lg : BitVec 4) (d : VReg) (a : Src) (b : LSrc) (s : State) : R :=
  .next (laneAlu (.vshfl g mode lg d a b) g d (fun s c l => va s c a (shflLane mode lg l (rdLastU s c b l).toNat)) s)

/-- The sum of a combination, rounded once (R135): terms read with DAZ. -/
def redAddF (fmt : W32) (vs : List FV) : FV :=
  let rm := (rmOf fmt 7#3).arith
  if vs.any FV.isNan || (vs.any (fun v => v = .inf false) && vs.any (fun v => v = .inf true)) then .nan
  else if vs.any (fun v => v = .inf false) then .inf false
  else if vs.any (fun v => v = .inf true) then .inf true
  else
    let (x, e0) := sumDyadic (vs.filterMap fun v => match v with | .fin n m e => some (n, m, e) | _ => none)
    if x = 0 then .zero (vs.all (fun v => v.isZero && v.neg?) || rm = .rdn) else .fin (decide (x < 0)) x.natAbs e0

/-- The combination of a list of lane values (R135); an empty one is the identity. -/
def redVal (fmt : W32) (op : RedOp) (vs : List W32) : W32 :=
  let fl (f : List FV → FV) : W32 := BitVec.ofNat 32 (fround fmt .fp32 (rmOf fmt 7#3) (f (vs.map fun v => fread fmt .fp32 v.toNat)))
  match op, vs with
  | .addS, vs => vs.foldl (· + ·) 0
  | .addF, [] => 0
  | .addF, _ => fl (redAddF fmt)
  | .minS, vs => vs.foldl (fun a b => if b.toInt < a.toInt then b else a) 0x7FFFFFFF#32
  | .minN, vs => vs.foldl (fun a b => if b.toNat < a.toNat then b else a) 0xFFFFFFFF#32
  | .minF, [] => 0x7F800000#32
  | .minF, _ => fl (fun xs => xs.foldl (fvMinMax false) .nan)
  | .maxS, vs => vs.foldl (fun a b => if a.toInt < b.toInt then b else a) 0x80000000#32
  | .maxN, vs => vs.foldl (fun a b => if a.toNat < b.toNat then b else a) 0
  | .maxF, [] => 0xFF800000#32
  | .maxF, _ => fl (fun xs => xs.foldl (fvMinMax true) .nan)
  | .and, vs => vs.foldl (· &&& ·) 0xFFFFFFFF#32
  | .or, vs => vs.foldl (· ||| ·) 0
  | .xor, vs => vs.foldl (· ^^^ ·) 0

/-- VTRED: every participant gets its group's combination. -/
def execVtred (g : Guard) (op : RedOp) (lg : BitVec 4) (d : VReg) (a : Src) (s : State) : R :=
  .next (laneAlu (.vtred g op lg d a) g d (fun s c l =>
    redVal c.team.fmt op (((c.team.lanes g).filter fun k => grpBase lg k = grpBase lg l).map (va s c a))) s)

/-- VTSCAN: each participant gets the combination of the participants up to it, or before it with EX. -/
def execVtscan (g : Guard) (op : RedOp) (lg : BitVec 4) (ex : Bool) (d : VReg) (a : Src) (s : State) : R :=
  .next (laneAlu (.vtscan g op lg ex d a) g d (fun s c l =>
    redVal c.team.fmt op (((c.team.lanes g).filter fun k =>
      grpBase lg k = grpBase lg l && (if ex then decide (k < l) else decide (k ≤ l))).map (va s c a))) s)

end Sys2Proof.Machine
end

