-- ==== Sys2Proof/Machine/LaneMem.lean ====
section
/-! DEFINITION. Lane memory words, lane atomics, VFENCE and VBARARR, and the completion of an access (R146 to R156, R163, R164, R168,
R174). -/

namespace Sys2Proof.Machine

/-! Pointers of lanes (R148). -/

/-- The offset of lane l, as an exact integer: wide indexes are register pairs. -/
def laneOff (s : State) (c : Ctx) (m : LAddr) (wide uni : Bool) (l : Nat) : Int :=
  let x : Int :=
    if uni then 0 else
    match m.ix with
    | none => l
    | some v => if wide then ((rd s c v.r 1 l) ++ (rd s c v.r 0 l)).toInt else (rd s c v.r 0 l).toInt
  offOf m.base + x * 2 ^ m.sc.toNat + (LImm.sgn m.disp).toInt

/-- The pointer at an offset, and whether the offset lies in the region's 2^56 bytes. -/
def lanePtr (m : LAddr) (o : Int) : W64 × Bool :=
  (m.base.extractLsb' 56 8 ++ BitVec.ofInt 56 o, decide (0 ≤ o) && decide (o < 2 ^ 56))

/-- Order of the faults of a lane access (R150, R159). -/
def faultRank (code : Nat) : Nat :=
  if code = fALIGN then 0 else if code = fRIDBOUND then 1 else if code = fPERM ∨ code = fLOST then 2 else if code = fUNDECLARED then 3
  else if code = fATOMTYPE then 4 else if code = fNOTPRESENT then 5 else 6

/-- The outcome of the checks of a word: lanes with their keys, the fault, or a wait. -/
inductive LRes where
  | ok (xs : List (Nat × List Nat))
  | fault (code lane : Nat) (info : W64)
  | wait (s : State)
  deriving DecidableEq, Repr

/-- The first fault of a word: by its rank, then by its lane. -/
def worstFault : List (Nat × ARes) → Option (Nat × Nat × W64)
  | [] => none
  | (l, .fault code info) :: r =>
    (match worstFault r with
     | some (code', l', info') => if faultRank code' < faultRank code then some (code', l', info') else some (code, l, info)
     | none => some (code, l, info))
  | _ :: r => worstFault r

/-- All lanes' checks together. A fault that stands before NOTPRESENT does not wait for a walk. -/
def gatherRes (rs : List (Nat × ARes)) : LRes :=
  let w := rs.findSome? fun r => match r.2 with | .wait s => some s | _ => none
  let lost := rs.any fun r => match r.2 with | .fault code _ => code = fLOST | _ => false
  match (worstFault rs).map (fun f => if f.1 = fPERM && lost then (fLOST, f.2) else f), w with
  | some (code, l, info), none => .fault code l info
  | some (code, l, info), some s => if faultRank code < 4 then .fault code l info else .wait s
  | none, some s => .wait s
  | none, none => .ok (rs.filterMap fun r => match r.2 with | .ok ks => some (r.1, ks) | _ => none)

/-- The access of one lane: an unaligned element is judged byte by byte (R148), under the first fault of R150's order and the pointer of its
first byte. -/
def laneBytes (s : State) (c : Ctx) (k : AKind) (size : Nat) (p : W64) : ARes :=
  if aligned p size then resolve s c s.cur c.trap.pl k p size
  else if 2 ^ 56 < offOf p + size then .fault fRIDBOUND p
  else
    match gatherRes ((List.range size).map fun b => (b, resolve s c s.cur c.trap.pl k (ptrAdd p b) 1)) with
    | .ok xs => .ok (xs.flatMap (·.2))
    | .fault code _ _ => .fault code p
    | .wait s => .wait s

/-- The checks of one lane. -/
def laneAccess (s : State) (c : Ctx) (k : AKind) (ua : Bool) (size : Nat) (late : W64 → List Nat → ARes) (p : W64 × Bool) : ARes :=
  if !ua && !aligned p.1 size then .fault fALIGN p.1
  else if !p.2 then .fault fRIDBOUND p.1
  else
    match laneBytes s c k size p.1 with
    | .ok ks => late p.1 ks
    | r => r

/-- RANGELOCK of a plain lane access. -/
def laneLock (s : State) (cl : Nat) (store : Bool) (p : W64) (ks : List Nat) : ARes :=
  if ks.any (fun q => lockHit s cl q store) then .fault fRANGELOCK p else .ok ks

/-- An access of a lane word: what it does, its element, the pointer of a lane, and the checks after its translation. -/
structure LaneAcc where
  k : AKind
  ua : Bool
  size : Nat
  ptr : Ctx → Nat → W64 × Bool
  late : Ctx → W64 → List Nat → ARes

def LaneAcc.check (a : LaneAcc) (s : State) (c : Ctx) (l : Nat) : ARes := laneAccess s c a.k a.ua a.size (a.late c) (a.ptr c l)

/-- A memory word: issue checks, execution faults of every lane, then its effect on the lanes' keys. An empty set of lanes does nothing. -/
def issueMem (i : Instr) (s : State) (acc : Nat) (ls : Ctx → List Nat) (a : LaneAcc)
    (eff : State → Ctx → List (Nat × List Nat) → State) : State :=
  match issueCheck s s.me i with
  | .fault code => headFault s code 0 0 0
  | .wait => s.stall
  | .go =>
    let c := s.me
    if (ls c).isEmpty then popHead s
    else
      match gatherRes ((ls c).map fun l => (l, a.check s c l)) with
      | .fault code l info => headFault s code info l acc
      | .wait s' => s'
      | .ok xs => eff (xs.foldl (fun s x => used s c a.k (a.ptr c x.1).1 a.size) s) c xs

/-- How a lane word uses L1 (R144, R146). -/
def cpPol (cp : Cp) (sc : Scope) : Pol := ⟨scopeRank sc, cp = .l2, cp = .ef⟩

/-! Loads. -/

def lTySize : LTy → Nat
  | .n8 | .s8 => 1
  | .n16 | .s16 => 2
  | .n32 => 4
  | .d64 => 8

/-- Registers' values of a loaded element (R149). -/
def extend (ty : LTy) (v : Nat) : List W32 :=
  match ty with
  | .s8 => [(BitVec.ofNat 8 v).signExtend 32]
  | .s16 => [(BitVec.ofNat 16 v).signExtend 32]
  | .d64 => [BitVec.ofNat 32 v, BitVec.ofNat 32 (v / 2 ^ 32)]
  | _ => [BitVec.ofNat 32 v]

/-- Reads each lane's bytes, in lane order. -/
def readLanes (cl : Nat) (p : Pol) : State → List (Nat × List Nat) → State × List (Nat × Nat)
  | s, [] => (s, [])
  | s, (l, ks) :: r =>
    let (s, bs) := loadKeys s cl p ks
    let (s, vs) := readLanes cl p s r
    (s, (l, leNat bs) :: vs)

/-- Destination rows of n registers are marked empty, and filled with the lanes' values when the access completes. A lane whose bytes
carry an error gets zero, and the word stays at the head of the stopped stream (R152). -/
def fillLanes (s : State) (c : Ctx) (i : Instr) (d : VReg) (n : Nat) (vs : List (Nat × List W32)) (bad : List (Nat × W64)) (acc : Nat) : State :=
  let rows := rowKeys c d n (dstPasses c.team i)
  let vals := (List.range n).flatMap fun k => fillVals c d k (vs.map fun v => (v.1, if bad.any (fun b => b.1 = v.1) then 0 else v.2.getD k 0))
  match bad with
  | [] => (pushFill (popHead s) { vals := vals, rows := rows, ecc := none }).1
  | b :: _ =>
    let f : LaneF := { code := fECC, info := b.2, lane := b.1, acc := acc, tag := headTag c, own := c.ownHead }
    (pushFill s { vals := vals, rows := rows, ecc := some f }).1.modMe fun c => { c with strm := { c.strm with stopped := true } }

/-- Lanes whose bytes carry an error, with their pointers. -/
def badLanes (s : State) (cl : Nat) (p : Pol) (ptr : Nat → W64) (xs : List (Nat × List Nat)) : List (Nat × W64) :=
  xs.filterMap fun x => if eccHit s cl p x.2 then some (x.1, ptr x.1) else none

/-- A load word. uni: VLDU, one access for all lanes. -/
def laneLoad (i : Instr) (g : Guard) (m : LAddr) (cp : Cp) (ua wide uni : Bool) (size : Nat) (d : VReg) (n : Nat)
    (ext : Nat → List W32) (s : State) : State :=
  let ptr (c : Ctx) (l : Nat) : W64 × Bool := lanePtr m (laneOff s c m wide uni l)
  issueMem i s 0 (fun c => c.team.lanes g) ⟨.ld, ua, size, ptr, fun c => laneLock s c.cl false⟩
    fun s c xs =>
      let bad := badLanes s c.cl (cpPol cp m.scope) (fun l => (ptr c l).1) xs
      let s := ordBefore s c.cl m.ord m.scope
      let (s, vs) := readLanes c.cl (cpPol cp m.scope) s (if uni then xs.take 1 else xs)
      let vs := if uni then xs.map fun x => (x.1, (vs.headD (0, 0)).2) else vs
      fillLanes (ordAfter s c.cl m.ord m.scope) c i d n (vs.map fun v => (v.1, ext v.2)) bad 0

def execVld (o : VLd) (s : State) : R :=
  .next (laneLoad (.vld o) o.g o.m o.cp o.ua false false (lTySize o.ty) o.d (lTyRegs o.ty) (extend o.ty) s)
def execVldg (o : VLd) (s : State) : R :=
  .next (laneLoad (.vldg o) o.g o.m o.cp o.ua true false (lTySize o.ty) o.d (lTyRegs o.ty) (extend o.ty) s)
def execVldu (o : VLd) (s : State) : R :=
  .next (laneLoad (.vldu o) o.g o.m o.cp o.ua false true (lTySize o.ty) o.d (lTyRegs o.ty) (extend o.ty) s)
/-- VLDQ: 16 bytes into four registers. -/
def execVldq (o : VLd) (s : State) : R :=
  .next (laneLoad (.vldq o) o.g o.m o.cp false false false 16 o.d 4 (fun v => (List.range 4).map fun k => BitVec.ofNat 32 (v / 2 ^ (32 * k))) s)

/-! Stores. -/

/-- Writes each lane's bytes, in lane order: the highest lane's stand (R153). -/
def writeLanes (cl : Nat) (p : Pol) (size : Nat) (v : Nat → Nat) : State → List (Nat × List Nat) → State
  | s, [] => s
  | s, (l, ks) :: r => writeLanes cl p size v (storeKeys s cl p ks (leBytes size (v l))) r

/-- n consecutive registers of a lane, as one number. -/
def regsNat (s : State) (c : Ctx) (f : VReg) (n l : Nat) : Nat := packNat 32 ((List.range n).map fun k => (rd s c f k l).toNat)

/-- A store word. -/
def laneStore (i : Instr) (g : Guard) (m : LAddr) (cp : Cp) (ua wide : Bool) (size : Nat) (v : Src) (n : Nat) (s : State) : State :=
  issueMem i s 1 (fun c => c.team.lanes g)
    ⟨.st, ua, size, fun c l => lanePtr m (laneOff s c m wide false l), fun c => laneLock s c.cl true⟩
    fun t c xs =>
      let t := ordBefore (popHead t) c.cl m.ord m.scope
      ordAfter (writeLanes c.cl (cpPol cp m.scope) size (regsNat s c v.r n) t xs) c.cl m.ord m.scope

def execVst (o : VSt) (s : State) : R :=
  .next (laneStore (.vst o) o.g o.m o.cp o.ua false (lTySize o.ty) o.v (lTyRegs o.ty) s)
def execVstg (o : VSt) (s : State) : R :=
  .next (laneStore (.vstg o) o.g o.m o.cp o.ua true (lTySize o.ty) o.v (lTyRegs o.ty) s)
def execVstq (o : VSt) (s : State) : R := .next (laneStore (.vstq o) o.g o.m o.cp false false 16 o.v 4 s)

/-! Prefetch (R149): never faults and never walks. -/

/-- Brings the sector of a byte into L1, or into its L2 home, unless a range lock meets it. Of the homes, State holds the partition's lines. -/
def prefetch (s : State) (c : Ctx) (toL2 : Bool) (p : W64 × Bool) : State :=
  if !p.2 || ridOf p.1 = 0 || 0xFD ≤ ridOf p.1 then s
  else
    match resolve s c s.cur c.trap.pl .ld p.1 1 with
    | .ok [k] =>
      let s := used s c .ld p.1 1
      if !isCached k || (rangeFrom (k / 64 * 64) 64).any (lockHit s c.cl · false) then s
      else if toL2 then partTouch s (k / 64 * 64) 64 0
      else
        let line := k / 64
        let (s, l) := getLine s c.cl line 2
        let (s, l) := if l.valid = fullMask 64 then (s, l) else fillLine s line l
        setLine s c.cl line { l with t := max l.t 2 }
    | _ => s

/-- VPREF. -/
def execVpref (g : Guard) (toL2 : Bool) (m : LAddr) (s : State) : R :=
  .next (issueLane (.vpref g toL2 m) s fun c t =>
    (c.team.lanes g).foldl (fun t l => prefetch t c toL2 (lanePtr m (laneOff s c m false false l))) t)

/-! Atomics (R163, R164). -/

/-- Inserts a lane by its rank among the lanes of a word, the lower lane first at equal rank. -/
def insertRank (rk : Nat → Nat) (x : Nat × List Nat) : List (Nat × List Nat) → List (Nat × List Nat)
  | [] => [x]
  | y :: r => if rk x.1 < rk y.1 ∨ (rk x.1 = rk y.1 ∧ x.1 < y.1) then x :: y :: r else y :: insertRank rk x r

/-- Lanes in the order in which a word's operations are performed: free (R164). -/
def rankLanes (rk : Nat → Nat) (xs : List (Nat × List Nat)) : List (Nat × List Nat) := xs.foldr (insertRank rk) []

/-- One operation per lane, each giving an old value; a monitor of its word examines it before the next. -/
def atomLanes (f : State → Nat → Nat → State × Nat) : State → List (Nat × List Nat) → State × List (Nat × Nat)
  | s, [] => (s, [])
  | s, (l, ks) :: r =>
    let (s, old) := f s l (ks.headD 0)
    let s := examineAt s ks
    let (s, vs) := atomLanes f s r
    (s, (l, old) :: vs)

/-- The access of a lane atomic. -/
def laneAtAcc (s : State) (m : LAddr) (k : AKind) (ty : ATy) : LaneAcc :=
  ⟨k, false, atySize ty, fun c l => lanePtr m (laneOff s c m false false l), fun c p ks => atomLate s c.cl true false p (typeOk ty) ks⟩

/-- VATOM and VCAS: f performs lane l's operation at a key. -/
def laneAtom (i : Instr) (o : VAt) (f : Ctx → State → Nat → Nat → State × Nat) (s : State) : State :=
  issueMem i s 2 (fun c => c.team.lanes o.g) (laneAtAcc s o.m .at_ o.ty) fun s c xs =>
    let bad := badLanes s c.cl polEng (fun l => (lanePtr o.m (laneOff s c o.m false false l)).1) xs
    let (n, t) := s.draw
    let t := ordBefore t c.cl o.m.ord o.m.scope
    let (t, vs) := atomLanes (f c) t (rankLanes (Config.laneRank n) xs)
    let t := ordAfter t c.cl o.m.ord o.m.scope
    let vs := if o.g.u then (List.range c.team.w).map fun l => (l, (vs.headD (0, 0)).2) else vs
    fillLanes t c i o.d (aTyRegs o.ty) (vs.map fun v => (v.1, [BitVec.ofNat 32 v.2, BitVec.ofNat 32 (v.2 / 2 ^ 32)])) bad 2

def execVatom (o : VAt) (s : State) : R :=
  .next (laneAtom (.vatom o) o (fun c t l k => atomAt t c.cl o.op o.ty k (regsNat s c o.b.r (aTyRegs o.ty) l)) s)
/-- VCAS: expected, then new. -/
def execVcas (o : VAt) (s : State) : R :=
  .next (laneAtom (.vcas o) o (fun c t l k =>
    let v := regsNat s c o.b.r (2 * aTyRegs o.ty) l
    casAt t c.cl o.ty k v (v / 2 ^ (8 * atySize o.ty))) s)

/-- VRED. -/
def execVred (o : VAt) (s : State) : R :=
  .next (issueMem (.vred o) s 2 (fun c => c.team.lanes o.g) (laneAtAcc s o.m (.red o.op.code o.ty.code.toNat) o.ty) fun t c xs =>
    let (n, t) := (popHead t).draw
    let t := ordBefore t c.cl o.m.ord o.m.scope
    let (t, _) := atomLanes (fun t l k => (redAt t c.cl o.op o.ty k (regsNat s c o.b.r (aTyRegs o.ty) l), 0)) t (rankLanes (Config.laneRank n) xs)
    ordAfter t c.cl o.m.ord o.m.scope)

/-- VFENCE. -/
def execVfence (f : FenceF) (s : State) : R := .next (issueLane (.vfence f) s fun c t => fenceAct t c.cl f)

/-- Arrivals of a VBARARR: one for the team, or one for each executing lane (R174). -/
def arrivals (c : Ctx) (g : Guard) (lanes : Bool) : Nat :=
  let n := (c.team.lanes g).length
  if lanes then n else min n 1

/-- VBARARR: one access for the team. -/
def execVbararr (g : Guard) (lanes : Bool) (disp : BitVec 9) (base : W64) (ord : MOrd) (scope : Scope) (s : State) : R :=
  let m : LAddr := ⟨0, none, .i9 disp, base, ord, scope⟩
  let p := lanePtr m (offOf base + disp.toInt)
  .next (issueMem (.vbararr g lanes disp base ord scope) s 2 (fun c => (c.team.lanes g).take 1)
    ⟨.at_, false, 64, fun _ _ => p, fun c p ks => atomLate s c.cl true false p (fun k => barOk k && barTarget s k ≠ 0) ks⟩
    fun t c xs =>
      let k := ((xs.headD (0, [])).2).headD 0
      let t := barOpen (ordBefore (popHead t) c.cl ord scope) c.cl k
      ordAfter (barArrive t c.cl c.task k (arrivals c g lanes)).1 c.cl ord scope)

/-- ACCESS_COMPLETION: the data of a load, or the old values of an atomic, reach their rows. -/
def execAccessCompletion (cid k : Nat) (s : State) : R :=
  .next (if (s.ctx cid).strm.voteFly.any (fun v => v.2 = some k) then s else applyFill s cid k)

end Sys2Proof.Machine
end

