-- ==== Sys2Proof/Machine/Units.lean ====
section
/-! DEFINITION. What engines, channels and loaders share: their accesses, the range-lock table, and rings (R151, R178, R179, R187, R193,
R233). -/

namespace Sys2Proof.Machine

/-! Accesses of an engine. -/

/-- Outcome of a read by an engine: the bytes, a fault, or a wait for a walk. -/
inductive ERes (α : Type) where
  | ok (s : State) (v : α)
  | fault (code : Nat) (info : W64)
  | wait (s : State)

/-- Continues after a read. -/
def ERes.bind {α β : Type} (r : ERes α) (f : State → α → ERes β) : ERes β :=
  match r with
  | .ok s v => f s v
  | .fault c i => .fault c i
  | .wait s => .wait s

/-- The checks of an engine access for context cid at a level (R193): apertures and the capture store raise PERM; the save-frame window is
open where win says so. Engines are not checked against the range-lock table (R178). -/
def engAccess (s : State) (cid : Nat) (lvl1 win : Bool) (k : AKind) (p : W64) (n : Nat) : ARes :=
  if ridOf p = 0xFF ∨ (ridOf p = 0xFD ∧ !(win && lvl1 && 0x1000000 ≤ offOf p && offOf p < 0x2000000)) then .fault fPERM p
  else
    match resolve s (s.ctx cid) cid lvl1 k p n with
    | .ok ks => if !k.isStore && eccHit s (s.ctx cid).cl polEng ks then .fault fECC p else .ok ks
    | r => r

/-- Reads n bytes for an engine, under the .l2 load row (R189). -/
def engRead (s : State) (cid : Nat) (lvl1 win : Bool) (p : W64) (n : Nat) : ERes (List Byte) :=
  match engAccess s cid lvl1 win .ld p n with
  | .ok ks => let r := loadKeys (used s (s.ctx cid) .ld p n) (s.ctx cid).cl polEng ks; .ok r.1 r.2
  | .fault c i => .fault c i
  | .wait s => .wait s

/-- Stores bytes for an engine, under the .l2 store row (R190). -/
def engWrite (s : State) (cid : Nat) (lvl1 win : Bool) (p : W64) (bs : List Byte) : ERes Unit :=
  match engAccess s cid lvl1 win .st p bs.length with
  | .ok ks => .ok { storeKeys { used s (s.ctx cid) .st p bs.length with cur := cid } (s.ctx cid).cl polEng ks bs with cur := s.cur } ()
  | .fault c i => .fault c i
  | .wait s => .wait s

/-- A read made at issue by the executing instruction: its faults are precise, and it is tried again after a walk (R193). -/
def ERes.atIssue {α : Type} (r : ERes α) (s : State) (f : State → α → State) : State :=
  match r with
  | .ok s v => f s v
  | .fault c i => trap s c i
  | .wait s => s

/-- A signed field of a register. -/
def sfield (v : W64) (lo n : Nat) : Int := (v.extractLsb' lo n).toInt

/-! The range-lock table (R151, R178). -/

/-- The physical segments of the pointers from p to p + n - 1. -/
def segsOf (s : State) (cid : Nat) (lvl1 : Bool) (p : W64) (n : Nat) : List (Nat × Nat) :=
  let c := s.ctx cid
  let t := s.task c.task
  let rid := ridOf p
  if rid = 0 ∨ rid = 0xFF then []
  else if rid = 0xFD then (if 0x1000000 ≤ offOf p then [(frameKey cid (offOf p - 0x1000000), frameKey cid (offOf p - 0x1000000) + n)] else [])
  else if rid = 0xFE then
    (match vaultKeys s c lvl1 p 1 with
     | some (k :: _) => [(k, k + n)]
     | _ => [])
  else
    let va := (bndOf c p).va (offOf p)
    let hit := t.extents.filter fun e => e.va < va + n && va < e.va + e.len
    let ext := hit.map fun e =>
      let lo := max va e.va
      let hi := min (va + n) (e.va + e.len)
      (tgtKey e.tgt e.peer (e.pa + (lo - e.va)), tgtKey e.tgt e.peer (e.pa + (lo - e.va)) + (hi - lo))
    let gaps := hit.foldl (fun gs e => gs.flatMap fun g => [(g.1, min g.2 e.va), (max g.1 (e.va + e.len), g.2)].filter fun x => x.1 < x.2) [(va, va + n)]
    let wins := gaps.flatMap fun g => (rangeFrom (g.1 / 2 ^ 21) ((g.2 - 1) / 2 ^ 21 + 1 - g.1 / 2 ^ 21)).map fun w => (w, g)
    ext ++ wins.filterMap fun x =>
      (walkVA s t.tenant (x.1 * 2 ^ 21)).map fun r =>
        let lo := max x.2.1 (x.1 * 2 ^ 21)
        let hi := min x.2.2 ((x.1 + 1) * 2 ^ 21)
        let k := tgtKey r.2.1 r.2.2 (r.1 + lo % 2 ^ 21)
        (k, k + (hi - lo))

/-- A range that an operation registers: destination or source, which of its ranges, segments. -/
structure Rng where
  dst : Bool
  part : Nat
  segs : List (Nat × Nat)
  deriving DecidableEq, Repr

/-- The cluster whose table takes an entry (R151): a vault's own, else that of the agent. -/
def lockCl (cl : Nat) (g : List (Nat × Nat)) : Nat :=
  match g with
  | (k, _) :: _ => if isVault k then (k - 2 ^ 60) / 2 ^ 22 else cl
  | [] => cl

/-- Registers the ranges of an operation, all of them or none: none when a table of 64 entries lacks room (R178). -/
def addLocks (s : State) (cl task id : Nat) (rs : List Rng) : Option State :=
  let s' := rs.foldl (fun s r => s.modCl (lockCl cl r.segs) fun c => { c with locks := c.locks ++ [⟨id, task, r.dst, r.part, r.segs⟩] }) s
  if rs.all (fun r => (s'.cl (lockCl cl r.segs)).locks.length ≤ 64) then some s' else none

/-- Releases entries of an operation: one part, or all. -/
def dropLock (s : State) (id : Nat) (part : Option Nat) : State :=
  { s with cls := s.cls.map fun e => (e.1, { e.2 with locks := e.2.locks.filter fun l => !(l.id = id && (part = none || part = some l.part)) }) }

/-- Moves the entry of a part to other segments (R191). -/
def moveLock (s : State) (id part : Nat) (segs : List (Nat × Nat)) : State :=
  { s with cls := s.cls.map fun e => (e.1, { e.2 with locks := e.2.locks.map fun l => if l.id = id && l.part = part then { l with segs := segs } else l }) }

/-- The range from the lowest to the highest byte of an access pattern: first pointer, extents of its signed moves, bytes at each place. -/
def spanOf (p : W64) (moves : List Int) (n : Nat) : W64 × Nat :=
  let lo := moves.foldl (fun a m => a + min 0 m) 0
  let hi := moves.foldl (fun a m => a + max 0 m) 0
  (ptrAdd p lo, (hi - lo).toNat + n)

/-! Rings (R233). -/

def tagKey (r : RingObj) (k : Nat) : Nat := vaultKey r.cl (r.tbase + k)
def slotKey (r : RingObj) (k : Nat) : Nat := vaultKey r.cl (r.sbase + k * r.size)

def ringTag (s : State) (o k : Nat) : Nat := (memGet s.mem (tagKey (s.ring o) k)).toNat
def setTag (s : State) (o k v : Nat) : State := { s with mem := memSet s.mem (tagKey (s.ring o) k) (BitVec.ofNat 8 v) }

def tEMPTY : Nat := 0
def tFILLING : Nat := 1
def tFULL : Nat := 2
def tDRAINING : Nat := 3
def tPOISON : Nat := 4

/-- A slot that an engine is done with. -/
def unclaim (s : State) (o k : Nat) : State := s.setRing o { s.ring o with claimed := (s.ring o).claimed.filter (· ≠ k) }

/-- A producer's claim of the slot at PPOS: none while it is not EMPTY, or is poisoned. -/
def produce (s : State) (o : Nat) : Option (State × Nat) :=
  let r := s.ring o
  if ringTag s o r.ppos = tEMPTY then
    some (setTag (s.setRing o { r with ppos := (r.ppos + 1) % r.count, claimed := r.ppos :: r.claimed }) o r.ppos tFILLING, r.ppos)
  else none

/-- A consumer's claim of the slot at CPOS: none while it is neither FULL nor poisoned. The flag says that it is poisoned. -/
def consume (s : State) (o : Nat) : Option (State × Nat × Bool) :=
  let r := s.ring o
  let t := ringTag s o r.cpos
  if t % 4 = tFULL ∨ bitOf t 2 then
    some (s.setRing o { r with cpos := (r.cpos + 1) % r.count, claimed := r.cpos :: r.claimed }, r.cpos, bitOf t 2)
  else none

/-- The pointer to a slot of a ring, in the vault window of its task (R139). -/
def slotPtr (s : State) (o k : Nat) : W64 :=
  let r := s.ring o
  BitVec.ofNat 64 (0xFE * 2 ^ 56 + r.cl * 2 ^ 22 + (r.sbase + k * r.size - smGet 0 (s.task r.task).vbase r.cl))

/-- A handle of the executing context, and those it is an alias of. -/
def viaOf (s : State) (h : Nat) : List Nat := ringChain s chainFuel (ringKey s.cur h)

/-- An engine operation or a copy in flight names a handle or an alias of it (R234, R369). -/
def handleBusy (s : State) (k : Nat) : Bool :=
  s.cls.any (fun e => e.2.eng.q.any fun o => o.via.any (·.contains k)) || s.chans.any fun e => e.2.q.any fun c => c.via.contains k

/-- A subscription names a handle or an alias of it. -/
def handleSubbed (s : State) (k : Nat) : Bool := s.subs.any fun e => e.2.via.contains k

/-- The number of the semaphore to which an engine adds, and the addition with its error bit (R232, R238). -/
def semBump (s : State) (cid idx n : Nat) (err : Bool) : Option State :=
  (semKey s (s.ctx cid) idx).map fun k =>
    let s := if err then s.setSem k { s.sem k with e := true } else s
    semAdd s k n

end Sys2Proof.Machine
end

