-- ==== Sys2Proof/Machine/Rings.lean ====
section
/-! DEFINITION. Rings of vault slots: their definition, tags and waits (R226, R233 to R235). -/

namespace Sys2Proof.Machine

/-- Two byte ranges of a vault meet. -/
def overlaps (a n b m : Nat) : Bool := a < b + m && b < a + n

/-- Vault byte of a pointer, for n bytes on the issuing cluster (R139); none where RIDBOUND applies. -/
def ringByte (s : State) (p : W64) (n : Nat) : Option Nat :=
  let c := s.me
  let cl := bitsOf (offOf p) 29 22
  if ridOf p ≠ 0xFE ∨ (cl ≠ 0xFF ∧ cl ≠ c.cl) then none
  else
    match vaultKeys s c c.trap.pl p n with
    | some (k :: _) => some (k - vaultKey c.cl 0)
    | _ => none

/-- Handles that are aliases of one, by number. -/
def aliasesOf (s : State) (k : Nat) : List Nat :=
  s.ctxs.flatMap fun e => (e.2.rings.filter fun r => r.2 = k && ringKey e.1 r.1 ≠ k).map fun r => ringKey e.1 r.1

/-- A handle becomes undefined, with the ring that it defines; contexts that are away remember it. -/
def dropHandle (s : State) (k : Nat) : State :=
  { s with ringObjs := smDel s.ringObjs k, ctxs := s.ctxs.map fun e =>
      let away := e.2.st = .saved || e.2.trap.inSave || e.2.trap.restoring
      let c := if e.1 = k / 16 then { e.2 with rings := smDel e.2.rings (k % 16) } else e.2
      (e.1, if away && c.task = (s.ctx (k / 16)).task then { c with ringsGone := k :: c.ringsGone } else c) }

/-- A handle becomes undefined, and every alias of it (R234, R369). -/
def undefHandle : Nat → State → Nat → State
  | 0, s, _ => s
  | n + 1, s, k => (aliasesOf s k).foldl (fun s j => undefHandle n s j) (dropHandle s k)

/-- RINGDEF. -/
def execRingdef (h : BitVec 4) (q : GReg) (s : State) : R :=
  let c := s.me
  let p := s.reg q
  let tp := s.reg (q + 1)
  let x := s.reg (q + 2)
  let size := (x.extractLsb' 0 32).toNat
  let count := (x.extractLsb' 32 9).toNat
  let key := ringKey s.cur h.toNat
  .next (if !aligned p 256 then trap s fALIGN p
    else if size % 256 ≠ 0 || size < 256 || 65536 < size || count = 0 || 256 < count || x.extractLsb' 41 23 != 0#23 || s.reg (q + 3) != 0 then
      trapSub s fILLEGAL 0x22
    else
      match ringByte s p (size * count), ringByte s tp count with
      | none, _ => trap s fRIDBOUND p
      | _, none => trap s fRIDBOUND tp
      | some sb, some tb =>
        let others := s.ringObjs.filter fun r => r.1 ≠ key && r.2.cl = c.cl
        if overlaps tb count sb (size * count)
          || others.any (fun r => overlaps tb count r.2.sbase (r.2.size * r.2.count) || overlaps tb count r.2.tbase r.2.count
              || overlaps sb (size * count) r.2.tbase r.2.count) then trapSub s fILLEGAL 0x22
        else if handleSubbed s key then trapSub s fILLEGAL 0x23
        else if handleBusy s key then s.stall
        else
            let r : RingObj := { cl := c.cl, task := c.task, sbase := sb, tbase := tb, size := size, count := count, ppos := 0, cpos := 0, claimed := [] }
            let s := (List.range count).foldl (fun s k => { s with mem := memSet s.mem (tagKey r k) 0 }) (s.setRing key r)
            (s.modMe fun c => { c with rings := smSet c.rings h.toNat key }).adv)

/-- RINGDEF.SHARE. A definition that handle h has of its own is undefined first, as by RINGDEF.OFF (log 135, DESIGN CHOICE). -/
def execRingdefShare (h : BitVec 4) (ctx : BitVec 3) (hs : BitVec 4) (s : State) : R :=
  let at_ := s.sibling s.me ctx.toNat
  let o := s.ctx at_
  let own := ringKey s.cur h.toNat
  let tgt := ringKey at_ hs.toNat
  .next (if (ringOf s o hs.toNat).isSome && ctx.toNat < (s.task s.me.task).r.nctx && o.st.resident && o.task = s.me.task && o.cl = s.me.cl then
      if (ringChain s chainFuel tgt).contains own then s.adv
      else
        let put (s : State) : State := (s.modMe fun c => { c with rings := smSet c.rings h.toNat tgt }).adv
        if smFind s.me.rings h.toNat ≠ some own then put s
        else if handleBusy s own || handleSubbed s own then s.stall
        else put (undefHandle chainFuel s own)
    else trapSub s fILLEGAL 0x22)

/-- RINGDEF.OFF: what h defined goes, and with it every alias. -/
def execRingdefOff (h : BitVec 4) (s : State) : R :=
  let own := ringKey s.cur h.toNat
  .next (if (smFind s.me.rings h.toNat).isNone then s.adv
    else if handleBusy s own || handleSubbed s own then s.stall
    else (undefHandle chainFuel s own).adv)

/-- The ring and slot that a tag instruction names; else RIDBOUND with the index (R235). -/
def onSlot (s : State) (h : BitVec 4) (a : GReg) (f : Nat → Nat → State) : State :=
  let k := (s.reg a).toNat
  match ringOf s s.me h.toNat with
  | none => trap s fRIDBOUND (s.reg a)
  | some o => if (s.ring o).count ≤ k then trap s fRIDBOUND (s.reg a) else f o k

/-- RTAG. -/
def execRtag (d : GReg) (h : BitVec 4) (a : GReg) (s : State) : R :=
  .next (onSlot s h a fun o k => s.done d (BitVec.ofNat 64 (ringTag s o k)))

/-- RTAG.CAS. -/
def execRtagCas (d : GReg) (h : BitVec 4) (a b : GReg) (s : State) : R :=
  .next (onSlot s h a fun o k =>
    let v := s.reg b
    let expected := (v.extractLsb' 0 8).toNat
    let new := (v.extractLsb' 8 8).toNat
    let old := ringTag s o k
    if v.extractLsb' 16 48 != 0#48 || 8 ≤ new then trap s fILLEGAL 0
    else if (old % 4 = tFILLING || old % 4 = tDRAINING) && (s.ring o).claimed.contains k then s.done d (BitVec.ofNat 64 (old ||| 0x100))
    else if old = expected then (setTag (release s s.me.cl 3) o k new).done d (BitVec.ofNat 64 old)
    else s.done d (BitVec.ofNat 64 old))

/-- RWAIT. -/
def execRwait (d : GReg) (h : BitVec 4) (a b : GReg) (s : State) : R :=
  .next (onSlot s h a fun o k =>
    let v := s.reg b
    let t := ringTag s o k
    if t &&& (v.extractLsb' 0 8).toNat = (v.extractLsb' 8 8).toNat then waitDone ((acquire s s.me.cl 3).setReg d (BitVec.ofNat 64 t))
    else waitOn s (.tag o k (v.extractLsb' 0 8).toNat (v.extractLsb' 8 8).toNat d))

end Sys2Proof.Machine
end

