-- ==== Sys2Proof/Machine/CopyCh.lean ====
section
/-! DEFINITION. Copy templates, copy stores, the channels that perform copies, and what software does with a faulted one (R227 to R239). -/

namespace Sys2Proof.Machine

/-! Templates (R227). -/

def tNum (t : List Byte) (off n : Nat) : Nat := leNat ((t.drop off).take n)
def tInt (t : List Byte) (off n : Nat) : Int := signedOf (8 * n) (tNum t off n)

def tConv (t : List Byte) : Bool := bitOf (tNum t 0 1) 2
def tSat (t : List Byte) : Bool := bitOf (tNum t 0 1) 3

/-- Bytes of an element of a conversion's format; none for a code that CONV does not take. -/
def convSize (c : Nat) : Option Nat :=
  match c with
  | 0 | 1 => some 1
  | 0xA | 0xB => some 2
  | 0xC => some 4
  | _ => none

/-- Element sizes of the two sides. -/
def srcSize (t : List Byte) : Nat := if tConv t then (convSize (tNum t 1 1)).getD 1 else 2 ^ (tNum t 0 1 % 4)
def dstSize (t : List Byte) : Nat := if tConv t then (convSize (tNum t 2 1)).getD 1 else 2 ^ (tNum t 0 1 % 4)

def tSemidx (t : List Byte) : Nat := tNum t 3 1
def tRing (t : List Byte) : Nat := tNum t 4 1
def tSeminc (t : List Byte) : Nat := tNum t 5 1
def tSn0 (t : List Byte) : Nat := tNum t 0x08 4
def tSn1 (t : List Byte) : Nat := tNum t 0x0C 4
def tN2 (t : List Byte) : Nat := tNum t 0x10 4
def tSs1 (t : List Byte) : Int := tInt t 0x18 8
def tSs2 (t : List Byte) : Int := tInt t 0x20 8
def tDn0 (t : List Byte) : Nat := tNum t 0x28 4
def tDn1 (t : List Byte) : Nat := tNum t 0x2C 4
def tDs1 (t : List Byte) : Int := tInt t 0x30 8
def tDs2 (t : List Byte) : Int := tInt t 0x38 8

/-- A descriptor that CTPL refuses. -/
def templateBad (t : List Byte) : Bool :=
  15 < tNum t 0 1
  || (if tConv t then tNum t 0 1 % 4 ≠ 0 || (convSize (tNum t 1 1)).isNone || (convSize (tNum t 2 1)).isNone else tNum t 1 1 ≠ 0 || tNum t 2 1 ≠ 0)
  || (15 < tRing t && tRing t ≠ 0xFF)
  || (if tSemidx t = 0xFF then tSeminc t ≠ 0 else tSeminc t = 0)
  || tNum t 6 2 ≠ 0 || tNum t 0x14 4 ≠ 0
  || tSn0 t = 0 || tSn1 t = 0 || tN2 t = 0 || tDn0 t = 0 || tDn1 t = 0
  || tSn0 t * tSn1 t ≠ tDn0 t * tDn1 t
  || tSs1 t % srcSize t ≠ 0 || tSs2 t % srcSize t ≠ 0 || tDs1 t % dstSize t ≠ 0 || tDs2 t % dstSize t ≠ 0

/-- CTPL. -/
def execCtpl (idx : BitVec 8) (a : GReg) (s : State) : R :=
  let p := s.reg a
  .next (if !aligned p 64 then trap s fALIGN p
    else
      genDo s .ld polCl p 64 fun s ks =>
        let (s, t) := loadKeys s s.me.cl polCl ks
        if templateBad t then trapSub s fILLEGAL 0x21
        else (s.modTask s.me.task fun k => { k with tmpl := smSet k.tmpl idx.toNat t }).adv)

/-! The copy store (R228, R229). -/

/-- Lowest and highest offsets of a pattern of lines, planes and elements of a size: lowest, and the highest byte plus one. -/
def patternSpan (n0 n1 n2 : Nat) (s1 s2 : Int) (e : Nat) : Int × Int :=
  let a := ((n1 : Int) - 1) * s1
  let b := ((n2 : Int) - 1) * s2
  (min 0 a + min 0 b, max 0 a + max 0 b + (n0 * e : Nat))

/-- What a copy store asks for. -/
structure CopyReq where
  tidx : Nat
  flags : Nat
  count : Nat
  src : W64
  dst : W64
  rsv : Bool
  deriving DecidableEq, Repr

def CopyReq.of (ws : List W64) : CopyReq :=
  let w := ws.getD 0 0
  { tidx := (w.extractLsb' 0 8).toNat, flags := (w.extractLsb' 8 8).toNat, count := (w.extractLsb' 32 32).toNat,
    src := ws.getD 1 0, dst := ws.getD 2 0, rsv := w.extractLsb' 16 16 != 0#16 || ws.getD 3 0 != 0 }

/-- The first check of a copy store that fails (R229). -/
def copyBad (s : State) (r : CopyReq) : Option Nat :=
  match smFind (s.task s.me.task).tmpl r.tidx with
  | none => some 1
  | some t =>
    let n2 := if bitOf r.flags 0 then r.count else tN2 t
    if r.rsv || 3 < r.flags || (!bitOf r.flags 0 && r.count ≠ 0) then some 2
    else if r.src.toNat % srcSize t ≠ 0 || r.dst.toNat % dstSize t ≠ 0 then some 3
    else
      let ring := if tRing t = 0xFF then none else ringOf s s.me (tRing t)
      if tRing t ≠ 0xFF && ring.isNone then some 4
      else
        let sp := patternSpan (tDn0 t) (tDn1 t) n2 (tDs1 t) (tDs2 t) (dstSize t)
        match ring with
        | some o =>
          if n2 ≠ 0 && (r.dst.toNat + sp.1 < 0 || (s.ring o).size < r.dst.toNat + sp.2) then some 5
          else if tSemidx t ≠ 0xFF && 8 * (s.task s.me.task).r.nctx ≤ tSemidx t then some 6 else none
        | none => if tSemidx t ≠ 0xFF && 8 * (s.task s.me.task).r.nctx ≤ tSemidx t then some 6 else none

/-- A copy store to channel ch of the issuing cluster. -/
def copyStore (s : State) (ch : Nat) (ws : List W64) : State :=
  let key := 8 * s.me.cl + ch
  let c := s.chan key
  let r := CopyReq.of ws
  if 4 ≤ c.q.length ∨ (smFind (s.task s.me.task).tmpl r.tidx).any (fun t => aliasAway s (tRing t)) = true then s.stall
  else
    match copyBad s r with
    | some sub => trapSub s fCOPY sub
    | none =>
      let t := smGet [] (s.task s.me.task).tmpl r.tidx
      let (id, s) := s.fresh
      let cp : Copy := { cid := s.cur, task := s.me.task, tidx := r.tidx, tmpl := t, n2 := if bitOf r.flags 0 then r.count else tN2 t,
                         nosem := bitOf r.flags 1, lvl1 := s.me.trap.pl, src := r.src, dst := r.dst, started := false, slot := none,
                         ring := if tRing t = 0xFF then none else ringOf s s.me (tRing t),
                         via := if tRing t = 0xFF then [] else viaOf s (tRing t), elems := 0, off := 0, lock := id }
      (s.setChan key { c with q := c.q ++ [cp] }).adv

/-! Delivery (R230 to R232, R236). -/

def Copy.total (c : Copy) : Nat := c.n2 * tSn0 c.tmpl * tSn1 c.tmpl

/-- Distance of element e on a side. -/
def elemOff (n0 n1 : Nat) (s1 s2 : Int) (size e : Nat) : Int :=
  let r := e % (n0 * n1)
  ((e / (n0 * n1) : Nat) : Int) * s2 + ((r / n0 : Nat) : Int) * s1 + ((r % n0 * size : Nat) : Int)

def Copy.srcOff (c : Copy) (e : Nat) : Int := elemOff (tSn0 c.tmpl) (tSn1 c.tmpl) (tSs1 c.tmpl) (tSs2 c.tmpl) (srcSize c.tmpl) e
def Copy.dstOff (c : Copy) (e : Nat) : Int := elemOff (tDn0 c.tmpl) (tDn1 c.tmpl) (tDs1 c.tmpl) (tDs2 c.tmpl) (dstSize c.tmpl) e

def setHead (s : State) (key : Nat) (c : Copy) : State :=
  let ch := s.chan key
  s.setChan key { ch with q := c :: ch.q.tail }

/-- The ranges of a copy (R178, R230). -/
def copyRngs (s : State) (c : Copy) : List Rng :=
  if c.total = 0 then []
  else
    let t := c.tmpl
    let ss := patternSpan (tSn0 t) (tSn1 t) c.n2 (tSs1 t) (tSs2 t) (srcSize t)
    let ds := patternSpan (tDn0 t) (tDn1 t) c.n2 (tDs1 t) (tDs2 t) (dstSize t)
    let src : Rng := ⟨false, 0, segsOf s c.cid c.lvl1 (ptrAdd c.src ss.1) (ss.2 - ss.1).toNat⟩
    let dst : Rng := match c.slot with
      | some (o, k) => let b := slotKey (s.ring o) k + (c.dst.toNat + ds.1).toNat; ⟨true, 1, [(b, b + (ds.2 - ds.1).toNat)]⟩
      | none => ⟨true, 1, segsOf s c.cid c.lvl1 (ptrAdd c.dst ds.1) (ds.2 - ds.1).toNat⟩
    [src, dst]

/-- The head of a channel, unless it is faulted, stands still under a HARD halt, or is held with the owner of its ring (R369). -/
def liveHead (s : State) (key : Nat) : Option Copy :=
  let ch := s.chan key
  match ch.q with
  | c :: _ => if ch.fault.isSome || hardHeld s c.task || viaHeld s c.via then none else some c
  | [] => none

/-- COPY_START: the head claims its ring slot and registers its ranges. -/
def execCopyStart (cl ch : Nat) (s : State) : R :=
  let key := 8 * cl + ch
  .next (match liveHead s key with
    | none => s
    | some c =>
      if c.started then s
      else
        let claim : Option (State × Copy) :=
          match c.ring, c.slot with
          | some o, none => (produce s o).map fun x => (x.1, { c with slot := some (o, x.2) })
          | _, _ => some (s, c)
        match claim with
        | none => s
        | some (s, c) =>
          match addLocks s cl c.task c.lock (copyRngs s c) with
          | none => setHead s key c
          | some s' => setHead s' key { c with started := true })

/-- The address that places element e in a block of 64 bytes. -/
def beatBlock (s : State) (c : Copy) (e : Nat) : Nat :=
  match c.slot with
  | some (o, k) => (slotKey (s.ring o) k + (c.dst.toNat + c.dstOff e).toNat) / 64
  | none => (ptrAdd c.dst (c.dstOff e)).toNat / 64

/-- Elements of the beat that begins at element e. -/
def beatElems (s : State) (c : Copy) (blk : Nat) : Nat → Nat → List Nat
  | _, 0 => []
  | e, n + 1 => if beatBlock s c e = blk then e :: beatElems s c blk (e + 1) n else []

/-- An access of a copy: the capture store, the save frame and the apertures are PERM. -/
def copyAccess (s : State) (c : Copy) (k : AKind) (p : W64) (n : Nat) : ARes :=
  engAccess s c.cid c.lvl1 false k p n

/-- The elements of a beat have used their translation-cache entries. -/
def copyUsed (s : State) (c : Copy) (es : List Nat) : State :=
  es.foldl (fun s e =>
    let x := s.ctx c.cid
    let s := used s x .ld (ptrAdd c.src (c.srcOff e)) (srcSize c.tmpl)
    if c.slot.isSome then s else used s x .st (ptrAdd c.dst (c.dstOff e)) (dstSize c.tmpl)) s

/-- The value of an element on the destination side (R230). -/
def copyValue (c : Copy) (bs : List Byte) : List Byte :=
  if !tConv c.tmpl then bs
  else
    let f (n : Nat) : EFmt := (EFmt.ofCode n).getD .fp32
    leBytes (dstSize c.tmpl) (cvt (f (tNum c.tmpl 2 1)) false (tSat c.tmpl) false .rne (decodeElem (f (tNum c.tmpl 1 1)) false (leNat bs)))

/-- Delivers elements: keys of each on both sides. -/
def deliver (cl : Nat) (c : Copy) : List (List Nat × List Nat) → State → State
  | [], s => s
  | (ks, kd) :: r, s =>
    let (s, bs) := loadKeys s cl polEng ks
    deliver cl c r (storeKeys s cl polEng kd (copyValue c bs))

/-- A delivery fault (R236): the channel stops, and the issuing context takes COPY, or is saved for a page that is not present. -/
def chanFault (s : State) (key : Nat) (c : Copy) (code : Nat) (p : W64) : State :=
  let s := s.setChan key { s.chan key with fault := some (plainCode code), faddr := p }
  copyFault s c.cid (if code = fNOTPRESENT then fNOTPRESENT else fCOPY)
    (if code = fNOTPRESENT then p else fields [(8, 0), (plainCode code, 8), (key % 8, 16)]) code

/-- COPY_BEAT: the next beat of the head copy (R231). -/
def execCopyBeat (cl ch : Nat) (s : State) : R :=
  let key := 8 * cl + ch
  .next (match liveHead s key with
    | none => s
    | some c =>
      if !c.started || c.total ≤ c.elems then s
      else
        let es := beatElems s c (beatBlock s c c.elems) c.elems (c.total - c.elems)
        let src := es.map fun e => (e, copyAccess s c .ld (ptrAdd c.src (c.srcOff e)) (srcSize c.tmpl))
        let dst := es.map fun e => (e, match c.slot with
          | some (o, k) => ARes.ok (rangeFrom (slotKey (s.ring o) k + (c.dst.toNat + c.dstOff e).toNat) (dstSize c.tmpl))
          | none => copyAccess s c .st (ptrAdd c.dst (c.dstOff e)) (dstSize c.tmpl))
        match gatherRes (src ++ dst) with
        | .fault code _ p => chanFault s key c code p
        | .wait s => s
        | .ok xs =>
          let n := es.length
          let s := copyUsed s c es
          let s : State := { deliver cl c ((xs.take n).zip (xs.drop n) |>.map fun p => (p.1.2, p.2.2)) { s with cur := c.cid } with cur := s.cur }
          setHead s key { c with elems := c.elems + n, off := c.off + n * dstSize c.tmpl })

/-- Removes the head of a channel. -/
def popChan (s : State) (key : Nat) : State :=
  let ch := s.chan key
  s.setChan key { ch with q := ch.q.tail, fault := none }

/-- The semaphore of a copy, with SEMINC added; none while its owner is away (R169, R232). -/
def copySem (s : State) (c : Copy) (err : Bool) : Option State :=
  if c.nosem || tSemidx c.tmpl = 0xFF then some s else semBump s c.cid (tSemidx c.tmpl) (tSeminc c.tmpl) err

/-- COPY_COMPLETION: after the last beat, the tag, then the semaphore, then the entries (R232); while the semaphore's owner is away only the
increment is held, and what follows it (R169). -/
def execCopyCompletion (cl ch : Nat) (s : State) : R :=
  let key := 8 * cl + ch
  .next (match liveHead s key with
    | none => s
    | some c =>
      if !c.started || c.elems < c.total then s
      else
        let s1 := match c.slot with
          | some (o, k) => unclaim (setTag s o k tFULL) o k
          | none => s
        match copySem s1 c false with
        | none => if c.slot.isSome then setHead s1 key { c with slot := none } else s
        | some s2 => popChan (dropLock s2 c.lock none) key)

/-! Software and channels (R237 to R239). -/

/-- CHST. -/
def execChst (d : GReg) (c : BitVec 3) (s : State) : R := .next (s.done d (chanWord s (s.chan (8 * s.me.cl + c.toNat))))

/-- A CHRES on a faulted channel whose copy is the task's own. -/
def chres (s : State) (d : GReg) (c : BitVec 3) (f : Nat → Copy → Option State) : State :=
  let key := 8 * s.me.cl + c.toNat
  let ch := s.chan key
  let w := chanWord s ch
  match ch.fault, ch.q with
  | some _, cp :: _ =>
    if cp.task ≠ s.me.task then trap s fPERM 0
    else (match f key cp with | some s => s.done d w | none => s.stall)
  | _, _ => s.done d w

/-- CHRES.retry: the faulting beat is checked again. -/
def execChresRetry (d : GReg) (c : BitVec 3) (s : State) : R :=
  .next (chres s d c fun key _ => some (s.setChan key { s.chan key with fault := none }))

/-- CHRES.abort: the slot is EMPTY and poisoned, the semaphore has its error bit, the copy is gone. -/
def execChresAbort (d : GReg) (c : BitVec 3) (s : State) : R :=
  .next (chres s d c fun key cp =>
    let s1 := match cp.slot with
      | some (o, k) => unclaim (setTag s o k tPOISON) o k
      | none => s
    (copySem s1 cp true).map fun s2 => popChan (dropLock s2 cp.lock none) key)

/-- Channels of the executing cluster that hold copies of the task, by whether the copy is faulted. -/
def heldChans (s : State) (faulted : Bool) : Nat :=
  maskOf 8 fun k =>
    let ch := s.chan (8 * s.me.cl + k)
    ((List.range ch.q.length).zip ch.q).any fun p => p.2.task = s.me.task && ((p.1 = 0 && ch.fault.isSome) = faulted)

/-- The end of a CHDRAIN. -/
def chdrainDone (s : State) (d : GReg) : State :=
  let v := fields [(heldChans s false, 0), (heldChans s true, 8)]
  (s.modMe fun c => { c with waitAt := none }).done d v

/-- CHDRAIN. -/
def execChdrain (d : GReg) (b : GSrc) (s : State) : R :=
  let bound := (s.srcN b).toNat
  .next (if heldChans s false = 0 || bound = 0 then chdrainDone s d
    else if s.me.waitAt.isNone then s.modMe fun c => { c with waitAt := some (s.mc, bound, d) } else s.stall)

/-- CHDRAIN_BOUND: the bound of a waiting CHDRAIN elapses. -/
def execChdrainBound (s : State) : R :=
  .next (match s.me.waitAt with
    | some (t, bound, d) => if s.me.st.resident && !s.me.dbg.halted && bound ≤ s.mc - t then chdrainDone s d else s
    | none => s)

end Sys2Proof.Machine
end

