-- ==== Sys2Proof/Machine/Csr.lean ====
section
/-! DEFINITION. CSRR and CSRW (R85, R86, R88). -/

namespace Sys2Proof.Machine

/-- CSRs that lag behind the generator: FMT, VB, VL (R86). -/
def lateCsr (n : BitVec 12) : Bool := n = 0x010#12 || n = 0x011#12 || n = 0x012#12

/-- CSRR. -/
def execCsrr (d : GReg) (n : BitVec 12) (s : State) : R :=
  .next (match csrRead s s.me n.toNat with
    | none => trap s fILLEGAL 0
    | some v => if lateCsr n && !s.me.strm.idle then s.stall else s.done d v)

/-- A write of CSR n: ILLEGAL when it is unassigned or read-only, PRIV below its write level, ALIGN for a vector off a word boundary, with
the value that would have been written in CTX.TRAPINFO (log 147, DESIGN CHOICE). The word has issued before
the CSR takes its value, so that SKIP1 stands for the next word (R300). -/
def csrWrite (s : State) (d : Option GReg) (n : BitVec 12) (f : W64 → W64) : State :=
  match csrRead s s.me n.toNat, csrAcc n.toNat with
  | none, _ | _, .ro => trap s fILLEGAL 0
  | some old, acc =>
    let new := f old
    if acc = .priv && !s.me.trap.pl then trap s fPRIV 0
    else if n = 0x020#12 && !aligned new 8 then trap s fALIGN new
    else
      let s := match d with
        | some d => s.done d old
        | none => s.adv
      s.setMe (csrPut s.me n.toNat old new)

def execCsrw (n : BitVec 12) (a : GReg) (s : State) : R := .next (csrWrite s none n fun _ => s.reg a)
def execCsrwSet (d : GReg) (n : BitVec 12) (a : GReg) (s : State) : R := .next (csrWrite s (some d) n fun old => old ||| s.reg a)
def execCsrwClr (d : GReg) (n : BitVec 12) (a : GReg) (s : State) : R := .next (csrWrite s (some d) n fun old => old &&& ~~~(s.reg a))

end Sys2Proof.Machine
end

