-- ==== Sys2Proof/Machine/Digest.lean ====
section
/-! DEFINITION. SHA3-256, the digest of a portable object (R351). The 1,600 bits of a state are one bit vector, word (x, y) at bit
64 (5 y + x). -/

namespace Sys2Proof.Machine

abbrev Sponge := BitVec 1600

/-- The word at a column and a row. -/
def Sponge.word (s : Sponge) (x y : Nat) : W64 := s.extractLsb' (64 * (5 * (y % 5) + x % 5)) 64

/-- A word of a column and a row, at its place. -/
def Sponge.place (w : W64) (x y : Nat) : Sponge := w.setWidth 1600 <<< (64 * (5 * (y % 5) + x % 5))

/-- A state, word by word. -/
def Sponge.ofWords (f : Nat → Nat → W64) : Sponge :=
  (List.range 5).foldl (fun a y => (List.range 5).foldl (fun a x => a ||| Sponge.place (f x y) x y) a) 0

/-- The parity of a column. -/
def Sponge.parity (s : Sponge) (x : Nat) : W64 := (List.range 5).foldl (fun p y => p ^^^ s.word x y) 0

/-- Each word takes the parities of the two columns beside it. -/
def Sponge.mixColumns (s : Sponge) : Sponge := Sponge.ofWords fun x y => s.word x y ^^^ s.parity (x + 4) ^^^ (s.parity (x + 1)).rotateLeft 1

/-- Words move along the walk from (1, 0), each turned by the next triangular number. -/
def Sponge.scatter (s : Sponge) : Nat → Nat → Nat → Nat → Sponge → Sponge
  | 0, _, _, _, out => out
  | n + 1, t, x, y, out =>
    let y' := (2 * x + 3 * y) % 5
    Sponge.scatter s n (t + 1) y y' (out ||| Sponge.place ((s.word x y).rotateLeft (t * (t + 1) / 2 % 64)) y y')

/-- Each word takes those to the right of it in its row. -/
def Sponge.mixRows (s : Sponge) : Sponge := Sponge.ofWords fun x y => s.word x y ^^^ (~~~(s.word (x + 1) y) &&& s.word (x + 2) y)

/-- The shift register that gives the round constants. -/
def Sponge.shiftOnce (r : Nat) : Nat := let r := 2 * r; if 256 ≤ r then (r ^^^ 0x171) else r

/-- A round constant, from the register's value: bits 0, 1, 3, 7, 15, 31 and 63 in turn; and the register after it. -/
def Sponge.roundWord (r : Nat) : Nat × W64 :=
  [0, 1, 3, 7, 15, 31, 63].foldl (fun p k => (Sponge.shiftOnce p.1, p.2 ||| BitVec.ofNat 64 (p.1 % 2 * 2 ^ k))) (r, 0)

def Sponge.round (s : Sponge) (c : W64) : Sponge :=
  let m := s.mixColumns
  (Sponge.scatter m 24 1 1 0 (Sponge.place (m.word 0 0) 0 0)).mixRows ^^^ Sponge.place c 0 0

/-- Rounds, the shift register beside the state. -/
def Sponge.rounds : Nat → Nat → Sponge → Sponge
  | 0, _, s => s
  | n + 1, r, s => Sponge.rounds n (Sponge.roundWord r).1 (s.round (Sponge.roundWord r).2)

/-- Bytes are taken in, 136 at a time; the last block is closed by 06 and 80 (hexadecimal). -/
def Sponge.take : Nat → Sponge → List Byte → Sponge
  | 0, s, _ => s
  | n + 1, s, bs =>
    let here := BitVec.ofNat 1600 (leNat (bs.take 136))
    if bs.length < 136 then Sponge.rounds 24 1 (s ^^^ here ^^^ (0x06 : Sponge) <<< (8 * bs.length) ^^^ (0x80 : Sponge) <<< 1080)
    else Sponge.take n (Sponge.rounds 24 1 (s ^^^ here)) (bs.drop 136)

/-- SHA3-256 of bytes. -/
def sha3 (bs : List Byte) : List Byte := leBytes 32 (Sponge.take (bs.length / 136 + 1) 0 bs).toNat

end Sys2Proof.Machine
end

