-- ==== Sys2Proof/Machine/Emission.lean ====
section
/-! DEFINITION. Emission, team control, rakes, replay, multicast, the vote queue and DRAIN (R98 to R115). -/

namespace Sys2Proof.Machine

/-! Units of emission (R99, R108). -/

/-- Writes bits lo to lo + n - 1 of a word. -/
def putField (w : W64) (lo n : Nat) (v : W64) : W64 :=
  let m : W64 := BitVec.ofNat 64 ((2 ^ n - 1) * 2 ^ lo)
  (w &&& ~~~m) ||| ((v <<< lo) &&& m)

/-- The word of a unit that holds a hole's field: its index. The code must read zero there (R108). A unit with an XT prefix has no field for
an .i9 hole (log 158, DESIGN CHOICE). -/
def holeAt (ws : List W64) (kind : HoleKind) : Option Nat :=
  let ps := (splitPrefixes ws).1
  let n := ps.length
  let w := ws.getD n 0
  match kind with
  | .base => if takesSecond w && ws[n + 1]? = some 0#64 then some (n + 1) else none
  | .i9 =>
    if (takesXt w || wOp w = 0x94#8) && !ps.any (fun p => wOp p = opXT) && w.extractLsb' 18 9 = 0#9 then some n else none
  | .i32 => if ps.getLast? = some (1#1 ++ (0#1 ++ (opXT ++ 0#54))) then some (n - 1) else none

/-- The value of a hole in its word. -/
def holePut (kind : HoleKind) (w v : W64) : W64 :=
  match kind with
  | .base => v
  | .i9 => putField w 18 9 v
  | .i32 => putField w 22 32 v

/-- A unit with its pending holes filled; of two holes that name one field the later gives its value (log 158, DESIGN CHOICE). -/
def fillHoles (code ws : List W64) (hs : List (Nat × HoleKind × W64)) : List W64 :=
  hs.foldl (fun ws h => match holeAt code h.2.1 with | some j => ws.set j (holePut h.2.1 (ws.getD j 0) h.2.2) | none => ws) ws

/-- A vote that writes the vote queue. -/
def isQVote : Instr → Bool
  | .vvote _ _ dest _ _ => dest != .v
  | _ => false

/-- Words that are ILLEGAL for this team although their encoding is assigned: a group wider than the team (R134), and VFMT.write of an
immediate with a reserved code (R132). -/
def illegalHere (t : Team) : Instr → Bool
  | .vshfl _ _ lg _ _ _ | .vtred _ _ lg _ _ | .vtscan _ _ lg _ _ _ => t.w < 2 ^ lg.toNat
  | .vfmt 0#2 (.imm v) => fmtBad (LImm.sgn v)
  | _ => false

/-- The rake with a unit appended (R107, R108): hole fields stay zero in the rake. -/
def rakeAppend (k : Rake) (code ws : List W64) (hs : List (Nat × HoleKind × W64)) (vote : Bool) : Rake :=
  let n := k.ws.length
  { k with
    ws := k.ws ++ ws, votes := k.votes + b2n vote,
    hmask := hs.foldl (fun m h => orBit m h.1) k.hmask,
    holes := hs.foldl (fun m h => smSet m h.1 (n + (holeAt code h.2.1).getD 0 + 512 * h.2.1.code.toNat)) k.holes,
    last := hs.foldl (fun m h => smSet m h.1 h.2.2) k.last }

/-- Emits a checked unit: into every receiving stream, and into the open rake. -/
def emitUnit (s : State) (code ws : List W64) (i : Instr) : State :=
  let c := s.me
  let s := emitEnt s (.lane c.pc (fillHoles code ws c.cap.holes))
  let s := s.modMe fun c' =>
    let cap := match c'.cap.openR with
      | none => c'.cap
      | some r => { c'.cap with rakes := smSet c'.cap.rakes r (rakeAppend (smGet Rake.zero c'.cap.rakes r) code ws c.cap.holes (isQVote i)) }
    { c' with cap := { cap with holes := [], want := 0 }, strm := { c'.strm with votesOut := c'.strm.votesOut + b2n (isQVote i) } }
  s.advN ws.length

/-- LANE_UNIT_EMISSION: the checks of R48 in their order, then the waits and effects of R99. Of several causes of STRETCH in one word the
first in the order of these tests is raised (log 159, DESIGN CHOICE). -/
def execLaneUnitEmission (ws : List W64) (s : State) : R :=
  let c := s.me
  let at_ (k : Nat) : W64 := c.pc + BitVec.ofNat 64 (8 * k)
  .next (if c.trap.inSave && !c.trap.svDone then trapSub s fILLEGAL 0x43
    else
      match checkUnit s.reg ws with
      | .error (.illegalPrefix k) => trap s fILLEGAL (at_ k)
      | .error (.illegalLane k) => trap s fILLEGAL (at_ k)
      | .error .prefixMisuse => trap s fPREFIX 0
      | .error _ => trap s fILLEGAL 0
      | .ok (i, us) =>
        let code := ws.take us.length
        let k := match c.cap.openR with | some r => (smGet Rake.zero c.cap.rakes r).ws.length | none => 0
        if illegalHere c.team i then trap s fILLEGAL (at_ (splitPrefixes ws).1.length)
        else if boundClear c.team i then trap s fREGBOUND 0
        else if c.cap.holes.any (fun h => (holeAt code h.2.1).isNone) then stretch s 0x04 false
        else if isQVote i && 16 ≤ c.strm.votesOut then stretch s 0x0B false
        else if isQVote i && c.strm.mcOn then stretch s 0x0C false
        else if c.cap.openR.isSome && 512 < k + us.length then stretch s 0x07 true
        else if !roomFor s us.length then (s.modMe fun c => { c with cap := { c.cap with want := us.length } }).stall
        else emitUnit s code us i)

/-! Control entries (R103, R104). -/

/-- A word of stream control: STRETCH 0x0A inside a capture, then room for its entry. -/
def control (s : State) (e : Ctl) : State :=
  if s.me.cap.openR.isSome then stretch s 0x0A true
  else if !roomFor s 1 then s.stall
  else (emitEnt s (.ctrl e)).adv

def execTeamN (n : GSrc) (s : State) : R := .next (control s (.teamN (s.srcN n).toNat))

/-- TEAM.M: an index beyond the team's mask words raises STRETCH 0x0D. -/
def execTeamM (a : GReg) (i : GSrc) (s : State) : R :=
  let k := (s.srcN i).toNat
  .next (if s.me.cap.openR.isSome then stretch s 0x0A true
    else if s.me.team.passes ≤ k then stretch s 0x0D true
    else control s (.teamM k ((s.reg a).setWidth 32)))

/-- Whether n rows can move from c to o: o's rows adjoin above (true) or below (false) (R104). -/
def qsetSide (c o : Ctx) (n : Nat) : Option Bool :=
  if !o.st.resident || o.cl ≠ c.cl || o.slice ≠ c.slice || c.team.vl < n then none
  else if o.team.vb = c.team.vb + c.team.vl then some true
  else if o.team.vb + o.team.vl = c.team.vb then some false
  else none

/-- QSET: its entry waits in the stream, and the context waits for the entry. -/
def execQset (ctx : BitVec 3) (a : GReg) (s : State) : R :=
  let c := s.me
  let n := (s.reg a).toNat
  let t := s.sibling c ctx.toNat
  .next (if c.cap.openR.isSome then stretch s 0x0A true
    else if c.strm.mcOn then stretch s 0x0C false
    else if t = s.cur || (qsetSide c (s.ctx t) n).isNone then trap s fREGBOUND 0
    else if c.strm.ents.any isQset then s.stall
    else if !roomFor s 1 then s.stall
    else pushEnt s s.cur (.ctrl (.qset t n)))

/-- TEAM.M's mask word in a mask. -/
def putWord (w act i : Nat) (v : W32) : Nat := (act - bitsOf act (32 * i + 31) (32 * i) * 2 ^ (32 * i) + v.toNat * 2 ^ (32 * i)) % 2 ^ w

/-- Rows first to first + n - 1 of a context, whose full/empty bits must all be full. -/
def rowsFull (s : State) (c : Ctx) (first n : Nat) : Bool :=
  (List.range n).all fun j => c.quarters.all fun q => !s.isEmpty ((c.rowBase + first + j) * 4 + q)

/-- The head entry leaves. -/
def popCtl (s : State) : State := s.modMe fun c => { c with strm := { c.strm with ents := c.strm.ents.tail } }

/-- CONTROL_ENTRY_EFFECT: the entry at the head takes effect. A QSET is judged again then, as at its issue (log 160, DESIGN CHOICE). -/
def execControlEntryEffect (s : State) : R :=
  let c := s.me
  .next (match c.strm.ents with
    | .ctrl (.teamN n) :: _ => (popCtl s).modMe fun c => { c with team := c.team.withAct (fullMask (min n c.team.w)) }
    | .ctrl (.teamM i v) :: _ => (popCtl s).modMe fun c => { c with team := c.team.withAct (putWord c.team.w c.team.act i v) }
    | .ctrl .mcastOn :: _ | .ctrl .mcastOff :: _ => popCtl s
    | .ctrl (.qset t n) :: _ =>
      (match qsetSide c (s.ctx t) n with
       | none => takeTrap (popCtl s) s.cur { code := fREGBOUND, orig := 0, imp := false, acc := 0, lane := 0, info := 0, tag := none, epc := c.pc }
       | some up =>
         if !rowsFull s c (if up then c.team.vb + c.team.vl - n else c.team.vb) n then s
         else
           let s := (popCtl s).modMe fun c =>
             { c with team := { c.team with vl := c.team.vl - n, vb := if up then c.team.vb else c.team.vb + n } }
           (s.modCtx t fun o => { o with team := { o.team with vl := o.team.vl + n, vb := if up then o.team.vb - n else o.team.vb } }).adv)
    | _ => s)

/-! Capture (R107 to R110). -/

/-- An instance of a rake of the executing context is queued or in progress, here or at a follower. -/
def rakeBusy (s : State) (r : Nat) : Bool :=
  (s.cur :: followers s s.me).any fun cid => (s.ctx cid).strm.hasInst s.cur r

def execBeginS (rake : BitVec 6) (s : State) : R :=
  let r := rake.toNat
  .next (if s.me.cap.openR.isSome then stretch s 0x05 false
    else if rakeBusy s r then s.stall
    else (s.modMe fun c =>
      { c with cap := { c.cap with openR := some r, rakes := smSet c.cap.rakes r { Rake.zero with flags := 2, beginpc := c.pc } } }).adv)

def execEndS (s : State) : R :=
  .next (match s.me.cap.openR with
    | none => stretch s 0x06 false
    | some r =>
      let k := smGet Rake.zero s.me.cap.rakes r
      if k.ws.isEmpty then stretch s 0x06 true
      else (s.modMe fun c => { c with cap := { c.cap with openR := none, rakes := smSet c.cap.rakes r { k with flags := 1 } } }).adv)

/-- HOLE: one more pending hole for the next unit. -/
def execHole (k : BitVec 3) (kind : HoleKind) (v : GSrc) (s : State) : R :=
  let n := k.toNat
  .next (match s.me.cap.openR with
    | none => stretch s 0x01 false
    | some r =>
      if bitOf (smGet Rake.zero s.me.cap.rakes r).hmask n || s.me.cap.holes.any (fun h => h.1 = n) then stretch s 0x02 false
      else (s.modMe fun c => { c with cap := { c.cap with holes := c.cap.holes ++ [(n, kind, s.src v)] } }).adv)

/-- REPLAY and REPLAYI (R109): value k of a hole is f k. -/
def replay (s : State) (r : Nat) (a : GReg) (f : Rake → Nat → W64) : State :=
  let c := s.me
  let k := smGet Rake.zero c.cap.rakes r
  let hs := (List.range 8).filter (bitOf k.hmask)
  if c.cap.openR.isSome then stretch s 0x0A true
  else if k.flags ≠ 1 then stretch s 0x08 false
  else if hs.any (fun j => 31 < a.toNat + j) then stretch s 0x09 false
  else if 16 < c.strm.votesOut + k.votes then stretch s 0x0B false
  else if c.strm.mcOn && k.votes ≠ 0 then stretch s 0x0C false
  else if !roomFor s 1 then s.stall
  else
    let vs := hs.map fun j => (j, f k j)
    let s := emitEnt s (.inst s.cur r c.strm.instCount 0 vs)
    (s.modMe fun c =>
      { c with cap := { c.cap with rakes := smSet c.cap.rakes r { k with last := vs.foldl (fun m e => smSet m e.1 e.2) k.last } },
               strm := { c.strm with instCount := (c.strm.instCount + 1) % 2 ^ 30, votesOut := c.strm.votesOut + k.votes } }).adv

def execReplay (rake : BitVec 6) (a : GReg) (s : State) : R :=
  .next (replay s rake.toNat a fun _ j => s.reg (BitVec.ofNat 5 (a.toNat + j)))
def execReplayi (rake : BitVec 6) (a : GReg) (s : State) : R :=
  .next (replay s rake.toNat a fun k j => smGet 0 k.last j + s.reg (BitVec.ofNat 5 (a.toNat + j)))

/-- Words of the unit at the start of a list. -/
def unitLen (ws : List W64) : Nat :=
  let n := (splitPrefixes ws).1.length
  n + 1 + b2n (takesSecond (ws.getD n 0))

/-- The words of an instance from w on, with the values of the rake's holes in place. A record of the stream part has a value for every
hole number (R287); only those of HMASK are holes (R109). -/
def instUnit (k : Rake) (w : Nat) (vs : List (Nat × W64)) : List W64 :=
  let n := unitLen (k.ws.drop w)
  (vs.filter fun e => bitOf k.hmask e.1).foldl (fun us e =>
    let h := smGet 0 k.holes e.1
    let j := h % 512
    if w ≤ j && j < w + n then
      us.set (j - w) (holePut (match h / 512 with | 0 => .base | 1 => .i9 | _ => .i32) (us.getD (j - w) 0) e.2)
    else us) ((k.ws.drop w).take n)

/-- The stream tag of a word of an instance (R100). -/
def instTag (num w r : Nat) : W64 := fields [(1, 0), (r, 3), (w, 9), (num, 18)]

/-- A unit of an instance is presented to the slice: SKIP1 clears itself (R300), and REGBOUND is checked. -/
def present (s : State) (tag : W64) (us : List W64) : State :=
  let s := s.modMe fun c => { c with dbg := { c.dbg with skip1 := false } }
  if (decodeUnit us).any (boundClear s.me.team) then laneFault s { code := fREGBOUND, info := 0, lane := 0, acc := 0, tag := tag }
  else s.modMe fun c => { c with strm := { c.strm with pres := some (tag, us) } }

/-- REPLAY_INSTANCE_EXPANSION: the next unit of the instance at the head is presented, checked for comparators and REGBOUND; the first of
an instance not once PREEMPT is posted (R365). -/
def execReplayInstanceExpansion (s : State) : R :=
  let c := s.me
  .next (match c.strm.pres, c.strm.ents with
    | none, .inst l r num w vs :: _ =>
      if w = 0 && c.trap.preempt.isSome && !mayStart c then s else
      let k := smGet Rake.zero (s.ctx l).cap.rakes r
      let us := instUnit k w vs
      let tag := instTag num w r
      match (List.range us.length).findSome? (fun j => brkMatch c.dbg true (instTag num (w + j) r)) with
      | some b =>
        if !brkHalts c then laneFault s { code := fBRK, info := BitVec.ofNat 64 b, lane := 0, acc := 0, tag := tag }
        else if c.trap.intrap then present (holdBrk s b) tag us
        else haltNow s s.cur (fBRK + 256 * b) false
      | none => present s tag us
    | _, _ => s)

/-- The rakes in a list lose their validity. -/
def dropRakes (c : Ctx) (rs : List Nat) : Ctx :=
  { c with cap := { c.cap with rakes := rs.foldl (fun m r => smSet m r { smGet Rake.zero m r with flags := 0 }) c.cap.rakes } }

def execDropS (rake : BitVec 6) (s : State) : R :=
  let r := rake.toNat
  .next (if s.me.cap.openR = some r then stretch s 0x0A true
    else if rakeBusy s r then s.stall
    else (s.modMe fun c => if (smGet Rake.zero c.cap.rakes r).flags = 1 then dropRakes c [r] else c).adv)

def execDropSAll (s : State) : R :=
  let rs := (s.me.cap.rakes.map (·.1)).filter fun r => s.me.cap.openR ≠ some r
  .next (if rs.any (rakeBusy s) then s.stall else (s.modMe fun c => dropRakes c rs).adv)

/-! Multicast (R112). -/

/-- MCAST.ON: at the leader of a group. One while ON is in force is an entry for the group like any other. -/
def execMcastOn (s : State) : R :=
  let c := s.me
  .next (if c.cap.openR.isSome then stretch s 0x0A true
    else if c.gsize = 1 then s.adv
    else if c.gpos ≠ 0 then stretch s 0x0C false
    else if !roomFor s 1 then s.stall
    else ((emitEnt s (.ctrl .mcastOn)).modMe fun c => { c with strm := { c.strm with mcOn := true } }).adv)

/-- A follower's RECV completes: its PC moves past the RECV. -/
def recvDone (s : State) (cid : Nat) : State :=
  s.modCtx cid fun c => { c with pc := c.pc + 8, strm := { c.strm with mcRecv := false }, dbg := { c.dbg with skip1 := false } }

/-- MCAST.OFF: its entry goes to the group, and every RECV completes. -/
def execMcastOff (s : State) : R :=
  let c := s.me
  .next (if c.cap.openR.isSome then stretch s 0x0A true
    else if !c.strm.mcOn then s.adv
    else if !roomFor s 1 then s.stall
    else
      let s := emitEnt s (.ctrl .mcastOff)
      let s := (followers s c).foldl recvDone s
      (s.modMe fun c => { c with strm := { c.strm with mcOn := false } }).adv)

/-- MCAST.RECV: the context accepts the leader's entries until the OFF entry arrives. -/
def execMcastRecv (s : State) : R :=
  let c := s.me
  .next (if c.cap.openR.isSome then stretch s 0x0A true
    else if c.gpos = 0 || c.gsize = 1 then stretch s 0x0C false
    else s.modMe fun c => { c with strm := { c.strm with mcRecv := true } })

/-! Votes and DRAIN (R113, R114). -/

/-- The oldest result leaves the vote queue. -/
def popVote (s : State) : State :=
  s.modMe fun c => { c with strm := { c.strm with voteQ := c.strm.voteQ.tail, votesOut := c.strm.votesOut - 1 } }

def execVqpop (d : GReg) (s : State) : R :=
  .next (if s.me.strm.votesOut = 0 then stretch s 0x0B false
    else
      match s.me.strm.voteQ with
      | v :: _ => waitDone ((popVote s).setReg d v)
      | [] => waitOn s .vote)

def execVqtry (d : GReg) (s : State) : R :=
  .next (match s.me.strm.voteQ with
    | v :: _ => (popVote s).done d v
    | [] => s.done d (BitVec.allOnes 64))

/-- DRAIN: every earlier entry has left, every row is full, every access is performed. -/
def execDrain (s : State) : R := .next (if drained s.me then s.adv else s.stall)

end Sys2Proof.Machine
end

