-- ==== Sys2Proof/Machine/Engine.lean ====
section
/-! DEFINITION. The matrix engine: ownership, queue and pipes, operands, loops and their side path, and the completion of operations
(R180 to R202). -/

namespace Sys2Proof.Machine

/-! Ownership and queue (R180). -/

/-- A matrix instruction: the task takes a free engine; the engine of another task leaves the context not ready. -/
def withEng (s : State) (f : State → State) : State :=
  match (s.eng s.me.cl).owner with
  | some t => if t = s.me.task then f s else s.stall
  | none => f (s.setEng s.me.cl { Eng.reset with owner := some s.me.task })

def myEng (s : State) : Eng := s.eng s.me.cl

/-- Room for one more entry; else the context is not ready. -/
def withRoom (s : State) (f : State → State) : State := if 16 ≤ (myEng s).q.length then s.stall else f s

/-- Puts an operation of the executing context in the queue with its range-lock entries, and moves past its word; without room in a
table the context waits (R178). -/
def enqueueWith (upd : Eng → Eng) (post : State → State) (s : State) (k : EOpK) (rs : List Rng) (via : List (List Nat) := []) : State :=
  let (id, s1) := s.fresh
  match addLocks s1 s.me.cl s.me.task id rs with
  | none => s.stall
  | some s2 =>
    let e := myEng s2
    let o : EOp := { k := k, cid := s.cur, id := id, lvl1 := s.me.trap.pl, running := false, begun := false, sa := none, sb := none,
                     blk := none, via := via,
                     ovr := s.me.trap.inSave && (e.stopped || e.faulted) }
    (post (s2.setEng s.me.cl { upd e with q := e.q ++ [o] })).adv

def enqueue (s : State) (k : EOpK) (rs : List Rng) (via : List (List Nat) := []) : State := enqueueWith id id s k rs via

/-- The team's FMT, for an operation that captures it: as CSRR of CTX.FMT, it waits for the stream (R86, R185). -/
def withFmt (s : State) (f : W32 → State) : State := if s.me.strm.idle then f s.me.team.fmt else s.stall

/-! Tiles of an operation, and the two pipes (R190). -/

/-- The drain pipe's operations. -/
def EOpK.drains : EOpK → Bool
  | .mstt .. | .mmovtOut .. | .mdrain .. => true
  | _ => false

def descKind (d : OpDesc) : Nat := (d.q3.extractLsb' 4 2).toNat
def descFmtc (d : OpDesc) : Nat := (d.q3.extractLsb' 0 4).toNat
def descTrans (d : OpDesc) : Bool := d.q3.getLsbD 6
def descScl (d : OpDesc) : Bool := d.q3.getLsbD 7
def descTile (d : OpDesc) : Nat := (d.base.extractLsb' 0 3).toNat

/-- Tiles that a KIND 1 operand reads over n steps; none for a ring or memory. -/
def opTiles (d : OpDesc) (ring : Option Nat) (n : Nat) : List Nat :=
  if descKind d = 1 ∧ ring = none then (List.range 8).filter fun t => descTile d ≤ t && t < descTile d + n else []

def EOpK.writes : EOpK → List Nat
  | .mzero m => (List.range 8).filter (bitOf m)
  | .mloop z .. | .mtile _ z .. | .mmovtIn z _ | .spx z .. => [z]
  | .mdrain z clr .. => if clr then [z] else []
  | .mstt .. | .mmovtOut .. => []

def EOpK.reads : EOpK → List Nat
  | .mzero _ | .mtile .. | .mmovtIn .. => []
  | .mloop z n _ a b _ _ ra rb => z :: (opTiles a ra n ++ opTiles b rb n)
  | .mstt _ z .. | .mmovtOut z .. | .mdrain z .. => [z]
  | .spx z _ hdr _ b _ => z :: opTiles b none (leNat ((hdr.drop 4).take 2))

def meets (xs ys : List Nat) : Bool := xs.any ys.contains

/-- An operation waits for an earlier one that writes a tile it touches, or reads a tile it writes. -/
def EOpK.after (o e : EOpK) : Bool := meets e.writes (o.reads ++ o.writes) || meets e.reads o.writes

/-- The operation a pipe performs now, given the earlier ones. -/
def pipeHead (e : Eng) (drain : Bool) : List EOp → List EOp → Option EOp
  | _, [] => none
  | pre, o :: r =>
    if o.k.drains = drain then
      (if pre.any (fun x => x.k.drains ≠ drain && o.k.after x.k) then none
       else if e.stopped || (e.faulted && !o.running) then none else some o)
    else pipeHead e drain (pre ++ [o]) r

/-- The operation a pipe performs now: one that passes a held queue, or the oldest of the pipe. -/
def activeOp (e : Eng) (drain : Bool) : Option EOp :=
  match e.q.find? (fun o => o.ovr && o.k.drains = drain) with
  | some o => some o
  | none => pipeHead e drain [] e.q

/-- The operation of a pipe of a cluster's engine; a HARD halt of the owner holds it (R301), and so does a ring whose owner is away (R369). -/
def engOp (s : State) (cl : Nat) (drain : Bool) : Option EOp :=
  if ((s.eng cl).owner).any (hardHeld s) then none else (activeOp (s.eng cl) drain).filter fun o => !o.via.any (viaHeld s)

/-- An operation as it stands in the queue. -/
def opNow (s : State) (cl : Nat) (o : EOp) : EOp := ((s.eng cl).q.find? fun x => x.id = o.id).getD o

/-- Changes the record of one operation. -/
def setOp (s : State) (cl : Nat) (o : EOp) : State := s.modEng cl fun e => { e with q := e.q.map fun x => if x.id = o.id then o else x }

/-! Operands (R181 to R183, R187). -/

/-- Bytes of a tile. -/
def tileByte (e : Eng) (z b : Nat) : Byte :=
  BitVec.ofNat 8 ((smGet (0 : W48) e.tiles (z * 1024 + b / 6)).toNat / 2 ^ (8 * (b % 6)))

/-- Sets every element of a tile from 6,144 bytes. -/
def tileSet (e : Eng) (z : Nat) (bs : List Byte) : Eng :=
  { e with tiles := ((List.range 1024).foldl (fun (a : SMap W48 × List Byte) k =>
      (smSet a.1 (z * 1024 + k) (BitVec.ofNat 48 (leNat (a.2.take 6))), a.2.drop 6)) (e.tiles, bs)).1 }

def tileElem (e : Eng) (z i j : Nat) : W48 := smGet (0 : W48) e.tiles (z * 1024 + 32 * i + j)

/-- Elements of a byte line at a width of w bits. -/
def splitBits (w : Nat) (bs : List Byte) : List Nat :=
  let n := leNat bs
  (List.range (8 * bs.length / w)).map fun k => n / 2 ^ (w * k) % 2 ^ w

/-- Line i of a tile operand, through the row port or the column port (R182). -/
def tileLine (e : Eng) (z i w : Nat) (col : Bool) : List Nat :=
  if !col then splitBits w ((List.range 192).map fun b => tileByte e z (192 * i + b))
  else (List.range (1536 / w)).map fun k =>
    let n := leNat ((List.range (4 * w)).map fun b => tileByte e z (4 * w * k + b))
    n / 2 ^ (w * i) % 2 ^ w

def fmtOfDesc (d : OpDesc) : EFmt := (EFmt.ofCode (descFmtc d)).getD .s8

/-- Scale bytes of a line (R183). -/
def scaleBytes (f : EFmt) : Nat := 48 / f.width

/-- Bytes of a step in a ring slot, and steps per slot (R187). -/
def stepBytes (d : OpDesc) : Nat := 6144 + (if descScl d then 32 * scaleBytes (fmtOfDesc d) else 0)
def slotSteps (size : Nat) (d : OpDesc) : Nat := size / stepBytes d

/-- Elements with their block scales (R55, R60): subnormal codes read as zeros when flush is set. -/
def withScales (f : EFmt) (fc flush : Bool) : Nat → List Nat → List Byte → List FV
  | _, [], _ => []
  | k, c :: cs, sc =>
    let v := readElem f fc flush c
    (match sc[k / 32]? with | some b => scaleElem b.toNat v | none => v) :: withScales f fc flush (k + 1) cs sc

/-- FTZ or DAZ (R60). -/
def fmtFlush (f : W32) : Bool := fmtFtz f || fmtDaz f

/-- Line i of an operand at step st: decoded elements. -/
def operandLine (s : State) (cl : Nat) (o : EOp) (d : OpDesc) (ring slot : Option Nat) (f : W32) (st i : Nat) : ERes (List FV) :=
  let ef := fmtOfDesc d
  let nb := scaleBytes ef
  let fin (s : State) (es : List Nat) (sc : List Byte) : ERes (List FV) := .ok s (withScales ef (fmtFc f) (fmtFlush f) 0 es sc)
  match ring, slot with
  | some r, some k =>
    let p := slotPtr s r k
    let base := slotKey (s.ring r) k + (st % max 1 (slotSteps (s.ring r).size d)) * stepBytes d
    let rd (off n : Nat) : List Byte := (rangeFrom (base + off) n).map (memGet s.mem)
    if (rangeFrom (base + 192 * i) 192 ++ (if descScl d then rangeFrom (base + 6144 + i * nb) nb else [])).any s.ecc.contains then .fault fECC p
    else fin s (splitBits ef.width (rd (192 * i) 192)) (if descScl d then rd (6144 + i * nb) nb else [])
  | some _, none => .wait s
  | none, _ =>
    let scl (s : State) (es : List Nat) : ERes (List FV) :=
      if descScl d then
        (engRead s o.cid o.lvl1 false (ptrAdd d.q2 (i * sfield d.q3 8 16 + st * sfield d.q3 24 16)) nb).bind fun s sc => fin s es sc
      else fin s es []
    if descKind d = 1 then scl s (tileLine (s.eng cl) (descTile d + st) i ef.width (descTrans d))
    else (engRead s o.cid o.lvl1 false (ptrAdd d.base (i * sfield d.q1 0 32 + st * sfield d.q1 32 32)) 192).bind fun s bs => scl s (splitBits ef.width bs)

/-- All 32 lines of an operand at a step. -/
def operandLines (s : State) (cl : Nat) (o : EOp) (d : OpDesc) (ring slot : Option Nat) (f : W32) (st : Nat) : List Nat → ERes (List (List FV))
  | [] => .ok s []
  | i :: is => (operandLine s cl o d ring slot f st i).bind fun s l => (operandLines s cl o d ring slot f st is).bind fun s ls => .ok s (l :: ls)

/-- One row of a K-step into row i of tile z (R62). -/
def rowStep (e : Eng) (z i : Nat) (f : W32) (a : List FV) (b : List (List FV)) : Eng :=
  { e with tiles := ((List.range 32).zip b).foldl (fun m p => smSet m (z * 1024 + 32 * i + p.1)
      (kstep (fmtSat f) (tileElem e z i p.1) (a.zip p.2))) e.tiles }

/-- Where a pipe stops at a fault or waits for a walk. -/
def ERes.pipe {α : Type} (r : ERes α) (s : State) (cl : Nat) (o : EOp) (row : Nat) (f : State → α → State) : State :=
  match r with
  | .ok s v => f s v
  | .fault c i => engFault s cl o c row i
  | .wait s => s

def setProg (s : State) (cl : Nat) (r : RowProg) : State := s.modEng cl fun e => { e with rp := r }

/-- The rows of a main step (R186): line reads A's line i. -/
def mainRows (cl : Nat) (o : EOp) (z st : Nat) (f : W32) (b : List (List FV)) (line : State → Nat → ERes (List FV)) (fin : State → State) :
    List Nat → State → State
  | [], s => fin s
  | i :: is, s =>
    (line s i).pipe (setProg s cl ⟨st, 0, false, i⟩) cl o i fun s a =>
      mainRows cl o z st f b line fin is (setProg (s.modEng cl fun e => rowStep e z i f a b) cl ⟨st, 0, false, i + 1⟩)

/-! The adapter side path (R199 to R201). -/

/-- Fields of an adapter entry. -/
def adDown (en : List Byte) : W64 := BitVec.ofNat 64 (leNat (en.take 8))
def adUp (en : List Byte) : W64 := BitVec.ofNat 64 (leNat ((en.drop 8).take 8))
def adDstride (en : List Byte) : Nat := leNat ((en.drop 16).take 4)
def adUstride (en : List Byte) : Nat := leNat ((en.drop 20).take 4)
def adRank (en : List Byte) : Nat := 8 * 2 ^ (en.getD 24 0).toNat
def adDfmt (en : List Byte) : Nat := (en.getD 25 0).toNat
def adUfmt (en : List Byte) : Nat := (en.getD 26 0).toNat
def adScale (en : List Byte) : W32 := BitVec.ofNat 32 (leNat ((en.drop 28).take 4))

/-- An entry with RANK above 3 or a reserved byte that is not zero (R201). -/
def adBad (en : List Byte) : Bool := 3 < (en.getD 24 0).toNat || en.getD 27 0 != 0 || (en.drop 32).any (· != 0)

def adNone : Nat := 0xFFFFFFFF

/-- Distinct ids among the rows, ascending. -/
def adIds (tags : List Nat) : List Nat := (tags.foldl (fun (m : SMap Nat) t => if t = adNone then m else smSet m t 0) []).map (·.1)

/-- The binding quad of a loop. -/
def quadDesc (ad : List W64) : OpDesc := ⟨ad.getD 0 0, ad.getD 1 0, ad.getD 2 0, ad.getD 3 0⟩

/-- Reads the entries of ids. -/
def readEnts (cid : Nat) (lvl1 : Bool) (table : W64) : List Nat → State → ERes (SMap (List Byte))
  | [], s => .ok s []
  | a :: r, s =>
    (engRead s cid lvl1 false (ptrAdd table (64 * a : Nat)) 64).bind fun s en =>
      (readEnts cid lvl1 table r s).bind fun s m => .ok s (smSet m a en)

/-- Reads the row tags and the entries of a binding (R199). -/
def readAdapters (s : State) (cid : Nat) (lvl1 : Bool) (q : OpDesc) : ERes (List Nat × SMap (List Byte)) :=
  (engRead s cid lvl1 false q.q1 128).bind fun s bs =>
    let tags := (List.range 32).map fun i => leNat ((bs.drop (4 * i)).take 4)
    (readEnts cid lvl1 q.base ((adIds tags).filter fun a => decide (a < (q.q2.extractLsb' 0 32).toNat)) s).bind fun s m => .ok s (tags, m)

/-- The first row whose tag or entry fails, with its subcode (R201). -/
def adCheck (count : Nat) (tags : List Nat) (m : SMap (List Byte)) : Option (Nat × Nat) :=
  ((List.range 32).zip tags).findSome? fun p =>
    if p.2 = adNone then none
    else if count ≤ p.2 then some (p.1, 4)
    else if adBad (smGet [] m p.2) then some (p.1, 5) else none

/-- Side steps of a step, in order (R200): adapter and its part c. -/
def sideList (tags : List Nat) (m : SMap (List Byte)) : List (Nat × Nat) :=
  (adIds tags).flatMap fun a => (List.range (ceilDiv (adRank (smGet [] m a)) 32)).map fun c => (a, c)

/-- The ring slots a loop gives back after a step: those it has read for the last time (R187). -/
def ringDone (s : State) (o : EOp) (part : Nat) (d : OpDesc) (ring slot : Option Nat) (st n : Nat) : State × Option Nat :=
  match ring, slot with
  | some r, some k =>
    if (st + 1) % max 1 (slotSteps (s.ring r).size d) = 0 ∨ st + 1 = n then
      (let s := unclaim (setTag s r k tEMPTY) r k
       (moveLock s o.id part [(slotKey (s.ring r) (s.ring r).cpos, slotKey (s.ring r) (s.ring r).cpos + (s.ring r).size)], none))
    else (s, slot)
  | _, _ => (s, none)

/-- A loop's slot for its step: held already, or claimed now; none while the ring has no slot for it. The flag says poison. -/
def ringSlot (s : State) (o : EOp) (part : Nat) (ring slot : Option Nat) : Option (State × Option Nat × Bool) :=
  match ring with
  | none => some (s, none, false)
  | some r =>
    match slot with
    | some k => let t := ringTag s r k; if bitOf t 2 then some (s, some k, true) else if t % 4 = tFULL then some (s, some k, false) else none
    | none => (consume s r).map fun x => (moveLock x.1 o.id part [(slotKey (s.ring r) x.2.1, slotKey (s.ring r) x.2.1 + (s.ring r).size)], some x.2.1, x.2.2)

/-- Both slots of a loop's step are there: f gets them. A slot that is not FULL is waited for; a poisoned one is COPY (R187). -/
def ringsReady (s : State) (cl : Nat) (o : EOp) (ra rb : Option Nat) (f : State → EOp → State) : State :=
  match ringSlot s o 0 ra o.sa with
  | none => s
  | some (s, ka, pa) =>
    let o := { o with sa := ka }
    let s := setOp s cl o
    if pa then engFault s cl o fCOPY (s.eng cl).rp.row (slotPtr s (ra.getD 0) (ka.getD 0))
    else
      match ringSlot s o 2 rb o.sb with
      | none => s
      | some (s, kb, pb) =>
        let o := { o with sb := kb }
        let s := setOp s cl o
        if pb then engFault s cl o fCOPY (s.eng cl).rp.row (slotPtr s (rb.getD 0) (kb.getD 0)) else f s o

/-- After the main step: B's slot; A's, when no side step follows. -/
def mainDone (s : State) (cl : Nat) (o : EOp) (st n : Nat) (adp : Bool) (a b : OpDesc) (ra rb : Option Nat) : State :=
  let (s, kb) := ringDone s o 2 b rb o.sb st n
  let (s, ka) := if adp then (s, o.sa) else ringDone s o 0 a ra o.sa st n
  let s := setOp s cl { o with sa := ka, sb := kb }
  if st + 1 = n then
    (let s := dropLock (dropLock s o.id (some 2)) o.id (some 3)
     if adp then s else dropLock s o.id none)
  else s

/-- An entry's Down format that is not of a width (R188, code 0x04). -/
def downBad (w : Nat) (en : List Byte) : Bool :=
  match EFmt.ofCode (adDfmt en) with | some f => f.width ≠ w || 12 ≤ adDfmt en | none => true

/-- A loop into tile z with A of a width starts, or starts again: with ADP it reads its tags and entries, and T is pending (R199, R200). An
entry whose Down format has another width by now stops it as its issue would have (log 37, DESIGN CHOICE). -/
def beginLoop (s : State) (cl : Nat) (o : EOp) (z w : Nat) (adp : Bool) (ad : List W64) (f : State → EOp → State) : State :=
  let o' := { o with running := true, begun := true }
  if o.begun then f s o
  else if !adp then f (setOp s cl o') o'
  else
    let q := quadDesc ad
    (readAdapters s o.cid o.lvl1 q).pipe s cl o 0 fun s x =>
      match adCheck (q.q2.extractLsb' 0 32).toNat x.1 x.2 with
      | some (row, sub) => engFault s cl o fADAPTER row (BitVec.ofNat 64 sub)
      | none =>
        if x.2.any fun en => downBad w en.2 then engFault s cl o fILLEGAL 0 4
        else f (setOp (s.modEng cl fun e => { e with adTags := x.1, adEnts := x.2, adC0 := (q.q2.extractLsb' 32 32).toNat, adpend := true, adtile := z }) cl o') o'

/-- The main step of a loop at the head of the step pipe (R186). -/
def loopStep (s : State) (cl : Nat) (o : EOp) (z n : Nat) (adp : Bool) (a b : OpDesc) (f : W32) (ad : List W64) (ra rb : Option Nat) : State :=
  let r := (s.eng cl).rp
  if n ≤ r.step ∨ r.side then s
  else
    beginLoop s cl o z (fmtOfDesc a).width adp ad fun s o =>
      ringsReady s cl o ra rb fun s o =>
        (operandLines s cl o b rb o.sb f r.step (List.range 32)).pipe s cl o r.row fun s bl =>
          mainRows cl o z r.step f bl (fun s i => operandLine s cl o a ra o.sa f r.step i)
            (fun s =>
              let s := mainDone s cl o r.step n adp a b ra rb
              let e := s.eng cl
              if adp && !(sideList e.adTags e.adEnts).isEmpty then setProg s cl ⟨r.step, 0, true, 0⟩
              else
                let s := if adp then (let o := opNow s cl o; let x := ringDone s o 0 a ra o.sa r.step n; setOp x.1 cl { o with sa := x.2 }) else s
                let s := if r.step + 1 = n then dropLock s o.id none else s
                setProg s cl ⟨r.step + 1, 0, false, 0⟩)
            (rangeFrom r.row (32 - r.row)) s

/-- Down lines of one side step. -/
def downLines (cid : Nat) (lvl1 : Bool) (en : List Byte) (f : W32) (st : Nat) : List Nat → State → ERes (List (Nat × List FV))
  | [], s => .ok s []
  | m :: ms, s =>
    let ef := (EFmt.ofCode (adDfmt en)).getD .s8
    (engRead s cid lvl1 false (ptrAdd (adDown en) (m * adDstride en + st * 192 : Nat)) 192).bind fun s bs =>
      (downLines cid lvl1 en f st ms s).bind fun s r => .ok s ((m, withScales ef (fmtFc f) (fmtFlush f) 0 (splitBits ef.width bs) []) :: r)

/-- The rows of one side step (R200). -/
def sideRows (cl : Nat) (o : EOp) (f : W32) (dl : List (Nat × List FV)) (line : State → Nat → ERes (List FV)) (fin : State → State) :
    List Nat → State → State
  | [], s => fin s
  | i :: is, s =>
    (line s i).pipe s cl o 0 fun s a =>
      sideRows cl o f dl line fin is (s.modEng cl fun e =>
        { e with side := dl.foldl (fun m p => smSet m (64 * i + p.1) (kstep (fmtSat f) (smGet (0 : W48) e.side (64 * i + p.1)) (a.zip p.2))) e.side })

/-- One side step of a loop (R200). A fault leaves the rows of T as they were. -/
def loopSide (s : State) (cl : Nat) (o : EOp) (z n : Nat) (a : OpDesc) (f : W32) (ad : List W64) (ra : Option Nat) : State :=
  let r := (s.eng cl).rp
  if n ≤ r.step ∨ !r.side then s
  else
    beginLoop s cl o z (fmtOfDesc a).width true ad fun s o =>
      let e := s.eng cl
      let xs := sideList e.adTags e.adEnts
      match xs[r.sidx]? with
      | none => setProg s cl ⟨r.step + 1, 0, false, 0⟩
      | some (id, c) =>
        let en := smGet [] e.adEnts id
        let ms := (rangeFrom (32 * c) 32).filter fun m => decide (m < adRank en)
        let st := (quadDesc ad).q3.toNat + r.step
        (downLines o.cid o.lvl1 en f st ms s).pipe s cl o 0 fun s dl =>
          let rows := ((List.range 32).zip e.adTags).filterMap fun p => if p.2 = id then some p.1 else none
          let keep := e.side
          let done := sideRows cl o f dl (fun s i => operandLine s cl o a ra o.sa f r.step i)
            (fun s =>
              if r.sidx + 1 < xs.length then setProg s cl ⟨r.step, r.sidx + 1, true, 0⟩
              else
                let (s, ka) := ringDone s o 0 a ra o.sa r.step n
                let s := setOp s cl { o with sa := ka }
                let s := if r.step + 1 = n then dropLock s o.id none else s
                setProg s cl ⟨r.step + 1, 0, false, 0⟩) rows s
          if (done.eng cl).rp = r then done.modEng cl fun e => { e with side := keep } else done

/-! Completion (R180). -/

/-- Removes an operation that has completed, with its entries. -/
def finishOp (s : State) (cl : Nat) (o : EOp) : State :=
  let s := dropLock s o.id none
  s.modEng cl fun e =>
    { e with q := e.q.filter (fun x => x.id ≠ o.id),
             rp := if o.k.drains then e.rp else RowProg.zero, drow := if o.k.drains && !o.ovr then 0 else e.drow }

/-- Side-path values of tile z end, with the tags and entries they come from; a loop that is still to come keeps the tile its own (R184, R200). -/
def clearSide (e : Eng) (z : Nat) : Eng :=
  if e.adpend && e.adtile = z then
    { e with side := [], adTags := [], adEnts := [], adpend := e.q.any fun o => match o.k with | .mloop z' _ true .. => z' = z && !o.begun | _ => false }
  else e

/-- MZERO, performed (R184). -/
def zeroTiles (e : Eng) (mask : Nat) : Eng :=
  let zs := (List.range 8).filter (bitOf mask)
  zs.foldl clearSide { e with tiles := e.tiles.filter fun p => !zs.contains (p.1 / 1024) }

/-- Lines and bytes of a layout (R194). -/
def layDims : TLay → Nat × Nat
  | .l32x192 => (32, 192) | .l96x64 => (96, 64) | .l192x32 => (192, 32) | .l256x24 => (256, 24) | .l384x16 => (384, 16) | .w48 => (32, 256)

/-- The row of a tile in which line k of a layout stands. -/
def layRow (lay : TLay) (k : Nat) : Nat := min 31 (k * (layDims lay).2 / (if lay = .w48 then 256 else 192))

/-- The lines of MTILE. -/
def loadLines (cl : Nat) (o : EOp) (lay : TLay) (p stride : W64) (fin : State → List Byte → State) : List Nat → List Byte → State → State
  | [], acc, s => fin s acc
  | k :: ks, acc, s =>
    (engRead s o.cid o.lvl1 true (ptrAdd p (k * stride.toInt)) (layDims lay).2).pipe s cl o (layRow lay k) fun s bs =>
      loadLines cl o lay p stride fin ks (acc ++ bs) s

/-- The six low bytes of every container. -/
def dropPad : List Byte → Nat → List Byte
  | _, 0 => []
  | bs, n + 1 => bs.take 6 ++ dropPad (bs.drop 8) n

/-- The lines of MSTT. -/
def storeLines (cl : Nat) (o : EOp) (lay : TLay) (z : Nat) (p stride : W64) (fin : State → State) : List Nat → State → State
  | [], s => fin s
  | k :: ks, s =>
    let e := s.eng cl
    let bs := if lay = .w48 then (List.range 32).flatMap (fun j => leBytes 8 (tileElem e z k j).toNat)
              else (List.range 192).map fun b => tileByte e z (192 * k + b)
    (engWrite s o.cid o.lvl1 true (ptrAdd p (k * stride.toInt)) bs).pipe s cl o (layRow lay k) fun s _ =>
      storeLines cl o lay z p stride fin ks s

/-- Rows that MMOVT fills: every row of its run. -/
def movRows (c : Ctx) (v n : Nat) : List Nat := (List.range n).flatMap fun k => (List.range c.team.passes).flatMap fun j => c.feKeys (v + k) j

/-- Registers of an MMOVT run (R195). -/
def movRegs (t : Team) (w48 : Bool) : Nat := (1024 / t.w) * (if w48 then 2 else 1)

/-- The values of a tile in the registers of a run, by lane-row key. -/
def movVals (c : Ctx) (e : Eng) (z v : Nat) (w48 : Bool) : List (Nat × W32) :=
  (List.range 1024).flatMap fun n =>
    let x := tileElem e z (n / 32) (n % 32)
    let l := n % c.team.w
    if w48 then [(c.laneKey (v + 2 * (n / c.team.w)) l, x.setWidth 32), (c.laneKey (v + 2 * (n / c.team.w) + 1) l, BitVec.ofNat 32 (x.toNat / 2 ^ 32))]
    else [(c.laneKey (v + n / c.team.w) l, BitVec.ofNat 32 (cvt .fp32 false false false .rne (w48Val x)))]

def putLanes (m : SMap W32) : List (Nat × W32) → SMap W32
  | [] => m
  | e :: r => putLanes (smSet m e.1 e.2) r

/-- Performs, or ends, the operation at the head of a pipe; an operation that runs by rows or steps ends once they are done. -/
def completeOp (s : State) (cl : Nat) (o : EOp) : State :=
  match o.k with
  | .mzero m => finishOp (s.modEng cl fun e => zeroTiles e m) cl o
  | .mloop _ n .. => if n ≤ (s.eng cl).rp.step then finishOp s cl o else s
  | .mtile lay z p st =>
    loadLines cl o lay p st (fun s bs => finishOp (s.modEng cl fun e => tileSet e z (if lay = .w48 then dropPad bs 1024 else bs)) cl o)
      (List.range (layDims lay).1) [] s
  | .mstt lay z p st => storeLines cl o lay z p st (fun s => finishOp s cl o) (List.range (layDims lay).1) s
  | .mmovtIn z vals =>
    finishOp (s.modEng cl fun e => { e with tiles := ((List.range 1024).zip vals).foldl (fun m p => smSet m (z * 1024 + p.1) p.2) e.tiles }) cl o
  | .mmovtOut z v w48 =>
    let c := s.ctx o.cid
    finishOp ({ s with rows := putLanes s.rows (movVals c (s.eng cl) z v w48) }.markFull (movRows c v (movRegs c.team w48))) cl o
  | .mdrain .. => if 32 ≤ (s.eng cl).drow then finishOp s cl o else s
  | .spx _ _ hdr tt _ _ =>
    (match tt with
     | none => if leNat ((hdr.drop 4).take 2) ≤ (s.eng cl).rp.step then finishOp s cl o else s
     | some ws =>
       let r := (s.eng cl).rp
       if o.begun && !ws.any (fun w => w.extractLsb' 60 4 = 1#4 && r.step ≤ (w.extractLsb' 32 16).toNat) then finishOp s cl o else s)

/-- ENGINE_OP_COMPLETION: the operation at the head of a pipe of a cluster's engine. -/
def execEngineOpCompletion (cl : Nat) (drain : Bool) (s : State) : R :=
  .next (match engOp s cl drain with
    | none => s
    | some o => completeOp s cl o)

/-- SIDE_STEP. -/
def execSideStep (s : State) : R :=
  .next (match engOp s s.curCl false with
    | some o =>
      (match o.k with
       | .mloop z n true a _ f ad ra _ => loopSide s s.curCl o z n a f ad ra
       | _ => s)
    | none => s)

end Sys2Proof.Machine
end

