-- ==== Sys2Proof/Machine/Subs.lean ====
section
/-! DEFINITION. Base-die subscriptions: SUBS, SUBK, UNSUB and the loaders' steps (R240 to R243). -/

namespace Sys2Proof.Machine

/-! Descriptors (R241, R242). -/

def sBase (d : List Byte) : W64 := BitVec.ofNat 64 (tNum d 0 8)
def sLstride (d : List Byte) : Int := tInt d 8 8
def sT0 (d : List Byte) : Int := tInt d 0x10 8
def sT1 (d : List Byte) : Int := tInt d 0x18 8
def sLbytes (d : List Byte) : Nat := tNum d 0x20 4
def sLines (d : List Byte) : Nat := tNum d 0x24 4
def sNt0 (d : List Byte) : Nat := tNum d 0x28 4
def sNt1 (d : List Byte) : Nat := tNum d 0x2C 4

/-- A SUBS descriptor out of range, for slots of a size. -/
def subsBad (d : List Byte) (size : Nat) : Bool :=
  tNum d 0 8 % 64 ≠ 0 || ridOf (sBase d) = 0 || 0xFD ≤ ridOf (sBase d) || sLstride d % 64 ≠ 0 || sT0 d % 64 ≠ 0 || sT1 d % 64 ≠ 0
  || sLbytes d % 64 ≠ 0 || sLbytes d < 64 || sLines d = 0 || size < sLines d * sLbytes d || sNt0 d = 0 || sNt1 d = 0 || (d.drop 0x30).any (· != 0)

/-- Pointer to line k of tile t (R241). -/
def subLine (d : List Byte) (t k : Nat) : W64 := ptrAdd (sBase d) ((t % sNt0 d : Nat) * sT0 d + (t / sNt0 d : Nat) * sT1 d + k * sLstride d)

/-- Number of tiles. -/
def subTiles (d : List Byte) : Nat := sNt0 d * sNt1 d

/-- The lines of a pattern, in order of service. -/
def subLines (d : List Byte) : List W64 := (List.range (subTiles d)).flatMap fun t => (List.range (sLines d)).map fun k => subLine d t k

/-- Keys as runs: first key and length. -/
def keyRuns : List Nat → List (Nat × Nat)
  | [] => []
  | k :: ks =>
    match keyRuns ks with
    | (a, n) :: r => if k + 1 = a then (k, n + 1) :: r else (k, 1) :: (a, n) :: r
    | [] => [(k, 1)]

def runKeys (rs : List (Nat × Nat)) : List Nat := rs.flatMap fun r => rangeFrom r.1 r.2

/-- Every line of a pattern passes its checks (R241): what the lines are translated to, or what stops the first that does not. -/
def subCheck (s : State) (k : AKind) (n : Nat) : List W64 → Except ARes (List (List (Nat × Nat)))
  | [] => .ok []
  | p :: ps =>
    match resolve s s.me s.cur s.me.trap.pl k p n with
    | .ok ks => (subCheck s k n ps).map fun r => keyRuns ks :: r
    | r => .error r

/-- At its issue a subscription writes back the issuing cluster's dirty bytes over the segments of its span, as R166 does (R320). -/
def spanClean (s : State) (cl : Nat) (segs : List (Nat × Nat)) : State :=
  (segs.filter fun g => isCached g.1).foldl (fun s g => l1Yield s cl g.1 (g.2 - g.1)) s

/-- A free slot of the loader that serves a first byte: the subscription's id (R240). -/
def subSlot (s : State) (key : Nat) : Option Nat :=
  let st := Config.stackOf key % 12
  (firstFree 64 ((s.subs.filter fun e => e.1 / 64 = st).map fun e => e.1 % 64)).map fun k => st * 64 + k

/-- The ring of a handle; without one RIDBOUND, with the handle. -/
def onRing (s : State) (h : BitVec 4) (f : Nat → State) : State :=
  match ringOf s s.me h.toNat with
  | some o => f o
  | none => trap s fRIDBOUND (h.setWidth 64)

/-- Reads a 64-byte descriptor. -/
def withDesc (s : State) (a : GReg) (f : State → List Byte → State) : State :=
  let p := s.reg a
  if !aligned p 64 then trap s fALIGN p
  else genDo s .ld polCl p 64 fun s ks => let r := loadKeys s s.me.cl polCl ks; f r.1 r.2

/-- The span of a pattern. -/
def subSpan (d : List Byte) : W64 × Nat :=
  spanOf (sBase d) [((sNt0 d : Int) - 1) * sT0 d, ((sNt1 d : Int) - 1) * sT1 d, ((sLines d : Int) - 1) * sLstride d] (sLbytes d)

def subsIssue (s : State) (k : SubK) (d : GReg) (h : BitVec 4) (a : GReg) : State :=
  onRing s h fun o =>
    withDesc s a fun s ds =>
      if subsBad ds (s.ring o).size then trapSub s fILLEGAL 0x24
      else
        match subCheck s (if k = .fill then .ld else .st) (sLbytes ds) (subLines ds) with
        | .error r => r.run s fun _ => s
        | .ok lines =>
          match subSlot s (((lines.headD []).headD (0, 0)).1) with
          | none => s.done d (BitVec.allOnes 64)
          | some id =>
            let (lk, s1) := s.fresh
            let x := subSpan ds
            let segs := segsOf s s.cur s.me.trap.pl x.1 x.2
            match addLocks s1 s.me.cl s.me.task lk [⟨decide (k = .store), 0, segs⟩] with
            | none => s.stall
            | some s =>
              let b : Sub := { Sub.none with k := k, cid := s.cur, task := s.me.task, cl := s.me.cl, ring := o, desc := ds, lines := lines, lock := lk,
                                             lvl1 := s.me.trap.pl, via := viaOf s h.toNat }
              ((spanClean s s.me.cl segs).setSub id b).done d (BitVec.ofNat 64 id)

def execSubsFill (d : GReg) (h : BitVec 4) (a : GReg) (s : State) : R := .next (subsIssue s .fill d h a)
def execSubsStore (d : GReg) (h : BitVec 4) (a : GReg) (s : State) : R := .next (subsIssue s .store d h a)

/-- A subscription ends: its entries and its slot are free. -/
def endSub (s : State) (id : Nat) : State := { dropLock s (s.sub id).lock none with subs := smDel s.subs id }

/-- A delivery fault of a subscription (R236, R241): it stops where it is. -/
def subFault (s : State) (id : Nat) (b : Sub) (code : Nat) : State :=
  copyFault (s.setSub id { b with stopped := true }) b.cid fCOPY (fields [(8, 0), (plainCode code, 8)]) code

/-- One tile is done, its slot at a tag; the last one ends the subscription. -/
def tileDone (s : State) (id : Nat) (b : Sub) (slot tag : Nat) : State :=
  let s := unclaim (setTag s b.ring slot tag) b.ring slot
  if subTiles b.desc ≤ b.tile + 1 then endSub s id else s.setSub id { b with tile := b.tile + 1, slot := none, off := 0 }

/-- The keys of the beat at offset off of the tile in hand: of its line, and of the slot. -/
def beatKeys (s : State) (b : Sub) (slot : Nat) : List Nat × List Nat :=
  let n := sLbytes b.desc
  let line := runKeys (b.lines.getD (b.tile * sLines b.desc + b.off / n) [])
  ((line.drop (b.off % n)).take 64, rangeFrom (slotKey (s.ring b.ring) slot + b.off) 64)

/-- A beat of 64 bytes (R240): from memory to the slot, or from the slot to memory; an error in what it reads stops the subscription. -/
def subBeat (s : State) (id : Nat) (b : Sub) (slot : Nat) : State :=
  let x := beatKeys s b slot
  let src := if b.k = .fill then x.1 else x.2
  let dst := if b.k = .fill then x.2 else x.1
  if eccHit s b.cl polEng src then subFault s id b fECC
  else
    let r := loadKeys s b.cl polEng src
    let s : State := { storeKeys { r.1 with cur := b.cid } b.cl polEng dst r.2 with cur := s.cur }
    let b := { b with off := b.off + 64 }
    if b.off < sLines b.desc * sLbytes b.desc then s.setSub id b
    else tileDone s id b slot (if b.k = .fill then tFULL else tEMPTY)

/-- SUBS_TILE: the loader claims a slot of the ring for its next tile, or delivers the next beat of the tile in hand. -/
def execSubsTile (id : Nat) (s : State) : R :=
  .next (match smFind s.subs id with
    | none => s
    | some b =>
      if b.stopped || hardHeld s b.task || viaHeld s b.via then s
      else
        match b.k, b.slot with
        | .adapt, _ => s
        | _, some k => subBeat s id b k
        | .fill, none =>
          (match produce s b.ring with
           | none => s
           | some (s, k) => s.setSub id { b with slot := some k, off := 0 })
        | .store, none =>
          (match consume s b.ring with
           | none => s
           | some (s, k, true) => subFault s id { b with slot := some k } fCOPY
           | some (s, k, false) => (setTag s b.ring k tDRAINING).setSub id { b with slot := some k, off := 0 }))

/-! SUBK (R242). -/

def kQueue (d : List Byte) : Nat := tNum d 0 2
def kOff (d : List Byte) : Nat := tNum d 2 1
def kVault (d : List Byte) : Bool := bitOf (tNum d 3 1) 0
def kCount (d : List Byte) : Nat := tNum d 4 4
def kTable (d : List Byte) : W64 := BitVec.ofNat 64 (tNum d 8 8)
def kDbytes (d : List Byte) : Nat := tNum d 0x10 4

/-- A SUBK descriptor out of range. -/
def subkBad (d : List Byte) : Bool :=
  28 < kOff d || kOff d % 4 ≠ 0 || 1 < tNum d 3 1 || tNum d 8 8 % 64 ≠ 0 || kDbytes d % 64 ≠ 0 || (d.drop 0x18).any (· != 0)

/-- A queue of the tenant's window (R263, R339). -/
def inQwin (s : State) (tn q : Nat) : Bool :=
  let w := (s.tenant tn).qwin
  decide (bitsOf w 11 0 ≤ q ∧ q < bitsOf w 11 0 + bitsOf w 44 32)

/-- The key of a table's first byte, whose stack's loader serves the subscription (R240): a pointer that no access may use has none, and
stands for the stack of key 0 (log 133, DESIGN CHOICE). -/
def tableKey (s : State) (p : W64) : ARes :=
  match resolve s s.me s.cur s.me.trap.pl .ld p 1 with
  | .fault fc i =>
    (match trByte s s.me .ld ((bndOf s.me p).va (offOf p)) with
     | .key k => if 0 < ridOf p ∧ ridOf p < 0xFD then .ok [k] else .fault fc i
     | _ => .fault fc i)
  | r => r

/-- SUBK. -/
def execSubk (d : GReg) (h : BitVec 4) (a : GReg) (s : State) : R :=
  .next (withDesc s a fun s ds =>
    let go (s : State) (o : Nat) : State :=
      match tableKey s (kTable ds) with
      | .wait s => s
      | r =>
        match subSlot s (match r with | .ok (k :: _) => k | _ => 0) with
        | none => s.done d (BitVec.allOnes 64)
        | some id =>
          let b : Sub := { Sub.none with k := .adapt, cid := s.cur, task := s.me.task, cl := s.me.cl, ring := o, desc := ds, queue := kQueue ds,
                                         lvl1 := s.me.trap.pl, via := viaOf s h.toNat }
          ((spanClean s s.me.cl (segsOf s s.cur s.me.trap.pl (kTable ds) (64 * kCount ds))).setSub id b).done d (BitVec.ofNat 64 id)
    if subkBad ds then trapSub s fILLEGAL 0x24
    else if 4095 < kQueue ds || !inQwin s (s.tenOf s.me) (kQueue ds) then trap s fPERM 0
    else if kVault ds then onRing s h fun o => go s o
    else go s ((ringOf s s.me h.toNat).getD (ringKey s.cur h.toNat)))

/-- Bytes of an adapter that may be read, as engine reads; what would fault is left out (R242). -/
def quietRead (s : State) (b : Sub) : List W64 → State × List (Option Byte)
  | [] => (s, [])
  | p :: ps =>
    let x : State × Option Byte := match engRead s b.cid b.lvl1 false p 1 with
      | .ok t (v :: _) => (t, some v)
      | _ => (s, none)
    let r := quietRead x.1 b ps
    (r.1, x.2 :: r.2)

/-- The pointers of n bytes. -/
def bytesAt (p : W64) (n : Nat) : List W64 := (List.range n).map fun (k : Nat) => ptrAdd p k

/-- A byte that waits for a walk: the walk. -/
def quietWait (s : State) (b : Sub) (ps : List W64) : Option State :=
  ps.findSome? fun p => match engRead s b.cid b.lvl1 false p 1 with | .wait t => some t | _ => none

/-- The bytes of an adapter's entry. -/
def entryAt (b : Sub) (id : Nat) : List W64 := bytesAt (ptrAdd (kTable b.desc) (64 * id : Nat)) 64

/-- An entry whose bytes could all be read. -/
def wholeEntry (en : List (Option Byte)) : Option (List Byte) :=
  en.foldr (fun x acc => x.bind fun v => acc.map fun vs => v :: vs) (some [])

/-- The Down lines of an entry, by their pointers. -/
def warmLines (en : List Byte) : List W64 := (List.range (adRank en)).map fun m => ptrAdd (adDown en) (m * adDstride en : Nat)

/-- The bytes of an adapter that a staging moves after its entry. -/
def downBytes (b : Sub) (en : List Byte) : List W64 := (warmLines en).flatMap fun p => bytesAt p (kDbytes b.desc)

/-- What SUBK waits for before it stages an adapter: a walk for its entry, or for a Down line. -/
def stageWait (s : State) (b : Sub) (id : Nat) : Option State :=
  match quietWait s b (entryAt b id) with
  | some t => some t
  | none => (wholeEntry (quietRead s b (entryAt b id)).2).bind fun e => quietWait s b (downBytes b e)

/-- A beat of a staging (R242): the entry, then the Down lines, each byte that can be read and fits, and last the id with PART. -/
def stageBeat (s : State) (id : Nat) (b : Sub) (slot : Nat) : State :=
  let base := slotKey (s.ring b.ring) slot
  let size := (s.ring b.ring).size
  let all := entryAt b b.aid ++ downBytes b b.ent
  let ps := (all.drop (b.off - 64)).take 64
  if b.off < 64 then
    (let s := storeKeys s b.cl polEng (rangeFrom base 8) (leBytes 4 b.aid ++ leBytes 4 (if b.part then 1 else 0))
     { (unclaim (setTag s b.ring slot tFULL) b.ring slot).setSub id { b with slot := none, off := 0, ent := [], part := false } with
       warm := smSet s.warm b.aid b.cl })
  else
    match quietWait s b ps with
    | some t => t
    | none =>
      let r := quietRead s b ps
      let put (s : State) (x : Nat × Option Byte) : State := match x.2 with
        | some v => if b.off + x.1 < size then storeKeys s b.cl polEng [base + b.off + x.1] [v] else s
        | none => s
      let ent := if b.off = 64 then (wholeEntry r.2).getD [] else b.ent
      let stop := if b.off = 64 then 128 + (if ent.isEmpty then 0 else (downBytes b ent).length) else 64 + all.length
      let s := ((List.range ps.length).zip r.2).foldl put r.1
      s.setSub id { b with ent := ent, part := b.part || r.2.any (·.isNone) || size < b.off + ps.length,
                           off := if b.off + 64 < stop then b.off + 64 else 0 }

/-- SUBK_WARM: the loader goes on with the adapter that it is staging, or handles the oldest entry that was added to the queue. -/
def execSubkWarm (id : Nat) (s : State) : R :=
  .next (match smFind s.subs id with
    | none => s
    | some b =>
      if b.k ≠ .adapt || hardHeld s b.task || (kVault b.desc && viaHeld s b.via) then s
      else
        match b.slot, b.pend with
        | some slot, _ => { stageBeat { s with cur := b.cid } id b slot with cur := s.cur }
        | none, e :: rest =>
          let a := leNat ((e.drop (kOff b.desc)).take 4)
          if kCount b.desc ≤ a || b.ids.contains a then
            (s.modCl b.cl fun c => { c with kskip := smSet c.kskip b.task (smGet 0 c.kskip b.task + 1) }).setSub id { b with pend := rest }
          else
            let b' := { b with pend := rest, ids := (a :: b.ids).take 64 }
            (match stageWait s b a with
             | some t => t
             | none =>
               if !kVault b.desc then
                 (let r := quietRead s b (entryAt b a)
                  let t := (quietRead r.1 b (((wholeEntry r.2).map (downBytes b)).getD [])).1
                  { t.setSub id b' with warm := smSet s.warm a b.cl })
               else
                 match produce s b.ring with
                 | none => s
                 | some (s, k) => s.setSub id { b' with slot := some k, off := 64, aid := a, ent := [], part := false })
        | none, [] => s)

/-- A subscription that a fault has stopped gives up the slot in hand: EMPTY where it was being filled, FULL where it was being written
back (R243 leaves a slot in one of the two; log 134, DESIGN CHOICE). -/
def giveUpSlot (s : State) (b : Sub) : State :=
  match b.slot with
  | none => s
  | some k =>
    let s := if bitOf (ringTag s b.ring k) 2 then s else setTag s b.ring k (if b.k = .fill then tEMPTY else tFULL)
    unclaim s b.ring k

/-- UNSUB: the tile in hand first finishes. -/
def execUnsub (d a : GReg) (s : State) : R :=
  let id := (s.reg a).toNat
  .next (match smFind s.subs id with
    | some b =>
      if b.task ≠ s.me.task then s.done d (BitVec.allOnes 64)
      else if b.slot.isSome && !b.stopped then s.stall
      else (endSub (giveUpSlot s b) id).done d (BitVec.ofNat 64 b.tile)
    | none => s.done d (BitVec.allOnes 64))

end Sys2Proof.Machine
end

