-- ==== Sys2Proof/Machine/Queues.lean ====
section
/-! DEFINITION. The queue unit: hardware queues, held ranges and steals, message rings, and their apertures (R263 to R275, R374). The
control blocks stand in reserved memory at a place of the model's own, which no agent of the package can address (log 18, DESIGN CHOICE). -/

namespace Sys2Proof.Machine

/-! Queue control blocks (R263). -/

def qcbAddr (s : State) (q : Nat) : Nat := s.pf.rsvbase + 0x20000000 + 64 * q
def mcbAddr (s : State) (m : Nat) : Nat := s.pf.rsvbase + 0x20040000 + 64 * m
def qcb (s : State) (q off n : Nat) : Nat := memNat s.mem (qcbAddr s q + off) n
def mcb (s : State) (m off n : Nat) : Nat := memNat s.mem (mcbAddr s m + off) n
def qcbSet (s : State) (q off n v : Nat) : State := homeWrite s (qcbAddr s q + off) (leBytes n v)
def mcbSet (s : State) (m off n v : Nat) : State := homeWrite s (mcbAddr s m + off) (leBytes n v)

/-- STATE as it reads: 3 is ERROR. -/
def qState (s : State) (q : Nat) : Nat := min 2 (qcb s q 0 1)
def mState (s : State) (m : Nat) : Nat := min 2 (mcb s m 0 1)
def qCap (s : State) (q : Nat) : Nat := 2 ^ qcb s q 2 1
def qDedup (s : State) (q : Nat) : Bool := bitOf (qcb s q 3 1) 0

/-- A ring of the tenant's window (R339). -/
def inMwin (s : State) (tn m : Nat) : Bool :=
  let w := (s.tenant tn).mwin
  decide (bitsOf w 9 0 ≤ m ∧ m < bitsOf w 9 0 + bitsOf w 42 32)

/-- A queue or ring of a tenant: in its window, and its block names the tenant (R346). -/
def qOwned (s : State) (tn q : Nat) : Bool := inQwin s tn q && qcb s q 1 1 = tn
def mOwned (s : State) (tn m : Nat) : Bool := inMwin s tn m && mcb s m 1 1 = tn

/-- A field out of range. -/
def qBad (s : State) (q : Nat) : Bool :=
  let lc := qcb s q 2 1
  let fl := qcb s q 3 1
  let ko := qcb s q 4 1
  let base := qcb s q 8 8
  let fb := qcb s q 0x10 8
  lc < 8 || 20 < lc || 3 < fl || (if bitOf fl 0 then ko % 8 ≠ 0 || 24 < ko else ko ≠ 0) || 63 < qcb s q 5 1 || qcb s q 6 2 ≠ 0
  || base % (32 * 2 ^ lc) ≠ 0 || deviceBytes < base + 32 * 2 ^ lc
  || (if bitOf fl 0 then fb % 256 ≠ 0 || deviceBytes < fb + 16 * 2 ^ lc else fb ≠ 0) || qcb s q 0x28 24 ≠ 0

/-- The first operation after enabling checks the block; STATE becomes 2 when a field is out of range. -/
def qCheck (s : State) (q : Nat) : State :=
  if (s.queue q).checked || qcb s q 0 1 ≠ 1 then s
  else if qBad s q then
    let s := qcbSet s q 0 1 2
    if bitOf (qcb s q 3 1) 1 then vfIvec s (qcb s q 1 1) q (qcb s q 5 1) else s
  else qcbSet (s.setQueue q { Queue.none with checked := true }) q 0x18 16 0

/-- A QUEUE fault (R267). -/
def queueTrap (s : State) (sub q : Nat) : State := trap s fQUEUE (fields [(sub, 0), (q % 4096, 16)])

/-- The checks of a queue of the own package: foreign or disabled, the first operation, ERROR (when that is asked for). -/
def onQueue (s : State) (q : Nat) (err : Bool) (f : State → State) : State :=
  if !qOwned s (s.tenOf s.me) q || qState s q = 0 then queueTrap s 1 q
  else
    let s' := qCheck s q
    if qState s q = 1 ∧ qState s' q ≠ 1 then queueTrap s' 6 q
    else if err && qState s' q = 2 then queueTrap s' 2 q
    else f s'

/-! Entries. -/

def qHead (s : State) (q : Nat) : Nat := qcb s q 0x18 8
def qTail (s : State) (q : Nat) : Nat := qcb s q 0x20 8
def entAddr (s : State) (q t : Nat) : Nat := qcb s q 8 8 + 32 * (t % qCap s q)
def qFull (s : State) (q : Nat) : Bool := qCap s q ≤ (s.queue q).ents.length

def quadBytes (ws : List W64) : List Byte := ws.flatMap fun w => leBytes 8 w.toNat
def quadOf (bs : List Byte) : List W64 := (List.range 4).map fun k => BitVec.ofNat 64 (leNat ((bs.drop (8 * k)).take 8))

/-- The key of an entry of a queue with DEDUP. -/
def qKey (s : State) (q : Nat) (ws : List W64) : W64 := ws.getD (qcb s q 4 1 / 8) 0

/-- The hold CSRs of a holder of a range entry; a plain entry leaves the context without a hold (R266, R270). -/
def takeHold (c : Ctx) (q : Nat) (range : Bool) (ws : List W64) : Ctx :=
  { c with hold := if range then BitVec.ofNat 64 (q + 2 ^ 63) :: ws.take 4 else 0 :: c.hold.tail }

def Ctx.setQuad (c : Ctx) (g : GReg) (ws : List W64) : Ctx :=
  ((List.range 4).zip ws).foldl (fun c p => c.setReg (g + BitVec.ofNat 5 p.1) p.2) c

/-- An entry is served to a context that waits in a QPOPB: it wakes past the word, with the acquire action at PACKAGE scope. -/
def qServe (s : State) (q cid : Nat) (g : GReg) (range : Bool) (ws : List W64) : State :=
  let s := acquire (unwait s cid) (s.ctx cid).cl 5
  (wakeWith s cid 0 0).modCtx cid fun c => (takeHold c q range ws).setQuad g ws

/-- What an entry counted is taken back when it leaves (R15, R337). -/
def qUncount (s : State) (e : QEnt) : State :=
  let s := match e.owner with
    | some k =>
      let l := s.launch k
      let path := pathOf s l.tenant l.node
      let s := addField s l.tenant 0x2C 4 (-1) path
      if e.outst then addOutst s l.tenant (-1) path else s
    | none => s
  match e.remote with
  | some n => s.emit (.notice (n / 2 ^ 32) (n % 2 ^ 32))
  | none => s

/-- Bytes that a unit hands over from memory have an uncorrectable error (R347). -/
def unitBad (s : State) (a n : Nat) : Bool := (rangeFrom a n).any s.ecc.contains

/-- ECC of a context that was to be handed bytes at address a by a queue unit: its location is that address (log 150, DESIGN CHOICE). -/
def unitEcc (s : State) (cid a : Nat) : State :=
  { trap { s with cur := cid, curCl := (s.ctx cid).cl } fECC (BitVec.ofNat 64 a) with cur := s.cur, curCl := s.curCl }

/-- The entry at HEAD has an uncorrectable error: it is not removed. -/
def qHeadBad (s : State) (q : Nat) : Bool := unitBad s (entAddr s q (qHead s q)) 32

/-- Removes the entry at HEAD: its 32 bytes, and whether it is a range. -/
def qTake (s : State) (q : Nat) : State × List W64 × Bool :=
  let h := qHead s q
  let (s, bs) := homeRead s (entAddr s q h) 32
  match (s.queue q).ents with
  | [] => (s, quadOf bs, false)
  | e :: es => (qUncount (qcbSet (s.setQueue q { s.queue q with ents := es }) q 0x18 8 (h + 1)) e, quadOf bs, e.range)

/-- The waiters of a queue whose TRYW, if any, still runs (R177). -/
def qWaiters (s : State) (q : Nat) : List (Nat × GReg) := (s.queue q).ws.filter fun w => !(s.ctx w.1).expired s.mc

/-- The oldest waiter of a queue that holds entries takes the one at HEAD. When that entry has an uncorrectable error, every waiter meets
it. -/
def qWake (s : State) (q : Nat) : State :=
  match qWaiters s q, (s.queue q).ents with
  | w :: ws, _ :: _ =>
    if qHeadBad s q then (w :: ws).foldl (fun s w => unitEcc (unwait s w.1) w.1 (entAddr s q (qHead s q))) s
    else let (s, ws, range) := qTake s q; qServe s q w.1 w.2 range ws
  | _, _ => s

/-- Adds an entry at TAIL, shows one of QPUSH or QINSD to the SUBK subscriptions on the queue, and serves the oldest waiter (R265, R242). -/
def qAdd (s : State) (q : Nat) (e : QEnt) (ws : List W64) : State :=
  let t := qTail s q
  let s := homeWrite s (entAddr s q t) (quadBytes ws)
  let s := qcbSet (s.setQueue q { s.queue q with ents := (s.queue q).ents ++ [e] }) q 0x20 8 (t + 1)
  let s := { s with subs := s.subs.map fun b =>
    if b.2.k = .adapt && b.2.queue = q && !e.range then (b.1, { b.2 with pend := b.2.pend ++ [quadBytes ws] }) else b }
  qWake s q

/-! Pushes. -/

inductive PushK where
  | plain | insd | range
  deriving DecidableEq, Repr

/-- What the queue unit answers to a push on an enabled queue: the code, and the state after. -/
def qPushAt (s : State) (q : Nat) (k : PushK) (owner : Option Nat) (outst : Bool) (remote : Option Nat) (ws : List W64) : State × Nat :=
  let key := if k = .insd then some (qKey s q ws) else none
  if k = .insd && (s.queue q).ents.any (fun e => e.key = key) then (s, 2)
  else if qFull s q then (s, 1)
  else (qAdd s q ⟨k = .range, key, owner, outst, remote⟩ ws, 0)

/-- A QSLOTS ceiling on a path that one more entry would break (R15). -/
def qslotsFull (s : State) (tn : Nat) : List W64 → Bool
  | [] => false
  | p :: ps => decide (effQslots s tn (p :: ps) < rcb s tn p 0x2C 4 + 1) || qslotsFull s tn ps

/-- A request leaves over a drawbar for a peer, for a 256-byte line: the packet is outstanding and the context awaits its reply. -/
def sendRemote (s : State) (peer line : Nat) (d : GReg) (spawn : Bool) : State :=
  let (id, s) := s.fresh
  let k := (s.task s.me.task).launch
  let port := portOf s peer line
  let sq := smGet 0 s.seqs port
  let s : State := { s with
    remotes := s.remotes ++ [⟨id, some k, some peer, spawn, none⟩],
    packets := s.packets ++ [⟨port, sq, s.tenOf s.me, some s.cur, some id⟩],
    seqs := smSet s.seqs port ((sq + 1) % 4096) }
  s.modMe fun c => { c with remote := some (id, d) }

/-- QPUSH, QINSD, QRANGE. A push from the second die is counted in OUTST until its entry is removed (R337). -/
def qPush (s : State) (k : PushK) (d a q : GReg) : State :=
  let spec := (s.reg a).toNat
  let n := spec % 4096
  let dev := bitsOf spec 23 16
  let ws := s.regs q 4
  let tn := s.tenOf s.me
  let key := (s.task s.me.task).launch
  let path := taskPath s s.me.task
  let loHi (s : State) (f : State → State) : State :=
    if k = .range && decide ((s.reg (q + 1)).toNat ≤ (s.reg q).toNat) then queueTrap s 4 n else f s
  if bitsOf spec 15 12 ≠ 0 ∨ bitsOf spec 63 24 ≠ 0 then queueTrap s 1 n
  else if dev ≠ 0xFF then
    if smGet 0 s.pf.route dev = 0 then queueTrap s 1 n
    else
      loHi s fun s =>
        let s := release s s.me.cl 6
        if qslotsFull s tn path then s.done d 1
        else sendRemote (addOutst (addField s tn 0x2C 4 1 path) tn 1 path) dev n d false
  else
    onQueue s n true fun s =>
      loHi s fun s =>
        if k = .insd && !qDedup s n then queueTrap s 5 n
        else
          let s := release s s.me.cl 5
          if qslotsFull s tn path then s.done d 1
          else
            let far := decide (96 ≤ s.me.cl)
            let s1 := addField s tn 0x2C 4 1 path
            let s1 := if far then addOutst s1 tn 1 path else s1
            let r := qPushAt s1 n k (some key) far none ws
            if r.2 = 0 then r.1.done d 0 else s.done d (BitVec.ofNat 64 r.2)

def execQpush (d a q : GReg) (s : State) : R := .next (qPush s .plain d a q)
def execQinsd (d a q : GReg) (s : State) : R := .next (qPush s .insd d a q)
def execQrange (d a q : GReg) (s : State) : R := .next (qPush s .range d a q)

/-! Taking entries (R266, R268, R269). -/

/-- The queue that QPOPB and QSTAT name; none when reserved bits are set. -/
def queueSpec (s : State) (n : GSrc) : Option Nat := let v := (s.srcN n).toNat; if 4095 < v then none else some v

/-- QPOPB. -/
def execQpopb (q : GReg) (n : GSrc) (s : State) : R :=
  .next (match queueSpec s n with
    | none => queueTrap s 1 (s.srcN n).toNat
    | some k =>
      onQueue s k true fun s =>
        let c := s.me
        if holds c && c.hold.getD 1 0 < c.hold.getD 2 0 then queueTrap s 3 k
        else if !(s.queue k).ents.isEmpty && qHeadBad s k then unitEcc s s.cur (entAddr s k (qHead s k))
        else if !(s.queue k).ents.isEmpty then
          let (s, ws, range) := qTake s k
          let s := acquire (unwait s s.cur) s.me.cl 5
          (waitDone s).modMe fun c => (takeHold c k range ws).setQuad q ws
        else if testsOnce s || (s.queue k).ws.any (fun w => w.1 = s.cur) then waitOn s .served
        else waitOn (postSteal (s.setQueue k { s.queue k with ws := (s.queue k).ws ++ [(s.cur, q)] }) k s.cur [s.cur]) .served)

/-- An entry goes in front of HEAD. -/
def qPutFront (s : State) (q : Nat) (ws : List W64) : State :=
  let h := (qHead s q + 2 ^ 64 - 1) % 2 ^ 64
  let s := homeWrite s (entAddr s q h) (quadBytes ws)
  qcbSet (s.setQueue q { s.queue q with ents := ⟨true, none, none, false, none⟩ :: (s.queue q).ents }) q 0x18 8 h

/-- A split entry is served to the waiter that asked, else to the oldest, else it goes to HEAD. -/
def qSplit (s : State) (q req : Nat) (ws : List W64) : State :=
  let l := qWaiters s q
  match l.find? (fun w => w.1 = req), l with
  | some w, _ => qServe s q w.1 w.2 true ws
  | none, w :: _ => qServe s q w.1 w.2 true ws
  | none, [] => qPutFront s q ws

/-- A holder answers a steal request: it splits its range, or returns the request. -/
def answerSteal (s : State) : State :=
  let c := s.me
  let q := holdOf c % 4096
  let lo := c.hold.getD 1 0
  let hi := c.hold.getD 2 0
  let n := holdLeft c
  match (s.queue q).steals.find? (fun p => p.1 = s.cur) with
  | none => s.setMe (setSteal c false)
  | some p =>
    if 2 ≤ n && !qFull s q then
      let m := lo + BitVec.ofNat 64 (ceilDiv n 2)
      let s := (s.setMe { setSteal c false with hold := (setSteal c false).hold.set 2 m }).setQueue q
        { s.queue q with steals := (s.queue q).steals.filter fun x => x.1 ≠ s.cur }
      qSplit s q p.2 [m, hi, c.hold.getD 3 0, c.hold.getD 4 0]
    else returnSteal s s.cur

/-- QNEXT. -/
def execQnext (d : GReg) (s : State) : R :=
  .next (if !holds s.me then s.done d (BitVec.allOnes 64)
    else
      let s := if bitOf (holdOf s.me) 62 then answerSteal s else s
      let c := s.me.hold.getD 1 0
      let s := s.modMe fun x =>
        let h := x.hold.set 1 (c + 1)
        { x with hold := if c + 1 = x.hold.getD 2 0 then h.set 0 0 else h }
      s.done d c)

/-! Status (R270). -/

def qStatusWord (s : State) (q : Nat) : W64 :=
  let n := if (s.queue q).checked then (s.queue q).ents.length else 0
  fields [(n, 0), ((s.queue q).ws.length, 32), (qcb s q 2 1 % 32, 53), (qState s q, 62)]

/-- QSTAT. -/
def execQstat (d : GReg) (n : GSrc) (s : State) : R :=
  .next (match queueSpec s n with
    | none => queueTrap s 1 (s.srcN n).toNat
    | some k => onQueue s k false fun s => s.done d (qStatusWord s k))

/-- What a generator load of 8 aligned bytes returns from the queue and ring apertures; none elsewhere. A queue or ring of another tenant
reads zero. -/
def apertureWord (s : State) (off : Nat) : Option W64 :=
  let tn := s.tenOf s.me
  if 0x10000 ≤ off ∧ off < 0x20000 then
    (let q := (off - 0x10000) / 16
     some (if !qOwned s tn q then 0
       else if off % 16 = 0 then qStatusWord s q
       else if (s.queue q).checked then BitVec.ofNat 64 (qHead s q) else 0))
  else if 0x20000 ≤ off ∧ off < 0x24000 then
    (let m := (off - 0x20000) / 16
     some (if !mOwned s tn m then 0
       else if off % 16 = 0 then BitVec.ofNat 64 (mcb s m 0x10 8) else fields [(mState s m, 0), (mcb s m 2 1 % 32, 8)]))
  else none

/-! Message rings (R271 to R275). -/

/-- A MSGERR fault (R274). -/
def msgTrap (s : State) (sub m r : Nat) : State := trap s fMSGERR (fields [(sub, 0), (m % 1024, 16), (r % 2 ^ 32, 32)])

def mRidx (s : State) (m : Nat) : Nat := mcb s m 0x10 8
def mSlots (s : State) (m : Nat) : Nat := 2 ^ mcb s m 2 1

def mBad (s : State) (m : Nat) : Bool :=
  let l := mcb s m 2 1
  l < 4 || 16 < l || mcb s m 8 8 % (64 * 2 ^ l) ≠ 0 || 1 < mcb s m 3 1 || mcb s m 5 3 ≠ 0 || mcb s m 0x28 24 ≠ 0

def setMring (s : State) (m : Nat) (b : Bool) : State := { s with mrings := smSet s.mrings m ⟨b⟩ }

/-- A context that waits on a ring is woken and takes MSGERR 0x04, precisely (R274). -/
def msgWoken (m r : Nat) (s : State) (e : Nat × Ctx) : State :=
  takeTrap s e.1 { code := fMSGERR, orig := 0, imp := false, acc := 0, lane := 0, info := fields [(4, 0), (m % 1024, 16), (r % 2 ^ 32, 32)],
                   tag := none, epc := e.2.pc }

/-- A ring enters ERROR at index r with a header: its block is checked again after it leaves that state, and every other context that waits
on it takes its trap. -/
def mError (s : State) (m r h : Nat) : State :=
  let s := setMring (mcbSet (mcbSet s m 0 1 2) m 0x18 16 (r + 2 ^ 64 * h)) m false
  let s := if bitOf (mcb s m 3 1) 0 then vfIvec s (mcb s m 1 1) (4096 + m) (mcb s m 4 1) else s
  (s.ctxs.filter fun e => e.1 ≠ s.cur && e.2.st.resident && (match e.2.watch with | some (.msg q ..) => q = m | _ => false)).foldl (msgWoken m r) s

/-- A ring that is named by a register or an immediate, with the checks of MSGERR 0x01 and 0x05. -/
def onRingM (s : State) (v : W64) (f : State → Nat → State) : State :=
  let m := v.toNat % 1024
  if 1023 < v.toNat || !mOwned s (s.tenOf s.me) m then msgTrap s 1 m 0
  else if mState s m = 0 then msgTrap s 1 m (mRidx s m)
  else if mState s m = 1 && !(smGet MRing.none s.mrings m).checked then
    (if mBad s m then msgTrap (mError s m (mRidx s m) 0) 5 m (mRidx s m) else f (setMring s m true) m)
  else f s m

/-- The judgment of R272. -/
inductive MJudge where
  | unpublished | overrun | published
  deriving DecidableEq, Repr

def hdrSeq (h : Nat) : Nat := bitsOf h 63 32
def hdrLen (h : Nat) : Nat := bitsOf h 21 16
def hdrType (h : Nat) : Nat := bitsOf h 7 0

def judge (h r n : Nat) : MJudge :=
  if hdrType h = 0 then .unpublished
  else if hdrSeq h = r % 2 ^ 32 then .published
  else if hdrSeq h = (r + n) % 2 ^ 32 then .overrun
  else .unpublished

def hdrBad (h : Nat) : Bool := 0xF1 ≤ hdrType h || 56 < hdrLen h || bitsOf h 31 22 ≠ 0 || bitsOf h 15 8 ≠ 0

/-- MSGPOP and MSGPEEK from the judgment on; each PAD costs one unit of fuel, and a lap holds at most N. -/
def msgLoop (pop : Bool) (o : GReg) (n : GSrc) (m : Nat) : Nat → State → State
  | 0, s => waitOn s (.msg m pop o n)
  | fuel + 1, s =>
    let r := mRidx s m
    let slots := mSlots s m
    let a := mcb s m 8 8 + 64 * (r % slots)
    if deviceBytes < a + 64 then { s with hole := some a }
    else if unitBad s a 8 then unitEcc s s.cur a
    else
      let (s, bs) := homeRead s a 64
      let h := leNat (bs.take 8)
      match judge h r slots with
      | .unpublished => waitOn s (.msg m pop o n)
      | .overrun => msgTrap (mError s m r h) 3 m r
      | .published =>
        if hdrBad h then msgTrap (mError s m r h) 2 m r
        else if hdrType h ≠ 0xF0 && unitBad s a 64 then unitEcc s s.cur a
        else
          let s := acquire s s.me.cl 5
          if hdrType h = 0xF0 then msgLoop pop o n m fuel (mcbSet s m 0x10 8 (r + 1))
          else
            let s := if pop then mcbSet s m 0x10 8 (r + 1) else s
            waitDone (s.setRegs o ((List.range 8).map fun k => BitVec.ofNat 64 (leNat ((bs.drop (8 * k)).take 8))))

def msgStep (s : State) (pop : Bool) (o : GReg) (n : GSrc) : State :=
  onRingM s (s.srcN n) fun s m => if mState s m = 2 then msgTrap s 4 m (mRidx s m) else msgLoop pop o n m (mSlots s m + 1) s

def execMsgpop (o : GReg) (n : GSrc) (s : State) : R := .next (msgStep s true o n)
def execMsgpeek (o : GReg) (n : GSrc) (s : State) : R := .next (msgStep s false o n)

/-- The IVEC condition of a queue or ring is clear (R340). -/
def clearIvec (s : State) (tn src : Nat) : State := s.modTenant tn fun t => { t with ivec := smDel t.ivec src }

/-- MSGRST. -/
def execMsgrst (d a b : GReg) (s : State) : R :=
  .next (onRingM s (s.reg a) fun s m =>
    let old := mRidx s m
    let v := s.reg b
    let s := release s s.me.cl 5
    let s := clearIvec (mcbSet (mcbSet s m 0x10 8 v.toNat) m 0 1 1) (s.tenOf s.me) (4096 + m)
    (setMring s m false).done d (BitVec.ofNat 64 old))

/-! Replies and notices (R261, R265, R337). -/

/-- Takes back what a remote operation counted. -/
def remoteUncount (s : State) (r : Remote) : State :=
  match r.launch with
  | none => s
  | some k =>
    let l := s.launch k
    let path := pathOf s l.tenant l.node
    let s := if r.spawn then s else addField s l.tenant 0x2C 4 (-1) path
    addOutst s l.tenant (-1) path

def dropRemote (s : State) (id : Nat) : State :=
  { s with remotes := s.remotes.filter (fun r => r.id ≠ id), packets := s.packets.filter fun p => p.remote ≠ some id }

/-- The context that awaits a reply gets its code and goes on. -/
def remoteDone (s : State) (id code : Nat) : State :=
  match s.ctxs.find? (fun e => (e.2.remote.map (·.1)) = some id) with
  | none => s
  | some e =>
    match e.2.remote with
    | none => s
    | some (_, d) => s.modCtx e.1 fun c => { ({ c with remote := none }.setReg d (BitVec.ofNat 64 code)) with pc := c.pc + 8 }

/-- REMOTE_REPLY: the target's code; one that added nothing takes the count back first. -/
def execRemoteReply (id code : Nat) (s : State) : R :=
  .next (match s.packets.find? (fun p => p.remote = some id), s.remotes.find? (fun r => r.id = id) with
    | some _, some r =>
      if 3 < code then s
      else if code = 0 then remoteDone { s with packets := s.packets.filter fun p => p.remote ≠ some id } id 0
      else remoteDone (dropRemote (remoteUncount s r) id) id code
    | _, _ => s)

/-- RETIRE_NOTICE: the spawned launch has retired, or the entry was removed, at the target. A launch of this package is over when its
OUTST is zero; the notice of one that a peer spawned goes to the peer. -/
def execRetireNotice (id : Nat) (s : State) : R :=
  .next (match s.remotes.find? (fun r => r.id = id) with
    | none => s
    | some r =>
      match r.node with
      | some k =>
        let l := s.launch k
        if rcbOutst s l.tenant l.node ≠ 0 then s
        else
          let s := dropRemote (remoteUncount s r) id
          (match r.peer with | some p => s.emit (.notice p id) | none => s)
      | none => if s.packets.any (fun p => p.remote = some id) then s else dropRemote (remoteUncount s r) id)

end Sys2Proof.Machine
end

