-- ==== Sys2Proof/Machine/GenMem.lean ====
section
/-! DEFINITION. Generator loads and stores, LDX and STX (R82, R92 to R95, R140). -/

namespace Sys2Proof.Machine

/-- Bytes of a type (R92). -/
def ldSize : LdTy → Nat
  | .n8 | .s8 => 1
  | .n16 | .s16 => 2
  | .n32 | .s32 => 4
  | .d64 => 8

/-- The value a load writes: zero-extended, or sign-extended. -/
def ldExt (ty : LdTy) (v : Nat) : W64 :=
  match ty with
  | .s8 => (BitVec.ofNat 8 v).signExtend 64
  | .s16 => (BitVec.ofNat 16 v).signExtend 64
  | .s32 => (BitVec.ofNat 32 v).signExtend 64
  | _ => BitVec.ofNat 64 v

/-- The policy of a generator access at a scope (R144). -/
def genPol (sc : Scope) : Pol := ⟨scopeRank sc, false, false⟩

/-- ga + disp34. -/
def ldAddr (s : State) (a : GReg) (disp : BitVec 34) : W64 := s.reg a + disp.signExtend 64

/-- The read of n bytes under an order and scope: the state after, and the number. -/
def genLoad (s : State) (o : MOrd) (sc : Scope) (ks : List Nat) : State × List Byte :=
  let cl := s.me.cl
  let r := loadKeys (ordBefore s cl o sc) cl (genPol sc) ks
  (ordAfter r.1 cl o sc, r.2)

/-- The write of bytes under an order and scope. -/
def genStore (s : State) (o : MOrd) (sc : Scope) (ks : List Nat) (bs : List Byte) : State :=
  let cl := s.me.cl
  ordAfter (storeKeys (ordBefore s cl o sc) cl (genPol sc) ks bs) cl o sc

/-- LD. -/
def execLd (f : LdF) (s : State) : R :=
  let p := ldAddr s f.a f.disp
  let n := ldSize f.ty
  .next (if !aligned p n then trap s fALIGN p
    else
      match (if ridOf p = 0xFF && n = 8 then apertureWord s (offOf p) else none) with
      | some v =>
        let cl := s.me.cl
        (ordAfter (ordBefore s cl f.ord f.scope) cl f.ord f.scope).done f.r v
      | none =>
        genDo s .ld (genPol f.scope) p n fun s ks =>
          let r := genLoad s f.ord f.scope ks
          r.1.done f.r (ldExt f.ty (leNat r.2)))

/-- ST. -/
def execSt (f : LdF) (s : State) : R :=
  let p := ldAddr s f.a f.disp
  let n := ldSize f.ty
  .next (if !aligned p n then trap s fALIGN p
    else genDo s .st (genPol f.scope) p n fun s ks => (genStore s f.ord f.scope ks (leBytes n (s.reg f.r).toNat)).adv)

/-- LDX. -/
def execLdx (f : LdxF) (s : State) : R :=
  let p := ldAddr s f.a f.disp
  .next (if !aligned p 32 then trap s fALIGN p
    else
      genDo s .ld (genPol f.scope) p 32 fun s ks =>
        let r := genLoad s f.ord f.scope ks
        (r.1.setRegs f.r (quadOf r.2)).adv)

/-- STX: in the Block-Transfer Aperture it is a copy store to the channel that the address names (R228). -/
def execStx (f : LdxF) (s : State) : R :=
  let p := ldAddr s f.a f.disp
  .next (if !aligned p 32 then trap s fALIGN p
    else if ridOf p = 0xFF ∧ offOf p < 0x1000 then
      (let s' := copyStore (ordBefore s s.me.cl f.ord f.scope) (offOf p / 0x200 % 8) (s.regs f.r 4)
       ordAfter s' s.me.cl f.ord f.scope)
    else genDo s .st (genPol f.scope) p 32 fun s ks => (genStore s f.ord f.scope ks (quadBytes (s.regs f.r 4))).adv)

end Sys2Proof.Machine
end

