-- ==== Sys2Proof/Machine/Place.lean ====
section
/-! DEFINITION. What the dispatcher reads before it places a task: nodes, task records, readiness, waybills, overlap, budgets, room
(R12, R14, R17 to R21, R24, R26, R246 to R251, R334, R335). -/

namespace Sys2Proof.Machine

/-! Nodes (R12). -/

/-- The physical key of a node: what names a launch. -/
def lkey (s : State) (tn : Nat) (node : W64) : Nat := (tByte s tn false node).getD 0

/-- A pointer of a node resolves, for n bytes. -/
def ptrOk (s : State) (tn : Nat) (write : Bool) (p : W64) (n : Nat) : Bool :=
  (tByte s tn write p).isSome && (n ≤ 1 || (tByte s tn write (ptrAdd p (n - 1 : Nat))).isSome)

/-- A pointer that may be 0. -/
def ptrOk0 (s : State) (tn : Nat) (write : Bool) (p : W64) (n : Nat) : Bool := p = 0#64 || ptrOk s tn write p n

def rcbOk (s : State) (tn : Nat) (p : W64) : Bool :=
  p.toNat % 256 = 0 && ptrOk s tn false p 256 && ptrOk s tn true p 256

def gridOk (s : State) (tn : Nat) (p : W64) : Bool :=
  rcb s tn p 0x40 4 ≠ 0 && rcb s tn p 0x44 4 ≠ 0 && rcb s tn p 0x48 4 ≠ 0 && launchSize s tn p ≤ 2 ^ 24

def taskTableBytes (s : State) (tn : Nat) (p : W64) : Nat := if rcb s tn p 0x4C 1 = 1 then 128 * launchSize s tn p else 128

/-- A node that breaks R12, given its ancestors, nearest first. A TENANT byte that is not the tenant's and a launch area off a 64-byte
boundary break it too (log 129, DESIGN CHOICE). -/
def nodeBad (s : State) (tn : Nat) (p : W64) (up : List W64) : Bool :=
  let k := rcbKind s tn p
  let done := rcbPtr s tn p 0x38
  !rcbOk s tn p || 5 < up.length || k < 1 || 3 < k || rcb s tn p 5 1 ≠ tn || (match up with | q :: _ => !rcbOk s tn q | [] => false)
  || (k = 3 && rcb s tn p 0x10 8 ≠ 0) || (k = 1) != up.isEmpty || (up.isEmpty && rcb s tn p 8 8 ≠ 0)
  || [true, false].any (fun w => !ptrOk0 s tn w (rcbPtr s tn p 0x10) 256 || !ptrOk0 s tn w (rcbPtr s tn p 0x18) 256)
  || (match k with
      | 1 => rcb s tn p 0x30 8 % 64 ≠ 0 || !ptrOk s tn true (rcbPtr s tn p 0x30) 64 || !ptrOk s tn false (rcbPtr s tn p 0x30) 64 || !ptrOk0 s tn true done 8
      | 2 => !ptrOk0 s tn true done 8
      | _ => !gridOk s tn p || !ptrOk s tn false (rcbPtr s tn p 0x30) (taskTableBytes s tn p)
              || [true, false].any fun w => !ptrOk s tn w done (ceilDiv (launchSize s tn p) 8))

/-- Sets every bad node of a path to ERROR, and the depth of every node that can be written; the flag says that all are good. -/
def judgePath (s : State) (tn : Nat) : List W64 → State × Bool
  | [] => (s, true)
  | p :: up =>
    let bad := nodeBad s tn p up
    let s := if bad then (if rcbState s tn p = 3 then s else rcbError (if rcbOk s tn p then rcbSet s tn p 1 1 up.length else s) tn p)
      else rcbSet s tn p 1 1 up.length
    let (s, ok) := judgePath s tn up
    (s, ok && !bad)

/-! Child lists. -/

def listFrom (s : State) (tn : Nat) : Nat → W64 → List W64
  | 0, _ => []
  | n + 1, p => if p = 0#64 then [] else p :: listFrom s tn n (rcbPtr s tn p 0x18)

def childrenOf (s : State) (tn : Nat) (p : W64) : List W64 := listFrom s tn 65536 (rcbPtr s tn p 0x10)

/-- Links a node as the last child of its parent, unless it is linked or the parent does not resolve. -/
def linkNode (s : State) (tn : Nat) (node : W64) : State :=
  let up := rcbPtr s tn node 8
  let kids := childrenOf s tn up
  if kids.contains node || !rcbOk s tn up then s
  else
    let s := rcbSet s tn node 0x18 8 0
    match kids.getLast? with
    | none => rcbSet s tn up 0x10 8 node.toNat
    | some l => rcbSet s tn l 0x18 8 node.toNat

/-- Removes a node from its parent's list. -/
def unlinkNode (s : State) (tn : Nat) (node : W64) : State :=
  let up := rcbPtr s tn node 8
  let kids := childrenOf s tn up
  let next := rcb s tn node 0x18 8
  match kids.takeWhile (· ≠ node) |>.getLast? with
  | some q => if kids.contains node then rcbSet s tn q 0x18 8 next else s
  | none => if kids.contains node then rcbSet s tn up 0x10 8 next else s

/-! Task records (R17, R18, R349). -/

def bNum (bs : List Byte) (off n : Nat) : Nat := leNat ((bs.drop off).take n)
def bW64 (bs : List Byte) (off : Nat) : W64 := BitVec.ofNat 64 (bNum bs off 8)

def TRec.of (bs : List Byte) : TRec :=
  { entry := bW64 bs 0, isav := bNum bs 8 2, nctx := bNum bs 0xA 1, flags := bNum bs 0xB 1, mcg := bNum bs 0xC 1, nreg := bNum bs 0xD 1,
    affcl := bNum bs 0xE 1, tw := (List.range 8).map fun k => bNum bs (0x10 + k) 1,
    rows := (List.range 8).map fun k => bNum bs (0x18 + 2 * k) 2, vbytes := bNum bs 0x28 4, adapter := bNum bs 0x2C 4,
    arg := bW64 bs 0x30, waybill := bW64 bs 0x38, producer := bW64 bs 0x40,
    box := (List.range 3).map fun k =>
      (signedOf 16 (bNum bs (0x48 + 12 * k) 2), signedOf 32 (bNum bs (0x4C + 12 * k) 4), signedOf 32 (bNum bs (0x50 + 12 * k) 4)),
    vimage := bW64 bs 0x70, vilen := bNum bs 0x78 4 }

def gangFlag (r : TRec) : Bool := bitOf r.flags 0
def overlapOk (r : TRec) : Bool := bitOf r.flags 1
/-- Contexts that are placed and moved together (R25). -/
def together (r : TRec) : Bool := gangFlag r || 1 < r.mcg

/-- Versions that run: native 3.0 to 3.2, and the portable form (R349). -/
def isavOk (v : Nat) : Bool := (0x0300 ≤ v && v ≤ 0x0302) || v = 0x8001

/-- A record within the limits of R18. -/
def TRec.ok (r : TRec) : Bool :=
  r.entry.toNat % 8 = 0 && isavOk r.isav && 1 ≤ r.nctx && r.nctx ≤ 8 && r.flags < 8 && 1 ≤ r.mcg && r.mcg ≤ 16 && r.nreg ≤ 16
  && (r.affcl < 192 || r.affcl = 0xFF)
  && (List.range 8).all (fun k =>
      if k < r.nctx then 3 ≤ r.tw.getD k 0 && r.tw.getD k 0 ≤ 10 && 1 ≤ r.rows.getD k 0 && r.rows.getD k 0 ≤ 2048
      else r.tw.getD k 0 = 0 && r.rows.getD k 0 = 0)
  && r.vbytes % 256 = 0 && r.vbytes ≤ 2 ^ 22 && r.vilen % 64 = 0 && r.vilen ≤ r.vbytes && (r.vimage ≠ 0#64 || r.vilen = 0)

/-- The record of a task of a launch, wherever AREA points; a TTMODE other than 1 is read as 0 (R17, R18; log 130, DESIGN CHOICE). -/
def readRec (s : State) (tn : Nat) (node : W64) (lin : Nat) : Option TRec :=
  (tRead s tn (ptrAdd (rcbPtr s tn node 0x30) (if rcb s tn node 0x4C 1 = 1 then 128 * lin else 0 : Nat)) 128).map TRec.of

/-- The dispatcher takes a task's record, its waybill and its vault image. -/
def takeRec (s : State) (tn : Nat) (node : W64) (lin : Nat) (r : TRec) : State :=
  let s := tTouch s tn (ptrAdd (rcbPtr s tn node 0x30) (if rcb s tn node 0x4C 1 = 1 then 128 * lin else 0 : Nat)) 128
  tTouch (tTouch s tn r.waybill (16 * r.nreg)) tn r.vimage r.vilen

/-- A VIMAGE that can be read (R19). -/
def vimageOk (s : State) (tn : Nat) (r : TRec) : Bool := r.vilen = 0 || (tRead s tn r.vimage r.vilen).isSome

/-- Coordinates of a linear index. -/
def coordsOf (s : State) (tn : Nat) (node : W64) (lin : Nat) : Nat × Nat × Nat :=
  let gx := rcb s tn node 0x40 4
  let gy := rcb s tn node 0x44 4
  (lin % gx, lin / gx % gy, lin / (gx * gy))

/-! Dependence (R20, R21). -/

/-- One dimension of a box, clipped to an extent. -/
def boxDim (g : Nat) (b : Int × Int × Int) (x : Nat) : List Nat :=
  let lo := max 0 (b.1 * x + b.2.1)
  let hi := min ((g : Int) - 1) (b.1 * x + b.2.2)
  rangeFrom lo.toNat (hi + 1 - lo).toNat

/-- Linear indices of the producers in a task's box, in the grid of its producer launch. -/
def prodLins (s : State) (tn : Nat) (r : TRec) (c : Nat × Nat × Nat) : List Nat :=
  let p := r.producer
  let gx := rcb s tn p 0x40 4
  let gy := rcb s tn p 0x44 4
  let xs := boxDim gx (r.box.getD 0 (0, 0, 0)) c.1
  let ys := boxDim gy (r.box.getD 1 (0, 0, 0)) c.2.1
  let zs := boxDim (rcb s tn p 0x48 4) (r.box.getD 2 (0, 0, 0)) c.2.2
  zs.flatMap fun z => ys.flatMap fun y => xs.map fun x => x + gx * (y + gy * z)

/-- A byte of a launch's bitmap, which the dispatcher reads and writes (R16). -/
def doneByte (s : State) (tn : Nat) (node : W64) (lin : Nat) : Nat :=
  ((tByte s tn false (ptrAdd (rcbPtr s tn node 0x38) (lin / 8 : Nat))).map fun k => (homeByte s k).toNat).getD 0

/-- A completion bit of a launch. -/
def doneBit (s : State) (tn : Nat) (node : W64) (lin : Nat) : Bool := bitOf (doneByte s tn node lin) (lin % 8)

/-- A PRODUCER that can be read, or none: a pointer of the record, judged under R18 (R16). -/
def producerReads (s : State) (tn : Nat) (r : TRec) : Bool := ptrOk0 s tn false r.producer 256

/-- A PRODUCER that R20 refuses. -/
def producerBad (s : State) (tn : Nat) (r : TRec) : Bool :=
  r.producer ≠ 0#64 && producerReads s tn r && (rcbKind s tn r.producer ≠ 3 || rcb s tn r.producer 5 1 ≠ tn)

/-- The producers' part of readiness. -/
def producersDone (s : State) (tn : Nat) (r : TRec) (c : Nat × Nat × Nat) : Bool :=
  r.producer = 0#64 || ((smFind s.launches (lkey s tn r.producer)).isSome && (prodLins s tn r c).all (doneBit s tn r.producer))

/-! The translation of a portable object, looked up by its key (R353). -/

def translOf (s : State) (tn : Nat) (r : TRec) : Option Transl :=
  match tRead s tn r.entry 64 with
  | none => none
  | some h => s.transl.find? fun t => t.digest = (h.drop 0x10).take 32 && t.tws = r.nctx :: r.tw && t.ver = Config.xlVersion s.pf.image

/-- A header within R351, for the widths of a task: its code's bytes and entry. -/
def headerOk (s : State) (tn : Nat) (r : TRec) (h : List Byte) : Option (List Byte × Nat) :=
  let n := leNat ((h.drop 8).take 4)
  let g := leNat ((h.drop 6).take 2)
  if leNat (h.take 4) = 0x4C575250 && leNat ((h.drop 4).take 2) = 0x8001 && [8, 16, 32, 64, 128, 256, 512, 1024].contains g
      && (h.drop 0x30).all (· = 0#8) && leNat ((h.drop 12).take 4) < n && (List.range r.nctx).all (fun k => g ≤ 2 ^ r.tw.getD k 0) then
    (tRead s tn (ptrAdd r.entry 64) n).bind fun code => if sha3 code = (h.drop 0x10).take 32 then some (code, leNat ((h.drop 12).take 4)) else none
  else none

/-- The portable object that a record names passes R351, translated before or not. -/
def objectOk (s : State) (tn : Nat) (r : TRec) : Bool :=
  r.isav ≠ 0x8001 || ((tRead s tn r.entry 64).bind (headerOk s tn r)).isSome

/-- The address a task starts at; none while a portable object has no translation in the region. -/
def entryOf (s : State) (tn : Nat) (r : TRec) : Option W64 :=
  if r.isav = 0x8001 then (translOf s tn r).bind fun t => t.addr.map fun a => BitVec.ofNat 64 (a + t.entry) else some r.entry

/-- What R21 asks of a task. A PRODUCER that cannot be read holds nothing back: the record's check reports it. -/
def mayStartRec (s : State) (tn : Nat) (node : W64) (r : TRec) (c : Nat × Nat × Nat) : Bool :=
  pathLive s tn (pathOf s tn node) && (!producerReads s tn r || producersDone s tn r c)

/-- A task is ready (R21, R353). -/
def readyRec (s : State) (tn : Nat) (node : W64) (r : TRec) (c : Nat × Nat × Nat) : Bool :=
  pathLive s tn (pathOf s tn node) && producersDone s tn r c && (entryOf s tn r).isSome

def taskReady (s : State) (t : Nat) : Bool :=
  let k := s.task t
  readyRec s k.tenant (s.launch k.launch).node k.r (k.x, k.y, k.z)

/-! Waybills (R246, R247). -/

/-- A region record; bounds and permissions apart. -/
def Region.of (s : State) (tn : Nat) (bs : List Byte) : Region :=
  let p := bW64 bs 0
  let w := bNum bs 8 8
  { base := p.toNat, va := (tBnd s tn p).va (offOf p), extent := bitsOf w 39 0, mode := bitsOf w 42 40, redop := bitsOf w 46 43,
    redty := bitsOf w 49 47, isLazy := bitOf w 50, forward := bitOf w 51 }

/-- The RED pairings of R160. -/
def redPair (op ty : Nat) : Bool := 1 ≤ op && op ≤ 6 && ty ≠ 7 && (ty < 4 || op = 1 || op = 5 || op = 6)

def regionIllegal (r : Region) (w : Nat) : Bool :=
  2 ^ 52 ≤ w || 4 < r.mode || r.extent = 0 || (if r.mode = 3 then !redPair r.redop r.redty else r.redop ≠ 0 || r.redty ≠ 0)

/-- What a mode needs of the bounds entry. -/
def modePerm (b : Bnd) (mode : Nat) : Bool :=
  match mode with
  | 0 => b.rp | 1 => b.w | 2 => b.rp && b.w | 3 => b.a | _ => b.rp && b.a

/-- The regions of a waybill, or the fault code of the first record that fails. -/
def regionsFrom (s : State) (tn : Nat) : List (List Byte) → Except Nat (List Region)
  | [] => .ok []
  | bs :: rest =>
    let r := Region.of s tn bs
    let p := bW64 bs 0
    let rid := ridOf p
    let b := tBnd s tn p
    if regionIllegal r (bNum bs 8 8) then .error fILLEGAL
    else if rid = 0 || 0xFD ≤ rid || !b.ok s || b.limit * 4096 < offOf p + r.extent then .error fRIDBOUND
    else if !modePerm b r.mode then .error fPERM
    else (regionsFrom s tn rest).map (r :: ·)

def readWaybill (s : State) (tn : Nat) (r : TRec) : Except Nat (List Region) :=
  if r.nreg = 0 then .ok []
  else if r.waybill.toNat % 16 ≠ 0 then .error fILLEGAL
  else
    match tRead s tn r.waybill (16 * r.nreg) with
    | none => .error fILLEGAL
    | some bs => regionsFrom s tn ((List.range r.nreg).map fun k => (bs.drop (16 * k)).take 16)

/-! Extents (R248). -/

/-- Runs of the windows from va on: each call takes one piece of at most 2 MiB and joins it to the last run. -/
def runsFrom (s : State) (tn region : Nat) : Nat → Nat → Nat → List Extent → Option (List Extent)
  | 0, _, _, acc => some acc
  | fuel + 1, va, stop, acc =>
    if stop ≤ va then some acc
    else
      match walkVA s tn va with
      | none => none
      | some (base, tgt, peer) =>
        let pa := base + va % 2 ^ 21
        let n := min stop ((va / 2 ^ 21 + 1) * 2 ^ 21) - va
        let acc := match acc.getLast? with
          | some e =>
            if e.pa + e.len = pa && e.tgt = tgt && e.peer = peer then acc.dropLast ++ [{ e with len := e.len + n }]
            else acc ++ [⟨va, n, pa, tgt, peer, region⟩]
          | none => [⟨va, n, pa, tgt, peer, region⟩]
        runsFrom s tn region fuel (va + n) stop acc

/-- The extents of a region, when every page is present. -/
def regionRuns (s : State) (tn k : Nat) (r : Region) : Option (List Extent) :=
  runsFrom s tn k (r.extent / 2 ^ 21 + 2) r.va (r.va + r.extent) []

/-- The extent table, and the regions with LAZY set where they did not fit. -/
def buildExtents (s : State) (tn : Nat) : Nat → List Region → List Extent → List Extent × List Region
  | _, [], acc => (acc, [])
  | k, r :: rs, acc =>
    let fit := if r.isLazy then none else (regionRuns s tn k r).bind fun x => if acc.length + x.length ≤ 32 then some x else none
    match fit with
    | some x => let (e, l) := buildExtents s tn (k + 1) rs (acc ++ x); (e, r :: l)
    | none => let (e, l) := buildExtents s tn (k + 1) rs acc; (e, { r with isLazy := true } :: l)

/-! Overlap (R250, R251). -/

def regionsMeet (a b : Region) : Bool := a.va < b.va + b.extent && b.va < a.va + a.extent

def regionsClash (a b : Region) : Bool :=
  regionsMeet a b && !(a.mode = 0 && b.mode = 0) && !(a.mode = 3 && b.mode = 3 && a.redop = b.redop && a.redty = b.redty)

/-- Task b of launch kb lies in the box of a task. -/
def inBox (s : State) (tn : Nat) (r : TRec) (c : Nat × Nat × Nat) (kb linb : Nat) : Bool :=
  r.producer ≠ 0#64 && lkey s tn r.producer = kb && (prodLins s tn r c).contains linb

/-- Tasks in the write-set table. -/
def inTable (k : Task) : Bool := k.st = .resident || k.st = .edgeOut

/-- A task is held by a conflict, or because the table has no room for its regions. -/
def heldBy (s : State) (tn key lin : Nat) (r : TRec) (c : Nat × Nat × Nat) (regs : List Region) : Bool :=
  let tab := s.tasks.filter fun e => inTable e.2
  4096 < (tab.map fun e => e.2.regions.length).foldl (· + ·) regs.length
  || tab.any fun e =>
      let k := e.2
      k.tenant = tn && !(overlapOk k.r && overlapOk r) && !inBox s tn r c k.launch k.lin && !inBox s tn k.r (k.x, k.y, k.z) key lin
      && regs.any fun a => k.regions.any fun b => regionsClash a b

/-! Budgets (R14). -/

/-- Clusters that hold resident contexts of the subtree of a node. -/
def subtreeCls (s : State) (tn : Nat) (p : W64) : List Nat :=
  (s.ctxs.foldl (fun acc e => if e.2.st.resident && s.tenOf e.2 = tn && (taskPath s e.2.task).contains p then e.2.cl :: acc else acc) []).eraseDups

/-- Vault bytes allotted to the subtree of a node. -/
def subtreeVault (s : State) (tn : Nat) (p : W64) : Nat :=
  (s.tasks.filter fun e => e.2.tenant = tn && (taskPath s e.1).contains p).foldl (fun a e => a + e.2.vbase.length * e.2.r.vbytes) 0

/-- New clusters and vault bytes break no ceiling on a path. -/
def budgetOk (s : State) (tn : Nat) (cls : List Nat) (vault : Nat) : List W64 → Bool
  | [] => true
  | p :: ps =>
    decide ((subtreeCls s tn p ++ cls).eraseDups.length ≤ effMaxcl s tn (p :: ps))
    && decide (subtreeVault s tn p + vault ≤ 1024 * effVault s tn (p :: ps)) && budgetOk s tn cls vault ps

/-! Room on a cluster (R24, R117, R335). -/

/-- Rows that a resident context holds: slice, first, end, quarters. -/
structure Occ where
  slice : Nat
  lo : Nat
  hi : Nat
  qs : List Nat
  narrow : Bool
  deriving DecidableEq, Repr

def occOf (s : State) (cl : Nat) : List Occ :=
  (s.ctxs.filter fun e => e.2.st.resident && e.2.cl = cl).map fun e =>
    ⟨e.2.slice, e.2.team.vb, e.2.team.vb + e.2.team.vl, e.2.quarters, e.2.team.w < 32⟩

/-- Maximal runs of numbers below n that satisfy p: first and length. -/
def runsWhere (p : Nat → Bool) (n : Nat) : List (Nat × Nat) :=
  (List.range n).foldl (fun acc k =>
    if !p k then acc
    else match acc with
      | (a, l) :: r => if a + l = k then (a, l + 1) :: r else (k, 1) :: acc
      | [] => [(k, 1)]) [] |>.reverse

def Occ.covers (o : Occ) (r : Nat) : Bool := o.lo ≤ r && r < o.hi

/-- Runs of rows of a slice that are free in every quarter. -/
def freeRuns (os : List Occ) (sl : Nat) : List (Nat × Nat) :=
  let here := os.filter fun o => o.slice = sl
  runsWhere (fun r => !here.any fun o => o.covers r) 2048

/-- Runs of rows that narrow teams use and that are free in some quarters. -/
def sharedRuns (os : List Occ) (sl : Nat) (qs : List Nat) : List (Nat × Nat) :=
  let here := os.filter fun o => o.slice = sl
  runsWhere (fun r => here.any (fun o => o.covers r && o.narrow) && !here.any fun o => o.covers r && o.qs.any qs.contains) 2048

/-- A place for a team: slice, first quarter, first row. -/
abbrev Spot := Nat × Nat × Nat

/-- The candidate with the shortest run, then the lowest slice, row and quarter: run length, slice, row, quarter. -/
def tightest (n : Nat) (xs : List (Nat × Nat × Nat × Nat)) : Option Spot :=
  (xs.filter fun x => n ≤ x.1).foldl (fun best x =>
    match best with
    | none => some x
    | some b => if x.1 < b.1 || (x.1 = b.1 && (x.2.1 < b.2.1 || (x.2.1 = b.2.1 && (x.2.2.1 < b.2.2.1 || (x.2.2.1 = b.2.2.1 && x.2.2.2 < b.2.2.2)))))
        then some x else some b) (none : Option (Nat × Nat × Nat × Nat)) |>.map fun x => (x.2.1, x.2.2.2, x.2.2.1)

/-- The longest of the runs of a slice, the lowest among equals. -/
def longest (xs : List (Nat × Nat)) : Option (Nat × Nat) :=
  xs.foldl (fun b x => match b with | none => some x | some y => if y.2 < x.2 then some x else some y) none

/-- The place of a run of n rows for a team of a width (R335). -/
def spotFor (os : List Occ) (w n : Nat) : Option Spot :=
  if 32 ≤ w then
    tightest n ((List.range 4).filterMap fun sl => (longest (freeRuns os sl)).map fun r => (r.2, sl, r.1, 0))
  else
    let qsets : List (List Nat) := if w = 8 then [[0], [1], [2], [3]] else [[0, 1], [2, 3]]
    let shared := (List.range 4).flatMap fun sl => qsets.flatMap fun qs => (sharedRuns os sl qs).map fun r => (r.2, sl, r.1, qs.headD 0)
    let free (held : Bool) := (List.range 4).flatMap fun sl =>
      if os.any (fun o => o.slice = sl) = held then (freeRuns os sl).map fun r => (r.2, sl, r.1, 0) else []
    match tightest n shared with
    | some x => some x
    | none => match tightest n (free true) with
      | some x => some x
      | none => tightest n (free false)

def quartersOf (w q : Nat) : List Nat := if w = 8 then [q] else if w = 16 then [q, q + 1] else [0, 1, 2, 3]

/-- Places one context after another: widths and rows to spots. -/
def spotsAlone (os : List Occ) : List (Nat × Nat) → Option (List Spot)
  | [] => some []
  | (w, n) :: r =>
    match spotFor os w n with
    | none => none
    | some (sl, q, vb) => (spotsAlone (⟨sl, vb, vb + n, quartersOf w q, w < 32⟩ :: os) r).map ((sl, q, vb) :: ·)

/-- The first rows of adjacent allotments. -/
def adjacent (sl : Nat) : Nat → List (Nat × Nat) → List Spot
  | _, [] => []
  | vb, (_, n) :: r => (sl, 0, vb) :: adjacent sl (vb + n) r

/-- Spots for the contexts of a task that are placed together: adjacent on one slice when all are wide and fit there. -/
def spotsFor (os : List Occ) (wn : List (Nat × Nat)) : Option (List Spot) :=
  let total := wn.foldl (fun a x => a + x.2) 0
  match (if wn.all (fun x => 32 ≤ x.1) then spotFor os 32 total else none) with
  | some (sl, _, vb) => some (adjacent sl vb wn)
  | none => spotsAlone os wn

/-- Free context slots of a cluster, lowest first. -/
def freeSlots (s : State) (cl : Nat) : List Nat := (List.range 8).filter fun n => (s.ctxAt cl n).isNone

/-- First byte of a free allotment of n vault bytes on a cluster: the lowest. -/
def vaultFit (s : State) (cl n : Nat) : Option Nat :=
  let held := s.tasks.filterMap fun e => (smFind e.2.vbase cl).map fun b => (b, b + e.2.r.vbytes)
  if n = 0 then some 0
  else
    (((0 :: held.map (·.2)).filter fun b => b + n ≤ 2 ^ 22 && !held.any fun h => h.1 < b + n && b < h.2)).foldl
      (fun m b => match m with | none => some b | some x => some (min x b)) none

/-- Where contexts go on a cluster: slot and spot of each, first vault byte. -/
structure Fit where
  cl : Nat
  spots : List (Nat × Spot)
  vb : Nat
  /-- The vault allotment is new. -/
  fresh : Bool
  deriving DecidableEq, Repr

/-- Room on a cluster for contexts of given widths and rows, and for the vault of a task that may hold an allotment there. -/
def fitOn (s : State) (cl : Nat) (wn : List (Nat × Nat)) (vbytes : Nat) (have? : Option Nat) : Option Fit :=
  let slots := freeSlots s cl
  if slots.length < wn.length then none
  else
    match spotsFor (occOf s cl) wn, (match have? with | some b => some b | none => vaultFit s cl vbytes) with
    | some sp, some vb => some ⟨cl, slots.zip sp, vb, have?.isNone⟩
    | _, _ => none

/-- Hops between two clusters of one die (R6, R7). -/
def hops (a b : Nat) : Nat :=
  let d (x y : Nat) : Nat := max x y - min x y
  d (a % 96 / 12) (b % 96 / 12) + d (a % 12) (b % 12)

/-- Numbers in order of a measure, smallest first; equal ones stay in order. -/
def insertBy {α : Type} (f : α → Nat) (x : α) : List α → List α
  | [] => [x]
  | y :: r => if f x < f y then x :: y :: r else y :: insertBy f x r
def sortBy {α : Type} (f : α → Nat) (xs : List α) : List α := xs.foldl (fun acc x => insertBy f x acc) []

/-- Clusters in the dispatcher's order of preference (R334). -/
def preferred (s : State) (tn : Nat) (r : TRec) (regs : List Region) (fwd : Option Nat) : List Nat :=
  let die : Option Nat := match regs with
    | g :: _ => (walkVA s tn g.va).bind fun x => if x.2.1 = 2 then none else some (homeOf (tgtKey x.2.1 x.2.2 (x.1 + g.va % 2 ^ 21)) / 96)
    | [] => none
  let by_ := sortBy fun c => 8 - (freeSlots s c).length
  let rest := match die with
    | some d => by_ ((List.range 192).filter fun c => c / 96 = d) ++ by_ ((List.range 192).filter fun c => c / 96 ≠ d)
    | none => by_ (List.range 192)
  ((match fwd with | some c => if regs.any (·.forward) then [c] else [] | none => [])
    ++ (if r.affcl < 192 then [r.affcl] else []) ++ (match smFind s.warm r.adapter with | some c => [c] | none => []) ++ rest).eraseDups

/-- The rest of a multicast group: clusters of the first one's die with room, the nearest first. -/
def groupFits (s : State) (first n : Nat) (wn : List (Nat × Nat)) (vbytes : Nat) : List Fit :=
  ((sortBy (hops first) ((List.range 192).filter fun c => c / 96 = first / 96 && c ≠ first)).filterMap fun c => fitOn s c wn vbytes none).take n

/-- The first cluster, or group, with room within the budgets: room as one state has it, totals as another. -/
def findRoom (s room : State) (tn : Nat) (path : List W64) (wn : List (Nat × Nat)) (vbytes mcg : Nat) : List Nat → Option (List Fit)
  | [] => none
  | c :: cs =>
    let fits := match fitOn room c wn vbytes none with
      | none => []
      | some f => f :: groupFits room c (mcg - 1) wn vbytes
    if fits.length = mcg && budgetOk s tn (fits.map (·.cl)) (mcg * vbytes) path then some fits
    else findRoom s room tn path wn vbytes mcg cs

/-- Widths and rows of a record's contexts. -/
def TRec.shapes (r : TRec) : List (Nat × Nat) := (List.range r.nctx).map fun k => (2 ^ r.tw.getD k 0, r.rows.getD k 0)

/-- No empty cluster would hold the task (R24). -/
def neverFits (r : TRec) : Bool := (spotsFor [] r.shapes).isNone

/-- The producers in a task's box, where they have been placed. -/
def boxTasks (s : State) (tn : Nat) (r : TRec) (c : Nat × Nat × Nat) : List (Option Task) :=
  if r.producer = 0#64 then []
  else
    let key := lkey s tn r.producer
    (prodLins s tn r c).map fun l => (s.tasks.find? fun e => e.2.launch = key && e.2.lin = l).map (·.2)

/-- Where the last context of a producer in the box retired: of the producers, the latest to retire (R334; log 131, DESIGN CHOICE). -/
def forwardCl (s : State) (tn : Nat) (r : TRec) (c : Nat × Nat × Nat) : Option Nat :=
  (((boxTasks s tn r c).filterMap id).foldl (fun (b : Option Task) x =>
    match b with
    | some y => if x.lastCl.isSome && y.doneAt ≤ x.doneAt then some x else b
    | none => if x.lastCl.isSome then some x else b) none).bind (·.lastCl)

end Sys2Proof.Machine
end

