-- ==== Sys2Proof/Machine/Edges.lean ====
section
/-! DEFINITION. The edge engine: edge-in, edge-out, TWAITP, and the step from RESIDENT-EARLY to RUNNING (R249, R252 to R258, R262, R357,
R368). -/

namespace Sys2Proof.Machine

/-- Position of a cluster in a task's group. -/
def gposOf (k : Task) (cl : Nat) : Nat := k.cls.idxOf cl

/-- Regions that an edge-in covers, and that an edge-out writes back (R252, R254). -/
def Region.covered (r : Region) : Bool := r.mode = 0 || r.mode = 2 || r.mode = 4
def Region.writes (r : Region) : Bool := r.mode = 1 || r.mode = 2

/-- Windows of a cluster's translation cache that a task filled, as physical keys (R249). -/
def taskWindows (s : State) (t cl : Nat) (r : Region) : List (Nat × Nat) :=
  ((s.cl cl).tc.filter fun e => e.task = t && e.win * 2 ^ 21 < r.va + r.extent && r.va < (e.win + 1) * 2 ^ 21).map fun e =>
    (tgtKey e.tgt e.peer e.pa, 2 ^ 21)

/-- Physical ranges of a region on a cluster: its extents, or its windows when it is LAZY. Peer memory is never in L1. -/
def regionRanges (s : State) (t cl k : Nat) : List (Nat × Nat) :=
  let x := s.task t
  match x.regions[k]? with
  | none => []
  | some r =>
    (if r.isLazy then taskWindows s t cl r else (x.extents.filter fun e => e.region = k).map fun e => (tgtKey e.tgt e.peer e.pa, e.len)).filter
      fun g => isCached g.1

/-- The cluster's fetched code of a tenant is discarded (R357). -/
def dropCode (s : State) (tn cl : Nat) : State := s.modCl cl fun c => { c with icache := c.icache.filter fun e => e.2.2 ≠ tn }

/-- Lines of a region are written back and invalidated (R252). -/
def flushRegion (s : State) (t cl k : Nat) : State := (regionRanges s t cl k).foldl (fun s g => l1FlushRange s cl g.1 g.2) s

/-- R252 does not cover W regions, and a load from one may return nothing older than the edge-in or than the task's own stores (R141, R153):
copies of their bytes that are older than their homes are no longer valid (log 132, DEDUCED). -/
def freshenW (s : State) (t cl : Nat) : State :=
  ((List.range (s.task t).regions.length).flatMap fun k =>
    if ((s.task t).regions[k]?).any (fun r => r.mode = 1) then regionRanges s t cl k else []).foldl (fun s g => dropStale s cl g.1 g.2) s

/-- A covered FORWARD region keeps its lines on the cluster where every producer's last context retired (R253). -/
def keepsLines (s : State) (t cl : Nat) (r : Region) : Bool :=
  let k := s.task t
  let ps := boxTasks s k.tenant k.r (k.x, k.y, k.z)
  r.forward && r.covered && !ps.isEmpty && ps.all fun x => x.any fun y => y.lastCl = some cl

/-- The edge-in of one region on a cluster, once per residency. -/
def edgeIn (s : State) (t cl k : Nat) : State :=
  let x := s.task t
  let key := 16 * gposOf x cl + k
  match x.regions[k]? with
  | none => s
  | some r =>
    if !r.covered || x.edgedIn.contains key then s
    else (if keepsLines s t cl r then s else flushRegion s t cl k).modTask t fun x => { x with edgedIn := key :: x.edgedIn }

/-- The edge-in of regions, with the discard of fetched code of a task that names a PRODUCER. -/
def edgeInList (s : State) (t cl : Nat) (ks : List Nat) : State :=
  let s := if (s.task t).r.producer ≠ 0#64 then dropCode s (s.task t).tenant cl else s
  freshenW (ks.foldl (fun s k => edgeIn s t cl k) s) t cl

def edgeInAll (s : State) (t cl : Nat) : State := edgeInList s t cl (List.range (s.task t).regions.length)

/-- Every covered region has had its edge-in on a cluster. -/
def allEdged (s : State) (t cl : Nat) : Bool :=
  let x := s.task t
  (List.range x.regions.length).all fun k =>
    !((x.regions[k]?).any Region.covered) || x.edgedIn.contains (16 * gposOf x cl + k)

/-- The edge-in of a restore: every region whose edge-in had been received (R262), with the discard of fetched code (R357). -/
def edgeAgain (s : State) (t cl : Nat) : State :=
  let x := s.task t
  let s := if x.r.producer ≠ 0#64 then dropCode s x.tenant cl else s
  freshenW ((List.range x.regions.length).foldl (fun s k => if x.edgedIn.contains (16 * gposOf x cl + k) then flushRegion s t cl k else s) s) t cl

/-- Steps 1 to 3 of an edge-out on one cluster: every store of the model is performed when its step is made, so what is left are the dirty
bytes of the W and RW regions and of the LAZY windows (R254). -/
def edgeOutOn (s : State) (t cl : Nat) : State :=
  let x := s.task t
  ((List.range x.regions.length).flatMap fun k => if (x.regions[k]?).any Region.writes then regionRanges s t cl k else []).foldl
    (fun s g => l1CleanRange s cl g.1 g.2) s

/-- A task leaves OUTST along its path; its launch is complete when nothing of it is left (R22, R357). -/
def taskGone (s : State) (t : Nat) : State :=
  let x := s.task t
  let l := s.launch x.launch
  let s := s.setLaunch x.launch { l with gone := x.lin :: l.gone }
  let s := addOutst s x.tenant (-1) (pathOf s x.tenant l.node)
  if rcbOutst s x.tenant l.node = 0 then s.modLaunch x.launch fun l => { l with completed := true } else s

/-- EDGE_OUT. -/
def execEdgeOut (t : Nat) (s : State) : R :=
  .next (let x := s.task t
    if x.st ≠ .edgeOut then s
    else
      let s := x.ranOn.foldl (fun s c => edgeOutOn s t c) s
      let node := (s.launch x.launch).node
      let s := tWrite s x.tenant (ptrAdd (rcbPtr s x.tenant node 0x38) (x.lin / 8 : Nat))
        (leBytes 1 (orBit (doneByte s x.tenant node x.lin) (x.lin % 8)))
      let s : State := { s with cls := s.cls.map fun e => (e.1, { e.2 with tc := e.2.tc.filter fun w => w.task ≠ t }) }
      taskGone (s.modTask t fun x => { x with st := .retired, vbase := [], extents := [], ranOn := [] }) t)

/-- EDGE_IN: the remaining edge-ins of a RESIDENT-EARLY task that has become ready (R27). -/
def execEdgeIn (t cl : Nat) (s : State) : R :=
  .next (if (s.task t).st = .resident && (s.residentOf t).any (fun e => e.2.cl = cl && e.2.st.isEarly) && taskReady s t then edgeInAll s t cl else s)

/-- A RESIDENT-EARLY context becomes RUNNING, or waits as a RUNNING one; its edge-in is over, and with it, on every cluster of a task that
names a PRODUCER, the discard of fetched code (R357). -/
def toRunning (s : State) (cid : Nat) : State :=
  let k := s.task (s.ctx cid).task
  let s := if k.early && k.r.producer ≠ 0#64 then k.cls.foldl (fun s c => dropCode s k.tenant c) s else s
  let s := freshenW s (s.ctx cid).task (s.ctx cid).cl
  (s.modTask (s.ctx cid).task fun k => { k with early := false }).modCtx cid fun c =>
    { c.counted s.us with st := match c.st with | .early => .running | .waiting true => .waiting false | x => x }

/-- A RESIDENT-EARLY context whose task is ready, with every edge-in applied. -/
def mayRun (s : State) (cid : Nat) : Bool := (s.ctx cid).st.isEarly && taskReady s (s.ctx cid).task && allEdged s (s.ctx cid).task (s.ctx cid).cl

/-- EARLY_TO_RUNNING. -/
def execEarlyToRunning (s : State) : R := .next (if mayRun s s.cur then toRunning s s.cur else s)

/-! TWAITP (R258). -/

/-- The regions of a producer's waybill: those of its placement, else its records as they stand, whether or not they pass R247. -/
def waybillOf (s : State) (tn : Nat) (node : W64) (lin : Nat) : List Region :=
  match s.tasks.find? (fun e => e.2.tenant = tn && e.2.launch = lkey s tn node && e.2.lin = lin) with
  | some e => e.2.regions
  | none =>
    match readRec s tn node lin with
    | none => []
    | some r =>
      match tRead s tn r.waybill (16 * r.nreg) with
      | none => []
      | some bs => (List.range r.nreg).map fun k => Region.of s tn ((bs.drop (16 * k)).take 16)

/-- Producers in the box whose waybill may write bytes of region k. -/
def writersOf (s : State) (x : Task) (k : Nat) : List Nat :=
  let lins := prodLins s x.tenant x.r (x.x, x.y, x.z)
  match x.regions[k]? with
  | none => []
  | some r => lins.filter fun l => (waybillOf s x.tenant x.r.producer l).any fun q => 1 ≤ q.mode && q.mode ≤ 4 && regionsMeet q r

/-- The end of a TWAITP whose producers are done: the edge-ins, the acquire action, and RUNNING when nothing is left (R368). -/
def twaitpDone (s : State) (ks : List Nat) : State :=
  let s := edgeInList s s.me.task s.me.cl ks
  let s := waitDone (acquire s s.me.cl 3)
  if mayRun s s.cur then toRunning s s.cur else s

/-- Every completion bit that TWAITP of a region, or of all, waits for is set. -/
def producersOver (s : State) (x : Task) (k : Option Nat) : Bool :=
  x.r.producer = 0#64 ||
  (match k with
   | some k => writersOf s x k
   | none => prodLins s x.tenant x.r (x.x, x.y, x.z)).all (doneBit s x.tenant x.r.producer)

/-- TWAITP. -/
def execTwaitp (k : BitVec 4) (s : State) : R :=
  let x := s.task s.me.task
  .next (if x.r.nreg ≤ k.toNat then trapSub s fILLEGAL 0x31
    else if producersOver s x (some k.toNat) then twaitpDone s [k.toNat]
    else waitOn s (.prod (some k.toNat)))

/-- TWAITP.ALL. -/
def execTwaitpAll (s : State) : R :=
  let x := s.task s.me.task
  .next (if producersOver s x none then twaitpDone s (List.range x.regions.length)
    else waitOn s (.prod none))

end Sys2Proof.Machine
end

