-- ==== Sys2Proof/Machine/Launches.lean ====
section
/-! DEFINITION. Launch areas and their records, submission of a launch, host writes of STATE, TSPAWN (R13, R17, R20 to R23, R261, R325 to
R327, R337, R357). -/

namespace Sys2Proof.Machine

/-! Submission (R21, R22, R326). -/

/-- On a SUBMIT, the tenant's fetched code goes on every cluster when a launch of the area has completed since the last time, or the tail
store was a host write (R357). -/
def discardCode (s : State) (tn : Nat) : State :=
  if (s.tenant tn).hostTail || s.launches.any (fun e => e.2.tenant = tn && e.2.completed) then
    let s := s.cls.foldl (fun s e => dropCode s tn e.1) s
    { s with launches := s.launches.map fun e => if e.2.tenant = tn then (e.1, { e.2 with completed := false }) else e }
  else s

/-- A task of the launch names a PRODUCER that R20 refuses. -/
def producersBad (s : State) (tn : Nat) (node : W64) : Bool :=
  (List.range (if rcb s tn node 0x4C 1 = 1 then launchSize s tn node else 1)).any fun l => (readRec s tn node l).any (producerBad s tn)

/-- What an earlier submission of the node left behind goes. -/
def forgetTasks (s : State) (key : Nat) : State :=
  let old := (s.tasks.filter fun e => e.2.launch = key).map (·.1)
  { s with tasks := s.tasks.filter (fun e => e.2.launch ≠ key), ctxs := s.ctxs.filter fun e => !old.contains e.2.task }

/-- A launch whose checks are passed: the bitmap is cleared and the tasks are counted; beneath a KILLED node it is killed. -/
def openLaunch (s : State) (tn : Nat) (node : W64) : State :=
  let key := lkey s tn node
  let path := pathOf s tn node
  let n := launchSize s tn node
  let s := tWrite s tn (rcbPtr s tn node 0x38) (List.replicate (ceilDiv n 8) 0)
  let s := (forgetTasks s key).setLaunch key { Launch.none with tenant := tn, node := node, submitted := true, subAt := s.ticks }
  let s := addOutst s tn n path
  if path.any (fun p => rcbState s tn p = 2) then killLaunch s key else s

/-- Links and submits a node; one that breaks R12 or R20 is set to ERROR. A node that is no LAUNCH with OUTST = 0 has no effect but the
error interrupt. -/
def submitNode (s : State) (tn : Nat) (node : W64) : State :=
  let k := rcbKind s tn node
  if !rcbOk s tn node || k < 1 || 3 < k then rcbError s tn node
  else if k ≠ 3 || rcbOutst s tn node ≠ 0 then vfErr s tn 1
  else
    let s := linkNode s tn node
    let (s, ok) := judgePath s tn (pathOf s tn node)
    if !ok then s
    else if producersBad s tn node then rcbError s tn node
    else openLaunch s tn node

/-! Launch areas (R325). -/

def areaPtr (s : State) (tn : Nat) : W64 := rcbPtr s tn (s.tenant tn).root 0x30
def area (s : State) (tn off n : Nat) : Nat := tNat s tn (ptrAdd (areaPtr s tn) off) n
def areaSet (s : State) (tn off n v : Nat) : State := tWrite s tn (ptrAdd (areaPtr s tn) off) (leBytes n v)
def areaHead (s : State) (tn : Nat) : Nat := area s tn 8 8
def areaTail (s : State) (tn : Nat) : Nat := area s tn 0 8
def areaSlots (s : State) (tn : Nat) : Nat := 2 ^ area s tn 0x10 1

/-- The dispatcher watches the area: the tenant is enabled, its root is good, and STATUS is 0. -/
def areaOpen (s : State) (tn : Nat) : Bool :=
  let t := s.tenant tn
  t.enable && !nodeBad s tn t.root [] && area s tn 0x11 1 = 0

/-- The area stops at a record (R326). -/
def areaStop (s : State) (tn sq : Nat) : State :=
  (vfErr (areaSet (areaSet s tn 0x11 1 1) tn 0x18 8 sq) tn 1).modTenant tn fun t => { t with consuming := false }

/-- A TAIL that R326 refuses. -/
def tailBad (s : State) (tn : Nat) : Bool := areaTail s tn < areaHead s tn || areaHead s tn + areaSlots s tn < areaTail s tn

/-- TAIL_MONITOR_WAKE: the tail has moved. -/
def execTailMonitorWake (t : Nat) (s : State) : R :=
  .next (if !areaOpen s t || areaHead s t = areaTail s t then s
    else if tailBad s t then areaStop s t (areaHead s t)
    else s.modTenant t fun x => { x with consuming := true })

/-- The slot of record h. -/
def recordPtr (s : State) (tn h : Nat) : W64 := ptrAdd (areaPtr s tn) (64 + 64 * (h % areaSlots s tn) : Nat)

/-- The record at HEAD; none when its slot cannot be read. -/
def recordAt (s : State) (tn h : Nat) : Option (List Byte) := tRead s tn (recordPtr s tn h) 64

def recordBad (h : Nat) (r : List Byte) : Bool :=
  4 < bNum r 0 1 || bNum r 1 7 ≠ 0 || bNum r 8 8 ≠ h || (r.drop 0x18).any (· != 0)

/-- Consumes the record at HEAD when its OP is the given one. -/
def consumeOp (t op : Nat) (f : State → W64 → State) (s : State) : R :=
  .next (let h := areaHead s t
    if !areaOpen s t || !(s.tenant t).consuming || h = areaTail s t then s
    else if tailBad s t then areaStop s t h
    else
      let x := tTouch s t (recordPtr s t h) 64
      match recordAt s t h with
      | none => areaStop x t h
      | some r =>
        if recordBad h r then areaStop x t h
        else if bNum r 0 1 ≠ op then s
        else
          let s := areaSet (f x (bW64 r 0x10)) t 8 8 (h + 1)
          if h + 1 = areaTail s t then s.modTenant t fun x => { x with consuming := false, hostTail := false } else s)

/-- SUBMIT: fetched code is discarded as the record is consumed, whatever becomes of its node (R357). -/
def execSubmit (t : Nat) (s : State) : R := consumeOp t 1 (fun s p => submitNode (discardCode s t) t p) s

/-- A node whose words cannot be read and written, or that is of no KIND, breaks R12 whatever its path. -/
def noNode (s : State) (tn : Nat) (p : W64) : Bool := !rcbOk s tn p || rcbKind s tn p < 1 || 3 < rcbKind s tn p

/-- LINK: NODE is a JOB. -/
def linkRecord (s : State) (tn : Nat) (p : W64) : State :=
  let k := rcbKind s tn p
  if noNode s tn p then rcbError s tn p
  else if k ≠ 2 then vfErr s tn 1
  else let s := linkNode s tn p; (judgePath s tn (pathOf s tn p)).1

def execLink (t : Nat) (s : State) : R := consumeOp t 2 (fun s p => linkRecord s t p) s

/-- UNLINK: NODE has OUTST = 0 and no child. -/
def unlinkRecord (s : State) (tn : Nat) (p : W64) : State :=
  if noNode s tn p then rcbError s tn p
  else if rcbOutst s tn p ≠ 0 || rcb s tn p 0x10 8 ≠ 0 then vfErr s tn 1
  else
    let (s, ok) := judgePath s tn (pathOf s tn p)
    if ok then unlinkNode s tn p else s

def execUnlink (t : Nat) (s : State) : R := consumeOp t 3 (fun s p => unlinkRecord s t p) s

/-- A node and every node below it. -/
def nodesBelow (s : State) (tn : Nat) : Nat → W64 → List W64
  | 0, _ => []
  | n + 1, p => p :: (if rcbKind s tn p = 3 then [] else (childrenOf s tn p).flatMap fun c => nodesBelow s tn n c)

/-- RESUME: the contexts that stand SAVED under REPORT become restorable; FAULTREC is cleared at and below NODE. -/
def resumeRecord (s : State) (tn : Nat) (p : W64) : State :=
  if noNode s tn p then rcbError s tn p
  else if rcb s tn p 5 1 ≠ tn then vfErr s tn 1
  else
    let (s, ok) := judgePath s tn (pathOf s tn p)
    if !ok then s
    else
      let s : State := { s with ctxs := s.ctxs.map fun e =>
        if e.2.report && e.2.st = .saved && s.tenOf e.2 = tn && (taskPath s e.2.task).contains p then (e.1, { e.2 with report := false }) else e }
      (nodesBelow s tn 6 p).foldl (fun s q => tWrite s tn (ptrAdd q 0x68) (List.replicate 16 0)) s

def execLaunchResume (t : Nat) (s : State) : R := consumeOp t 4 (fun s p => resumeRecord s t p) s

/-- NOP. -/
def execLaunchNop (t : Nat) (s : State) : R := consumeOp t 0 (fun s _ => s) s

/-! The host's writes of single fields. -/

/-- The device answers the host: reset has ended well, no trip, the link is up. -/
def hostUp (s : State) : Bool := s.pf.ready && !s.pf.trip && s.pf.linkUp

/-- A byte that the host reaches: in the part of device memory that HDMSIZE maps, or its own (R342). -/
def hostReaches (s : State) (k : Option Nat) : Bool :=
  hostUp s && k.any fun k => if isDevice k then decide (k < s.pf.hdmsize * 2 ^ 28) else isHost k

/-- LAUNCH_AREA_RESUME: the host writes STATUS = 0. -/
def execLaunchAreaResume (t : Nat) (s : State) : R :=
  .next (if !hostReaches s (tByte s t true (ptrAdd (areaPtr s t) 0x11)) then s
    else (areaSet s t 0x11 1 0).modTenant t fun x => { x with consuming := x.enable })

/-- RCB_STATE_WRITE: the host resumes a PAUSED node, or kills a subtree (R13). -/
def execRcbStateWrite (t node st : Nat) (s : State) : R :=
  let p : W64 := BitVec.ofNat 64 node
  .next (if !rcbOk s t p || !hostReaches s (tByte s t true (ptrAdd p 4)) then s
    else if st = 0 ∧ rcbState s t p = 1 then rcbSet s t p 4 1 0
    else if st = 2 then killSubtree s t p
    else s)

/-! TSPAWN (R261, R337). -/

/-- A local TSPAWN counts 1 at the issuer's launch until the spawned launch has retired. -/
def spawnHere (s : State) (d : GReg) (node : W64) : State :=
  let tn := s.tenOf s.me
  let key := (s.task s.me.task).launch
  if Config.spawnFull s.ticks then s.done d 1
  else
    let s := addOutst s tn 1 (taskPath s s.me.task)
    let (id, s) := s.fresh
    let s := submitNode s tn node
    ({ s with remotes := s.remotes ++ [⟨id, some key, none, true, some (lkey s tn node)⟩] } : State).done d 0

/-- TSPAWN. -/
def execTspawn (d a b : GReg) (s : State) : R :=
  let p := s.reg a
  let dev := (s.reg b).toNat
  let e := bndOf s.me p
  .next (if 0x100 ≤ dev then trapSub s fILLEGAL 0x32
    else if !aligned p 256 then trap s fALIGN p
    else if dev ≠ 0xFF && !(0 < ridOf p && ridOf p < 0xFD && e.tgt = 2 && e.peer = dev) then trap s fPERM p
    else if dev ≠ 0xFF && smGet 0 s.pf.route dev = 0 then (release s s.me.cl 7).done d 2
    else
      genDo s .ld polCl p 256 fun s ks =>
        let s := release s s.me.cl 7
        if dev = 0xFF then spawnHere s d p
        else sendRemote (addOutst s (s.tenOf s.me) 1 (taskPath s s.me.task)) dev (ks.headD 0 / 256) d true)

end Sys2Proof.Machine
end

