-- ==== Sys2Proof/Machine/Turns.lean ====
section
/-! DEFINITION. Turns among the children of a node: what is runnable, deficits, the priority cap, and whose turn it is (R330, R331). -/

namespace Sys2Proof.Machine

def nodeTn (n : Nat) : Nat := n / 2 ^ 64
def nodePtr (n : Nat) : W64 := BitVec.ofNat 64 n

/-- Children of a node in list order; those of the package are the trees of the enabled tenants. -/
def kidsOf (s : State) (n : Nat) : List Nat :=
  if n = pkgNode then (s.tenants.filter fun e => e.2.enable).map fun e => nodeId e.1 e.2.root
  else (childrenOf s (nodeTn n) (nodePtr n)).map (nodeId (nodeTn n))

/-- What a record says of a task, with its checks passed; else the fault code that is reported (R18, R19, R247, R351). -/
def checkTask (s : State) (tn : Nat) (node : W64) (lin : Nat) : Except Nat (TRec × List Region) :=
  match readRec s tn node lin with
  | none => .error fILLEGAL
  | some r =>
    if !r.ok || !vimageOk s tn r || !producerReads s tn r || !objectOk s tn r then .error fILLEGAL
    else (readWaybill s tn r).map fun regs => (r, regs)

/-- A task that has not been dispatched is ready and not held (R330). -/
def linRunnable (s : State) (tn key : Nat) (node : W64) (lin : Nat) : Bool :=
  match checkTask s tn node lin with
  | .error _ => false
  | .ok (r, regs) =>
    let c := coordsOf s tn node lin
    readyRec s tn node r c && !heldBy s tn key lin r c regs

/-- Linear indices of a launch that have not been dispatched. -/
def dormantLins (s : State) (key : Nat) : List Nat :=
  let l := s.launch key
  if !l.submitted then [] else (List.range (launchSize s l.tenant l.node)).filter fun k => !l.placed.contains k && !l.gone.contains k

/-- A SAVED context that the dispatcher could restore. -/
def restorable (s : State) (cid : Nat) : Bool :=
  let c := s.ctx cid
  let k := s.task c.task
  c.st = .saved && !c.report && k.st = .resident && (s.tenant k.tenant).enable && pathLive s k.tenant (taskPath s c.task)

/-- A launch, or a task, lies in the subtree of a node. -/
def launchUnder (s : State) (n : Nat) (l : Launch) : Bool :=
  l.tenant = nodeTn n && l.submitted && (pathOf s l.tenant l.node).contains (nodePtr n)
def taskUnder (s : State) (n t : Nat) : Bool := (s.task t).tenant = nodeTn n && (taskPath s t).contains (nodePtr n)

/-- A node's subtree holds a ready task that is not held, placed or not (log 55, DEDUCED), or a SAVED context that could be restored. -/
def runnable (s : State) (n : Nat) : Bool :=
  s.launches.any (fun e => launchUnder s n e.2 && (dormantLins s e.1).any (linRunnable s e.2.tenant e.1 e.2.node))
  || s.ctxs.any fun e => taskUnder s n e.2.task && ((e.2.st.resident && !e.2.st.isEarly && taskReady s e.2.task) || restorable s e.1)

def nodeLevel (s : State) (n : Nat) : Nat := effPrio s (nodeTn n) (pathOf s (nodeTn n) (nodePtr n))

/-- Q of a child, in µs. -/
def quantumOf (s : State) (n : Nat) : Int := 100 * effWeight s (nodeTn n) (pathOf s (nodeTn n) (nodePtr n))
def defOf (s : State) (n : Nat) : Int := smGet 0 s.defs n
def setDef (s : State) (n : Nat) (v : Int) : State := { s with defs := smSet s.defs n v }

/-- Cluster-time of the last 10 ms at a node's levels that satisfy f. -/
def levelTime (s : State) (n : Nat) (f : Nat → Bool) : Nat :=
  (s.turnLog.filter fun x => x.2.1 = n && s.us ≤ x.1 + 10000 && f x.2.2.1).foldl (fun a x => a + x.2.2.2) 0

/-- A level has had the fraction c of what the higher levels left of the node's cluster-time, while a lower level is runnable. -/
def capped (s : State) (n lv : Nat) (lower : Bool) : Bool :=
  let left := levelTime s n (lv ≤ ·)
  lower && left ≠ 0 && decide (s.pf.priocap * left ≤ 100 * levelTime s n (· = lv))

/-- The children of a level, from the one after the last served. -/
def roundFrom (last : Option Nat) (xs : List Nat) : List Nat :=
  match last with
  | some l => if xs.contains l then (xs.dropWhile (· ≠ l)).tail ++ xs.takeWhile (· ≠ l) ++ [l] else xs
  | none => xs

/-- The runnable children of a node. -/
def runKids (s : State) (n : Nat) : List Nat := (kidsOf s n).filter (runnable s)

/-- A level of a node that lends its place: it has reached its cap while a lower one is runnable. -/
def lends (s : State) (n lv : Nat) : Bool := capped s n lv ((runKids s n).any fun k => lv < nodeLevel s k)

/-- The child that takes the next turn of a node: of the highest level that is not capped. -/
def nextKid (s : State) (n : Nat) : List Nat → Option Nat
  | [] => none
  | lv :: rest =>
    let run := runKids s n
    let here := roundFrom (smFind s.servedLast (8 * n + lv)) ((kidsOf s n).filter fun k => nodeLevel s k = lv)
    match here.find? run.contains with
    | some k => if lends s n lv then nextKid s n rest else some k
    | none => nextKid s n rest

/-- The priority level that a node serves. -/
def servedLevel (s : State) (n : Nat) : Option Nat := (nextKid s n (List.range 8)).map (nodeLevel s)

/-- A child's deficit when its turn comes: it grows by the quantum. -/
def grownDef (s : State) (k : Nat) : Int := min (defOf s k + quantumOf s k) (quantumOf s k)

/-- A turn begins. -/
def beginTurn (s : State) (n k : Nat) : State := setDef { s with turns := smSet s.turns n k } k (grownDef s k)

/-- A child whose deficit has not come above zero is passed over, with what it has left to make up (R330). -/
def passOver (s : State) (n k : Nat) : State :=
  setDef { s with servedLast := smSet s.servedLast (8 * n + nodeLevel s k) k } k (max (grownDef s k) (-(quantumOf s k)))

/-- The next turn at a node goes to the first child in order whose deficit comes above zero. A child is passed over three times at most. -/
def nextTurn (n : Nat) : Nat → State → State
  | 0, s => s
  | fuel + 1, s =>
    match nextKid s n (List.range 8) with
    | some k => if 0 < grownDef s k then beginTurn s n k else nextTurn n fuel (passOver s n k)
    | none => s

/-- The node of which the first of a path is a child. -/
def parentOf (tn : Nat) : List W64 → Nat
  | q :: _ => nodeId tn q
  | [] => pkgNode

/-- Every node of a path holds its parent's turn, at the level that the parent serves (R331). -/
def holdsTurn (s : State) (tn : Nat) : List W64 → Bool
  | [] => true
  | p :: ps =>
    let n := parentOf tn ps
    let k := nodeId tn p
    smFind s.turns n = some k && decide (0 < defOf s k) && servedLevel s n = some (nodeLevel s k) && holdsTurn s tn ps

/-- A node serves its children while it holds a turn itself. -/
def serves (s : State) (n : Nat) : Bool := n = pkgNode || holdsTurn s (nodeTn n) (pathOf s (nodeTn n) (nodePtr n))

/-- The holder's time is taken from its deficit. Its turn goes on while the deficit is positive, the holder runnable, its level the one that
the node serves (R331), and the node holds its own turn. -/
def chargeTurn (s : State) (n k elapsed : Nat) : State :=
  let q := quantumOf s k
  let d := if runnable s k then max (defOf s k - (elapsed : Int)) (-q) else 0
  let on := decide (0 < d) && serves s n && servedLevel s n = some (nodeLevel s k)
  let s := setDef s k d
  if on then s else { s with turns := smDel s.turns n, servedLast := smSet s.servedLast (8 * n + nodeLevel s k) k }

/-- QUANTUM_EXPIRY: time passes at a node, and when its turn is over the next child's begins. -/
def execQuantumExpiry (node elapsed : Nat) (s : State) : R :=
  .next (let s := s.ctxs.foldl (fun s e => accrue s e.1) s
    let s := match smFind s.turns node with
      | some k => chargeTurn s node k elapsed
      | none => s
    match smFind s.turns node with
    | some _ => s
    | none => if serves s node then nextTurn node (3 * (kidsOf s node).length + 1) s else s)

/-- A child that is not runnable has no deficit: it begins again at 0 when it becomes runnable. -/
def clearDefs (s : State) : State :=
  if s.defs.isEmpty then s else { s with defs := s.defs.filter fun e => runnable s e.1 }

/-! Room for a turn holder (R332). -/

/-- How near two paths are: the nodes they share. -/
def shared (a b : List W64) : Nat := (a.filter b.contains).length

/-- The order in which contexts are pre-empted: smaller first. -/
def victimRank (s : State) (path : List W64) (tn : Nat) (c : Ctx) : Nat :=
  let young := 2 ^ 40 - c.born
  if c.st.isEarly then young
  else if c.outTurn then 2 ^ 41 + young
  else 2 ^ 42 + (8 - (if s.tenOf c = tn then shared (taskPath s c.task) path else 0)) * 2 ^ 42 + young

/-- A context that cannot be pre-empted: held under R280, or halted. -/
def unmovable (c : Ctx) : Bool := c.trap.intrap || c.dbg.halted

/-- Contexts of other nodes that may be pre-empted; those of a GANG task or a multicast group all together, or none (R25). -/
def victims (s : State) (key : Nat) : List (Nat × Ctx) :=
  s.ctxs.filter fun e => e.2.st.resident && (s.task e.2.task).launch ≠ key && !unmovable e.2
    && !(together (s.task e.2.task).r && (s.residentOf e.2.task).any fun x => unmovable x.2)

/-- The state with the room that contexts would leave: theirs, and the vault of a task that has no other. -/
def emptied (s : State) (vs : List (Nat × Ctx)) : State :=
  let gone := vs.map (·.1)
  { s with
    ctxs := s.ctxs.filter fun e => !gone.contains e.1,
    tasks := s.tasks.map fun e =>
      let rs := s.residentOf e.1
      if !rs.isEmpty && rs.all fun x => gone.contains x.1 then (e.1, { e.2 with vbase := [] }) else e }

/-- A context is on its way out. -/
def leaving (s : State) : Bool := s.ctxs.any fun e => e.2.st.resident && (e.2.trap.preempt.isSome || e.2.trap.inSave)

/-- The turn holder has no room: the first victim is pre-empted, whole when its task is a GANG or a multicast group (R25). Nothing is
pre-empted where that would make no room, as where a ceiling stands in the way (R14). -/
def makeWay (s : State) (tn key : Nat) (path : List W64) (room : State → Bool) : State :=
  if !holdsTurn s tn path || leaving s || !room (emptied s (victims s key)) then s
  else
    match sortBy (fun cid => victimRank s path tn (s.ctx cid)) ((victims s key).map (·.1)) with
    | [] => s
    | v :: _ => gangPost (postPreempt s 0 v) v 0

end Sys2Proof.Machine
end

