-- ==== Sys2Proof/Machine/Dispatcher.lean ====
section
/-! DEFINITION. Placing tasks, early residency, and retirement (R18, R19, R21, R24 to R28, R83, R137, R247, R251, R257, R260, R332, R334,
R367, R369). -/

namespace Sys2Proof.Machine

/-! Placement. -/

/-- A context's copy of the tenant's bounds table (R137). -/
def boundsCopy (s : State) (tn : Nat) : SMap (BitVec 128) :=
  let m := homeMem s
  (List.range 252).filterMap fun i =>
    let e := BitVec.ofNat 128 (memNat m ((s.tenant tn).bnds + 16 * i) 16)
    if e = 0#128 then none else some (i, e)

/-- TR.SAVEVEC and TR.RESTVEC (R302, R339). -/
def saveVec (s : State) (tn : Nat) : W64 := if (s.tenant tn).savevec = 0#64 then Config.fwSaveVec else (s.tenant tn).savevec
def restVec (s : State) (tn : Nat) : W64 := if (s.tenant tn).restvec = 0#64 then Config.fwRestVec else (s.tenant tn).restvec

/-- A team at dispatch: all lanes active, FMT zero (R57, R103). -/
def freshTeam (w vb vl : Nat) : Team := { Team.none with w := w, vb := vb, vl := vl, act := fullMask w }

/-- Takes the slot and rows of a context: its semaphores read zero, its rows are full (R39, R169). -/
def takeSlot (s : State) (cid : Nat) (c : Ctx) : State :=
  let s := s.setCtx cid c
  let s : State := { s with sems := s.sems.filter fun e => e.1 / 8 ≠ 8 * c.cl + c.slot }
  s.markFull ((rangeFrom (c.rowBase + c.team.vb) c.team.vl).flatMap fun r => c.quarters.map (r * 4 + ·))

/-- Context idx of a task at a group position, at its slot and spot: slice, quarter, row. -/
def newCtx (s : State) (t gpos idx cl : Nat) (at_ : Nat × Spot) (early out : Bool) : Ctx :=
  let k := s.task t
  { Ctx.none with
    st := if early then .early else .running, task := t, idx := idx, gpos := gpos, gsize := k.r.mcg, cl := cl, slot := at_.1,
    slice := at_.2.1, quarter := at_.2.2.1, pc := k.r.entry,
    team := freshTeam (2 ^ k.r.tw.getD idx 0) at_.2.2.2 (k.r.rows.getD idx 0),
    trap := { Trap.none with savevec := saveVec s k.tenant, restvec := restVec s k.tenant },
    bounds := boundsCopy s k.tenant, runUs := s.us, born := s.ticks, outTurn := out }

/-- Bytes in a vault, written by the dispatcher. -/
def vaultPut (s : State) (cl b : Nat) (bs : List Byte) : State := { s with mem := memSetList s.mem (vaultKey cl b) bs }

/-- Places the contexts of a task on one cluster, with the vault image (R19). -/
def placeOn (s : State) (t gpos : Nat) (f : Fit) (early out : Bool) : State :=
  let k := s.task t
  let s := vaultPut s f.cl f.vb ((tRead s k.tenant k.r.vimage k.r.vilen).getD [])
  ((List.range k.r.nctx).zip f.spots).foldl
    (fun s e => takeSlot s (cidOf t gpos e.1) (newCtx s t gpos e.1 f.cl e.2 early out)) s

/-- A translation that a placement starts is used now (R354). -/
def touchTransl (s : State) (tn : Nat) (r : TRec) : State :=
  if r.isav ≠ 0x8001 then s
  else
    match translOf s tn r with
    | none => s
    | some x => { s with transl := s.transl.map fun y => if y = x then { y with used := s.us } else y }

/-- The record under which a task runs: a translated one runs as native code from the translation's entry (R353). -/
def nativeRec (s : State) (tn : Nat) (r : TRec) : TRec :=
  if r.isav = 0x8001 then { r with entry := (entryOf s tn r).getD r.entry, isav := 0x0302 } else r

/-- Makes a task resident on clusters that have room: RUNNING after its edge-in, or RESIDENT-EARLY. -/
def placeTask (s : State) (tn key lin : Nat) (r : TRec) (regs : List Region) (fits : List Fit) (early : Bool) : State :=
  let node := (s.launch key).node
  let path := pathOf s tn node
  let c := coordsOf s tn node lin
  let s := takeRec (touchTransl s tn r) tn node lin r
  let x := buildExtents s tn 0 regs []
  let (t, s) := s.fresh
  let cls := fits.map (·.cl)
  let k : Task :=
    { Task.none with
      tenant := tn, launch := key, lin := lin, x := c.1, y := c.2.1, z := c.2.2, r := nativeRec s tn r, st := .resident, early := early, regions := x.2,
      extents := x.1, cls := cls, vbase := fits.foldl (fun m f => smSet m f.cl f.vb) [], ranOn := cls, xlat := decide (r.isav = 0x8001) }
  let s := (s.setTask t k).modLaunch key fun l => { l with placed := lin :: l.placed }
  let s := addField s tn 0x60 8 (r.nctx * fits.length) path
  let s := cls.foldl (fun s c => if early then freshenW s t c else edgeInAll s t c) s
  let out := !holdsTurn s tn path
  ((List.range fits.length).zip fits).foldl (fun s e => placeOn s t e.1 e.2 early out) s

/-- A task that cannot be dispatched: reported, and not tried again (R18, R247). -/
def failTask (s : State) (tn key lin code : Nat) : State :=
  let node := (s.launch key).node
  let s := takeRec s tn node lin ((readRec s tn node lin).getD TRec.none)
  recordTaskFault (s.modLaunch key fun l => { l with placed := lin :: l.placed }) tn (s.launch key).node code lin

/-- Where a task fits, in the order of preference, within the budgets of a path. -/
def roomFor? (s : State) (tn : Nat) (node : W64) (r : TRec) (c : Nat × Nat × Nat) (regs : List Region) (budget : Bool) : Option (List Fit) :=
  findRoom s s tn (if budget then pathOf s tn node else []) r.shapes r.vbytes r.mcg (preferred s tn r regs (forwardCl s tn r c))

/-- A launch that may have a task dispatched. -/
def dispatchable (s : State) (tn key lin : Nat) : Bool :=
  let l := s.launch key
  l.tenant = tn && l.submitted && decide (lin < launchSize s tn l.node) && !l.placed.contains lin && !l.gone.contains lin

/-! Where SAVED contexts come back (R26). -/

/-- Contexts of a task, of every position, that have not retired. -/
def liveOf (s : State) (t : Nat) : List (Nat × Ctx) := (s.ctxsOf t).filter fun e => e.2.st ≠ .retired

/-- A number in the header of a save frame (R286). -/
def hdrNat (s : State) (cid off n : Nat) : Nat := memNat s.mem (frameKey cid off) n

/-- The contexts that come back with one: all of a GANG task or multicast group (R25). -/
def backSet (s : State) (cid : Nat) : List Nat :=
  let t := (s.ctx cid).task
  if together (s.task t).r then (liveOf s t).map (·.1) else [cid]

/-- A context could be restored, with those that come back with it. -/
def comesBack (s : State) (cid : Nat) : Bool := (backSet s cid).contains cid && (backSet s cid).all (restorable s)

/-- The contexts that come back, by position. -/
def backGroups (s : State) (cid : Nat) : List (Nat × List Nat) :=
  let set := backSet s cid
  ((set.map fun c => (s.ctx c).gpos).eraseDups).map fun g => (g, set.filter fun c => (s.ctx c).gpos = g)

/-- The cluster that a position is bound to: a resident sibling's, or the one a save is pinned to. -/
def boundCl (s : State) (t g : Nat) (cids : List Nat) : Option Nat :=
  match (s.residentOf t).find? (fun e => e.2.gpos = g) with
  | some e => some e.2.cl
  | none => (cids.find? fun c => hdrNat s c 2 1 ≠ 0).map fun c => hdrNat s c 1 1

def backFit (s : State) (t : Nat) (cids : List Nat) (cl : Nat) : Option Fit :=
  fitOn s cl (cids.map fun c => ((s.ctx c).team.w, hdrNat s c 0x28 4)) (s.task t).r.vbytes (smFind (s.task t).vbase cl)

/-- Places for the other positions of a group, near the first. -/
def backRest (s : State) (t first : Nat) : List Nat → List (Nat × List Nat) → Option (List Fit)
  | _, [] => some []
  | used, (g, cids) :: rest =>
    let cands := match boundCl s t g cids with
      | some c => [c]
      | none => sortBy (hops first) ((List.range 192).filter fun c => c / 96 = first / 96 && !used.contains c)
    match cands.findSome? (backFit s t cids) with
    | none => none
    | some f => (backRest s t first (f.cl :: used) rest).map (f :: ·)

/-- Places for the contexts of each position, within the budgets: room as one state has it, totals as another. -/
def findBack (s room : State) (t : Nat) (groups : List (Nat × List Nat)) : Option (List Fit) :=
  let k := s.task t
  match groups with
  | [] => none
  | (g, cids) :: rest =>
    let cands := match boundCl s t g cids with
      | some c => [c]
      | none => preferred s k.tenant k.r k.regions (forwardCl s k.tenant k.r (k.x, k.y, k.z))
    cands.findSome? fun c =>
      match backFit room t cids c with
      | none => none
      | some f =>
        match backRest room t c [c] rest with
        | none => none
        | some fs =>
          let all := f :: fs
          if budgetOk s k.tenant (all.map (·.cl)) ((all.filter (·.fresh)).length * k.r.vbytes) (taskPath s t) then some all else none

/-- Places for a SAVED context and those that come back with it. -/
def roomBack (s room : State) (cid : Nat) : Option (List Fit) := findBack s room (s.ctx cid).task (backGroups s cid)

/-! The order of placements (R330, R331, R333). -/

/-- A task that has not been dispatched could be placed now. -/
def taskFits (s : State) (tn key : Nat) (node : W64) (lin : Nat) : Bool :=
  linRunnable s tn key node lin &&
  match checkTask s tn node lin with
  | .error _ => false
  | .ok (r, regs) => (roomFor? s tn node r (coordsOf s tn node lin) regs true).isSome

/-- A node's subtree holds a task that could be placed now, or a SAVED context that could be restored. -/
def workFits (s : State) (n : Nat) : Bool :=
  s.launches.any (fun e => launchUnder s n e.2 && (dormantLins s e.1).any (taskFits s e.2.tenant e.1 e.2.node))
  || s.ctxs.any fun e => taskUnder s n e.2.task && comesBack s e.1 && (roomBack s s e.1).isSome

/-- Where a child stands among those that a node places: by level, the levels that are not capped first (R331), and at its level the holder
of the turn first. -/
def kidRank (s : State) (n k : Nat) : Nat :=
  2 * ((if lends s n (nodeLevel s k) then 8 else 0) + nodeLevel s k) + (if smFind s.turns n = some k then 0 else 1)

/-- A child comes before another: by rank, then in list order. -/
def kidBefore (s : State) (n j k : Nat) : Bool :=
  let ks := kidsOf s n
  kidRank s n j < kidRank s n k || (kidRank s n j = kidRank s n k && ks.idxOf j < ks.idxOf k)

/-- No work that comes before that of a path could be placed now (log 69, DEDUCED). -/
def isNext (s : State) (tn : Nat) : List W64 → Bool
  | [] => true
  | p :: ps =>
    let n := parentOf tn ps
    !((kidsOf s n).any fun j => j ≠ nodeId tn p && kidBefore s n j (nodeId tn p) && workFits s j) && isNext s tn ps

/-- A ready task goes behind those of its launch with lower linear indices (R333). -/
def isFirst (s : State) (tn key lin : Nat) (node : W64) : Bool :=
  !((dormantLins s key).any fun l => l < lin && taskFits s tn key node l)

/-- Places a task that is ready and not held, when it has room and its place has come. -/
def placeReady (s : State) (t launch lin : Nat) (r : TRec) (regs : List Region) (c : Nat × Nat × Nat) : State :=
  let node := (s.launch launch).node
  let path := pathOf s t node
  match roomFor? s t node r c regs true with
  | some fits => if isFirst s t launch lin node && isNext s t path then placeTask s t launch lin r regs fits false else s
  | none =>
    if neverFits r then
      (if (s.launch launch).placeErr.contains lin then s
       else vfErr (s.modLaunch launch fun l => { l with placeErr := lin :: l.placeErr }) t 2)
    else
      makeWay s t launch path fun room =>
        (findRoom s room t path r.shapes r.vbytes r.mcg (preferred s t r regs (forwardCl s t r c))).isSome

/-- TASK_PLACEMENT: readiness, then the record, then overlap and placement (R328). A record that cannot be read has no box, and fails. -/
def execTaskPlacement (t launch lin : Nat) (s : State) : R :=
  .next (let node := (s.launch launch).node
    let path := pathOf s t node
    if !dispatchable s t launch lin then s
    else
      let (s, good) := judgePath s t path
      let c := coordsOf s t node lin
      let rec? := readRec s t node lin
      if !good || !pathLive s t path then s
      else if rec?.any (producerBad s t) then rcbError s t node
      else if rec?.any fun r => !mayStartRec s t node r c then s
      else
        match checkTask s t node lin with
        | .error code => failTask s t launch lin code
        | .ok (r, regs) =>
          if !readyRec s t node r c || heldBy s t launch lin r c regs then s
          else placeReady s t launch lin r regs c)

/-! THINT (R257, R367). -/

/-- The dormant consumers of a task, by linear index: index and launch. They are of launches that were submitted before the first THINT of
the task's own launch. -/
def consumersOf (s : State) (x : Task) : List (Nat × Nat) :=
  let by_ := (s.launch x.launch).hintAt.getD s.ticks
  let all := (s.launches.filter fun e => e.2.tenant = x.tenant && e.2.submitted && e.2.subAt ≤ by_).flatMap fun e =>
    (dormantLins s e.1).filterMap fun l =>
      match readRec s x.tenant e.2.node l with
      | some r => if inBox s x.tenant r (coordsOf s x.tenant e.2.node l) x.launch x.lin then some (l, e.1) else none
      | none => none
  sortBy (·.1) all

/-- Makes consumers RESIDENT-EARLY in turn, up to the first that would break a budget. -/
def startEarly (tn : Nat) : List (Nat × Nat) → State → State
  | [], s => s
  | (lin, key) :: rest, s =>
    let node := (s.launch key).node
    match checkTask s tn node lin with
    | .error _ => startEarly tn rest s
    | .ok (r, regs) =>
      let c := coordsOf s tn node lin
      if !pathLive s tn (pathOf s tn node) || producersDone s tn r c || (entryOf s tn r).isNone || heldBy s tn key lin r c regs then startEarly tn rest s
      else
        match roomFor? s tn node r c regs true with
        | some fits => startEarly tn rest (placeTask s tn key lin r regs fits true)
        | none => if (roomFor? s tn node r c regs false).isSome then s else startEarly tn rest s

/-- THINT. -/
def execThint (s : State) : R :=
  let x := s.task s.me.task
  .next (if x.hinted then s.adv
    else
      let s := s.modLaunch x.launch fun l => { l with hintAt := some (l.hintAt.getD s.ticks) }
      (startEarly x.tenant (consumersOf s x) (s.modTask s.me.task fun k => { k with hinted := true })).adv)

/-! TDONE (R260, R369). -/

/-- An engine operation or a copy that the context issued is not over. -/
def issuedLeft (s : State) (cid : Nat) : Bool :=
  s.cls.any (fun e => e.2.eng.q.any fun o => o.cid = cid) || s.chans.any fun e => e.2.q.any fun c => c.cid = cid

/-- The rings that a context defined. -/
def ownRings (s : State) (cid : Nat) : List Nat := (s.ringObjs.filter fun e => e.1 / 16 = cid).map (·.1)

/-- The handles of a context, by number: those it has defined, and aliases. -/
def handlesAt (s : State) (cid : Nat) : List Nat := ((s.ctx cid).rings.map (fun r => ringKey cid r.1) ++ ownRings s cid).eraseDups

/-- The last of a task's contexts. -/
def lastCtx (s : State) (t cid : Nat) : Bool := (liveOf s t).all fun e => e.1 = cid

/-- An operation in flight, or a subscription, names a handle or an alias of it; the SUBKs of a task end with its last TDONE (R260, R369). -/
def ringNamed (s : State) (last : Bool) (k : Nat) : Bool := handleBusy s k || s.subs.any fun e => e.2.via.contains k && !(last && e.2.k = .adapt)

/-- What TDONE waits for. -/
def tdoneReady (s : State) : Bool :=
  let last := lastCtx s s.me.task s.cur
  drained s.me && !issuedLeft s s.cur && !(handlesAt s s.cur).any (ringNamed s last)
  && !(last && s.subs.any fun e => e.2.task = s.me.task && e.2.k ≠ .adapt)

/-- A faulted copy of the context: its channel, and the code of its fault (R236). -/
def faultedCopy (s : State) (cid : Nat) : Option (Nat × Nat) :=
  s.chans.findSome? fun e => e.2.fault.bind fun code => if e.2.q.head?.any (fun c => c.cid = cid) then some (e.1 % 8, code) else none

/-- The COPY trap of a copy that is faulted and not yet resolved, taken again at a TDONE (R232). -/
def copyAgain (s : State) (x : Nat × Nat) : State :=
  takeTrap (s.modMe fun c => { c with dbg := { c.dbg with skip1 := false } }) s.cur
    { code := fCOPY, orig := 3, imp := true, acc := 0, lane := 0, info := fields [(8, 0), (x.2, 8), (x.1, 16)], tag := none, epc := s.me.pc }

/-- The context becomes RETIRED; after the last, the edge-out begins. -/
def retireTask (s : State) (cid : Nat) : State :=
  let c := s.ctx cid
  let last := lastCtx s c.task cid
  let s := retireCtx ((handlesAt s cid).foldl (undefHandle chainFuel) s) cid
  if last then
    ({ s with subs := s.subs.filter fun e => e.2.task ≠ c.task } : State).modTask c.task fun k =>
      { k with st := .edgeOut, vbase := [], lastCl := some c.cl, doneAt := s.ticks }
  else s

/-- TDONE. -/
def execTdone (s : State) : R :=
  .next (if s.me.st.isEarly || s.me.trap.intrap then trapSub s fILLEGAL 0
    else
      let s := abandonCapture s
      match faultedCopy s s.cur with
      | some x => copyAgain s x
      | none => if tdoneReady s then retireTask s s.cur else s.stall)

end Sys2Proof.Machine
end

