-- ==== Sys2Proof/Machine/Matrix.lean ====
section
/-! DEFINITION. Matrix instructions at issue (R183 to R201). -/

namespace Sys2Proof.Machine

/-! Descriptors (R183). -/

def quadAt (s : State) (q : GReg) : OpDesc := ⟨s.reg q, s.reg (q + 1), s.reg (q + 2), s.reg (q + 3)⟩

/-- A descriptor that MCFG refuses as ILLEGAL. -/
def descIllegal (d : OpDesc) : Bool :=
  12 ≤ descFmtc d || descKind d = 3 || (descTrans d && descKind d ≠ 1) || (descScl d && !(fmtOfDesc d).blockScaled) ||
  d.q3.extractLsb' 40 24 != 0#24 || (descKind d = 1 && d.base.extractLsb' 3 61 != 0#61) || (!descScl d && d.q2 != 0)

/-- A memory descriptor off the 64-byte grid. -/
def descOff (d : OpDesc) : Bool := descKind d = 0 && (!aligned d.base 64 || sfield d.q1 0 32 % 64 ≠ 0 || sfield d.q1 32 32 % 64 ≠ 0)

def mcfg (s : State) (q : GReg) (put : Eng → OpDesc → Eng) : State :=
  withEng s fun s =>
    let d := quadAt s q
    if descIllegal d then trap s fILLEGAL 0
    else if descOff d then trap s fALIGN d.base
    else (s.modEng s.me.cl fun e => put e d).adv

def execMcfgA (q : GReg) (s : State) : R := .next (mcfg s q fun e d => { e with opa := d })
def execMcfgB (q : GReg) (s : State) : R := .next (mcfg s q fun e d => { e with opb := d })

/-- MCFG.RESUME (R193): the held operations go on, every check made again. -/
def execMcfgResume (s : State) : R :=
  .next (withEng s fun s =>
    let e := myEng s
    (if e.faulted || e.stopped then
      s.setEng s.me.cl { e with faulted := false, fop := none, stopped := false, haltStop := false, framed := false, q := e.q.map fun o => if o.running then o else { o with begun := false, blk := none } }
     else s).adv)

/-- The ring slots that an operation holds: it is done with them. -/
def dropClaims (s : State) (o : EOp) : State :=
  let free (s : State) (r k : Option Nat) : State := match r, k with | some r, some k => unclaim s r k | _, _ => s
  match o.k with
  | .mloop _ _ _ _ _ _ _ ra rb => free (free s ra o.sa) rb o.sb
  | .mdrain _ _ _ _ (some r) _ _ _ => free s r o.sa
  | _ => s

/-- MCFG.ABANDON (R193): the head operation, faulted or stopped, and what is held behind it go, with their range-lock entries and claims; an
operation still running, and one of the other pipe ahead of the faulted one, stay. -/
def execMcfgAbandon (s : State) : R :=
  .next (withEng s fun s =>
    let cl := s.me.cl
    let e := myEng s
    (if e.faulted || e.stopped then
      let held := if e.stopped then e.q else e.q.dropWhile fun o => some o.id ≠ e.fop
      let gone := held.filter fun o => !o.running
      let keep := e.q.filter fun o => !gone.any fun x => x.id = o.id
      let s := gone.foldl (fun s o => dropClaims (dropLock s o.id none) o) s
      s.modCl cl fun c => { c with
        eng := { c.eng with faulted := false, fop := none, stopped := false, haltStop := false, framed := false, q := keep,
                            rp := if keep.any (fun o => !o.k.drains) then e.rp else RowProg.zero,
                            drow := if keep.any (fun o => o.k.drains) then e.drow else 0 },
        epi := if keep.any (fun o => o.k.drains) then c.epi else Epi.idle }
     else s).adv)

/-- MZERO. -/
def execMzero (mask : BitVec 8) (s : State) : R := .next (withEng s fun s => withRoom s fun s => enqueue s (.mzero mask.toNat) [])

/-! Loops. -/

/-- The issue check of R188 on one operand of a loop of n steps into z; ring is the handle's object when the operand comes from a ring. -/
def badTiles (d : OpDesc) (fromRing : Bool) (z n : Nat) : Bool :=
  !fromRing && descKind d = 1 && (7 < descTile d + n - 1 || (descTile d ≤ z && z < descTile d + n))

/-- A ring operand without a defined handle, or with slots too small; or a KIND 2 descriptor of an operand that no handle feeds. -/
def badRing (s : State) (d : OpDesc) (fromRing : Bool) (ring : Option Nat) : Bool :=
  if fromRing then (match ring with | none => true | some o => (s.ring o).size < stepBytes d) else descKind d = 2

/-- The entries of a loop's operand and of its scales (R191). -/
def operandRngs (s : State) (cid : Nat) (lvl : Bool) (d : OpDesc) (ring : Option Nat) (part n : Nat) : List Rng :=
  match ring with
  | some o => let k := slotKey (s.ring o) (s.ring o).cpos; [⟨false, part, [(k, k + (s.ring o).size)]⟩]
  | none =>
    let nb := scaleBytes (fmtOfDesc d)
    let data := if descKind d = 0 then
        (let x := spanOf d.base [31 * sfield d.q1 0 32, (n - 1 : Int) * sfield d.q1 32 32] 192
         [(⟨false, part, segsOf s cid lvl x.1 x.2⟩ : Rng)]) else []
    let scl := if descScl d then
        (let x := spanOf d.q2 [31 * sfield d.q3 8 16, (n - 1 : Int) * sfield d.q3 24 16] nb
         [(⟨false, part + 1, segsOf s cid lvl x.1 x.2⟩ : Rng)]) else []
    data ++ scl

/-- Whether Down formats of the entries that can be read at issue have another width (R188, code 0x04); a read may wait for a walk. -/
def downMismatch (s : State) (w : Nat) : ERes Bool :=
  match (myEng s).ad with
  | none => .ok s false
  | some q =>
    match readAdapters s s.cur s.me.trap.pl q with
    | .ok _ x => .ok s (x.2.any fun en => downBad w en.2)
    | .fault .. => .ok s false
    | .wait s => .wait s

/-- MLOOP and MLOOPR (R185, R188, R201). -/
def loopIssue (s : State) (z n : Nat) (adp : Bool) (fa fb : Bool) (ra rb : Option Nat) (via : List (List Nat)) : State :=
  withEng s fun s => withRoom s fun s => withFmt s fun f =>
    let e := myEng s
    let a := e.opa
    let b := e.opb
    if (fmtOfDesc a).width ≠ (fmtOfDesc b).width then trapSub s fILLEGAL 1
    else if badTiles a fa z n || badTiles b fb z n then trapSub s fILLEGAL 2
    else if badRing s a fa ra || badRing s b fb rb then trapSub s fILLEGAL 3
    else
    (if adp then downMismatch s (fmtOfDesc a).width else .ok s false).atIssue s fun s bad =>
    if bad then trapSub s fILLEGAL 4
    else if adp && e.ad.isNone then trapSub s fADAPTER 1
    else if adp && e.adpend && e.adtile ≠ z then trapSub s fADAPTER 2
    else if n = 0 then s.adv
    else
      let q := e.ad.getD OpDesc.zero
      enqueueWith (fun e => if adp then { e with adpend := true, adtile := z } else e) id s (.mloop z n adp a b f [q.base, q.q1, q.q2, q.q3] ra rb)
        (operandRngs s s.cur s.me.trap.pl a ra 0 n ++ operandRngs s s.cur s.me.trap.pl b rb 2 n) via

def execMloop (z : BitVec 3) (adp : Bool) (a : GReg) (s : State) : R :=
  .next (loopIssue s z.toNat ((s.reg a).toNat % 2 ^ 32) adp false false none none [])

def execMloopr (ra rb : Bool) (z : BitVec 3) (adp : Bool) (ha hb : BitVec 4) (a : GReg) (s : State) : R :=
  .next (loopIssue s z.toNat ((s.reg a).toNat % 2 ^ 32) adp ra rb
    (if ra then ringOf s s.me ha.toNat else none) (if rb then ringOf s s.me hb.toNat else none)
    ((if ra then [viaOf s ha.toNat] else []) ++ (if rb then [viaOf s hb.toNat] else [])))

/-! Tiles and memory (R194). -/

/-- The memory range of MTILE or MSTT. -/
def tileRng (s : State) (cid : Nat) (lvl : Bool) (lay : TLay) (dst : Bool) (p stride : W64) : List Rng :=
  let x := spanOf p [((layDims lay).1 - 1 : Int) * stride.toInt] (layDims lay).2
  [⟨dst, 0, segsOf s cid lvl x.1 x.2⟩]

def tileMove (s : State) (lay : TLay) (dst : Bool) (k : W64 → W64 → EOpK) (a b : GReg) : State :=
  withEng s fun s => withRoom s fun s =>
    if !aligned (s.reg a) 8 || !aligned (s.reg b) 8 then trap s fALIGN (s.reg a)
    else enqueue s (k (s.reg a) (s.reg b)) (tileRng s s.cur s.me.trap.pl lay dst (s.reg a) (s.reg b))

def execMtile (lay : TLay) (z : BitVec 3) (a b : GReg) (s : State) : R := .next (tileMove s lay false (.mtile lay z.toNat) a b)
def execMstt (lay : TLay) (z : BitVec 3) (a b : GReg) (s : State) : R := .next (tileMove s lay true (.mstt lay z.toNat) a b)

/-! The engine frame (R198). -/

/-- Bytes of a frame of n bytes drawn under a number. -/
def frameBytes (n : Nat) (num : Nat) : List Byte := (List.range n).map (Config.frameByte num)

/-- MSTT.ENG: once no operation runs, the frame is stored. -/
def execMsttEng (a : GReg) (s : State) : R :=
  .next (withEng s fun s =>
    let p := s.reg a
    if !aligned p 64 then trap s fALIGN p
    else if (myEng s).q.any (·.running) || !((myEng s).q.isEmpty || (myEng s).stopped || (myEng s).faulted) then s.stall
    else
      let (num, s) := s.draw
      let e := myEng s
      (engWrite s s.cur s.me.trap.pl true p (frameBytes 0x4000 num)).atIssue s fun s _ =>
        ({ s with saved := smSet s.saved num (.eng e) }.modEng s.me.cl fun e => { e with framed := true }).adv)

/-- A frame of the engine, not of a stream part. -/
def Saved.isEng : Saved → Bool
  | .eng _ => true
  | .strm .. => false

/-- The frame whose bytes these are. -/
def findSaved (s : State) (bs : List Byte) (off : Nat) : Option Saved :=
  (s.saved.reverse.find? fun e => e.2.isEng && (List.range bs.length).map (fun b => Config.frameByte e.1 (off + b)) = bs).map (·.2)

/-! MMOVT (R195). -/

/-- MMOVT. It waits for rows that are empty, as every word does that reads or writes one (R39). -/
def execMmovt (toTile w48 : Bool) (z : BitVec 3) (v : BitVec 8) (s : State) : R :=
  .next (withEng s fun s => withRoom s fun s =>
    let c := s.me
    let n := movRegs c.team w48
    if c.team.vl < (v.toNat + n) * c.team.rpr then trap s fREGBOUND 0
    else if !c.strm.idle || (movRows c v.toNat n).any s.isEmpty then s.stall
    else if toTile then
      (let val (e : Nat) : W48 :=
        let l := e % c.team.w
        if w48 then
          BitVec.ofNat 48 ((s.lane c (v.toNat + 2 * (e / c.team.w)) l).toNat + 2 ^ 32 * (s.lane c (v.toNat + 2 * (e / c.team.w) + 1) l).toNat)
        else BitVec.ofNat 48 (cvt .w48 false false false .rne (decodeElem .fp32 false (s.lane c (v.toNat + e / c.team.w) l).toNat))
       enqueue s (.mmovtIn z.toNat ((List.range 1024).map val)) [])
    else enqueue (s.markEmpty (movRows c v.toNat n)) (.mmovtOut z.toNat v.toNat w48) [])

/-! The epilogue program and MDRAIN (R196, R197, R205). -/

/-- A word that MPROG refuses, given the modes and stores so far. -/
def progBad (modes : List Nat) : Instr → Bool
  | .est _ bs _ fmt mode =>
    modes.contains mode.toNat || (mode = 0 && bs ≠ 0 && !(match EFmt.ofCode fmt.toNat with | some f => f.blockScaled | none => false))
  | _ => false

/-- Reads and checks a program from word k on: its words, or the index of a word that is refused. -/
def readProg (cid : Nat) (lvl1 : Bool) (p : W64) : Nat → Nat → List Nat → State → ERes (List W32 × Option Nat)
  | 0, k, _, s => .ok s ([], some (k - 1))
  | fuel + 1, k, modes, s =>
    (engRead s cid lvl1 false (ptrAdd p (4 * k : Nat)) 4).bind fun s bs =>
      let w := BitVec.ofNat 32 (leNat bs)
      match decodeE (EWord.ofWord w) with
      | none => .ok s ([], some k)
      | some i =>
        if progBad modes i then .ok s ([], some k)
        else
          match i with
          | .eend => .ok s ([w], none)
          | .est _ _ _ _ mode => (readProg cid lvl1 p fuel (k + 1) (mode.toNat :: modes) s).bind fun s r => .ok s (w :: r.1, r.2)
          | _ => (readProg cid lvl1 p fuel (k + 1) modes s).bind fun s r => .ok s (w :: r.1, r.2)

/-- MPROG. -/
def execMprog (a b : GReg) (s : State) : R :=
  .next (withEng s fun s =>
    let p := s.reg a
    let q := s.reg b
    if !aligned p 4 then trap s fALIGN p
    else if !aligned q 64 then trap s fALIGN q
    else
      (readProg s.cur s.me.trap.pl p 32 0 [] s).atIssue s fun s r =>
        match r.2 with
        | some k => trapSub s fILLEGAL k
        | none => (s.modEng s.me.cl fun e => { e with prog := p, param := q, words := r.1 }).adv)

/-- The program a drain runs when none is bound (R207). -/
def defaultProg : List W32 := [0x78000030, 0x80000000]

/-- The words a drain runs: what was bound, or the default. -/
def progOf (ws : List W32) : List W32 := if ws.isEmpty then defaultProg else ws

/-- The store of mode m of a program: format code and scale code (R207). -/
def progEst (prog : List W32) (m : Nat) : Option (Nat × Nat) :=
  prog.findSome? fun w =>
    match decodeE (EWord.ofWord w) with
    | some (.est _ bs _ fmt mode) => if mode.toNat = m then some (fmt.toNat, bs.toNat) else none
    | _ => none

/-- Width in bits of an element format code; FP32 for a code with none. -/
def codeWidth (c : Nat) : Nat := ((EFmt.ofCode c).map EFmt.width).getD 32

/-- Bytes of a row that the element store writes. -/
def rowBytes (fmt : Nat) : Nat := 4 * codeWidth fmt

/-- Fields of a parameter block (R204). -/
def blkNat (bs : List Byte) (off n : Nat) : Nat := leNat ((bs.drop off).take n)
def blkPtr (bs : List Byte) (off : Nat) : W64 := BitVec.ofNat 64 (blkNat bs off 8)
def blkS32 (bs : List Byte) (off : Nat) : Int := signedOf 32 (blkNat bs off 4)

/-- Size of a row-vector element. -/
def rvSize (bs : List Byte) : Nat := if blkNat bs 0x9D 1 = 0xD then 8 else 4

/-- The parameter block as a drain's issue finds it; none for the default program, and where it cannot be read. A read may wait for a walk. -/
def drainBlk (s : State) (cid : Nat) (lvl : Bool) (words : List W32) (param : W64) : ERes (Option (List Byte)) :=
  if words.isEmpty then .ok s none
  else
    match engRead s cid lvl false param 256 with
    | .ok _ bs => .ok s (some bs)
    | .fault .. => .ok s none
    | .wait s => .wait s

/-- The entries of a drain (R208): element and scale destinations, and the row vectors that the program stores. -/
def drainRngs (s : State) (cid : Nat) (lvl : Bool) (prog : List W32) (blk : Option (List Byte)) (p stride : W64) (ring : Option (Option Nat)) : List Rng :=
  let seg (x : W64 × Nat) : List (Nat × Nat) := segsOf s cid lvl x.1 x.2
  let elems : List Rng := match progEst prog 0 with
    | none => []
    | some (fmt, _) =>
      (match ring with
       | none => [⟨true, 0, seg (spanOf p [31 * stride.toInt] (rowBytes fmt))⟩]
       | some (some o) => let k := slotKey (s.ring o) (s.ring o).ppos; [⟨true, 0, [(k, k + (s.ring o).size)]⟩]
       | some none => [])
  match blk with
  | none => elems
  | some bs =>
    let scl : List Rng := match progEst prog 0, ring with
      | some (_, bsc), none => if bsc ≠ 0 then [⟨true, 1, seg (spanOf (blkPtr bs 0xA0) [31 * blkS32 bs 0xA8] 1)⟩] else []
      | _, _ => []
    let rv (m : Nat) : List Rng := if (progEst prog m).isSome then [⟨true, 1 + m, seg (blkPtr bs (0x78 + 8 * m), 32 * rvSize bs)⟩] else []
    elems ++ scl ++ rv 1 ++ rv 2

/-- MDRAIN. -/
def execMdrain (z : BitVec 3) (clr : Bool) (a b : GReg) (h : Option (BitVec 4)) (s : State) : R :=
  .next (withEng s fun s => withRoom s fun s => withFmt s fun f =>
    let e := myEng s
    let ring := h.map fun h => ringOf s s.me h.toNat
    let p := if h.isSome then 0 else s.reg a
    let st := if h.isSome then 0 else s.reg b
    (drainBlk s s.cur s.me.trap.pl e.words e.param).atIssue s fun s blk =>
      enqueue s (.mdrain z.toNat clr p st ring f e.words e.param) (drainRngs s s.cur s.me.trap.pl (progOf e.words) blk p st ring)
        (h.toList.map fun h => viaOf s h.toNat))

/-! Waits (R198). -/

/-- A wait on the engine: inside a trap handler it ends once nothing runs, of a held queue or past it. -/
def mwaitFor (s : State) (cond : Eng → Bool) : State :=
  withEng s fun s =>
    let e := myEng s
    if cond e || (s.me.trap.intrap && !e.q.any fun o => o.running || o.ovr) && (e.faulted || e.stopped) then s.adv else s.stall

def execMwait (s : State) : R := .next (mwaitFor s fun e => e.q.isEmpty)
def execMwaitTile (z : BitVec 3) (s : State) : R := .next (mwaitFor s fun e => !e.q.any fun o => (o.k.reads ++ o.k.writes).contains z.toNat)

/-- MWAIT.STOP: between two steps of the engine every operation stands at a row boundary, so the queue is held now. -/
def execMwaitStop (s : State) : R :=
  .next (withEng s fun s =>
    let e := myEng s
    (if e.q.isEmpty || e.faulted then s
     else s.setEng s.me.cl { e with stopped := true, haltStop := false, framed := e.stopped && e.framed, q := e.q.map EOp.stop }).adv)

/-! Adapters (R199, R201). -/

/-- MADPT: refused while T is pending. -/
def bindAd (s : State) (q : Option OpDesc) : State :=
  withEng s fun s => if (myEng s).adpend then trapSub s fADAPTER 3 else (s.modEng s.me.cl fun e => { e with ad := q }).adv

def execMadpt (q : GReg) (s : State) : R := .next (bindAd s (some (quadAt s q)))
def execMadptOff (s : State) : R := .next (bindAd s none)

end Sys2Proof.Machine
end

