-- ==== Sys2Proof/Machine/Epilogue.lean ====
section
/-! DEFINITION. The epilogue processor: its micro-instructions on the row in hand, and the rows of a drain (R203 to R210). -/

namespace Sys2Proof.Machine

/-! Registers of the processor, by column. -/

def Epi.get (e : Epi) (r : BitVec 3) (j : Nat) : W48 := smGet (0 : W48) e.regs (32 * r.toNat + j)
def Epi.put (e : Epi) (r : BitVec 3) (f : Nat → W48) : Epi :=
  { e with regs := (List.range 32).foldl (fun m j => smSet m (32 * r.toNat + j) (f j)) e.regs, pcw := e.pcw + 1 }

/-- A word that gives every element of the row its value (R206). -/
def epiMap (s : State) (d : BitVec 3) (f : Epi → Nat → W48) : State :=
  let e := s.epi s.curCl
  s.setEpi s.curCl (e.put d (f e))

/-- A value rounded once into W48, with F.SAT (R206). -/
def epiRound (e : Epi) (v : FV) : W48 := roundW48 (fmtSat e.fmt) v

def epiVal (e : Epi) (r : BitVec 3) (j : Nat) : FV := w48Val (e.get r j)

def execEadd (d a b : BitVec 3) (s : State) : R := .next (epiMap s d fun e j => epiRound e (fvAdd .rne (epiVal e a j) (epiVal e b j)))
def execEmul (d a b : BitVec 3) (s : State) : R := .next (epiMap s d fun e j => epiRound e (fvMul (epiVal e a j) (epiVal e b j)))
def execEfma (d a b c : BitVec 3) (s : State) : R :=
  .next (epiMap s d fun e j => epiRound e (fvAdd .rne (fvMul (epiVal e a j) (epiVal e b j)) (epiVal e c j)))

/-- The greater or the lesser value: -0 below +0, NaN when either is (R206). -/
def w48Pick (greater : Bool) (x y : W48) : W48 :=
  let a := w48Val x
  let b := w48Val y
  if a.isNan || b.isNan then w48Nan
  else if (if greater then fvBelow a b else fvBelow b a) then y else x

def execEmax (d a b : BitVec 3) (s : State) : R := .next (epiMap s d fun e j => w48Pick true (e.get a j) (e.get b j))
def execEmin (d a b : BitVec 3) (s : State) : R := .next (epiMap s d fun e j => w48Pick false (e.get a j) (e.get b j))

/-- Conditions of ESEL against zero: none holds for a NaN (R206). -/
def eselHolds (cc : BitVec 3) (v : FV) : Bool :=
  !v.isNan && (match cc.toNat, fvCmp v (.zero false) with
    | 0, .gt => true | 1, .gt => true | 1, .eq => true | 2, .eq => true
    | 3, .gt => true | 3, .lt => true | 4, .lt => true | 5, .lt => true | 5, .eq => true
    | _, _ => false)

def execEsel (d a b c : BitVec 3) (cc : BitVec 3) (s : State) : R :=
  .next (epiMap s d fun e j => if eselHolds cc (epiVal e c j) then e.get a j else e.get b j)

def execEexp2 (d a : BitVec 3) (s : State) : R :=
  .next (epiMap s d fun e j => BitVec.ofNat 48 (exp2Code .w48 (fmtSat e.fmt) false false (e.get a j).toNat))
def execErcp (d a : BitVec 3) (s : State) : R :=
  .next (epiMap s d fun e j => BitVec.ofNat 48 (rcpCode .w48 (fmtSat e.fmt) false false .rne (e.get a j).toNat))

/-- The rounding of ECVT and EST: code 7 takes F.RM, and SR rounds as RNE (R206). -/
def epiRm (f : W32) (rm : BitVec 3) : RM :=
  match rmOf f rm with
  | .sr => .rne
  | r => r

/-- ECVT: the converted value, held exactly. -/
def execEcvt (d a : BitVec 3) (rm : BitVec 3) (fmt : BitVec 4) (s : State) : R :=
  .next (epiMap s d fun e j =>
    let ef := (EFmt.ofCode fmt.toNat).getD .fp32
    roundW48 false (decodeElem ef (fmtFc e.fmt) (cvt ef (fmtFc e.fmt) (fmtSat e.fmt) (fmtFtz e.fmt) (epiRm e.fmt rm) (epiVal e a j))))

/-- ELDC: a constant of the block, the row's index, or the column's. -/
def execEldc (d : BitVec 3) (kind : BitVec 2) (k : BitVec 4) (s : State) : R :=
  .next (epiMap s d fun e j =>
    match kind.toNat with
    | 0 => BitVec.ofNat 48 (blkNat e.param (8 * k.toNat) 8)
    | 1 => roundW48 false (.ofInt e.row)
    | _ => roundW48 false (.ofInt j))

/-- A value of the parameter block's formats, decoded exactly into W48. -/
def decodeW48 (code : Nat) (bs : List Byte) : W48 := roundW48 false (decodeElem ((EFmt.ofCode code).getD .fp32) false (leNat bs))

/-- What a load of a row finds at a byte: its value, or one that it had before a store of an earlier row of the drain (R208). -/
def epiByte (olds : List (Nat × Byte)) (num : Nat) (x : Nat × Nat × Byte) : Byte :=
  let vs := x.2.2 :: (olds.filter fun o => o.1 = x.2.1).map (·.2)
  vs.getD ((Config.frameByte num x.1).toNat % vs.length) x.2.2

/-- A load of the row in hand: its faults end the row (R210). -/
def epiLoad (s : State) (p : W64) (n : Nat) (f : State → List Byte → State) : State :=
  let e := s.epi s.curCl
  match engAccess s e.cid e.lvl1 false .ld p n with
  | .ok ks =>
    let (s, bs) := loadKeys (used s (s.ctx e.cid) .ld p n) (s.ctx e.cid).cl polEng ks
    if e.olds.isEmpty then f s bs
    else
      let (num, s) := s.draw
      f s (((List.range n).zip (ks.zip bs)).map (epiByte e.olds num))
  | .fault c i => s.setEpi s.curCl { e with fault := some (c, i) }
  | .wait s => s.setEpi s.curCl { e with fault := some (0, 0) }

def execEldr (d : BitVec 3) (rv : Bool) (s : State) : R :=
  let e := s.epi s.curCl
  let n := rvSize e.param
  .next (epiLoad s (ptrAdd (blkPtr e.param (if rv then 0x88 else 0x80)) (e.row * n : Nat)) n fun s bs =>
    epiMap s d fun e _ => decodeW48 (blkNat e.param 0x9D 1) bs)

def execEldm (d : BitVec 3) (s : State) : R :=
  let e := s.epi s.curCl
  let n := codeWidth (blkNat e.param 0x9C 1) / 8
  .next (epiLoad s (ptrAdd (blkPtr e.param 0x90) (e.row * blkS32 e.param 0x98)) (32 * n) fun s bs =>
    epiMap s d fun e j => decodeW48 (blkNat e.param 0x9C 1) ((bs.drop (n * j)).take n))

/-- EADPT: adds SCALE * U for a row with an adapter. -/
def execEadpt (d a : BitVec 3) (s : State) : R :=
  .next (epiMap s d fun e j =>
    match smFind e.scales e.row with
    | none => e.get a j
    | some sc => epiRound e (fvAdd .rne (epiVal e a j) (fvMul (decodeElem .fp32 false sc.toNat) (w48Val (smGet (0 : W48) e.up (32 * e.row + j))))))

/-- ERMAX: the largest value of the row. -/
def execErmax (d a : BitVec 3) (s : State) : R :=
  .next (epiMap s d fun e _ => (List.range 32).foldl (fun m j => w48Pick true m (e.get a j)) (e.get a 0))

/-- The exact sum of values, before rounding: a zero sum is -0 only when every term is -0 (R206). -/
def exactSum (vs : List FV) : FV :=
  if vs.any FV.isNan then .nan
  else
    let inf (n : Bool) : Bool := vs.any fun v => v = .inf n
    if inf true && inf false then .nan
    else if inf true then .inf true
    else if inf false then .inf false
    else
      let (t, e0) := sumDyadic (vs.map fun v => match v with | .fin n m e => (n, m, e) | _ => (false, 0, 0))
      if t = 0 then .zero (vs.all fun v => v.isZero && v.neg?) else .fin (decide (t < 0)) t.natAbs e0

def execErsum (d a : BitVec 3) (s : State) : R :=
  .next (epiMap s d fun e _ => epiRound e (exactSum ((List.range 32).map fun j => epiVal e a j)))

/-! Stores (R207). -/

/-- The codes of a row and its scale byte. -/
def estCodes (f : W32) (ef : EFmt) (rm : RM) (bs : Nat) (tscale : Nat) (vs : List FV) : List Nat × Nat :=
  let plain (v : FV) : Nat := cvt ef (fmtFc f) (fmtSat f) (fmtFtz f) rm v
  if bs = 0 then (vs.map plain, 127)
  else
    let t : FV := if bs = 2 then decodeElem .fp32 false tscale else .ofInt 1
    let sc := if bs = 2 && !posNormal tscale then 0xFF else qScale (fmtFc f) ef (vs.map fun v => fvDiv v t)
    if sc = 0xFF then (vs.map plain, sc)
    else
      let q : FV := match t with | .fin n m e => .fin n m (e + (sc : Int) - 127) | v => v
      (vs.map fun v => match fvDiv v q with
        | .nan => nanCode ef (fmtFc f)
        | .inf neg => infCode ef (fmtFc f) (fmtSat f) neg
        | .q neg n d => roundQ ef (fmtFc f) (fmtSat f) (fmtFtz f) rm neg n d, sc)

/-- Codes of w bits packed into bytes. -/
def packCodes (w : Nat) (cs : List Nat) : List Byte := leBytes (w * cs.length / 8) (packNat w cs)

/-- A store of the row in hand: its faults end the row, and its bytes are performed after the row's program. -/
def epiStore (s : State) (p : W64) (bs : List Byte) : State :=
  let e := s.epi s.curCl
  match engAccess s e.cid e.lvl1 false .st p bs.length with
  | .ok ks => (used s (s.ctx e.cid) .st p bs.length).setEpi s.curCl { e with stores := e.stores ++ ks.zip bs, pcw := e.pcw + 1 }
  | .fault c i => s.setEpi s.curCl { e with fault := some (c, i) }
  | .wait s => s.setEpi s.curCl { e with fault := some (0, 0) }

def epiSlotStore (s : State) (k : Nat) (bs : List Byte) : State :=
  let e := s.epi s.curCl
  s.setEpi s.curCl { e with stores := e.stores ++ (rangeFrom k bs.length).zip bs, pcw := e.pcw + 1 }

/-- EST. -/
def execEst (a : BitVec 3) (bs : BitVec 2) (rm : BitVec 3) (fmt : BitVec 4) (mode : BitVec 2) (s : State) : R :=
  let e := s.epi s.curCl
  .next (if mode = 0 then
      (let ef := (EFmt.ofCode fmt.toNat).getD .fp32
       let (cs, sc) := estCodes e.fmt ef (epiRm e.fmt rm) bs.toNat (blkNat e.param 0xAC 4) ((List.range 32).map fun j => epiVal e a j)
       let bytes := packCodes ef.width cs
       match e.slot with
       | some k =>
         let s := epiSlotStore s (k + e.row * bytes.length) bytes
         if bs = 0 then s else
           let e := s.epi s.curCl
           s.setEpi s.curCl { e with stores := e.stores ++ [(k + 32 * bytes.length + e.row, BitVec.ofNat 8 sc)] }
       | none =>
         let s := epiStore s (ptrAdd e.dst (e.row * e.stride.toInt)) bytes
         if bs = 0 || (s.epi s.curCl).fault.isSome then s else
           let s := epiStore s (ptrAdd (blkPtr e.param 0xA0) (e.row * blkS32 e.param 0xA8)) [BitVec.ofNat 8 sc]
           let e' := s.epi s.curCl
           s.setEpi s.curCl { e' with pcw := e.pcw + 1 })
    else
      (let n := rvSize e.param
       let ef := (EFmt.ofCode (blkNat e.param 0x9D 1)).getD .fp32
       epiStore s (ptrAdd (blkPtr e.param (if mode = 1 then 0x80 else 0x88)) (e.row * n : Nat)) (leBytes n (cvt ef false false false .rne (epiVal e a 0)))))

/-- EEND: the row's program is over. -/
def execEend (s : State) : R := .next (s.setEpi s.curCl { s.epi s.curCl with on := false })

/-! Drains (R200, R204, R207 to R210). -/

/-- The effect of one word of a program. -/
def epiExec (i : Instr) (s : State) : R :=
  match i with
  | .eadd d a b => execEadd d a b s
  | .emul d a b => execEmul d a b s
  | .efma d a b c => execEfma d a b c s
  | .emax d a b => execEmax d a b s
  | .emin d a b => execEmin d a b s
  | .esel d a b c cc => execEsel d a b c cc s
  | .eexp2 d a => execEexp2 d a s
  | .ercp d a => execErcp d a s
  | .ecvt d a rm f => execEcvt d a rm f s
  | .eldc d k n => execEldc d k n s
  | .eldr d rv => execEldr d rv s
  | .eldm d => execEldm d s
  | .eadpt d a => execEadpt d a s
  | .ermax d a => execErmax d a s
  | .ersum d a => execErsum d a s
  | .est a bs rm f m => execEst a bs rm f m s
  | .eend => execEend s
  | _ => .next s

/-- The state a step goes on in, for a meaning that always goes on. -/
def nextOr (s : State) : R → State
  | .next t => t
  | _ => s

/-- The words of a row, up to EEND or a fault. -/
def epiRow : List W32 → State → State
  | [], s => s
  | w :: ws, s =>
    match decodeE (EWord.ofWord w) with
    | none => s
    | some i =>
      let s := nextOr s (epiExec i s)
      if !(s.epi s.curCl).on || (s.epi s.curCl).fault.isSome then s else epiRow ws s

/-- What a program needs of the parameter block (R210). -/
def progUses (prog : List W32) (p : Instr → Bool) : Bool := prog.any fun w => match decodeE (EWord.ofWord w) with | some i => p i | none => false

/-- EPILOGUE before row 0 (R210): its subcode. -/
def epilogueBad (s : State) (prog : List W32) (blk : List Byte) (ring : Option (Option Nat)) : Option Nat :=
  let usesM := progUses prog fun i => match i with | .eldm _ => true | _ => false
  let usesR := progUses prog fun i => match i with | .eldr .. => true | .est _ _ _ _ m => m ≠ 0 | _ => false
  let rsv := blkNat blk 0x9E 2 ≠ 0 || (blk.drop 0xB0).any (· != 0)
  let m := blkNat blk 0x9C 1
  let r := blkNat blk 0x9D 1
  if ((usesM || usesR) && rsv) || (usesM && (m < 0xA || 0xD < m)) || (usesR && r ≠ 0xC && r ≠ 0xD) then some 1
  else
    match ring with
    | none => none
    | some none => some 2
    | some (some o) =>
      match progEst prog 0 with
      | some (f, bs) => if (s.ring o).size < 128 * codeWidth f + (if bs = 0 then 0 else 32) then some 2 else none
      | none => none

/-- Rows of Up that the adapters of a drain need: elements (c0 + j, m) (R199, R200). -/
def upLines (cid : Nat) (lvl1 : Bool) (en : List Byte) (c0 : Nat) (f : W32) : List Nat → State → ERes (List (List FV))
  | [], s => .ok s []
  | j :: js, s =>
    let ef := (EFmt.ofCode (adUfmt en)).getD .fp32
    (engRead s cid lvl1 false (ptrAdd (adUp en) ((c0 + j) * adUstride en : Nat)) (ceilDiv (adRank en * ef.width) 8)).bind fun s bs =>
      (upLines cid lvl1 en c0 f js s).bind fun s ls => .ok s (withScales ef (fmtFc f) (fmtFlush f) 0 ((splitBits ef.width bs).take (adRank en)) [] :: ls)

/-- A row of U: T's row by Up, of which T is never flushed (R60; log 137, DEDUCED); a format code that R199 does not allow leaves it a free value. -/
def upRow (s : State) (e : Eng) (f : W32) (en : List Byte) (i : Nat) (ls : List (List FV)) : State × List W48 :=
  if 12 ≤ adUfmt en then
    (let (n, s) := s.draw
     ({ s with freeCtr := s.freeCtr + 32 }, (List.range 32).map fun j => (Config.freeW64 (n + j)).setWidth 48))
  else (s, ls.map fun b => kstep (fmtSat f) 0 (((List.range (adRank en)).map fun m => w48Val (smGet (0 : W48) e.side (64 * i + m))).zip b))

/-- The up-projection pass: U and the scales, row by row. -/
def upPass (cl : Nat) (o : EOp) (f : W32) (fin : State → SMap W48 → SMap W32 → State) : List Nat → SMap W48 → SMap W32 → State → State
  | [], u, sc, s => fin s u sc
  | i :: is, u, sc, s =>
    let e := s.eng cl
    match smFind e.adEnts (e.adTags.getD i adNone) with
    | none => upPass cl o f fin is u sc s
    | some en =>
      (upLines o.cid o.lvl1 en e.adC0 f (List.range 32) s).pipe s cl o i fun s ls =>
        let (s, us) := upRow s e f en i ls
        upPass cl o f fin is (((List.range 32).zip us).foldl (fun m p => smSet m (32 * i + p.1) p.2) u) (smSet sc i (adScale en)) s

/-- A drain starts, or starts again: a new copy of the parameter block, the checks, its ring slot, and the up-projection. -/
def beginDrain (s : State) (cl : Nat) (o : EOp) (z : Nat) (p stride : W64) (ring : Option (Option Nat)) (f : W32) (words : List W32) (param : W64)
    (go : State → EOp → State) : State :=
  if o.begun then go s o
  else
    let prog := progOf words
    (match o.blk with
     | some b => (.ok s b : ERes (List Byte))
     | none => if words.isEmpty then (.ok s [] : ERes (List Byte)) else engRead s o.cid o.lvl1 false param 256).pipe s cl o (s.eng cl).drow fun s blk =>
      match epilogueBad s prog blk ring with
      | some sub => engFault s cl o fEPILOGUE 0 (BitVec.ofNat 64 sub)
      | none =>
        let claim : Option (State × Option Nat) :=
          match ring, o.sa with
          | some (some r), none => (produce s r).map fun (x : State × Nat) => (moveLock x.1 o.id 0 [(slotKey (s.ring r) x.2, slotKey (s.ring r) x.2 + (s.ring r).size)], some x.2)
          | _, sa => some (s, sa)
        match claim with
        | none => s
        | some (s, sa) =>
          let o := { o with sa := sa, blk := some blk }
          let s := setOp s cl o
          let fin (s : State) (u : SMap W48) (sc : SMap W32) : State :=
            let o := { o with running := true, begun := true }
            go (setOp (s.setEpi cl { Epi.idle with
              prog := prog, param := blk, fmt := f, z := z, cid := o.cid, dst := p, stride := stride, lvl1 := o.lvl1, up := u, scales := sc,
              slot := (match ring, sa with | some (some r), some k => some (slotKey (s.ring r) k) | _, _ => none) }) cl o) o
          if (s.eng cl).adpend && (s.eng cl).adtile = z then upPass cl o f fin (List.range 32) [] [] s else fin s [] []

/-- After the last row (R196, R210): the slot is FULL, Z clears the tile, T is no longer pending, and the entries go. -/
def drainEnd (s : State) (cl : Nat) (o : EOp) (z : Nat) (clr : Bool) (ring : Option (Option Nat)) : State :=
  let s := match ring, o.sa with
    | some (some r), some k => unclaim (setTag s r k tFULL) r k
    | _, _ => s
  dropLock ((s.modEng cl fun e => clearSide (if clr then { e with tiles := e.tiles.filter fun p => p.1 / 1024 ≠ z } else e) z).setEpi cl Epi.idle) o.id none

/-- One row of a drain: e0 holds the tile's row; the stores are performed after the program. -/
def drainOne (s : State) (cl : Nat) (o : EOp) (z : Nat) (clr : Bool) (ring : Option (Option Nat)) : State :=
  let i := (s.eng cl).drow
  let e := s.epi cl
  let s1 := { s.setEpi cl { e with on := true, pcw := 0, row := i, stores := [], fault := none,
                                   regs := (List.range 32).foldl (fun m j => smSet m j (tileElem (s.eng cl) z i j)) [] } with curCl := cl }
  let s2 := epiRow e.prog s1
  let e2 := s2.epi cl
  match e2.fault with
  | some (0, _) => s2.setEpi cl { e with on := false }
  | some (c, info) => engFault (s2.setEpi cl e) cl o c i info
  | none =>
    let olds := e2.stores.map fun x => (x.1, (loadKeys s2 cl polEng [x.1]).2.headD 0)
    let s3 : State := { storeKeys { s2 with cur := o.cid } cl polEng (e2.stores.map (·.1)) (e2.stores.map (·.2)) with cur := s2.cur }
    let s4 := (s3.setEpi cl { e2 with stores := [], olds := e2.olds ++ olds }).modEng cl fun g => { g with drow := i + 1 }
    if i + 1 = 32 then drainEnd s4 cl o z clr ring else s4

/-- DRAIN_ROW: the next row of the drain at the head of the drain pipe. -/
def execDrainRow (s : State) : R :=
  .next (match engOp s s.curCl true with
    | some o =>
      (match o.k with
       | .mdrain z clr p st ring f prog param =>
         if 32 ≤ (s.eng s.curCl).drow then s
         else beginDrain s s.curCl o z p st ring f prog param fun s o => drainOne s s.curCl o z clr ring
       | _ => s)
    | none => s)

end Sys2Proof.Machine
end

