-- ==== Sys2Proof/Machine/GenAlu.lean ====
section
/-! DEFINITION. Integer arithmetic of the generator, LI, and control transfer (R47, R89 to R91, R96, R97). -/

namespace Sys2Proof.Machine

def execNop (s : State) : R := .next s.adv

/-! R89. -/

def execAdd (d a : GReg) (b : GSrc) (s : State) : R := .next (s.done d (s.reg a + s.src b))
def execSub (d a : GReg) (b : GSrc) (s : State) : R := .next (s.done d (s.reg a - s.src b))
def execMul (d a : GReg) (b : GSrc) (s : State) : R := .next (s.done d (s.reg a * s.src b))
def execMulh (d a : GReg) (b : GSrc) (s : State) : R :=
  .next (s.done d (BitVec.ofInt 64 ((s.reg a).toInt * (s.src b).toInt / 2 ^ 64)))
def execMulhn (d a : GReg) (b : GSrc) (s : State) : R :=
  .next (s.done d (BitVec.ofNat 64 ((s.reg a).toNat * (s.src b).toNat / 2 ^ 64)))

/-! R90. -/

/-- DIV: truncated; -1 for a zero divisor. -/
def divS (a b : W64) : W64 := if b = 0 then BitVec.allOnes 64 else BitVec.ofInt 64 (a.toInt.tdiv b.toInt)
def divU (a b : W64) : W64 := if b = 0 then BitVec.allOnes 64 else BitVec.ofNat 64 (a.toNat / b.toNat)
def remS (a b : W64) : W64 := if b = 0 then BitVec.allOnes 64 else BitVec.ofInt 64 (a.toInt.tmod b.toInt)
def remU (a b : W64) : W64 := if b = 0 then BitVec.allOnes 64 else BitVec.ofNat 64 (a.toNat % b.toNat)

def execDiv (d a : GReg) (b : GSrc) (s : State) : R := .next (s.done d (divS (s.reg a) (s.src b)))
def execDivn (d a : GReg) (b : GSrc) (s : State) : R := .next (s.done d (divU (s.reg a) (s.src b)))
def execRem (d a : GReg) (b : GSrc) (s : State) : R := .next (s.done d (remS (s.reg a) (s.src b)))
def execRemn (d a : GReg) (b : GSrc) (s : State) : R := .next (s.done d (remU (s.reg a) (s.src b)))

def execAnd (d a : GReg) (b : GSrc) (s : State) : R := .next (s.done d (s.reg a &&& s.src b))
def execOr (d a : GReg) (b : GSrc) (s : State) : R := .next (s.done d (s.reg a ||| s.src b))
def execXor (d a : GReg) (b : GSrc) (s : State) : R := .next (s.done d (s.reg a ^^^ s.src b))
def execShl (d a : GReg) (b : GSrc) (s : State) : R := .next (s.done d (s.reg a <<< ((s.src b).toNat % 64)))
def execShr (d a : GReg) (b : GSrc) (s : State) : R := .next (s.done d (s.reg a >>> ((s.src b).toNat % 64)))
def execSar (d a : GReg) (b : GSrc) (s : State) : R := .next (s.done d ((s.reg a).sshiftRight ((s.src b).toNat % 64)))
def execMin (d a : GReg) (b : GSrc) (s : State) : R := .next (s.done d (if (s.src b).toInt < (s.reg a).toInt then s.src b else s.reg a))
def execMax (d a : GReg) (b : GSrc) (s : State) : R := .next (s.done d (if (s.reg a).toInt < (s.src b).toInt then s.src b else s.reg a))
def execMinn (d a : GReg) (b : GSrc) (s : State) : R := .next (s.done d (if (s.src b).toNat < (s.reg a).toNat then s.src b else s.reg a))
def execMaxn (d a : GReg) (b : GSrc) (s : State) : R := .next (s.done d (if (s.reg a).toNat < (s.src b).toNat then s.src b else s.reg a))
def execClz (d a : GReg) (s : State) : R := .next (s.done d (BitVec.ofNat 64 (clzNat 64 (s.reg a).toNat)))
def execPopc (d a : GReg) (s : State) : R := .next (s.done d (BitVec.ofNat 64 (popNat 64 (s.reg a).toNat)))
def execSeq (d a : GReg) (b : GSrc) (s : State) : R := .next (s.done d (bit64 (s.reg a == s.src b)))
def execSlt (d a : GReg) (b : GSrc) (s : State) : R := .next (s.done d (bit64 (decide ((s.reg a).toInt < (s.src b).toInt))))
def execSltn (d a : GReg) (b : GSrc) (s : State) : R := .next (s.done d (bit64 (decide ((s.reg a).toNat < (s.src b).toNat))))
/-- SEL reads gd before it writes it. -/
def execSel (d a : GReg) (b : GSrc) (s : State) : R := .next (s.done d (if s.reg d ≠ 0 then s.reg a else s.src b))

/-- LI: two words (R91). -/
def execLi (d : GReg) (v : W64) (s : State) : R := .next ((s.setReg d v).advN 2)

/-! Control transfer (R96, R97). -/

/-- The target of an offset in words from the branch. -/
def branchTo (s : State) (off : BitVec 34) : W64 := s.me.pc + (off.signExtend 64) <<< 3

/-- Transfers control, or raises ALIGN at the branch with no register written. -/
def jumpTo (s : State) (target : W64) (regs : State → State) : State :=
  if !aligned target 8 then trap s fALIGN target
  else (regs s).modMe fun c => { c with pc := target, dbg := { c.dbg with skip1 := false } }

def execB (off : BitVec 34) (s : State) : R := .next (jumpTo s (branchTo s off) id)
def execBc (c : BCond) (a b : GReg) (off : BitVec 34) (s : State) : R :=
  .next (if bcHolds c (s.reg a) (s.reg b) then jumpTo s (branchTo s off) id else s.adv)
def execCall (off : BitVec 34) (s : State) : R := .next (jumpTo s (branchTo s off) fun s => s.setReg 31#5 (s.me.pc + 8))
def execRet (s : State) : R := .next (jumpTo s (s.reg 31#5) id)
/-- JR reads ga before it writes gd. -/
def execJr (d a : GReg) (s : State) : R := .next (jumpTo s (s.reg a) fun s => s.setReg d (s.me.pc + 8))
/-- LOOP: an ALIGN leaves the counter unchanged. -/
def execLoop (d : GReg) (off : BitVec 34) (s : State) : R :=
  .next (let v := s.reg d - 1
    if v ≠ 0 then jumpTo s (branchTo s off) fun s => s.setReg d v else s.done d v)

end Sys2Proof.Machine
end

