-- ==== Sys2Proof/Machine/Traps.lean ====
section
/-! DEFINITION. Trap entry at a boundary, TRAP, ERET, pre-emption, watchdog, BRK, halts and DBGOP (R276 to R284, R299 to R303). -/

namespace Sys2Proof.Machine

/-! Entries. -/

/-- A resident context that is not halted, whose handler, if any, has returned, and that is not between a HOLE and its unit (R276). -/
def interruptible (c : Ctx) : Bool := c.st.resident && !c.dbg.halted && !c.trap.intrap && c.cap.holes.isEmpty

/-- The imprecise fault that is due is taken (R278). -/
def takePending (s : State) (present : Bool) : State :=
  if !interruptible s.me || s.me.trap.preempt.isSome || s.me.dbg.pend.isSome then s
  else
    match pendingFault s s.me with
    | none => s
    | some r =>
      if (r.code ≠ fNOTPRESENT) = present then takeTrap (s.modMe fun c => { c with trap := clearPending c.trap }) s.cur r else s

/-- TRAP_ENTRY: at a boundary, a halt that was asked for, or the imprecise fault that is due. -/
def execTrapEntry (s : State) : R :=
  .next (if !interruptible s.me || s.me.trap.preempt.isSome then s
    else
      match s.me.dbg.pend with
      | some (hard, reason) => if quiet s.me then haltNow s s.cur reason hard else s
      | none => takePending s true)

/-- NOTPRESENT_SAVE: an imprecise NOTPRESENT sends the context to its save routine (R284). -/
def execNotpresentSave (s : State) : R := .next (takePending s false)

/-- PREEMPT reaches a boundary: the save routine, with the kind; a pending lane fault is dropped (R284). -/
def execPreempt (s : State) : R :=
  .next (if !interruptible s.me || !quiet s.me then s
    else
      match s.me.trap.preempt with
      | none => s
      | some k =>
        let s := s.modMe fun c => { c with trap := { c.trap with laneF := none } }
        gangPost (saveEntry s s.cur
          { code := 0x20, orig := 0, imp := false, acc := 0, lane := 0, info := BitVec.ofNat 64 k, tag := none, epc := s.me.resumePc }) s.cur k)

/-- WATCHDOG: a handler has run longer than TR.WDOG (R280). -/
def execWatchdog (s : State) : R :=
  let c := s.me
  .next (if !c.st.resident || !c.trap.intrap || s.mc - c.trap.since ≤ c.trap.wdog.toNat then s
    else
      let r : TrapRec := { code := fWATCHDOG, orig := 0, imp := false, acc := 0, lane := 0, info := BitVec.ofNat 64 (s.mc - c.trap.since), tag := none, epc := c.pc }
      unhandled (trapRegs s s.cur r) s.cur r)

/-- TRAP: reason 0x22, with CTX.EPC at the next word (R282). -/
def execTrap (code : BitVec 16) (s : State) : R :=
  .next (takeTrap (s.modMe fun c => { c with dbg := { c.dbg with skip1 := false } }) s.cur
    { code := 0x22, orig := 0, imp := false, acc := 0, lane := 0, info := code.setWidth 64, tag := none, epc := s.me.pc + 8 })

/-! ERET (R283). -/

/-- The semaphores of a context that has returned from its restore serve those that waited for it, oldest first (R169, R170). -/
def semsBack (s : State) (cid : Nat) : State :=
  (List.range 8).foldl (fun s i =>
    let c := s.ctx cid
    let k := 64 * c.cl + 8 * c.slot + i
    let ws := smGet [] s.semAway (8 * cid + i)
    if ws.isEmpty then s
    else semServe k ws ({ s with semAway := smDel s.semAway (8 * cid + i) }.setSem k { s.sem k with ws := ws })) s

/-- ERET outside a handler is illegal: subcode 0x41. -/
def eretWith (s : State) (f : State → State) : State :=
  privileged s fun s =>
    if !s.me.trap.intrap then trapSub s fILLEGAL 0x41
    else
      let back := s.me.trap.restoring
      let s := trapReturn (f s)
      if back then semsBack s s.cur else s

/-- The unit at which the stream has stopped leaves; an instance goes on with its next unit. -/
def dropUnit (s : State) (c : Ctx) : Ctx :=
  let t := c.strm
  if !t.stopped then c
  else
    match t.ents with
    | .inst l r n w vs :: es =>
      let k := smGet Rake.zero (s.ctx l).cap.rakes r
      let w' := w + unitLen (k.ws.drop w)
      { c with strm := { t with pres := none, ents := if k.ws.length ≤ w' then es else .inst l r n w' vs :: es } }
    | .lane _ _ :: es => { c with strm := { t with pres := none, ents := es } }
    | _ => c

/-- Every entry and queued instance goes; only votes that have a result still count. -/
def flushStrm (t : Strm) : Strm :=
  { t with ents := [], pres := none, votesOut := t.voteQ.length + (t.voteFly.filter fun v => v.1.isSome).length }

def execEret (s : State) : R := .next (eretWith s id)
def execEretSkip (s : State) : R := .next (eretWith s fun s => s.modMe (dropUnit s))
def execEretFlush (s : State) : R := .next (eretWith s fun s => s.modMe fun c => { c with strm := flushStrm c.strm })

/-! Debug (R299 to R303). -/

/-- BRK: taken in an attached context, counted in any other. -/
def execBrk (code : BitVec 16) (s : State) : R :=
  .next (if s.me.trap.dbgatt then (if brkHalts s.me && s.me.trap.intrap then (holdBrk s 0).adv else brkRaise s 0 (code.setWidth 64))
    else (s.modMe fun c => { c with trap := { c.trap with brkskip := c.trap.brkskip + 1 } }).adv)

/-- Asks for a halt of a context (R301): HARD where either of two requests is. A context that is halted already stays so. -/
def askHalt (s : State) (hard : Bool) (cid : Nat) : State :=
  let c := s.ctx cid
  if c.dbg.halted then haltNow s cid 0x21 (hard || c.dbg.hard)
  else s.modCtx cid fun c => { c with dbg := { c.dbg with pend := some (hard || c.dbg.pend.any (·.1), 0x21) } }

/-- A halted context goes on, and an engine that a HARD halt stopped; a halt not yet in force is withdrawn. -/
def unhalt (s : State) (cid : Nat) : State :=
  let c := s.ctx cid
  (s.modEng c.cl fun e => if e.haltStop && e.owner = some c.task then { e with stopped := false, haltStop := false, framed := false } else e).modCtx cid
    fun c => { c.counted s.us with dbg := { c.dbg with halted := false, hard := false, pend := none } }

/-- SYSOP.HALT. -/
def execSysopHalt (s : State) : R := .next (privileged s fun s => (askHalt s false s.cur).adv)

/-- The resident contexts that DBGOP targets, when reserved bits are zero and the target is of the own tenant. -/
def onTargets (s : State) (d a : GReg) (f : State → List (Nat × Ctx) → State) : State :=
  privileged s fun s =>
    let v := (s.reg a).toNat
    if v / 2 ^ 13 ≠ 0 ∨ bitOf v 11 then trap s fILLEGAL 0
    else
      match s.ctxAt (bitsOf v 7 0) (bitsOf v 10 8) with
      | none => s.done d 1
      | some e =>
        if s.tenOf e.2 ≠ s.tenOf s.me then trap s fPERM 0
        else f s (if bitOf v 12 then s.residentOf e.2.task else [e])

def haltAll (s : State) (hard : Bool) (d a : GReg) : State :=
  onTargets s d a fun s es => (es.foldl (fun s e => askHalt s hard e.1) s).done d 0

/-- SYSOP.DBGOP. -/
def execHaltSoft (d a _b : GReg) (s : State) : R := .next (haltAll s false d a)
def execHaltHard (d a _b : GReg) (s : State) : R := .next (haltAll s true d a)
def execResume (d a _b : GReg) (s : State) : R := .next (onTargets s d a fun s es => (es.foldl (fun s e => unhalt s e.1) s).done d 0)
def execDbgopStatus (d a _b : GReg) (s : State) : R :=
  .next (onTargets s d a fun s es => s.done d (match es with | e :: _ => dbgCtlWord e.2.dbg | [] => 0))

end Sys2Proof.Machine
end

