-- ==== Sys2Proof/Machine/Save.lean ====
section
/-! DEFINITION. The save routine's instructions and the restore: SVSTRM, RSSTRM, BARFL, YIELD, RESTORE (R25, R26, R262, R285 to R292, R376,
R377). -/

namespace Sys2Proof.Machine

/-! The stream part (R287). -/

def partBytes : Nat := 0x8000
def ringsOff : Nat := 0x28C0
def teamOff : Nat := 0x2B00
def teamBytes : Nat := 21760

/-- n bytes of a drawn number, from offset off of the part. -/
def drawnBytes (num off n : Nat) : List Byte := (List.range n).map fun b => Config.frameByte num (off + b)

def zeros (n : Nat) : List Byte := List.replicate n 0

/-- A record: tag, word, hole values. -/
def recBytes (tag : W64) (w : List Byte) (vs : List (Nat × W64)) : List Byte :=
  leBytes 8 tag.toNat ++ w ++ (List.range 8).flatMap fun k => leBytes 8 (((vs.find? fun v => v.1 = k).map fun v => v.2.toNat).getD 0)

/-- The records of an entry, the first of them number i of the part: one for each lane word. -/
def entRecs (num i : Nat) : SEnt → List (List Byte)
  | .lane tag ws => ws.map fun w => recBytes tag (leBytes 8 w.toNat) []
  | .inst _ r n w vs => [recBytes (instTag n w r) (zeros 8) vs]
  | .ctrl _ => [recBytes 2 (drawnBytes num (0x40 + 80 * i + 8) 8) []]

def allRecs (num : Nat) : Nat → List SEnt → List (List Byte)
  | _, [] => []
  | i, e :: es => let r := entRecs num i e; r ++ allRecs num (i + r.length) es

def ctlsOf (es : List SEnt) : List Ctl := es.filterMap fun e => match e with | .ctrl c => some c | _ => none
def leadsOf (s : State) (es : List SEnt) : List Nat := es.filterMap fun e => match e with | .inst l .. => some (s.ctx l).gpos | _ => none

/-- The header of the part. -/
def partHead (c : Ctx) (n : Nat) : List Byte :=
  let mask := c.cap.kept.foldl (fun m h => orBit m h.1) 0
  let kinds := c.cap.kept.foldl (fun m h => m + (match h.2.1 with | .base => 0 | .i9 => 1 | .i32 => 2) * 4 ^ h.1) 0
  leBytes 2 n ++ leBytes 4 c.strm.instCount ++ leBytes 1 c.strm.votesOut ++ leBytes 1 c.strm.voteQ.length ++ leBytes 1 (c.cap.openR.getD 0xFF)
  ++ leBytes 1 mask ++ leBytes 2 kinds ++ zeros 52

/-- Ring handles of a context: handle, the number of the handle it stands for, the ring with slots and tags relative to its task's allotment. -/
def relRings (s : State) (c : Ctx) : List (Nat × Nat × RingObj) :=
  c.rings.filterMap fun e => ((ringEnd s e.2).bind (smFind s.ringObjs)).map fun r =>
    let vb := smGet 0 (s.task r.task).vbase r.cl
    (e.1, e.2, { r with sbase := r.sbase - vb, tbase := r.tbase - vb })

/-- Every byte of the part, with the internal fields drawn from a number. -/
def partOf (c : Ctx) (num : Nat) : List Byte × Nat :=
  let rs := allRecs num 0 c.strm.ents
  let votes := c.strm.voteQ.flatMap fun v => leBytes 8 v.toNat
  (partHead c rs.length ++ rs.flatten ++ zeros (128 * 80 - 80 * rs.length) ++ votes ++ zeros (128 - votes.length)
    ++ drawnBytes num ringsOff 512 ++ zeros 64 ++ drawnBytes num teamOff teamBytes, rs.length)

/-- SVSTRM. -/
def execSvstrm (d a : GReg) (s : State) : R :=
  .next (privileged s fun s =>
    let p := s.reg a
    if !aligned p 64 then trap s fALIGN p
    else
      genDo s .st polCl p partBytes fun s ks =>
        let c := s.me
        if !c.strm.voteFly.isEmpty || !quiet c then s.stall
        else
          let (num, s) := s.draw
          let (bs, n) := partOf c num
          let sv := Saved.strm (ctlsOf c.strm.ents) (leadsOf s c.strm.ents) c.strm.mcOn (relRings s c) c.team
          let s : State := { storeKeys s c.cl polCl ks bs with saved := smSet s.saved num sv }
          (s.modMe fun c =>
            { c with strm := { Strm.none with instCount := c.strm.instCount }, cap := { c.cap with openR := none }, ringsGone := [],
                     trap := { c.trap with svDone := true, laneF := none } }).done d
            (BitVec.ofNat 64 n))

/-! RSSTRM (R288). -/

def partRec (bs : List Byte) (i : Nat) : List Byte := (bs.drop (0x40 + 80 * i)).take 80
def recKind (r : List Byte) : Nat := bNum r 0 8 % 8

/-- Whose part this is: the frame whose internal bytes these are. -/
def findPart (s : State) (bs : List Byte) (n : Nat) : Option Saved :=
  let same (num off len : Nat) : Bool := (bs.drop off).take len = drawnBytes num off len
  (s.saved.reverse.find? fun e =>
    !e.2.isEng && same e.1 ringsOff 512 && same e.1 teamOff teamBytes
    && (List.range n).all fun i => recKind (partRec bs i) ≠ 2 || same e.1 (0x40 + 80 * i + 8) 8).map (·.2)

/-- Entries from records; the lane words of consecutive records form their units. -/
def entsFrom (task idx : Nat) : Nat → List Ctl → List Nat → List (List Byte) → List SEnt
  | 0, _, _, _ => []
  | _, _, _, [] => []
  | fuel + 1, cs, ls, r :: rs =>
    match recKind r with
    | 0 =>
      let run := (r :: rs).takeWhile fun x => recKind x = 0
      let n := max 1 (unitLen (run.map fun x => bW64 x 8))
      .lane (bW64 r 0) ((run.take n).map fun x => bW64 x 8) :: entsFrom task idx fuel cs ls ((r :: rs).drop n)
    | 1 =>
      let t := bNum r 0 8
      .inst (cidOf task (ls.headD 0) idx) (bitsOf t 8 3) (bitsOf t 47 18) (bitsOf t 17 9)
        ((List.range 8).map fun k => (k, bW64 r (16 + 8 * k))) :: entsFrom task idx fuel cs ls.tail rs
    | _ =>
      match cs with
      | c :: cs => .ctrl c :: entsFrom task idx fuel cs ls rs
      | [] => entsFrom task idx fuel [] ls rs

/-! A part whose internal fields have been changed (R287): the team state, the stream and the ring handles are free values (log 17,
DESIGN CHOICE). They reach no other context: a free control entry is a TEAM word, and a free handle names a ring of the context's own. -/

/-- A free number of n bytes. -/
def freeNat (num off n : Nat) : Nat := leNat ((List.range n).map fun b => Config.frameByte num (off + b))

def freeTeam (num : Nat) (t : Team) : Team :=
  let mask (off : Nat) : Nat := freeNat num off 128 % 2 ^ t.w
  { t with
    act := mask 0, xi := BitVec.ofNat 16 (freeNat num 128 2), fmt := BitVec.ofNat 32 (freeNat num 130 4) &&& 0x8000FF80#32,
    preds := (List.range 7).map fun k => (k + 1, mask (256 + 128 * k)),
    lfsr := (List.range t.w).map fun l => (l, BitVec.ofNat 32 (freeNat num (2048 + 4 * l) 4)),
    stack := (List.range (freeNat num 134 1 % 33)).map fun d =>
      ⟨mask (8192 + 512 * d), BitVec.ofNat 32 (freeNat num (8192 + 512 * d + 128) 4) &&& 0x8000FF80#32, freeNat num (8192 + 512 * d + 132) 1⟩ }

/-- A free entry of the stream of a context. -/
def freeEnt (num cid i : Nat) : SEnt :=
  let o := 65536 + 256 * i
  match freeNat num o 1 % 3 with
  | 0 => .lane (BitVec.ofNat 64 (freeNat num (o + 1) 8)) ((List.range (1 + freeNat num (o + 9) 1 % 4)).map fun k => BitVec.ofNat 64 (freeNat num (o + 16 + 8 * k) 8))
  | 1 => .inst cid (freeNat num (o + 1) 1 % 64) (freeNat num (o + 2) 4) (freeNat num (o + 6) 2 % 512)
      ((List.range 8).map fun k => (k, BitVec.ofNat 64 (freeNat num (o + 16 + 8 * k) 8)))
  | _ => .ctrl (if freeNat num (o + 1) 1 % 2 = 0 then .teamN (freeNat num (o + 2) 2) else .teamM (freeNat num (o + 2) 1 % 32) (BitVec.ofNat 32 (freeNat num (o + 4) 4)))

/-- Free entries of at most 128 words. -/
def freeEnts (num cid : Nat) : List SEnt :=
  (List.range (freeNat num 65532 1 % 129)).foldl (fun es i =>
    let es' := es ++ [freeEnt num cid i]
    if entWords es' ≤ 128 then es' else es) []

/-- Free handles: undefined, or of a ring that the context has defined. -/
def freeRings (s : State) (num cid : Nat) : SMap Nat :=
  let own := ownRings s cid
  (List.range 16).filterMap fun h => own[freeNat num (65280 + 2 * h) 2 % (own.length + 1)]?.map fun o => (h, o)

/-- A handle of a part is defined again: the allotment of the task on the cluster gives the place of a ring. A ring that a subscription still
fills keeps its positions; an alias whose handle became undefined meanwhile stays undefined. -/
def putRing (s : State) (c : Ctx) (cid : Nat) (e : Nat × Nat × RingObj) : State :=
  let vb := smGet 0 (s.task c.task).vbase c.cl
  let own := e.2.1 = ringKey cid e.1
  if !own && c.ringsGone.contains e.2.1 then s
  else
  let s := s.modCtx cid fun c => { c with rings := smSet c.rings e.1 e.2.1 }
  if !own || ((smFind s.ringObjs e.2.1).any fun r => r.cl = c.cl && s.subs.any fun b => b.2.ring = e.2.1) then s
  else s.setRing e.2.1 { e.2.2 with cl := c.cl, sbase := e.2.2.sbase + vb, tbase := e.2.2.tbase + vb }

/-- The stream of a part, behind the gate. -/
def strmOf (bs : List Byte) (ents : List SEnt) (mcOn : Bool) (mc : Nat) : Strm :=
  { Strm.none with ents := ents, born := List.replicate ents.length mc, gate := true, instCount := bNum bs 2 4, votesOut := bNum bs 6 1, mcOn := mcOn,
                   voteQ := (List.range (min 16 (bNum bs 7 1))).map fun k => bW64 bs (0x2840 + 8 * k) }

/-- RSSTRM. -/
def execRsstrm (a : GReg) (s : State) : R :=
  .next (privileged s fun s =>
    let p := s.reg a
    if !aligned p 64 then trap s fALIGN p
    else
      genDo s .ld polCl p partBytes fun s ks =>
        let c := s.me
        let (s1, bs) := loadKeys s c.cl polCl ks
        let n := min 128 (bNum bs 0 2)
        let rs := (List.range n).map (partRec bs)
        let f := findPart s bs n
        if !c.strm.idle || !c.trap.intrap || rs.any (fun r => 3 ≤ recKind r)
          || (match f with | some (.strm _ _ _ _ t) => t.w ≠ c.team.w | _ => false) then trapSub s fILLEGAL 0x45
        else
          let openR := if bNum bs 8 1 = 0xFF then none else some (bNum bs 8 1 % 64)
          let cap := { c.cap with openR := openR, kept := c.cap.kept.filter fun h => bitOf (bNum bs 9 1) h.1 }
          match f with
          | some (.strm ctls leads mcOn rings t) =>
            let st := strmOf bs (entsFrom c.task c.idx 129 ctls leads rs) mcOn s1.mc
            let s := s1.modMe fun c => { c with strm := st, cap := cap, team := { t with vb := c.team.vb, vl := c.team.vl } }
            (rings.foldl (fun s e => putRing s c s.cur e) s).adv
          | _ =>
            let (num, s) := s1.draw
            let st := strmOf bs (freeEnts num s.cur) false s.mc
            (s.modMe fun c => { c with strm := st, team := freeTeam num c.team, rings := freeRings s num s.cur, cap := cap }).adv)

/-! BARFL (R289). -/

/-- The task's barrier objects leave the cluster's cache; their contents are at home. -/
def execBarfl (s : State) : R :=
  .next (privileged s fun s => (s.modCl s.me.cl fun c => { c with barc := c.barc.filter fun e => !e.2.contains s.me.task }).adv)

/-! YIELD (R290, R291, R376). -/

/-- The other resident contexts of the task at the same group position. -/
def othersHere (s : State) (cid : Nat) : List (Nat × Ctx) :=
  let c := s.ctx cid
  (s.residentOf c.task).filter fun e => e.1 ≠ cid && e.2.gpos = c.gpos

/-- The engine's state forbids the last context to leave: operations that are not held, or whose frame is not stored. -/
def engUnsaved (s : State) : Bool :=
  let c := s.me
  let e := s.eng c.cl
  (othersHere s s.cur).isEmpty && e.owner = some c.task && !e.q.isEmpty && !((e.stopped || e.faulted) && e.framed)

/-- A copy of the context that has neither completed nor faulted: one behind a faulted copy is such a one too. -/
def copyLeft (s : State) (cid : Nat) : Bool :=
  s.chans.any fun e => (if e.2.fault.isSome then e.2.q.tail else e.2.q).any fun c => c.cid = cid

/-- PINNED: a faulted copy of the context, or a subscription of the task that still runs on the cluster. -/
def pinnedNow (s : State) (cid : Nat) : Bool :=
  let c := s.ctx cid
  s.chans.any (fun e => e.2.q.any fun x => x.cid = cid) || s.subs.any fun e => e.2.task = c.task && e.2.cl = c.cl

/-- PINNED is set for the context or for one saved before it at the position. -/
def pinnedHere (s : State) (cid : Nat) : Bool :=
  let c := s.ctx cid
  pinnedNow s cid || (s.ctxsOf c.task).any fun e => e.2.st = .saved && e.2.gpos = c.gpos && hdrNat s e.1 2 1 ≠ 0

/-- First byte of the vault part in a frame of context 0. -/
def vaultPart (r : TRec) : Nat := 0x20000 + 128 * r.rows.foldl (· + ·) 0

/-- The allotment of the task on a cluster goes to the frame of context 0 and is released; its rings stand nowhere meanwhile. -/
def vaultOut (s : State) (cid : Nat) : State :=
  let c := s.ctx cid
  let k := s.task c.task
  let b := smGet 0 k.vbase c.cl
  let s : State := { s with
    mem := memSetList s.mem (frameKey (cidOf c.task c.gpos 0) (vaultPart k.r)) (memBytes s.mem (vaultKey c.cl b) k.r.vbytes),
    ringObjs := s.ringObjs.map fun e => if e.2.task = c.task && e.2.cl = c.cl then
        (e.1, { e.2 with cl := 192, sbase := e.2.sbase - b, tbase := e.2.tbase - b }) else e }
  s.modTask c.task fun k => { k with vbase := smDel k.vbase c.cl }

/-- The hardware part of the header (R286). -/
def headerBytes (c : Ctx) (pin : Bool) : List Byte :=
  [1] ++ leBytes 1 c.cl ++ [if pin then 1 else 0] ++ zeros 5 ++ leBytes 8 c.trap.epc.toNat ++ leBytes 8 c.trap.reason.toNat
  ++ leBytes 8 c.trap.info.toNat ++ leBytes 8 c.trap.stag.toNat ++ leBytes 4 c.team.vl ++ zeros 20

/-- The waiters of a context's semaphores keep their order while it is away (R169, R170). -/
def semsAway (s : State) (cid : Nat) : State :=
  (List.range 8).foldl (fun s i =>
    let c := s.ctx cid
    let k := 64 * c.cl + 8 * c.slot + i
    let ws := smGet [] s.semAway (8 * cid + i) ++ (s.sem k).ws
    { s with sems := smDel s.sems k, semAway := if ws.isEmpty then s.semAway else smSet s.semAway (8 * cid + i) ws }) s

/-- The context leaves its slot: SAVED. -/
def leaveSaved (s : State) (cid : Nat) : State :=
  let s := semsAway (unwait (returnSteal (accrue s cid) cid) cid) cid
  let c := s.ctx cid
  freeEng (s.setCtx cid
    { c with st := .saved, strm := Strm.none, fills := [], tryw := none, hold := [0, 0, 0, 0, 0],
             trap := { c.trap with pl := false, intrap := false, inSave := false, restoring := false, preempt := none } }) c.task c.cl

/-- The end of a save, once everything that YIELD waits for is over. -/
def yieldNow (s : State) (cid : Nat) : State :=
  let c := s.ctx cid
  let pin := pinnedNow s cid
  let s := edgeOutOn s c.task c.cl
  let s := if (othersHere s cid).isEmpty && !pinnedHere s cid then vaultOut s cid else s
  let s : State := { s with mem := memSetList s.mem (frameKey cid 0) (headerBytes c pin) }
  leaveSaved (s.modTask c.task fun k => { k with pinned := k.pinned || pin }) cid

/-! Shoot-downs (R295, R339). -/

/-- A context that a shoot-down has pre-empted and that has not reached its YIELD. -/
def shotCtx (s : State) (tn self : Nat) (e : Nat × Ctx) : Bool :=
  let c := e.2
  c.st.resident && e.1 ≠ self && s.tenOf c = tn
  && (c.trap.preempt = some 2 || (c.trap.inSave && c.trap.reason = 0x20 && c.trap.info = 2)
      || ((s.task c.task).rebuild && (c.trap.preempt.isSome || c.trap.inSave)))

/-- A shoot-down of a generation is over: older walks have ended, the contexts have yielded. -/
def shootOver (s : State) (tn g self : Nat) : Bool :=
  !s.walks.any (fun w => w.2.tenant = tn && w.2.gen < g && !w.2.missing) && !s.ctxs.any (shotCtx s tn self)

/-- BUSY of the VF falls when its shoot-down is over. -/
def settleShoot (s : State) (tn : Nat) : State :=
  let t := s.tenant tn
  if t.xtbusy && shootOver s tn t.xtnew (2 ^ 64) then s.setTenant tn { t with xtbusy := false, xtgen := t.xtnew } else s

/-- YIELD. -/
def execYield (s : State) : R :=
  .next (privileged s fun s =>
    let c := s.me
    if !c.trap.inSave then trapSub s fILLEGAL 0x42
    else if !c.trap.svDone || engUnsaved s then trapSub s fILLEGAL 0x44
    else if !drained c || copyLeft s s.cur then s.stall
    else settleShoot (yieldNow s s.cur) (s.tenOf c))

/-! RESTORE (R26, R262, R292). -/

/-- g1 to g31 before the restore routine reloads them: free values (log 7, DESIGN CHOICE). -/
def freeRegs (s : State) : State × SMap W64 :=
  (List.range 31).foldl (fun x k => let (n, s) := x.1.draw; (s, smSet x.2 (k + 1) (Config.freeW64 n))) (s, [])

/-- CSRs that only the restore routine reloads: free values. -/
def freeTrap (s : State) : State × Trap :=
  let (a, s) := s.draw
  let (b, s) := s.draw
  let (v, s) := s.draw
  let (k, s) := s.draw
  (s, { Trap.none with scratch0 := Config.freeW64 a, scratch1 := Config.freeW64 b, vec := Config.freeW64 v &&& 0xFFFFFFFFFFFFFFF8,
                       brkskip := Config.freeW64 k })

/-- One context comes back at a place: it enters its restore routine. -/
def restoreCtx (s : State) (cl : Nat) (out : Bool) (cid : Nat) (at_ : Nat × Spot) : State :=
  let c := s.ctx cid
  let tn := s.tenOf c
  let w (off : Nat) : W64 := BitVec.ofNat 64 (hdrNat s cid off 8)
  let vl := hdrNat s cid 0x28 4
  let (s, g) := freeRegs s
  let (s, t) := freeTrap s
  let c' : Ctx :=
    { c with
      st := if taskReady s c.task then .running else .early, cl := cl, slot := at_.1, slice := at_.2.1, quarter := at_.2.2.1,
      pc := restVec s tn, g := g, team := freshTeam c.team.w at_.2.2.2 vl, strm := Strm.none, rings := [], fills := [],
      hold := [0, 0, 0, 0, 0], bounds := boundsCopy s tn, dbg := Dbg.none, tryw := none, waitAt := none, sysWait := none, runUs := s.us,
      born := s.ticks, outTurn := out,
      trap := { t with
        pl := true, intrap := true, since := s.mc, dbgatt := c.trap.dbgatt, epc := w 8, reason := w 0x10, info := w 0x18, stag := w 0x20,
        engF := c.trap.engF, copyF := c.trap.copyF, restoring := true, savevec := saveVec s tn, restvec := restVec s tn } }
  let s := takeSlot s cid c'
  { s with mem := memSet s.mem (frameKey cid 0) 0 }

/-- The extent table is built again, with the LAZY flags of the waybill (R295). -/
def rebuildExtents (s : State) (t : Nat) : State :=
  let k := s.task t
  if !k.rebuild then s
  else
    let regs := match readWaybill s k.tenant k.r with
      | .ok ws => (k.regions.zip ws).map fun p => { p.1 with isLazy := p.2.isLazy }
      | .error _ => k.regions
    let x := buildExtents s k.tenant 0 regs []
    s.setTask t { k with rebuild := false, extents := x.1, regions := x.2 }

/-- The contexts of one position come back on a cluster: the vault, the edge-in, the contexts. -/
def restoreOn (s : State) (t : Nat) (g : Nat) (cids : List Nat) (f : Fit) (out : Bool) : State :=
  let k := s.task t
  let s := if f.fresh then
      { s with mem := memSetList s.mem (vaultKey f.cl f.vb) (memBytes s.mem (frameKey (cidOf t g 0) (vaultPart k.r)) k.r.vbytes) } else s
  let s := s.modTask t fun k =>
    { k with vbase := smSet k.vbase f.cl f.vb, cls := k.cls.set g f.cl, ranOn := if k.ranOn.contains f.cl then k.ranOn else f.cl :: k.ranOn }
  let s := edgeAgain s t f.cl
  let s := if taskReady s t && !allEdged s t f.cl then edgeInAll s t f.cl else s
  (cids.zip f.spots).foldl (fun s e => restoreCtx s f.cl out e.1 e.2) s

/-- RESTORE. -/
def execRestore (s : State) : R :=
  let t := s.me.task
  let k := s.task t
  let path := taskPath s t
  .next (if !comesBack s s.cur then s
    else
      match roomBack s s s.cur with
      | some fits =>
        let out := !holdsTurn s k.tenant path
        if !isNext s k.tenant path then s
        else
          ((backGroups s s.cur).zip fits).foldl (fun s e => restoreOn s t e.1.1 e.1.2 e.2 out)
            ((rebuildExtents s t).modTask t fun k => { k with pinned := false })
      | none => makeWay s k.tenant k.launch path fun room => (roomBack s room s.cur).isSome)

end Sys2Proof.Machine
end

