-- ==== Sys2Proof/Machine/Translate.lean ====
section
/-! DEFINITION. Walks, shoot-downs, page migration, the sweep of L1, the instruction-fetch fence (R142, R249, R294 to R298, R314, R339). -/

namespace Sys2Proof.Machine

/-! Walks (R294, R295). -/

/-- The walked window has been shot down since the walk began, or the walk is older than every record. -/
def walkStale (s : State) (w : Walk) : Bool :=
  let r := (s.tenant w.tenant).shoots
  r.any (fun x => w.gen < x.1 && x.2.1 ≤ w.win && w.win < x.2.2) || (!r.isEmpty && r.all fun x => w.gen < x.1)

/-- Regions of a task that hold bytes of a window. -/
def winRegions (s : State) (task win : Nat) : List Region :=
  (s.task task).regions.filter fun r => r.va < (win + 1) * 2 ^ 21 && win * 2 ^ 21 < r.va + r.extent

/-- Before an entry goes, the dirty bytes of its window go home when they lie in a W or RW region of its task (R249). -/
def spillWindow (s : State) (cl : Nat) (e : TcEnt) : State :=
  let k := tgtKey e.tgt e.peer e.pa
  if isCached k && (winRegions s e.task e.win).any Region.writes then l1CleanRange s cl k (2 ^ 21) else s

/-- Entries of a cluster's translation cache go. -/
def tcDrop (s : State) (cl : Nat) (p : TcEnt → Bool) : State :=
  (((s.cl cl).tc.filter p).foldl (fun s e => spillWindow s cl e) s).modCl cl fun c => { c with tc := c.tc.filter fun e => !p e }

/-- Room for one more entry of 64: the one used least recently goes (R142). -/
def tcRoom (s : State) (cl : Nat) : State :=
  match (s.cl cl).tc with
  | e :: es => if es.length < 63 then s else (spillWindow s cl e).modCl cl fun c => { c with tc := es }
  | [] => s

/-- Fills an entry, with the edge-in of its window (R249). -/
def tcFill (s : State) (w : Walk) (pa tgt peer : Nat) : State :=
  let s := tcRoom (tcDrop s w.cl fun e => e.tenant = w.tenant && e.task = w.task && e.win = w.win) w.cl
  let k := tgtKey tgt peer pa
  let rs := winRegions s w.task w.win
  let s := if !isCached k then s
    else if rs.any (fun r => r.covered && !keepsLines s w.task w.cl r) then l1FlushRange s w.cl k (2 ^ 21)
    else (rs.filter fun r => r.mode = 1).foldl (fun s r =>
      let lo := max r.va (w.win * 2 ^ 21)
      dropStale s w.cl (k + (lo - w.win * 2 ^ 21)) (min (r.va + r.extent) ((w.win + 1) * 2 ^ 21) - lo)) s
  s.modCl w.cl fun c => { c with tc := c.tc ++ [⟨w.tenant, w.task, w.win, pa, tgt, peer⟩] }

/-- PAGE_WALK: the walker's entry arrives. -/
def execPageWalk (k : Nat) (s : State) : R :=
  .next (match smFind s.walks k with
    | none => s
    | some w =>
      if w.missing then s
      else
        let t := { s with walks := smDel s.walks k }
        let s := if walkStale s w then t
          else if walkBad s w.tenant (w.win * 2 ^ 21) then { s with walks := smSet s.walks k { w with missing := true, bad := true } }
          else match walkVA s w.tenant (w.win * 2 ^ 21) with
            | none => { s with walks := smSet s.walks k { w with missing := true } }
            | some (pa, tgt, peer) => tcFill t w pa tgt peer
        settleShoot s w.tenant)

/-! Shoot-downs (R295, R339). -/

/-- Windows of a range, widened outward. -/
def winsOf (start len : Nat) : Nat × Nat := (start / 2 ^ 21, ceilDiv (start + len) (2 ^ 21))

def task2Hit (k : Task) (lo hi : Nat) : Bool := k.extents.any fun e => e.va < hi * 2 ^ 21 && lo * 2 ^ 21 < e.va + e.len

/-- Records a shoot-down of windows, invalidates them, revokes extents; all takes in every context of the tenant. The generation. -/
def shootDown (s : State) (tn lo hi : Nat) (all : Bool) : State × Nat :=
  let g := ((s.tenant tn).xgen + 1) % 2 ^ 32
  let s := s.modTenant tn fun t => { t with xgen := g, shoots := (g, lo, hi) :: t.shoots.take 63 }
  let s := s.cls.foldl (fun s e => tcDrop s e.1 fun x => x.tenant = tn && lo ≤ x.win && x.win < hi) s
  let hit := s.tasks.filter fun e => e.2.tenant = tn && e.2.st = .resident && (all || task2Hit e.2 lo hi)
  (hit.foldl (fun s e => (s.residentOf e.1).foldl (fun s c => postPreempt s 2 c.1) (s.modTask e.1 fun k => { k with rebuild := true })) s, g)

/-- SYSOP.XTINV: begins the shoot-down, and waits until it is over. -/
def execSysopXtinv (d a b : GReg) (s : State) : R :=
  .next (privileged s fun s =>
    let tn := s.tenOf s.me
    let len := (s.reg b).toNat
    match s.me.sysWait with
    | some g => if shootOver s tn g s.cur then (s.modMe fun c => { c with sysWait := none }).done d (BitVec.ofNat 64 g) else s.stall
    | none =>
      let s := release s s.me.cl 7
      if len = 0 then s.done d (BitVec.ofNat 64 (s.tenant tn).xgen)
      else
        let w := winsOf (s.reg a).toNat len
        let x := shootDown s tn w.1 w.2 false
        x.1.modMe fun c => { c with sysWait := some x.2 })

/-- SYSOP.TCINV: the issuing cluster's entries only. -/
def execSysopTcinv (a b : GReg) (s : State) : R :=
  .next (privileged s fun s =>
    let tn := s.tenOf s.me
    let w := if (s.reg b) = 0 then (0, 0) else winsOf (s.reg a).toNat (s.reg b).toNat
    (tcDrop s s.me.cl fun x => x.tenant = tn && w.1 ≤ x.win && x.win < w.2).adv)

/-- VF_XTLEN: a write to VF.XTLEN shoots down for the tenant; ignored while BUSY. -/
def vfXtlen (s : State) (t len : Nat) : State :=
  let s := settleShoot s t
  if 64 ≤ t || (s.tenant t).xtbusy then s
  else if len = 0 then s.modTenant t fun x => { x with xtgen := x.xgen }
  else
    let w := winsOf (s.tenant t).xtstart.toNat len
    let x := shootDown s t w.1 w.2 (decide (len = 2 ^ 64 - 1))
    settleShoot (x.1.modTenant t fun y => { y with xtbusy := true, xtnew := x.2 }) t

/-- VF_XTLEN. -/
def execVfXtlen (t len : Nat) (s : State) : R := .next (if hostUp s then vfXtlen s t len else s)

/-! Page migration (R296, R297). -/

def mTs (w : Nat) : Nat := bitsOf w 63 24
def mMoves (w : Nat) : Nat := bitsOf w 15 8
def mHold (w : Nat) : Bool := bitOf w 3
def mSt (w : Nat) : Nat := bitsOf w 2 0

/-- A residence word with fields replaced; reserved bits stay. -/
def mWord (w ts moves : Nat) (hold : Bool) (st : Nat) : Nat :=
  st + (if hold then 8 else 0) + bitsOf w 7 4 * 2 ^ 4 + moves % 256 * 2 ^ 8 + bitsOf w 23 16 * 2 ^ 16 + ts % 2 ^ 40 * 2 ^ 24

/-- Key of the level-0 or level-1 entry that maps an address of a tenant. -/
def leafFrom (m : List Host.Cell) (va : Nat) : Nat → Nat → Option Nat
  | 0, tab => some (tab + 8 * bitsOf va 29 21)
  | lv + 1, tab =>
    let a := tab + 8 * bitsOf va (29 + 9 * (lv + 1)) (21 + 9 * (lv + 1))
    let e := memNat m a 8
    if !bitOf e 0 || bitOf e 1 then (if lv = 0 then some a else none) else leafFrom m va lv (bitsOf e 47 12 * 2 ^ 12)

def leafOf (s : State) (tn va : Nat) : Option Nat := if 2 ^ 57 ≤ va then none else leafFrom (homeMem s) va 3 (s.tenant tn).ptroot

/-- A loser of a claim is given the host page remotely: its cluster's tasks of the tenant get an entry for each LAZY window that the leaf
of the word maps, until the hold-off ends. -/
def remoteMap (s : State) (tn cl key : Nat) : State :=
  let wins := (s.ctxs.filter fun e => e.2.st.resident && e.2.cl = cl && s.tenOf e.2 = tn).flatMap fun e =>
    ((s.task e.2.task).regions.filter (·.isLazy)).flatMap fun r =>
      ((rangeFrom (r.va / 2 ^ 21) (r.extent / 2 ^ 21 + 2)).filter fun w => leafOf s tn (w * 2 ^ 21) = some (key - 4096)).map fun w => (e.2.task, w)
  wins.eraseDups.foldl (fun s x =>
    match walkVA s tn (x.2 * 2 ^ 21) with
    | some (pa, 1, peer) => tcFill s ⟨tn, x.1, cl, x.2, (s.tenant tn).xgen, false, false⟩ pa 1 peer
    | _ => s) s

/-- The residence word that MIGOP names, with the release of its line to the home: its key and value. -/
def onWord (s : State) (a : GReg) (f : State → Nat → Nat → State) : State :=
  privileged s fun s =>
    let p := s.reg a
    if !aligned p 8 then trap s fALIGN p
    else
      genDo s .at_ polEng p 8 fun s ks =>
        let x := unitRead s s.me.cl (ks.headD 0) 8
        f x.1 (ks.headD 0) x.2

/-- CLAIM, once the word rests at DEVICE or HOST after a wait. -/
def claimAfter (s : State) (d : GReg) (k w : Nat) : State :=
  let s := s.modMe fun c => { c with sysWait := none }
  if 2 < mMoves w && s.us < mTs w + 1000 then
    (remoteMap (unitWrite s k 8 (mWord w s.us (mMoves w) true (mSt w))) (s.tenOf s.me) s.me.cl k).done d 3
  else s.done d 1

/-- SYSOP.MIGOP, CLAIM. -/
def execMigopClaim (d a _b : GReg) (s : State) : R :=
  .next (onWord s a fun s k w =>
    let moving := mSt w = 2 || mSt w = 3
    if s.me.sysWait.isSome then (if moving then s.stall else claimAfter s d k w)
    else if mHold w && s.us < mTs w + 1000 then (remoteMap s (s.tenOf s.me) s.me.cl k).done d 3
    else if mSt w = 0 then s.done d 2
    else if moving then s.modMe fun c => { c with sysWait := some 0 }
    else (unitWrite s k 8 (mWord w (mTs w) (mMoves w) (mHold w) 2)).done d 0)

/-- SYSOP.MIGOP, COMPLETE: gd stays. -/
def execMigopComplete (_d a _b : GReg) (s : State) : R :=
  .next (onWord s a fun s k w =>
    let st := if mSt w = 2 then 0 else if mSt w = 3 then 1 else mSt w
    (unitWrite s k 8 (if mTs w + 1000 ≤ s.us || mHold w then mWord w s.us 1 false st else mWord w (mTs w) (mMoves w + 1) false st)).adv)

/-- HOLD_OFF_EXPIRY: the remote entries of a page cease. -/
def execHoldOffExpiry (t va : Nat) (s : State) : R :=
  .next (let held := match leafOf s t va with
      | some a => let w := memNat (homeMem s) (a + 4096) 8; mHold w && s.us < mTs w + 1000
      | none => false
    if held then s
    else s.cls.foldl (fun s e => tcDrop s e.1 fun x => x.tenant = t && x.win = va / 2 ^ 21 && x.tgt = 1) s)

/-! The sweep (R314) and the fence (R298). -/

/-- L1_SWEEP of one line: its dirty bytes go home, its clean bytes go. -/
def execL1Sweep (cl line : Nat) (s : State) : R :=
  .next (match smFind (s.cl cl).l1 line with
    | none => s
    | some l => if l.dirty = 0 then dropLine s cl line else setLine (writeDirty s line l) cl line { l with valid := l.dirty, dirty := 0 })

/-- SYSOP.ICSYNC. -/
def execSysopIcsync (s : State) : R :=
  .next (privileged s fun s =>
    let s := release s s.me.cl 7
    ({ s with cls := s.cls.map fun e => (e.1, { e.2 with icache := [] }) } : State).adv)

end Sys2Proof.Machine
end

