-- ==== Sys2Proof/Machine/HostLink.lean ====
section
/-! DEFINITION. The host link and the drawbars: virtual functions, register writes, host memory accesses, peers' requests, lost packets
(R4, R318, R319, R337 to R347, R363). -/

namespace Sys2Proof.Machine

/-! Virtual functions (R339). -/

/-- ENABLE is set: the tree is linked, and its tail is watched. Whatever TAIL holds then, the host wrote it (R357). -/
def vfOn (s : State) (t : Nat) : State :=
  if 64 ≤ t || (s.tenant t).enable then s
  else
    let root := (s.tenant t).root
    let s := (judgePath s t [root]).1
    let s := s.modTenant t fun x => { x with enable := true, done := false, hostTail := true }
    s.modTenant t fun x => { x with consuming := decide (areaOpen s t ∧ areaHead s t ≠ areaTail s t) }

/-- VF_ENABLE. -/
def execVfEnable (t : Nat) (s : State) : R := .next (if hostUp s then vfOn s t else s)

/-- Queues and rings of the tenant's windows are disabled. -/
def offQueues (s : State) (t : Nat) : State :=
  let q := (s.tenant t).qwin
  let m := (s.tenant t).mwin
  let s := (rangeFrom (bitsOf q 11 0) (bitsOf q 44 32)).foldl
    (fun s k => if k < 4096 then qcbSet (s.setQueue k { s.queue k with checked := false, ents := [] }) k 0 1 0 else s) s
  (rangeFrom (bitsOf m 9 0) (bitsOf m 42 32)).foldl (fun s k => if k < 1024 then mcbSet (setMring s k false) k 0 1 0 else s) s

/-- Every launch and task of a tenant is killed, by whatever path of nodes it hangs. -/
def killTenant (s : State) (t : Nat) : State :=
  let s := (s.launches.filter fun e => e.2.tenant = t).foldl (fun s e => killLaunch s e.1) s
  (s.tasks.filter fun e => e.2.tenant = t).foldl (fun s e => killTask s e.1) s

/-- The tree is killed as by STATE = 2 at the root, queues, rings and subscriptions end; DONE once every context has retired. -/
def vfOff (s : State) (t : Nat) : State :=
  let s := if (s.tenant t).enable then killTenant (killSubtree s t (s.tenant t).root) t else s
  let s := offQueues s t
  let s : State := { s with subs := s.subs.filter fun e => (s.task e.2.task).tenant ≠ t }
  let live := s.ctxs.any fun e => s.tenOf e.2 = t && e.2.st ≠ .retired
  s.modTenant t fun x => { x with enable := false, consuming := false, done := !live }

/-- VF_DISABLE. -/
def execVfDisable (t : Nat) (s : State) : R := .next (if hostUp s && (s.tenant t).enable then vfOff s t else s)

/-- VF_FLR: as clearing ENABLE; then the block takes its reset values. -/
def execVfFlr (t : Nat) (s : State) : R :=
  .next (if !hostUp s then s
    else (vfOff s t).modTenant t fun x => { Tenant.reset with xgen := x.xgen, shoots := x.shoots, thresh := x.thresh })

/-! Register writes (R4, R339, R340, R363). -/

def clampTo (lo hi v : Nat) : Nat := min hi (max lo v)
def setPowcap (s : State) (w : Nat) : State := { s with pf := { s.pf with powcap := clampTo 400 2800 w } }
def setPriocap (s : State) (c : Nat) : State := { s with pf := { s.pf with priocap := clampTo 50 99 c } }

/-- Bits of an ingress entry that are not reserved. -/
def ingressMask : Nat := 2 ^ 228 - 2 ^ 192 + (2 ^ 164 - 2 ^ 128) + (2 ^ 64 - 2 ^ 60) + (2 ^ 56 - 2 ^ 48) + (2 ^ 46 - 2 ^ 40) + (2 ^ 38 - 2 ^ 32)

/-- 64 bits of an entry written at word j. -/
def putWord64 (old j v : Nat) : Nat := old - bitsOf old (64 * j + 63) (64 * j) * 2 ^ (64 * j) + v % 2 ^ 64 * 2 ^ (64 * j)

/-- PF0's registers. The partition's size is set while CXL.cache is disabled (R341); a write while the partition holds host lines does
nothing (log 142, DESIGN CHOICE). -/
def pfWrite (s : State) (off v : Nat) : State :=
  let pf := s.pf
  if off = 0x10 then (if s.part.isEmpty then { s with pf := { pf with hcpkb := min 85 (v % 2 ^ 7) } } else s)
  else if off = 0x18 then { s with pf := { pf with hdmbase := v % 2 ^ 64 / 2 ^ 28 * 2 ^ 28 } }
  else if off = 0x20 then { s with pf := { pf with hdmsize := min (v % 2 ^ 11) (pf.rsvbase / 2 ^ 28) } }
  else if off = 0x28 then setPowcap s (v % 2 ^ 12)
  else if off = 0x48 then setPriocap s (v % 2 ^ 7)
  else if off = 0x50 then
    { s with pf := { pf with eccCor := if v % 2 ^ 32 = 0 then pf.eccCor else 0, eccUnc := if v / 2 ^ 32 % 2 ^ 32 = 0 then pf.eccUnc else 0 } }
  else if 0x1000 ≤ off ∧ off < 0x1000 + 8 * 255 then { s with pf := { pf with route := smSet pf.route ((off - 0x1000) / 8) (v % 2 ^ 12) } }
  else if 0x2000 ≤ off ∧ off < 0x2000 + 32 * 64 then
    (let k := (off - 0x2000) / 32
     { s with pf := { pf with ingress := smSet pf.ingress k (Nat.land (putWord64 (smGet 0 pf.ingress k) ((off - 0x2000) % 32 / 8) v) ingressMask) } })
  else s

/-- A VF's block, written by PF0 or by the VF. -/
def vfWrite (s : State) (fn : Fn) (n off v : Nat) : State :=
  let t := s.tenant n
  let w : W64 := BitVec.ofNat 64 v
  let cfg (f : Tenant → Tenant) : State := if fn = .pf0 && !t.enable then s.modTenant n f else s
  match off with
  | 0x08 => cfg fun t => { t with root := w }
  | 0x10 => cfg fun t => { t with ptroot := v % 2 ^ 64 }
  | 0x18 => cfg fun t => { t with bnds := v % 2 ^ 64 }
  | 0x20 => cfg fun t => { t with qwin := bitsOf v 11 0 + min 4096 (bitsOf v 44 32) * 2 ^ 32 }
  | 0x28 => cfg fun t => { t with mwin := bitsOf v 9 0 + min 1024 (bitsOf v 42 32) * 2 ^ 32 }
  | 0x30 => if fn ≠ .pf0 then s else if bitOf v 0 then vfOn s n else if t.enable then vfOff s n else s
  | 0x40 => if fn = .vf n then s.modTenant n fun t => { t with err := (List.range 7).foldl (fun e b => if bitOf v b then clrBit e b else e) t.err } else s
  | 0x48 => if (settleShoot s n |>.tenant n).xtbusy then s else (settleShoot s n).modTenant n fun t => { t with xtstart := w }
  | 0x50 => vfXtlen s n (v % 2 ^ 64)
  | 0x60 => cfg fun t => { t with savevec := w }
  | 0x68 => cfg fun t => { t with restvec := w }
  | _ => s

/-- Eight bytes of a control block are written, but for those that the queue unit writes; a block is checked again. Entries of a queue that
leaves ENABLED are dropped, and stay counted in QUSED and OUTST: the rules name no other end of an entry than its removal by a QPOPB
(log 143, DESIGN CHOICE). -/
def qcbWrite (s : State) (t q o v : Nat) : State :=
  if o = 0x18 ∨ o = 0x20 then s
  else
    let s := qcbSet s q o 8 v
    if o ≠ 0 then s
    else
      let s := if qState s q = 1 then s else s.setQueue q { s.queue q with checked := false, ents := [] }
      if qState s q = 2 then s else clearIvec s t q

def mcbWrite (s : State) (t m o v : Nat) : State :=
  if 0x10 ≤ o ∧ o < 0x28 then s
  else
    let s := mcbSet s m o 8 v
    if o ≠ 0 then s
    else
      let s := if mState s m = 1 then s else setMring s m false
      if mState s m = 2 then s else clearIvec s t (4096 + m)

def bar2Write (s : State) (n off v : Nat) : State :=
  let t := s.tenant n
  let o := off % 64 / 8 * 8
  if off < 0x40000 then
    (let k := off / 64
     let q := bitsOf t.qwin 11 0 + k
     if k < bitsOf t.qwin 44 32 && q < 4096 then qcbWrite s n q o v else s)
  else
    let k := (off - 0x40000) / 64
    let m := bitsOf t.mwin 9 0 + k
    if k < bitsOf t.mwin 42 32 && m < 1024 then mcbWrite s n m o v else s

/-- REGISTER_WRITE: eight bytes at an offset. Only the function that a register names has effect. -/
def execRegisterWrite (fn : Fn) (sp : RegSpace) (off v : Nat) (s : State) : R :=
  .next (if !hostUp s then s
    else
      match sp with
      | .pf => if fn = .pf0 then pfWrite s off v else s
      | .vf n => if n < 64 && (fn = .pf0 || fn = .vf n) then vfWrite s fn n off v else s
      | .bar2 n => if n < 64 && (fn = .pf0 || fn = .vf n) then bar2Write s n off v else s)

/-! Register reads (R4, R339, R340, R363). A read changes nothing, so that no step stands for it. -/

/-- PF.STATUS. -/
def pfStatus (p : Pf) : Nat :=
  p.failph * 256 + (if p.throt then 8 else 0) + (if p.trip then 4 else 0) + (if p.fail then 2 else 0) + (if p.ready then 1 else 0)

/-- PF0's registers as they read; a reserved offset reads as zero. -/
def pfRead (s : State) (off : Nat) : Nat :=
  let pf := s.pf
  match off with
  | 0x00 => pfStatus pf
  | 0x08 => pf.rsvbase
  | 0x10 => pf.hcpkb
  | 0x18 => pf.hdmbase
  | 0x20 => pf.hdmsize
  | 0x28 => pf.powcap
  | 0x30 => pf.pownow
  | 0x38 => pf.temp
  | 0x40 => pf.clkmhz
  | 0x48 => pf.priocap
  | 0x50 => pf.eccCor + pf.eccUnc * 2 ^ 32
  | _ =>
    if 0x1000 ≤ off ∧ off < 0x1000 + 8 * 255 then smGet 0 pf.route ((off - 0x1000) / 8)
    else if 0x2000 ≤ off ∧ off < 0x2000 + 32 * 64 then
      bitsOf (smGet 0 pf.ingress ((off - 0x2000) / 32)) (64 * ((off - 0x2000) % 32 / 8) + 63) (64 * ((off - 0x2000) % 32 / 8))
    else 0

/-- VF n's registers as they read: XTLEN, which is write only, and reserved offsets read as zero. -/
def vfRead (s : State) (n off : Nat) : Nat :=
  let t := (settleShoot s n).tenant n
  match off with
  | 0x00 => n
  | 0x08 => t.root.toNat
  | 0x10 => t.ptroot
  | 0x18 => t.bnds
  | 0x20 => t.qwin
  | 0x28 => t.mwin
  | 0x30 => (if t.enable then 1 else 0) + (if t.done then 2 else 0)
  | 0x38 => s.us
  | 0x40 => t.err
  | 0x48 => t.xtstart.toNat
  | 0x58 => t.xtgen % 2 ^ 32 + (if t.xtbusy then 2 ^ 63 else 0)
  | 0x60 => t.savevec.toNat
  | 0x68 => t.restvec.toNat
  | _ => 0

/-- Eight bytes of BAR2 of VF n: a control block of a window, or zero beyond COUNT. -/
def bar2Read (s : State) (n off : Nat) : Nat :=
  let t := s.tenant n
  let o := off % 64 / 8 * 8
  if off < 0x40000 then
    (let q := bitsOf t.qwin 11 0 + off / 64
     if off / 64 < bitsOf t.qwin 44 32 && q < 4096 then qcb s q o 8 else 0)
  else
    let k := (off - 0x40000) / 64
    let m := bitsOf t.mwin 9 0 + k
    if k < bitsOf t.mwin 42 32 && m < 1024 then mcb s m o 8 else 0

/-- What a read of eight bytes of a function's space returns. -/
def regRead (s : State) (sp : RegSpace) (off : Nat) : Nat :=
  match sp with
  | .pf => pfRead s off
  | .vf n => vfRead s n off
  | .bar2 n => bar2Read s n off

/-! Host accesses to device memory (R319, R342), host snoops (R341). -/

/-- The device address of a host address in HDM, for n bytes. -/
def hdmPa (s : State) (addr n : Nat) : Option Nat :=
  let size := s.pf.hdmsize * 2 ^ 28
  if s.pf.hdmbase ≤ addr && addr + n ≤ s.pf.hdmbase + size then some (addr - s.pf.hdmbase) else none

/-- A host write that covers tenants' TAIL words (R357). -/
def tailWritten (s : State) (pa n : Nat) : State :=
  s.tenants.foldl (fun s e =>
    match tByte s e.1 false (areaPtr s e.1) with
    | some k => if k < pa + n && pa < k + 8 then s.modTenant e.1 fun t => { t with hostTail := true } else s
    | none => s) s

/-- Nodes above launches that a write has set to KILLED: the kill acts on their subtrees (R13). -/
def killWritten (s : State) : State :=
  (s.launches.filter fun e => e.2.submitted).foldl (fun s e =>
    match (pathOf s e.2.tenant e.2.node).find? fun p => rcbState s e.2.tenant p = 2 with
    | some p => killSubtree s e.2.tenant p
    | none => s) s

/-- A write of the host at the home. An error that the merge finds is counted; no fault domain asked for the write (log 139, DESIGN
CHOICE). -/
def hostPut (s : State) (k : Nat) (bs : List Byte) : State :=
  homeWrite (if mergeBad s false (rangeFrom k bs.length) then countUnc s else s) k bs

/-- HOST_MEM_WRITE: performed at the home. -/
def execHostMemWrite (addr : Nat) (bytes : List Byte) (s : State) : R :=
  .next (match hdmPa s addr bytes.length with
    | none => s
    | some pa => if !hostUp s then s else killWritten (tailWritten (hostPut s pa bytes) pa bytes.length))

/-- The home's filter notes a line that the host caches; a full filter of 2,048 lines a slice gives up the one used least recently. -/
def noteLine (s : State) (l : Nat) : State :=
  let f := s.filter.filter (· ≠ l)
  let same := f.filter fun x => homeOf (x * 64) = homeOf (l * 64)
  { s with filter := (match same with | o :: _ => if 2048 ≤ same.length then f.filter (· ≠ o) else f | [] => f) ++ [l] }

/-- HOST_MEM_READ: served at the home. Data with an uncorrectable error is marked as such (R347; log 139, DESIGN CHOICE). -/
def execHostMemRead (addr n : Nat) (s : State) : R :=
  .next (match hdmPa s addr n with
    | none => s
    | some pa =>
      if !hostUp s || n = 0 then s
      else if (rangeFrom pa n).any s.ecc.contains then (countUnc s).emit (.hostPoison addr)
      else
        let (s, bs) := homeRead s pa n
        (((rangeFrom (pa / 64) ((pa + n - 1) / 64 + 1 - pa / 64)).foldl noteLine s).emit (.hostRead bs)))

/-- HOST_SNOOP: the partition gives the line up, and the host's bytes stand there. -/
def execHostSnoop (addr : Nat) (bytes : List Byte) (s : State) : R :=
  .next (if 2 ^ 48 < addr + bytes.length || !s.pf.linkUp then s
    else
      let gone (e : Nat × Nat) : Bool := e.1 * 64 < hostKey addr + max 1 bytes.length && hostKey addr < e.1 * 64 + 64
      let s := (s.part.filter gone).foldl healLine s
      let s := tailWritten (hostPut s (hostKey addr) bytes) (hostKey addr) bytes.length
      { s with part := s.part.filter fun e => !gone e })

/-! Peers (R343 to R345). -/

/-- Whether an ingress entry serves a peer's tenant with a permission bit. -/
def inGrant (e peer remten bit : Nat) : Bool := bitOf e 63 && bitsOf e 55 48 = peer && bitsOf e 45 40 = remten && bitOf e bit
def inHolds (e pa n : Nat) : Bool := bitsOf e 163 128 * 4096 ≤ pa && pa + n ≤ (bitsOf e 163 128 + bitsOf e 227 192) * 4096

/-- The local tenant of the first entry that grants an access to n bytes. -/
def inLocal (s : State) (peer remten bit pa n : Nat) : Option Nat :=
  (s.pf.ingress.find? fun e => inGrant e.2 peer remten bit && inHolds e.2 pa n).map fun e => bitsOf e.2 37 32

/-- Local tenants of the entries with W for a pair. -/
def locTenants (s : State) (peer remten : Nat) : List Nat :=
  ((s.pf.ingress.filter fun e => inGrant e.2 peer remten 61).map fun e => bitsOf e.2 37 32).eraseDups

/-- Performs an access of a peer at the home, as one of the entry's local tenant, and answers; beyond the memory there is none. One that
reads bytes with an uncorrectable error says so and does nothing else (log 139, DESIGN CHOICE). -/
def inDo (s : State) (peer remten bit pa n : Nat) (reads : Bool) (f : State → State × Nat) : State :=
  match inLocal s peer remten bit pa n with
  | none => s.emit (.peerReply peer false 0)
  | some loc =>
    if deviceBytes < pa + n then { s with hole := some pa }
    else if reads && (rangeFrom pa n).any s.ecc.contains then (countUnc s).emit (.peerPoison peer)
    else
      let x := f { s with cur := peerActor loc }
      { x.1 with cur := s.cur }.emit (.peerReply peer true x.2)

/-- A monitor for a peer's WAITC: the wake is sent once the condition holds (R176, R317). -/
def inWatch (s : State) (peer pa n : Nat) (cc : WCond) (b id : Nat) : State :=
  { s with peerMons := s.peerMons ++ [⟨peer, id, pa, n, cc, b⟩] }

/-- A peer's TSPAWN (R261, R337). -/
def inSpawn (s : State) (peer tn : Nat) (node : W64) : State :=
  if Config.spawnFull s.ticks then s.emit (.peerReply peer true 1)
  else
    let (id, s) := s.fresh
    let s := submitNode s tn node
    ({ s with remotes := s.remotes ++ [⟨id, none, some peer, true, some (lkey s tn node)⟩] } : State).emit (.peerReply peer true 0)

/-- A peer's push: the code of R265; a queue that is not enabled, or QINSD without DEDUP, refuses it. -/
def inPush (s : State) (peer q : Nat) (k : PushK) (ws : List W64) : State :=
  let s := qCheck s q
  if qState s q ≠ 1 || (k = .insd && !qDedup s q) then s.emit (.peerReply peer false 3)
  else
    let (id, s) := s.fresh
    let x := qPushAt s q k none false (some (peer * 2 ^ 32 + id)) ws
    x.1.emit (.peerReply peer true x.2)

/-- INGRESS_REQUEST: a device that is not ready, or has tripped, answers none (R358, R362). -/
def execIngressRequest (peer remten : Nat) (req : InReq) (s : State) : R :=
  .next (if !s.pf.ready || s.pf.trip then s else match req with
    | .load pa n => inDo s peer remten 62 pa n true fun s => let r := homeRead s pa n; (r.1, leNat r.2)
    | .store pa bs => inDo s peer remten 61 pa bs.length false fun s =>
        (homeWrite (mergeNote s s.cur false (rangeFrom pa bs.length)) pa bs, 0)
    | .atom op ty pa v => inDo s peer remten 60 pa (atySize ty) true fun s => atomAt s 192 op ty pa v
    | .cas ty pa e v => inDo s peer remten 60 pa (atySize ty) true fun s => casAt s 192 ty pa e v
    | .red op ty pa v => inDo s peer remten 60 pa (atySize ty) false fun s => (redAt s 192 op ty pa v, 0)
    | .monitor pa wide cc b id => inDo s peer remten 62 pa (wcSize wide) true fun s =>
        let r := homeRead s pa (wcSize wide)
        (inWatch r.1 peer pa (wcSize wide) cc b id, leNat r.2)
    | .tspawn node =>
      (match (locTenants s peer remten).find? fun t => rcbOk s t node && rcb s t node 5 1 = t with
       | some t => inSpawn s peer t node
       | none => s.emit (.peerReply peer false 3))
    | .push q dedup range ws =>
      (match (locTenants s peer remten).find? fun t => qOwned s t q with
       | some _ => inPush s peer q (if range then .range else if dedup then .insd else .plain) ws
       | none => s.emit (.peerReply peer false 3)))

/-- FLIT_RETRY: no flit is delivered twice; a retry changes nothing but time. -/
def execFlitRetry (_port _sq : Nat) (s : State) : R := .next s

/-- A packet that cannot be delivered: its count is taken back, UNDELIV, and the operation that waits ends with code 3. -/
def undeliverable (s : State) (p : Packet) : State :=
  let s := vfErr s p.tenant 4
  match p.remote with
  | none => { s with packets := s.packets.filter (· ≠ p) }
  | some id =>
    match s.remotes.find? (fun r => r.id = id) with
    | some r => remoteDone (dropRemote (remoteUncount s r) id) id 3
    | none => remoteDone (dropRemote s id) id 3

/-- DRAWBAR_TIMEOUT. -/
def execDrawbarTimeout (port : Nat) (s : State) : R := .next ((s.packets.filter fun p => p.port = port).foldl undeliverable s)

/-- IDE_MAC_FAILURE: the link is taken down. -/
def execIdeMacFailure (s : State) : R := .next { s with pf := { s.pf with linkUp := false } }

end Sys2Proof.Machine
end

