-- ==== Sys2Proof/Machine/Portable.lean ====
section
/-! DEFINITION. Prowell portable objects: their header, their translation to native code, and where translations are kept
(R349 to R355). -/

namespace Sys2Proof.Machine

/-! Portable code (R352). -/

/-- Instructions that portable code may not hold. -/
def notPortable : Instr → Bool
  | .teamN .. | .teamM .. | .qset .. | .beginS _ | .endS | .hole .. | .replay .. | .replayi .. | .dropS _ | .dropSAll
  | .mcastOn | .mcastOff | .mcastRecv | .vppush .. | .vppop | .vppopElse => true
  | i => isPriv i

/-- What stands at a word of portable code: GW with its register and constant, a branch, or words that stay as they are. -/
inductive PItem where
  | gw (d : GReg) (v : BitVec 34)
  | branch (w : W64)
  | keep (ws : List W64)
  deriving DecidableEq, Repr

/-- The words an item takes in portable and in native code. -/
def PItem.len : PItem → Nat
  | .keep ws => ws.length
  | _ => 1
def PItem.nlen : PItem → Nat
  | .keep ws => ws.length
  | .gw .. => 2
  | .branch _ => 1

def isBranch : Instr → Bool
  | .b _ | .bc .. | .call _ | .loop .. => true
  | _ => false

/-- The unit that starts at a lane word: its prefixes, its target and a second word. -/
def unitWords (ws : List W64) : List W64 :=
  let (ps, r) := splitPrefixes (ws.take 5)
  match r with
  | w :: _ => ps ++ r.take (if takesSecond w then 2 else 1)
  | [] => ps

/-- The item at the head of code; none where the code breaks R352. -/
def portItem : List W64 → Option PItem
  | [] => none
  | w :: r =>
    if isLaneClass w then
      (let us := unitWords (w :: r)
       match checkUnit (fun _ => 0#64) us with
       | .ok (i, _) => if notPortable i then none else some (.keep us)
       | .error _ => none)
    else
      let g := GWord.ofWord w
      if g.maj = 0x1D#7 then
        (if g.min = 0#6 ∧ g.ga = 0#5 ∧ g.gb = 0#5 ∧ g.i = 0#1 then some (.gw g.gd g.imm) else none)
      else if g.maj = 0x1A#7 then
        (match r with
         | w2 :: _ => if (decodeG g w2).isSome then some (.keep [w, w2]) else none
         | [] => none)
      else
        match decodeG g 0#64 with
        | none => none
        | some i => if notPortable i then none else if isBranch i then some (.branch w) else some (.keep [w])

/-- A piece of the translated code: an item of the portable word at pos, a jump to a portable word that stands elsewhere, or a word that
nothing runs into. -/
inductive PPiece where
  | item (pos : Nat) (p : PItem)
  | jump (dest : Nat)
  | stop
  deriving DecidableEq, Repr

/-- The portable word that a piece begins at. -/
def PPiece.pos : PPiece → Option Nat
  | .item i _ => some i
  | _ => none

/-- The words a piece takes in native code. -/
def PPiece.nlen : PPiece → Nat
  | .item _ p => p.nlen
  | _ => 1

/-- Code in the order of its words from word i, up to the end or to a word that the pieces laid out have already. -/
def portSweep (ws : List W64) (lay : List PPiece) : Nat → Nat → Option (List PPiece)
  | 0, _ => some []
  | n + 1, i =>
    if lay.any (·.pos = some i) then some [.jump i]
    else if ws.length ≤ i then some []
    else (portItem (ws.drop i)).bind fun p => (portSweep ws lay n (i + p.len)).map fun ps => .item i p :: ps

/-- The portable word to which a branch word at word i leads. -/
def branchTarget (i : Nat) (w : W64) : Int := (i : Int) + (w.extractLsb' 0 34).toInt

/-- Where a piece may lead, other than to the piece after it. -/
def PPiece.target : PPiece → List Int
  | .item i (.branch w) => [branchTarget i w]
  | _ => []

/-- Lays out the code from every word that is led to and stands in the middle of an item: a branch there starts a unit or a word of its own
(R31, R43). None when a word that is led to is not of the code. -/
def portClose (ws : List W64) (entry : Nat) : Nat → List PPiece → Option (List PPiece)
  | 0, lay => some lay
  | n + 1, lay =>
    match ((entry : Int) :: lay.flatMap (·.target)).find? fun t => !lay.any fun p => p.pos.any fun i => (i : Int) = t with
    | none => some lay
    | some t =>
      if t < 0 ∨ (ws.length : Int) ≤ t then none
      else (portSweep ws lay ws.length t.toNat).bind fun more => portClose ws entry n (lay ++ .stop :: more)

/-- The native place, in words, of portable word i, for pieces that stand from place n on. -/
def placeOfWord (i : Int) : List PPiece → Nat → Option Nat
  | [], _ => none
  | p :: ps, n => if p.pos.any fun k => (k : Int) = i then some n else placeOfWord i ps (n + p.nlen)

/-- A branch word at native place n whose target stands at place t. -/
def relocate (w : W64) (n t : Nat) : W64 := w.extractLsb' 34 30 ++ BitVec.ofInt 34 ((t : Int) - (n : Int))

/-- Native words of a piece at place n: GW reads the context's own width and multiplies. -/
def portPiece (lay : List PPiece) (n : Nat) : PPiece → Option (List W64)
  | .item _ (.gw d v) => some (encode (.csrr d 0x006#12) ++ encode (.mul d d (.imm v)))
  | .item i (.branch w) => (placeOfWord (branchTarget i w) lay 0).map fun t => [relocate w n t]
  | .item _ (.keep ws) => some ws
  | .jump i => (placeOfWord i lay 0).map fun t => encode (.b (BitVec.ofInt 34 ((t : Int) - (n : Int))))
  | .stop => some [0x7FFFFFFFFFFFFFFF#64]

/-- Native words of pieces from place n on. -/
def portEmit (lay : List PPiece) : List PPiece → Nat → Option (List W64)
  | [], _ => some []
  | p :: ps, n => (portPiece lay n p).bind fun ws => (portEmit lay ps (n + p.nlen)).map fun r => ws ++ r

def wordsOf (bs : List Byte) : List W64 := (List.range (bs.length / 8)).map fun i => BitVec.ofNat 64 (leNat ((bs.drop (8 * i)).take 8))

/-- The translation of code with an entry point: native code, and the offset of its entry (log 63, DESIGN CHOICE). -/
def translate (code : List Byte) (entry : Nat) : Option (List Byte × Nat) :=
  if code.length % 8 ≠ 0 ∨ entry % 8 ≠ 0 then none
  else
    let ws := wordsOf code
    (portSweep ws [] ws.length 0).bind fun main =>
      (portClose ws (entry / 8) (ws.length + 1) main).bind fun lay =>
        (portEmit lay lay 0).bind fun out => (placeOfWord (entry / 8) lay 0).map fun e => (out.flatMap fun w => leBytes 8 w.toNat, 8 * e)

/-! The flash translation store (R354, R355): 8,192 blocks of 64 pages of 64 KiB. -/

def pagesOf (n : Nat) : Nat := (n + 65535) / 65536
def eraseCount (s : State) (b : Nat) : Nat := smGet 0 s.erases b
def blockUsed (s : State) (b : Nat) : Nat := ((s.transl.filter fun t => t.blk = some b).map fun t => pagesOf t.code.length).foldl (· + ·) 0

/-- Latest use of a translation of the running translator's in a block; a block with none counts as unused for ever. -/
def blockLast (s : State) (b : Nat) : Int :=
  ((s.transl.filter fun t => t.blk = some b && t.ver = Config.xlVersion s.pf.image).map (·.used)).foldl max (-(2 ^ 64))

/-- The better victim of two blocks: the larger score (now − L) / (1 + E / 1,000), then the lower number. -/
def worseBlock (s : State) (a b : Nat) : Nat :=
  if ((s.us : Int) - blockLast s a) * (1000 + eraseCount s b) < ((s.us : Int) - blockLast s b) * (1000 + eraseCount s a) then b else a

/-- Blocks in use. -/
def liveBlocks (s : State) : List Nat := (List.range 8192).filter fun b => eraseCount s b < 30000

/-- Erases a block: its translations leave flash. -/
def eraseBlock (s : State) (b : Nat) : State :=
  { s with erases := smSet s.erases b (eraseCount s b + 1),
           transl := (s.transl.map fun t => if t.blk = some b then { t with blk := none } else t).filter fun t => t.addr.isSome || t.blk.isSome }

/-- The block for a translation of n bytes; the victim is erased when none has room. -/
def flashBlock (s : State) (n : Nat) : State × Option Nat :=
  if 2 ^ 22 < n then (s, none)
  else
    match (liveBlocks s).find? fun b => blockUsed s b + pagesOf n ≤ 64 with
    | some b => (s, some b)
    | none =>
      match liveBlocks s with
      | [] => (s, none)
      | b :: bs =>
        let v := bs.foldl (worseBlock s) b
        let s := eraseBlock s v
        (s, if eraseCount s v < 30000 then some v else none)

/-! The translation region: 256 MiB of reserved memory (R353, R359). -/

def regionBase (s : State) : Nat := s.pf.rsvbase + 2 ^ 28

/-- Places in the region that translations hold: offset and bytes, in pages of 64 KiB. -/
def regionHeld (s : State) : List (Nat × Nat) := s.transl.filterMap fun t => t.addr.map fun a => (a - regionBase s, 65536 * pagesOf t.code.length)

/-- A free place for n bytes: the start of the region, or the end of a translation. -/
def regionPlace (s : State) (n : Nat) : Option Nat :=
  let held := regionHeld s
  (0 :: held.map fun e => e.1 + e.2).find? fun o => o + n ≤ 2 ^ 28 && held.all fun e => e.1 + e.2 ≤ o || o + n ≤ e.1

/-- A translation that a task which has not ended runs from the region, whether its contexts stand on a cluster or are saved. -/
def translBusy (s : State) (t : Transl) : Bool :=
  s.tasks.any fun e => e.2.xlat && (e.2.st = .resident || e.2.st = .edgeOut) && t.addr.any fun a =>
    a ≤ offOf e.2.r.entry && offOf e.2.r.entry < a + t.code.length

/-- The translation of the region used least recently that no task runs gives up its place. -/
def regionDrop (s : State) : State :=
  match s.transl.filter fun t => t.addr.isSome && !translBusy s t with
  | [] => s
  | x :: xs =>
    let v := xs.foldl (fun a b => if b.used < a.used then b else a) x
    { s with transl := (s.transl.map fun t => if t = v then { t with addr := none } else t).filter fun t => t.addr.isSome || t.blk.isSome }

/-- A free place for n bytes, giving up translations until there is one. -/
def makePlace : Nat → State → Nat → State × Option Nat
  | 0, s, n => (s, regionPlace s n)
  | k + 1, s, n =>
    match regionPlace s n with
    | some o => (s, some o)
    | none => makePlace k (regionDrop s) n

/-- Writes a translation's code to the region; what clusters have fetched of the place is discarded. -/
def regionWrite (s : State) (a : Nat) (code : List Byte) : State :=
  let s := homeWrite s a code
  { s with cls := s.cls.map fun e => (e.1, { e.2 with icache := e.2.icache.filter fun x => x.1 + 8 ≤ a || a + code.length ≤ x.1 }) }

/-- A translation takes the place of an earlier one of its key. -/
def putTransl (s : State) (t : Transl) : State :=
  { s with transl := t :: s.transl.filter fun x => !(x.digest = t.digest && x.tws = t.tws && x.ver = t.ver) }

/-- Puts a translation into the region. It stands in flash only when the region has no room. -/
def toRegion (s : State) (t : Transl) : State :=
  let (s, o) := makePlace s.transl.length s t.code.length
  match o with
  | none => if t.blk.isSome then putTransl s t else s
  | some o =>
    let a := regionBase s + o
    putTransl (regionWrite s a t.code) { t with addr := some a, used := s.us }

/-- A new translation is written to the region and to flash. -/
def storeTransl (s : State) (t : Transl) : State :=
  let (s, b) := flashBlock s t.code.length
  toRegion s { t with blk := b }

/-- PORTABLE_TRANSLATION. -/
def execPortableTranslation (t launch lin : Nat) (s : State) : R :=
  .next (let node := (s.launch launch).node
    match (if dispatchable s t launch lin then readRec s t node lin else none) with
    | none => s
    | some r =>
      if r.isav ≠ 0x8001 || !r.ok then s
      else
        match translOf s t r with
        | some x => if x.addr.isSome then { s with transl := s.transl.map fun y => if y = x then { y with used := s.us } else y } else toRegion s x
        | none =>
          match tRead s t r.entry 64 with
          | none => failTask s t launch lin fILLEGAL
          | some h =>
            match (headerOk s t r h).bind fun c => translate c.1 c.2 with
            | none => failTask s t launch lin fILLEGAL
            | some (code, entry) =>
              storeTransl s { digest := (h.drop 0x10).take 32, ver := Config.xlVersion s.pf.image, tws := r.nctx :: r.tw, code := code,
                              entry := entry, addr := none, blk := none, used := s.us })

end Sys2Proof.Machine
end

