-- ==== Sys2Proof/Machine/Mgmt.lean ====
section
/-! DEFINITION. Reset, power, thermal limits, the management and SPDM mailboxes (R348, R358 to R364). -/

namespace Sys2Proof.Machine

/-! Reset (R358). -/

/-- An image that the ROM runs (R348). -/
def imageOk (i : List Byte) : Bool := Config.fwVerifies i && decide (Config.fusedVersion ≤ Config.fwVersion i)

/-- The image that phase 2 runs: a staged one that verifies, else the previous one. -/
def bootImage (s : State) : Option (List Byte) :=
  if !s.pf.staged.isEmpty && imageOk s.pf.staged then some s.pf.staged
  else if imageOk s.pf.image then some s.pf.image
  else none

/-- The first phase of the n-th reset sequence that fails. -/
def failPhase (n : Nat) (image : Option (List Byte)) : Option Nat :=
  [1, 2, 3, 4, 5, 6].find? fun p => if p = 2 then image.isNone else !Config.phaseOk n p

/-- What the flash store holds after the check of its entries in reset n (R355): their ages stay, in a timebase that starts again. -/
def flashKept (s : State) (n : Nat) : List Transl :=
  (s.transl.filter fun t => t.blk.isSome && Config.flashOk n t.digest).map fun t => { t with addr := none, used := t.used - s.us }

/-- The reset sequence: all of the package is lost but the flash store; host memory and peers' memory are not the package's. A failed phase
leaves the recovery form, and phase 6 leaves no link. -/
def resetSeq (s : State) : State :=
  let n := s.pf.resets + 1
  let image := bootImage s
  let bad := failPhase n image
  { State.reset with
    ticks := s.ticks, freeCtr := s.freeCtr, nextId := s.nextId, outs := s.outs, erases := s.erases,
    transl := flashKept s n, mem := s.mem.filter fun e => isHost e.1, peerMem := s.peerMem,
    pf := { Pf.reset with resets := n, image := image.getD s.pf.image, ready := bad.isNone, fail := bad.isSome, failph := bad.getD 0,
                          linkUp := decide (bad ≠ some 6) } }

/-- COLD_RESET: power is cycled. -/
def execColdReset (s : State) : R := .next (resetSeq s)

/-- PF0_FLR: reaches a device whose link is up and that is not held in reset. -/
def execPf0Flr (s : State) : R := .next (if s.pf.trip || !s.pf.linkUp then s else resetSeq s)

/-! Power and temperature (R360 to R362). -/

def clkDown (s : State) : State := { s with pf := { s.pf with clkmhz := max 1200 (s.pf.clkmhz - 100) } }
def clkUp (s : State) : State := { s with pf := { s.pf with clkmhz := min 3300 (s.pf.clkmhz + 100) } }

/-- The sum of the samples of the last 10 ms. -/
def powSum (l : List Nat) : Nat := l.foldl (· + ·) 0

/-- POWER_SAMPLE: one each ms. The average is compared exactly; PF.POWNOW shows its whole watts. The clock is not raised while the thermal
controller holds it. -/
def execPowerSample (watts : Nat) (s : State) : R :=
  .next (if s.pf.trip then s
    else
      let l := (watts :: s.pf.samples).take 10
      let sum := powSum l
      let low := decide (100 * sum < 95 * s.pf.powcap * l.length)
      let s : State :=
        { s with pf := { s.pf with samples := l, pownow := sum / l.length % 2 ^ 12, lowMs := if low then s.pf.lowMs + 1 else 0 } }
      if s.pf.powcap * l.length < sum then clkDown s
      else if 50 ≤ s.pf.lowMs then (let s : State := { s with pf := { s.pf with lowMs := 0 } }; if s.pf.throt then s else clkUp s)
      else s)

/-- A thermal trip: every context is killed with no edge-out, and the device holds itself in reset. -/
def tripNow (s : State) : State :=
  let s := s.launches.foldl (fun s e => killLaunch s e.1) s
  let s := s.tasks.foldl (fun s e => killTask s e.1) s
  let s := (List.range 64).foldl (fun s t => s.modTenant t fun x => { x with enable := false, consuming := false, done := true }) s
  { s with pf := { s.pf with trip := true, ready := false } }

/-- THERMAL_SAMPLE: each die's hottest sensor, each ms. THROT clears when both read below 105 °C (log 161, DESIGN CHOICE). -/
def execThermalSample (t0 t1 : Nat) (s : State) : R :=
  .next (if s.pf.trip then s
    else
      let t := max t0 t1
      let rise := decide (s.pf.lastTemp < t)
      let s : State := { s with pf := { s.pf with temp := min 255 t1 * 256 + min 255 t0, lastTemp := t } }
      if 120 ≤ t || (105 ≤ t && rise && s.pf.clkmhz = 1200) then tripNow s
      else if 105 ≤ t then clkDown { s with pf := { s.pf with throt := true } }
      else { s with pf := { s.pf with throt := false } })

/-! The management mailbox (R364). -/

/-- The mailboxes answer: the link is up, and the device is not held in reset. -/
def mailUp (s : State) : Bool := s.pf.linkUp && !s.pf.trip

/-- Serves a request with a code; while an image is being staged, which a STAGE begins and a free moment ends, only STATUS is served
(log 96, DESIGN CHOICE). -/
def mgmtDo (s : State) (code : Nat) (f : State → State × Nat × List Nat) : R :=
  .next (if !mailUp s then s
    else
      let busy := s.pf.staging && Config.stagingBusy s.ticks
      let s := { s with pf := { s.pf with staging := busy } }
      if busy && code ≠ 1 then s.emit (.mgmt code 3 [])
      else let x := f s; x.1.emit (.mgmt code x.2.1 x.2.2))

/-- A register write has effect only when the device is ready. -/
def whenReady (s : State) (f : State → State) : State := if s.pf.ready then f s else s

def execMgmtStatus (s : State) : R := mgmtDo s 1 fun s => (s, 0, [pfStatus s.pf, s.pf.pownow, s.pf.temp, s.pf.clkmhz])
def execSetcap (w : Nat) (s : State) : R := mgmtDo s 2 fun s => (whenReady s (setPowcap · (w % 2 ^ 12)), 0, [])
def execSetprio (c : Nat) (s : State) : R := mgmtDo s 3 fun s => (whenReady s (setPriocap · (c % 2 ^ 7)), 0, [])

/-- Writes CTX.STATUS.DBGATT; clearing it resumes a halted context (R303). -/
def attachTo (s : State) (cid : Nat) (v : Bool) : State :=
  let s := s.modCtx cid fun c => { c with trap := { c.trap with dbgatt := v } }
  if v then s else unhalt s cid

def execAttach (cl ctx v : Nat) (s : State) : R :=
  mgmtDo s 4 fun s =>
    match (if v ≤ 1 then s.ctxAt cl ctx else none) with
    | some e => (attachTo s e.1 (decide (v = 1)), 0, [])
    | none => (s, 2, [])

def execStage (block : List Byte) (s : State) : R :=
  mgmtDo s 5 fun s => ({ s with pf := { s.pf with staged := s.pf.staged ++ block, staging := true } }, 0, [])

def execCounters (s : State) : R := mgmtDo s 6 fun s => (s, 0, (s.pf.eccCor + 2 ^ 32 * s.pf.eccUnc) :: s.pf.dieEcc)

/-- MGMT_UNKNOWN_CODE. With a code of the table it is a request whose header or operands break R364, and counts as a bad operand (log 141,
DESIGN CHOICE). -/
def execMgmtUnknownCode (code : Nat) (s : State) : R :=
  mgmtDo s (code % 256) fun s => (s, if 1 ≤ code % 256 ∧ code % 256 ≤ 6 then 2 else 1, [])

/-- The configuration that PF0 has written (R339 to R345), as measurements report it. -/
def pfConfig (s : State) : List Nat :=
  [s.pf.hcpkb, s.pf.hdmbase, s.pf.hdmsize] ++ s.pf.route.flatMap (fun e => [e.1, e.2]) ++ s.pf.ingress.flatMap (fun e => [e.1, e.2]) ++
  s.tenants.flatMap fun e => [e.1, e.2.root.toNat, e.2.ptroot, e.2.bnds, e.2.qwin, e.2.mwin, e.2.savevec.toNat, e.2.restvec.toNat]

/-- A vendor-defined SPDM request: its code byte is 0xFE (log 105, PRESUMED). -/
def vendorReq (req : List Byte) : Bool := req.getD 1 0 = 0xFE#8

/-- SPDM_REQUEST: the response carries the Ed25519 signature, or the ML-DSA-65 one to a vendor-defined request (R348). -/
def execSpdmRequest (req : List Byte) (s : State) : R :=
  .next (if !mailUp s then s
    else
      let (n, s) := s.draw
      s.emit (.spdm (vendorReq req) (Config.spdmResponse n (vendorReq req) req s.pf.image (Config.fwVersion s.pf.image) (pfConfig s))))

end Sys2Proof.Machine
end

