-- ==== Sys2Proof/Machine/Sparse.lean ====
section
/-! DEFINITION. Sparse tiles: objects, the pattern compiler, timetables and their directory, the runs of SPX, and the K-step of a loop or a
dense run (R186, R211 to R225). -/

namespace Sys2Proof.Machine

/-! The object (R211, R212). -/

def hNat (h : List Byte) (off n : Nat) : Nat := leNat ((h.drop off).take n)
def hForm (h : List Byte) : Nat := hNat h 0 1
def hFmtc (h : List Byte) : Nat := hNat h 1 1
def hScl (h : List Byte) : Bool := bitOf (hNat h 2 1) 0
def hSteps (h : List Byte) : Nat := hNat h 4 2
def hCoord (h : List Byte) : Nat := hNat h 8 4
def hTotal (h : List Byte) : Nat := hNat h 0x0C 4
def hSoff (h : List Byte) : Nat := hNat h 0x10 4
def hVoff (h : List Byte) : Nat := hNat h 0x14 4
def hXoff (h : List Byte) : Nat := hNat h 0x18 4
def hFmt (h : List Byte) : EFmt := (EFmt.ofCode (hFmtc h)).getD .s8

/-- Elements of a step (R10). -/
def stepK (f : EFmt) : Nat := 1536 / f.width

/-- Bytes of the structure. -/
def structBytes (h : List Byte) : Nat := if hForm h = 0 then 4 * stepK (hFmt h) * hSteps h else 4 * hCoord h

/-- The header checks that every instruction makes: a subcode of ILLEGAL. -/
def headerBad (h : List Byte) : Option Nat :=
  let f := hFmt h
  if 1 < hForm h || 0xB < hFmtc h || 1 < hNat h 2 1 || hSteps h = 0 || 64 < hSteps h
    || (if hForm h = 0 then hCoord h ≠ 0 else 32 * stepK f * hSteps h < hCoord h)
    || hNat h 3 1 ≠ 0 || hNat h 6 2 ≠ 0 || (h.drop 0x1C).any (· != 0) then some 0x11
  else if hScl h && !f.blockScaled then some 0x12
  else if hTotal h % 64 ≠ 0 || hSoff h % 64 ≠ 0 || hVoff h % 64 ≠ 0 || hXoff h % 64 ≠ 0 || (!hScl h && hXoff h ≠ 0)
    || hTotal h < hSoff h + structBytes h || (hScl h && hTotal h < hXoff h + hSteps h * 32 * scaleBytes f) then some 0x13
  else none

/-- Bytes of an object, by offset. -/
abbrev Obj := Nat → Byte

/-- Values that stand wholly below TOTAL. -/
def valuesIn (h : List Byte) : Nat := 8 * (hTotal h - hVoff h) / (hFmt h).width

/-- SPORDER as CTX.TRAPINFO reports it (R221). -/
def spInfo (sub idx : Nat) : W64 := fields [(idx, 0), (sub, 32)]

/-- Word j of the coordinates. -/
def coordAt (h : List Byte) (o : Obj) (j : Nat) : Nat := leNat ((rangeFrom (hSoff h + 4 * j) 4).map o)

/-- The first coordinate word that breaks an order rule (R221). -/
def coordBad (h : List Byte) (o : Obj) : Option W64 :=
  (List.range (hCoord h)).findSome? fun j =>
    let w := coordAt h o j
    if 0 < j ∧ w ≤ coordAt h o (j - 1) then some (spInfo 1 j)
    else if bitsOf w 26 15 ≠ 0 ∨ stepK (hFmt h) * hSteps h ≤ w % 2 ^ 15 then some (spInfo 2 j) else none

/-- Positions with a stored code, ascending in value order: position number (s * 32 + i) * K + k. -/
def storedPos (h : List Byte) (o : Obj) : List Nat :=
  let k := stepK (hFmt h)
  if hForm h = 0 then (List.range (32 * k * hSteps h)).filter fun b => bitOf (o (hSoff h + b / 8)).toNat (b % 8)
  else (List.range (hCoord h)).map fun j =>
    let w := coordAt h o j
    let c := w % 2 ^ 15
    (c / k * 32 + w / 2 ^ 27) * k + c % k

/-- The code at value index v. -/
def valueAt (h : List Byte) (o : Obj) (v : Nat) : Nat :=
  let w := (hFmt h).width
  leNat ((rangeFrom (hVoff h + v * w / 8) 2).map o) / 2 ^ (v * w % 8) % 2 ^ w

/-- A check of the whole structure (R221): coordinates, then values beyond TOTAL. -/
def structBad (h : List Byte) (o : Obj) : Option W64 :=
  match (if hForm h = 1 then coordBad h o else none) with
  | some e => some e
  | none => if valuesIn h < (storedPos h o).length then some (spInfo 3 (valuesIn h)) else none

/-- The scale of block b of row i at step s; 127 without scales. -/
def scaleAt (h : List Byte) (o : Obj) (st i b : Nat) : Nat :=
  if hScl h then (o (hXoff h + (st * 32 + i) * scaleBytes (hFmt h) + b)).toNat else 127

/-- A code that counts as zero (R213). -/
def zeroCode (f : EFmt) (fc : Bool) (c : Nat) : Bool :=
  match f with
  | .s8 | .n8 | .s4 | .n4 => c = 0
  | .mk8 => c = 0 || (fc && c = 0x80)
  | f => c % 2 ^ signBit f = 0

/-! The compiler (R213 to R215). -/

/-- The stored codes by position: code and value index. -/
def codeMap (h : List Byte) (o : Obj) : SMap (Nat × Nat) :=
  let ps := storedPos h o
  ((List.range ps.length).zip ps).foldl (fun m p => smSet m p.2 (valueAt h o p.1, p.1)) []

/-- Value index of a non-zero position of a block whose scale is not 0xFF. -/
def runAt (f : EFmt) (fc : Bool) (m : SMap (Nat × Nat)) (pos : Nat) : Option Nat :=
  (smFind m pos).bind fun p => if zeroCode f fc p.1 then none else some p.2

/-- Splits the positions of one block into runs: start k, length, first value index. -/
def runsOf (nz : Nat → Option Nat) : Nat → Nat → Option (Nat × Nat × Nat) → List (Nat × Nat × Nat)
  | _, 0, cur => cur.toList
  | k, n + 1, cur =>
    match nz k, cur with
    | some _, some (k0, l, v) => runsOf nz (k + 1) n (some (k0, l + 1, v))
    | some v, none => runsOf nz (k + 1) n (some (k, 1, v))
    | none, some r => r :: runsOf nz (k + 1) n none
    | none, none => runsOf nz (k + 1) n none

def opGroup (st n : Nat) : W64 := fields [(n, 0), (st, 32), (1, 60)]
def opRun (i k l v : Nat) : W64 := fields [(v, 0), (l - 1, 24), (k, 32), (i, 48), (2, 60)]
def opNan (i : Nat) : W64 := fields [(i, 48), (3, 60)]
def opEnd (n : Nat) : W64 := fields [(n, 0), (15, 60)]

/-- The micro-ops of row i of step s. -/
def rowOps (h : List Byte) (o : Obj) (fc : Bool) (m : SMap (Nat × Nat)) (st i : Nat) : List W64 :=
  let f := hFmt h
  let nb := scaleBytes f
  if (List.range nb).any fun b => scaleAt h o st i b = 0xFF then [opNan i]
  else (List.range (ceilDiv (stepK f) 32)).flatMap fun b =>
    (runsOf (fun k => runAt f fc m ((st * 32 + i) * stepK f + k)) (32 * b) 32 none).map fun r => opRun i r.1 r.2.1 r.2.2

/-- The timetable (R215). -/
def timetable (h : List Byte) (o : Obj) (fc : Bool) : List W64 :=
  let m := codeMap h o
  let gs := (List.range (hSteps h)).map fun st => (st, (List.range 32).flatMap fun i => rowOps h o fc m st i)
  let gs := gs.filter fun g => !g.2.isEmpty
  gs.flatMap (fun g => opGroup g.1 g.2.length :: g.2) ++ [opEnd gs.length]

/-- Non-zero positions (R213). -/
def nzCount (h : List Byte) (o : Obj) (fc : Bool) : Nat :=
  let f := hFmt h
  let m := codeMap h o
  (List.range (hSteps h * 32 * stepK f)).foldl (fun n p =>
    if scaleAt h o (p / stepK f / 32) (p / stepK f % 32) (p % stepK f / 32) = 0xFF || (runAt f fc m p).isSome then n + 1 else n) 0

/-- The die of a cluster. -/
def dieOf (cl : Nat) : Nat := if cl < 96 then 0 else 1

def sameKey (q : Comp) (tn pa fmtc : Nat) (fc : Bool) (n : Nat) : Bool := q.tenant = tn && q.pa = pa && q.fmtc = fmtc && q.fc = fc && q.n = n
def TtEnt.has (e : TtEnt) (tn pa fmtc : Nat) (fc : Bool) (n : Nat) : Bool := e.tenant = tn && e.pa = pa && e.fmtc = fmtc && e.fc = fc && e.n = n

/-- The runs of a footprint: one for each window of 2 MiB, with the key of its first byte where its page is present. -/
def footRuns (s : State) (cid : Nat) (lvl : Bool) (t : W64) (total : Nat) : List (Option Nat × Nat) :=
  let va := (bndOf (s.ctx cid) t).va (offOf t)
  (rangeFrom (va / 2 ^ 21) ((va + total - 1) / 2 ^ 21 + 1 - va / 2 ^ 21)).map fun w =>
    let lo := max va (w * 2 ^ 21)
    (((segsOf s cid lvl (ptrAdd t (lo - va : Nat)) 1).head?).map (·.1), min (va + total) ((w + 1) * 2 ^ 21) - lo)

/-- The bytes of runs, read against a cluster's L1 under the .l2 row (R320); of a page that is not present, free values (log 42, DESIGN
CHOICE). -/
def runBytes (cl : Nat) : List (Option Nat × Nat) → List Byte → State → State × List Byte
  | [], acc, s => (s, acc)
  | (some k, n) :: rs, acc, s => let (s, bs) := loadKeys s cl polEng (rangeFrom k n); runBytes cl rs (acc ++ bs) s
  | (none, n) :: rs, acc, s => let (num, s) := s.draw; runBytes cl rs (acc ++ (List.range n).map (Config.frameByte num)) s

/-- The entries that stand: 8,192 of them, and micro-ops that the store of 16 MiB holds; those used least recently go (R218; log 138,
DESIGN CHOICE). -/
def ttFit : Nat → Nat → List TtEnt → List TtEnt
  | 0, _, _ => []
  | _, _, [] => []
  | n + 1, room, e :: es => if e.ops.length ≤ room then e :: ttFit n (room - e.ops.length) es else []

/-- A compile ends (R215, R219, R221): cached, discarded, or in SPORDER. -/
def endCompile (s : State) (q : Comp) : State :=
  if q.stale then s
  else
    let (s, bs) := runBytes q.cl q.runs [] s
    let o : Obj := fun b => bs.getD b 0
    let h := bs.take 64
    match structBad h o with
    | some e =>
      let s := q.bg.foldl (fun s cid => s.modCtx cid fun c => { c with bgerr := (q.ptr &&& 0xFFFFFFFFFFFFFF00#64) ||| BitVec.ofNat 64 (e.toNat / 2 ^ 32) }) s
      { s with ctxs := s.ctxs.map fun x => (x.1, if x.2.ticket = some q.id then { x.2 with spErr := some e } else x.2) }
    | none =>
      let tt := timetable h o q.fc
      let nz := nzCount h o q.fc
      let dense := q.thresh * (32 * stepK (hFmt h) * q.n) < 100 * nz || 1024 < tt.length
      let e : TtEnt := { tenant := q.tenant, pa := q.pa, fmtc := q.fmtc, fc := q.fc, n := q.n, runs := q.runs, dense := dense, nz := nz,
                         ops := if dense then [] else tt }
      { s with ttdir := ttFit 8192 (2 ^ 21) (e :: s.ttdir.filter fun x => !x.has q.tenant q.pa q.fmtc q.fc q.n) }

/-- PATTERN_COMPILE: a free compiler of the die begins the oldest request; with none to begin, the oldest running one ends. -/
def execPatternCompile (die : Nat) (s : State) : R :=
  let qs := smGet [] s.comps die
  .next (match qs.find? (fun q => !q.running), decide ((qs.filter (·.running)).length < 4) with
    | some q, true =>
      { s with comps := smSet s.comps die (qs.map fun x =>
          if x.id = q.id then { x with running := true, stale := false, thresh := (s.tenant q.tenant).thresh } else x) }
    | _, _ =>
      match qs.find? (·.running) with
      | none => s
      | some q => endCompile { s with comps := smSet s.comps die (qs.filter fun x => x.id ≠ q.id) } q)

/-! The instructions. -/

/-- Reads and checks the header of the object a register points at. -/
def withHeader (s : State) (t : W64) (f : State → List Byte → Nat → State) : State :=
  let rid := ridOf t
  if !aligned t 64 then trap s fALIGN t
  else if 0xFD ≤ rid then trap s fPERM t
  else
    genDo s .ld polEng t 64 fun s ks =>
      let (s, h) := loadKeys s s.me.cl polEng ks
      match headerBad h with
      | some sub => trapSub s fILLEGAL sub
      | none => f s h (ks.headD 0)

/-- Dirty bytes of the footprint reach their homes, and no byte of it is valid in the cluster's L1 any longer (R166, R220). -/
def writeBackObj (s : State) (t : W64) (total : Nat) : State :=
  ((segsOf s s.cur s.me.trap.pl t total).filter fun g => isCached g.1).foldl (fun s g => l1Yield s s.me.cl g.1 (g.2 - g.1)) s

/-- The cached verdict of a key; a hit becomes the entry used most recently (R218). -/
def ttLook (s : State) (tn pa fmtc : Nat) (fc : Bool) (n : Nat) : State × Option TtEnt :=
  match s.ttdir.find? fun e => e.has tn pa fmtc fc n with
  | none => (s, none)
  | some e => ({ s with ttdir := e :: s.ttdir.filter fun x => !x.has tn pa fmtc fc n }, some e)

/-- Requests a compile (R222, R223): its number, or none when the die's queue is full; the flag says that it was there already. -/
def askCompile (s : State) (h : List Byte) (t : W64) (pa : Nat) (fc : Bool) (bg : Bool) : State × Option (Nat × Bool) :=
  let tn := s.tenOf s.me
  let add (q : Comp) : Comp := if bg && !q.bg.contains s.cur then { q with bg := q.bg ++ [s.cur] } else q
  match (s.comps.flatMap (·.2)).find? fun q => sameKey q tn pa (hFmtc h) fc (hSteps h) with
  | some q => ({ s with comps := s.comps.map fun d => (d.1, d.2.map fun x => if x.id = q.id then add x else x) }, some (q.id, true))
  | none =>
    let die := dieOf s.me.cl
    let qs := smGet [] s.comps die
    if 64 ≤ (qs.filter fun q => !q.running).length then (s, none)
    else
      let (id, s) := s.fresh
      let q : Comp := { id := id, tenant := tn, pa := pa, fmtc := hFmtc h, fc := fc, n := hSteps h, ptr := t,
                        runs := footRuns s s.cur s.me.trap.pl t (hTotal h), bg := if bg then [s.cur] else [], running := false,
                        thresh := 0, cl := s.me.cl, stale := false }
      ({ s with comps := smSet s.comps die (qs ++ [q]) }, some (id, false))

/-- The checks of SPX on B (codes 0x14, 0x15). -/
def spxBad (h : List Byte) (b : OpDesc) (z : Nat) : Option Nat :=
  if (fmtOfDesc b).width ≠ (hFmt h).width then some 0x14
  else if descKind b = 2 || badTiles b false z (hSteps h) then some 0x15 else none

/-- The ranges of a sparse run (R222). -/
def spxRngs (s : State) (cid : Nat) (lvl : Bool) (t : W64) (h : List Byte) (b : OpDesc) : List Rng :=
  (⟨false, 0, segsOf s cid lvl t (hTotal h)⟩ : Rng) :: operandRngs s cid lvl b none 2 (hSteps h)

/-- Puts a sparse run in the queue, with its result. -/
def spxGo (s : State) (d : GReg) (res z : Nat) (x : SpxIssue) (tt : Option (List W64)) (post : Ctx → Ctx) : State :=
  enqueueWith id (fun s => (s.modMe fun c => { post c with ticket := none, spErr := none, spx := none }).setReg d (BitVec.ofNat 64 res)) s
    (.spx z x.t x.h tt x.b x.f) (spxRngs s s.cur s.me.trap.pl x.t x.h x.b)

/-- SPX looks its key up; an entry is run, and miss gets the rest. -/
def spxLook (s : State) (d : GReg) (z : Nat) (x : SpxIssue) (miss : State → SpxIssue → State) : State :=
  let first := s.me.spx.isNone
  match ttLook s (s.tenOf s.me) x.pa (hFmtc x.h) (fmtFc x.f) (hSteps x.h) with
  | (s, some e) =>
    let res := if e.dense then 3 else if first then 0 else 1
    spxGo s d res z x (if e.dense then none else some e.ops) fun c => if first then { c with lookups := c.lookups + 1 } else c
  | (s, none) => miss s x

/-- What SPX.wait and SPX.fb share, up to a lookup that misses (R222). It issues once the queue and the tables of ranges have room (R178); an
SPX.wait that waits has issued, and keeps what it captured (R370). -/
def spx (s : State) (d : GReg) (z : Nat) (a : GReg) (miss : State → SpxIssue → State) : State :=
  withEng s fun s => withRoom s fun s =>
    match s.me.spx with
    | some x => spxLook s d z x miss
    | none =>
      withFmt s fun f =>
        let t := s.reg a
        withHeader s t fun s h pa =>
          let x : SpxIssue := ⟨t, h, pa, (myEng s).opb, f⟩
          match spxBad h x.b z with
          | some sub => trapSub s fILLEGAL sub
          | none =>
            if (addLocks s s.me.cl s.me.task 0 (spxRngs s s.cur s.me.trap.pl t h x.b)).isNone then s.stall
            else spxLook (writeBackObj s t (hTotal h)) d z x miss

/-- SPX.wait: without an entry it asks for a compile and waits, asking again when the die's queue was full (ticket 0) or a result has been
discarded. -/
def execSpxWait (d : GReg) (z : BitVec 3) (a : GReg) (s : State) : R :=
  .next (spx s d z.toNat a fun s x =>
    match s.me.spErr with
    | some e => trap s fSPORDER e
    | none =>
      let y := askCompile s x.h x.t x.pa (fmtFc x.f) false
      y.1.modMe fun c =>
        let c := if c.spx.isNone then { c with lookups := c.lookups + 1, misses := c.misses + 1 } else c
        { c with ticket := some ((y.2.map (·.1)).getD 0), spx := some x })

/-- SPX.fb: without an entry it asks for a compile and runs dense. -/
def execSpxFb (d : GReg) (z : BitVec 3) (a : GReg) (s : State) : R :=
  .next (spx s d z.toNat a fun s x =>
    spxGo (askCompile s x.h x.t x.pa (fmtFc x.f) true).1 d 2 z.toNat x none
      fun c => { c with lookups := c.lookups + 1, misses := c.misses + 1 })

/-- SPCOMP. -/
def execSpcomp (d a : GReg) (s : State) : R :=
  .next (withFmt s fun f =>
    withHeader s (s.reg a) fun s h pa =>
      let s := writeBackObj s (s.reg a) (hTotal h)
      match ttLook s (s.tenOf s.me) pa (hFmtc h) (fmtFc f) (hSteps h) with
      | (s, some _) => s.done d 0
      | (s, none) =>
        match askCompile s h (s.reg a) pa (fmtFc f) true with
        | (s, none) => s.done d 3
        | (s, some (_, old)) => s.done d (if old then 2 else 1))

/-- Invalidates entries of a tenant under R219: their generations move. -/
def ttDrop (s : State) (p : Nat → Nat → Bool) : State :=
  { s with ttdir := s.ttdir.filter (fun e => !p e.tenant e.pa),
           comps := s.comps.map fun d => (d.1, d.2.map fun q => if p q.tenant q.pa then { q with stale := true } else q) }

def execSpinv (a : GReg) (s : State) : R :=
  .next (withHeader s (s.reg a) fun s _ pa => (ttDrop s fun tn k => tn = s.tenOf s.me && k = pa).adv)

def execSpinvAll (s : State) : R := .next (ttDrop s fun tn _ => tn = s.tenOf s.me).adv

/-- The status word of SPQRY (R224). -/
def spWord (e : Option TtEnt) (comp : Bool) : W64 :=
  match e with
  | some e => if e.dense then fields [(3, 0), (e.nz, 32)] else fields [(2, 0), (e.ops.length, 16), (e.nz, 32)]
  | none => if comp then 1 else 0

def spEntry (s : State) (h : List Byte) (pa : Nat) (fc : Bool) : Option TtEnt :=
  s.ttdir.find? fun e => e.has (s.tenOf s.me) pa (hFmtc h) fc (hSteps h)

def execSpqry (d a : GReg) (s : State) : R :=
  .next (withFmt s fun f =>
    withHeader s (s.reg a) fun s h pa =>
      s.done d (spWord (spEntry s h pa (fmtFc f)) ((s.comps.flatMap (·.2)).any fun q => sameKey q (s.tenOf s.me) pa (hFmtc h) (fmtFc f) (hSteps h))))

def execSpqryWord (d a b : GReg) (s : State) : R :=
  .next (withFmt s fun f =>
    withHeader s (s.reg a) fun s h pa =>
      let ops := ((spEntry s h pa (fmtFc f)).map (·.ops)).getD []
      s.done d (if (s.reg b).extractLsb' 10 54 ≠ 0#54 then BitVec.allOnes 64 else ops.getD ((s.reg b).extractLsb' 0 10).toNat (BitVec.allOnes 64)))

/-- SPCFG. -/
def execSpcfg (d a : GReg) (s : State) : R :=
  let tn := s.tenOf s.me
  .next ((s.modTenant tn fun t => { t with thresh := min (s.reg a).toNat 100 }).done d (BitVec.ofNat 64 (s.tenant tn).thresh))

/-! Runs. -/

/-- Reads pieces of an object: offset and bytes of each. -/
def readPieces (cid : Nat) (lvl1 : Bool) (t : W64) : List (Nat × Nat) → List Byte → State → ERes (List Byte)
  | [], acc, s => .ok s acc
  | x :: xs, acc, s => (engRead s cid lvl1 false (ptrAdd t x.1) x.2).bind fun s bs => readPieces cid lvl1 t xs (acc ++ bs) s

/-- Reads n bytes of an object from an offset, sector by sector. -/
def readSpan (cid : Nat) (lvl1 : Bool) (t : W64) (off n : Nat) (s : State) : ERes (List Byte) :=
  readPieces cid lvl1 t ((rangeFrom (off / 64) (ceilDiv (off + n) 64 - off / 64)).map fun q =>
    (max off (64 * q), min (off + n) (64 * q + 64) - max off (64 * q))) [] s

/-- Reads the n codes from value index v on. -/
def readCodes (cid : Nat) (lvl1 : Bool) (t : W64) (h : List Byte) (v n : Nat) (s : State) : ERes (List Nat) :=
  let w := (hFmt h).width
  let a := v * w / 8
  if n = 0 then .ok s []
  else
    (readSpan cid lvl1 t (hVoff h + a) (ceilDiv ((v + n) * w) 8 - a) s).bind fun s bs =>
      .ok s ((List.range n).map fun k => leNat bs / 2 ^ ((v + k) * w - 8 * a) % 2 ^ w)

/-- Reads n scale bytes of row i at step s, from block b on; none without scales. -/
def readScales (cid : Nat) (lvl1 : Bool) (t : W64) (h : List Byte) (st i b n : Nat) (s : State) : ERes (List Byte) :=
  if hScl h then readSpan cid lvl1 t (hXoff h + (st * 32 + i) * scaleBytes (hFmt h) + b) n s else .ok s []

/-- A code with its block's scale. -/
def objElem (h : List Byte) (f : W32) (c : Nat) (sc : Option Byte) : FV :=
  let v := readElem (hFmt h) (fmtFc f) (fmtFlush f) c
  match sc with | some b => scaleElem b.toNat v | none => v

/-! Dense runs (R222). -/

/-- The check of the expander before the rows of step s (R222). -/
def expandBad (h : List Byte) (o : Obj) (begun : Bool) (st : Nat) : Option W64 :=
  if hForm h = 1 then (if begun then none else structBad h o)
  else
    let upTo := ((storedPos h o).filter fun p => decide (p / stepK (hFmt h) / 32 ≤ st)).length
    let before := ((storedPos h o).filter fun p => decide (p / stepK (hFmt h) / 32 < st)).length
    if valuesIn h < upTo then some (spInfo 3 (max before (valuesIn h))) else none

/-- Bytes of the structure that a step needs: all coordinate words, or the bitmap up to the step. -/
def structUpTo (h : List Byte) (st : Nat) : Nat := if hForm h = 1 then structBytes h else 4 * stepK (hFmt h) * (st + 1)

/-- The stored positions of row i at step s: position and value index. They are in value order. -/
def rowStored (h : List Byte) (ps : List Nat) (st i : Nat) : List (Nat × Nat) :=
  ((List.range ps.length).zip ps).filterMap fun x => if x.2 / stepK (hFmt h) = st * 32 + i then some (x.2 % stepK (hFmt h), x.1) else none

/-- Row i of a dense run at step s: absent positions hold the code 0x00 (R212). -/
def denseLine (cid : Nat) (lvl1 : Bool) (t : W64) (h : List Byte) (f : W32) (ps : List Nat) (st i : Nat) (s : State) : ERes (List FV) :=
  let mine := rowStored h ps st i
  (readCodes cid lvl1 t h ((mine.head?.map (·.2)).getD 0) mine.length s).bind fun s cs =>
    (readScales cid lvl1 t h st i 0 (scaleBytes (hFmt h)) s).bind fun s sc =>
      let m : SMap Nat := (mine.zip cs).foldl (fun m x => smSet m x.1.1 x.2) []
      .ok s ((List.range (stepK (hFmt h))).map fun k => objElem h f (smGet 0 m k) sc[k / 32]?)

/-- One step of a dense run (R222). -/
def denseStep (s : State) (cl : Nat) (o : EOp) (z : Nat) (t : W64) (h : List Byte) (b : OpDesc) (f : W32) : State :=
  let r := (s.eng cl).rp
  if hSteps h ≤ r.step then s
  else
    (readSpan o.cid o.lvl1 t (hSoff h) (structUpTo h r.step) s).pipe s cl o r.row fun s bs =>
      let ob : Obj := fun b => bs.getD (b - hSoff h) 0
      match expandBad h ob o.begun r.step with
      | some e => engFault s cl o fSPORDER r.row e
      | none =>
        let o := { o with running := true, begun := true }
        let s := setOp s cl o
        let ps := storedPos h ob
        (operandLines s cl o b none none f r.step (List.range 32)).pipe s cl o r.row fun s bl =>
          mainRows cl o z r.step f bl (fun s i => denseLine o.cid o.lvl1 t h f ps r.step i s)
            (fun s =>
              let s := if r.step + 1 = hSteps h then dropLock s o.id none else s
              setProg s cl ⟨r.step + 1, 0, false, 0⟩) (rangeFrom r.row (32 - r.row)) s

/-- K_STEP: one step of the loop, or dense run, at the head of the step pipe. -/
def execKStep (s : State) : R :=
  .next (match engOp s s.curCl false with
    | some o =>
      (match o.k with
       | .mloop z n adp a b f ad ra rb => loopStep s s.curCl o z n adp a b f ad ra rb
       | .spx z t h none b f => denseStep s s.curCl o z t h b f
       | _ => s)
    | none => s)

/-- Fields of a micro-op (R214). -/
def opKind (w : W64) : Nat := (w.extractLsb' 60 4).toNat
def opRow (w : W64) : Nat := (w.extractLsb' 48 5).toNat
def opStep (w : W64) : Nat := (w.extractLsb' 32 16).toNat
def opK (w : W64) : Nat := (w.extractLsb' 32 9).toNat
def opLen (w : W64) : Nat := (w.extractLsb' 24 5).toNat + 1
def opVal (w : W64) : Nat := (w.extractLsb' 0 20).toNat
def opCount (w : W64) : Nat := (w.extractLsb' 0 16).toNat

/-- Groups of a timetable: step and micro-ops. -/
def groupsOf : List W64 → List (Nat × List W64)
  | [] => []
  | w :: ws => if opKind w = 1 then (opStep w, ws.take (opCount w)) :: groupsOf ws else groupsOf ws

/-- The start of a run, and of each resume: every NaN element becomes the canonical NaN (R216). -/
def nanCanon (e : Eng) (z : Nat) : Eng :=
  { e with tiles := e.tiles.map fun p => (p.1, if p.1 / 1024 = z && (w48Val p.2).isNan then w48Nan else p.2) }

/-- What a row's RUNs gather, by position: codes from the values, each run with its block's scale. -/
def readRuns (cid : Nat) (lvl1 : Bool) (t : W64) (h : List Byte) (f : W32) (st i : Nat) : List W64 → SMap FV → State → ERes (SMap FV)
  | [], m, s => .ok s m
  | w :: ws, m, s =>
    (readCodes cid lvl1 t h (opVal w) (opLen w) s).bind fun s cs =>
      (readScales cid lvl1 t h st i (opK w / 32) 1 s).bind fun s sc =>
        readRuns cid lvl1 t h f st i ws (((rangeFrom (opK w) (opLen w)).zip cs).foldl (fun m x => smSet m x.1 (objElem h f x.2 sc.head?)) m) s

/-- Row i of a group, restricted to the positions P of its RUNs (R216): a position outside P adds nothing, whatever its scale. -/
def groupLine (cid : Nat) (lvl1 : Bool) (t : W64) (h : List Byte) (f : W32) (st i : Nat) (ops : List W64) (s : State) : ERes (List FV) :=
  (readRuns cid lvl1 t h f st i ops [] s).bind fun s m => .ok s ((List.range (stepK (hFmt h))).map fun k => smGet (.zero false) m k)

/-- NANROW. -/
def nanRow (e : Eng) (z i : Nat) : Eng :=
  { e with tiles := (List.range 32).foldl (fun m j => smSet m (z * 1024 + 32 * i + j) w48Nan) e.tiles }

/-- The rows of a group, in ascending order. -/
def groupRows (cl : Nat) (o : EOp) (z st : Nat) (t : W64) (h : List Byte) (f : W32) (bl : List (List FV)) (ops : List W64) (fin : State → State) :
    List Nat → State → State
  | [], s => fin s
  | i :: is, s =>
    let mine := ops.filter fun w => opRow w = i
    if mine.isEmpty then groupRows cl o z st t h f bl ops fin is s
    else if mine.any (fun w => opKind w = 3) then
      groupRows cl o z st t h f bl ops fin is (setProg (s.modEng cl fun e => nanRow e z i) cl ⟨st, 0, false, i + 1⟩)
    else
      (groupLine o.cid o.lvl1 t h f st i mine s).pipe (setProg s cl ⟨st, 0, false, i⟩) cl o i fun s a =>
        groupRows cl o z st t h f bl ops fin is (setProg (s.modEng cl fun e => rowStep e z i f a bl) cl ⟨st, 0, false, i + 1⟩)

/-- One group of a timetable (R216); the ranges are released after the last one (R222). -/
def groupStep (s : State) (cl : Nat) (o : EOp) (z : Nat) (t : W64) (h : List Byte) (ws : List W64) (b : OpDesc) (f : W32) : State :=
  let r := (s.eng cl).rp
  let o' := { o with running := true, begun := true }
  let s := if o.begun then s else setOp (s.modEng cl fun e => nanCanon e z) cl o'
  match (groupsOf ws).filter fun g => decide (r.step ≤ g.1) with
  | [] => s
  | (st, ops) :: rest =>
    let row := if st = r.step then r.row else 0
    let s := setProg s cl ⟨st, 0, false, row⟩
    (operandLines s cl o' b none none f st (List.range 32)).pipe s cl o' row fun s bl =>
      groupRows cl o' z st t h f bl ops (fun s =>
        let s := if rest.isEmpty then dropLock s o.id none else s
        setProg s cl ⟨st + 1, 0, false, 0⟩) (rangeFrom row (32 - row)) s

/-- TIMETABLE_GROUP. -/
def execTimetableGroup (s : State) : R :=
  .next (match engOp s s.curCl false with
    | some o =>
      (match o.k with
       | .spx z t h (some ws) b f => groupStep s s.curCl o z t h ws b f
       | _ => s)
    | none => s)

/-! MTILE.ENG (R198). -/

/-- The ranges that an operation of a restored queue registers again. -/
def opRngs (s : State) (o : EOp) : ERes (List Rng) :=
  match o.k with
  | .mloop _ n _ a b _ _ ra rb => .ok s (operandRngs s o.cid o.lvl1 a ra 0 n ++ operandRngs s o.cid o.lvl1 b rb 2 n)
  | .mtile lay _ p st => .ok s (tileRng s o.cid o.lvl1 lay false p st)
  | .mstt lay _ p st => .ok s (tileRng s o.cid o.lvl1 lay true p st)
  | .mdrain _ _ p st ring _ ws param =>
    (drainBlk s o.cid o.lvl1 ws param).bind fun s blk => .ok s (drainRngs s o.cid o.lvl1 (progOf ws) blk p st ring)
  | .spx _ t h _ b _ => .ok s (spxRngs s o.cid o.lvl1 t h b)
  | _ => .ok s []

/-- What a restored operation needs to know before it is taken up: the place of its object, for a sparse run, and its ranges. -/
def frameOp (s : State) (o : EOp) : ERes (Option Nat × List Rng) :=
  let place : ERes (Option Nat) := match o.k with
    | .spx _ t .. =>
      (match engAccess s o.cid o.lvl1 false .ld t 1 with
       | .ok ks => .ok s ks.head?
       | .wait s => .wait s
       | .fault .. => .ok s none)
    | _ => .ok s none
  place.bind fun s pa => (opRngs s o).bind fun s rs => .ok s (pa, rs)

def frameOps : List EOp → State → ERes (List (EOp × Option Nat × List Rng))
  | [], s => .ok s []
  | o :: os, s => (frameOp s o).bind fun s x => (frameOps os s).bind fun s r => .ok s ((o, x) :: r)

/-- Registers all ranges of a restored queue; none when a table lacks room. -/
def relock (cl : Nat) (xs : List (EOp × Option Nat × List Rng)) (s : State) : Option State :=
  xs.foldl (fun s x => s.bind fun s => addLocks s cl (s.ctx x.1.cid).task x.1.id x.2.2) (some s)

/-- A sparse run that is restored looks its key up again, and counts again; on a miss it finishes as a dense run (R222, R372). -/
def relook (s : State) (o : EOp) (pa : Option Nat) : State × EOp :=
  match o.k with
  | .spx z t h _ b f =>
    let (s, e) := match pa with
      | some k => ttLook s (s.tenOf (s.ctx o.cid)) k (hFmtc h) (fmtFc f) (hSteps h)
      | none => (s, none)
    (s.modCtx o.cid fun c => { c with lookups := c.lookups + 1, misses := if e.isSome then c.misses else c.misses + 1 },
      { o with k := .spx z t h (e.bind fun e => if e.dense then none else some e.ops) b f, begun := false, running := false })
  | _ => (s, { o with begun := false, running := false })

def relooks (xs : List (EOp × Option Nat × List Rng)) (s : State) : State × List EOp :=
  xs.foldl (fun a x => let y := relook a.1 x.1 x.2.1; (y.1, a.2 ++ [y.2])) (s, [])

/-- The engine that a frame leaves, once its accesses wait for no walk: the queue, the CSRs, ME.ROWPROG and the side tiles are the frame's.
False when its ranges have no room. -/
def loadFrame (s : State) (cl : Nat) (fr : Eng) : ERes Bool :=
  (frameOps fr.q s).bind fun s xs =>
    match relock cl xs s with
    | none => .ok s false
    | some s =>
      let (s, q) := relooks xs s
      .ok (s.modEng cl fun e => { fr with owner := e.owner, tiles := e.tiles, q := q, framed := false, haltStop := false }) true

/-- Registers after bytes that no MSTT.ENG stored: free values, and an empty queue (log 17, DESIGN CHOICE). -/
def freeFrame (s : State) (cl : Nat) : State :=
  let (n, s) := s.draw
  let v (k : Nat) : W64 := Config.freeW64 (n + k)
  { s with freeCtr := s.freeCtr + 12 }.modEng cl fun e =>
    { e with q := [], side := [], opa := ⟨v 0, v 1, v 2, v 3⟩, opb := ⟨v 4, v 5, v 6, v 7⟩, prog := v 8, param := v 9, words := [], faddr := v 10 }

/-- MTILE.ENG: once the queue is empty, the frame replaces the engine's state but for its tiles. -/
def execMtileEng (a : GReg) (s : State) : R :=
  .next (withEng s fun s =>
    let p := s.reg a
    if !aligned p 64 then trap s fALIGN p
    else if !(myEng s).q.isEmpty then s.stall
    else
      (engRead s s.cur s.me.trap.pl true p 0x4000).atIssue s fun s bs =>
        match findSaved s bs 0 with
        | some (.eng fr) => (loadFrame s s.me.cl fr).atIssue s fun t ok => if ok then t.adv else s.stall
        | _ => (freeFrame s s.me.cl).adv)

end Sys2Proof.Machine
end

