-- ==== Sys2Proof/Machine/Sync.lean ====
section
/-! DEFINITION. Semaphores (R169 to R171). -/

namespace Sys2Proof.Machine

/-- A semaphore word: PERM for an index beyond the task's, a wait while the owner is not resident (R169), else f on its key. -/
def onSem (s : State) (i : BitVec 6) (f : Nat → State) : State :=
  if 8 * (s.task s.me.task).r.nctx ≤ i.toNat then trap s fPERM 0
  else
    match semKey s s.me i.toNat with
    | some k => f k
    | none => waitOn s .served

/-- The count of a semaphore word (R170). -/
def semCount (s : State) (n : GSrc) : Nat := (s.srcN n).toNat % 2 ^ 32

/-- The executing context joins a list of waiters, once. -/
def joinWs (s : State) (n : Nat) (d : GReg) (ws : List (Nat × Nat × GReg)) : List (Nat × Nat × GReg) :=
  if ws.any (fun w => w.1 = s.cur) then ws else ws ++ [(s.cur, n, d)]

/-- The place of a semaphore among those whose owners are away. -/
def awayKey (s : State) (c : Ctx) (i : Nat) : Nat := 8 * s.sibling c (i / 8) + i % 8

/-- SEMACQ: one that fits completes at once; every older waiter that fitted has been served already. While the owner is away it takes its
place among the waiters (R169). -/
def execSemacq (d : GReg) (i : BitVec 6) (n : GSrc) (s : State) : R :=
  .next (if i.toNat < 8 * (s.task s.me.task).r.nctx ∧ semKey s s.me i.toNat = none ∧ !testsOnce s then
      (let a := awayKey s s.me i.toNat
       waitOn { s with semAway := smSet s.semAway a (joinWs s (semCount s n) d (smGet [] s.semAway a)) } .served)
    else
      onSem s i fun k =>
        let m := s.sem k
        let n := semCount s n
        let r := semWord m (decide (m.v < n))
        if n = 0 then waitDone (s.setReg d r)
        else if n ≤ m.v then waitDone ((acquire (s.setSem k { m with v := m.v - n, ws := notCid s.cur m.ws }) s.me.cl 3).setReg d r)
        else if m.e then waitDone ((s.setSem k { m with ws := notCid s.cur m.ws }).setReg d r)
        else if testsOnce s then waitOn s .served
        else waitOn (s.setSem k { m with ws := joinWs s n d m.ws }) .served)

/-- SEMTRY. -/
def execSemtry (d : GReg) (i : BitVec 6) (n : GSrc) (s : State) : R :=
  .next (onSem s i fun k =>
    let m := s.sem k
    let n := semCount s n
    let r := semWord m (decide (m.v < n))
    if n ≤ m.v ∧ n ≠ 0 then (acquire (s.setSem k { m with v := m.v - n }) s.me.cl 3).done d r
    else s.done d r)

/-- SEMREL: the release action at TASK scope, then the addition. -/
def execSemrel (d : GReg) (i : BitVec 6) (n : GSrc) (s : State) : R :=
  .next (onSem s i fun k =>
    let r := semWord (s.sem k) false
    let n := semCount s n
    semAdd ((release s s.me.cl 3).done d r) k n)

/-- SEMSET: the value and E, and every waiter is examined again. -/
def execSemset (i : BitVec 6) (a : GReg) (s : State) : R :=
  .next (onSem s i fun k =>
    let v := s.reg a
    let m := s.sem k
    semServe k m.ws (s.setSem k { m with v := v.toNat % 2 ^ 32, e := v.getLsbD 32 }).adv)

/-- SEMGET. -/
def execSemget (d : GReg) (i : BitVec 6) (s : State) : R := .next (onSem s i fun k => s.done d (semWord (s.sem k) false))

end Sys2Proof.Machine
end

