-- ==== Sys2Proof/Machine/Dispatch.lean ====
section
/-! DEFINITION. One meaning for each instruction and step. -/

namespace Sys2Proof.Machine

def exec (i : Instr) (s : State) : Host.Outcome State Fault Refusal :=
  match i with
  | .add a0 a1 a2 => Sys2Proof.Machine.execAdd a0 a1 a2 s
  | .sub a0 a1 a2 => Sys2Proof.Machine.execSub a0 a1 a2 s
  | .mul a0 a1 a2 => Sys2Proof.Machine.execMul a0 a1 a2 s
  | .mulh a0 a1 a2 => Sys2Proof.Machine.execMulh a0 a1 a2 s
  | .mulhn a0 a1 a2 => Sys2Proof.Machine.execMulhn a0 a1 a2 s
  | .div a0 a1 a2 => Sys2Proof.Machine.execDiv a0 a1 a2 s
  | .divn a0 a1 a2 => Sys2Proof.Machine.execDivn a0 a1 a2 s
  | .rem a0 a1 a2 => Sys2Proof.Machine.execRem a0 a1 a2 s
  | .remn a0 a1 a2 => Sys2Proof.Machine.execRemn a0 a1 a2 s
  | .and a0 a1 a2 => Sys2Proof.Machine.execAnd a0 a1 a2 s
  | .or a0 a1 a2 => Sys2Proof.Machine.execOr a0 a1 a2 s
  | .xor a0 a1 a2 => Sys2Proof.Machine.execXor a0 a1 a2 s
  | .shl a0 a1 a2 => Sys2Proof.Machine.execShl a0 a1 a2 s
  | .shr a0 a1 a2 => Sys2Proof.Machine.execShr a0 a1 a2 s
  | .sar a0 a1 a2 => Sys2Proof.Machine.execSar a0 a1 a2 s
  | .min a0 a1 a2 => Sys2Proof.Machine.execMin a0 a1 a2 s
  | .max a0 a1 a2 => Sys2Proof.Machine.execMax a0 a1 a2 s
  | .minn a0 a1 a2 => Sys2Proof.Machine.execMinn a0 a1 a2 s
  | .maxn a0 a1 a2 => Sys2Proof.Machine.execMaxn a0 a1 a2 s
  | .clz a0 a1 => Sys2Proof.Machine.execClz a0 a1 s
  | .popc a0 a1 => Sys2Proof.Machine.execPopc a0 a1 s
  | .seq a0 a1 a2 => Sys2Proof.Machine.execSeq a0 a1 a2 s
  | .slt a0 a1 a2 => Sys2Proof.Machine.execSlt a0 a1 a2 s
  | .sltn a0 a1 a2 => Sys2Proof.Machine.execSltn a0 a1 a2 s
  | .sel a0 a1 a2 => Sys2Proof.Machine.execSel a0 a1 a2 s
  | .li a0 a1 => Sys2Proof.Machine.execLi a0 a1 s
  | .csrr a0 a1 => Sys2Proof.Machine.execCsrr a0 a1 s
  | .csrw a0 a1 => Sys2Proof.Machine.execCsrw a0 a1 s
  | .csrwSet a0 a1 a2 => Sys2Proof.Machine.execCsrwSet a0 a1 a2 s
  | .csrwClr a0 a1 a2 => Sys2Proof.Machine.execCsrwClr a0 a1 a2 s
  | .ld a0 => Sys2Proof.Machine.execLd a0 s
  | .st a0 => Sys2Proof.Machine.execSt a0 s
  | .ldx a0 => Sys2Proof.Machine.execLdx a0 s
  | .stx a0 => Sys2Proof.Machine.execStx a0 s
  | .b a0 => Sys2Proof.Machine.execB a0 s
  | .bc a0 a1 a2 a3 => Sys2Proof.Machine.execBc a0 a1 a2 a3 s
  | .call a0 => Sys2Proof.Machine.execCall a0 s
  | .jr a0 a1 => Sys2Proof.Machine.execJr a0 a1 s
  | .loop a0 a1 => Sys2Proof.Machine.execLoop a0 a1 s
  | .laneUnitEmission a0 => Sys2Proof.Machine.execLaneUnitEmission a0 s
  | .teamN a0 => Sys2Proof.Machine.execTeamN a0 s
  | .teamM a0 a1 => Sys2Proof.Machine.execTeamM a0 a1 s
  | .qset a0 a1 => Sys2Proof.Machine.execQset a0 a1 s
  | .beginS a0 => Sys2Proof.Machine.execBeginS a0 s
  | .hole a0 a1 a2 => Sys2Proof.Machine.execHole a0 a1 a2 s
  | .replay a0 a1 => Sys2Proof.Machine.execReplay a0 a1 s
  | .replayi a0 a1 => Sys2Proof.Machine.execReplayi a0 a1 s
  | .dropS a0 => Sys2Proof.Machine.execDropS a0 s
  | .vqpop a0 => Sys2Proof.Machine.execVqpop a0 s
  | .vqtry a0 => Sys2Proof.Machine.execVqtry a0 s
  | .atom a0 a1 a2 => Sys2Proof.Machine.execAtom a0 a1 a2 s
  | .cas a0 a1 => Sys2Proof.Machine.execCas a0 a1 s
  | .red a0 a1 a2 => Sys2Proof.Machine.execRed a0 a1 a2 s
  | .fence a0 => Sys2Proof.Machine.execFence a0 s
  | .semacq a0 a1 a2 => Sys2Proof.Machine.execSemacq a0 a1 a2 s
  | .semrel a0 a1 a2 => Sys2Proof.Machine.execSemrel a0 a1 a2 s
  | .semtry a0 a1 a2 => Sys2Proof.Machine.execSemtry a0 a1 a2 s
  | .semset a0 a1 => Sys2Proof.Machine.execSemset a0 a1 s
  | .semget a0 a1 => Sys2Proof.Machine.execSemget a0 a1 s
  | .barinit a0 => Sys2Proof.Machine.execBarinit a0 s
  | .bararr a0 => Sys2Proof.Machine.execBararr a0 s
  | .barwait a0 => Sys2Proof.Machine.execBarwait a0 s
  | .bartest a0 => Sys2Proof.Machine.execBartest a0 s
  | .waitc a0 a1 a2 => Sys2Proof.Machine.execWaitc a0 a1 a2 s
  | .tryw a0 a1 => Sys2Proof.Machine.execTryw a0 a1 s
  | .mcfgA a0 => Sys2Proof.Machine.execMcfgA a0 s
  | .mcfgB a0 => Sys2Proof.Machine.execMcfgB a0 s
  | .mzero a0 => Sys2Proof.Machine.execMzero a0 s
  | .mloop a0 a1 a2 => Sys2Proof.Machine.execMloop a0 a1 a2 s
  | .mloopr a0 a1 a2 a3 a4 a5 a6 => Sys2Proof.Machine.execMloopr a0 a1 a2 a3 a4 a5 a6 s
  | .engineOpCompletion a0 a1 => Sys2Proof.Machine.execEngineOpCompletion a0 a1 s
  | .mtile a0 a1 a2 a3 => Sys2Proof.Machine.execMtile a0 a1 a2 a3 s
  | .mtileEng a0 => Sys2Proof.Machine.execMtileEng a0 s
  | .mstt a0 a1 a2 a3 => Sys2Proof.Machine.execMstt a0 a1 a2 a3 s
  | .msttEng a0 => Sys2Proof.Machine.execMsttEng a0 s
  | .mdrain a0 a1 a2 a3 a4 => Sys2Proof.Machine.execMdrain a0 a1 a2 a3 a4 s
  | .mwaitTile a0 => Sys2Proof.Machine.execMwaitTile a0 s
  | .madpt a0 => Sys2Proof.Machine.execMadpt a0 s
  | .mprog a0 a1 => Sys2Proof.Machine.execMprog a0 a1 s
  | .mmovt a0 a1 a2 a3 => Sys2Proof.Machine.execMmovt a0 a1 a2 a3 s
  | .eadd a0 a1 a2 => Sys2Proof.Machine.execEadd a0 a1 a2 s
  | .emul a0 a1 a2 => Sys2Proof.Machine.execEmul a0 a1 a2 s
  | .efma a0 a1 a2 a3 => Sys2Proof.Machine.execEfma a0 a1 a2 a3 s
  | .emax a0 a1 a2 => Sys2Proof.Machine.execEmax a0 a1 a2 s
  | .emin a0 a1 a2 => Sys2Proof.Machine.execEmin a0 a1 a2 s
  | .esel a0 a1 a2 a3 a4 => Sys2Proof.Machine.execEsel a0 a1 a2 a3 a4 s
  | .eexp2 a0 a1 => Sys2Proof.Machine.execEexp2 a0 a1 s
  | .ercp a0 a1 => Sys2Proof.Machine.execErcp a0 a1 s
  | .ecvt a0 a1 a2 a3 => Sys2Proof.Machine.execEcvt a0 a1 a2 a3 s
  | .eldc a0 a1 a2 => Sys2Proof.Machine.execEldc a0 a1 a2 s
  | .eldr a0 a1 => Sys2Proof.Machine.execEldr a0 a1 s
  | .eldm a0 => Sys2Proof.Machine.execEldm a0 s
  | .eadpt a0 a1 => Sys2Proof.Machine.execEadpt a0 a1 s
  | .ermax a0 a1 => Sys2Proof.Machine.execErmax a0 a1 s
  | .ersum a0 a1 => Sys2Proof.Machine.execErsum a0 a1 s
  | .est a0 a1 a2 a3 a4 => Sys2Proof.Machine.execEst a0 a1 a2 a3 a4 s
  | .spxWait a0 a1 a2 => Sys2Proof.Machine.execSpxWait a0 a1 a2 s
  | .spxFb a0 a1 a2 => Sys2Proof.Machine.execSpxFb a0 a1 a2 s
  | .patternCompile a0 => Sys2Proof.Machine.execPatternCompile a0 s
  | .spcomp a0 a1 => Sys2Proof.Machine.execSpcomp a0 a1 s
  | .spinv a0 => Sys2Proof.Machine.execSpinv a0 s
  | .spqry a0 a1 => Sys2Proof.Machine.execSpqry a0 a1 s
  | .spqryWord a0 a1 a2 => Sys2Proof.Machine.execSpqryWord a0 a1 a2 s
  | .spcfg a0 a1 => Sys2Proof.Machine.execSpcfg a0 a1 s
  | .ctpl a0 a1 => Sys2Proof.Machine.execCtpl a0 a1 s
  | .copyStart a0 a1 => Sys2Proof.Machine.execCopyStart a0 a1 s
  | .copyBeat a0 a1 => Sys2Proof.Machine.execCopyBeat a0 a1 s
  | .copyCompletion a0 a1 => Sys2Proof.Machine.execCopyCompletion a0 a1 s
  | .ringdef a0 a1 => Sys2Proof.Machine.execRingdef a0 a1 s
  | .ringdefShare a0 a1 a2 => Sys2Proof.Machine.execRingdefShare a0 a1 a2 s
  | .ringdefOff a0 => Sys2Proof.Machine.execRingdefOff a0 s
  | .rtag a0 a1 a2 => Sys2Proof.Machine.execRtag a0 a1 a2 s
  | .rtagCas a0 a1 a2 a3 => Sys2Proof.Machine.execRtagCas a0 a1 a2 a3 s
  | .rwait a0 a1 a2 a3 => Sys2Proof.Machine.execRwait a0 a1 a2 a3 s
  | .chst a0 a1 => Sys2Proof.Machine.execChst a0 a1 s
  | .chresRetry a0 a1 => Sys2Proof.Machine.execChresRetry a0 a1 s
  | .chresAbort a0 a1 => Sys2Proof.Machine.execChresAbort a0 a1 s
  | .chdrain a0 a1 => Sys2Proof.Machine.execChdrain a0 a1 s
  | .subsFill a0 a1 a2 => Sys2Proof.Machine.execSubsFill a0 a1 a2 s
  | .subsStore a0 a1 a2 => Sys2Proof.Machine.execSubsStore a0 a1 a2 s
  | .subsTile a0 => Sys2Proof.Machine.execSubsTile a0 s
  | .subk a0 a1 a2 => Sys2Proof.Machine.execSubk a0 a1 a2 s
  | .subkWarm a0 => Sys2Proof.Machine.execSubkWarm a0 s
  | .unsub a0 a1 => Sys2Proof.Machine.execUnsub a0 a1 s
  | .twaitp a0 => Sys2Proof.Machine.execTwaitp a0 s
  | .tspawn a0 a1 a2 => Sys2Proof.Machine.execTspawn a0 a1 a2 s
  | .remoteReply a0 a1 => Sys2Proof.Machine.execRemoteReply a0 a1 s
  | .retireNotice a0 => Sys2Proof.Machine.execRetireNotice a0 s
  | .qpush a0 a1 a2 => Sys2Proof.Machine.execQpush a0 a1 a2 s
  | .qinsd a0 a1 a2 => Sys2Proof.Machine.execQinsd a0 a1 a2 s
  | .qrange a0 a1 a2 => Sys2Proof.Machine.execQrange a0 a1 a2 s
  | .qpopb a0 a1 => Sys2Proof.Machine.execQpopb a0 a1 s
  | .qnext a0 => Sys2Proof.Machine.execQnext a0 s
  | .qstat a0 a1 => Sys2Proof.Machine.execQstat a0 a1 s
  | .msgpop a0 a1 => Sys2Proof.Machine.execMsgpop a0 a1 s
  | .msgpeek a0 a1 => Sys2Proof.Machine.execMsgpeek a0 a1 s
  | .msgrst a0 a1 a2 => Sys2Proof.Machine.execMsgrst a0 a1 a2 s
  | .trap a0 => Sys2Proof.Machine.execTrap a0 s
  | .svstrm a0 a1 => Sys2Proof.Machine.execSvstrm a0 a1 s
  | .rsstrm a0 => Sys2Proof.Machine.execRsstrm a0 s
  | .brk a0 => Sys2Proof.Machine.execBrk a0 s
  | .sysopXtinv a0 a1 a2 => Sys2Proof.Machine.execSysopXtinv a0 a1 a2 s
  | .sysopTcinv a0 a1 => Sys2Proof.Machine.execSysopTcinv a0 a1 s
  | .migopClaim a0 a1 a2 => Sys2Proof.Machine.execMigopClaim a0 a1 a2 s
  | .migopComplete a0 a1 a2 => Sys2Proof.Machine.execMigopComplete a0 a1 a2 s
  | .haltSoft a0 a1 a2 => Sys2Proof.Machine.execHaltSoft a0 a1 a2 s
  | .haltHard a0 a1 a2 => Sys2Proof.Machine.execHaltHard a0 a1 a2 s
  | .resume a0 a1 a2 => Sys2Proof.Machine.execResume a0 a1 a2 s
  | .dbgopStatus a0 a1 a2 => Sys2Proof.Machine.execDbgopStatus a0 a1 a2 s
  | .viadd a0 => Sys2Proof.Machine.execViadd a0 s
  | .visub a0 => Sys2Proof.Machine.execVisub a0 s
  | .vimul a0 => Sys2Proof.Machine.execVimul a0 s
  | .vimulh a0 => Sys2Proof.Machine.execVimulh a0 s
  | .vimad a0 => Sys2Proof.Machine.execVimad a0 s
  | .vimin a0 => Sys2Proof.Machine.execVimin a0 s
  | .vimax a0 => Sys2Proof.Machine.execVimax a0 s
  | .viabs a0 a1 => Sys2Proof.Machine.execViabs a0 a1 s
  | .vand a0 => Sys2Proof.Machine.execVand a0 s
  | .vor a0 => Sys2Proof.Machine.execVor a0 s
  | .vxor a0 => Sys2Proof.Machine.execVxor a0 s
  | .vnot a0 => Sys2Proof.Machine.execVnot a0 s
  | .vshl a0 => Sys2Proof.Machine.execVshl a0 s
  | .vshr a0 => Sys2Proof.Machine.execVshr a0 s
  | .vsar a0 => Sys2Proof.Machine.execVsar a0 s
  | .vclz a0 => Sys2Proof.Machine.execVclz a0 s
  | .vpopc a0 => Sys2Proof.Machine.execVpopc a0 s
  | .viset a0 a1 a2 a3 a4 a5 => Sys2Proof.Machine.execViset a0 a1 a2 a3 a4 a5 s
  | .vfadd a0 => Sys2Proof.Machine.execVfadd a0 s
  | .vfsub a0 => Sys2Proof.Machine.execVfsub a0 s
  | .vfmul a0 => Sys2Proof.Machine.execVfmul a0 s
  | .vffma a0 => Sys2Proof.Machine.execVffma a0 s
  | .vfmin a0 => Sys2Proof.Machine.execVfmin a0 s
  | .vfmax a0 => Sys2Proof.Machine.execVfmax a0 s
  | .vfsgn a0 a1 a2 a3 a4 a5 => Sys2Proof.Machine.execVfsgn a0 a1 a2 a3 a4 a5 s
  | .vfset a0 a1 a2 a3 a4 => Sys2Proof.Machine.execVfset a0 a1 a2 a3 a4 s
  | .vrcp a0 a1 a2 => Sys2Proof.Machine.execVrcp a0 a1 a2 s
  | .vrsq a0 a1 a2 => Sys2Proof.Machine.execVrsq a0 a1 a2 s
  | .vexp2 a0 a1 => Sys2Proof.Machine.execVexp2 a0 a1 s
  | .vlog2 a0 a1 => Sys2Proof.Machine.execVlog2 a0 a1 s
  | .vfclass a0 a1 => Sys2Proof.Machine.execVfclass a0 a1 s
  | .vcvt a0 a1 a2 a3 => Sys2Proof.Machine.execVcvt a0 a1 a2 a3 s
  | .vcvtSeed a0 a1 => Sys2Proof.Machine.execVcvtSeed a0 a1 s
  | .vqpack a0 => Sys2Proof.Machine.execVqpack a0 s
  | .vqunpk a0 => Sys2Proof.Machine.execVqunpk a0 s
  | .vmov a0 a1 a2 => Sys2Proof.Machine.execVmov a0 a1 a2 s
  | .vsel a0 a1 a2 a3 a4 => Sys2Proof.Machine.execVsel a0 a1 a2 a3 a4 s
  | .vlid a0 a1 a2 => Sys2Proof.Machine.execVlid a0 a1 a2 s
  | .vxi a0 a1 => Sys2Proof.Machine.execVxi a0 a1 s
  | .vplog a0 a1 a2 a3 a4 => Sys2Proof.Machine.execVplog a0 a1 a2 a3 a4 s
  | .vppush a0 a1 => Sys2Proof.Machine.execVppush a0 a1 s
  | .vfmt a0 a1 => Sys2Proof.Machine.execVfmt a0 a1 s
  | .vvote a0 a1 a2 a3 a4 => Sys2Proof.Machine.execVvote a0 a1 a2 a3 a4 s
  | .vshfl a0 a1 a2 a3 a4 a5 => Sys2Proof.Machine.execVshfl a0 a1 a2 a3 a4 a5 s
  | .vtred a0 a1 a2 a3 a4 => Sys2Proof.Machine.execVtred a0 a1 a2 a3 a4 s
  | .vtscan a0 a1 a2 a3 a4 a5 => Sys2Proof.Machine.execVtscan a0 a1 a2 a3 a4 a5 s
  | .vld a0 => Sys2Proof.Machine.execVld a0 s
  | .vst a0 => Sys2Proof.Machine.execVst a0 s
  | .vldg a0 => Sys2Proof.Machine.execVldg a0 s
  | .vstg a0 => Sys2Proof.Machine.execVstg a0 s
  | .vldu a0 => Sys2Proof.Machine.execVldu a0 s
  | .vpref a0 a1 a2 => Sys2Proof.Machine.execVpref a0 a1 a2 s
  | .vldq a0 => Sys2Proof.Machine.execVldq a0 s
  | .vstq a0 => Sys2Proof.Machine.execVstq a0 s
  | .vatom a0 => Sys2Proof.Machine.execVatom a0 s
  | .vcas a0 => Sys2Proof.Machine.execVcas a0 s
  | .vred a0 => Sys2Proof.Machine.execVred a0 s
  | .vfence a0 => Sys2Proof.Machine.execVfence a0 s
  | .vbararr a0 a1 a2 a3 a4 a5 => Sys2Proof.Machine.execVbararr a0 a1 a2 a3 a4 a5 s
  | .accessCompletion a0 a1 => Sys2Proof.Machine.execAccessCompletion a0 a1 s
  | .pageWalk a0 => Sys2Proof.Machine.execPageWalk a0 s
  | .l1Sweep a0 a1 => Sys2Proof.Machine.execL1Sweep a0 a1 s
  | .tailMonitorWake a0 => Sys2Proof.Machine.execTailMonitorWake a0 s
  | .submit a0 => Sys2Proof.Machine.execSubmit a0 s
  | .link a0 => Sys2Proof.Machine.execLink a0 s
  | .unlink a0 => Sys2Proof.Machine.execUnlink a0 s
  | .launchResume a0 => Sys2Proof.Machine.execLaunchResume a0 s
  | .launchNop a0 => Sys2Proof.Machine.execLaunchNop a0 s
  | .rcbStateWrite a0 a1 a2 => Sys2Proof.Machine.execRcbStateWrite a0 a1 a2 s
  | .taskPlacement a0 a1 a2 => Sys2Proof.Machine.execTaskPlacement a0 a1 a2 s
  | .edgeIn a0 a1 => Sys2Proof.Machine.execEdgeIn a0 a1 s
  | .edgeOut a0 => Sys2Proof.Machine.execEdgeOut a0 s
  | .quantumExpiry a0 a1 => Sys2Proof.Machine.execQuantumExpiry a0 a1 s
  | .vfFlr a0 => Sys2Proof.Machine.execVfFlr a0 s
  | .vfEnable a0 => Sys2Proof.Machine.execVfEnable a0 s
  | .vfDisable a0 => Sys2Proof.Machine.execVfDisable a0 s
  | .vfXtlen a0 a1 => Sys2Proof.Machine.execVfXtlen a0 a1 s
  | .registerWrite a0 a1 a2 a3 => Sys2Proof.Machine.execRegisterWrite a0 a1 a2 a3 s
  | .powerSample a0 => Sys2Proof.Machine.execPowerSample a0 s
  | .thermalSample a0 a1 => Sys2Proof.Machine.execThermalSample a0 a1 s
  | .setcap a0 => Sys2Proof.Machine.execSetcap a0 s
  | .setprio a0 => Sys2Proof.Machine.execSetprio a0 s
  | .attach a0 a1 a2 => Sys2Proof.Machine.execAttach a0 a1 a2 s
  | .stage a0 => Sys2Proof.Machine.execStage a0 s
  | .spdmRequest a0 => Sys2Proof.Machine.execSpdmRequest a0 s
  | .ingressRequest a0 a1 a2 => Sys2Proof.Machine.execIngressRequest a0 a1 a2 s
  | .flitRetry a0 a1 => Sys2Proof.Machine.execFlitRetry a0 a1 s
  | .drawbarTimeout a0 => Sys2Proof.Machine.execDrawbarTimeout a0 s
  | .hostMemWrite a0 a1 => Sys2Proof.Machine.execHostMemWrite a0 a1 s
  | .hostMemRead a0 a1 => Sys2Proof.Machine.execHostMemRead a0 a1 s
  | .hostSnoop a0 a1 => Sys2Proof.Machine.execHostSnoop a0 a1 s
  | .launchAreaResume a0 => Sys2Proof.Machine.execLaunchAreaResume a0 s
  | .portableTranslation a0 a1 a2 => Sys2Proof.Machine.execPortableTranslation a0 a1 a2 s
  | .holdOffExpiry a0 a1 => Sys2Proof.Machine.execHoldOffExpiry a0 a1 s
  | .mgmtUnknownCode a0 => Sys2Proof.Machine.execMgmtUnknownCode a0 s
  | .nop => Sys2Proof.Machine.execNop s
  | .ret => Sys2Proof.Machine.execRet s
  | .controlEntryEffect => Sys2Proof.Machine.execControlEntryEffect s
  | .endS => Sys2Proof.Machine.execEndS s
  | .replayInstanceExpansion => Sys2Proof.Machine.execReplayInstanceExpansion s
  | .dropSAll => Sys2Proof.Machine.execDropSAll s
  | .mcastOff => Sys2Proof.Machine.execMcastOff s
  | .mcastOn => Sys2Proof.Machine.execMcastOn s
  | .mcastRecv => Sys2Proof.Machine.execMcastRecv s
  | .drain => Sys2Proof.Machine.execDrain s
  | .waitcPoll => Sys2Proof.Machine.execWaitcPoll s
  | .trywTimeout => Sys2Proof.Machine.execTrywTimeout s
  | .mcfgResume => Sys2Proof.Machine.execMcfgResume s
  | .mcfgAbandon => Sys2Proof.Machine.execMcfgAbandon s
  | .kStep => Sys2Proof.Machine.execKStep s
  | .sideStep => Sys2Proof.Machine.execSideStep s
  | .drainRow => Sys2Proof.Machine.execDrainRow s
  | .mwait => Sys2Proof.Machine.execMwait s
  | .mwaitStop => Sys2Proof.Machine.execMwaitStop s
  | .madptOff => Sys2Proof.Machine.execMadptOff s
  | .eend => Sys2Proof.Machine.execEend s
  | .timetableGroup => Sys2Proof.Machine.execTimetableGroup s
  | .spinvAll => Sys2Proof.Machine.execSpinvAll s
  | .twaitpAll => Sys2Proof.Machine.execTwaitpAll s
  | .thint => Sys2Proof.Machine.execThint s
  | .tdone => Sys2Proof.Machine.execTdone s
  | .trapEntry => Sys2Proof.Machine.execTrapEntry s
  | .eret => Sys2Proof.Machine.execEret s
  | .eretSkip => Sys2Proof.Machine.execEretSkip s
  | .eretFlush => Sys2Proof.Machine.execEretFlush s
  | .yield => Sys2Proof.Machine.execYield s
  | .barfl => Sys2Proof.Machine.execBarfl s
  | .sysopHalt => Sys2Proof.Machine.execSysopHalt s
  | .sysopIcsync => Sys2Proof.Machine.execSysopIcsync s
  | .vppop => Sys2Proof.Machine.execVppop s
  | .vppopElse => Sys2Proof.Machine.execVppopElse s
  | .earlyToRunning => Sys2Proof.Machine.execEarlyToRunning s
  | .preempt => Sys2Proof.Machine.execPreempt s
  | .notpresentSave => Sys2Proof.Machine.execNotpresentSave s
  | .restore => Sys2Proof.Machine.execRestore s
  | .watchdog => Sys2Proof.Machine.execWatchdog s
  | .chdrainBound => Sys2Proof.Machine.execChdrainBound s
  | .coldReset => Sys2Proof.Machine.execColdReset s
  | .pf0Flr => Sys2Proof.Machine.execPf0Flr s
  | .mgmtStatus => Sys2Proof.Machine.execMgmtStatus s
  | .counters => Sys2Proof.Machine.execCounters s
  | .voteResultReady => Sys2Proof.Machine.execVoteResultReady s
  | .drawbarMonitorWake => Sys2Proof.Machine.execDrawbarMonitorWake s
  | .ideMacFailure => Sys2Proof.Machine.execIdeMacFailure s

end Sys2Proof.Machine
end

