-- ==== Sys2Proof/Machine/Watch.lean ====
section
/-! DEFINITION. What units do for waiting contexts when a step is over: monitors, vault units and queue units examine their waiters, whatever
the step has written (R30, R176, R177, R235, R274, R317). -/

namespace Sys2Proof.Machine

/-- Whether what a waiting word waits for now holds at its home. A wait whose unit serves it is not asked. -/
def watchMet (s : State) (c : Ctx) : Watch → Bool
  | .served => false
  | .word k n cc b held _ => held && wordMet s c k n cc b
  | .bar k tok => barGet (settle s k 64) k 8 2 ≠ tok
  | .tag o k mask v _ => ringTag s o k &&& mask = v
  | .vote => !c.strm.voteQ.isEmpty
  | .prod k => producersOver s (s.task c.task) k
  | .msg m .. =>
    let a := mcb s m 8 8 + 64 * (mRidx s m % mSlots s m)
    mState s m ≠ 1 || !(smGet MRing.none s.mrings m).checked || unitBad s a 8 ||
    judge (leNat (homeRead s a 8).2) (mRidx s m) (mSlots s m) ≠ .unpublished

/-- A unit serves a context whose condition holds. A monitor and a vault unit hand the value over at once, with the word's acquire action; a
ring is judged again for the context; any other context goes on at its next move, and a TRYW notes that its time was kept. -/
def serveOne (s : State) (cid : Nat) (c : Ctx) : Watch → State
  | .word k n _ _ _ f => serveWord s cid k n f
  | .tag o k _ _ d => wakeWith (acquire s c.cl 3) cid d (BitVec.ofNat 64 (ringTag s o k))
  | .msg _ pop o n => { msgStep { s with cur := cid, curCl := c.cl } pop o n with cur := s.cur, curCl := s.curCl }
  | _ => s.modCtx cid fun c => { c with tryw := c.tryw.map fun t => { t with met := true } }

/-- The unit examines one waiting context; a TRYW whose time is over gets nothing. -/
def serveCtx (s : State) (cid : Nat) : State :=
  let c := s.ctx cid
  match c.watch with
  | some w => if c.st.resident && !c.expired s.mc && watchMet s c w then serveOne s cid c w else s
  | none => s

/-- Every waiter is examined. -/
def serveWatches (s : State) : State :=
  s.peerMons.foldl servePeer ((s.ctxs.filter fun e => e.2.watch.isSome).foldl (fun s e => serveCtx s e.1) s)

end Sys2Proof.Machine
end

