-- ==== Sys2Proof/Machine/Moves.lean ====
section
/-! DEFINITION. The moves that agents may make, the choice among them, and what stands before and after every step (R30, R152, R330, R343,
R345, R347). -/

namespace Sys2Proof.Machine

/-! Choice of a move (log 1, DESIGN CHOICE). -/

/-- Moves of and for a resident context. -/
def ctxMoves (e : Nat × Ctx) : List Move :=
  [.gen e.1, .team e.1, .event e.1 e.2.cl .voteResultReady, .event e.1 e.2.cl .waitcPoll, .event e.1 e.2.cl .trywTimeout,
   .event e.1 e.2.cl .chdrainBound, .event e.1 e.2.cl .watchdog] ++
  (if e.2.st.isEarly then [.event e.1 e.2.cl (.edgeIn e.2.task e.2.cl), .event e.1 e.2.cl .earlyToRunning] else []) ++
  e.2.fills.map fun f => .event e.1 e.2.cl (.accessCompletion e.1 f.1)

/-- Moves of a cluster's engine, epilogue processor and sweep. -/
def clMoves (e : Nat × Cluster) : List Move :=
  (if e.2.epi.on then [.epi e.1] else []) ++
  (if e.2.eng.q.isEmpty then [] else
    [.event 0 e.1 .kStep, .event 0 e.1 .sideStep, .event 0 e.1 .drainRow, .event 0 e.1 .timetableGroup,
     .event 0 e.1 (.engineOpCompletion e.1 false), .event 0 e.1 (.engineOpCompletion e.1 true)]) ++
  e.2.l1.map fun l => .event 0 e.1 (.l1Sweep e.1 l.1)

/-- Moves of a channel that holds copies. -/
def chanMoves (e : Nat × Chan) : List Move :=
  if e.2.q.isEmpty then [] else
    [.event 0 0 (.copyStart (e.1 / 8) (e.1 % 8)), .event 0 0 (.copyBeat (e.1 / 8) (e.1 % 8)), .event 0 0 (.copyCompletion (e.1 / 8) (e.1 % 8))]

/-- Moves of the dispatcher for a tenant's launch area. -/
def areaMoves (t : Nat) : List Move :=
  [.event 0 0 (.tailMonitorWake t), .event 0 0 (.submit t), .event 0 0 (.link t), .event 0 0 (.unlink t),
   .event 0 0 (.launchResume t), .event 0 0 (.launchNop t)]

/-- Moves of the dispatcher for the dormant tasks of a launch: every linear index. -/
def launchMoves (s : State) (e : Nat × Launch) : List Move :=
  if !e.2.submitted then [] else
    ((List.range (launchSize s e.2.tenant e.2.node)).filter fun l => !e.2.placed.contains l && !e.2.gone.contains l).flatMap fun l =>
      [.event 0 0 (.taskPlacement e.2.tenant e.1 l), .event 0 0 (.portableTranslation e.2.tenant e.1 l)]

/-- Moves that agents may make now when the agenda names none. A move whose condition does not hold changes nothing. -/
def openMoves (s : State) : List Move :=
  (s.ctxs.filter fun e => e.2.st.resident).flatMap ctxMoves
  ++ (s.ctxs.filter fun e => e.2.st = .saved).map (fun e => .event e.1 e.2.cl .restore)
  ++ s.cls.flatMap clMoves
  ++ s.chans.flatMap chanMoves
  ++ s.walks.map (fun e => .event 0 0 (.pageWalk e.1))
  ++ s.comps.map (fun e => .event 0 0 (.patternCompile e.1))
  ++ s.subs.map (fun e => .event 0 0 (if e.2.k = .adapt then .subkWarm e.1 else .subsTile e.1))
  ++ (s.tasks.filter fun e => e.2.st = .edgeOut).map (fun e => .event 0 0 (.edgeOut e.1))
  ++ (s.remotes.filter fun r => r.node.isSome).map (fun r => .event 0 0 (.retireNotice r.id))
  ++ (pkgNode :: s.turns.flatMap fun e => [e.1, e.2]).eraseDups.map (fun n => .event 0 0 (.quantumExpiry n 1))
  ++ (s.tenants.filter fun e => e.2.enable).flatMap (fun e => areaMoves e.1)
  ++ s.launches.flatMap (launchMoves s)

/-- Reports that are due reach their fault domains: stores and reductions that a peer refused or whose packets were lost, and errors that a
merge at a home has found (R152, R343, R345). One for a peer's request is the local tenant's, at its root (log 139, DESIGN CHOICE). -/
def sendReports (s : State) : State :=
  s.reports.foldl (fun s r =>
    let c := s.ctx (r / 3)
    let peers := peerActor 0 ≤ r / 3
    let tn := if peers then r / 3 - peerActor 0 else s.tenOf c
    let root := if peers then (s.tenant tn).root else domainRoot s tn (taskPath s c.task)
    let s := vfErr s tn (match r % 3 with | 0 => 6 | 1 => 4 | _ => 5)
    recordFault s tn root (if r % 3 = 2 then fECC else fPERM) c.cl c.slot (s.task c.task).lin c.pc)
    { s with reports := [] }

/-- One step's time passes (log 10, DESIGN CHOICE), after what the last step has left to report and to forget. -/
def tick (s0 : State) : State :=
  let s := clearDefs (if s0.reports.isEmpty then s0 else sendReports s0)
  { s with ticks := s.ticks + 1, mc := s.mc + Config.stepMc s.ticks, us := s.us + Config.stepUs s.ticks }

/-- The move of this step: the head of the agenda, or a free choice. -/
def takeMove (s : State) : Option Move × State :=
  match s.agenda with
  | m :: r => (some m, { s with agenda := r })
  | [] => let ms := openMoves s; (ms[Config.sched s.ticks % ms.length]?, s)

/-- The state in which a move acts: its context and cluster. -/
def aim (s : State) : Move → State
  | .gen cid | .team cid => { s with cur := cid, curCl := (s.ctx cid).cl }
  | .epi cl => { s with curCl := cl, cur := (s.epi cl).cid }
  | .event cid cl _ => { s with cur := cid, curCl := cl }

/-- What the move executes: the state before it, and its instruction if it has one. -/
def moveNext (s : State) : Move → State × Option Instr
  | .gen _ => genNext s
  | .team _ => teamNext s
  | .epi _ => (s, epiNext s)
  | .event _ _ i => (s, some i)

/-! After a step. -/

/-- Soft errors arise in memory, in vaults and in the host lines that L2 holds, and the package corrects others and counts them (R347). -/
def strike (s : State) : State :=
  let a := Config.corrected s.ticks 0
  let b := Config.corrected s.ticks 1
  { s with ecc := s.ecc ++ (Config.upsets s.ticks).filter fun k => isDevice k || isVault k || (isHost k && (smFind s.part (k / 64)).isSome),
           pf := { s.pf with eccCor := min (2 ^ 32 - 1) (s.pf.eccCor + a + b), dieEcc := [s.pf.dieEcc.getD 0 0 + a, s.pf.dieEcc.getD 1 0 + b] } }

/-- What ends every step: waiters are examined, and soft errors arise. -/
def settleStep (s : State) : State := strike (serveWatches s)

end Sys2Proof.Machine
end

