-- ==== Sys2Proof/Machine/Pick.lean ====
section
/-! DEFINITION. Whose turn a move is: the issue ports of a generator and the passes of a slice serve ready contexts in their own order
(R30, R81, R336), and copies claim the slots of one ring in the order of their channels (R232). -/

namespace Sys2Proof.Machine

/-- A context's move does something for it: its next word, or its team's next pass, is ready. -/
def issues (s : State) (m : Move) (cid : Nat) : Bool :=
  match moveNext (aim s m) m with
  | (t, none) => decide (t.ctx cid ≠ s.ctx cid)
  | (t, some i) =>
    match exec i t with
    | .next u => decide (u.ctx cid ≠ s.ctx cid)
    | _ => true

def isWaiting : CState → Bool
  | .waiting _ => true
  | _ => false

/-! Slices (R336). -/

/-- Other resident contexts with a team on the same slice. -/
def sliceRivals (s : State) (cid : Nat) : List Nat :=
  let c := s.ctx cid
  (s.ctxs.filter fun e => e.1 ≠ cid && e.2.st.resident && e.2.cl = c.cl && e.2.slice = c.slice).map (·.1)

/-- A team's next move issues a word, which its slice arbitrates; an entry's effect and an instance's presentation are no passes. -/
def passReady (s : State) (cid : Nat) : Bool := (headUnit (s.ctx cid)).isSome && issues s (.team cid) cid

/-- Passes that the word at a team's head takes (R38, R101, R116). -/
def headPasses (s : State) (cid : Nat) : Nat :=
  let c := s.ctx cid
  (((headUnit c).bind decodeUnit).map fun i => (srcPasses c.team i).length).getD 1

/-- The head word of a narrow team may share a pass (R117). -/
def packs (c : Ctx) : Bool :=
  let w := ((headUnit c).getD []).find? fun w => !isPrefixWord w
  decide (c.team.w < 32) && w.any fun w => (LWord.ofWord w).u = 0#1 &&
    (let op := (wOp w).toNat
     (op ≤ 0x46 && op ≠ 0x41 && op ≠ 0x42) || (0x60 ≤ op && op ≤ 0x63))

/-- Team a's head is older than team b's; ties go to the lower context. -/
def older (s : State) (a b : Nat) : Bool :=
  let x := s.ctx a
  let y := s.ctx b
  if x.strm.headBorn ≠ y.strm.headBorn then decide (x.strm.headBorn < y.strm.headBorn) else decide (x.slot < y.slot)

/-- The rivals of a team on its slice that are ready with it. -/
def teamRivals (s : State) (cid : Nat) : List Nat :=
  match sliceRivals s cid with
  | [] => []
  | rs => if passReady s cid then rs.filter (passReady s) else []

/-- The team that issues when a team's move comes: of those ready on its slice the oldest, unless its word would take a team past 64
consecutive passes; then the one passed over longest. -/
def pickTeam (s : State) (cid : Nat) : Nat :=
  let ks := teamRivals s cid
  let o := ks.foldl (fun b k => if older s k b then k else b) cid
  match (cid :: ks).filter fun k => k ≠ o && 64 < (s.ctx k).strm.passed + headPasses s o with
  | [] => o
  | l :: ls => ls.foldl (fun b k => if (s.ctx b).strm.passed < (s.ctx k).strm.passed then k else b) l

/-- The teams that share a pass with the first of a list: in its order, those whose words pack and whose quarters are free (R117). -/
def packedWith (s : State) : List Nat → List Nat → List Nat
  | taken, [] => taken
  | taken, k :: ks =>
    let free := (s.ctx k).quarters.all fun q => !taken.any fun t => (s.ctx t).quarters.contains q
    packedWith s (if packs (s.ctx k) && free then taken ++ [k] else taken) ks

/-- Rivals in the order in which the slice takes them. -/
def byAge (s : State) (ks : List Nat) : List Nat :=
  ks.foldl (fun acc k => acc.takeWhile (older s · k) ++ k :: acc.dropWhile (older s · k)) []

/-- A word of team cid has issued: the ready teams of its slice count its passes, but for those that share the pass, and the others begin
again. A step that issues no word is no pass. A team's step is all the passes of its word (log 128, DESIGN CHOICE). -/
def notePass (s : State) (rivals : List Nat) (cid : Nat) (t : State) : State :=
  match sliceRivals s cid with
  | [] => t
  | rs =>
    if !passReady s cid then t
    else
      let n := headPasses s cid
      let issued := if packs (s.ctx cid) then packedWith s [cid] (byAge s rivals) else [cid]
      (cid :: rs).foldl (fun t k => t.modCtx k fun c =>
        { c with strm := { c.strm with passed := if rivals.contains k && !issued.contains k then c.strm.passed + n else 0 } }) t

/-! Generators (R81). -/

/-- The port that a generator's move uses; which of the two is free. -/
def portKey (s : State) (cid : Nat) : Nat := 2 * (s.ctx cid).cl + Config.genPort s.ticks % 2
def otherPort (k : Nat) : Nat := if k % 2 = 0 then k + 1 else k - 1

/-- Contexts of the cluster that are ready, by slot. -/
def readyGens (s : State) (cid : Nat) : List Nat :=
  ((List.range 8).flatMap fun n => s.ctxs.filter fun e => e.2.slot = n && e.2.cl = (s.ctx cid).cl && e.2.st.resident && !isWaiting e.2.st).map
    (·.1) |>.filter fun k => issues s (.gen k) k

/-- The port may take context k: the other port has not taken it in this mc. -/
def portFree (s : State) (p k : Nat) : Bool :=
  match smFind s.ports (otherPort p) with
  | some (n, mc) => !(n = (s.ctx k).slot && mc = s.mc)
  | none => true

/-- Other resident contexts of the cluster. -/
def genRivals (s : State) (cid : Nat) : List Nat :=
  (s.ctxs.filter fun e => e.1 ≠ cid && e.2.st.resident && e.2.cl = (s.ctx cid).cl).map (·.1)

/-- The context that issues when a context's move comes: the next ready one after the one that the port served last. -/
def pickGen (s : State) (cid : Nat) : Nat :=
  if (genRivals s cid).isEmpty || isWaiting (s.ctx cid).st || !issues s (.gen cid) cid then cid
  else
    let p := portKey s cid
    let last := (smGet (7, 0) s.ports p).1
    let ks := (readyGens s cid).filter (portFree s p)
    match ks.find? fun k => last < (s.ctx k).slot, ks with
    | some k, _ => k
    | none, k :: _ => k
    | none, [] => cid

/-- The port has served a context in this mc. -/
def notePort (s : State) (cid : Nat) (t : State) : State :=
  { t with ports := if (genRivals s cid).isEmpty then t.ports else smSet t.ports (portKey s cid) ((s.ctx cid).slot, s.mc) }

/-! Copy channels (R232). -/

/-- The ring of which a channel's head has yet to claim a slot. -/
def startsOn (s : State) (key : Nat) : Option Nat :=
  match liveHead s key with
  | some c => if !c.started && c.slot.isNone then c.ring else none
  | none => none

/-- The channel that starts its copy when a channel's start comes: the lowest of those that claim a slot of the same ring. -/
def pickChan (s : State) (cl ch : Nat) : Nat :=
  match startsOn s (8 * cl + ch) with
  | none => ch
  | some o => ((List.range ch).find? fun k => startsOn s (8 * cl + k) = some o).getD ch

/-! Arbitration. -/

/-- The move that is made in place of the one that was chosen. -/
def arbitrate (s : State) : Move → Move
  | .gen cid => .gen (pickGen s cid)
  | .team cid => .team (pickTeam s cid)
  | .event v r (.copyStart cl ch) => .event v r (.copyStart cl (pickChan s cl ch))
  | m => m

/-- What arbitration keeps of a move that has been made. -/
def noteMove (s : State) (m : Move) (t : State) : State :=
  match m with
  | .gen cid => notePort s cid t
  | .team cid => notePass s (teamRivals s cid) cid t
  | _ => t

end Sys2Proof.Machine
end

