-- ==== Sys2Proof/Machine/Step.lean ====
section
/-! DEFINITION. One step of the package, and where a single instruction is placed for it. -/

namespace Sys2Proof.Machine

/-- One step: an access beyond the memory stops the machine (log 14, DESIGN CHOICE); else time passes, one agent makes its move, and the
units examine their waiters. -/
def step (s : State) : Host.Outcome State Fault Refusal :=
  match s.hole with
  | some pa => .fault (.noDevice pa)
  | none =>
    match takeMove (tick s) with
    | (none, s1) => .next (settleStep s1)
    | (some m0, s1) =>
      let m := arbitrate s1 m0
      match moveNext (aim s1 m) m with
      | (s2, none) => .next (settleStep s2)
      | (s2, some i) =>
        match exec i s2 with
        | .next t => .next (settleStep (noteMove s1 m t))
        | o => o

/-- A context whose code page maps RID 1 at physical address 0, with its program counter at offset 0x1000. -/
def bareCtx : Ctx :=
  { Ctx.none with st := .running, pc := 0x0100000000001000, bounds := [(0, 0x1F00000000400#128)],
                  team := { Team.none with vl := 64, act := 2 ^ 32 - 1 } }

/-- The state with an instruction placed where the next step takes it. A 32-bit word is a micro-instruction of cluster 0's epilogue
processor; a lane word that makes a unit stands at the head of the stream of a context that the next step's team serves, with its second
word; any other word stands in the code of a context whose generator the next step serves (log 15, DESIGN CHOICE). The context is the one that
its slice and its generator's ports serve next. -/
def State.withFetchWord (s : State) (nbits w : Nat) : State :=
  if nbits ≤ 32 then
    { s.setEpi 0 { s.epi 0 with on := true, prog := [BitVec.ofNat 32 w], pcw := 0 } with agenda := [.epi 0], hole := none }
  else
    let w0 := BitVec.ofNat 64 w
    let ws := if takesSecond w0 then [w0, BitVec.ofNat 64 (w / 2 ^ 64)] else [w0]
    match (if isLaneClass w0 then checkUnit (fun _ => 0#64) ws else .error .prefixMisuse) with
    | .ok (_, us) =>
      { s.setCtx 0 { bareCtx with strm := { Strm.none with ents := [.lane 0 us], passed := (s.ctxs.map (·.2.strm.passed)).foldl max 64 + 1 } } with agenda := [.team 0], hole := none, redq := [], ecc := [] }
    | .error _ =>
      let s := s.setCtx 0 bareCtx
      let s := s.modCl 0 fun c => { c with tc := [⟨0, 0, 0, 0, 0, 0⟩], icache := [] }
      { s with mem := memSetList s.mem 0x1000 (leBytes 48 w), agenda := [.gen 0], hole := none, redq := [], ecc := [],
               ports := smSet (smSet s.ports 0 (7, 0)) 1 (7, 0) }

end Sys2Proof.Machine
end

