-- ==== Sys2Proof/Safety.lean ====
section
/-! DEFINITION. The terms in which claims are stated: the invariant of a run, what ends a word, what a trap leaves, what a store leaves. -/

namespace Sys2Proof.Machine

/-- The numbers that a chapter assigns to a CSR (R86, R202, R225, R245, R270, R302). -/
def csrNumber (n : Nat) : Bool :=
  n ≤ 0x006 || n = 0x008 || n = 0x009 || (0x010 ≤ n && n ≤ 0x012) || n = 0x018 || n = 0x019 || (0x020 ≤ n && n ≤ 0x024) || n = 0x030
  || (0x100 ≤ n && n ≤ 0x102) || (0x104 ≤ n && n ≤ 0x111) || (0x200 ≤ n && n ≤ 0x203) || (0x300 ≤ n && n ≤ 0x320)
  || (0x400 ≤ n && n ≤ 0x404) || n = 0x408 || n = 0x409 || (0x410 ≤ n && n ≤ 0x42F) || (0x500 ≤ n && n ≤ 0x504)

/-- Only the record of the executing context differs. -/
def OnlyMe (s t : State) : Prop := t = { s with ctxs := t.ctxs } ∧ ∀ k, k ≠ s.cur → t.ctx k = s.ctx k

/-- The executing context has ended an instruction of n words that writes v to d (g0 discards it): the PC is past it, a wait is over,
DBG.CTL.SKIP1 is clear (R300), and nothing else differs: no other register, lane row, CSR, memory byte or unit. -/
def Ends (s t : State) (n : Nat) (d : GReg) (v : W64) : Prop :=
  OnlyMe s t ∧ t.me = { s.me.past s.us n with g := t.me.g }
  ∧ ∀ r, t.reg r = if r = d ∧ d ≠ 0#5 then v else s.reg r

/-- As Ends, but for the PC, which is p. -/
def Jumps (s t : State) (p : W64) (d : GReg) (v : W64) : Prop :=
  OnlyMe s t ∧ t.me = { s.me with pc := p, dbg := { s.me.dbg with skip1 := false }, g := t.me.g } ∧ ∀ r, t.reg r = if r = d ∧ d ≠ 0#5 then v else s.reg r

/-- The context waits (R27): it leaves RUNNING or RESIDENT-EARLY, or waits on, for what w says; SKIP1 is clear. -/
def Ctx.waits (c : Ctx) (us : Nat) (w : Watch) : Ctx :=
  { c.counted us with st := (match c.st with | .running => .waiting false | .early => .waiting true | x => x), watch := some w,
                      dbg := { c.dbg with skip1 := false } }

/-- A lane word with one destination register has issued: the head unit has left the stream, lane l of the destination holds v l in every
lane that the guard lets the word write (every lane, with lane 0's value, when the word is uniform), and no other row element, register,
flag or byte differs. -/
def LaneEnds (s t : State) (g : Guard) (d : VReg) (v : Nat → W32) : Prop :=
  t = { popHead s with rows := t.rows }
  ∧ (∀ l ∈ s.me.team.dests g, t.lane s.me (regNo s.me.team d) l = v (if g.u then 0 else l))
  ∧ ∀ k, (∀ l ∈ s.me.team.dests g, k ≠ s.me.laneKey (regNo s.me.team d) l) → smGet 0#32 t.rows k = smGet 0#32 s.rows k

/-- A lane word that writes predicate pd has issued: its bit is v l in the lanes that the guard lets it write (p0 discards it), and nothing
else differs. -/
def PredEnds (s t : State) (g : Guard) (pd : Nat) (v : Nat → Bool) : Prop :=
  OnlyMe (popHead s) t ∧ t.me = { (popHead s).me with team := { s.me.team with preds := t.me.team.preds } }
  ∧ ∀ k l, t.me.team.pred k l =
      if k = pd ∧ pd ≠ 0 ∧ l ∈ s.me.team.dests g then v (if g.u then 0 else l) else s.me.team.pred k l

/-- A word that changes the lane-side state of the team alone has issued. -/
def TeamEnds (s t : State) (team : Team) : Prop :=
  OnlyMe (popHead s) t ∧ t.me = { (popHead s).me with team := team }

/-- The executing context has taken a trap to its handler (R276): the saved registers, level 1, INTRAP, and the PC at CTX.TRAPVEC. Its g
registers, its team, every other context, memory but for the WAITCL bit of a barrier it waited on, and lane rows are as before. -/
def Trapped (s t : State) (reason info epc : W64) : Prop :=
  t.me.pc = s.me.trap.vec ∧ t.me.trap.epc = epc ∧ t.me.trap.reason = reason ∧ t.me.trap.info = info
  ∧ t.me.trap.pl = true ∧ t.me.trap.intrap = true ∧ t.me.trap.vec = s.me.trap.vec
  ∧ t.me.g = s.me.g ∧ t.me.team = s.me.team ∧ (∀ k, k ≠ s.cur → t.ctx k = s.ctx k)
  ∧ t.mem = (clearWaitcl s s.cur).mem ∧ t.cls = s.cls ∧ t.rows = s.rows ∧ t.empt = s.empt

/-- The context has a handler that may be entered. -/
def canTrap (s : State) : Prop := s.me.trap.vec ≠ 0#64 ∧ s.me.trap.intrap = false

/-- What memory holds at a key for the agents of a cluster while no reduction waits at a home: a byte that the cluster's L1 has written and
not yet sent home, else the home's byte. -/
def byteAt (s : State) (cl k : Nat) : Byte :=
  match (if isCached k then smFind (s.cl cl).l1 (k / 64) else none) with
  | some l => if bitOf l.dirty (k % 64) then smGet 0 l.data (k % 64) else memGet s.mem k
  | none => memGet s.mem k

/-- Every byte but those at the keys ks reads as before, for the agents of a cluster. -/
def KeepsBytes (s t : State) (cl : Nat) (ks : List Nat) : Prop := ∀ k, k < 2 ^ 62 → k ∉ ks → byteAt t cl k = byteAt s cl k

/-- L1 lists its lines in order, and holds lines of device and host memory only (R143, R144). -/
def linesOk (m : SMap L1Line) : Bool := smSortedFrom 0 m && m.all fun e => decide (e.1 < 2 ^ 43)

/-- The invariant of a run: memory is in its canonical form, and every L1 is in order. -/
def State.Inv (s : State) : Prop := memWf s.mem = true ∧ ∀ e ∈ s.cls, linesOk e.2.l1 = true

/-- No reduction waits at a home (R65). -/
def NoneWaits (s : State) : Prop := s.redq = []

/-- Only memory, what stands in front of it and the record of the executing context differ: L1, errors and their count, pending reductions,
barrier caches, the host's and the partition's lines, timetables over written bytes, what peers hold and refused, the packets' numbers, and
the order in which translations have been used. -/
def OnlyMemory (s t : State) : Prop :=
  t = { s with ctxs := t.ctxs, mem := t.mem, ecc := t.ecc, redq := t.redq, cls := t.cls, part := t.part, ttdir := t.ttdir,
               comps := t.comps, filter := t.filter, freeCtr := t.freeCtr, reports := t.reports, peerMem := t.peerMem, peerRed := t.peerRed, seqs := t.seqs,
               pf := { s.pf with eccUnc := t.pf.eccUnc } }
  ∧ (∀ k, t.eng k = s.eng k ∧ t.epi k = s.epi k ∧ (∀ e, e ∈ (t.cl k).tc ↔ e ∈ (s.cl k).tc) ∧ (t.cl k).locks = (s.cl k).locks
        ∧ (t.cl k).kskip = (s.cl k).kskip)
  ∧ ∀ k, k ≠ s.cur → t.ctx k = s.ctx k

/-- An access has ended its word, which writes v to d: as Ends, but that memory may differ. -/
def MemEnds (s t : State) (d : GReg) (v : W64) : Prop :=
  OnlyMemory s t ∧ t.me = { s.me.past s.us 1 with g := t.me.g }
  ∧ ∀ r, t.reg r = if r = d ∧ d ≠ 0#5 then v else s.reg r

/-- The executing context's record alone differs, and is c. -/
def MeIs (s t : State) (c : Ctx) : Prop := OnlyMe s t ∧ t.me = c

end Sys2Proof.Machine
end

