-- ==== Sys2Proof/Certificates/Slice0/Obligations.lean ====
section
/-! DEFINITION. The statements for the provers, from the numbered rules of the spec. -/

open Sys2Proof Sys2Proof.Machine

/-! Generator arithmetic and control transfer. -/

/-- R89: each integer instruction other than the divisions writes the value of its row of the table to gd, its second source being gb or the
sign-extended immediate; nothing else changes. R89: a shift uses the low six bits of its second source; CLZ counts the zeros above the
highest one, 64 of them in zero, and POPC the ones. NOP writes nothing. -/
def Obligations.IntegerInstructionsWriteTheTableValue : Prop :=
  (
  ∀ (s : State) (d a : GReg) (b : GSrc),
    let x := s.reg a
    let y : W64 := match b with | .reg r => s.reg r | .imm v => v.signExtend 64
    ∀ p ∈ ([(.add d a b, x + y), (.sub d a b, x - y), (.mul d a b, BitVec.ofNat 64 (x.toNat * y.toNat)),
        (.mulh d a b, BitVec.ofInt 64 (x.toInt * y.toInt / 2 ^ 64)), (.mulhn d a b, BitVec.ofNat 64 (x.toNat * y.toNat / 2 ^ 64)),
        (.and d a b, x &&& y), (.or d a b, x ||| y), (.xor d a b, x ^^^ y),
        (.min d a b, if x.toInt ≤ y.toInt then x else y), (.max d a b, if x.toInt ≤ y.toInt then y else x),
        (.minn d a b, if x.toNat ≤ y.toNat then x else y), (.maxn d a b, if x.toNat ≤ y.toNat then y else x),
        (.seq d a b, if x = y then 1#64 else 0#64), (.slt d a b, if x.toInt < y.toInt then 1#64 else 0#64),
        (.sltn d a b, if x.toNat < y.toNat then 1#64 else 0#64), (.sel d a b, if s.reg d = 0#64 then y else x)] : List (Instr × W64)),
      ∃ t, exec p.1 s = .next t ∧ Ends s t 1 d p.2)
  ∧ (
  ∀ (s : State) (d a : GReg) (b : GSrc),
    let x := s.reg a
    let n := (match b with | .reg r => s.reg r | .imm v => v.signExtend 64 : W64).toNat % 64
    (∃ t, exec (.shl d a b) s = .next t ∧ Ends s t 1 d (BitVec.ofNat 64 (x.toNat * 2 ^ n)))
    ∧ (∃ t, exec (.shr d a b) s = .next t ∧ Ends s t 1 d (BitVec.ofNat 64 (x.toNat / 2 ^ n)))
    ∧ (∃ t, exec (.sar d a b) s = .next t ∧ Ends s t 1 d (BitVec.ofInt 64 (x.toInt / 2 ^ n)))
    ∧ (∃ t v, exec (.clz d a) s = .next t ∧ Ends s t 1 d (BitVec.ofNat 64 v) ∧ v ≤ 64
        ∧ (∀ k, k < 64 → 64 - v ≤ k → x.getLsbD k = false) ∧ (v < 64 → x.getLsbD (63 - v) = true))
    ∧ (∃ t, exec (.popc d a) s = .next t ∧ Ends s t 1 d (BitVec.ofNat 64 ((List.range 64).countP fun k => x.getLsbD k)))
    ∧ ∃ t, exec .nop s = .next t ∧ Ends s t 1 0#5 0#64)

/-- R90: division truncates towards zero, a remainder takes the sign of its dividend, and no division raises a fault; a zero divisor gives -1,
or 2^64 - 1, and the most negative number divided by -1 is itself with remainder 0. The two encodings of the rule decode. -/
def Obligations.DivisionTruncatesAndNeverFaults : Prop :=
  (∀ (s : State) (d a : GReg) (b : GSrc),
    let x := s.reg a
    let y : W64 := match b with | .reg r => s.reg r | .imm v => v.signExtend 64
    (y = 0#64 → ∀ i ∈ [Instr.div d a b, .rem d a b, .divn d a b, .remn d a b],
        ∃ t, exec i s = .next t ∧ Ends s t 1 d 0xFFFFFFFFFFFFFFFF#64)
    ∧ (x = 0x8000000000000000#64 ∧ y = 0xFFFFFFFFFFFFFFFF#64 →
        (∃ t, exec (.div d a b) s = .next t ∧ Ends s t 1 d 0x8000000000000000#64) ∧ ∃ t, exec (.rem d a b) s = .next t ∧ Ends s t 1 d 0#64)
    ∧ (y ≠ 0#64 → ¬(x = 0x8000000000000000#64 ∧ y = 0xFFFFFFFFFFFFFFFF#64) →
        ∃ q : Int, q = x.toInt.tdiv y.toInt ∧ -2 ^ 63 ≤ q ∧ q < 2 ^ 63
          ∧ (∃ t, exec (.div d a b) s = .next t ∧ Ends s t 1 d (BitVec.ofInt 64 q))
          ∧ ∃ t, exec (.rem d a b) s = .next t ∧ Ends s t 1 d (BitVec.ofInt 64 (x.toInt - q * y.toInt)))
    ∧ (y ≠ 0#64 → (∃ t, exec (.divn d a b) s = .next t ∧ Ends s t 1 d (BitVec.ofNat 64 (x.toNat / y.toNat)))
        ∧ ∃ t, exec (.remn d a b) s = .next t ∧ Ends s t 1 d (BitVec.ofNat 64 (x.toNat - x.toNat / y.toNat * y.toNat))))
  ∧ decodeG (GWord.ofWord 0x0100C60400000008#64) 0#64 = some (.add 6#5 6#5 (.imm 8#34))
  ∧ decodeG (GWord.ofWord 0x1800653800000000#64) 0#64 = some (.sltn 3#5 5#5 (.reg 7#5))

/-- R91: the first word of LI uses gd alone, every other field being zero; its second word is taken whole, and is what gd receives. -/
def Obligations.LoadImmediateTakesItsSecondWordWhole : Prop :=
  (∀ (g : GWord) (w2 : W64), g.maj = 0x1A#7 →
    decodeG g w2 = if g.min = 0#6 ∧ g.ga = 0#5 ∧ g.gb = 0#5 ∧ g.i = 0#1 ∧ g.imm = 0#34 then some (.li g.gd w2) else none)
  ∧ (∀ (s : State) (d : GReg) (v : W64), ∃ t, exec (.li d v) s = .next t ∧ Ends s t 2 d v)
  ∧ decodeG (GWord.ofWord 0x1A01200000000000#64) 0xFE0000003FC00100#64 = some (.li 9#5 0xFE0000003FC00100#64)

/-- R97 (with R96's target, P + 8 x imm34): where a taken transfer goes, what CALL, JR and LOOP write, and that an untaken one falls through. JR
reads ga before it writes gd. The encodings of the rule decode, and a LOOP on g0 and a reserved condition do not. R96: a transfer whose
target is off a word boundary raises ALIGN at itself: CTX.EPC holds its address, CTX.TRAPINFO the target, and no register is written. RET,
JR, and the transfers relative to a misaligned PC. -/
def Obligations.ControlTransfersGoToTheirTargets : Prop :=
  (
  (∀ (s : State) (off : BitVec 34) (d a b : GReg) (cc : BCond),
    let p := s.me.pc
    let tgt := p + 8#64 * off.signExtend 64
    let cond := match cc with
      | .eq => s.reg a = s.reg b | .ne => s.reg a ≠ s.reg b
      | .lt => (s.reg a).toInt < (s.reg b).toInt | .ge => (s.reg b).toInt ≤ (s.reg a).toInt
      | .ltn => (s.reg a).toNat < (s.reg b).toNat | .gen => (s.reg b).toNat ≤ (s.reg a).toNat
    (p.toNat % 8 = 0 →
      (∃ t, exec (.b off) s = .next t ∧ Jumps s t tgt 0#5 0#64)
      ∧ (cond → ∃ t, exec (.bc cc a b off) s = .next t ∧ Jumps s t tgt 0#5 0#64)
      ∧ (∃ t, exec (.call off) s = .next t ∧ Jumps s t tgt 31#5 (p + 8#64))
      ∧ (s.reg d ≠ 1#64 → d ≠ 0#5 → ∃ t, exec (.loop d off) s = .next t ∧ Jumps s t tgt d (s.reg d - 1#64)))
    ∧ (¬cond → ∃ t, exec (.bc cc a b off) s = .next t ∧ Ends s t 1 0#5 0#64)
    ∧ (s.reg d = 1#64 → ∃ t, exec (.loop d off) s = .next t ∧ Ends s t 1 d 0#64)
    ∧ ((s.reg 31#5).toNat % 8 = 0 → ∃ t, exec .ret s = .next t ∧ Jumps s t (s.reg 31#5) 0#5 0#64)
    ∧ ((s.reg a).toNat % 8 = 0 → ∃ t, exec (.jr d a) s = .next t ∧ Jumps s t (s.reg a) d (p + 8#64)))
  ∧ decodeG (GWord.ofWord 0x29080503FFFFFFFD#64) 0#64 = some (.bc .lt 5#5 0#5 (-3#34))
  ∧ decodeG (GWord.ofWord 0x2D00A003FFFFFFFC#64) 0#64 = some (.loop 5#5 (-4#34))
  ∧ (∀ g : GWord, g.maj = 0x2D#7 → g.gd = 0#5 → decodeG g 0#64 = none)
  ∧ ∀ g : GWord, g.maj = 0x29#7 → 6 ≤ g.min.toNat → decodeG g 0#64 = none)
  ∧ (
  ∀ (s : State) (d a b : GReg) (cc : BCond) (off : BitVec 34), canTrap s →
    let tgt := s.me.pc + 8#64 * off.signExtend 64
    ((s.reg 31#5).toNat % 8 ≠ 0 → ∃ t, exec .ret s = .next t ∧ Trapped s t 0x0A#64 (s.reg 31#5) s.me.pc)
    ∧ ((s.reg a).toNat % 8 ≠ 0 → ∃ t, exec (.jr d a) s = .next t ∧ Trapped s t 0x0A#64 (s.reg a) s.me.pc)
    ∧ (tgt.toNat % 8 ≠ 0 →
        (∀ i ∈ [Instr.b off, .call off], ∃ t, exec i s = .next t ∧ Trapped s t 0x0A#64 tgt s.me.pc)
        ∧ (bcHolds cc (s.reg a) (s.reg b) = true → ∃ t, exec (.bc cc a b off) s = .next t ∧ Trapped s t 0x0A#64 tgt s.me.pc)
        ∧ (s.reg d ≠ 1#64 → ∃ t, exec (.loop d off) s = .next t ∧ Trapped s t 0x0A#64 tgt s.me.pc)))

/-- R85, R86, R202, R225, R245, R302, R270: what CSRR of every assigned CSR writes to gd, nothing else changing; reserved fields read zero (R4).
The engine's CSRs are those of the task that has it, at their reset values in any other (log 12). CTX.FMT, CTX.VB and CTX.VL need a stream
that holds nothing; until then a CSRR of them leaves the state as it is. A DBG.BPA of KIND 0 reads with bits 2:0 zero (log 146). Every
unassigned number raises ILLEGAL with the PC's address. CTX.ISAVER is 0x0302 in every context (log 60). R88 over every writable CSR of R86,
R225, R302 and R270: CSRW writes ga, .SET ors it in and .CLR clears its ones; .SET and .CLR bring the old value to gd; fields that are
reserved or read only keep their value, or read zero where the layout that the KIND of a stream tag gives has them reserved (logs 123, 146);
the register read back has the new value. SKIP1 of DBG.CTL is clear but where the word writes it (R300), and a DBG.BPA is read by the KIND
of its DBG.BPC; every other CSR of the context, its g registers but gd, its team and every other context are as before. The write level P
needs level 1, and CTX.TRAPVEC takes word addresses only. -/
def Obligations.CsrsAreReadAndWrittenByTheirTable : Prop :=
  (
  ∀ (s : State) (d : GReg),
    let c := s.me
    let t := s.task c.task
    let bit (b : Bool) (k : Nat) : Nat := if b then 2 ^ k else 0
    let e := if (s.eng c.cl).owner = some c.task then s.eng c.cl else Eng.reset
    let ad := e.ad.getD OpDesc.zero
    let tag (kind1 : Bool) : W64 := if kind1 then 0x0000FFFFFFFFFFFF#64 else 0xFFFFFFFFFFFFFFFF#64
    let gives (n : Nat) (v : W64) : Prop := ∃ t, exec (.csrr d (BitVec.ofNat 12 n)) s = .next t ∧ Ends s t 1 d v
    (∀ p ∈ ([(0x000, 0x0302#64), (0x001, BitVec.ofNat 64 c.cl),
        (0x002, BitVec.ofNat 64 (c.slot + 2 ^ 4 * c.slice + 2 ^ 8 * c.gpos + 2 ^ 12 * (c.gsize - 1))),
        (0x003, BitVec.ofNat 64 (bit c.trap.pl 0 + bit c.trap.dbgatt 1 + bit c.trap.intrap 2)), (0x004, t.r.arg),
        (0x005, BitVec.ofNat 64 s.mc), (0x006, BitVec.ofNat 64 c.team.w), (0x008, BitVec.ofNat 64 (t.x + 2 ^ 32 * t.y)),
        (0x009, BitVec.ofNat 64 (t.z + 2 ^ 32 * t.lin)), (0x018, c.trap.scratch0), (0x019, c.trap.scratch1), (0x020, c.trap.vec),
        (0x021, c.trap.epc), (0x022, c.trap.reason), (0x023, c.trap.info), (0x024, c.trap.stag &&& tag (c.trap.stag.extractLsb' 0 3 = 1#3)),
        (0x030, c.trap.brkskip),
        (0x100, BitVec.ofNat 64 (e.rp.row + bit e.rp.side 6 + 2 ^ 8 * e.rp.sidx + 2 ^ 32 * e.rp.step)),
        (0x101, BitVec.ofNat 64 (bit (!e.q.isEmpty) 0 + bit e.faulted 1 + bit e.stopped 2 + bit e.adpend 3
          + 2 ^ 4 * (if e.adpend then e.adtile else 0) + 2 ^ 8 * (if e.faulted then e.fcode else 0) + 2 ^ 16 * e.q.length)),
        (0x102, e.faddr), (0x104, e.opa.base), (0x105, e.opa.q1), (0x106, e.opa.q2), (0x107, e.opa.q3), (0x108, e.opb.base), (0x109, e.opb.q1),
        (0x10A, e.opb.q2), (0x10B, e.opb.q3), (0x10C, ad.base), (0x10D, ad.q1), (0x10E, ad.q2), (0x10F, ad.q3), (0x110, e.prog),
        (0x111, e.param), (0x200, BitVec.ofNat 64 (s.tenant t.tenant).thresh), (0x201, c.bgerr), (0x202, c.lookups), (0x203, c.misses),
        (0x320, BitVec.ofNat 64 (smGet 0 (s.cl c.cl).kskip c.task)),
        (0x400, c.trap.savevec), (0x401, c.trap.restvec), (0x402, 0xFD00000001000000#64), (0x403, c.trap.wdog),
        (0x404, BitVec.ofNat 64 (bit (c.trap.preempt.isSome && c.trap.intrap) 0 + bit c.trap.laneF.isSome 1 + bit c.trap.engF 2
          + bit (!c.trap.copyF.isEmpty) 3 + bit (c.dbg.pend.isSome && c.trap.intrap) 4)),
        (0x408, BitVec.ofNat 64 (bit c.dbg.brkhalt 0 + bit c.dbg.skip1 1 + bit c.dbg.halted 2 + bit c.dbg.hard 3)), (0x409, c.dbg.reason),
        (0x500, c.hold.getD 0 0#64), (0x501, c.hold.getD 1 0#64), (0x502, c.hold.getD 2 0#64), (0x503, c.hold.getD 3 0#64),
        (0x504, c.hold.getD 4 0#64)] : List (Nat × W64)), gives p.1 p.2)
    ∧ (∀ k, k < 8 →
        let ch := s.chan (8 * c.cl + k)
        gives (0x300 + k) (match ch.q with
          | [] => 0#64
          | cp :: _ => BitVec.ofNat 64 ((if ch.fault.isSome then 2 else if hardHeld s cp.task then 3 else 1) + 2 ^ 2 * ch.q.length
              + 2 ^ 8 * cp.tidx + 2 ^ 16 * ch.fault.getD 0 + 2 ^ 32 * cp.off))
        ∧ gives (0x308 + k) ch.faddr)
    ∧ (∀ k, k < 16 →
        gives (0x310 + k) (match (ringOf s c k).bind (smFind s.ringObjs) with
          | some r => BitVec.ofNat 64 (r.ppos + 2 ^ 8 * r.cpos + 2 ^ 32 * r.count)
          | none => 0#64)
        ∧ gives (0x410 + k) (smGet 0#64 c.dbg.bpa k &&& (if (smGet 0#64 c.dbg.bpc k).getLsbD 1 then 0x0000FFFFFFFFFFFF#64 else 0xFFFFFFFFFFFFFFF8#64))
        ∧ gives (0x420 + k) (smGet 0#64 c.dbg.bpc k))
    ∧ (∀ p ∈ ([(0x010#12, c.team.fmt.setWidth 64), (0x011#12, BitVec.ofNat 64 c.team.vb), (0x012#12, BitVec.ofNat 64 c.team.vl)] : List (BitVec 12 × W64)),
        (c.strm.ents = [] ∧ c.strm.pres = none → ∃ t, exec (.csrr d p.1) s = .next t ∧ Ends s t 1 d p.2)
        ∧ (¬(c.strm.ents = [] ∧ c.strm.pres = none) → exec (.csrr d p.1) s = .next s))
    ∧ (canTrap s → ∀ n : BitVec 12, csrNumber n.toNat = false → ∃ t, exec (.csrr d n) s = .next t ∧ Trapped s t 0x01#64 0#64 c.pc))
  ∧ (
  ∀ (s : State) (d a : GReg) (n : BitVec 12),
    let c := s.me
    let all : W64 := 0xFFFFFFFFFFFFFFFF#64
    let tag (kind1 : Bool) : W64 := if kind1 then 0x0000FFFFFFFFFFFF#64 else all
    let bit (b : Bool) (k : Nat) : Nat := if b then 2 ^ k else 0
    let addr (k : Nat) : W64 := if (smGet 0#64 c.dbg.bpc k).getLsbD 1 then 0x0000FFFFFFFFFFFF#64 else 0xFFFFFFFFFFFFFFF8#64
    let into (m old new : W64) : W64 := (new &&& m) ||| (old &&& ~~~m)
    ∀ p ∈ ([(0x018, all, true, c.trap.scratch0), (0x019, all, true, c.trap.scratch1), (0x020, all, false, c.trap.vec), (0x021, all, true, c.trap.epc),
        (0x022, 0x00000000DFFF00FF#64, true, c.trap.reason), (0x023, all, true, c.trap.info), (0x024, all, true, c.trap.stag &&& tag (c.trap.stag.extractLsb' 0 3 = 1#3)),
        (0x030, all, false, c.trap.brkskip), (0x201, all, false, c.bgerr), (0x403, all, true, c.trap.wdog),
        (0x408, 3#64, true, BitVec.ofNat 64 (bit c.dbg.brkhalt 0 + bit c.dbg.skip1 1 + bit c.dbg.halted 2 + bit c.dbg.hard 3)),
        (0x500, 0x8000000000000FFF#64, true, c.hold.getD 0 0#64), (0x501, all, true, c.hold.getD 1 0#64), (0x502, all, true, c.hold.getD 2 0#64),
        (0x503, all, true, c.hold.getD 3 0#64), (0x504, all, true, c.hold.getD 4 0#64)] : List (Nat × W64 × Bool × W64))
        ++ (List.range 16).map (fun k => (0x410 + k, addr k, true, smGet 0#64 c.dbg.bpa k &&& addr k))
        ++ (List.range 16).map (fun k => (0x420 + k, 7#64, true, smGet 0#64 c.dbg.bpc k)),
      n.toNat = p.1 → (p.2.2.1 = true → c.trap.pl = true) →
      let old := p.2.2.2
      ∀ q ∈ ([(.csrw n a, 0#5, s.reg a), (.csrwSet d n a, d, old ||| s.reg a), (.csrwClr d n a, d, old &&& ~~~s.reg a)] : List (Instr × GReg × W64)),
        (p.1 = 0x020 → q.2.2.toNat % 8 = 0) →
        ∃ t, exec q.1 s = .next t ∧ (∀ k, k ≠ s.cur → t.ctx k = s.ctx k) ∧ t = { s with ctxs := t.ctxs }
          ∧ csrRead t t.me p.1 = some (if p.1 = 0x024 then q.2.2 &&& tag (q.2.2.extractLsb' 0 3 = 1#3) else into p.2.1 old q.2.2)
          ∧ (∀ m, m ≠ p.1 → m ≠ 0x408 → (0x410 ≤ m → p.1 ≠ m + 0x10) → csrRead t t.me m = csrRead s c m)
          ∧ (p.1 ≠ 0x408 → t.me.dbg.skip1 = false ∧ t.me.dbg.brkhalt = c.dbg.brkhalt) ∧ t.me.dbg.halted = c.dbg.halted ∧ t.me.dbg.hard = c.dbg.hard
          ∧ (p.1 < 0x410 ∨ 0x420 ≤ p.1 → t.me.dbg.bpa = c.dbg.bpa)
          ∧ t.me.pc = c.pc + 8#64 ∧ t.me.team = c.team ∧ t.me.strm = c.strm ∧ t.me.cap = c.cap
          ∧ ∀ r, t.reg r = if r = q.2.1 ∧ q.2.1 ≠ 0#5 then old else s.reg r)

/-- R84, R281 and R86: at level 0 every privileged instruction, and every CSRW of a CSR whose write level is P, raises PRIV and does nothing
else. CSRW of a CSR that is read-only or unassigned raises ILLEGAL at either level (R85), and a CTX.TRAPVEC off a word boundary ALIGN, with
the value in CTX.TRAPINFO (log 147, the model's choice). -/
def Obligations.PrivilegeIsCheckedBeforeAnyEffect : Prop :=
  ∀ (s : State) (d a b : GReg), canTrap s →
    let level (n : Nat) : Option Bool :=
      if n ∈ [0x018, 0x019, 0x021, 0x022, 0x023, 0x024, 0x403, 0x408] ∨ 0x410 ≤ n ∧ n ≤ 0x42F ∨ 0x500 ≤ n ∧ n ≤ 0x504 then some true
      else if n ∈ [0x020, 0x030, 0x201] then some false else none
    (s.me.trap.pl = false →
      (∀ i ∈ [Instr.eret, .eretSkip, .eretFlush, .yield, .svstrm d a, .rsstrm a, .barfl, .sysopHalt, .sysopIcsync, .sysopXtinv d a b, .sysopTcinv a b,
          .migopClaim d a b, .migopComplete d a b, .haltSoft d a b, .haltHard d a b, .resume d a b, .dbgopStatus d a b],
        ∃ t, exec i s = .next t ∧ Trapped s t 0x05#64 0#64 s.me.pc)
      ∧ ∀ n : BitVec 12, level n.toNat = some true →
        ∀ i ∈ [Instr.csrw n a, .csrwSet d n a, .csrwClr d n a], ∃ t, exec i s = .next t ∧ Trapped s t 0x05#64 0#64 s.me.pc)
    ∧ (∀ n : BitVec 12, level n.toNat = none →
        ∀ i ∈ [Instr.csrw n a, .csrwSet d n a, .csrwClr d n a], ∃ t, exec i s = .next t ∧ Trapped s t 0x01#64 0#64 s.me.pc)
    ∧ (∀ q ∈ ([(.csrw 0x020#12 a, s.reg a), (.csrwSet d 0x020#12 a, s.me.trap.vec ||| s.reg a),
          (.csrwClr d 0x020#12 a, s.me.trap.vec &&& ~~~s.reg a)] : List (Instr × W64)),
        q.2.toNat % 8 ≠ 0 → ∃ t, exec q.1 s = .next t ∧ Trapped s t 0x0A#64 q.2 s.me.pc)

/-! Generator loads and stores. -/

/-- R92 to R95, R82: a load whose pointer is aligned and passes the checks brings the bytes at its keys, zero- or sign-extended by its type, to
gd; nothing else but the lines of L1 changes, and every byte reads as before. A narrow access to bytes that L1 holds valid brings L1's
(R144); any other brings, for each byte, the one that the cluster has written and not sent home, else the home's. An 8-byte load of a word
of the aperture brings that word (R140), and an access whose translation is not there yet waits for the walk (R142). -/
def Obligations.LoadsBringTheBytesOfMemory : Prop :=
  ∀ (s : State) (f : LdF),
    let p := s.reg f.a + f.disp.signExtend 64
    let n := match f.ty with | .n8 | .s8 => 1 | .n16 | .s16 => 2 | .n32 | .s32 => 4 | .d64 => 8
    let cl := s.me.cl
    let wide := 2 < scopeRank f.scope
    let word : Option W64 := if ridOf p = 0xFF ∧ n = 8 then apertureWord s (offOf p) else none
    p.toNat % n = 0 →
    (∀ v, word = some v → ∃ t, exec (.ld f) s = .next t ∧ MemEnds s t f.r v ∧ (s.Inv → NoneWaits s → KeepsBytes s t cl []))
    ∧ (∀ s', word = none → genAccess s .ld (genPol f.scope) p n = .wait s' → exec (.ld f) s = .next s')
    ∧ ∀ ks, word = none → genAccess s .ld (genPol f.scope) p n = .ok ks →
      ∃ t bs, exec (.ld f) s = .next t ∧ List.length bs = ks.length
        ∧ MemEnds s t f.r (match f.ty with
            | .s8 => (BitVec.ofNat 8 (leNat bs)).signExtend 64 | .s16 => (BitVec.ofNat 16 (leNat bs)).signExtend 64
            | .s32 => (BitVec.ofNat 32 (leNat bs)).signExtend 64 | _ => BitVec.ofNat 64 (leNat bs))
        ∧ (s.Inv → NoneWaits s → KeepsBytes s t cl []
            ∧ ((∀ k ∈ ks, k < 2 ^ 62 ∧ isPeer k = false ∧ k / 64 = ks.headD 0 / 64) →
                let held (l : L1Line) : Prop := isCached (ks.headD 0) = true ∧ smFind (s.cl cl).l1 (ks.headD 0 / 64) = some l ∧ ∀ k ∈ ks, bitOf l.valid (k % 64)
                ((wide ∨ ∀ l, ¬held l) → bs = ks.map (byteAt s cl)) ∧ ∀ l, ¬wide → held l → bs = ks.map fun k => smGet 0 l.data (k % 64)))

/-- R92 to R95: a store whose pointer is aligned and passes the checks writes the low bytes of its source at its keys, the lowest first; no
register changes, and every other byte reads as before. One whose translation is not there yet waits for the walk. R93: LDX and STX move 32
bytes to and from the quad at gd, eight to a register; g0 discards its eight bytes, or stores zeros. An STX to the aperture is a copy. -/
def Obligations.StoresWriteTheirBytesAndNoOthers : Prop :=
  (
  ∀ (s : State) (f : LdF),
    let p := s.reg f.a + f.disp.signExtend 64
    let n := match f.ty with | .n8 | .s8 => 1 | .n16 | .s16 => 2 | .n32 | .s32 => 4 | .d64 => 8
    p.toNat % n = 0 →
    (∀ s', genAccess s .st (genPol f.scope) p n = .wait s' → exec (.st f) s = .next s')
    ∧ ∀ ks, genAccess s .st (genPol f.scope) p n = .ok ks →
      ∃ t, exec (.st f) s = .next t ∧ MemEnds s t 0#5 0#64
        ∧ (s.Inv → NoneWaits s → KeepsBytes s t s.me.cl ks
            ∧ (ks.Nodup → ks.length = n → (∀ k ∈ ks, k < 2 ^ 62 ∧ isPeer k = false) →
                ∀ i, i < n → byteAt t s.me.cl (ks.getD i 0) = BitVec.ofNat 8 ((s.reg f.r).toNat / 2 ^ (8 * i)))))
  ∧ (
  ∀ (s : State) (f : LdxF),
    let p := s.reg f.a + f.disp.signExtend 64
    let cl := s.me.cl
    let wide := 2 < scopeRank f.scope
    let quad (k : Nat) : GReg := f.r + BitVec.ofNat 5 k
    p.toNat % 32 = 0 → f.r.toNat % 4 = 0 →
    (∀ ks, genAccess s .ld (genPol f.scope) p 32 = .ok ks →
      ∃ t bs, exec (.ldx f) s = .next t ∧ List.length bs = ks.length ∧ OnlyMemory s t
        ∧ t.me = { s.me.past s.us 1 with g := t.me.g }
        ∧ (∀ k, k < 4 → quad k ≠ 0#5 → t.reg (quad k) = BitVec.ofNat 64 (leNat ((bs.drop (8 * k)).take 8)))
        ∧ (∀ r : GReg, r.toNat / 4 ≠ f.r.toNat / 4 → t.reg r = s.reg r)
        ∧ (s.Inv → NoneWaits s → KeepsBytes s t cl []
            ∧ ((∀ k ∈ ks, k < 2 ^ 62 ∧ isPeer k = false ∧ k / 64 = ks.headD 0 / 64) →
                let held (l : L1Line) : Prop := isCached (ks.headD 0) = true ∧ smFind (s.cl cl).l1 (ks.headD 0 / 64) = some l ∧ ∀ k ∈ ks, bitOf l.valid (k % 64)
                ((wide ∨ ∀ l, ¬held l) → bs = ks.map (byteAt s cl)) ∧ ∀ l, ¬wide → held l → bs = ks.map fun k => smGet 0 l.data (k % 64))))
    ∧ (∀ ks, ¬(ridOf p = 0xFF ∧ offOf p < 0x1000) → genAccess s .st (genPol f.scope) p 32 = .ok ks →
      ∃ t, exec (.stx f) s = .next t ∧ MemEnds s t 0#5 0#64
        ∧ (s.Inv → NoneWaits s → KeepsBytes s t cl ks
            ∧ (ks.Nodup → ks.length = 32 → (∀ k ∈ ks, k < 2 ^ 62 ∧ isPeer k = false) →
                ∀ i, i < 32 → byteAt t cl (ks.getD i 0) = BitVec.ofNat 8 ((s.reg (quad (i / 8))).toNat / 2 ^ (8 * (i % 8))))))
    ∧ (∀ s', genAccess s .ld (genPol f.scope) p 32 = .wait s' → exec (.ldx f) s = .next s')
    ∧ ∀ s', ¬(ridOf p = 0xFF ∧ offOf p < 0x1000) → genAccess s .st (genPol f.scope) p 32 = .wait s' → exec (.stx f) s = .next s')

/-- R94, R137, R138, R140, R151, R152: the first check that fails is the trap of a generator access: ALIGN, RIDBOUND, PERM, UNDECLARED,
RANGELOCK, and ECC of a load, in that order, each with the pointer in CTX.TRAPINFO and no other effect. UNDECLARED comes when some byte lies
in no region of the task that allows the access. -/
def Obligations.AccessFaultsComeInTheOrderOfTheChecks : Prop :=
  ∀ (s : State) (f : LdF), canTrap s →
    let p := s.reg f.a + f.disp.signExtend 64
    let n := match f.ty with | .n8 | .s8 => 1 | .n16 | .s16 => 2 | .n32 | .s32 => 4 | .d64 => 8
    let b := bndOf s.me p
    let traps (i : Instr) (code : W64) : Prop := ∃ t, exec i s = .next t ∧ Trapped s t code p s.me.pc
    (p.toNat % n ≠ 0 → traps (.ld f) 0x0A#64 ∧ traps (.st f) 0x0A#64)
    ∧ (p.toNat % n = 0 → ridOf p = 0 → traps (.ld f) 0x07#64 ∧ traps (.st f) 0x07#64)
    ∧ (p.toNat % n = 0 → 0 < ridOf p → ridOf p < 0xFD →
        (b.v = false ∨ b.tgt = 3 ∨ (b.tgt = 1 ∧ s.pf.hcpkb = 0) ∨ b.limit * 4096 < offOf p + n → traps (.ld f) 0x07#64 ∧ traps (.st f) 0x07#64)
        ∧ (b.ok s = true → offOf p + n ≤ b.limit * 4096 →
            (b.rp = false → traps (.ld f) 0x08#64) ∧ (b.w = false → traps (.st f) 0x08#64)
            ∧ (let open_ (k : AKind) : Prop := ∃ q ∈ rangeFrom p.toNat n, ∀ r ∈ (s.task s.me.task).regions, r.has q = true → r.allows k = false
               (b.rp = true → open_ .ld → traps (.ld f) 0x06#64) ∧ (b.w = true → open_ .st → traps (.st f) 0x06#64))))
    ∧ (p.toNat % n = 0 → ridOf p < 0xFF → ∀ ks,
        (resolve s s.me s.cur s.me.trap.pl .ld p n = .ok ks →
          ((∃ k ∈ ks, lockHit s s.me.cl k false = true) → traps (.ld f) 0x0B#64)
          ∧ ((∀ k ∈ ks, lockHit s s.me.cl k false = false) → eccHit s s.me.cl (genPol f.scope) ks = true → traps (.ld f) 0x14#64))
        ∧ (resolve s s.me s.cur s.me.trap.pl .st p n = .ok ks → (∃ k ∈ ks, lockHit s s.me.cl k true = true) → traps (.st f) 0x0B#64))
    ∧ (∀ g : LdxF, let q := s.reg g.a + g.disp.signExtend 64
        q.toNat % 32 ≠ 0 → ∀ i ∈ [Instr.ldx g, .stx g], ∃ t, exec i s = .next t ∧ Trapped s t 0x0A#64 q s.me.pc)

/-! Traps, the return from them, breakpoints and halts. -/

/-- R282: TRAP enters the handler with reason 0x22, its code as CTX.TRAPINFO and the address of the next word as CTX.EPC; an ERET of the state
so entered is at that word, at level 0, with every g register as it was. The encoding of R281 decodes. -/
def Obligations.TrapCallsTheHandlerAndEretReturnsPastIt : Prop :=
  (∀ (s : State) (code : BitVec 16), canTrap s →
    ∃ t, exec (.trap code) s = .next t ∧ Trapped s t 0x22#64 (code.setWidth 64) (s.me.pc + 8#64)
      ∧ ∃ u, exec .eret t = .next u ∧ u.me.pc = s.me.pc + 8#64 ∧ u.me.trap.pl = false ∧ u.me.trap.intrap = false ∧ u.me.g = s.me.g)
  ∧ decodeG (GWord.ofWord 0x7800000400000042#64) 0#64 = some (.trap 0x42#16)

/-- R283: ERET at level 1 inside a handler goes to CTX.EPC at level 0 with INTRAP clear, opens the gate and lets the stream go on, with the
holes that were pending at the trap pending again (log 136); .SKIP first drops the unit at which the stream has stopped (an instance goes on
with its next unit, and leaves after its last), and .FLUSH discards every entry, leaving the votes that have a result. Nothing but the
context's record differs, unless it comes back from its restore and its semaphores serve those that waited for them (R169). Outside a
handler every form raises ILLEGAL 0x41. SKIP1 is clear (R300). That a vote dropped by .SKIP stays counted as outstanding is log 88, the
model's choice. -/
def Obligations.EretFormsReturnFromTheHandler : Prop :=
  ∀ s : State, s.me.trap.pl = true →
    let c := s.me
    let back (st : Strm) : Ctx :=
      { c with pc := c.trap.epc, strm := { st with stopped := false, gate := false, own := 0 }, cap := { c.cap with holes := c.cap.kept, kept := [] }, dbg := { c.dbg with skip1 := false },
               trap := { c.trap with pl := false, intrap := false, inSave := false, restoring := false } }
    let returns (i : Instr) (st : Strm) : Prop :=
      ∃ t, exec i s = .next t ∧ (c.trap.restoring = false → MeIs s t (back st))
        ∧ ((∀ k, k < 8 → ∀ w ∈ smGet [] s.semAway (8 * s.cur + k), w.1 ≠ s.cur) → t.me = back st)
    (c.trap.intrap = true →
      returns .eret c.strm
      ∧ (c.strm.stopped = false → returns .eretSkip c.strm)
      ∧ (∀ tag ws es, c.strm.stopped = true → c.strm.ents = .lane tag ws :: es → returns .eretSkip { c.strm with pres := none, ents := es })
      ∧ (∀ l r n w vs es, c.strm.stopped = true → c.strm.ents = .inst l r n w vs :: es →
          let k := (smGet Rake.zero (s.ctx l).cap.rakes r).ws
          let w' := w + unitLen (k.drop w)
          (k.length ≤ w' → returns .eretSkip { c.strm with pres := none, ents := es })
          ∧ (w' < k.length → returns .eretSkip { c.strm with pres := none, ents := .inst l r n w' vs :: es }))
      ∧ returns .eretFlush { c.strm with ents := [], pres := none, votesOut := c.strm.voteQ.length + (c.strm.voteFly.filter fun v => v.1.isSome).length })
    ∧ (c.trap.intrap = false → c.trap.vec ≠ 0#64 → ∀ i ∈ [Instr.eret, .eretSkip, .eretFlush],
        ∃ t, exec i s = .next t ∧ Trapped s t 0x01#64 0x41#64 c.pc)

/-- R299, with the attach command that the management path carries: BRK traps to its own address with its code in an attached context whose
DBG.CTL.BRKHALT is 0, and elsewhere counts in CTX.BRKSKIP, modulo 2^64, and goes on. -/
def Obligations.BrkIsTakenOnlyByAnAttachedContext : Prop :=
  ∀ (s : State) (code : BitVec 16),
    let c := s.me
    (c.trap.dbgatt = true → c.dbg.brkhalt = false → canTrap s →
      ∃ t, exec (.brk code) s = .next t ∧ Trapped s t 0x15#64 (code.setWidth 64) c.pc)
    ∧ (c.trap.dbgatt = false →
      ∃ t, exec (.brk code) s = .next t ∧ MeIs s t { c.past s.us 1 with trap := { c.trap with brkskip := c.trap.brkskip + 1#64 } })
    ∧ ∀ cl cx on k e, s.ctxAt cl cx = some (k, e) → s.pf.linkUp = true → s.pf.trip = false → s.pf.staging = false →
        ∃ t, exec (.attach cl cx (if on then 1 else 0)) s = .next t ∧ (t.ctx k).trap.dbgatt = on ∧ ∀ j, j ≠ k → t.ctx j = s.ctx j

/-- R300, R303, R280: with DBG.CTL.BRKHALT, a BRK of an attached context whose team is quiet halts it instead, with 0x15 in DBG.REASON, and
clearing DBGATT lets it go on; inside a handler the halt is held until its ERET (log 125). That comparator 0 stands in DBG.REASON is log 82;
both are the model's choice. R301: what the operations of DBGOP do to the resident contexts they name, when the target word has no reserved
bit and names the issuer's tenant: HALT.SOFT and HALT.HARD ask for a halt with reason 0x21, HARD where either of two requests is, a halted
context staying halted; RESUME ends a halt, STATUS reads DBG.CTL; each writes 0 to gd but for STATUS, and 1 when no target is resident.
Another tenant's context raises PERM, and a reserved bit ILLEGAL. SYSOP.HALT asks for the issuer's own halt; the boundary at which the team
is quiet puts a halt in force, and a HARD one stops the engine of the task. That a reserved bit is ILLEGAL and that a HALT completes when it
has asked is log 81, the model's choice. -/
def Obligations.DebugOperationsActOnTheNamedContexts : Prop :=
  (
  ∀ (s : State) (code : BitVec 16),
    let c := s.me
    c.trap.dbgatt = true → c.dbg.brkhalt = true →
    (c.trap.intrap = false → quiet c = true →
      ∃ t, exec (.brk code) s = .next t
        ∧ MeIs s t { c.counted s.us with dbg := { c.dbg with halted := true, hard := false, pend := none, reason := 0x15#64 } }
        ∧ genNext t = (t, none)
        ∧ ∀ cl cx e, s.pf.linkUp = true → s.pf.trip = false → s.pf.staging = false → t.ctxAt cl cx = some (s.cur, e) →
            ∃ u, exec (.attach cl cx 0) t = .next u ∧ u.me.trap.dbgatt = false ∧ u.me.dbg.halted = false)
    ∧ (c.trap.intrap = false → quiet c = false → exec (.brk code) s = .next s)
    ∧ (c.trap.intrap = true → c.dbg.pend = none →
        ∃ t, exec (.brk code) s = .next t ∧ MeIs s t { c.past s.us 1 with dbg := { c.dbg with skip1 := false, pend := some (false, 0x15) } }))
  ∧ (
  ∀ (s : State) (d a b : GReg) (k : Nat) (e : Ctx),
    let v := (s.reg a).toNat
    let bit (x : Bool) (n : Nat) : Nat := if x then 2 ^ n else 0
    let ops := [Instr.haltSoft d a b, .haltHard d a b, .resume d a b, .dbgopStatus d a b]
    let halt (hard : Bool) : Instr := if hard then .haltHard d a b else .haltSoft d a b
    let asked (t : State) (hard : Bool) (j : Nat) (x : Ctx) : Prop :=
      if x.dbg.halted then (t.ctx j).dbg.halted = true ∧ (t.ctx j).dbg.hard = (hard || x.dbg.hard) ∧ (t.ctx j).dbg.pend = none ∧ (t.ctx j).dbg.reason = 0x21#64
      else (t.ctx j).dbg.halted = false ∧ (t.ctx j).dbg.pend = some (hard || x.dbg.pend.any (·.1), 0x21)
    (s.me.trap.pl = true → v < 2 ^ 13 → v.testBit 11 = false →
      (s.ctxAt (v % 256) (v / 256 % 8) = none → ∀ i ∈ ops, ∃ t, exec i s = .next t ∧ Ends s t 1 d 1#64)
      ∧ (s.ctxAt (v % 256) (v / 256 % 8) = some (k, e) → s.tenOf e = s.tenOf s.me → s.ctx k = e →
          (v.testBit 12 = false →
            (∀ hard, ∃ t, exec (halt hard) s = .next t ∧ asked t hard k e ∧ t.reg d = (if d = 0#5 then s.reg d else 0#64) ∧ t.me.pc = s.me.pc + 8#64
              ∧ ∀ j, j ≠ k → j ≠ s.cur → t.ctx j = s.ctx j)
            ∧ (∃ t, exec (.resume d a b) s = .next t ∧ (t.ctx k).dbg.halted = false ∧ (t.ctx k).dbg.hard = false ∧ (t.ctx k).dbg.pend = none
              ∧ t.reg d = (if d = 0#5 then s.reg d else 0#64) ∧ t.me.pc = s.me.pc + 8#64 ∧ ∀ j, j ≠ k → j ≠ s.cur → t.ctx j = s.ctx j)
            ∧ ∃ t, exec (.dbgopStatus d a b) s = .next t
              ∧ Ends s t 1 d (BitVec.ofNat 64 (bit e.dbg.brkhalt 0 + bit e.dbg.skip1 1 + bit e.dbg.halted 2 + bit e.dbg.hard 3)))
          ∧ (v.testBit 12 = true →
              (∀ hard, ∃ t, exec (halt hard) s = .next t ∧ (∀ x ∈ s.residentOf e.task, asked t hard x.1 (s.ctx x.1)) ∧ t.me.pc = s.me.pc + 8#64
                ∧ ∀ j, j ≠ s.cur → (∀ x ∈ s.residentOf e.task, x.1 ≠ j) → t.ctx j = s.ctx j)
              ∧ (∃ t, exec (.resume d a b) s = .next t
                ∧ (∀ x ∈ s.residentOf e.task, (t.ctx x.1).dbg.halted = false ∧ (t.ctx x.1).dbg.pend = none) ∧ t.me.pc = s.me.pc + 8#64
                ∧ ∀ j, j ≠ s.cur → (∀ x ∈ s.residentOf e.task, x.1 ≠ j) → t.ctx j = s.ctx j)
              ∧ ∀ x xs, s.residentOf e.task = x :: xs → ∃ t, exec (.dbgopStatus d a b) s = .next t
                  ∧ Ends s t 1 d (BitVec.ofNat 64 (bit x.2.dbg.brkhalt 0 + bit x.2.dbg.skip1 1 + bit x.2.dbg.halted 2 + bit x.2.dbg.hard 3))))
      ∧ (s.ctxAt (v % 256) (v / 256 % 8) = some (k, e) → s.tenOf e ≠ s.tenOf s.me → canTrap s → ∀ i ∈ ops, ∃ t, exec i s = .next t ∧ Trapped s t 0x08#64 0#64 s.me.pc))
    ∧ (s.me.trap.pl = true → 2 ^ 13 ≤ v ∨ v.testBit 11 = true → canTrap s → ∀ i ∈ ops, ∃ t, exec i s = .next t ∧ Trapped s t 0x01#64 0#64 s.me.pc)
    ∧ (s.me.trap.pl = true → s.me.dbg.halted = false →
        ∃ t, exec .sysopHalt s = .next t
          ∧ MeIs s t { s.me.past s.us 1 with dbg := { s.me.dbg with skip1 := false, pend := some (s.me.dbg.pend.any (·.1), 0x21) } })
    ∧ ∀ hard r, s.me.st.resident = true → s.me.dbg.halted = false → s.me.trap.intrap = false → s.me.cap.holes = [] → s.me.trap.preempt = none →
        s.me.dbg.pend = some (hard, r) → quiet s.me = true →
        ∃ t, exec .trapEntry s = .next t
          ∧ t.me = { s.me.counted s.us with dbg := { s.me.dbg with halted := true, hard := hard, pend := none, reason := BitVec.ofNat 64 r } }
          ∧ (∀ j, j ≠ s.cur → t.ctx j = s.ctx j) ∧ (hard = false → OnlyMe s t)
          ∧ (hard = true → (s.eng s.me.cl).owner = some s.me.task → (s.eng s.me.cl).q ≠ [] → (s.eng s.me.cl).faulted = false → (t.eng s.me.cl).stopped = true))

/-- R276 to R278: at a boundary a context takes the imprecise fault that is due, a lane fault before an engine fault before a copy fault, with
the fields of R277 and CTX.EPC where it resumes; a lane fault leaves its tag in CTX.STREAMTAG; the other faults stay pending. Between a HOLE
and its unit it takes none. R284, R276: a PREEMPT at a quiet boundary, and an imprecise NOTPRESENT, send the context to its save routine:
the PC at TR.SAVEVEC at level 1, reason 0x20 with the kind or 0x09 with the pointer, and CTX.TRAPVEC without a part. A pending lane fault is
dropped by a PREEMPT, an engine fault stays. Between a HOLE and its unit, inside a handler, and before the team is quiet, a PREEMPT stays
posted. That PREEMPT has IMP 0 and ORIG 0 is log 80, the model's choice. R280: a handler that has run longer than TR.WDOG is over: its
context is killed. Until then the step changes nothing. -/
def Obligations.ImpreciseFaultsPreemptAndWatchdog : Prop :=
  (
  ∀ s : State, canTrap s → s.me.st.resident = true → s.me.dbg.halted = false → s.me.trap.preempt = none → s.me.dbg.pend = none →
    let c := s.me
    (∀ f, c.cap.holes = [] → c.trap.laneF = some f → f.code ≠ 0x09 →
      ∃ t, exec .trapEntry s = .next t
        ∧ Trapped s t (BitVec.ofNat 64 (f.code + f.lane * 2 ^ 16 + f.acc * 2 ^ 26 + 2 ^ 28 + 2 ^ 30)) f.info c.resumePc
        ∧ t.me.trap.stag = f.tag ∧ t.me.trap.laneF = none ∧ t.me.trap.engF = c.trap.engF ∧ t.me.trap.copyF = c.trap.copyF)
    ∧ (c.cap.holes = [] → c.trap.laneF = none → c.trap.engF = true → (s.eng c.cl).fcode ≠ 0x09 →
      ∃ t, exec .trapEntry s = .next t
        ∧ Trapped s t (BitVec.ofNat 64 ((s.eng c.cl).fcode + (s.eng c.cl).frow * 2 ^ 16 + 3 * 2 ^ 26 + 2 ^ 28 + 2 * 2 ^ 30)) (s.eng c.cl).faddr c.resumePc
        ∧ t.me.trap.stag = c.trap.stag ∧ t.me.trap.engF = false ∧ t.me.trap.copyF = c.trap.copyF)
    ∧ (∀ f fs, c.cap.holes = [] → c.trap.laneF = none → c.trap.engF = false → c.trap.copyF = f :: fs → f.code ≠ 0x09 →
      ∃ t, exec .trapEntry s = .next t
        ∧ Trapped s t (BitVec.ofNat 64 (f.code + 2 ^ 28 + 3 * 2 ^ 30)) f.info c.resumePc ∧ t.me.trap.copyF = fs)
    ∧ (c.cap.holes ≠ [] → exec .trapEntry s = .next s))
  ∧ (
  ∀ s : State, s.me.st.resident = true → s.me.dbg.halted = false →
    let c := s.me
    let entered (t : State) (reason info : W64) : Prop :=
      t.me.pc = c.trap.savevec ∧ t.me.trap.epc = c.resumePc ∧ t.me.trap.reason = reason ∧ t.me.trap.info = info ∧ t.me.trap.pl = true
        ∧ t.me.trap.intrap = true ∧ t.me.trap.preempt = none ∧ t.me.g = c.g ∧ t.me.team = c.team ∧ t.mem = (clearWaitcl s s.cur).mem ∧ t.rows = s.rows
    (∀ k, c.trap.intrap = false → c.cap.holes = [] → quiet c = true → c.trap.preempt = some k →
      ∃ t, exec .preempt s = .next t ∧ entered t 0x20#64 (BitVec.ofNat 64 k) ∧ t.me.trap.laneF = none ∧ t.me.trap.engF = c.trap.engF)
    ∧ (c.trap.intrap = true ∨ c.cap.holes ≠ [] ∨ quiet c = false → exec .preempt s = .next s)
    ∧ (∀ f, c.trap.intrap = false → c.cap.holes = [] → c.trap.preempt = none → c.dbg.pend = none → c.trap.laneF = some f → f.code = 0x09 →
      ∃ t, exec .notpresentSave s = .next t
        ∧ entered t (BitVec.ofNat 64 (0x09 + f.lane * 2 ^ 16 + f.acc * 2 ^ 26 + 2 ^ 28 + 2 ^ 30)) f.info))
  ∧ (
  ∀ s : State, s.me.st.resident = true → s.me.trap.intrap = true →
    (s.me.trap.wdog.toNat < s.mc - s.me.trap.since → ∃ t, exec .watchdog s = .next t ∧ t.me.st = .retired)
    ∧ (s.mc - s.me.trap.since ≤ s.me.trap.wdog.toNat → exec .watchdog s = .next s))

/-! Emission, team control, capture, replay, multicast, votes. -/

/-- R98, R99, R107, R108, R47: a checked unit with room in the stream is appended to it with its address as its tag, its bound fields and the
field of a pending hole filled, and to the open rake as captured, the hole's field zero there; a vote for the queue counts as outstanding;
the PC passes the unit's words. Without room nothing changes but the model's own note of the unit's length (log 124). A field that a HOLE
cannot fill raises STRETCH 0x04 and leaves the capture open; a capture past 512 words raises 0x07 and is given up. An illegal word raises
ILLEGAL with its address, and a misused prefix PREFIX. For a context that is not multicasting. R107, R108, R115: BEGIN.S of a rake of which
no instance is queued opens it empty, HOLE adds a pending hole with its capture value, and END.S makes a rake that holds words valid. The
faults of these words, with their subcodes. -/
def Obligations.EmissionAppendsTheUnitToStreamAndCapture : Prop :=
  (
  ∀ (s : State) (ws us : List W64) (i : Instr),
    let c := s.me
    let vote := if isQVote i then 1 else 0
    let sent (us : List W64) : Ctx :=
      let q := (c.queues s.mc (.lane c.pc us)).past s.us us.length
      { q with strm := { q.strm with votesOut := c.strm.votesOut + vote }, cap := { c.cap with holes := [], want := 0 } }
    ((c.trap.inSave = false ∨ c.trap.svDone = true) → checkUnit s.reg ws = .ok (i, us) → illegalHere c.team i = false → boundClear c.team i = false →
      (isQVote i = true → c.strm.votesOut < 16) → c.strm.mcOn = false →
      (c.cap.openR = none → c.cap.holes = [] →
        (entWords c.strm.ents + us.length ≤ 128 → ∃ t, exec (.laneUnitEmission ws) s = .next t ∧ MeIs s t (sent us))
        ∧ (128 < entWords c.strm.ents + us.length →
            ∃ t, exec (.laneUnitEmission ws) s = .next t ∧ MeIs s t { c with cap := { c.cap with want := us.length } }))
      ∧ ∀ r, c.cap.openR = some r →
          let k := smGet Rake.zero c.cap.rakes r
          (k.ws.length + us.length ≤ 512 → entWords c.strm.ents + us.length ≤ 128 →
            (c.cap.holes = [] →
              ∃ t, exec (.laneUnitEmission ws) s = .next t
                ∧ MeIs s t { sent us with cap := { c.cap with want := 0, rakes := smSet c.cap.rakes r { k with ws := k.ws ++ us, votes := k.votes + vote } } })
            ∧ ∀ h kind v j, c.cap.holes = [(h, kind, v)] → holeAt (ws.take us.length) kind = some j →
              ∃ t, exec (.laneUnitEmission ws) s = .next t
                ∧ MeIs s t { sent (us.set j (holePut kind (us.getD j 0) v)) with
                    cap := { c.cap with holes := [], want := 0,
                                        rakes := smSet c.cap.rakes r { k with
                                          ws := k.ws ++ us, votes := k.votes + vote, hmask := orBit k.hmask h,
                                          holes := smSet k.holes h (k.ws.length + j + 512 * kind.code.toNat), last := smSet k.last h v } } })
          ∧ (512 < k.ws.length + us.length → c.cap.holes = [] → canTrap s →
            ∃ t, exec (.laneUnitEmission ws) s = .next t ∧ Trapped s t 0x0D#64 0x07#64 c.pc ∧ t.me.cap.openR = none
              ∧ (smGet Rake.zero t.me.cap.rakes r).flags = 0 ∧ t.me.strm.ents = c.strm.ents.filter fun e => !isQset e)
          ∧ (∀ h kind v, c.cap.holes = [(h, kind, v)] → holeAt (ws.take us.length) kind = none → canTrap s →
            ∃ t, exec (.laneUnitEmission ws) s = .next t ∧ Trapped s t 0x0D#64 0x04#64 c.pc ∧ t.me.cap.openR = some r
              ∧ smGet Rake.zero t.me.cap.rakes r = k))
    ∧ (c.trap.inSave = false → canTrap s →
        (∀ k, checkUnit s.reg ws = .error (.illegalLane k) →
          ∃ t, exec (.laneUnitEmission ws) s = .next t ∧ Trapped s t 0x01#64 (c.pc + BitVec.ofNat 64 (8 * k)) c.pc)
        ∧ (checkUnit s.reg ws = .error .prefixMisuse → ∃ t, exec (.laneUnitEmission ws) s = .next t ∧ Trapped s t 0x02#64 0#64 c.pc)))
  ∧ (
  ∀ (s : State) (r : BitVec 6),
    let c := s.me
    let fault (i : Instr) (sub : W64) : Prop := canTrap s → ∃ t, exec i s = .next t ∧ Trapped s t 0x0D#64 sub c.pc
    (c.cap.openR = none → (∀ cid ∈ s.cur :: followers s c, (s.ctx cid).strm.hasInst s.cur r.toNat = false) →
      ∃ t, exec (.beginS r) s = .next t
        ∧ MeIs s t { c.past s.us 1 with cap := { c.cap with openR := some r.toNat, rakes := smSet c.cap.rakes r.toNat { Rake.zero with flags := 2, beginpc := c.pc } } })
    ∧ (c.cap.openR ≠ none → fault (.beginS r) 0x05#64)
    ∧ (c.cap.openR = none → fault .endS 0x06#64)
    ∧ (∀ q, c.cap.openR = some q →
        let k := smGet Rake.zero c.cap.rakes q
        (k.ws = [] → fault .endS 0x06#64)
        ∧ (k.ws ≠ [] → ∃ t, exec .endS s = .next t
            ∧ MeIs s t { c.past s.us 1 with cap := { c.cap with openR := none, rakes := smSet c.cap.rakes q { k with flags := 1 } } })
        ∧ ∀ (h : BitVec 3) kind v,
            (k.hmask.testBit h.toNat = false → (∀ x ∈ c.cap.holes, x.1 ≠ h.toNat) →
              ∃ t, exec (.hole h kind v) s = .next t
                ∧ MeIs s t { c.past s.us 1 with cap := { c.cap with holes := c.cap.holes ++ [(h.toNat, kind, s.src v)] } })
            ∧ (k.hmask.testBit h.toNat = true → fault (.hole h kind v) 0x02#64))
    ∧ ∀ h kind v, c.cap.openR = none → fault (.hole h kind v) 0x01#64)

/-- R103, R104: TEAM and QSET queue a control entry behind the stream; at the head, TEAM.N makes lanes 0 to min(count, W) - 1 active, TEAM.M
replaces one mask word, and QSET moves full rows at the joint of two adjoining allotments of one slice, its context then going on. The
context of a QSET stays at it until then. -/
def Obligations.ControlEntriesSetTheMaskAndMoveRows : Prop :=
  ∀ s : State,
    let c := s.me
    let room := entWords c.strm.ents + 1 ≤ 128
    (∀ n a, c.cap.openR = none → c.strm.mcOn = false → room →
      (∃ t, exec (.teamN n) s = .next t
        ∧ MeIs s t ((c.queues s.mc (.ctrl (.teamN (s.srcN n).toNat))).past s.us 1))
      ∧ ((s.srcN n).toNat < max 1 (c.team.w / 32) →
          ∃ t, exec (.teamM a n) s = .next t
            ∧ MeIs s t ((c.queues s.mc (.ctrl (.teamM (s.srcN n).toNat ((s.reg a).setWidth 32)))).past s.us 1))
      ∧ (max 1 (c.team.w / 32) ≤ (s.srcN n).toNat → canTrap s →
          ∃ t, exec (.teamM a n) s = .next t ∧ Trapped s t 0x0D#64 0x0D#64 c.pc))
    ∧ (∀ (x : BitVec 3) a, c.cap.openR = none → c.strm.mcOn = false → room →
        let o := s.ctx (s.sibling c x.toNat)
        s.sibling c x.toNat ≠ s.cur → o.st.resident = true → o.cl = c.cl → o.slice = c.slice → (s.reg a).toNat ≤ c.team.vl →
        (o.team.vb = c.team.vb + c.team.vl ∨ o.team.vb + o.team.vl = c.team.vb) → c.strm.ents.any isQset = false →
        ∃ t, exec (.qset x a) s = .next t
          ∧ MeIs s t (c.queues s.mc (.ctrl (.qset (s.sibling c x.toNat) (s.reg a).toNat))))
    ∧ (∀ n es, c.strm.ents = .ctrl (.teamN n) :: es →
        ∃ t, exec .controlEntryEffect s = .next t
          ∧ MeIs s t { c with strm := { c.strm with ents := es }, team := { c.team with act := 2 ^ min n c.team.w - 1 } })
    ∧ (∀ i v es, c.strm.ents = .ctrl (.teamM i v) :: es →
        ∃ t act, exec .controlEntryEffect s = .next t
          ∧ MeIs s t { c with strm := { c.strm with ents := es }, team := { c.team with act := act } }
          ∧ ∀ l, act.testBit l = (decide (l < c.team.w) && (if l / 32 = i then v.getLsbD (l % 32) else c.team.act.testBit l)))
    ∧ (∀ k n es, c.strm.ents = .ctrl (.qset k n) :: es → k ≠ s.cur →
        let o := s.ctx k
        o.st.resident = true → o.cl = c.cl → o.slice = c.slice → n ≤ c.team.vl → s.empt = [] →
        (o.team.vb = c.team.vb + c.team.vl →
          ∃ t, exec .controlEntryEffect s = .next t ∧ t = { s with ctxs := t.ctxs }
            ∧ t.me = { c.past s.us 1 with strm := { c.strm with ents := es }, team := { c.team with vl := c.team.vl - n } }
            ∧ t.ctx k = { o with team := { o.team with vb := o.team.vb - n, vl := o.team.vl + n } }
            ∧ ∀ j, j ≠ k → j ≠ s.cur → t.ctx j = s.ctx j)
        ∧ (o.team.vb ≠ c.team.vb + c.team.vl → o.team.vb + o.team.vl = c.team.vb →
          ∃ t, exec .controlEntryEffect s = .next t ∧ t = { s with ctxs := t.ctxs }
            ∧ t.me = { c.past s.us 1 with strm := { c.strm with ents := es }, team := { c.team with vb := c.team.vb + n, vl := c.team.vl - n } }
            ∧ t.ctx k = { o with team := { o.team with vl := o.team.vl + n } }
            ∧ ∀ j, j ≠ k → j ≠ s.cur → t.ctx j = s.ctx j))

/-- R109, R110: REPLAY takes a hole's value from its register, REPLAYI adds the register to the value last used; both keep it, count the
instance and its votes, and queue the instance behind the stream. At the head the instance presents its next unit, tagged with instance,
rake and word, but its first one not once PREEMPT is posted (R365). DROP.S and DROP.S.ALL make rakes of which no instance is queued invalid. -/
def Obligations.ReplayQueuesInstancesOfAValidRake : Prop :=
  ∀ (s : State) (r : BitVec 6) (a : GReg),
    let c := s.me
    let k := smGet Rake.zero c.cap.rakes r.toNat
    let hs := (List.range 8).filter fun j => k.hmask.testBit j
    let queued (t : State) (val : Nat → W64) : Prop :=
      let q := (c.queues s.mc (.inst s.cur r.toNat c.strm.instCount 0 (hs.map fun j => (j, val j)))).past s.us 1
      OnlyMe s t ∧ t.me = { q with
        cap := { c.cap with rakes := t.me.cap.rakes },
        strm := { q.strm with instCount := (c.strm.instCount + 1) % 2 ^ 30, votesOut := c.strm.votesOut + k.votes } }
      ∧ (∀ q, q ≠ r.toNat → smGet Rake.zero t.me.cap.rakes q = smGet Rake.zero c.cap.rakes q)
      ∧ (∀ j ∈ hs, smGet 0 (smGet Rake.zero t.me.cap.rakes r.toNat).last j = val j)
      ∧ smGet Rake.zero t.me.cap.rakes r.toNat = { k with last := (smGet Rake.zero t.me.cap.rakes r.toNat).last }
    (c.cap.openR = none → k.flags = 1 → (∀ j ∈ hs, a.toNat + j ≤ 31) → c.strm.votesOut + k.votes ≤ 16 → c.strm.mcOn = false →
      entWords c.strm.ents + 1 ≤ 128 →
      (∃ t, exec (.replay r a) s = .next t ∧ queued t fun j => s.reg (BitVec.ofNat 5 (a.toNat + j)))
      ∧ ∃ t, exec (.replayi r a) s = .next t ∧ queued t fun j => smGet 0 k.last j + s.reg (BitVec.ofNat 5 (a.toNat + j)))
    ∧ (canTrap s → c.cap.openR = none → k.flags ≠ 1 → ∀ i ∈ [Instr.replay r a, .replayi r a],
        ∃ t, exec i s = .next t ∧ Trapped s t 0x0D#64 0x08#64 c.pc)
    ∧ (∀ l q n w vs es, c.strm.pres = none → c.strm.ents = .inst l q n w vs :: es →
        let us := instUnit (smGet Rake.zero (s.ctx l).cap.rakes q) w vs
        (w ≠ 0 ∨ c.trap.preempt = none → c.dbg.bpc = [] → (decodeUnit us).any (boundClear c.team) = false →
          ∃ t, exec .replayInstanceExpansion s = .next t
            ∧ MeIs s t { c with dbg := { c.dbg with skip1 := false },
                                strm := { c.strm with pres := some (BitVec.ofNat 64 (1 + q * 2 ^ 3 + w * 2 ^ 9 + n * 2 ^ 18), us) } })
        ∧ (w = 0 → c.trap.preempt ≠ none → c.cap.holes = [] → exec .replayInstanceExpansion s = .next s))
    ∧ (c.cap.openR ≠ some r.toNat → (∀ cid ∈ s.cur :: followers s c, (s.ctx cid).strm.hasInst s.cur r.toNat = false) →
        ∃ t, exec (.dropS r) s = .next t ∧ OnlyMe s t ∧ t.me = { c.past s.us 1 with cap := { c.cap with rakes := t.me.cap.rakes } }
          ∧ (smGet Rake.zero t.me.cap.rakes r.toNat).flags = (if k.flags = 1 then 0 else k.flags)
          ∧ ∀ q, q ≠ r.toNat → smGet Rake.zero t.me.cap.rakes q = smGet Rake.zero c.cap.rakes q)
    ∧ ((∀ q, c.cap.openR ≠ some q → ∀ cid ∈ s.cur :: followers s c, (s.ctx cid).strm.hasInst s.cur q = false) →
        ∃ t, exec .dropSAll s = .next t ∧ OnlyMe s t ∧ t.me = { c.past s.us 1 with cap := { c.cap with rakes := t.me.cap.rakes } }
          ∧ ∀ q, (smGet Rake.zero t.me.cap.rakes q).flags = (if c.cap.openR = some q then (smGet Rake.zero c.cap.rakes q).flags else 0))

/-- R112: MCAST.ON at the leader of a group puts its entry in the leader's stream and turns multicast on, or, while ON is in force, in every
stream of the group, and RECV at a follower accepts; a unit that the leader then emits enters every stream of the group; OFF sends its entry
to the group, ends every follower's RECV past it, and turns multicast off. ON in a group of one and OFF without ON only pass; ON and RECV at
the wrong position raise STRETCH 0x0C. R113, R114: VQPOP and VQTRY bring the oldest readable vote to gd and take it from the queue and the
count; with none readable VQTRY brings all ones, VQPOP waits, and with none outstanding VQPOP raises STRETCH 0x0B. A result in flight
becomes the newest readable one. DRAIN ends once the stream holds nothing and no row awaits a fill. -/
def Obligations.MulticastAndVotesOfATeam : Prop :=
  (
  ∀ s : State,
    let c := s.me
    c.cap.openR = none →
    (c.gsize ≠ 1 → c.gpos = 0 → entWords c.strm.ents + 1 ≤ 128 →
      let q := (c.queues s.mc (.ctrl .mcastOn)).past s.us 1
      (c.strm.mcOn = false → ∃ t, exec .mcastOn s = .next t ∧ MeIs s t { q with strm := { q.strm with mcOn := true } })
      ∧ (c.strm.mcOn = true → s.cur ∉ followers s c →
          (∀ f ∈ followers s c, entWords (s.ctx f).strm.ents + 1 ≤ 128 ∧ (s.ctx f).strm.mcRecv = true) →
          ∃ t, exec .mcastOn s = .next t ∧ t = { s with ctxs := t.ctxs } ∧ t.me = q
            ∧ (∀ f ∈ followers s c, t.ctx f = (s.ctx f).queues s.mc (.ctrl .mcastOn)) ∧ ∀ j, j ∉ followers s c → j ≠ s.cur → t.ctx j = s.ctx j))
    ∧ (c.gsize = 1 → ∃ t, exec .mcastOn s = .next t ∧ MeIs s t (c.past s.us 1))
    ∧ (c.strm.mcOn = false → ∃ t, exec .mcastOff s = .next t ∧ MeIs s t (c.past s.us 1))
    ∧ (c.strm.mcOn = true → s.cur ∉ followers s c → entWords c.strm.ents + 1 ≤ 128 →
        (∀ f ∈ followers s c, entWords (s.ctx f).strm.ents + 1 ≤ 128 ∧ (s.ctx f).strm.mcRecv = true) →
        ∃ t, exec .mcastOff s = .next t ∧ t = { s with ctxs := t.ctxs }
          ∧ (let q := (c.queues s.mc (.ctrl .mcastOff)).past s.us 1
             t.me = { q with strm := { q.strm with mcOn := false } })
          ∧ (∀ f ∈ followers s c,
              let o := (s.ctx f).queues s.mc (.ctrl .mcastOff)
              t.ctx f = { o with pc := o.pc + 8#64, strm := { o.strm with mcRecv := false }, dbg := { o.dbg with skip1 := false } })
          ∧ ∀ j, j ∉ followers s c → j ≠ s.cur → t.ctx j = s.ctx j)
    ∧ (∀ ws us i, c.strm.mcOn = true → s.cur ∉ followers s c → c.trap.inSave = false → checkUnit s.reg ws = .ok (i, us) → illegalHere c.team i = false →
        boundClear c.team i = false → isQVote i = false → c.cap.holes = [] → entWords c.strm.ents + us.length ≤ 128 →
        (∀ f ∈ followers s c, entWords (s.ctx f).strm.ents + us.length ≤ 128 ∧ (s.ctx f).strm.mcRecv = true) →
        ∃ t, exec (.laneUnitEmission ws) s = .next t ∧ t = { s with ctxs := t.ctxs }
          ∧ t.me = { (c.queues s.mc (.lane c.pc us)).past s.us us.length with cap := { c.cap with want := 0 } }
          ∧ (∀ f ∈ followers s c, t.ctx f = (s.ctx f).queues s.mc (.lane c.pc us)) ∧ ∀ j, j ∉ followers s c → j ≠ s.cur → t.ctx j = s.ctx j)
    ∧ (c.gpos ≠ 0 → c.gsize ≠ 1 → ∃ t, exec .mcastRecv s = .next t ∧ MeIs s t { c with strm := { c.strm with mcRecv := true } })
    ∧ (canTrap s →
        (c.gsize ≠ 1 → c.gpos ≠ 0 → ∃ t, exec .mcastOn s = .next t ∧ Trapped s t 0x0D#64 0x0C#64 c.pc)
        ∧ (c.gpos = 0 ∨ c.gsize = 1 → ∃ t, exec .mcastRecv s = .next t ∧ Trapped s t 0x0D#64 0x0C#64 c.pc)))
  ∧ (
  ∀ (s : State) (d : GReg),
    let c := s.me
    c.tryw = none →
    (∀ v vs, c.strm.voteQ = v :: vs →
      let popped (t : State) : Prop :=
        OnlyMe s t ∧ t.me = { c.past s.us 1 with g := t.me.g, strm := { c.strm with voteQ := vs, votesOut := c.strm.votesOut - 1 } }
          ∧ ∀ r, t.reg r = if r = d ∧ d ≠ 0#5 then v else s.reg r
      (c.strm.votesOut ≠ 0 → ∃ t, exec (.vqpop d) s = .next t ∧ popped t) ∧ ∃ t, exec (.vqtry d) s = .next t ∧ popped t)
    ∧ (c.strm.voteQ = [] →
        (∃ t, exec (.vqtry d) s = .next t ∧ Ends s t 1 d 0xFFFFFFFFFFFFFFFF#64)
        ∧ (c.strm.votesOut ≠ 0 → ∃ t, exec (.vqpop d) s = .next t ∧ MeIs s t (c.waits s.us .vote)))
    ∧ (c.strm.votesOut = 0 → canTrap s → ∃ t, exec (.vqpop d) s = .next t ∧ Trapped s t 0x0D#64 0x0B#64 c.pc)
    ∧ (∀ v r, c.strm.voteFly = (some v, none) :: r →
        ∃ t, exec .voteResultReady s = .next t ∧ MeIs s t { c with strm := { c.strm with voteFly := r, voteQ := c.strm.voteQ ++ [v] } })
    ∧ (c.strm.ents = [] → c.strm.pres = none → c.fills = [] → ∃ t, exec .drain s = .next t ∧ MeIs s t (c.past s.us 1))
    ∧ (c.strm.ents ≠ [] ∨ c.fills ≠ [] → exec .drain s = .next s))

/-! Atomics, fences, barriers, monitors, semaphores. -/

/-- R157 to R162, R166: ATOM brings the old value of its location to gd and leaves the new value of the table there, CAS stores gb only where
the location held gd, and no other byte differs. A 32-bit form returns its old value zero-extended, and sign-extended for .s32. For a 32-bit
float that is log 16, the model's choice. R162, R165, R65: RED completes and writes no register; one that is not a floating-point addition
to device memory leaves the new value at its location at once, and one that is joins the reductions that wait there, every byte of memory
reading as before. -/
def Obligations.AtomicsReturnTheOldValueAndStoreTheNew : Prop :=
  (
  ∀ (s : State) (op : AOp) (ty : ATy) (f : AtF) (ks : List Nat),
    let p := s.reg f.a + f.disp.signExtend 64
    let n := match ty with | .n64 | .s64 => 8 | _ => 4
    let cl := s.me.cl
    let k := ks.headD 0
    let ret (v : Nat) : W64 := if ty = .s32 then (BitVec.ofNat 32 v).signExtend 64 else BitVec.ofNat 64 v
    let atK (t : State) (v : Nat) : Prop := ∀ i, i < n → byteAt t cl (k + i) = BitVec.ofNat 8 (v / 2 ^ (8 * i))
    let here := s.Inv ∧ NoneWaits s ∧ k % n = 0 ∧ k < 2 ^ 61 ∧ isPeer k = false
    let b := (s.reg f.b).toNat % 2 ^ (8 * n)
    let int (old : Nat) : Nat := match op with
      | .swap => b | .add => (old + b) % 2 ^ (8 * n) | .and => old &&& b | .or => old ||| b | .xor => old ^^^ b
      | .min => if (ty = .s32 ∨ ty = .s64) then (if signedOf (8 * n) old < signedOf (8 * n) b then old else b) else (if old < b then old else b)
      | .max => if (ty = .s32 ∨ ty = .s64) then (if signedOf (8 * n) old < signedOf (8 * n) b then b else old) else (if old < b then b else old)
      | .incw => if b ≤ old then 0 else old + 1 | .decw => if old = 0 ∨ b < old then b else old - 1
    atomAccess s .at_ true p n (typeOk ty) = .ok ks →
    (∃ t old, exec (.atom op ty f) s = .next t ∧ MemEnds s t f.d (ret old) ∧ old < 2 ^ (8 * n)
      ∧ (here → (∀ i, i < n → BitVec.ofNat 8 (old / 2 ^ (8 * i)) = byteAt s cl (k + i)) ∧ KeepsBytes s t cl (rangeFrom k n)
          ∧ atK t (if ty.isInt then int old else atomNew op ty old (s.reg f.b).toNat)))
    ∧ ∃ t old, exec (.cas ty f) s = .next t ∧ MemEnds s t f.d (ret old) ∧ old < 2 ^ (8 * n)
      ∧ (here → (∀ i, i < n → BitVec.ofNat 8 (old / 2 ^ (8 * i)) = byteAt s cl (k + i)) ∧ KeepsBytes s t cl (rangeFrom k n)
          ∧ atK t (if old = (s.reg f.d).toNat % 2 ^ (8 * n) then b else old)))
  ∧ (
  ∀ (s : State) (op : AOp) (ty : ATy) (f : AtF) (ks : List Nat),
    let p := s.reg f.a + f.disp.signExtend 64
    let n := match ty with | .n64 | .s64 => 8 | _ => 4
    let cl := s.me.cl
    let k := ks.headD 0
    atomAccess s (.red op.code ty.code.toNat) false p n (typeOk ty) = .ok ks →
    ∃ t, exec (.red op ty f) s = .next t ∧ MemEnds s t 0#5 0#64
      ∧ (s.Inv → NoneWaits s → k % n = 0 → k < 2 ^ 61 → isPeer k = false →
          (¬(isDevice k = true ∧ op = .add ∧ ty.isInt = false) →
            KeepsBytes s t cl (rangeFrom k n) ∧ t.redq = []
            ∧ ∃ old, (∀ i, i < n → BitVec.ofNat 8 (old / 2 ^ (8 * i)) = byteAt s cl (k + i)) ∧ old < 2 ^ (8 * n)
                ∧ ∀ i, i < n → byteAt t cl (k + i) = BitVec.ofNat 8 (atomNew op ty old (s.reg f.b).toNat / 2 ^ (8 * i)))
          ∧ (isDevice k = true → op = .add → ty.isInt = false →
            KeepsBytes s t cl [] ∧ ∃ e, t.redq = [e] ∧ e.key = k ∧ e.ty = ty)))

/-- R167, R145: a fence ends with no register written and every byte reading as before. A release sends home the dirty bytes of every line whose
scope is narrower; an acquire leaves no clean byte valid in such a line; acq_rel and sc do both. R172 to R175: what the operations of a
barrier object leave in its fields at its home and return. BARINIT sets the target, clears the arrivals and begins a phase; BARARR counts n
arrivals, exactly, completes a phase for each multiple of the target, and returns the phase as its token; BARTEST tells whether the phase
differs from a token, and BARWAIT returns the phase once it does, and until then waits with its cluster's WAITCL bit set. A target of 0
raises ATOMTYPE. -/
def Obligations.FencesAndBarriers : Prop :=
  (
  ∀ (s : State) (f : FenceF), s.Inv → NoneWaits s →
    let cl := s.me.cl
    ∃ t, exec (.fence f) s = .next t ∧ MemEnds s t 0#5 0#64 ∧ KeepsBytes s t cl []
      ∧ (f.ord ∈ [MOrd.rel, .acqrel, .sc] → ∀ line l o, smFind (s.cl cl).l1 line = some l → l.t < scopeRank f.scope → o < 64 → bitOf l.dirty o = true →
          memGet t.mem (64 * line + o) = smGet 0 l.data o)
      ∧ (f.ord ∈ [MOrd.acq, .acqrel, .sc] → ∀ line l, smFind (t.cl cl).l1 line = some l → l.t < scopeRank f.scope → l.valid = l.dirty))
  ∧ (
  ∀ (s : State) (f : AtF) (ks : List Nat),
    let p := s.reg f.a + f.disp.signExtend 64
    let cl := s.me.cl
    let k := ks.headD 0
    let fld (t : State) (off n : Nat) : Nat := memNat t.mem (k + off) n
    let v := (s.reg f.b).toNat
    s.Inv → NoneWaits s → k % 64 = 0 → (∀ l, smFind (s.cl cl).l1 (k / 64) = some l → l.dirty = 0) → s.me.tryw = none → cl < 192 →
    (atomAccess s .at_ true p 64 barOk = .ok ks →
      (∃ t, exec (.barinit f) s = .next t ∧ MemEnds s t f.d (BitVec.ofNat 64 ((fld s 8 2 + 1) % 2 ^ 16))
        ∧ fld t 0 4 = v % 2 ^ 32 ∧ fld t 4 4 = 0 ∧ fld t 8 2 = (fld s 8 2 + 1) % 2 ^ 16 ∧ fld t 0x10 24 = 0 ∧ KeepsBytes s t cl (rangeFrom k 64))
      ∧ (fld s 0 4 ≠ 0 →
          let n := fld s 4 4 + v % 2 ^ 32
          ∃ t, exec (.bararr f) s = .next t ∧ MemEnds s t f.d (BitVec.ofNat 64 (fld s 8 2))
            ∧ fld t 0 4 = fld s 0 4 ∧ fld t 4 4 = n % fld s 0 4 ∧ fld t 8 2 = (fld s 8 2 + n / fld s 0 4) % 2 ^ 16
            ∧ fld t 0x10 24 = (if n < fld s 0 4 then fld s 0x10 24 else 0) ∧ KeepsBytes s t cl (rangeFrom k 64))
      ∧ (fld s 0 4 = 0 → canTrap s → ∃ t, exec (.bararr f) s = .next t ∧ Trapped s t 0x0C#64 p s.me.pc))
    ∧ (atomAccess s .rd true p 64 barOk = .ok ks →
      (fld s 8 2 ≠ v % 2 ^ 16 →
        (∃ t, exec (.barwait f) s = .next t ∧ MemEnds s t f.d (BitVec.ofNat 64 (fld s 8 2)) ∧ KeepsBytes s t cl [])
        ∧ ∃ t, exec (.bartest f) s = .next t ∧ MemEnds s t f.d 1#64 ∧ KeepsBytes s t cl [])
      ∧ (fld s 8 2 = v % 2 ^ 16 →
        (∃ t, exec (.bartest f) s = .next t ∧ MemEnds s t f.d 0#64 ∧ KeepsBytes s t cl [])
        ∧ (∃ t, exec (.barwait f) s = .next t ∧ t.me = s.me.waits s.us (.bar k (v % 2 ^ 16))
            ∧ (fld t 0x10 24).testBit cl = true ∧ fld t 0 4 = fld s 0 4 ∧ fld t 4 4 = fld s 4 4 ∧ fld t 8 2 = fld s 8 2))))

/-- R176: WAITC brings its word to gd once the word meets the condition, and leaves its context waiting at it otherwise; a wake, of a poll or of
a peer's home, lets a waiting WAITC that now holds complete, and so does the monitor that watches its word at the end of a step. The
condition compares 32 or 64 bits, as signed for lt and ge. That a monitor examines its word when a step, or a lane of an atomic, is over is
log 113, the model's choice. R177: TRYW bounds the next word: with the limit 0, a VQPOP that finds no readable vote ends with 1 in TRYW's
register, and with a greater one it waits from then on; one that finds a vote completes with 0 there; a waiting word whose time has run out
before its condition was met ends with 1, and until then goes on waiting. Before any other word it raises ILLEGAL at that word, and the
timeout is dropped. -/
def Obligations.WaitingWordsCompleteOrTimeOut : Prop :=
  (
  ∀ (s : State) (wide : Bool) (cc : WCond) (f : AtF) (ks : List Nat),
    let p := s.reg f.a + f.disp.signExtend 64
    let n := if wide then 8 else 4
    let cl := s.me.cl
    let k := ks.headD 0
    let w := leNat ((rangeFrom k n).map (byteAt s cl))
    let g := (s.reg f.b).toNat % 2 ^ (8 * n)
    let holds : Prop := match cc with
      | .eq => w = g | .ne => w ≠ g | .ltn => w < g | .gen => g ≤ w
      | .lt => signedOf (8 * n) w < signedOf (8 * n) g | .ge => signedOf (8 * n) g ≤ signedOf (8 * n) w
    s.Inv → NoneWaits s → k % n = 0 → k < 2 ^ 61 → isPeer k = false → s.me.tryw = none →
    atomAccess s .rd true p n (fun _ => true) = .ok ks →
    (holds → ∃ t, exec (.waitc wide cc f) s = .next t ∧ MemEnds s t f.d (BitVec.ofNat 64 w) ∧ KeepsBytes s t cl [])
    ∧ (¬holds → ∃ t held, exec (.waitc wide cc f) s = .next t
        ∧ t.me = s.me.waits s.us (s.me.watch.getD (.word k n cc (s.reg f.b).toNat held f)) ∧ KeepsBytes s t cl [])
    ∧ (∀ b s0, s0.me.st = .waiting b → genNext s0 = (s, some (.waitc wide cc f)) → holds →
        ∀ i ∈ [Instr.waitcPoll, .drawbarMonitorWake], ∃ t, exec i s0 = .next t ∧ MemEnds s t f.d (BitVec.ofNat 64 w))
    ∧ ∀ cid b, let c := s.ctx cid
        c.st.resident = true → c.watch = some (.word k n cc b true f) → c.tryw = none → (∀ q ∈ rangeFrom k n, q ∉ s.ecc) → wcHolds cc (8 * n) (wordAtHome s c.cl k n) b = true →
        ((serveCtx s cid).ctx cid).pc = c.pc + 8#64 ∧ ((serveCtx s cid).ctx cid).watch = none
        ∧ (f.d ≠ 0#5 → ((serveCtx s cid).ctx cid).reg f.d = BitVec.ofNat 64 (wordAtHome s c.cl k n)))
  ∧ (
  ∀ (s : State) (d : GReg) (x : GSrc),
    let c := s.me
    let timedOut (t : State) (w : Tryw) : Prop :=
      t.me = { c.past s.us 1 with tryw := none, g := t.me.g } ∧ (∀ r, t.reg r = if r = w.d ∧ w.d ≠ 0#5 then 1#64 else s.reg r)
        ∧ (∀ k, k ≠ s.cur → t.ctx k = s.ctx k) ∧ (∀ k, ∀ q ∈ (t.sem k).ws, q.1 ≠ s.cur) ∧ t.mem = (clearWaitcl s s.cur).mem
    (∃ t, exec (.tryw d x) s = .next t
      ∧ MeIs s t { c.past s.us 1 with tryw := some { d := d, t := (s.srcN x).toNat, at_ := c.pc, start := s.mc, met := false } })
    ∧ (∀ i, (match i with
          | .semacq .. | .barwait .. | .waitc .. | .rwait .. | .vqpop .. | .twaitp .. | .twaitpAll | .qpopb .. | .msgpop .. | .msgpeek .. => False
          | _ => True) → c.tryw ≠ none → canTrap s → ∃ t, admit1 s i = (t, none) ∧ Trapped s t 0x01#64 0#64 c.pc ∧ t.me.tryw = none)
    ∧ (∀ w e, c.tryw = some w → c.st = .waiting e →
        (w.start + w.t ≤ s.mc → w.met = false → ∃ t, exec .trywTimeout s = .next t ∧ timedOut t w)
        ∧ (s.mc < w.start + w.t ∨ w.met = true → exec .trywTimeout s = .next s))
    ∧ (∀ w q, c.tryw = some w → c.strm.votesOut ≠ 0 →
        (w.t = 0 → c.strm.voteQ = [] → ∃ t, exec (.vqpop q) s = .next t ∧ timedOut t w)
        ∧ (w.t ≠ 0 → c.strm.voteQ = [] →
            (c.st = .running ∨ c.st = .early → ∃ t, exec (.vqpop q) s = .next t
              ∧ MeIs s t { c.waits s.us .vote with tryw := some { w with start := s.mc } })
            ∧ ∀ e, c.st = .waiting e → ∃ t, exec (.vqpop q) s = .next t
              ∧ MeIs s t { c with watch := some .vote, tryw := some { w with met := false } })
        ∧ (∀ v vs, c.strm.voteQ = v :: vs → q ≠ w.d → q ≠ 0#5 → w.d ≠ 0#5 →
          ∃ t, exec (.vqpop q) s = .next t ∧ t.reg q = v ∧ t.reg w.d = 0#64 ∧ t.me.tryw = none)))

/-- R169 to R171: the result word of each semaphore operation, with value, error and the flag of one that did not subtract, and what it leaves
in the semaphore, when its owner is resident and nobody waits there. A SEMACQ that does not fit waits in the semaphore's list; SEMREL
saturates and sets the error; an index beyond the task's contexts raises PERM; while the owner is away every operation waits, a SEMACQ in
its place among those that do. R170: a SEMREL serves the oldest waiter whose count then fits, which resumes past its SEMACQ with the value
that it found and the value less its count in the semaphore; a waiter that does not fit holds nobody back. That the waiter wakes in the
SEMREL's own step is log 32, the model's choice. -/
def Obligations.SemaphoresCountAndServeTheirWaiters : Prop :=
  (
  ∀ (s : State) (d a : GReg) (i : BitVec 6) (x : GSrc),
    let c := s.me
    let n := (s.srcN x).toNat % 2 ^ 32
    (8 * (s.task c.task).r.nctx ≤ i.toNat → canTrap s →
      ∀ j ∈ [Instr.semacq d i x, .semtry d i x, .semrel d i x, .semset i a, .semget d i], ∃ t, exec j s = .next t ∧ Trapped s t 0x08#64 0#64 c.pc)
    ∧ (c.tryw = none → i.toNat < 8 * (s.task c.task).r.nctx → semKey s c i.toNat = none →
        (∀ j ∈ [Instr.semtry d i x, .semrel d i x, .semset i a, .semget d i], ∃ t, exec j s = .next t ∧ MeIs s t (c.waits s.us .served))
        ∧ ∃ t, exec (.semacq d i x) s = .next t ∧ t.me = c.waits s.us .served ∧ t.sems = s.sems
            ∧ let ws := smGet [] s.semAway (8 * s.sibling c (i.toNat / 8) + i.toNat % 8)
              smGet [] t.semAway (8 * s.sibling c (i.toNat / 8) + i.toNat % 8) = if ws.any (fun w => w.1 = s.cur) then ws else ws ++ [(s.cur, n, d)])
    ∧ ∀ k,
      let m := s.sem k
      let R (f : Bool) : W64 := BitVec.ofNat 64 (m.v + (if m.e then 2 ^ 32 else 0) + (if f then 2 ^ 33 else 0))
      let sems (t : State) (v : Nat) (e : Bool) : Prop := (t.sem k).v = v ∧ (t.sem k).e = e ∧ ∀ j, j ≠ k → t.sem j = s.sem j
      let ends (t : State) (v : W64) : Prop :=
        t.me = { c.past s.us 1 with g := t.me.g } ∧ (∀ r, t.reg r = if r = d ∧ d ≠ 0#5 then v else s.reg r) ∧ ∀ j, j ≠ s.cur → t.ctx j = s.ctx j
      c.tryw = none → i.toNat < 8 * (s.task c.task).r.nctx → semKey s c i.toNat = some k → m.ws = [] →
      (n ≠ 0 → n ≤ m.v → ∀ j ∈ [Instr.semacq d i x, .semtry d i x], ∃ t, exec j s = .next t ∧ ends t (R false) ∧ sems t (m.v - n) m.e)
      ∧ (n = 0 → ∀ j ∈ [Instr.semacq d i x, .semtry d i x], ∃ t, exec j s = .next t ∧ ends t (R false) ∧ sems t m.v m.e)
      ∧ (m.v < n → (∃ t, exec (.semtry d i x) s = .next t ∧ ends t (R true) ∧ sems t m.v m.e)
          ∧ (m.e = true → ∃ t, exec (.semacq d i x) s = .next t ∧ ends t (R true) ∧ sems t m.v m.e)
          ∧ (m.e = false → ∃ t, exec (.semacq d i x) s = .next t ∧ t.me = c.waits s.us .served ∧ t.sem k = { m with ws := [(s.cur, n, d)] }))
      ∧ (∃ t, exec (.semrel d i x) s = .next t ∧ ends t (R false)
          ∧ sems t (min (m.v + n) (2 ^ 32 - 1)) (m.e || decide (2 ^ 32 - 1 < m.v + n)))
      ∧ (∃ t, exec (.semset i a) s = .next t ∧ MemEnds { s with sems := t.sems } t 0#5 0#64 ∧ sems t ((s.reg a).toNat % 2 ^ 32) ((s.reg a).getLsbD 32))
      ∧ (∃ t, exec (.semget d i) s = .next t ∧ Ends s t 1 d (R false)))
  ∧ (
  ∀ (s : State) (d : GReg) (i : BitVec 6) (x : GSrc) (k : Nat),
    let m := s.sem k
    let n := (s.srcN x).toNat % 2 ^ 32
    i.toNat < 8 * (s.task s.me.task).r.nctx → semKey s s.me i.toNat = some k → m.e = false → m.v + n < 2 ^ 32 →
    ∀ c1 n1 d1 c2 n2 d2, m.ws = [(c1, n1, d1), (c2, n2, d2)] → c1 ≠ c2 → c1 ≠ s.cur → c2 ≠ s.cur → (s.ctx c2).tryw = none →
      m.v + n < n1 → n2 ≤ m.v + n →
      ∃ t, exec (.semrel d i x) s = .next t ∧ (t.sem k).v = m.v + n - n2 ∧ (t.sem k).ws = [(c1, n1, d1)]
        ∧ t.ctx c1 = s.ctx c1 ∧ (t.ctx c2).pc = (s.ctx c2).pc + 8#64
        ∧ (d2 ≠ 0#5 → (t.ctx c2).reg d2 = BitVec.ofNat 64 (m.v + n)))

/-! The matrix engine. -/

/-- R180, R81: while another task has the engine of its cluster, a matrix instruction leaves the machine as it is, and one that takes a free
engine finds every tile +0 and every register at its reset value; here MWAIT, which then ends. R180, R183, R197, R199: MCFG, MADPT and
MPROG, in a task that has the engine or takes a free one, set the engine's registers: a legal descriptor from its quad, the binding, unless
side values are pending, the program and its parameter block, once its words have been read and none is refused. A descriptor that MCFG
refuses is ILLEGAL, or ALIGN off the 64-byte grid; a refused word of a program is ILLEGAL with its index; a pointer of MPROG out of place
ALIGN, and a fault of its read is precise; a read may wait for a walk. Nothing else changes. -/
def Obligations.MatrixConfigurationSetsTheEngineRegisters : Prop :=
  (
  ∀ (s : State) (z : BitVec 3) (a b q : GReg) (x y : Bool) (h : BitVec 4) (m : BitVec 8) (l : TLay) (v : BitVec 8) (hh : Option (BitVec 4)) (n : Nat),
    (n ≠ s.me.task → (s.eng s.me.cl).owner = some n →
      ∀ i ∈ [Instr.mcfgA q, .mcfgB q, .mcfgResume, .mcfgAbandon, .mzero m, .mloop z x a, .mloopr x y z x h h a, .mtile l z a b, .mstt l z a b,
          .msttEng a, .mmovt x y z v, .mprog a b, .mdrain z x a b hh, .mwait, .mwaitTile z, .mwaitStop, .madpt q, .madptOff],
        exec i s = .next s)
    ∧ ((s.eng s.me.cl).owner = none → ∃ t, exec .mwait s = .next t ∧ t.me = s.me.past s.us 1 ∧ t.eng s.me.cl = { Eng.reset with owner := some s.me.task }
        ∧ (∀ k, k ≠ s.me.cl → t.eng k = s.eng k) ∧ t = { s with ctxs := t.ctxs, cls := t.cls }))
  ∧ (
  ∀ (s : State) (q a b : GReg),
    let cl := s.me.cl
    let s1 : State := if (s.eng cl).owner = none then s.setEng cl { Eng.reset with owner := some s.me.task } else s
    let e := s1.eng cl
    let d : OpDesc := ⟨s.reg q, s.reg (q + 1#5), s.reg (q + 2#5), s.reg (q + 3#5)⟩
    let kind := (d.q3.extractLsb' 4 2).toNat
    let fmtc := (d.q3.extractLsb' 0 4).toNat
    let illegal : Prop := 12 ≤ fmtc ∨ kind = 3 ∨ (d.q3.getLsbD 6 = true ∧ kind ≠ 1) ∨ (d.q3.getLsbD 7 = true ∧ (fmtOfDesc d).blockScaled = false)
      ∨ d.q3.extractLsb' 40 24 ≠ 0#24 ∨ (kind = 1 ∧ d.base.toNat / 8 ≠ 0) ∨ (d.q3.getLsbD 7 = false ∧ d.q2 ≠ 0#64)
    let off : Prop := kind = 0 ∧ (d.base.toNat % 64 ≠ 0 ∨ d.q1.toNat % 2 ^ 32 % 64 ≠ 0 ∨ d.q1.toNat / 2 ^ 32 % 64 ≠ 0)
    let set (t : State) (e' : Eng) : Prop :=
      t.me = s.me.past s.us 1 ∧ t.eng cl = e' ∧ (∀ k, k ≠ cl → t.eng k = s.eng k) ∧ (∀ k, t.cl k = { s.cl k with eng := t.eng k })
        ∧ t = { s with ctxs := t.ctxs, cls := t.cls }
    let traps (u : State) (i : Instr) (code info : W64) : Prop := ∃ t, exec i s = .next t ∧ Trapped u t code info s.me.pc
    (s.eng cl).owner = none ∨ (s.eng cl).owner = some s.me.task →
    (¬illegal → ¬off →
      (∃ t, exec (.mcfgA q) s = .next t ∧ set t { e with opa := d }) ∧ ∃ t, exec (.mcfgB q) s = .next t ∧ set t { e with opb := d })
    ∧ (canTrap s → (illegal → traps s1 (.mcfgA q) 0x01#64 0#64 ∧ traps s1 (.mcfgB q) 0x01#64 0#64)
        ∧ (¬illegal → off → traps s1 (.mcfgA q) 0x0A#64 d.base ∧ traps s1 (.mcfgB q) 0x0A#64 d.base))
    ∧ (e.adpend = false → (∃ t, exec (.madpt q) s = .next t ∧ set t { e with ad := some d }) ∧ ∃ t, exec .madptOff s = .next t ∧ set t { e with ad := none })
    ∧ (e.adpend = true → canTrap s → traps s1 (.madpt q) 0x12#64 3#64 ∧ traps s1 .madptOff 0x12#64 3#64)
    ∧ (canTrap s → ((s.reg a).toNat % 4 ≠ 0 → traps s1 (.mprog a b) 0x0A#64 (s.reg a))
        ∧ ((s.reg a).toNat % 4 = 0 → (s.reg b).toNat % 64 ≠ 0 → traps s1 (.mprog a b) 0x0A#64 (s.reg b)))
    ∧ ((s.reg a).toNat % 4 = 0 → (s.reg b).toNat % 64 = 0 →
        match readProg s.cur s.me.trap.pl (s.reg a) 32 0 [] s1 with
        | .ok u (ws, none) => ∃ t, exec (.mprog a b) s = .next t ∧ t.me = u.me.past u.us 1
            ∧ t.eng u.me.cl = { u.eng u.me.cl with prog := s.reg a, param := s.reg b, words := ws } ∧ t = { u with ctxs := t.ctxs, cls := t.cls }
        | .ok u (_, some k) => canTrap u → ∃ t, exec (.mprog a b) s = .next t ∧ Trapped u t 0x01#64 (BitVec.ofNat 64 k) u.me.pc
        | .fault c i => canTrap s → c ≠ 0x09 → traps s1 (.mprog a b) (BitVec.ofNat 64 (plainCode c)) i
        | .wait u => exec (.mprog a b) s = .next u))

/-- R184, R185, R188, R190, R194 to R196: an operation whose checks pass enters the queue of its task's engine behind the others, with the
values it captures at issue, and its context goes on; tiles and registers of the engine, which a task may take when it is free, stay. A full
queue leaves everything as it is. A loop of no steps only ends. Operands of unlike width, and tiles out of range, are ILLEGAL. -/
def Obligations.MatrixOperationsEnterTheQueue : Prop :=
  ∀ (s : State) (z : BitVec 3) (a b : GReg) (m : BitVec 8) (l : TLay) (v : BitVec 8) (clr adp w48 ra rb : Bool) (ha hb : BitVec 4),
    let c := s.me
    let s1 : State := if (s.eng c.cl).owner = none then s.setEng c.cl { Eng.reset with owner := some c.task } else s
    let e := s1.eng c.cl
    let queued (t : State) (k : EOpK) : Prop :=
      t.me = c.past s.us 1 ∧ (t.eng c.cl).tiles = e.tiles ∧ (t.eng c.cl).opa = e.opa ∧ (t.eng c.cl).opb = e.opb ∧ (t.eng c.cl).words = e.words
      ∧ t.mem = s.mem ∧ t.rows = s.rows
      ∧ ∃ o, (t.eng c.cl).q = e.q ++ [o] ∧ o.k = k ∧ o.cid = s.cur ∧ o.running = false ∧ o.begun = false
    let n := (s.reg a).toNat % 2 ^ 32
    let fed (d : OpDesc) (r : Bool) (h : BitVec 4) : Prop :=
      if r then ∃ o, ringOf s c h.toNat = some o ∧ stepBytes d ≤ (s.ring o).size
      else descKind d ≠ 2 ∧ (descKind d = 1 → descTile d + n ≤ 8 ∧ (z.toNat < descTile d ∨ descTile d + n ≤ z.toNat))
    let same : Prop := (fmtOfDesc e.opa).width = (fmtOfDesc e.opb).width
    let bound : Prop := adp = true → e.ad ≠ none ∧ (∃ u, downMismatch s1 (fmtOfDesc e.opa).width = .ok u false) ∧ (e.adpend = true → e.adtile = z.toNat)
    let q := e.ad.getD OpDesc.zero
    let quad := [q.base, q.q1, q.q2, q.q3]
    (s.eng c.cl).owner = none ∨ (s.eng c.cl).owner = some c.task →
    (16 ≤ e.q.length → ∀ i ∈ [Instr.mzero m, .mloop z adp a, .mloopr true rb z adp ha hb a, .mtile l z a b, .mstt l z a b, .mmovt clr w48 z v, .mdrain z clr a b none],
        exec i s = .next s)
    ∧ (e.q.length < 16 → (∀ k, (s.cl k).locks.length ≤ 50) →
      (∃ t, exec (.mzero m) s = .next t ∧ queued t (.mzero m.toNat))
      ∧ ((s.reg a).toNat % 8 = 0 → (s.reg b).toNat % 8 = 0 →
          (∃ t, exec (.mtile l z a b) s = .next t ∧ queued t (.mtile l z.toNat (s.reg a) (s.reg b)))
          ∧ ∃ t, exec (.mstt l z a b) s = .next t ∧ queued t (.mstt l z.toNat (s.reg a) (s.reg b)))
      ∧ (c.strm.ents = [] → c.strm.pres = none →
          (n ≠ 0 → same → bound → fed e.opa false ha → fed e.opb false hb →
            ∃ t, exec (.mloop z adp a) s = .next t ∧ queued t (.mloop z.toNat n adp e.opa e.opb c.team.fmt quad none none))
          ∧ (n ≠ 0 → same → bound → fed e.opa ra ha → fed e.opb rb hb →
            ∃ t, exec (.mloopr ra rb z adp ha hb a) s = .next t
              ∧ queued t (.mloop z.toNat n adp e.opa e.opb c.team.fmt quad (if ra then ringOf s c ha.toNat else none) (if rb then ringOf s c hb.toNat else none)))
          ∧ (n = 0 → same → descKind e.opa = 0 → descKind e.opb = 0 → ∃ t, exec (.mloop z false a) s = .next t ∧ t.me = c.past s.us 1 ∧ t.eng c.cl = e)
          ∧ (¬same → canTrap s → ∃ t, exec (.mloop z adp a) s = .next t ∧ Trapped s1 t 0x01#64 1#64 c.pc)
          ∧ (n ≠ 0 → same → descKind e.opa = 1 → 8 < descTile e.opa + n → canTrap s →
              ∃ t, exec (.mloop z adp a) s = .next t ∧ Trapped s1 t 0x01#64 2#64 c.pc)
          ∧ (∀ u blk, drainBlk s1 s.cur c.trap.pl e.words e.param = .ok u blk →
              (∃ t, exec (.mdrain z clr a b none) s = .next t ∧ queued t (.mdrain z.toNat clr (s.reg a) (s.reg b) none c.team.fmt e.words e.param))
              ∧ ∃ t, exec (.mdrain z clr a b (some ha)) s = .next t ∧ queued t (.mdrain z.toNat clr 0#64 0#64 (some (ringOf s c ha.toNat)) c.team.fmt e.words e.param))
          ∧ (v.toNat * c.team.rpr + movRegs c.team w48 * c.team.rpr ≤ c.team.vl → s.empt = [] →
              (∃ t, exec (.mmovt false w48 z v) s = .next t ∧ queued t (.mmovtOut z.toNat v.toNat w48)
                ∧ ∀ k ∈ movRows c v.toNat (movRegs c.team w48), t.isEmpty k = true)
              ∧ ∃ t vals, exec (.mmovt true w48 z v) s = .next t ∧ queued t (.mmovtIn z.toNat vals)
                ∧ ∀ k, k < 1024 →
                  let lane (r : Nat) : Nat := (s.lane c (v.toNat + r) (k % c.team.w)).toNat
                  vals.getD k 0#48 = if w48 then BitVec.ofNat 48 (lane (2 * (k / c.team.w)) + 2 ^ 32 * lane (2 * (k / c.team.w) + 1))
                    else BitVec.ofNat 48 (cvt .w48 false false false .rne (decodeElem .fp32 false (lane (k / c.team.w)))))))

/-- R193, R198: MWAIT ends on an empty queue, MWAIT of a tile when no operation of the queue reads or writes it, and inside a handler both end
once nothing runs in a held queue or past it; MWAIT.STOP holds the queue, MCFG.RESUME lets it go on, and MCFG.ABANDON drops the head
operation, faulted or stopped, and what is held behind it, with their ranges and slots. MSTT.ENG of an engine in which nothing runs stores
its frame, which keeps the whole engine; MTILE.ENG, on an empty queue, brings back what a frame keeps but for the tiles, each range of its
queue registered again, or without room nothing, and each key looked up. That the queue is held at once is log 39, and that bytes which are
no frame leave an empty queue log 17: the model's choices. R184, R195: the operation at the head of a pipe: MZERO makes each element of its
tiles +0, a move of lanes into a tile writes its values, a loop that has done its steps ends; the operation and its range locks leave, the
other tiles stay. -/
def Obligations.EngineWaitsFramesAndCompletions : Prop :=
  (
  ∀ (s : State) (z : BitVec 3) (a : GReg),
    let c := s.me
    let e := s.eng c.cl
    let held := if e.stopped then e.q else e.q.dropWhile fun o => some o.id ≠ e.fop
    let gone := held.filter fun o => !o.running
    e.owner = some c.task →
    (e.q = [] → (∃ t, exec .mwait s = .next t ∧ MeIs s t (c.past s.us 1)) ∧ ∃ t, exec .mwaitStop s = .next t ∧ MeIs s t (c.past s.us 1))
    ∧ (e.q ≠ [] → c.trap.intrap = false → exec .mwait s = .next s)
    ∧ (c.trap.intrap = true → (∀ o ∈ e.q, o.running = false ∧ o.ovr = false) → e.faulted = true ∨ e.stopped = true →
        ∀ i ∈ [Instr.mwait, .mwaitTile z], ∃ t, exec i s = .next t ∧ MeIs s t (c.past s.us 1))
    ∧ ((∀ o ∈ e.q, z.toNat ∉ o.k.reads ∧ z.toNat ∉ o.k.writes) → ∃ t, exec (.mwaitTile z) s = .next t ∧ MeIs s t (c.past s.us 1))
    ∧ (e.q ≠ [] → e.faulted = false →
        ∃ t, exec .mwaitStop s = .next t ∧ t.me = c.past s.us 1 ∧ (t.eng c.cl).stopped = true ∧ (t.eng c.cl).tiles = e.tiles ∧ (t.eng c.cl).rp = e.rp
          ∧ (t.eng c.cl).q.map (·.k) = e.q.map (·.k) ∧ ∀ i ∈ [false, true], (∀ o ∈ e.q, o.ovr = false) → engOp t c.cl i = none)
    ∧ (e.faulted = true ∨ e.stopped = true →
        (∃ t, exec .mcfgResume s = .next t ∧ t.me = c.past s.us 1 ∧ (t.eng c.cl).faulted = false ∧ (t.eng c.cl).stopped = false
          ∧ (t.eng c.cl).q.map (·.k) = e.q.map (·.k) ∧ (t.eng c.cl).rp = e.rp ∧ (t.eng c.cl).tiles = e.tiles ∧ (∀ k, k ≠ c.cl → t.eng k = s.eng k))
        ∧ ∃ t, exec .mcfgAbandon s = .next t ∧ t.me = c.past s.us 1 ∧ (t.eng c.cl).faulted = false ∧ (t.eng c.cl).stopped = false
          ∧ (t.eng c.cl).q = e.q.filter (fun o => !gone.any fun x => x.id = o.id) ∧ (t.eng c.cl).tiles = e.tiles
          ∧ (∀ k, ∀ l ∈ (t.cl k).locks, ∀ o ∈ gone, l.id ≠ o.id)
          ∧ (∀ o ∈ gone, ∀ z clr p st r f ws pa k, o.k = .mdrain z clr p st (some (some r)) f ws pa → o.sa = some k → k ∉ (t.ring r).claimed) ∧ (∀ k, k ≠ c.cl → t.eng k = s.eng k))
    ∧ (e.faulted = false → e.stopped = false → ∀ i ∈ [Instr.mcfgResume, .mcfgAbandon], ∃ t, exec i s = .next t ∧ MeIs s t (c.past s.us 1))
    ∧ (∀ ks, (∀ o ∈ e.q, o.running = false) → e.q = [] ∨ e.stopped = true ∨ e.faulted = true → (s.reg a).toNat % 64 = 0 →
        engAccess { s with freeCtr := s.freeCtr + 1 } s.cur c.trap.pl true .st (s.reg a) 0x4000 = .ok ks →
        ∃ t, exec (.msttEng a) s = .next t ∧ smFind t.saved s.freeCtr = some (.eng e) ∧ t.me = c.past s.us 1 ∧ t.eng c.cl = { e with framed := true })
    ∧ (∀ u bs, e.q = [] → (s.reg a).toNat % 64 = 0 → engRead s s.cur c.trap.pl true (s.reg a) 0x4000 = .ok u bs →
        (∀ fr v xs w, findSaved u bs 0 = some (.eng fr) → frameOps fr.q u = .ok v xs → relock c.cl xs v = some w →
          ∃ t, exec (.mtileEng a) s = .next t
            ∧ t.eng c.cl = { fr with owner := e.owner, tiles := e.tiles, q := (relooks xs w).2, framed := false, haltStop := false } ∧ t.me.pc = c.pc + 8#64 ∧ t.me.g = c.g ∧ (fr.q = [] → t.me = c.past s.us 1))
        ∧ (∀ fr v xs, findSaved u bs 0 = some (.eng fr) → frameOps fr.q u = .ok v xs → relock c.cl xs v = none → exec (.mtileEng a) s = .next u)
        ∧ (findSaved u bs 0 = none →
          ∃ t, exec (.mtileEng a) s = .next t ∧ (t.eng c.cl).owner = e.owner ∧ (t.eng c.cl).tiles = e.tiles ∧ (t.eng c.cl).q = [] ∧ t.me = c.past s.us 1)))
  ∧ (
  ∀ (s : State) (cl : Nat) (o : EOp), engOp s cl false = some o →
    let e := s.eng cl
    let left (t : State) : Prop := (t.eng cl).q = e.q.filter (fun x => x.id ≠ o.id) ∧ (∀ k, ∀ l ∈ (t.cl k).locks, l.id ≠ o.id)
      ∧ t = { s with cls := t.cls } ∧ (t.cl cl).l1 = (s.cl cl).l1
    (∀ m, o.k = .mzero m → ∃ t, exec (.engineOpCompletion cl false) s = .next t ∧ left t
      ∧ ∀ z i j, z < 8 → i < 32 → j < 32 → tileElem (t.eng cl) z i j = if m.testBit z then 0#48 else tileElem e z i j)
    ∧ (∀ z vals, o.k = .mmovtIn z vals → vals.length = 1024 → ∃ t, exec (.engineOpCompletion cl false) s = .next t ∧ left t
      ∧ ∀ x i j, i < 32 → j < 32 → tileElem (t.eng cl) x i j = if x = z then vals.getD (32 * i + j) 0#48 else tileElem e x i j)
    ∧ (∀ z n adp a b f ad ra rb, o.k = .mloop z n adp a b f ad ra rb → n ≤ e.rp.step →
      ∃ t, exec (.engineOpCompletion cl false) s = .next t ∧ left t ∧ (t.eng cl).tiles = e.tiles ∧ (t.eng cl).rp = RowProg.zero))

/-- R62, R182, R186: the K-step of a loop over tile operands: every element of the output becomes one K-step of its old value over the row of A
and the column of B that the tiles' ports give at the step, and ME.ROWPROG moves to the next step; the other tiles stay. R200: a side step
of a loop whose A is a tile: each row that has the step's adapter adds its products with the Down lines to T, one K-step an element, the
other rows and the tiles stay, and SIDX counts the step. -/
def Obligations.EngineStepsAccumulateOnce : Prop :=
  (
  ∀ (s : State) (o : EOp) (z n st : Nat) (a b : OpDesc) (f : W32) (ad : List W64),
    let cl := s.curCl
    let e := s.eng cl
    engOp s cl false = some o → o.k = .mloop z n false a b f ad none none → o.begun = true → e.rp = ⟨st, 0, false, 0⟩ → st + 1 < n →
    descKind a = 1 → descKind b = 1 → descScl a = false → descScl b = false → descTile a + st ≠ z → descTile b + st ≠ z →
    let line (d : OpDesc) (i : Nat) : List FV :=
      (tileLine e (descTile d + st) i (fmtOfDesc d).width (descTrans d)).map fun x => readElem (fmtOfDesc d) (fmtFc f) (fmtFlush f) x
    ∃ t, exec .kStep s = .next t ∧ (t.eng cl).rp = ⟨st + 1, 0, false, 0⟩
      ∧ (∀ i j, i < 32 → j < 32 → tileElem (t.eng cl) z i j = kstep (fmtSat f) (tileElem e z i j) ((line a i).zip (line b j)))
      ∧ (∀ x i j, x ≠ z → i < 32 → j < 32 → tileElem (t.eng cl) x i j = tileElem e x i j) ∧ t.mem = s.mem ∧ t.ctxs = s.ctxs)
  ∧ (
  ∀ (s u : State) (o : EOp) (z n st k id c : Nat) (a b : OpDesc) (f : W32) (ad : List W64) (dl : List (Nat × List FV)),
    let cl := s.curCl
    let e := s.eng cl
    engOp s cl false = some o → o.k = .mloop z n true a b f ad none none → o.begun = true → e.rp = ⟨st, k, true, 0⟩ → st < n →
    descKind a = 1 → descScl a = false →
    (sideList e.adTags e.adEnts)[k]? = some (id, c) → k + 1 < (sideList e.adTags e.adEnts).length → e.adTags.length = 32 →
    let en := smGet [] e.adEnts id
    downLines o.cid o.lvl1 en f ((quadDesc ad).q3.toNat + st) ((rangeFrom (32 * c) 32).filter fun m => decide (m < adRank en)) s = .ok u dl → u.cls = s.cls →
    (dl.map (·.1)).Nodup → (∀ p ∈ dl, p.1 < 64) →
    let line (i : Nat) : List FV := (tileLine e (descTile a + st) i (fmtOfDesc a).width (descTrans a)).map fun x => readElem (fmtOfDesc a) (fmtFc f) (fmtFlush f) x
    ∃ t, exec .sideStep s = .next t ∧ (t.eng cl).rp = ⟨st, k + 1, true, 0⟩ ∧ (t.eng cl).tiles = e.tiles
      ∧ (∀ i, i < 32 → e.adTags.getD i 0 = id → ∀ p ∈ dl,
          smGet 0#48 (t.eng cl).side (64 * i + p.1) = kstep (fmtSat f) (smGet 0#48 e.side (64 * i + p.1)) ((line i).zip p.2))
      ∧ ∀ i m, i < 32 → m < 64 → e.adTags.getD i 0 ≠ id → smGet 0#48 (t.eng cl).side (64 * i + m) = smGet 0#48 e.side (64 * i + m))

/-! The epilogue processor. -/

/-- R206: each word of the epilogue processor but its loads and stores gives every element of its destination the value of the table, rounded
once into W48, from the row's values before it; the other registers and everything else stay, and the next word follows. That ESEL copies
the code, so that a NaN keeps its bits, is log 45, the model's choice. -/
def Obligations.EpilogueWordsGiveEveryElementItsValue : Prop :=
  ∀ (s : State) (d a b c cc : BitVec 3) (rm : BitVec 3) (fmt k : BitVec 4) (kind : BitVec 2),
    let e := s.epi s.curCl
    let x (r : BitVec 3) (j : Nat) : FV := w48Val (e.get r j)
    let rnd (v : FV) : W48 := roundW48 (fmtSat e.fmt) v
    let neg (v w : FV) : Bool := fvBelow v w
    let zcmp (v : FV) : Option Ordering := if v.isNan then none else some (fvCmp v (.zero false))
    let gives (i : Instr) (f : Nat → W48) : Prop :=
      ∃ regs, exec i s = .next (s.setEpi s.curCl { e with regs := regs, pcw := e.pcw + 1 })
        ∧ ∀ r : BitVec 3, ∀ j, j < 32 → smGet 0#48 regs (32 * r.toNat + j) = if r = d then f j else e.get r j
    let pick (big : Bool) (v w : W48) : W48 :=
      if (w48Val v).isNan ∨ (w48Val w).isNan then 0x7FF800000000#48
      else if (if big then neg (w48Val v) (w48Val w) else neg (w48Val w) (w48Val v)) then w else v
    gives (.eadd d a b) (fun j => rnd (fvAdd .rne (x a j) (x b j)))
    ∧ gives (.emul d a b) (fun j => rnd (fvMul (x a j) (x b j)))
    ∧ gives (.efma d a b c) (fun j => rnd (fvAdd .rne (fvMul (x a j) (x b j)) (x c j)))
    ∧ gives (.emax d a b) (fun j => pick true (e.get a j) (e.get b j))
    ∧ gives (.emin d a b) (fun j => pick false (e.get a j) (e.get b j))
    ∧ (cc.toNat < 6 → gives (.esel d a b c cc) fun j =>
        if (match cc.toNat, zcmp (x c j) with
          | 0, some .gt | 1, some .gt | 1, some .eq | 2, some .eq | 3, some .gt | 3, some .lt | 4, some .lt | 5, some .lt | 5, some .eq => true
          | _, _ => false) then e.get a j else e.get b j)
    ∧ gives (.eexp2 d a) (fun j => BitVec.ofNat 48 (exp2Code .w48 (fmtSat e.fmt) false false (e.get a j).toNat))
    ∧ gives (.ercp d a) (fun j => BitVec.ofNat 48 (rcpCode .w48 (fmtSat e.fmt) false false .rne (e.get a j).toNat))
    ∧ (∀ ef, EFmt.ofCode fmt.toNat = some ef → gives (.ecvt d a rm fmt) fun j =>
        let m := rmOf e.fmt rm
        roundW48 false (decodeElem ef (fmtFc e.fmt) (cvt ef (fmtFc e.fmt) (fmtSat e.fmt) (fmtFtz e.fmt) (if m = .sr then .rne else m) (x a j))))
    ∧ (kind.toNat < 3 → gives (.eldc d kind k) fun j =>
        if kind = 0#2 then BitVec.ofNat 48 (leNat ((e.param.drop (8 * k.toNat)).take 8))
        else if kind = 1#2 then roundW48 false (.ofInt e.row) else roundW48 false (.ofInt j))
    ∧ gives (.eadpt d a) (fun j => match smFind e.scales e.row with
        | none => e.get a j
        | some sc => rnd (fvAdd .rne (x a j) (fvMul (decodeElem .fp32 false sc.toNat) (w48Val (smGet 0#48 e.up (32 * e.row + j))))))
    ∧ gives (.ermax d a) (fun _ => (List.range 32).foldl (fun m j => pick true m (e.get a j)) (e.get a 0))
    ∧ gives (.ersum d a) (fun _ => rnd (exactSum ((List.range 32).map (x a))))

/-- R204, R206 to R208, R210: ELDR and ELDM bring the row's value, or its 32 values, from where the parameter block points, decoded exactly,
each byte as it stands or as it stood before an earlier row of the drain stored to it; EST of mode 0 puts the row's codes at its
destination's row, each in the width of its format, with a scale byte for a block-scaled store at the row's place in the scale vector, or in
its ring slot; EST of modes 1 and 2 puts element 0's value into a row vector; a fault of the access ends the row; EEND ends the program. The
bytes of a store are performed after the row's program. R196, R205 to R207: a row of a drain that has begun, by any program: the tile's row
stands in e0, the program runs, what it stores is performed, and the drain is at its next row; the tile stays, unless its last row has Z
clear it; a fault stops the engine at the row with none of the row's stores performed. With the default program the row's FP32 codes then
stand at its row of a destination in the vault. -/
def Obligations.EpilogueStoresAndDrainRows : Prop :=
  (
  ∀ (s : State) (d a : BitVec 3) (rv : Bool),
    let e := s.epi s.curCl
    let blk (off n : Nat) : Nat := leNat ((e.param.drop off).take n)
    let ptr (off : Nat) : W64 := BitVec.ofNat 64 (blk off 8)
    let rsz := if blk 0x9D 1 = 0xD then 8 else 4
    let msz := codeWidth (blk 0x9C 1) / 8
    let pr := ptrAdd (ptr (if rv then 0x88 else 0x80)) (e.row * rsz : Nat)
    let pm := ptrAdd (ptr 0x90) (e.row * signedOf 32 (blk 0x98 4))
    let pd := ptrAdd e.dst (e.row * e.stride.toInt)
    let dec (code : Nat) (bs : List Byte) : W48 := roundW48 false (decodeElem ((EFmt.ofCode code).getD .fp32) false (leNat bs))
    let found (ks : List Nat) (bs bs' : List Byte) : Prop :=
      bs'.length = bs.length ∧ ∀ x ∈ (ks.zip (bs.zip bs')), x.2.2 = x.2.1 ∨ (x.1, x.2.2) ∈ e.olds
    let loads (i : Instr) (p : W64) (n : Nat) (f : List Byte → Nat → W48) : Prop :=
      (∀ ks u bs, engAccess s e.cid e.lvl1 false .ld p n = .ok ks → engRead s e.cid e.lvl1 false p n = .ok u bs → ks.length = n → bs.length = n → u.epi u.curCl = e →
        ∃ t bs', exec i s = .next t ∧ found ks bs bs' ∧ (t.epi s.curCl).pcw = e.pcw + 1
          ∧ ∀ r : BitVec 3, ∀ j, j < 32 → (t.epi s.curCl).get r j = if r = d then f bs' j else e.get r j)
      ∧ ∀ c info, engAccess s e.cid e.lvl1 false .ld p n = .fault c info → exec i s = .next (s.setEpi s.curCl { e with fault := some (c, info) })
    let stored (t : State) (xs : List (Nat × Byte)) : Prop :=
      t.epi s.curCl = { e with stores := e.stores ++ xs, pcw := e.pcw + 1 } ∧ t = { s with cls := t.cls } ∧ ∀ k, t.eng k = s.eng k ∧ (t.cl k).l1 = (s.cl k).l1
    loads (.eldr d rv) pr rsz (fun bs _ => dec (blk 0x9D 1) bs)
    ∧ loads (.eldm d) pm (32 * msz) (fun bs j => dec (blk 0x9C 1) ((bs.drop (msz * j)).take msz))
    ∧ (∀ (fmt : BitVec 4) (ef : EFmt) (rm : BitVec 3), EFmt.ofCode fmt.toNat = some ef →
        let m := rmOf e.fmt rm
        let code (j : Nat) : Nat := cvt ef (fmtFc e.fmt) (fmtSat e.fmt) (fmtFtz e.fmt) (if m = .sr then .rne else m) (w48Val (e.get a j))
        let row (bs : List Byte) : Prop := bs.length = 4 * ef.width ∧ ∀ j, j < 32 → leNat bs / 2 ^ (ef.width * j) % 2 ^ ef.width = code j % 2 ^ ef.width
        (∀ ks, e.slot = none → engAccess s e.cid e.lvl1 false .st pd (4 * ef.width) = .ok ks → ks.length = 4 * ef.width →
          ∃ t bs, exec (.est a 0#2 rm fmt 0#2) s = .next t ∧ row bs ∧ stored t (ks.zip bs))
        ∧ (∀ k, e.slot = some k → ∃ t bs, exec (.est a 0#2 rm fmt 0#2) s = .next t ∧ row bs
            ∧ stored t ((rangeFrom (k + e.row * (4 * ef.width)) (4 * ef.width)).zip bs))
        ∧ (∀ k (b : BitVec 2), e.slot = some k → b ≠ 0#2 →
            let x := estCodes e.fmt ef (if m = .sr then .rne else m) b.toNat (blk 0xAC 4) ((List.range 32).map fun j => w48Val (e.get a j))
            let bs := packCodes ef.width x.1
            ∃ t, exec (.est a b rm fmt 0#2) s = .next t
              ∧ stored t ((rangeFrom (k + e.row * bs.length) bs.length).zip bs ++ [(k + 32 * bs.length + e.row, BitVec.ofNat 8 x.2)]))
        ∧ (∀ ks kx (b : BitVec 2), e.slot = none → b ≠ 0#2 →
            let x := estCodes e.fmt ef (if m = .sr then .rne else m) b.toNat (blk 0xAC 4) ((List.range 32).map fun j => w48Val (e.get a j))
            let bs := packCodes ef.width x.1
            engAccess s e.cid e.lvl1 false .st pd bs.length = .ok ks →
            engAccess ((used s (s.ctx e.cid) .st pd bs.length).setEpi s.curCl { e with stores := e.stores ++ ks.zip bs, pcw := e.pcw + 1 }) e.cid e.lvl1 false .st
              (ptrAdd (ptr 0xA0) (e.row * signedOf 32 (blk 0xA8 4))) 1 = .ok kx →
            ∃ t, exec (.est a b rm fmt 0#2) s = .next t ∧ stored t (ks.zip bs ++ kx.zip [BitVec.ofNat 8 x.2]))
        ∧ ∀ c info, e.slot = none → engAccess s e.cid e.lvl1 false .st pd (4 * ef.width) = .fault c info →
            exec (.est a 0#2 rm fmt 0#2) s = .next (s.setEpi s.curCl { e with fault := some (c, info) }))
    ∧ (∀ ks (fmt : BitVec 4) (rm : BitVec 3) (b : BitVec 2), engAccess s e.cid e.lvl1 false .st pr rsz = .ok ks →
        ∃ t, exec (.est a b rm fmt (if rv then 2#2 else 1#2)) s = .next t
          ∧ stored t (ks.zip (leBytes rsz (cvt ((EFmt.ofCode (blk 0x9D 1)).getD .fp32) false false false .rne (w48Val (e.get a 0))))))
    ∧ exec .eend s = .next (s.setEpi s.curCl { e with on := false }))
  ∧ (
  ∀ (s : State) (o : EOp) (z i : Nat) (clr : Bool) (p st : W64) (ring : Option (Option Nat)) (f : W32) (ws : List W32) (param : W64) (ks : List Nat),
    let cl := s.curCl
    let e := s.epi cl
    let q := ptrAdd e.dst (i * e.stride.toInt)
    engOp s cl true = some o → o.k = .mdrain z clr p st ring f ws param → o.begun = true → (s.eng cl).drow = i → i < 32 →
    let u := epiRow e.prog (s.setEpi cl { e with on := true, pcw := 0, row := i, stores := [], fault := none,
                                                 regs := (List.range 32).foldl (fun m j => smSet m j (tileElem (s.eng cl) z i j)) [] })
    let xs := (u.epi cl).stores
    ((u.epi cl).fault = none → u.curCl = cl →
      ∃ t, exec .drainRow s = .next t ∧ (t.eng cl).drow = i + 1
        ∧ (i < 31 ∨ clr = false → (t.eng cl).tiles = (u.eng cl).tiles) ∧ (i = 31 → ∀ a b, a < 32 → b < 32 → clr = true → tileElem (t.eng cl) z a b = 0#48)
        ∧ (u.Inv → NoneWaits u → (xs.map (·.1)).Nodup → (∀ x ∈ xs, x.1 < 2 ^ 62 ∧ isPeer x.1 = false) → i < 31 ∨ ring = none →
            (∀ x ∈ xs, byteAt t cl x.1 = x.2) ∧ KeepsBytes u t cl (xs.map (·.1))))
    ∧ (∀ c info, c ≠ 0 → c ≠ fLOST → (u.epi cl).fault = some (c, info) → u.curCl = cl →
        ∃ t, exec .drainRow s = .next t ∧ (t.eng cl).faulted = true ∧ (t.eng cl).fcode = c ∧ (t.eng cl).faddr = info ∧ (t.eng cl).drow = (u.eng cl).drow ∧ t.mem = u.mem)
    ∧ (ring = none → i < 31 → e.prog = [0x78000030#32, 0x80000000#32] → e.slot = none → ridOf q = 0xFE → s.ringObjs = [] →
        vaultKeys s (s.ctx e.cid) e.lvl1 q 128 = some ks → ks.Nodup → ks.length = 128 → (∀ k ∈ ks, isVault k = true) →
        ∃ t, exec .drainRow s = .next t ∧ (t.eng cl).drow = i + 1 ∧ (t.eng cl).tiles = (s.eng cl).tiles ∧ t.ctxs = s.ctxs
          ∧ (∀ j, j < 32 → leNat (((ks.drop (4 * j)).take 4).map (memGet t.mem))
              = cvt .fp32 (fmtFc e.fmt) (fmtSat e.fmt) (fmtFtz e.fmt) .rne (w48Val (tileElem (s.eng cl) z i j)) % 2 ^ 32)
          ∧ ∀ k, k ∉ ks → memGet t.mem k = memGet s.mem k))

/-! Sparse tiles. -/

/-- R215, R218, R221 to R223: SPX whose key is cached enters the queue with the timetable, or as a dense run for a DENSE verdict, with result 0,
1 after a wait, or 3, and counts a lookup; its entry becomes the most recent. Without an entry SPX.fb asks for a compile and enters as a
dense run with result 2, counting a miss too, and SPX.wait asks for one and waits at its word, counting once; a die whose queue is full
takes no request. SPORDER, a bad header, and a B that does not fit trap. An SPX.wait that has waited goes on with what it captured at its
issue (R222, R370): neither the header nor ME.OPB is read again. R218, R219, R224: what SPCOMP, SPINV, SPQRY and SPCFG return and leave,
once the header h of their object has been read; one that is bad is ILLEGAL. An invalidation drops entries, and makes the results of
compiles that run stale. -/
def Obligations.SparseInstructionsUseTheTimetableDirectory : Prop :=
  (
  ∀ (s u : State) (d a : GReg) (z : BitVec 3) (ks : List Nat) (h : List Byte),
    let c := s.me
    let p := s.reg a
    let s1 : State := if (s.eng c.cl).owner = none then s.setEng c.cl { Eng.reset with owner := some c.task } else s
    let e := s1.eng c.cl
    let tn := s.tenOf c
    let runs (v : State) (x : SpxIssue) (first : Bool) : Prop :=
      let key (y : TtEnt) : Bool := y.has tn x.pa (hFmtc x.h) (fmtFc x.f) (hSteps x.h)
      let comp (y : Comp) : Bool := sameKey y tn x.pa (hFmtc x.h) (fmtFc x.f) (hSteps x.h)
      let mine := smGet [] v.comps (dieOf c.cl)
      let full : Prop := 64 ≤ (mine.filter fun q => !q.running).length
      let entered (t : State) (res ls ms : Nat) (tt : Option (List W64)) : Prop :=
        t.me = { c.past s.us 1 with ticket := none, spErr := none, spx := none, g := t.me.g,
                                    lookups := c.lookups + BitVec.ofNat 64 ls, misses := c.misses + BitVec.ofNat 64 ms }
        ∧ (∀ r, t.reg r = if r = d ∧ d ≠ 0#5 then BitVec.ofNat 64 res else s.reg r)
        ∧ ∃ o, (t.eng c.cl).q = e.q ++ [o] ∧ o.k = .spx z.toNat x.t x.h tt x.b x.f ∧ o.cid = s.cur ∧ o.running = false
      let waits (t : State) (id : Nat) : Prop :=
        t.me = { c with ticket := some id, spx := some x, lookups := if first then c.lookups + 1#64 else c.lookups,
                        misses := if first then c.misses + 1#64 else c.misses }
      (∀ y, v.ttdir.find? key = some y → ∀ i ∈ [Instr.spxWait d z a, .spxFb d z a],
        ∃ t, exec i s = .next t ∧ t.ttdir = y :: v.ttdir.filter (fun w => !key w)
          ∧ entered t (if y.dense then 3 else if first then 0 else 1) (if first then 1 else 0) 0 (if y.dense then none else some y.ops))
      ∧ (v.ttdir.find? key = none →
          (∃ t, exec (.spxFb d z a) s = .next t ∧ entered t 2 1 1 none
            ∧ ((v.comps.flatMap (·.2)).any comp = false → ¬full → ∃ q, smGet [] t.comps (dieOf c.cl) = mine ++ [q] ∧ comp q = true ∧ q.bg = [s.cur] ∧ q.running = false)
            ∧ ((v.comps.flatMap (·.2)).any comp = false → full → t.comps = v.comps))
          ∧ (c.spErr = none →
              (∀ q, (v.comps.flatMap (·.2)).find? comp = some q → ∃ t, exec (.spxWait d z a) s = .next t ∧ waits t q.id)
              ∧ ((v.comps.flatMap (·.2)).any comp = false →
                  (¬full → ∃ t q, exec (.spxWait d z a) s = .next t ∧ waits t q.id ∧ smGet [] t.comps (dieOf c.cl) = mine ++ [q] ∧ comp q = true ∧ q.bg = [])
                  ∧ (full → ∃ t, exec (.spxWait d z a) s = .next t ∧ waits t 0 ∧ t.comps = v.comps)))
          ∧ (∀ w, c.spErr = some w → canTrap s → ∃ t, exec (.spxWait d z a) s = .next t ∧ Trapped v t 0x0E#64 w c.pc))
    (s.eng c.cl).owner = none ∨ (s.eng c.cl).owner = some c.task → c.strm.idle = true →
    (16 ≤ e.q.length → ∀ i ∈ [Instr.spxWait d z a, .spxFb d z a], exec i s = .next s1)
    ∧ (e.q.length < 16 → (∀ k, (s.cl k).locks.length ≤ 50) → ∀ x, c.spx = some x → runs s1 x false)
    ∧ (e.q.length < 16 → c.spx = none → p.toNat % 64 = 0 → ridOf p < 0xFD → genAccess s1 .ld polEng p 64 = .ok ks →
        loadKeys (used s1 c .ld p 64) c.cl polEng ks = (u, h) →
        (∀ n, canTrap s → (headerBad h = some n ∨ headerBad h = none ∧ spxBad h e.opb z.toNat = some n) →
          ∀ i ∈ [Instr.spxWait d z a, .spxFb d z a], ∃ t, exec i s = .next t ∧ Trapped u t 0x01#64 (BitVec.ofNat 64 n) c.pc)
        ∧ (headerBad h = none → spxBad h e.opb z.toNat = none → (∀ k, (s.cl k).locks.length ≤ 50) →
            runs (writeBackObj u p (hTotal h)) ⟨p, h, ks.headD 0, e.opb, c.team.fmt⟩ true)))
  ∧ (
  ∀ (s u : State) (d a b : GReg) (ks : List Nat) (h : List Byte),
    let c := s.me
    let p := s.reg a
    let v := writeBackObj u p (hTotal h)
    let tn := s.tenOf c
    let pa := ks.headD 0
    let key (x : TtEnt) : Bool := x.has tn pa (hFmtc h) (fmtFc c.team.fmt) (hSteps h)
    let comp (x : Comp) : Bool := sameKey x tn pa (hFmtc h) (fmtFc c.team.fmt) (hSteps h)
    let mine := smGet [] v.comps (dieOf c.cl)
    let res (t : State) (w : W64) : Prop := t.me = { c.past s.us 1 with g := t.me.g } ∧ ∀ r, t.reg r = if r = d ∧ d ≠ 0#5 then w else s.reg r
    let stale (w : State) (f : Comp → Prop) [DecidablePred f] (t : State) : Prop :=
      t.comps = w.comps.map fun e => (e.1, e.2.map fun q => if f q then { q with stale := true } else q)
    (∃ t, exec (.spcfg d a) s = .next t ∧ res t (BitVec.ofNat 64 (s.tenant tn).thresh) ∧ (t.tenant tn).thresh = min p.toNat 100
      ∧ (∀ k, k ≠ tn → t.tenant k = s.tenant k) ∧ t.mem = s.mem)
    ∧ (∃ t, exec .spinvAll s = .next t ∧ t.me = c.past s.us 1 ∧ t.ttdir = s.ttdir.filter (fun x => x.tenant ≠ tn) ∧ stale s (fun q => q.tenant = tn) t)
    ∧ (p.toNat % 64 = 0 → ridOf p < 0xFD → genAccess s .ld polEng p 64 = .ok ks → loadKeys (used s c .ld p 64) c.cl polEng ks = (u, h) →
        (∀ n, headerBad h = some n → canTrap s → c.strm.idle = true → ∀ i ∈ [Instr.spinv a, .spcomp d a, .spqry d a, .spqryWord d a b],
          ∃ t, exec i s = .next t ∧ Trapped u t 0x01#64 (BitVec.ofNat 64 n) c.pc)
        ∧ (headerBad h = none →
          (∃ t, exec (.spinv a) s = .next t ∧ t.me = c.past s.us 1
            ∧ t.ttdir = u.ttdir.filter (fun x => !(decide (x.tenant = tn) && decide (x.pa = pa))) ∧ stale u (fun q => q.tenant = tn ∧ q.pa = pa) t)
          ∧ (c.strm.idle = true →
            (∀ x, v.ttdir.find? key = some x → ∃ t, exec (.spcomp d a) s = .next t ∧ res t 0#64 ∧ t.ttdir = x :: v.ttdir.filter fun y => !key y)
            ∧ (v.ttdir.any key = false →
                ((v.comps.flatMap (·.2)).any comp = true → ∃ t, exec (.spcomp d a) s = .next t ∧ res t 2#64)
                ∧ ((v.comps.flatMap (·.2)).any comp = false →
                  ((mine.filter fun q => !q.running).length < 64 → ∃ t, exec (.spcomp d a) s = .next t ∧ res t 1#64
                    ∧ ∃ q, smGet [] t.comps (dieOf c.cl) = mine ++ [q] ∧ comp q = true ∧ q.bg = [s.cur])
                  ∧ (64 ≤ (mine.filter fun q => !q.running).length → ∃ t, exec (.spcomp d a) s = .next t ∧ res t 3#64)))
            ∧ (∀ x, u.ttdir.find? key = some x →
                (∃ t, exec (.spqry d a) s = .next t
                  ∧ res t (BitVec.ofNat 64 (if x.dense then 3 + x.nz % 2 ^ 32 * 2 ^ 32 else 2 + x.ops.length * 2 ^ 16 + x.nz * 2 ^ 32)))
                ∧ ∃ t, exec (.spqryWord d a b) s = .next t
                  ∧ res t (if (s.reg b).toNat < 1024 then x.ops.getD (s.reg b).toNat 0xFFFFFFFFFFFFFFFF#64 else 0xFFFFFFFFFFFFFFFF#64))
            ∧ (u.ttdir.find? key = none →
                (∃ t, exec (.spqry d a) s = .next t ∧ res t (if (u.comps.flatMap (·.2)).any comp then 1#64 else 0#64))
                ∧ ∃ t, exec (.spqryWord d a b) s = .next t ∧ res t 0xFFFFFFFFFFFFFFFF#64)))))

/-- R215, R219, R221, R223, R224: a free compiler of a die begins the oldest request, with the threshold its tenant has then; a compile that
ends caches the verdict of its object, first in the directory, with the timetable's words unless the verdict is DENSE, or, when the object
breaks an order rule, reports it to those who asked without waiting; one whose key has been invalidated leaves nothing. Which of two
violations is reported (log 41), and that a compile reads its object as it stands when it ends (log 42), are the model's choices. R214,
R216, R219: a group of a timetable, B being a tile: a row without micro-ops stays, one with a NAN word becomes NaN, and one with RUN words
takes one K-step over the codes m that they gather, its other positions adding nothing; ME.ROWPROG goes to the step behind the group. At the
start of a run every NaN of the tile becomes the canonical one. -/
def Obligations.CompilesAndTimetableGroups : Prop :=
  (
  ∀ (s : State) (die : Nat) (q : Comp) (r : List Comp),
    smGet [] s.comps die = q :: r → (∀ x ∈ r, x.id ≠ q.id) →
    (q.running = false → (r.filter (·.running)).length < 4 →
      exec (.patternCompile die) s = .next
        { s with comps := smSet s.comps die ({ q with running := true, stale := false, thresh := (s.tenant q.tenant).thresh } :: r) })
    ∧ (q.running = true → (∀ x ∈ r, x.running = true) → q.stale = true →
        exec (.patternCompile die) s = .next { s with comps := smSet s.comps die r })
    ∧ (q.running = true → (∀ x ∈ r, x.running = true) → q.stale = false →
        let x := runBytes q.cl q.runs [] { s with comps := smSet s.comps die r }
        let u := x.1
        let bs := x.2
        let o : Obj := fun k => bs.getD k 0
        let h := bs.take 64
        ∃ t, exec (.patternCompile die) s = .next t ∧ t.comps = u.comps ∧ t.mem = u.mem
          ∧ (structBad h o = none → ∃ e, t.ttdir.head? = some e ∧ e.has q.tenant q.pa q.fmtc q.fc q.n = true ∧ e.nz = nzCount h o q.fc ∧ e.runs = q.runs
              ∧ e.dense = (decide (q.thresh * (32 * stepK (hFmt h) * q.n) < 100 * e.nz) || decide (1024 < (timetable h o q.fc).length))
              ∧ e.ops = (if e.dense then [] else timetable h o q.fc) ∧ t.ctxs = u.ctxs
              ∧ ∀ y ∈ t.ttdir, y = e ∨ (y ∈ u.ttdir ∧ y.has q.tenant q.pa q.fmtc q.fc q.n = false))
          ∧ (∀ w cid, structBad h o = some w → q.bg = [cid] → t.ttdir = u.ttdir
              ∧ (t.ctx cid).bgerr = (q.ptr &&& 0xFFFFFFFFFFFFFF00#64) ||| BitVec.ofNat 64 (w.toNat / 2 ^ 32))))
  ∧ (
  ∀ (s u : State) (o : EOp) (z st i : Nat) (p : W64) (h : List Byte) (ws ops : List W64) (b : OpDesc) (f : W32) (r : List (Nat × List W64)) (m : SMap FV),
    let cl := s.curCl
    let o' : EOp := { o with running := true, begun := true }
    let sb : State := if o.begun then s else setOp (s.modEng cl fun e => nanCanon e z) cl o'
    let row := if st = (s.eng cl).rp.step then (s.eng cl).rp.row else 0
    let s0 := setProg sb cl ⟨st, 0, false, row⟩
    let e := sb.eng cl
    let mine (j : Nat) : List W64 := ops.filter fun w => opRow w = j
    let nan (j : Nat) : Bool := (mine j).any fun w => opKind w = 3
    engOp s cl false = some o → o.k = .spx z p h (some ws) b f →
    (groupsOf ws).filter (fun g => decide ((s.eng cl).rp.step ≤ g.1)) = (st, ops) :: r →
    descKind b = 1 → descScl b = false → row ≤ i → i < 32 →
    (∀ j, row ≤ j → j < i → mine j = []) → (∀ j, i < j → j < 32 → mine j = [] ∨ nan j = true) →
    nan i = false → mine i ≠ [] → readRuns o.cid o.lvl1 p h f st i (mine i) [] s0 = .ok u m → u.eng cl = s0.eng cl →
    let line (j : Nat) : List FV :=
      (tileLine e (descTile b + st) j (fmtOfDesc b).width (descTrans b)).map fun x => readElem (fmtOfDesc b) (fmtFc f) (fmtFlush f) x
    ∃ t, exec .timetableGroup s = .next t ∧ (t.eng cl).rp = ⟨st + 1, 0, false, 0⟩
      ∧ ∀ k j, k < 32 → j < 32 → tileElem (t.eng cl) z k j =
          if k < row ∨ mine k = [] then tileElem e z k j
          else if nan k then w48Nan
          else kstep (fmtSat f) (tileElem e z k j) (((List.range (stepK (hFmt h))).map fun n => smGet (.zero false) m n).zip (line j)))

/-! Copy channels, rings, subscriptions. -/

/-- R227 to R229: CTPL replaces one template of the task with a descriptor that its checks pass, and refuses one that they do not, ILLEGAL 0x21.
A copy store, the STX to the Block-Transfer Aperture, puts a copy of the template at the end of the channel that its address names, and
leaves a full channel as it is; one that a check refuses raises COPY with the subcode of the first of R229's table and moves nothing. -/
def Obligations.CopyStoresEnterTheirChannel : Prop :=
  (∀ (s u : State) (idx : BitVec 8) (a : GReg) (ks : List Nat) (bs : List Byte),
    let c := s.me
    let p := s.reg a
    (p.toNat % 64 ≠ 0 → canTrap s → ∃ t, exec (.ctpl idx a) s = .next t ∧ Trapped s t 0x0A#64 p c.pc)
    ∧ (p.toNat % 64 = 0 → genAccess s .ld polCl p 64 = .ok ks → loadKeys (used s c .ld p 64) c.cl polCl ks = (u, bs) →
        ((∀ k ∈ ks, isVault k = true) → bs = ks.map (memGet s.mem))
        ∧ (templateBad bs = false →
            ∃ t, exec (.ctpl idx a) s = .next t ∧ MemEnds { s with tasks := t.tasks } t 0#5 0#64
              ∧ (t.task c.task).tmpl = smSet (s.task c.task).tmpl idx.toNat bs ∧ ∀ k, k ≠ c.task → t.task k = s.task k)
        ∧ (templateBad bs = true → canTrap s → ∃ t, exec (.ctpl idx a) s = .next t ∧ Trapped u t 0x01#64 0x21#64 c.pc)))
  ∧ ∀ (s : State) (f : LdxF),
    let c := s.me
    let p := s.reg f.a + f.disp.signExtend 64
    let key := 8 * c.cl + p.toNat / 512 % 8
    let q := (s.chan key).q
    let x := s.reg f.r
    let ti := x.toNat % 256
    let fl := x.toNat / 256 % 256
    let cnt := x.toNat / 2 ^ 32
    let src := s.reg (f.r + 1#5)
    let dst := s.reg (f.r + 2#5)
    let r := ordBefore s c.cl f.ord f.scope
    let refused (sub : W64) : Prop := canTrap s → ∃ t, exec (.stx f) s = .next t ∧ t.chans = s.chans ∧ t.me.pc = c.trap.vec ∧ t.me.trap.reason = 0x0F#64
      ∧ t.me.trap.info = sub ∧ t.me.trap.epc = c.pc ∧ (f.ord ≠ .sc → Trapped r t 0x0F#64 sub c.pc)
    p.toNat % 32 = 0 → ridOf p = 0xFF → offOf p < 0x1000 → f.ord ∈ [MOrd.rlx, .rel, .sc] →
    (4 ≤ q.length → ∃ t, exec (.stx f) s = .next t ∧ t.me = c ∧ t.chans = s.chans ∧ (f.ord = .rlx → t = s))
    ∧ (q.length < 4 → smFind (s.task c.task).tmpl ti = none → refused 1#64)
    ∧ ∀ tm, smFind (s.task c.task).tmpl ti = some tm → q.length < 4 → aliasAway s (tRing tm) = false →
        let n2 := if fl % 2 = 1 then cnt else tN2 tm
        let rsv : Prop := x.extractLsb' 16 16 ≠ 0#16 ∨ 3 < fl ∨ (fl % 2 = 0 ∧ cnt ≠ 0) ∨ s.reg (f.r + 3#5) ≠ 0#64
        let off : Prop := src.toNat % srcSize tm ≠ 0 ∨ dst.toNat % dstSize tm ≠ 0
        let ring := if tRing tm = 0xFF then none else ringOf s c (tRing tm)
        let d1 : Int := ((tDn1 tm : Int) - 1) * tDs1 tm
        let d2 : Int := ((n2 : Int) - 1) * tDs2 tm
        let out (o : Nat) : Prop := n2 ≠ 0 ∧ ((dst.toNat : Int) + (min 0 d1 + min 0 d2) < 0
          ∨ ((s.ring o).size : Int) < (dst.toNat : Int) + (max 0 d1 + max 0 d2 + (tDn0 tm * dstSize tm : Nat)))
        let sem : Prop := tSemidx tm ≠ 0xFF ∧ 8 * (s.task c.task).r.nctx ≤ tSemidx tm
        (rsv → refused 2#64) ∧ (¬rsv → off → refused 3#64)
        ∧ (¬rsv → ¬off → (tRing tm ≠ 0xFF → ring = none → refused 4#64) ∧ (∀ o, ring = some o → out o → refused 5#64)
            ∧ ((tRing tm ≠ 0xFF → ring ≠ none) → (∀ o, ring = some o → ¬out o) →
                (sem → refused 6#64)
                ∧ (¬sem → ∃ t e, exec (.stx f) s = .next t ∧ t.me = c.past s.us 1 ∧ (f.ord = .rlx → t.mem = s.mem) ∧ (t.chan key).q = q ++ [e]
                    ∧ (∀ k, k ≠ key → t.chan k = s.chan k)
                    ∧ e = { cid := s.cur, task := c.task, tidx := ti, tmpl := tm, n2 := n2, nosem := decide (2 ≤ fl), lvl1 := c.trap.pl, src := src, dst := dst,
                            started := false, slot := none, ring := ring, via := if tRing tm = 0xFF then [] else viaOf s (tRing tm), elems := 0, off := 0, lock := e.lock })))

/-- R230 to R232, R236, R169: the head copy of a channel starts by claiming the slot of its ring, EMPTY before and FILLING then; its last
element goes from the source to the destination byte for byte when the template does not convert; completion makes the slot FULL, adds
SEMINC to the semaphore, and drops the copy, but keeps it while the semaphore's owner is away. A beat that fails on either side stops the
channel with its code and address and leaves a fault for the context: COPY, or the page that is not present. A copy whose ring was named by
an alias stands still while the context of a handle that the alias leads to is away (R369). -/
def Obligations.ChannelsDeliverTheirHeadCopy : Prop :=
  ∀ (s : State) (cl ch : Nat) (c : Copy),
    let key := 8 * cl + ch
    let rest := (s.chan key).q.tail
    ch < 8 → (s.chan key).q.head? = some c → (s.chan key).fault = none → hardHeld s c.task = false →
    (viaHeld s c.via = true → ∀ i ∈ [Instr.copyStart cl ch, .copyBeat cl ch, .copyCompletion cl ch], exec i s = .next s)
    ∧ (viaHeld s c.via = false →
    (c.started = false → c.ring = none → c.slot = none → (∀ k, (s.cl k).locks.length ≤ 60) →
      ∃ t, exec (.copyStart cl ch) s = .next t ∧ (t.chan key).q = { c with started := true } :: rest ∧ t.mem = s.mem ∧ t.ctxs = s.ctxs)
    ∧ (∀ o, c.started = false → c.ring = some o → c.slot = none → (∀ k, (s.cl k).locks.length ≤ 60) → ringTag s o (s.ring o).ppos = 0 →
        ∃ t, exec (.copyStart cl ch) s = .next t ∧ (t.chan key).q = { c with started := true, slot := some (o, (s.ring o).ppos) } :: rest
          ∧ ringTag t o (s.ring o).ppos = 1 ∧ (t.ring o).ppos = ((s.ring o).ppos + 1) % (s.ring o).count ∧ t.ctxs = s.ctxs)
    ∧ (c.started = true → c.elems + 1 = c.total → c.slot = none → tConv c.tmpl = false →
        let sp := ptrAdd c.src (c.srcOff c.elems)
        let dp := ptrAdd c.dst (c.dstOff c.elems)
        let ra := copyAccess s c .ld sp (srcSize c.tmpl)
        let wa := copyAccess s c .st dp (dstSize c.tmpl)
        (∀ ks kd, ra = .ok ks → wa = .ok kd → (∀ k ∈ ks ++ kd, isVault k = true) → kd.Nodup → ks.length = kd.length →
          ∃ t, exec (.copyBeat cl ch) s = .next t ∧ (t.chan key).q = { c with elems := c.total, off := c.off + dstSize c.tmpl } :: rest
            ∧ (∀ i, i < kd.length → memGet t.mem (kd.getD i 0) = memGet s.mem (ks.getD i 0)) ∧ (∀ k, k ∉ kd → memGet t.mem k = memGet s.mem k)
            ∧ t = { s with mem := t.mem, chans := t.chans, ecc := t.ecc, cls := t.cls } ∧ ∀ k, (t.cl k).l1 = (s.cl k).l1 ∧ t.eng k = s.eng k)
        ∧ (∀ code p, code < 256 → (ra = .fault code p ∧ ∃ kd, wa = .ok kd) ∨ ((∃ ks, ra = .ok ks) ∧ wa = .fault code p) →
            ∃ t, exec (.copyBeat cl ch) s = .next t ∧ (t.chan key) = { s.chan key with fault := some code, faddr := p }
              ∧ (t.ctx c.cid).trap.copyF = (s.ctx c.cid).trap.copyF
                  ++ [if code = 9 then ⟨9, p⟩ else ⟨0x0F, BitVec.ofNat 64 (8 + code * 2 ^ 8 + ch * 2 ^ 16)⟩] ∧ t.mem = s.mem)
        ∧ ∀ u, ra = .wait u → (∃ kd, wa = .ok kd) → exec (.copyBeat cl ch) s = .next u)
    ∧ (c.started = true → c.total ≤ c.elems →
        (c.slot = none → c.nosem = true →
          ∃ t, exec (.copyCompletion cl ch) s = .next t ∧ (t.chan key).q = rest ∧ (∀ k, ∀ l ∈ (t.cl k).locks, l.id ≠ c.lock) ∧ t.mem = s.mem ∧ t.sems = s.sems)
        ∧ ∀ o n, c.slot = some (o, n) → c.nosem = false → tSemidx c.tmpl ≠ 0xFF →
          (∀ k, semKey s (s.ctx c.cid) (tSemidx c.tmpl) = some k → (s.sem k).ws = [] →
            ∃ t, exec (.copyCompletion cl ch) s = .next t ∧ (t.chan key).q = rest ∧ ringTag t o n = 2 ∧ n ∉ (t.ring o).claimed
              ∧ (t.sem k).v = min ((s.sem k).v + tSeminc c.tmpl) (2 ^ 32 - 1) ∧ ∀ l, l ≠ tagKey (s.ring o) n → memGet t.mem l = memGet s.mem l)
          ∧ (semKey s (s.ctx c.cid) (tSemidx c.tmpl) = none →
            ∃ t, exec (.copyCompletion cl ch) s = .next t ∧ (t.chan key).q = { c with slot := none } :: rest ∧ ringTag t o n = 2 ∧ t.sems = s.sems)))

/-- R237 to R239: CHST reads the word of a channel; CHRES of a channel that is not faulted only reads it, and of the task's own faulted copy
clears the fault, or drops the copy with the slot EMPTY and poisoned and SEMINC and E in the semaphore; another task's raises PERM. CHDRAIN
ends when no channel of its cluster holds an unfaulted copy of the task, with a bound of 0, and when its bound has gone by; until then it
waits. -/
def Obligations.SoftwareReadsAndRepairsChannels : Prop :=
  ∀ (s : State) (d : GReg) (n : BitVec 3) (x : GSrc),
    let key := 8 * s.me.cl + n.toNat
    let ch := s.chan key
    let held := BitVec.ofNat 64 (heldChans s false + heldChans s true * 2 ^ 8)
    (ch.q = [] → ch.fault = none → ∀ i ∈ [Instr.chst d n, .chresRetry d n, .chresAbort d n], ∃ t, exec i s = .next t ∧ Ends s t 1 d 0#64)
    ∧ (∀ c cs, ch.q = c :: cs →
        let st := match ch.fault with | some _ => 2 | none => if hardHeld s c.task then 3 else 1
        let w := BitVec.ofNat 64 (st + ch.q.length * 2 ^ 2 + c.tidx * 2 ^ 8 + ch.fault.getD 0 * 2 ^ 16 + c.off * 2 ^ 32)
        ch.q.length ≤ 4 → c.tidx < 256 → ch.fault.getD 0 < 256 → c.off < 2 ^ 32 →
        (∃ t, exec (.chst d n) s = .next t ∧ Ends s t 1 d w)
        ∧ (ch.fault = none → ∀ i ∈ [Instr.chresRetry d n, .chresAbort d n], ∃ t, exec i s = .next t ∧ Ends s t 1 d w)
        ∧ (ch.fault ≠ none → c.task = s.me.task →
            (∃ t, exec (.chresRetry d n) s = .next t ∧ t.chan key = { ch with fault := none } ∧ (d ≠ 0#5 → t.reg d = w) ∧ t.me.pc = s.me.pc + 8#64 ∧ t.mem = s.mem)
            ∧ (c.slot = none → c.nosem = true →
                ∃ t, exec (.chresAbort d n) s = .next t ∧ t.chan key = { ch with fault := none, q := cs } ∧ (d ≠ 0#5 → t.reg d = w) ∧ t.me.pc = s.me.pc + 8#64)
            ∧ (∀ o k, c.slot = some (o, k) → c.nosem = true →
                ∃ t, exec (.chresAbort d n) s = .next t ∧ t.chan key = { ch with fault := none, q := cs } ∧ ringTag t o k = 4 ∧ k ∉ (t.ring o).claimed)
            ∧ (c.slot = none → c.nosem = false → tSemidx c.tmpl ≠ 0xFF →
                (semKey s (s.ctx c.cid) (tSemidx c.tmpl) = none → exec (.chresAbort d n) s = .next s)
                ∧ ∀ k, semKey s (s.ctx c.cid) (tSemidx c.tmpl) = some k → (s.sem k).ws = [] →
                    ∃ t, exec (.chresAbort d n) s = .next t ∧ t.chan key = { ch with fault := none, q := cs } ∧ t.me.pc = s.me.pc + 8#64
                      ∧ (t.sem k).v = min ((s.sem k).v + tSeminc c.tmpl) (2 ^ 32 - 1) ∧ (t.sem k).e = true))
        ∧ (ch.fault ≠ none → c.task ≠ s.me.task → canTrap s →
            ∀ i ∈ [Instr.chresRetry d n, .chresAbort d n], ∃ t, exec i s = .next t ∧ Trapped s t 0x08#64 0#64 s.me.pc))
    ∧ ((∀ k c, k < 8 → c ∈ (s.chan (8 * s.me.cl + k)).q → c.task ≠ s.me.task) → s.me.waitAt = none →
        ∃ t, exec (.chdrain d x) s = .next t ∧ Ends s t 1 d 0#64)
    ∧ (s.me.waitAt = none →
        (heldChans s false = 0 ∨ (s.srcN x).toNat = 0 → ∃ t, exec (.chdrain d x) s = .next t ∧ Ends s t 1 d held)
        ∧ (heldChans s false ≠ 0 → (s.srcN x).toNat ≠ 0 →
            ∃ t, exec (.chdrain d x) s = .next t ∧ MeIs s t { s.me with waitAt := some (s.mc, (s.srcN x).toNat, d) }))
    ∧ ∀ m b e, s.me.waitAt = some (m, b, e) → s.me.st.resident = true → s.me.dbg.halted = false →
        (b ≤ s.mc - m → ∃ t, exec .chdrainBound s = .next t ∧ t.me = { s.me.past s.us 1 with waitAt := none, g := t.me.g }
          ∧ (∀ r, t.reg r = if r = e ∧ e ≠ 0#5 then held else s.reg r) ∧ ∀ k, k ≠ s.cur → t.ctx k = s.ctx k)
        ∧ (s.mc - m < b → exec .chdrainBound s = .next s)

/-- R233 to R235, R245: RINGDEF of slots and tags inside the vault, apart from other rings, defines a ring with both positions 0 and every tag
EMPTY; SHARE makes a handle an alias of a sibling's, OFF takes a handle away, with the ring when the handle defined it and with every alias
of it; both wait for what is in flight that names the handle or an alias of it (R369). RTAG reads the tag of a slot, RTAG.CAS changes one
that is as expected and that no engine holds, RWAIT ends on a tag that matches and waits otherwise. An index that the ring does not have is
RIDBOUND with the index; a definition out of range or over other bytes is ILLEGAL 0x22, and one that a subscription names 0x23. That a SHARE
over the context's own definition undefines it first, and waits, is the model's choice (log 135). -/
def Obligations.RingsHoldTheTagsOfTheirSlots : Prop :=
  ∀ (s : State) (h hs : BitVec 4) (ctx : BitVec 3) (q d a b : GReg),
    let c := s.me
    let cl := c.cl
    let x := (s.reg (q + 2#5)).toNat
    let size := x % 2 ^ 32
    let count := x / 2 ^ 32
    let key := ringKey s.cur h.toNat
    let busy := handleBusy s key
    let subbed := handleSubbed s key
    let gone (t : State) : Prop := smFind t.ringObjs key = none ∧ ∀ k ∈ aliasesOf s key, smFind (t.ctx (k / 16)).rings (k % 16) = none
    let traps (i : Instr) (code info : W64) : Prop := canTrap s → ∃ t, exec i s = .next t ∧ Trapped s t code info c.pc
    let shape : Prop := size % 256 = 0 ∧ 256 ≤ size ∧ size ≤ 65536 ∧ 0 < count ∧ count ≤ 256 ∧ s.reg (q + 3#5) = 0#64
    ((s.reg q).toNat % 256 ≠ 0 → traps (.ringdef h q) 0x0A#64 (s.reg q))
    ∧ ((s.reg q).toNat % 256 = 0 →
      (¬shape → traps (.ringdef h q) 0x01#64 0x22#64)
      ∧ (shape → ringByte s (s.reg q) (size * count) = none → traps (.ringdef h q) 0x07#64 (s.reg q))
      ∧ ∀ sb, shape → ringByte s (s.reg q) (size * count) = some sb →
          (ringByte s (s.reg (q + 1#5)) count = none → traps (.ringdef h q) 0x07#64 (s.reg (q + 1#5)))
          ∧ ∀ tb, ringByte s (s.reg (q + 1#5)) count = some tb →
            let meets (a n b m : Nat) : Prop := a < b + m ∧ b < a + n
            let clash : Prop := meets tb count sb (size * count) ∨ ∃ e ∈ s.ringObjs, e.1 ≠ key ∧ e.2.cl = cl
              ∧ (meets tb count e.2.sbase (e.2.size * e.2.count) ∨ meets tb count e.2.tbase e.2.count ∨ meets sb (size * count) e.2.tbase e.2.count)
            (clash → traps (.ringdef h q) 0x01#64 0x22#64) ∧ (¬clash → subbed = true → traps (.ringdef h q) 0x01#64 0x23#64)
            ∧ (¬clash → subbed = false → (busy = true → exec (.ringdef h q) s = .next s)
                ∧ (busy = false →
                    ∃ t, exec (.ringdef h q) s = .next t ∧ ringOf t t.me h.toNat = some key ∧ t.ring key = ⟨cl, c.task, sb, tb, size, count, 0, 0, []⟩
                      ∧ (∀ k, k < count → ringTag t key k = 0) ∧ (∀ k, (k < vaultKey cl tb ∨ vaultKey cl tb + count ≤ k) → memGet t.mem k = memGet s.mem k)
                      ∧ (∀ o, o ≠ key → smFind t.ringObjs o = smFind s.ringObjs o)
                      ∧ t.me = { c.past s.us 1 with rings := smSet c.rings h.toNat key } ∧ ∀ k, k ≠ s.cur → t.ctx k = s.ctx k)))
    ∧ (let e := s.ctx (s.sibling c ctx.toNat)
        let tgt := ringKey (s.sibling c ctx.toNat) hs.toNat
        let ownsTgt : Bool := (ringChain s chainFuel tgt).contains key
        let open_ : Prop := ctx.toNat < (s.task c.task).r.nctx ∧ e.st.resident = true ∧ e.task = c.task ∧ e.cl = cl
        let i := Instr.ringdefShare h ctx hs;
        (ringOf s e hs.toNat = none ∨ ¬open_ → traps i 0x01#64 0x22#64)
        ∧ (ringOf s e hs.toNat ≠ none → open_ →
          (ownsTgt = true → ∃ t, exec i s = .next t ∧ MeIs s t (c.past s.us 1))
          ∧ (ownsTgt = false → smFind c.rings h.toNat ≠ some key →
              ∃ t, exec i s = .next t ∧ MeIs s t { c.past s.us 1 with rings := smSet c.rings h.toNat tgt })
          ∧ (ownsTgt = false → smFind c.rings h.toNat = some key →
              (busy = true ∨ subbed = true → exec i s = .next s)
              ∧ (busy = false → subbed = false → ∃ t, exec i s = .next t ∧ smFind t.me.rings h.toNat = some tgt ∧ gone t ∧ t.me.pc = c.pc + 8#64))))
    ∧ (let i := Instr.ringdefOff h;
        (smFind c.rings h.toNat = none → ∃ t, exec i s = .next t ∧ MeIs s t (c.past s.us 1))
        ∧ (smFind c.rings h.toNat ≠ none →
          (busy = true ∨ subbed = true → exec i s = .next s)
          ∧ (busy = false → subbed = false → ∃ t, exec i s = .next t ∧ smFind t.me.rings h.toNat = none ∧ gone t ∧ (∀ e g, ringOf t e g ≠ some key)
              ∧ t.me.pc = c.pc + 8#64 ∧ t.mem = s.mem ∧ (aliasesOf s key = [] → ∀ o, o ≠ key → smFind t.ringObjs o = smFind s.ringObjs o))))
    ∧ (ringOf s c h.toNat = none → ∀ i ∈ [Instr.rtag d h a, .rtagCas d h a b, .rwait d h a b], traps i 0x07#64 (s.reg a))
    ∧ ∀ o, ringOf s c h.toNat = some o →
        let k := (s.reg a).toNat
        let v := s.reg b
        let tag := ringTag s o k
        ((s.ring o).count ≤ k → ∀ i ∈ [Instr.rtag d h a, .rtagCas d h a b, .rwait d h a b], traps i 0x07#64 (s.reg a))
        ∧ (k < (s.ring o).count →
          (∃ t, exec (.rtag d h a) s = .next t ∧ Ends s t 1 d (BitVec.ofNat 64 tag))
          ∧ (v.toNat < 0x800 →
              (tag % 2 = 1 → k ∈ (s.ring o).claimed → ∃ t, exec (.rtagCas d h a b) s = .next t ∧ Ends s t 1 d (BitVec.ofNat 64 (tag ||| 0x100)))
              ∧ (¬(tag % 2 = 1 ∧ k ∈ (s.ring o).claimed) →
                  (tag = v.toNat % 256 → ∃ t, exec (.rtagCas d h a b) s = .next t ∧ ringTag t o k = v.toNat / 256 ∧ MemEnds s t d (BitVec.ofNat 64 tag))
                  ∧ (tag ≠ v.toNat % 256 → ∃ t, exec (.rtagCas d h a b) s = .next t ∧ Ends s t 1 d (BitVec.ofNat 64 tag))))
          ∧ (0x800 ≤ v.toNat → traps (.rtagCas d h a b) 0x01#64 0#64)
          ∧ (c.tryw = none →
              (tag &&& (v.toNat % 256) = v.toNat / 256 % 256 → ∃ t, exec (.rwait d h a b) s = .next t ∧ MemEnds s t d (BitVec.ofNat 64 tag) ∧ t.mem = s.mem)
              ∧ (tag &&& (v.toNat % 256) ≠ v.toNat / 256 % 256 →
                  ∃ t, exec (.rwait d h a b) s = .next t ∧ MeIs s t (c.waits s.us (.tag o k (v.toNat % 256) (v.toNat / 256 % 256) d)))))

/-- R240 to R243, R320: SUBS of a pattern whose lines pass their checks takes the lowest free slot of its loader and writes its id; without one
it writes all ones. SUBK does so for the ids of a queue of its tenant's window. UNSUB waits for the tile in hand, ends the task's own
subscription and writes the number of tiles completed; elsewhere it writes all ones and nothing else. A descriptor out of range is ILLEGAL
0x24, a handle without a ring RIDBOUND, another queue PERM; a line that fails a check faults precisely. u is the state once the descriptor
bs has been read. That a handle without a ring raises RIDBOUND (log 43), that the first byte of SUBK's table names the loader (log 133), and
what UNSUB leaves of the slot of a stopped subscription (log 134) are the model's choices. R233, R236, R240 to R242: a fill claims the EMPTY
slot at PPOS, FILLING then, and a store the FULL slot at CPOS, DRAINING then; each beat moves 64 bytes of the tile; after the last one the
slot is FULL, or EMPTY, and the tile is counted, or the subscription ends after the last one. A poisoned slot, and an error in what a beat
reads, stop the subscription with COPY. A loader of adapters passes what it has warmed already, counting it in SUB.KSKIP, and warms a new
id; when VAULT is set it claims a slot for it, fills it in beats of 64 bytes with the entry and its Down lines, leaving out what it may not
read or what does not fit, and ends it with the id, PART and FULL. One whose ring was named by an alias stands still while the context of a
handle that the alias leads to is away (R369). -/
def Obligations.SubscriptionsAreServedByTheirLoader : Prop :=
  (
  ∀ (s u : State) (d a : GReg) (h : BitVec 4) (ks : List Nat) (bs : List Byte),
    let c := s.me
    let p := s.reg a
    let wrote (t : State) (v : W64) : Prop :=
      t.me = { c.past s.us 1 with g := t.me.g } ∧ (∀ r, t.reg r = if r = d ∧ d ≠ 0#5 then v else s.reg r) ∧ ∀ k, k ≠ s.cur → t.ctx k = s.ctx k
    let none_ := BitVec.allOnes 64
    (p.toNat % 64 = 0 → genAccess s .ld polCl p 64 = .ok ks → loadKeys (used s c .ld p 64) c.cl polCl ks = (u, bs) →
      (∀ o, ringOf s c h.toNat = some o → ∀ st : Bool,
        let i := if st then Instr.subsStore d h a else .subsFill d h a
        (subsBad bs (s.ring o).size = true → canTrap s → ∃ t, exec i s = .next t ∧ Trapped u t 0x01#64 0x24#64 c.pc)
        ∧ (subsBad bs (s.ring o).size = false →
          (∀ r, subCheck u (if st then .st else .ld) (sLbytes bs) (subLines bs) = .error r → exec i s = .next (r.run u fun _ => u))
          ∧ ∀ ls, subCheck u (if st then .st else .ld) (sLbytes bs) (subLines bs) = .ok ls →
            let key := ((ls.headD []).headD (0, 0)).1
            (subSlot u key = none → ∃ t, exec i s = .next t ∧ wrote t none_ ∧ t.subs = s.subs)
            ∧ ∀ id, subSlot u key = some id → (∀ k, (s.cl k).locks.length ≤ 60) →
                ∃ t, exec i s = .next t ∧ wrote t (BitVec.ofNat 64 id) ∧ (∀ k, k ≠ id → smFind t.subs k = smFind s.subs k)
                  ∧ t.sub id = { Sub.none with k := if st then .store else .fill, cid := s.cur, task := c.task, cl := c.cl, ring := o, desc := bs, lines := ls,
                                               lock := (t.sub id).lock, lvl1 := c.trap.pl, via := viaOf s h.toNat }))
      ∧ (subkBad bs = true → canTrap s → ∃ t, exec (.subk d h a) s = .next t ∧ Trapped u t 0x01#64 0x24#64 c.pc)
      ∧ (subkBad bs = false → (4095 < kQueue bs ∨ inQwin s (s.tenOf c) (kQueue bs) = false) → canTrap s →
          ∃ t, exec (.subk d h a) s = .next t ∧ Trapped u t 0x08#64 0#64 c.pc)
      ∧ (subkBad bs = false → kQueue bs ≤ 4095 → inQwin s (s.tenOf c) (kQueue bs) = true →
          (kVault bs = true → ringOf s c h.toNat = none → canTrap s → ∃ t, exec (.subk d h a) s = .next t ∧ Trapped u t 0x07#64 (h.setWidth 64) c.pc)
          ∧ ∀ o, (if kVault bs = true then ringOf s c h.toNat = some o else o = (ringOf s c h.toNat).getD (ringKey s.cur h.toNat)) →
            (∀ w, tableKey u (kTable bs) = .wait w → exec (.subk d h a) s = .next w)
            ∧ ((∀ w, tableKey u (kTable bs) ≠ .wait w) →
                let key := match tableKey u (kTable bs) with | .ok (k :: _) => k | _ => 0
                (subSlot u key = none → ∃ t, exec (.subk d h a) s = .next t ∧ wrote t none_ ∧ t.subs = s.subs)
                ∧ ∀ id, subSlot u key = some id → ∃ t, exec (.subk d h a) s = .next t ∧ wrote t (BitVec.ofNat 64 id)
                    ∧ (∀ k, k ≠ id → smFind t.subs k = smFind s.subs k)
                    ∧ t.sub id = { Sub.none with k := .adapt, cid := s.cur, task := c.task, cl := c.cl, ring := o, desc := bs, queue := kQueue bs, lvl1 := c.trap.pl,
                                                 via := viaOf s h.toNat })))
    ∧ (p.toNat % 64 ≠ 0 → canTrap s → ∃ t, exec (.subk d h a) s = .next t ∧ Trapped s t 0x0A#64 p c.pc)
    ∧ (ringOf s c h.toNat = none → canTrap s → ∀ i ∈ [Instr.subsFill d h a, .subsStore d h a], ∃ t, exec i s = .next t ∧ Trapped s t 0x07#64 (h.setWidth 64) c.pc)
    ∧ (∀ e, smFind s.subs p.toNat = some e → e.task = c.task →
        (e.slot ≠ none → e.stopped = false → exec (.unsub d a) s = .next s)
        ∧ (e.slot = none ∨ e.stopped = true →
            ∃ t, exec (.unsub d a) s = .next t ∧ wrote t (BitVec.ofNat 64 e.tile) ∧ smFind t.subs p.toNat = none ∧ (∀ k, ∀ l ∈ (t.cl k).locks, l.id ≠ e.lock)
              ∧ (e.slot = none → t.mem = s.mem) ∧ ∀ k, e.slot = some k → k ∉ (t.ring e.ring).claimed))
    ∧ ((∀ e, smFind s.subs p.toNat = some e → e.task ≠ c.task) → ∃ t, exec (.unsub d a) s = .next t ∧ Ends s t 1 d none_))
  ∧ (
  ∀ (s : State) (id : Nat) (b : Sub), smFind s.subs id = some b → b.stopped = false → hardHeld s b.task = false →
    let r := s.ring b.ring
    let n := sLbytes b.desc
    let size := sLines b.desc * n
    let line := ((runKeys (b.lines.getD (b.tile * sLines b.desc + b.off / n) [])).drop (b.off % n)).take 64
    let stopped (t : State) (code k : Nat) : Prop := t.sub id = { b with slot := some k, stopped := true } ∧ t.mem = s.mem
      ∧ (t.ctx b.cid).trap.copyF = (s.ctx b.cid).trap.copyF ++ [⟨0x0F, BitVec.ofNat 64 (8 + code * 2 ^ 8)⟩]
    let moved (t : State) : Prop :=
      if subTiles b.desc ≤ b.tile + 1 then smFind t.subs id = none else smFind t.subs id = some { b with tile := b.tile + 1, slot := none, off := 0 }
    (b.k ≠ .adapt → viaHeld s b.via = true → exec (.subsTile id) s = .next s)
    ∧ (b.k ≠ .adapt → viaHeld s b.via = false →
    (b.k = .fill → b.slot = none → ringTag s b.ring r.ppos = 0 →
      ∃ t, exec (.subsTile id) s = .next t ∧ smFind t.subs id = some { b with slot := some r.ppos, off := 0 } ∧ ringTag t b.ring r.ppos = 1
        ∧ t.ring b.ring = { r with ppos := (r.ppos + 1) % r.count, claimed := r.ppos :: r.claimed })
    ∧ (b.k = .store → b.slot = none → ringTag s b.ring r.cpos = 2 →
      ∃ t, exec (.subsTile id) s = .next t ∧ smFind t.subs id = some { b with slot := some r.cpos, off := 0 } ∧ ringTag t b.ring r.cpos = 3
        ∧ t.ring b.ring = { r with cpos := (r.cpos + 1) % r.count, claimed := r.cpos :: r.claimed })
    ∧ (b.k = .store → b.slot = none → (ringTag s b.ring r.cpos).testBit 2 = true → ∃ t, exec (.subsTile id) s = .next t ∧ stopped t 0x0F r.cpos)
    ∧ (∀ k, b.k ≠ .adapt → b.slot = some k → k < r.count → r.cl < 192 → r.tbase + r.count ≤ r.sbase → r.sbase + r.count * r.size ≤ 2 ^ 22 → size ≤ r.size →
        b.off + 64 ≤ size → line.length = 64 → line.Nodup → (∀ l ∈ line, isDevice l = true) → NoneWaits s → s.Inv →
        let slot := rangeFrom (vaultKey r.cl (r.sbase + k * r.size) + b.off) 64
        let src := if b.k = .fill then line else slot
        let dst := if b.k = .fill then slot else line
        (eccHit s b.cl polEng src = true → ∃ t, exec (.subsTile id) s = .next t ∧ stopped t 0x14 k)
        ∧ (eccHit s b.cl polEng src = false →
            ∃ t, exec (.subsTile id) s = .next t ∧ (∀ i, i < 64 → memGet t.mem (dst.getD i 0) = byteAt s b.cl (src.getD i 0))
              ∧ (b.off + 64 < size → smFind t.subs id = some { b with off := b.off + 64 } ∧ ringTag t b.ring k = ringTag s b.ring k)
              ∧ (size ≤ b.off + 64 → moved t ∧ ringTag t b.ring k = (if b.k = .fill then 2 else 0) ∧ k ∉ (t.ring b.ring).claimed))))
    ∧ (b.k = .adapt → (kVault b.desc = true → viaHeld s b.via = false) →
        (∀ e es, b.slot = none → b.pend = e :: es →
          let i := leNat ((e.drop (kOff b.desc)).take 4)
          (kCount b.desc ≤ i ∨ i ∈ b.ids → ∃ t, exec (.subkWarm id) s = .next t ∧ smFind t.subs id = some { b with pend := es }
            ∧ smGet 0 (t.cl b.cl).kskip b.task = smGet 0 (s.cl b.cl).kskip b.task + 1)
          ∧ (i < kCount b.desc → i ∉ b.ids → (∀ w, stageWait s b i = some w → exec (.subkWarm id) s = .next w)
              ∧ (stageWait s b i = none →
                  (kVault b.desc = false →
                    ∃ t, exec (.subkWarm id) s = .next t ∧ smFind t.subs id = some { b with pend := es, ids := (i :: b.ids).take 64 } ∧ smGet 0 t.warm i = b.cl)
                  ∧ (kVault b.desc = true →
                    (ringTag s b.ring r.ppos ≠ 0 → exec (.subkWarm id) s = .next s)
                    ∧ (ringTag s b.ring r.ppos = 0 → ∃ t, exec (.subkWarm id) s = .next t ∧ ringTag t b.ring r.ppos = 1 ∧ t.warm = s.warm
                        ∧ smFind t.subs id = some { b with pend := es, ids := (i :: b.ids).take 64, slot := some r.ppos, off := 64, aid := i, ent := [],
                                                           part := false })))))
        ∧ (∀ k, b.slot = some k → k < r.count → r.cl < 192 → r.tbase + r.count ≤ r.sbase → r.sbase + r.count * r.size ≤ 2 ^ 22 → 256 ≤ r.size →
          let s1 : State := { s with cur := b.cid }
          let base := vaultKey r.cl (r.sbase + k * r.size)
          let all := entryAt b b.aid ++ downBytes b b.ent
          let ps := (all.drop (b.off - 64)).take 64
          let v := quietRead s1 b ps
          let ent := if b.off = 64 then (wholeEntry v.2).getD [] else b.ent
          let stop := if b.off = 64 then 128 + (if ent = [] then 0 else (downBytes b ent).length) else 64 + all.length
          (b.off < 64 → ∃ t, exec (.subkWarm id) s = .next t ∧ smFind t.subs id = some { b with slot := none, off := 0, ent := [], part := false }
            ∧ smGet 0 t.warm b.aid = b.cl ∧ ringTag t b.ring k = 2 ∧ k ∉ (t.ring b.ring).claimed
            ∧ (∀ j, j < 4 → memGet t.mem (base + j) = BitVec.ofNat 8 (b.aid / 2 ^ (8 * j))) ∧ memGet t.mem (base + 4) = if b.part then 1#8 else 0#8)
          ∧ (64 ≤ b.off →
              (∀ w, quietWait s1 b ps = some w → exec (.subkWarm id) s = .next { w with cur := s.cur })
              ∧ (quietWait s1 b ps = none → ∃ t, exec (.subkWarm id) s = .next t ∧ ringTag t b.ring k = ringTag v.1 b.ring k
                  ∧ smFind t.subs id = some { b with ent := ent, part := b.part || v.2.any (·.isNone) || decide (r.size < b.off + ps.length),
                                                     off := if b.off + 64 < stop then b.off + 64 else 0 }
                  ∧ ∀ n, n < ps.length → memGet t.mem (base + b.off + n) = match v.2.getD n none with
                      | some x => if b.off + n < r.size then x else memGet v.1.mem (base + b.off + n)
                      | none => memGet v.1.mem (base + b.off + n))))))

/-! Tasks: edges, retirement, spawning, placement. -/

/-- R28, R232, R252 to R260: TWAITP of a region the task does not have is ILLEGAL 0x31; one whose producers are done ends with the region's
edge-in made, and waits before that; TWAITP.ALL does so for every producer. EDGE_IN makes every edge-in of an early task that is ready, and
EARLY_TO_RUNNING lets it run. TDONE of a context with nothing left in flight retires it, and takes the trap of a copy that is still faulted;
after the last, the task is at its edge-out, whose step retires it. A second THINT, or one without consumers, only ends; a consumer that has
room becomes RESIDENT-EARLY. -/
def Obligations.TasksWaitForTheirProducersAndRetire : Prop :=
  ∀ (s : State) (r : BitVec 4),
    let c := s.me
    let tk := c.task
    let x := s.task tk
    let covered (k : Nat) : Prop := ∃ g, x.regions[k]? = some g ∧ g.covered = true
    let edged (t : State) (k : Nat) : Prop := 16 * x.cls.idxOf c.cl + k ∈ (t.task tk).edgedIn
    let ended (t : State) : Prop := t.me.pc = c.pc + 8#64 ∧ t.me.watch = none ∧ (∀ r, t.reg r = s.reg r) ∧ (∀ k, k ≠ s.cur → t.ctx k = s.ctx k)
      ∧ (s.Inv → NoneWaits s → KeepsBytes s t c.cl []) ∧ (c.st = .running ∨ c.st = .waiting false → t.me = c.past s.us 1)
      ∧ (c.st.isEarly = true → t.me.st = .early ∨ (t.me.st = .running ∧ allEdged t tk c.cl = true))
    let wd := exec (.twaitp r) s
    let wa := exec .twaitpAll s
    (x.r.nreg ≤ r.toNat → canTrap s → ∃ t, wd = .next t ∧ Trapped s t 0x01#64 0x31#64 c.pc)
    ∧ (c.tryw = none →
        (r.toNat < x.r.nreg →
          (x.r.producer = 0#64 ∨ (∀ l ∈ writersOf s x r.toNat, doneBit s x.tenant x.r.producer l = true) →
            ∃ t, wd = .next t ∧ ended t ∧ (covered r.toNat → edged t r.toNat))
          ∧ (∀ l ∈ writersOf s x r.toNat, x.r.producer ≠ 0#64 → doneBit s x.tenant x.r.producer l = false →
            ∃ t, wd = .next t ∧ MeIs s t (c.waits s.us (.prod (some r.toNat)))))
        ∧ (x.r.producer = 0#64 ∨ (∀ l ∈ prodLins s x.tenant x.r (x.x, x.y, x.z), doneBit s x.tenant x.r.producer l = true) →
            ∃ t, wa = .next t ∧ ended t ∧ ∀ k, covered k → edged t k)
        ∧ (∀ l ∈ prodLins s x.tenant x.r (x.x, x.y, x.z), x.r.producer ≠ 0#64 → doneBit s x.tenant x.r.producer l = false →
            ∃ t, wa = .next t ∧ MeIs s t (c.waits s.us (.prod none))))
    ∧ (∀ e : Bool, c.st = (if e then .waiting true else .early) → taskReady s tk = true → allEdged s tk c.cl = true →
        ∃ t, exec .earlyToRunning s = .next t ∧ t.me = { c.counted s.us with st := if e then .waiting false else .running } ∧ (t.task tk).early = false)
    ∧ (c.st.isEarly = false ∨ taskReady s tk = false ∨ allEdged s tk c.cl = false → exec .earlyToRunning s = .next s)
    ∧ (∀ n cl, (s.task n).st = .resident → (∃ e ∈ s.residentOf n, e.2.cl = cl ∧ e.2.st.isEarly = true) → taskReady s n = true →
        ∃ t, exec (.edgeIn n cl) s = .next t ∧ allEdged t n cl = true ∧ t.ctxs = s.ctxs)
    ∧ (let u := abandonCapture s;
        c.trap.intrap = false → c.st.isEarly = false →
        (faultedCopy u s.cur = none →
          (tdoneReady u = true → ∃ t, exec .tdone s = .next t ∧ t.me.st = .retired ∧ (t.task tk).st = (if lastCtx s tk s.cur then .edgeOut else x.st)
              ∧ (t.task tk).lastCl = (if lastCtx s tk s.cur then some c.cl else x.lastCl))
          ∧ (tdoneReady u = false → exec .tdone s = .next u))
        ∧ ∀ ch code, faultedCopy u s.cur = some (ch, code) → code < 256 → ch < 8 → canTrap s →
            ∃ t, exec .tdone s = .next t ∧ Trapped u t (BitVec.ofNat 64 (0x0F + 2 ^ 28 + 3 * 2 ^ 30)) (BitVec.ofNat 64 (8 + code * 2 ^ 8 + ch * 2 ^ 16)) c.pc)
    ∧ (c.st.isEarly = true → canTrap s → ∃ t, exec .tdone s = .next t ∧ Trapped s t 0x01#64 0#64 c.pc)
    ∧ (∀ n, (s.task n).st = .edgeOut →
        ∃ t, exec (.edgeOut n) s = .next t ∧ (t.task n).st = .retired ∧ (t.task n).extents = [] ∧ (∀ k, ∀ w ∈ (t.cl k).tc, w.task ≠ n)
          ∧ (t.launch (s.task n).launch).gone = (s.task n).lin :: (s.launch (s.task n).launch).gone ∧ t.ctxs = s.ctxs)
    ∧ (x.hinted = true → ∃ t, exec .thint s = .next t ∧ MeIs s t (c.past s.us 1))
    ∧ (let u := (s.modLaunch x.launch fun l => { l with hintAt := some (l.hintAt.getD s.ticks) }).modTask tk fun k => { k with hinted := true };
        x.hinted = false →
        (consumersOf s x = [] → ∃ t, exec .thint s = .next t ∧ t.me = c.past s.us 1 ∧ (t.task tk).hinted = true ∧ t.mem = s.mem)
        ∧ ∀ lin key q regs f, consumersOf s x = [(lin, key)] →
            let node := (s.launch key).node
            let at_ := coordsOf u x.tenant node lin
            checkTask u x.tenant node lin = .ok (q, regs) → pathLive u x.tenant (pathOf u x.tenant node) = true → producersDone u x.tenant q at_ = false →
            (entryOf u x.tenant q).isSome = true → heldBy u x.tenant key lin q at_ regs = false → roomFor? u x.tenant node q at_ regs true = some [f] →
            tk < s.nextId →
            ∃ t, exec .thint s = .next t ∧ t.me.pc = c.pc + 8#64 ∧ (t.task s.nextId).st = .resident ∧ (t.task s.nextId).early = true
              ∧ (t.task s.nextId).lin = lin ∧ (t.task s.nextId).launch = key)

/-- R18, R21, R24, R261, R328, R330, R333, R337: TASK_PLACEMENT of a ready task whose place has come and that has room makes it resident, its
contexts at the entry point of its record at level 0 with g registers zero; one that is not ready, or held, stays; a bad record, once its
producers are done, fails the task. TSPAWN refuses a device beyond 0xFF, a pointer off 256 and a device that its pointer does not name,
answers 2 where no drawbar leads and 1 where the dispatcher is full, and else leaves an operation outstanding; a reply brings its code, and
takes the operation back unless the code is 0; a notice takes it back at its end. That the producer is judged again at the placement (log
67), the order of the placements (log 69), and that the path is judged at each placement (log 121), are the model's choices. -/
def Obligations.TasksArePlacedAndSpawned : Prop :=
  (∀ (s : State) (tn key lin : Nat),
    let node := (s.launch key).node
    let path := pathOf s tn node
    let j := judgePath s tn path
    let u := j.1
    let c := coordsOf u tn node lin
    let go := exec (.taskPlacement tn key lin) s
    (dispatchable s tn key lin = false → go = .next s)
    ∧ (dispatchable s tn key lin = true →
      (j.2 = false ∨ pathLive u tn path = false → go = .next u)
      ∧ (j.2 = true → pathLive u tn path = true →
        (∀ q, readRec u tn node lin = some q →
          (producerBad u tn q = true → go = .next (rcbError u tn node))
          ∧ (producerBad u tn q = false → mayStartRec u tn node q c = false → go = .next u))
        ∧ ((readRec u tn node lin).any (producerBad u tn) = false → (∀ q, readRec u tn node lin = some q → mayStartRec u tn node q c = true) →
          (∀ code, checkTask u tn node lin = .error code → ∃ t, go = .next t ∧ t = failTask u tn key lin code ∧ (t.launch key).placed = lin :: (s.launch key).placed)
          ∧ ∀ r regs, checkTask u tn node lin = .ok (r, regs) →
              (readyRec u tn node r c = false ∨ heldBy u tn key lin r c regs = true → go = .next u)
              ∧ ∀ f, readyRec u tn node r c = true → heldBy u tn key lin r c regs = false → roomFor? u tn node r c regs true = some [f] →
                (isFirst u tn key lin node = false ∨ isNext u tn (pathOf u tn node) = false → go = .next u)
                ∧ (isFirst u tn key lin node = true → isNext u tn (pathOf u tn node) = true → r.isav ≠ 0x8001 → r.nctx ≤ 8 → r.mcg = 1 →
                    ∃ t, go = .next t ∧ (t.task u.nextId).st = .resident ∧ (t.task u.nextId).r = r ∧ (t.task u.nextId).launch = key ∧ (t.task u.nextId).lin = lin
                      ∧ (t.launch key).placed = lin :: (u.launch key).placed
                      ∧ ∀ i, i < r.nctx → i < f.spots.length →
                          let x := t.ctx (cidOf u.nextId 0 i)
                          x.st = .running ∧ x.task = u.nextId ∧ x.idx = i ∧ x.pc = r.entry ∧ x.g = [] ∧ x.cl = f.cl ∧ x.trap.pl = false ∧ x.trap.vec = 0#64
                            ∧ x.team.w = 2 ^ r.tw.getD i 0 ∧ x.team.fmt = 0#32)))))
  ∧ ∀ (s : State) (d a b : GReg),
    let c := s.me
    let p := s.reg a
    let dev := (s.reg b).toNat
    let e := bndOf c p
    let i := Instr.tspawn d a b
    let key := (s.task c.task).launch
    let at_ (code info : W64) : Prop := canTrap s → ∃ t, exec i s = .next t ∧ Trapped s t code info c.pc
    (0x100 ≤ dev → at_ 0x01#64 0x32#64) ∧ (dev < 0x100 → p.toNat % 256 ≠ 0 → at_ 0x0A#64 p)
    ∧ (dev < 0xFF → p.toNat % 256 = 0 → ¬(0 < ridOf p ∧ ridOf p < 0xFD ∧ e.tgt = 2 ∧ e.peer = dev) → at_ 0x08#64 p)
    ∧ (dev < 0xFF → p.toNat % 256 = 0 → 0 < ridOf p → ridOf p < 0xFD → e.tgt = 2 → e.peer = dev →
        (smGet 0 s.pf.route dev = 0 → ∃ t, exec i s = .next t ∧ MemEnds s t d 2#64)
        ∧ ∀ ks, smGet 0 s.pf.route dev ≠ 0 → genAccess s .ld polCl p 256 = .ok ks →
          ∃ t, exec i s = .next t ∧ t.me = { c with remote := some (s.nextId, d) } ∧ t.remotes = s.remotes ++ [⟨s.nextId, some key, some dev, true, none⟩]
            ∧ t.packets.length = s.packets.length + 1)
    ∧ (dev = 0xFF → p.toNat % 256 = 0 →
        (∀ ks, genAccess s .ld polCl p 256 = .ok ks →
          (Config.spawnFull s.ticks = true → ∃ t, exec i s = .next t ∧ MemEnds s t d 1#64)
          ∧ (Config.spawnFull s.ticks = false → ∃ t n, exec i s = .next t ∧ t.remotes = s.remotes ++ [⟨s.nextId, some key, none, true, n⟩] ∧ t.me.pc = c.pc + 8#64
              ∧ ∀ r, t.reg r = if r = d ∧ d ≠ 0#5 then 0#64 else s.reg r))
        ∧ (∀ f q, genAccess s .ld polCl p 256 = .fault f q → f ≠ 0x09 → at_ (BitVec.ofNat 64 (plainCode f)) q))
    ∧ (∀ id code o k n g, s.packets.find? (fun q => q.remote = some id) = some o → s.remotes.find? (fun q => q.id = id) = some n → code ≤ 3 →
        s.ctxs.find? (fun q => (q.2.remote.map (·.1)) = some id) = some (k, s.ctx k) → (s.ctx k).remote = some (id, g) →
        ∃ t, exec (.remoteReply id code) s = .next t ∧ (t.ctx k).pc = (s.ctx k).pc + 8#64 ∧ (t.ctx k).remote = none
          ∧ (g ≠ 0#5 → (t.ctx k).reg g = BitVec.ofNat 64 code) ∧ (∀ q ∈ t.packets, q.remote ≠ some id)
          ∧ (code = 0 → t.remotes = s.remotes) ∧ (code ≠ 0 → ∀ q ∈ t.remotes, q.id ≠ id) ∧ ∀ m, m ≠ k → t.ctx m = s.ctx m)
    ∧ (∀ id n, s.remotes.find? (fun q => q.id = id) = some n → n.node = none → (∀ q ∈ s.packets, q.remote ≠ some id) →
        ∃ t, exec (.retireNotice id) s = .next t ∧ (∀ q ∈ t.remotes, q.id ≠ id) ∧ t.ctxs = s.ctxs ∧ t.tasks = s.tasks)
    ∧ ∀ id n, s.remotes.find? (fun q => q.id = id) = some n → ∀ k, n.node = some k → rcbOutst s (s.launch k).tenant (s.launch k).node = 0 →
        ∃ t, exec (.retireNotice id) s = .next t ∧ (∀ q ∈ t.remotes, q.id ≠ id) ∧ t.ctxs = s.ctxs

/-! Hardware queues and message rings. -/

/-- R263 to R267, R270: a push to an enabled queue of the tenant that has room adds its entry at TAIL, counted to its launch, and answers 0,
serving a waiter; a full one answers 1, an entry whose key the queue holds 2, and QSLOTS holds it back with 1. A queue that is not the
tenant's, is disabled, or named with reserved bits is QUEUE 1, one in ERROR 2, one whose block the first operation finds bad 6, a range of
no index 4, QINSD without DEDUP 5, with no effect. A push to a peer awaits its reply. QSTAT reads counts and state. That a waiter is served,
and goes on, in the push's own step (log 32), and that only bits 23:16 = 0xFF name the own package (log 48), are the model's choices. -/
def Obligations.PushesAddTheirEntryAtTail : Prop :=
  ∀ (s : State) (d a q : GReg) (n : Nat) (k : PushK) (g : GSrc), n < 4096 →
    let c := s.me
    let i := match k with | .plain => Instr.qpush d a q | .insd => .qinsd d a q | .range => .qrange d a q
    let ws := (List.range 4).map fun j => s.reg (q + BitVec.ofNat 5 j)
    let tn := s.tenOf c
    let path := taskPath s c.task
    let spec := (s.reg a).toNat
    let foreign : Prop := qOwned s tn n = false ∨ qState s n = 0
    let mine : Prop := qOwned s tn n = true ∧ qState s n = 1 ∧ (s.queue n).checked = true
    let wrongRange : Prop := k = .range ∧ (s.reg (q + 1#5)).toNat ≤ (s.reg q).toNat
    let errs (sub : Nat) : Prop := canTrap s → ∃ t, exec i s = .next t ∧ Trapped s t 0x11#64 (BitVec.ofNat 64 (sub + n * 2 ^ 16)) c.pc
    let u := release s c.cl 5
    let far := decide (96 ≤ c.cl)
    let v := let w := addField u tn 0x2C 4 1 path; if far then addOutst w tn 1 path else w
    let key := if k = .insd then some (qKey v n ws) else none
    (spec % 4096 = n → (spec / 4096 % 16 ≠ 0 ∨ 2 ^ 24 ≤ spec) → errs 1)
    ∧ (spec = n + 0xFF0000 →
      (foreign → errs 1)
      ∧ (qOwned s tn n = true → qState s n = 2 → errs 2)
      ∧ (qOwned s tn n = true → qState s n = 1 → (s.queue n).checked = false → qBad s n = true → NoneWaits s → canTrap s →
          ∃ t, exec i s = .next t ∧ qState t n = 2 ∧ t.me.pc = c.trap.vec ∧ t.me.trap.epc = c.pc ∧ t.me.trap.reason = 0x11#64
            ∧ t.me.trap.info = BitVec.ofNat 64 (6 + n * 2 ^ 16))
      ∧ (mine → wrongRange → errs 4)
      ∧ (mine → k = .insd → qDedup s n = false → errs 5)
      ∧ (mine → ¬wrongRange → (k = .insd → qDedup s n = true) →
          (qslotsFull u tn path = true → ∃ t, exec i s = .next t ∧ MemEnds s t d 1#64)
          ∧ (qslotsFull u tn path = false →
              (k = .insd → (∃ e ∈ (s.queue n).ents, e.key = key) → ∃ t, exec i s = .next t ∧ MemEnds s t d 2#64)
              ∧ ((k = .insd → ∀ e ∈ (s.queue n).ents, e.key ≠ key) →
                (qFull v n = true → ∃ t, exec i s = .next t ∧ MemEnds s t d 1#64)
                ∧ (qFull v n = false → (s.queue n).ws = [] →
                  ∃ t, exec i s = .next t ∧ (t.queue n).ents = (s.queue n).ents ++ [⟨decide (k = .range), key, some (s.task c.task).launch, far, none⟩]
                    ∧ t.me = { c.past s.us 1 with g := t.me.g } ∧ (∀ r, t.reg r = if r = d ∧ d ≠ 0#5 then 0#64 else s.reg r) ∧ (∀ m, m ≠ n → t.queue m = s.queue m)
                    ∧ (∀ m, m ≠ s.cur → t.ctx m = s.ctx m)
                    ∧ (NoneWaits s → entAddr v n (qTail v n) + 32 ≤ qcbAddr s n ∨ qcbAddr s n + 64 ≤ entAddr v n (qTail v n) →
                        memBytes t.mem (entAddr v n (qTail v n)) 32 = quadBytes ws))
                ∧ (∀ w h r, qFull v n = false → (s.queue n).ents = [] → (s.queue n).ws = (w, h) :: r → w ≠ s.cur → (s.ctx w).expired s.mc = false → h.toNat % 4 = 0 →
                  NoneWaits s → (entAddr v n (qTail v n) + 32 ≤ qcbAddr s n ∨ qcbAddr s n + 64 ≤ entAddr v n (qTail v n)) → qHead v n = qTail v n →
                  ∃ t, exec i s = .next t ∧ (t.queue n).ents = [] ∧ t.me.pc = c.pc + 8#64 ∧ (t.ctx w).pc = (s.ctx w).pc + 8#64
                    ∧ ∀ j, j < 4 → h + BitVec.ofNat 5 j ≠ 0#5 → (t.ctx w).reg (h + BitVec.ofNat 5 j) = ws.getD j 0)))))
    ∧ (∀ dev, spec = n + dev * 2 ^ 16 → dev < 0xFF →
        (smGet 0 s.pf.route dev = 0 → errs 1)
        ∧ (smGet 0 s.pf.route dev ≠ 0 → (wrongRange → errs 4)
          ∧ (¬wrongRange → qslotsFull (release s c.cl 6) tn path = true → ∃ t, exec i s = .next t ∧ MemEnds s t d 1#64)
          ∧ (¬wrongRange → qslotsFull (release s c.cl 6) tn path = false →
            ∃ t, exec i s = .next t ∧ t.me = { c with remote := some (s.nextId, d) } ∧ t.packets.length = s.packets.length + 1)))
    ∧ (let st (x : W64) : Prop := ∃ t, exec (.qstat d g) s = .next t ∧ Ends s t 1 d x;
        let bad (m : Nat) : Prop := canTrap s → ∃ t, exec (.qstat d g) s = .next t ∧ Trapped s t 0x11#64 (BitVec.ofNat 64 (1 + m * 2 ^ 16)) c.pc;
        (4096 ≤ (s.srcN g).toNat → bad ((s.srcN g).toNat % 4096))
        ∧ ((s.srcN g).toNat = n →
          (mine → st (fields [((s.queue n).ents.length, 0), ((s.queue n).ws.length, 32), (qcb s n 2 1 % 32, 53), (1, 62)]))
          ∧ (qOwned s tn n = true → qState s n = 2 → (s.queue n).checked = true →
              st (fields [((s.queue n).ents.length, 0), ((s.queue n).ws.length, 32), (qcb s n 2 1 % 32, 53), (2, 62)]))
          ∧ (foreign → bad n)))

/-- R266 to R270: QPOPB brings the entry at HEAD to its quad, with a hold when it is a range, and waits on an empty queue, asking the best
holder to split; a context that holds indices gets QUEUE 3, a queue not its tenant's 1, one in ERROR 2. QNEXT hands out the held indices one
by one, all ones without a hold, and a hold that is used up is over; one asked for a part gives the upper half away first. An entry in error
stays, and raises ECC. A plain entry leaves the hold CSRs but Q.HOLD, which it sets to 0 (log 40); that the entry in error stays, with its
address in CTX.TRAPINFO (log 150), is the model's choice as well. -/
def Obligations.PopsTakeTheEntryAtHead : Prop :=
  ∀ (s : State) (q d : GReg) (g : GSrc) (n : Nat),
    let c := s.me
    let quad (k : Nat) : GReg := q + BitVec.ofNat 5 k
    let wsAt : List W64 := quadOf (memBytes s.mem (entAddr s n (qHead s n)) 32)
    let own : Prop := qOwned s (s.tenOf c) n = true
    let errs (sub m : Nat) : Prop := canTrap s → ∃ t, exec (.qpopb q g) s = .next t ∧ Trapped s t 0x11#64 (BitVec.ofNat 64 (sub + m % 4096 * 2 ^ 16)) c.pc
    (4096 ≤ (s.srcN g).toNat → errs 1 (s.srcN g).toNat)
    ∧ ((s.srcN g).toNat = n → n < 4096 →
      (¬own ∨ qState s n = 0 → errs 1 n) ∧ (own → qState s n = 2 → errs 2 n)
      ∧ (own → qState s n = 1 → (s.queue n).checked = true →
        (holds c = true → c.hold.getD 1 0 < c.hold.getD 2 0 → errs 3 n)
        ∧ (holds c = false ∨ c.hold.getD 2 0 ≤ c.hold.getD 1 0 → c.tryw = none →
          (∀ e es, (s.queue n).ents = e :: es → qHeadBad s n = true → canTrap s →
            ∃ t, exec (.qpopb q g) s = .next t ∧ t.me.pc = c.trap.vec ∧ t.me.trap.epc = c.pc ∧ t.me.trap.reason = 0x14#64
              ∧ t.me.trap.info = BitVec.ofNat 64 (entAddr s n (qHead s n)) ∧ (t.queue n).ents = e :: es)
          ∧ (∀ e es, NoneWaits s → q.toNat % 4 = 0 → (s.queue n).ents = e :: es → qHeadBad s n = false →
            let hold := if e.range then BitVec.ofNat 64 (n + 2 ^ 63) :: wsAt.take 4 else 0#64 :: c.hold.tail;
            ∃ t, exec (.qpopb q g) s = .next t ∧ (t.queue n).ents = es ∧ t.me = { c.past s.us 1 with g := t.me.g, hold := hold }
              ∧ (∀ k, k < 4 → quad k ≠ 0#5 → t.reg (quad k) = wsAt.getD k 0) ∧ (∀ r : GReg, r.toNat / 4 ≠ q.toNat / 4 → t.reg r = s.reg r))
          ∧ ((s.queue n).ents = [] → (∀ w ∈ (s.queue n).ws, w.1 ≠ s.cur) →
            ∃ t, exec (.qpopb q g) s = .next t ∧ (t.queue n).ws = (s.queue n).ws ++ [(s.cur, q)] ∧ t.me = c.waits s.us .served
              ∧ (stealable s n [s.cur] = [] → (t.queue n).steals = (s.queue n).steals ∧ ∀ k, k ≠ s.cur → t.ctx k = s.ctx k)
              ∧ ∀ k x, stealable s n [s.cur] = [(k, x)] → k ≠ s.cur → (t.queue n).steals = (s.queue n).steals ++ [(k, s.cur)] ∧ t.ctx k = setSteal x true))))
    ∧ (holds c = false → ∃ t, exec (.qnext d) s = .next t ∧ Ends s t 1 d (BitVec.allOnes 64))
    ∧ (∀ h lo hi p0 p1, c.hold = [h, lo, hi, p0, p1] → h.getLsbD 63 = true →
        (h.getLsbD 62 = false →
          ∃ t, exec (.qnext d) s = .next t ∧ OnlyMe s t ∧ (∀ r, t.reg r = if r = d ∧ d ≠ 0#5 then lo else s.reg r)
            ∧ t.me = { c.past s.us 1 with g := t.me.g, hold := [if lo + 1#64 = hi then 0#64 else h, lo + 1#64, hi, p0, p1] })
        ∧ (h.getLsbD 62 = true → let m := h.toNat % 4096;
            (∀ w ∈ (s.queue m).ws, w.1 ≠ s.cur) → stealable s m [s.cur] = [] →
            (∃ t, exec (.qnext d) s = .next t ∧ t.me.pc = c.pc + 8#64 ∧ ∀ r, t.reg r = if r = d ∧ d ≠ 0#5 then lo else s.reg r)
            ∧ ∀ r, (s.queue m).steals = [(s.cur, r)] → (s.queue m).ws = [] → qFull s m = false → lo < hi → 3 ≤ (hi - lo).toNat →
              ∃ t, exec (.qnext d) s = .next t ∧ (t.queue m).ents = ⟨true, none, none, false, none⟩ :: (s.queue m).ents ∧ (t.queue m).steals = []
                ∧ t.me.hold.getD 2 0 = lo + BitVec.ofNat 64 (((hi - lo).toNat + 1) / 2) ∧ t.me.hold.getD 1 0 = lo + 1#64))

/-- R271 to R275: MSGPOP and MSGPEEK bring the slot at RIDX to their octet once its header is published, and only MSGPOP moves RIDX; both pass a
PAD; before that they wait. A header of the lap after, one of a reserved form, or a bad block stops the ring, MSGERR 3, 2 or 5, and every
other context that waits on it gets 4, as does one that finds it in ERROR. MSGRST sets RIDX, enables the ring, also out of ERROR, and
returns the old RIDX. A ring that is not the tenant's, or is disabled, is MSGERR 1. A header or a message in error raises ECC and moves no
RIDX; that its address is CTX.TRAPINFO is the model's choice (log 150). -/
def Obligations.MessagesAreTakenInOrder : Prop :=
  ∀ (s : State) (o d a b : GReg) (g : GSrc) (m : Nat),
    let c := s.me
    let r := mRidx s m
    let n := mSlots s m
    let slot (k : Nat) : Nat := mcb s m 8 8 + 64 * (k % n)
    let hdr (k : Nat) : Nat := memNat s.mem (slot k) 8
    let own : Prop := m < 1024 ∧ mOwned s (s.tenOf c) m = true
    let chk : Bool := (smGet MRing.none s.mrings m).checked
    let oct (k : Nat) : GReg := o + BitVec.ofNat 5 k
    let takes := [Instr.msgpop o g, .msgpeek o g]
    let good (k : Nat) : Prop := hdrType (hdr k) ≠ 0 ∧ hdrSeq (hdr k) = k % 2 ^ 32 ∧ hdrBad (hdr k) = false
    let brings (i : Instr) (k : Nat) (pop : Bool) : Prop :=
      ∃ t, exec i s = .next t ∧ t.me = { c.past s.us 1 with g := t.me.g } ∧ mRidx t m = (if pop then k + 1 else k)
        ∧ (∀ j, j < 8 → oct j ≠ 0#5 → t.reg (oct j) = BitVec.ofNat 64 (memNat s.mem (slot k + 8 * j) 8))
        ∧ ∀ x, (x < mcbAddr s m ∨ mcbAddr s m + 64 ≤ x) → memGet t.mem x = memGet s.mem x
    let errs (i : Instr) (sub m r : Nat) : Prop :=
      canTrap s → ∃ t, exec i s = .next t ∧ Trapped s t 0x10#64 (BitVec.ofNat 64 (sub + m * 2 ^ 16 + r % 2 ^ 32 * 2 ^ 32)) c.pc
    let stops (i : Instr) (sub : Nat) : Prop :=
      canTrap s → ∃ t, exec i s = .next t ∧ t.me.pc = c.trap.vec ∧ t.me.trap.epc = c.pc ∧ t.me.trap.reason = 0x10#64
        ∧ t.me.trap.info = BitVec.ofNat 64 (sub + m * 2 ^ 16 + r % 2 ^ 32 * 2 ^ 32) ∧ mState t m = 2
        ∧ ∀ k x q w f, s.ctxs = [(s.cur, c), (k, x)] → k ≠ s.cur → x.st = .waiting false → x.watch = some (.msg m q w f) → x.trap.vec ≠ 0#64 →
            x.trap.intrap = false → (t.ctx k).pc = x.trap.vec ∧ (t.ctx k).trap.reason = 0x10#64
              ∧ (t.ctx k).trap.info = BitVec.ofNat 64 (4 + m * 2 ^ 16 + r % 2 ^ 32 * 2 ^ 32)
    ((s.srcN g).toNat = m →
      (own → mState s m = 1 → (chk = true ∨ mBad s m = false) → NoneWaits s → slot r + 64 ≤ deviceBytes → r + 2 < 2 ^ 64 →
        (unitBad s (slot r) 8 = true ∨ (unitBad s (slot r) 64 = true ∧ good r ∧ hdrType (hdr r) ≠ 0xF0) → canTrap s → ∀ i ∈ takes,
          ∃ t, exec i s = .next t ∧ t.me.pc = c.trap.vec ∧ t.me.trap.epc = c.pc ∧ t.me.trap.reason = 0x14#64
            ∧ t.me.trap.info = BitVec.ofNat 64 (slot r) ∧ mRidx t m = r ∧ mState t m = 1)
        ∧ (unitBad s (slot r) 8 = false →
        (unitBad s (slot r) 64 = false → good r → hdrType (hdr r) ≠ 0xF0 → c.tryw = none → o.toNat % 8 = 0 → brings (.msgpop o g) r true ∧ brings (.msgpeek o g) r false)
        ∧ (good r → hdrType (hdr r) = 0xF0 → good (r + 1) → unitBad s (slot (r + 1)) 64 = false → hdrType (hdr (r + 1)) ≠ 0xF0 → c.tryw = none → o.toNat % 8 = 0 →
            slot (r + 1) + 64 ≤ deviceBytes → (slot (r + 1) + 64 ≤ mcbAddr s m ∨ mcbAddr s m + 64 ≤ slot (r + 1)) →
            brings (.msgpop o g) (r + 1) true ∧ brings (.msgpeek o g) (r + 1) false)
        ∧ (hdrType (hdr r) = 0 ∨ (hdrSeq (hdr r) ≠ r % 2 ^ 32 ∧ hdrSeq (hdr r) ≠ (r + n) % 2 ^ 32) → c.tryw = none →
            (∃ t, exec (.msgpop o g) s = .next t ∧ t.me = c.waits s.us (.msg m true o g) ∧ t.mem = s.mem)
            ∧ ∃ t, exec (.msgpeek o g) s = .next t ∧ t.me = c.waits s.us (.msg m false o g) ∧ t.mem = s.mem)
        ∧ (hdrType (hdr r) ≠ 0 → hdrSeq (hdr r) ≠ r % 2 ^ 32 → hdrSeq (hdr r) = (r + n) % 2 ^ 32 → ∀ i ∈ takes, stops i 3)
        ∧ (hdrType (hdr r) ≠ 0 → hdrSeq (hdr r) = r % 2 ^ 32 → hdrBad (hdr r) = true → ∀ i ∈ takes, stops i 2)))
      ∧ (own → mState s m = 1 → chk = false → mBad s m = true → NoneWaits s → ∀ i ∈ takes, stops i 5)
      ∧ (own → mState s m = 2 → ∀ i ∈ takes, errs i 4 m r)
      ∧ (own → mState s m = 0 → ∀ i ∈ takes, errs i 1 m r))
    ∧ ((s.reg a).toNat = m →
        (own → (mState s m = 2 ∨ (mState s m = 1 ∧ (chk = true ∨ mBad s m = false))) → NoneWaits s →
          ∃ t, exec (.msgrst d a b) s = .next t ∧ t.me = { c.past s.us 1 with g := t.me.g } ∧ mRidx t m = (s.reg b).toNat ∧ mState t m = 1
            ∧ (smGet MRing.none t.mrings m).checked = false ∧ smFind (t.tenant (s.tenOf c)).ivec (4096 + m) = none
            ∧ ∀ x, t.reg x = if x = d ∧ d ≠ 0#5 then BitVec.ofNat 64 r else s.reg x)
        ∧ (own → mState s m = 1 → chk = false → mBad s m = true → NoneWaits s → stops (.msgrst d a b) 5)
        ∧ (own → mState s m = 0 → errs (.msgrst d a b) 1 m r))
    ∧ ((1024 ≤ m ∨ mOwned s (s.tenOf c) m = false) →
        ((s.srcN g).toNat = m → ∀ i ∈ takes, errs i 1 (m % 1024) 0) ∧ ((s.reg a).toNat = m → errs (.msgrst d a b) 1 (m % 1024) 0))

/-! Saving and restoring a context, and translation. -/

/-- R287 to R291: at level 1, SVSTRM of a quiet context stores the stream part, empties the stream but for INSTCOUNT, drops a pending lane fault
and writes the number of records; RSSTRM brings a stream back behind the gate; BARFL sends the task's barrier objects home; YIELD of a save
whose stream is stored ends it: the context is SAVED at level 0, its CTX.EPC and the mark of a valid frame stand in the header of its frame.
YIELD outside the save routine is ILLEGAL 0x42, before SVSTRM or with an engine not stored 0x44, unhandled since INTRAP is set there; RSSTRM
onto a stream that is not empty, or outside a handler, 0x45; both parts stand on the 64-byte grid. That each lane word makes one record (log
85), and that a part which no SVSTRM stored gives free values (log 17), are the model's choices. R25, R26, R262, R292, R330: RESTORE of a
saved context whose place has come puts it, and those that come back with it, where they fit: at its restore vector at level 1 inside a
handler, with the CTX.EPC of its frame, which is no longer valid, and a fresh debug state; a context that may not come back, or not yet,
stays as it is. That the DBG CSRs are fresh while DBGATT stays (log 84), and the order in which contexts come back (log 69), are the model's
choices. -/
def Obligations.SaveAndRestoreOfAContext : Prop :=
  (
  ∀ (s u : State) (d a : GReg) (ks : List Nat) (bs : List Byte), s.me.trap.pl = true →
    let c := s.me
    let p := s.reg a
    (p.toNat % 64 ≠ 0 → canTrap s → ∀ i ∈ [Instr.svstrm d a, .rsstrm a], ∃ t, exec i s = .next t ∧ Trapped s t 0x0A#64 p c.pc)
    ∧ (p.toNat % 64 = 0 → genAccess s .st polCl p 0x8000 = .ok ks →
        (c.strm.voteFly = [] → quiet c = true →
          ∃ t, exec (.svstrm d a) s = .next t
            ∧ t.me = { c.past s.us 1 with strm := { Strm.none with instCount := c.strm.instCount }, cap := { c.cap with openR := none }, ringsGone := [],
                                          trap := { c.trap with svDone := true, laneF := none }, g := t.me.g }
            ∧ (∀ r, t.reg r = if r = d ∧ d ≠ 0#5 then BitVec.ofNat 64 (entWords c.strm.ents) else s.reg r))
        ∧ (c.strm.voteFly ≠ [] ∨ quiet c = false → ∃ t, exec (.svstrm d a) s = .next t ∧ t.me = c ∧ t.mem = s.mem))
    ∧ (p.toNat % 64 = 0 → genAccess s .ld polCl p 0x8000 = .ok ks → loadKeys (used s c .ld p 0x8000) c.cl polCl ks = (u, bs) →
        let n := min 128 (bNum bs 0 2)
        let rs := (List.range n).map (partRec bs)
        (c.strm.idle = true → c.trap.intrap = true → (∀ r ∈ rs, recKind r < 3) →
          (∀ x ls on rings t0, findPart u bs n = some (.strm x ls on rings t0) → t0.w = c.team.w →
            ∃ t, exec (.rsstrm a) s = .next t ∧ t.me.strm.gate = true ∧ t.me.strm.instCount = bNum bs 2 4 ∧ t.me.strm.votesOut = bNum bs 6 1
              ∧ t.me.strm.ents = entsFrom c.task c.idx 129 x ls rs ∧ t.me.team = { t0 with vb := c.team.vb, vl := c.team.vl } ∧ t.me.pc = c.pc + 8#64
              ∧ t.me.g = c.g)
          ∧ (findPart u bs n = none → ∃ t, exec (.rsstrm a) s = .next t ∧ t.me.strm.gate = true ∧ t.me.strm.instCount = bNum bs 2 4
              ∧ t.me.team.w = c.team.w ∧ t.me.g = c.g ∧ t.me.pc = c.pc + 8#64))
        ∧ (canTrap s → ∃ t, exec (.rsstrm a) s = .next t ∧ Trapped u t 0x01#64 0x45#64 c.pc))
    ∧ (∃ t, exec .barfl s = .next t ∧ t.me = c.past s.us 1 ∧ (t.cl c.cl).barc = (s.cl c.cl).barc.filter (fun e => !e.2.contains c.task) ∧ t.mem = s.mem
        ∧ ∀ k, k ≠ c.cl → t.cl k = s.cl k)
    ∧ (c.trap.inSave = true → c.trap.svDone = true → engUnsaved s = false →
        (drained c = false ∨ copyLeft s s.cur = true → exec .yield s = .next s)
        ∧ (drained c = true → copyLeft s s.cur = false → s.Inv → NoneWaits s →
          ∃ t, exec .yield s = .next t ∧ t.me.st = .saved ∧ t.me.trap.pl = false ∧ t.me.trap.intrap = false ∧ t.me.trap.inSave = false
            ∧ t.me.hold = [0, 0, 0, 0, 0] ∧ memNat t.mem (frameKey s.cur 8) 8 = c.trap.epc.toNat ∧ memGet t.mem (frameKey s.cur 0) = 1#8))
    ∧ (canTrap s → c.trap.inSave = false → ∃ t, exec .yield s = .next t ∧ Trapped s t 0x01#64 0x42#64 c.pc)
    ∧ (c.trap.inSave = true → c.trap.svDone = false ∨ engUnsaved s = true →
        exec .yield s = .next (trap s 0x01 0x44#64)
        ∧ (c.trap.intrap = true → ∃ b : State, exec .yield s = .next (unhandled b s.cur ⟨0x01, 0, false, 0, 0, 0x44#64, none, c.pc⟩)
            ∧ b.me.trap.reason = 0x01#64 ∧ b.me.trap.info = 0x44#64 ∧ b.me.trap.epc = c.pc ∧ b.tasks = s.tasks)))
  ∧ (
  ∀ s : State,
    let c := s.me
    let k := s.task c.task
    let next := isNext s k.tenant (taskPath s c.task)
    (comesBack s s.cur = false → exec .restore s = .next s)
    ∧ (∀ fits, comesBack s s.cur = true → roomBack s s s.cur = some fits → next = false → exec .restore s = .next s)
    ∧ (∀ fits, comesBack s s.cur = true → roomBack s s s.cur = some fits → next = true → smSortedFrom 0 s.ctxs = true →
        ∃ t, exec .restore s = .next t
          ∧ (∀ (i j g : Nat) (cids : List Nat) (f : Fit) (cid : Nat) (at_ : Nat × Spot), (backGroups s s.cur)[i]? = some (g, cids) → fits[i]? = some f → cids[j]? = some cid → f.spots[j]? = some at_ →
              (t.ctx cid).pc = restVec s k.tenant ∧ ((t.ctx cid).st = .running ∨ (t.ctx cid).st = .early) ∧ (t.ctx cid).cl = f.cl ∧ (t.ctx cid).slot = at_.1
              ∧ (t.ctx cid).trap.pl = true ∧ (t.ctx cid).trap.restoring = true)
          ∧ ∀ j, j ∉ backSet s s.cur → t.ctx j = s.ctx j)
    ∧ ∀ f a as, comesBack s s.cur = true → backGroups s s.cur = [(c.gpos, [s.cur])] → roomBack s s s.cur = some [f] → next = true → f.spots = a :: as →
        f.cl < 192 → f.vb + k.r.vbytes ≤ 2 ^ 22 → s.Inv → NoneWaits s →
        ∃ t, exec .restore s = .next t ∧ t.me.pc = restVec s (s.tenOf c) ∧ (t.me.st = .running ∨ t.me.st = .early) ∧ t.me.cl = f.cl ∧ t.me.slot = a.1
          ∧ t.me.trap.pl = true ∧ t.me.trap.intrap = true ∧ t.me.trap.restoring = true ∧ t.me.trap.dbgatt = c.trap.dbgatt ∧ t.me.dbg = Dbg.none
          ∧ t.me.trap.epc = BitVec.ofNat 64 (memNat s.mem (frameKey s.cur 8) 8) ∧ memGet t.mem (frameKey s.cur 0) = 0#8
          ∧ ∀ j, j ≠ s.cur → t.ctx j = s.ctx j)

/-- R249, R294, R295, R298, R339: a walk that arrives fills its window, unless a shoot-down of the window has been recorded since it began, and
one without a page leaves NOTPRESENT. XTINV of a range advances XGEN, takes the windows from every translation cache and waits; it ends with
its generation once the shoot-down is over, and a length of 0 only brings XGEN. TCINV takes the windows of its own cluster. The VF's write
of XTLEN does as XTINV, unless BUSY. ICSYNC discards all fetched code. A sweep of an L1 line leaves its dirty bytes at home. -/
def Obligations.ShootDownsTakeTheWindows : Prop :=
  ∀ (s : State) (d a b : GReg),
    let c := s.me
    let tn := s.tenOf c
    let lo := (s.reg a).toNat
    let len := (s.reg b).toNat
    let inWin (l n w : Nat) : Prop := l / 2 ^ 21 ≤ w ∧ w * 2 ^ 21 < l + n
    let noWin (t : State) (k tn l n : Nat) : Prop := ∀ e ∈ (t.cl k).tc, e.tenant = tn → ¬inWin l n e.win
    (c.trap.pl = true →
      (c.sysWait = none → len = 0 → ∃ t, exec (.sysopXtinv d a b) s = .next t ∧ MemEnds s t d (BitVec.ofNat 64 (s.tenant tn).xgen))
      ∧ (c.sysWait = none → 0 < len → ∃ t, exec (.sysopXtinv d a b) s = .next t ∧ (t.tenant tn).xgen = ((s.tenant tn).xgen + 1) % 2 ^ 32
          ∧ (∀ k, noWin t k tn lo len) ∧ t.me.sysWait = some (((s.tenant tn).xgen + 1) % 2 ^ 32) ∧ t.me.pc = c.pc ∧ t.me.g = c.g)
      ∧ (∀ g, c.sysWait = some g → (shootOver s tn g s.cur = false → exec (.sysopXtinv d a b) s = .next s)
          ∧ (shootOver s tn g s.cur = true → ∃ t, exec (.sysopXtinv d a b) s = .next t ∧ MeIs s t { c.past s.us 1 with g := t.me.g, sysWait := none }
              ∧ ∀ r, t.reg r = if r = d ∧ d ≠ 0#5 then BitVec.ofNat 64 g else s.reg r))
      ∧ (∃ t, exec (.sysopTcinv a b) s = .next t ∧ t.me = c.past s.us 1 ∧ (0 < len → noWin t c.cl tn lo len)
          ∧ (∀ k, k ≠ c.cl → (t.cl k).tc = (s.cl k).tc) ∧ (s.Inv → NoneWaits s → KeepsBytes s t c.cl [])
          ∧ (∀ e ∈ (s.cl c.cl).tc, (e.tenant ≠ tn ∨ ¬inWin lo len e.win) → e ∈ (t.cl c.cl).tc) ∧ ∀ k, k ≠ s.cur → t.ctx k = s.ctx k)
      ∧ ∃ t, exec .sysopIcsync s = .next t ∧ (∀ k, (t.cl k).icache = []) ∧ t.me = c.past s.us 1 ∧ (s.Inv → NoneWaits s → KeepsBytes s t c.cl [])
          ∧ ∀ k, k ≠ s.cur → t.ctx k = s.ctx k)
    ∧ (∀ k w, smFind s.walks k = some w → w.missing = false →
        (walkStale s w = true → ∃ t, exec (.pageWalk k) s = .next t ∧ smFind t.walks k = none ∧ t.cls = s.cls ∧ t.mem = s.mem)
        ∧ (walkStale s w = false → walkVA s w.tenant (w.win * 2 ^ 21) = none → ∃ t, exec (.pageWalk k) s = .next t ∧ smFind t.walks k = some { w with missing := true })
        ∧ ∀ pa tgt peer, walkStale s w = false → walkVA s w.tenant (w.win * 2 ^ 21) = some (pa, tgt, peer) →
            ∃ t, exec (.pageWalk k) s = .next t ∧ smFind t.walks k = none ∧ (t.cl w.cl).tc.getLast? = some ⟨w.tenant, w.task, w.win, pa, tgt, peer⟩ ∧ t.ctxs = s.ctxs)
    ∧ (∀ n l, n < 64 → hostUp s = true → (s.tenant n).xtbusy = false →
        (l = 0 → ∃ t, exec (.vfXtlen n l) s = .next t ∧ (t.tenant n).xtgen = (s.tenant n).xgen ∧ t.cls = s.cls)
        ∧ (l ≠ 0 → ∃ t, exec (.vfXtlen n l) s = .next t ∧ (t.tenant n).xgen = ((s.tenant n).xgen + 1) % 2 ^ 32 ∧ ∀ k, noWin t k n (s.tenant n).xtstart.toNat l))
    ∧ (∀ n l, hostUp s = false ∨ 64 ≤ n → (s.tenant n).xtbusy = false → exec (.vfXtlen n l) s = .next s)
    ∧ (∀ n l, (s.tenant n).xtbusy = true → shootOver s n (s.tenant n).xtnew (2 ^ 64) = false → exec (.vfXtlen n l) s = .next s)
    ∧ ∀ cl line x, smFind (s.cl cl).l1 line = some x → s.Inv → NoneWaits s →
        ∃ t, exec (.l1Sweep cl line) s = .next t ∧ KeepsBytes s t cl [] ∧ (∀ o, o < 64 → bitOf x.dirty o = true → memGet t.mem (64 * line + o) = smGet 0 x.data o)
          ∧ ∀ y, smFind (t.cl cl).l1 line = some y → y.dirty = 0

/-- R296, R297: CLAIM of a residence word that rests at HOST begins the move and answers 0, of one at DEVICE 2, waits while the page moves, and
answers 3 for a page that is held; after a wait it answers 1, or begins a hold-off with 3 when the page has moved too often. COMPLETE ends
the move, counting it within a millisecond of the last, and leaves its registers. The remote entries of a page go when the hold-off is over.
That COMPLETE leaves gd (log 77), and what the end of the hold-off drops (log 79), are the model's choices. -/
def Obligations.MigrationFollowsTheResidenceWord : Prop :=
  ∀ (s : State) (d a b : GReg) (ks : List Nat), s.me.trap.pl = true →
    let c := s.me
    let p := s.reg a
    let k := ks.headD 0
    let w := memNat s.mem k 8
    let ts := w / 2 ^ 24
    let moves := w / 2 ^ 8 % 256
    let held := w / 8 % 2 = 1 ∧ s.us < ts + 1000
    let moving := w % 8 = 2 ∨ w % 8 = 3
    let word (t : State) (n m st : Nat) (h : Nat) : Prop := let v := memNat t.mem k 8
      v / 2 ^ 24 = n ∧ v / 2 ^ 8 % 256 = m ∧ v / 8 % 2 = h ∧ v % 8 = st ∧ v / 16 % 16 = w / 16 % 16 ∧ v / 2 ^ 16 % 256 = w / 2 ^ 16 % 256
    let ret (t : State) (v : W64) : Prop := t.me = { c.past s.us 1 with g := t.me.g, sysWait := none } ∧ ∀ r, t.reg r = if r = d ∧ d ≠ 0#5 then v else s.reg r
    (p.toNat % 8 ≠ 0 → canTrap s → ∀ i ∈ [Instr.migopClaim d a b, .migopComplete d a b], ∃ t, exec i s = .next t ∧ Trapped s t 0x0A#64 p c.pc)
    ∧ (p.toNat % 8 = 0 → genAccess s .at_ polEng p 8 = .ok ks → isPeer k = false → k + 8 < 2 ^ 61 → (s.cl c.cl).l1 = [] → NoneWaits s → s.us < 2 ^ 40 →
      (c.sysWait = none →
        (held → ∃ t, exec (.migopClaim d a b) s = .next t ∧ ret t 3#64)
        ∧ (¬held → w % 8 = 0 → ∃ t, exec (.migopClaim d a b) s = .next t ∧ ret t 2#64)
        ∧ (¬held → w % 8 = 1 → ∃ t, exec (.migopClaim d a b) s = .next t ∧ ret t 0#64 ∧ word t ts moves 2 (w / 8 % 2))
        ∧ (¬held → moving → ∃ t, exec (.migopClaim d a b) s = .next t ∧ t.me = { c with sysWait := some 0 }))
      ∧ (c.sysWait ≠ none →
          (moving → ∃ t, exec (.migopClaim d a b) s = .next t ∧ t.me = c ∧ t.mem = s.mem)
          ∧ (¬moving → moves ≤ 2 ∨ ts + 1000 ≤ s.us → ∃ t, exec (.migopClaim d a b) s = .next t ∧ ret t 1#64)
          ∧ (¬moving → 2 < moves → s.us < ts + 1000 → ∃ t, exec (.migopClaim d a b) s = .next t ∧ ret t 3#64 ∧ word t s.us moves (w % 8) 1))
      ∧ ∃ t, exec (.migopComplete d a b) s = .next t ∧ t.me = c.past s.us 1
          ∧ (let st := if w % 8 = 2 then 0 else if w % 8 = 3 then 1 else w % 8
             if ts + 1000 ≤ s.us ∨ w / 8 % 2 = 1 then word t s.us 1 st 0 else word t ts ((moves + 1) % 256) st 0))
    ∧ (∀ tn va, leafOf s tn va = none → ∃ t, exec (.holdOffExpiry tn va) s = .next t ∧ t.ctxs = s.ctxs
        ∧ ∀ n, (∀ e ∈ (t.cl n).tc, ¬(e.tenant = tn ∧ e.win = va / 2 ^ 21 ∧ e.tgt = 1))
            ∧ ∀ e ∈ (s.cl n).tc, ¬(e.tenant = tn ∧ e.win = va / 2 ^ 21 ∧ e.tgt = 1) → e ∈ (t.cl n).tc)
    ∧ ∀ tn va e, leafOf s tn va = some e → NoneWaits s →
        memNat s.mem (e + 4096) 8 / 8 % 2 = 1 → s.us < memNat s.mem (e + 4096) 8 / 2 ^ 24 + 1000 → exec (.holdOffExpiry tn va) s = .next s

/-! Lane words at slice issue. -/

/-- R121, R122, R37, R38: an integer lane word that may issue writes the exact result of its entry, clamped to its type under SAT and its low 32
bits otherwise, to each executing lane of its destination; a uniform word writes lane 0's in every lane. Bitwise words, shifts by the count
modulo 32 and bit counts work on the 32 bits. Nothing else changes. -/
def Obligations.LaneIntegerWordsWriteTheirResult : Prop :=
  ∀ s : State,
    let t := s.me.team
    let L (a : Src) (l : Nat) : W32 := s.lane s.me ((a.r.extractLsb' 0 8).toNat + (if a.r.getLsbD 8 then t.xi.toNat else 0)) l
    let X (b : LSrc) (l : Nat) : W32 := match b with | .reg r => L r l | .imm (.i9 v) => v.signExtend 32 | .imm (.x32 v) => v
    let I (ty : ITy) (v : W32) : Int := match ty with | .s32 => v.toInt | .n32 => (v.toNat : Int)
    let W (ty : ITy) (sat : Bool) (v : Int) : W32 := BitVec.ofInt 32 (if sat then
      (match ty with | .s32 => max (-2147483648) (min 2147483647 v) | .n32 => max 0 (min 4294967295 v)) else v)
    let writes (i : Instr) (g : Guard) (d : VReg) (v : Nat → W32) : Prop := issueCheck s s.me i = .go → ∃ u, exec i s = .next u ∧ LaneEnds s u g d v
    (∀ (o : IOp), ∀ p ∈ ([(.viadd o, (· + ·)), (.visub o, (· - ·)), (.vimul o, (· * ·)), (.vimulh o, fun a b => a * b / 2 ^ 32),
          (.vimin o, min), (.vimax o, max)] : List (Instr × (Int → Int → Int))),
        writes p.1 o.g o.d fun l => W o.ty o.sat (p.2 (I o.ty (L o.a l)) (I o.ty (X o.b l))))
    ∧ (∀ o : IMad, writes (.vimad o) o.g o.d fun l => W o.ty o.sat (I o.ty (L o.a l) * I o.ty (L o.b l) + I o.ty (X o.c l)))
    ∧ (∀ sat o, writes (.viabs sat o) o.g o.d fun l => W .s32 sat ((L o.a l).toInt.natAbs : Int))
    ∧ (∀ (o : BOp), ∀ p ∈ ([(.vand o, (· &&& ·)), (.vor o, (· ||| ·)), (.vxor o, (· ^^^ ·)), (.vshl o, fun a b => a <<< (b.toNat % 32)),
          (.vshr o, fun a b => a >>> (b.toNat % 32)), (.vsar o, fun a b => a.sshiftRight (b.toNat % 32))] : List (Instr × (W32 → W32 → W32))),
        writes p.1 o.g o.d fun l => p.2 (L o.a l) (X o.b l))
    ∧ ∀ o : UOp, writes (.vnot o) o.g o.d (fun l => ~~~(L o.a l))
        ∧ (issueCheck s s.me (.vclz o) = .go → ∃ u v, exec (.vclz o) s = .next u ∧ LaneEnds s u o.g o.d v
            ∧ ∀ l, (v l).toNat ≤ 32 ∧ (L o.a l).toNat < 2 ^ (32 - (v l).toNat) ∧ (L o.a l ≠ 0#32 → 2 ^ (31 - (v l).toNat) ≤ (L o.a l).toNat))
        ∧ writes (.vpopc o) o.g o.d fun l => BitVec.ofNat 32 (((List.range 32).filter fun k => (L o.a l).getLsbD k).length)

/-- R129 to R132: moves, selection and lane numbers write their destination; comparisons and VPLOG write predicates, p0 never; VXI, VFMT and the
path words change the team's XI, FMT, mask and path stack as a whole. A push narrows the mask and remembers mask, FMT and predicate; else
takes the other branch, pop comes back, each with the FMT that it remembered. A reserved FMT code stops the stream at the word, ILLEGAL. -/
def Obligations.MovesPredicatesAndPaths : Prop :=
  ∀ s : State,
    let t := s.me.team
    let L (a : Src) (l : Nat) : W32 := s.lane s.me (regNo t a.r) l
    let X (b : LSrc) (l : Nat) : W32 := match b with | .reg r => L r l | .imm (.i9 v) => v.signExtend 32 | .imm (.x32 v) => v
    let U (b : LSrc) : W32 := match b with | .reg r => L r 0 | .imm (.i9 v) => v.setWidth 32 | .imm (.x32 v) => v
    let go (i : Instr) : Prop := issueCheck s s.me i = .go
    let writes (i : Instr) (g : Guard) (d : VReg) (v : Nat → W32) : Prop := go i → ∃ u, exec i s = .next u ∧ LaneEnds s u g d v
    let sets (i : Instr) (g : Guard) (p : Nat) (v : Nat → Bool) : Prop := go i → ∃ u, exec i s = .next u ∧ PredEnds s u g p v
    let P (k : Nat) (l : Nat) : Bool := k = 0 || bitOf (smGet 0 t.preds k) l
    (∀ g d a, writes (.vmov g d a) g d (X a))
    ∧ (∀ g ps d a b, writes (.vsel g ps d a b) g d fun l => if P ps.toNat l then L a l else X b l)
    ∧ (∀ g d, writes (.vlid g 0#2 d) g d (fun l => BitVec.ofNat 32 l) ∧ writes (.vlid g 2#2 d) g d (fun l => BitVec.ofNat 32 (l / 32))
        ∧ writes (.vlid g 1#2 d) g d fun l => BitVec.ofNat 32 (if t.w < 32 then 8 * s.me.quarter + l else l % 32))
    ∧ (∀ g ty cc pd a b, sets (.viset g ty cc pd a b) g pd.toNat fun l =>
        let x : Int := match ty with | .s32 => (L a l).toInt | .n32 => ((L a l).toNat : Int)
        let y : Int := match ty with | .s32 => (X b l).toInt | .n32 => ((X b l).toNat : Int)
        match cc with | .eq => decide (x = y) | .ne => decide (x ≠ y) | .lt => decide (x < y) | .le => decide (x ≤ y) | .gt => decide (y < x) | .ge => decide (y ≤ x))
    ∧ (∀ g d a pb, let A := P (a.r.toNat % 8)
        (∀ p ∈ ([(.and, fun x y => x && y), (.or, fun x y => x || y), (.xor, fun x y => x != y), (.andn, fun x y => x && !y), (.not, fun x _ => !x),
            (.set, fun _ _ => true), (.clr, fun _ _ => false)] : List (PlogOp × (Bool → Bool → Bool))),
          sets (.vplog g p.1 d a pb) g (d.toNat % 8) fun l => p.2 (A l) (P pb.toNat l))
        ∧ sets (.vplog g .fromv d a pb) g (d.toNat % 8) (fun l => (L a l).getLsbD 0)
        ∧ writes (.vplog g .tov d a pb) g d fun l => if A l then 1#32 else 0#32)
    ∧ (∀ add a, go (.vxi add a) → ∃ u, exec (.vxi add a) s = .next u ∧ TeamEnds s u { t with xi := if add then t.xi + (U a).setWidth 16 else (U a).setWidth 16 })
    ∧ (∀ ps neg, go (.vppush ps neg) → ∃ u m, exec (.vppush ps neg) s = .next u
        ∧ TeamEnds s u { t with stack := ⟨t.act, t.fmt, m⟩ :: t.stack.take 15, act := t.act &&& m } ∧ ∀ l, bitOf m l = (decide (l < t.w) && (P ps.toNat l != neg)))
    ∧ (∀ e r, t.stack = e :: r → go .vppop → go .vppopElse →
        (∃ u, exec .vppop s = .next u ∧ TeamEnds s u { t with stack := r, act := e.act, fmt := e.fmt })
        ∧ ∃ u, exec .vppopElse s = .next u ∧ TeamEnds s u { t with act := e.act &&& ((2 ^ t.w - 1) ^^^ (e.c &&& (2 ^ t.w - 1))), fmt := e.fmt })
    ∧ ∀ op a, go (.vfmt op a) →
        let v := match op with | 0#2 => X a 0 | 1#2 => t.fmt ||| X a 0 | _ => t.fmt &&& ~~~(X a 0)
        let f := (v &&& 0x8000FFF0#32) ||| (t.fmt &&& 0x7FFF000F#32)
        (fmtBad f = false → ∃ u, exec (.vfmt op a) s = .next u ∧ TeamEnds s u { t with fmt := f })
        ∧ (fmtBad f = true → s.me.ownHead = false → ∃ u x, exec (.vfmt op a) s = .next u ∧ u.me.strm.stopped = true ∧ u.me.trap.laneF = some x ∧ x.code = 0x01 ∧ u.me.team = t)

/-- R123 to R128, R133 to R135, R49 to R64: floating-point words, approximations, class masks, conversions and packing write the value that the
formats and the rounding of FMT or of the word give each element; shuffles read the lane that their mode names, reductions and scans combine
the executing lanes of a group. VCVT.SEED stores the lanes' states, 0 as 1. A vote in flight keeps its value until it is ready. VQPACK
stores the codes of each element divided by its block's scale and the tensor scale, and the scale of the block. That the number of LFSR
steps follows the exact value (log 11), that DAZ reads the tensor scale too (log 152), and what R128 leaves open of VQUNPK (log 153) and
R124 of NaN operands (log 154), are the model's choices. -/
def Obligations.LaneArithmeticAndCrossLaneWords : Prop :=
  ∀ s : State,
    let c := s.me
    let t := c.team
    let m := t.fmt
    let L (a : Src) (l : Nat) : W32 := s.lane c (regNo t a.r) l
    let F (ty : FTy) (b : LSrc) (l : Nat) : W32 := rdLastF s c ty b l
    let go (i : Instr) : Prop := issueCheck s c i = .go
    let writes (i : Instr) (g : Guard) (d : VReg) (v : Nat → W32) : Prop := go i → ∃ u, exec i s = .next u ∧ LaneEnds s u g d v
    let E (ty : FTy) (code : Nat) : FV := readElem (ftyFmt ty) false (fmtDaz m) code
    let R (ty : FTy) (rm : BitVec 3) (v : FV) : Nat := cvt (ftyFmt ty) false (fmtSat m) (fmtFtz m) (rmOf m rm).arith v
    (∀ (o : FOp), ∀ p ∈ ([(.vfadd o, fun r x y => fvAdd r x y), (.vfsub o, fun r x y => fvAdd r x y.negate), (.vfmul o, fun _ x y => fvMul x y),
          (.vfmin o, fun _ x y => fvMinMax false x y), (.vfmax o, fun _ x y => fvMinMax true x y)] : List (Instr × (RM → FV → FV → FV))),
        writes p.1 o.g o.d fun l => fpack o.ty (((felems o.ty (L o.a l)).zip (felems o.ty (F o.ty o.b l))).map fun e =>
          R o.ty o.rm (p.2 (rmOf m o.rm).arith (E o.ty e.1) (E o.ty e.2))))
    ∧ (∀ o : FMad, writes (.vffma o) o.g o.d fun l => fpack o.ty (((felems o.ty (L o.a l)).zip ((felems o.ty (L o.b l)).zip (felems o.ty (F o.ty o.c l)))).map fun e =>
          R o.ty o.rm (fvAdd (rmOf m o.rm).arith (fvMul (E o.ty e.1) (E o.ty e.2.1)) (E o.ty e.2.2))))
    ∧ (∀ g ty op d a b, writes (.vfsgn g ty op d a b) g d fun l =>
          let k : W32 := if ty = .f32 then 0x80000000 else 0x80008000
          let sb := match op with | 0#2 => L b l | 1#2 => ~~~(L b l) | _ => L a l ^^^ L b l
          (L a l &&& ~~~k) ||| (sb &&& k))
    ∧ (∀ g cc pd a b, go (.vfset g cc pd a b) → ∃ u, exec (.vfset g cc pd a b) s = .next u
        ∧ PredEnds s u g pd.toNat fun l => fvCond cc.toNat (E .f32 (L a l).toNat) (E .f32 (F .f32 b l).toNat))
    ∧ (∀ ty rm (o : UOp),
        let each (f : Nat → Nat) (l : Nat) : W32 := fpack ty ((felems ty (L o.a l)).map f)
        writes (.vrcp ty rm o) o.g o.d (each (rcpCode (ftyFmt ty) (fmtSat m) (fmtFtz m) (fmtDaz m) (rmOf m rm).arith))
        ∧ writes (.vrsq ty rm o) o.g o.d (each (rsqCode (ftyFmt ty) (fmtSat m) (fmtFtz m) (fmtDaz m) (rmOf m rm).arith))
        ∧ writes (.vexp2 ty o) o.g o.d (each (exp2Code (ftyFmt ty) (fmtSat m) (fmtFtz m) (fmtDaz m)))
        ∧ writes (.vlog2 ty o) o.g o.d (each (log2Code (ftyFmt ty) (fmtSat m) (fmtFtz m) (fmtDaz m)))
        ∧ writes (.vfclass ty o) o.g o.d fun l => fclass ty (L o.a l))
    ∧ (∀ dt st rm (o : UOp), rmOf m rm ≠ .sr → writes (.vcvt dt st rm o) o.g o.d fun l => laneWord (laneTy dt) (vcvtCode m (laneTy dt) (laneTy st) rm (L o.a l).toNat 0#32).1)
    ∧ (∀ g a, go (.vcvtSeed g a) → ∃ u, exec (.vcvtSeed g a) s = .next u ∧ OnlyMe (popHead s) u ∧ u.rows = s.rows ∧ u.me.team.act = t.act
        ∧ ∀ l, u.me.team.lfsrAt l = if l ∈ t.dests g then (let v := rdLast s c a (if g.u then 0 else l); if v = 0#32 then 1#32 else v) else t.lfsrAt l)
    ∧ (∀ (o : QOp) f, qFmt m o.fmtc = some f →
        let src (l : Nat) : Nat := if o.g.u then 0 else l
        let T := fread m .fp32 (qTensor s c o)
        let x (l j : Nat) : W32 := s.lane c (regNo t o.a.r + j) l
        let quot (l j : Nat) : QV := fvDiv (fread m .fp32 (x l j).toNat) T
        let block (l : Nat) : List Nat := (t.lanes o.g).filter fun k => k / qBlock f = l / qBlock f
        let sc (l : Nat) : Nat := if qScaled m f then
            (if posNormal (qTensor s c o) then qScale (fmtFc m) f ((block l).flatMap fun k => (List.range (qElems f)).map (quot k)) else 0xFF) else 127
        let q (l : Nat) : FV := if sc l = 0xFF then .ofInt 1 else scaleElem (sc l) T
        let draws : Bool := !f.isInt && rmOf m o.rm = .sr
        let code (l j : Nat) : Nat := if f.isInt then intToInt .s32 f (fmtSat m) (x l j).toInt else
          match fvDiv (fread m .fp32 (x l j).toNat) (q l) with
          | .nan => nanCode f (fmtFc m) | .inf n => infCode f (fmtFc m) (fmtSat m) n
          | .q n a b => roundQ f (fmtFc m) (fmtSat m) (fmtFtz m) (rmOf m o.rm) n a b
        let codes (l : Nat) : List Nat := if draws then (qpackLane s c o f (q l) l (t.lfsrAt l)).1 else (List.range (qElems f)).map (code l)
        (go (.vqpack o) → ∃ u, exec (.vqpack o) s = .next u ∧ u.me.g = c.g ∧ u.me.team.preds = t.preds ∧ u.mem = s.mem ∧ u.me.strm = (popHead s).me.strm
          ∧ (∀ l, u.me.team.lfsrAt l = if draws && (t.lanes o.g).contains l then (qpackLane s c o f (q l) l (t.lfsrAt l)).2 else t.lfsrAt l)
          ∧ ((t.w < 32 ∨ t.w % 32 = 0) → ∀ l ∈ t.dests o.g,
              (∀ k, k < qWords f → (∀ v, o.s = some v → regNo t v.r ≠ regNo t o.d + k) →
                u.lane c (regNo t o.d + k) l = BitVec.ofNat 32 (packNat f.width (codes (src l)) / 2 ^ (32 * k)))
              ∧ ∀ v, o.s = some v → u.lane c (regNo t v.r) l = BitVec.ofNat 32 (sc (src l))))
        ∧ (go (.vqunpk o) → ∃ u, exec (.vqunpk o) s = .next u ∧ u = { popHead s with rows := u.rows }
          ∧ ((t.w < 32 ∨ t.w % 32 = 0) → ∀ l ∈ t.dests o.g, ∀ j, j < qElems f →
              let w := packNat 32 ((List.range (qWords f)).map fun k => (s.lane c (regNo t o.a.r + k) (src l)).toNat)
              u.lane c (regNo t o.d + j) l = qunpkElem m f o.rm (match o.s with | some v => if qScaled m f then (rd s c v.r 0 (src l)).toNat % 256 else 127 | none => 127)
                  T (w / 2 ^ (f.width * j) % 2 ^ f.width))))
    ∧ (∀ o : QOp, qFmt m o.fmtc = none → c.ownHead = false → ∀ i ∈ [Instr.vqpack o, .vqunpk o], go i →
        ∃ u x, exec i s = .next u ∧ u.me.strm.stopped = true ∧ u.me.trap.laneF = some x ∧ x.code = 0x01 ∧ u.rows = s.rows)
    ∧ (∀ g mode lg d a b, writes (.vshfl g mode lg d a b) g d fun l =>
        let n := (rdLastU s c b l).toNat
        let size := 2 ^ lg.toNat
        let base := l / size * size
        L a (match mode with
          | .idx => base + n % size
          | .up => if l < base + n then l else l - n
          | .down => if base + size ≤ l + n then l else l + n
          | .xor => base + ((l - base) ^^^ (n % size))))
    ∧ (∀ g op lg d a, let grp (l k : Nat) : Bool := k / 2 ^ lg.toNat * 2 ^ lg.toNat = l / 2 ^ lg.toNat * 2 ^ lg.toNat
        writes (.vtred g op lg d a) g d (fun l => redVal m op (((t.lanes g).filter (grp l)).map (L a)))
        ∧ ∀ ex, writes (.vtscan g op lg ex d a) g d fun l => redVal m op (((t.lanes g).filter fun k => grp l k && (if ex then decide (k < l) else decide (k ≤ l))).map (L a)))
    ∧ ∀ g op dest d ps, go (.vvote g op dest d ps) →
        let bs := (t.lanes g).map fun l => t.pred ps.toNat l
        let v := match op with | .any => if bs.any id then 1 else 0 | .all => if bs.all id then 1 else 0 | .popc => (bs.filter id).length
        ∃ u, exec (.vvote g op dest d ps) s = .next u ∧ u.rows = s.rows ∧ u.mem = s.mem ∧ u.me.team = t
          ∧ u.me.strm.voteFly = c.strm.voteFly ++ [(if dest = .v then none else some (BitVec.ofNat 64 v), if dest = .q then none else some s.nextId)]
          ∧ (dest ≠ .q → ∃ f, smFind u.me.fills s.nextId = some f ∧ ∀ l, l < t.w → (c.laneKey (regNo t d) l, BitVec.ofNat 32 v) ∈ f.vals)

/-- R146 to R156: a lane load whose lanes pass their checks leaves the stream and marks its rows empty, and its completion brings each executing
lane's bytes, extended by their type, and fills the rows; a store writes each lane's registers at its bytes and nothing else, where no two
lanes meet. The first fault in R150's order, of the lowest lane, stops the stream at its word. A prefetch changes no byte and no register. -/
def Obligations.LaneAccessesMoveTheBytesOfTheirLanes : Prop :=
  ∀ s : State,
    let c := s.me
    let t := c.team
    let cl := c.cl
    let acc (k : AKind) (m : LAddr) (g : Guard) (ua wide uni : Bool) (n : Nat) : LRes :=
      gatherRes ((t.lanes g).map fun l => (l, laneAccess s c k ua n (laneLock s cl k.isStore) (lanePtr m (laneOff s c m wide uni l))))
    let go (i : Instr) : Prop := issueCheck s c i = .go
    let vault (xs : List (Nat × List Nat)) : Prop := ∀ x ∈ xs, ∀ k ∈ x.2, isVault k = true
    let loads (i : Instr) (o : VLd) (ua wide uni : Bool) (n regs : Nat) (ext : Nat → List W32) : Prop :=
      ∀ xs, go i → acc .ld o.m o.g ua wide uni n = .ok xs → t.lanes o.g ≠ [] → (∀ x ∈ xs, ∀ k ∈ x.2, k ∉ s.ecc) →
        ∃ u f, exec i s = .next u ∧ smFind u.me.fills s.nextId = some f ∧ f.ecc = none ∧ (∀ k ∈ f.rows, u.isEmpty k = true) ∧ u.rows = s.rows
          ∧ u.me.strm = (popHead s).me.strm ∧ u.me.g = c.g ∧ u.me.team = t ∧ (s.Inv → NoneWaits s → KeepsBytes s u cl [])
          ∧ (∀ j, j < regs → ∀ p ∈ dstPasses t i, ∀ k ∈ c.feKeys (regNo t o.d + j) p, k ∈ f.rows)
          ∧ (s.Inv → vault xs → ∀ x ∈ xs, ∀ j, j < regs → (c.laneKey (regNo t o.d + j) x.1, (ext (leNat (x.2.map (memGet s.mem)))).getD j 0#32) ∈ f.vals)
    let stores (i : Instr) (o : VSt) (ua wide : Bool) (n : Nat) : Prop :=
      ∀ xs, go i → acc .st o.m o.g ua wide false n = .ok xs → t.lanes o.g ≠ [] →
        ∃ u, exec i s = .next u ∧ u.me = (popHead s).me ∧ u.rows = s.rows ∧ u.empt = s.empt
          ∧ (s.Inv → NoneWaits s → KeepsBytes s u cl (xs.flatMap (·.2))
              ∧ (vault xs → (xs.flatMap (·.2)).Nodup → ∀ x ∈ xs, x.2.length = n → ∀ b, b < n →
                  memGet u.mem (x.2.getD b 0) = BitVec.ofNat 8 ((s.lane c (regNo t o.v.r + b / 4) x.1).toNat / 2 ^ (8 * (b % 4)))))
    let stops (i : Instr) (k : AKind) (m : LAddr) (g : Guard) (ua wide uni : Bool) (n : Nat) : Prop := go i → t.lanes g ≠ [] →
      (∀ code l p, acc k m g ua wide uni n = .fault code l p → c.ownHead = false → ∃ u, exec i s = .next u ∧ u.me.strm.stopped = true ∧ u.me.strm.ents = c.strm.ents
          ∧ u.me.trap.laneF = some ⟨plainCode code, p, l, if k = .st then 1 else 0, headTag c, false⟩ ∧ u.mem = s.mem ∧ u.rows = s.rows)
      ∧ ∀ u, acc k m g ua wide uni n = .wait u → exec i s = .next u
    let size (ty : LTy) : Nat := match ty with | .n8 | .s8 => 1 | .n16 | .s16 => 2 | .n32 => 4 | .d64 => 8
    let regs (ty : LTy) : Nat := if ty = .d64 then 2 else 1
    let ext (ty : LTy) (v : Nat) : List W32 := match ty with
      | .s8 => [(BitVec.ofNat 8 v).signExtend 32] | .s16 => [(BitVec.ofNat 16 v).signExtend 32]
      | .d64 => [BitVec.ofNat 32 v, BitVec.ofNat 32 (v / 2 ^ 32)] | _ => [BitVec.ofNat 32 v]
    (∀ o : VLd, loads (.vld o) o o.ua false false (size o.ty) (regs o.ty) (ext o.ty) ∧ loads (.vldg o) o o.ua true false (size o.ty) (regs o.ty) (ext o.ty)
        ∧ loads (.vldu o) o o.ua false true (size o.ty) (regs o.ty) (ext o.ty)
        ∧ loads (.vldq o) o false false false 16 4 (fun v => (List.range 4).map fun k => BitVec.ofNat 32 (v / 2 ^ (32 * k)))
        ∧ stops (.vld o) .ld o.m o.g o.ua false false (size o.ty) ∧ stops (.vldg o) .ld o.m o.g o.ua true false (size o.ty)
        ∧ stops (.vldu o) .ld o.m o.g o.ua false true (size o.ty) ∧ stops (.vldq o) .ld o.m o.g false false false 16
        ∧ (t.lanes o.g = [] → ∀ i ∈ [Instr.vld o, .vldg o, .vldu o, .vldq o], go i → ∃ u, exec i s = .next u ∧ u = popHead s))
    ∧ (∀ o : VSt, stores (.vst o) o o.ua false (size o.ty) ∧ stores (.vstg o) o o.ua true (size o.ty) ∧ stores (.vstq o) o false false 16
        ∧ stops (.vst o) .st o.m o.g o.ua false false (size o.ty) ∧ stops (.vstg o) .st o.m o.g o.ua true false (size o.ty)
        ∧ stops (.vstq o) .st o.m o.g false false false 16)
    ∧ (∀ g l2 m, go (.vpref g l2 m) → ∃ u, exec (.vpref g l2 m) s = .next u ∧ u.me = (popHead s).me ∧ u.rows = s.rows ∧ (s.Inv → NoneWaits s → KeepsBytes s u cl []))
    ∧ ∀ cid k f, smFind (s.ctx cid).fills k = some f → f.ecc = none → (∀ v ∈ (s.ctx cid).strm.voteFly, v.2 ≠ some k) →
        ∃ u, exec (.accessCompletion cid k) s = .next u ∧ u.ctx cid = { s.ctx cid with fills := smDel (s.ctx cid).fills k } ∧ (∀ r ∈ f.rows, u.isEmpty r = false)
          ∧ u.mem = s.mem ∧ ((f.vals.map (·.1)).Nodup → ∀ v ∈ f.vals, smGet 0#32 u.rows v.1 = v.2)
          ∧ ∀ r, (∀ v ∈ f.vals, v.1 ≠ r) → smGet 0#32 u.rows r = smGet 0#32 s.rows r

/-- R163, R164, R168, R174: a lane atomic at vault locations that no two lanes share leaves each lane's new value at its location, in whatever
order, and its old value waits for the completion; VCAS writes where the location holds the lane's expected value, VRED brings nothing back.
VFENCE acts as FENCE, its release and its acquire; VBARARR counts one arrival for the team, or one for each executing lane. -/
def Obligations.LaneAtomicsActOncePerLane : Prop :=
  ∀ (s : State),
    let c := s.me
    let t := c.team
    let cl := c.cl
    (∀ (o : VAt) (xs : List (Nat × List Nat)),
      let n := match o.ty with | .n64 | .s64 => 8 | _ => 4
      let at_ (k : AKind) : LRes := gatherRes ((t.lanes o.g).map fun l => (l, (laneAtAcc s o.m k o.ty).check s c l))
      let key (x : Nat × List Nat) : Nat := x.2.headD 0
      let old (x : Nat × List Nat) : Nat := memNat s.mem (key x) n
      let num (j l : Nat) : Nat := (s.lane c (regNo t o.b.r + j) l).toNat
      let arg (l : Nat) : Nat := if n = 8 then num 0 l + 2 ^ 32 * num 1 l else num 0 l
      let new (l : Nat) : Nat := if n = 8 then num 2 l + 2 ^ 32 * num 3 l else num 1 l
      let apart : Prop := (∀ x ∈ xs, isVault (key x) = true ∧ isVault (key x + n - 1) = true) ∧ xs.Pairwise (fun x y => key x + n ≤ key y ∨ key y + n ≤ key x)
      let brought (u : State) : Prop := ∃ f, smFind u.me.fills s.nextId = some f ∧ u.rows = s.rows ∧ u.me.g = c.g
        ∧ ∀ x ∈ xs, (c.laneKey (regNo t o.d) x.1, BitVec.ofNat 32 (old x)) ∈ f.vals ∧ (n = 8 → (c.laneKey (regNo t o.d + 1) x.1, BitVec.ofNat 32 (old x / 2 ^ 32)) ∈ f.vals)
      s.Inv → apart → t.lanes o.g ≠ [] → 0 < t.w → (∀ x ∈ xs, ∀ k ∈ x.2, k ∉ s.ecc) →
      (issueCheck s c (.vatom o) = .go → at_ .at_ = .ok xs → ∃ u, exec (.vatom o) s = .next u ∧ brought u
        ∧ ∀ x ∈ xs, memNat u.mem (key x) n = atomNew o.op o.ty (old x) (arg x.1) % 2 ^ (8 * n))
      ∧ (issueCheck s c (.vcas o) = .go → at_ .at_ = .ok xs → ∃ u, exec (.vcas o) s = .next u ∧ brought u
        ∧ ∀ x ∈ xs, memNat u.mem (key x) n = if old x = arg x.1 then new x.1 else old x)
      ∧ (issueCheck s c (.vred o) = .go → at_ (.red o.op.code o.ty.code.toNat) = .ok xs → ∃ u, exec (.vred o) s = .next u
        ∧ u.me = (popHead s).me ∧ u.rows = s.rows ∧ ∀ x ∈ xs, memNat u.mem (key x) n = atomNew o.op o.ty (old x) (arg x.1) % 2 ^ (8 * n)))
    ∧ (∀ f : FenceF, issueCheck s c (.vfence f) = .go → s.Inv → NoneWaits s → ∃ u, exec (.vfence f) s = .next u ∧ u.me = (popHead s).me ∧ u.rows = s.rows ∧ KeepsBytes s u cl []
        ∧ (f.ord ∈ [MOrd.rel, .acqrel, .sc] → ∀ line l o, smFind (s.cl cl).l1 line = some l → l.t < scopeRank f.scope → o < 64 → bitOf l.dirty o = true →
            memGet u.mem (64 * line + o) = smGet 0 l.data o)
        ∧ (f.ord ∈ [MOrd.acq, .acqrel, .sc] → ∀ line l, smFind (u.cl cl).l1 line = some l → l.t < scopeRank f.scope → l.valid = l.dirty))
    ∧ ∀ g lanes disp base ord sc ks l, let i := Instr.vbararr g lanes disp base ord sc
        let p := lanePtr ⟨0, none, .i9 disp, base, ord, sc⟩ (offOf base + disp.toInt)
        let k := List.headD ks 0
        let n := if lanes then (t.lanes g).length else 1
        let fld (u : State) (off m : Nat) : Nat := memNat u.mem (k + off) m
        issueCheck s c i = .go → (t.lanes g).head? = some l → s.Inv → NoneWaits s → k % 64 = 0 → (s.cl cl).l1 = [] → fld s 0 4 ≠ 0 → isDevice k = true →
        laneAccess s c .at_ false 64 (fun p ks => atomLate s cl true false p (fun k => barOk k && barTarget s k ≠ 0) ks) p = .ok ks →
        ∃ u, exec i s = .next u ∧ u.me = (popHead s).me ∧ u.rows = s.rows ∧ fld u 0 4 = fld s 0 4 ∧ fld u 4 4 = (fld s 4 4 + n) % fld s 0 4
          ∧ fld u 8 2 = (fld s 8 2 + (fld s 4 4 + n) / fld s 0 4) % 2 ^ 16 ∧ KeepsBytes s u cl (rangeFrom k 64)

/-! Launch areas, host writes of STATE, turns. -/

/-- R325 to R327, R357, R13, R330, R331: the dispatcher consumes the record at HEAD of an area that is open, by its OP, and moves HEAD past it;
a SUBMIT discards fetched code as it is consumed. A record out of order or with reserved bytes, a slot that cannot be read and a TAIL out of
range stop the area there: STATUS 1, ERRSEQ the record's number, HEAD as it was, the error interrupt; a record with another OP waits for its
own step. A moved tail starts the area, the host's STATUS 0 lets it go on. A host write of STATE resumes a PAUSED node or kills a subtree;
neither write acts where the host does not reach the byte. At QUANTUM_EXPIRY the holder of a node's turn is charged; the turn goes on while
the deficit, the child's work, its level and the node's own turn allow, and ends otherwise; then the next turn goes to the first child whose
deficit comes above zero with its quantum, and a child whose deficit does not is passed over with what it has left to make up. That a ready
task counts as its node's work while it runs is the model's choice (log 55). -/
def Obligations.LaunchRecordsAreConsumedInOrder : Prop :=
  (∀ (s : State) (tn : Nat),
    let h := areaHead s tn
    let stopped (v : State) : State := (vfErr (areaSet (areaSet v tn 0x11 1 1) tn 0x18 8 h) tn 1).modTenant tn fun x => { x with consuming := false }
    let x := tTouch s tn (recordPtr s tn h) 64
    let ops : List Instr := [.launchNop tn, .submit tn, .link tn, .unlink tn, .launchResume tn]
    (areaOpen s tn = false ∨ h = areaTail s tn → ∀ i ∈ Instr.tailMonitorWake tn :: ops, exec i s = .next s)
    ∧ (areaOpen s tn = true → h ≠ areaTail s tn →
      ((s.tenant tn).consuming = false → ∀ i ∈ ops, exec i s = .next s)
      ∧ (tailBad s tn = true → exec (.tailMonitorWake tn) s = .next (stopped s)
          ∧ ((s.tenant tn).consuming = true → ∀ i ∈ ops, exec i s = .next (stopped s)))
      ∧ (tailBad s tn = false →
          (∃ t, exec (.tailMonitorWake tn) s = .next t ∧ (t.tenant tn).consuming = true ∧ t = { s with tenants := t.tenants } ∧ ∀ k, k ≠ tn → t.tenant k = s.tenant k)
          ∧ ((s.tenant tn).consuming = true →
              (recordAt s tn h = none → ∀ i ∈ ops, exec i s = .next (stopped x))
              ∧ ∀ r, recordAt s tn h = some r →
                (recordBad h r = true → ∀ i ∈ ops, exec i s = .next (stopped x))
                ∧ (recordBad h r = false →
                  let p := bW64 r 0x10
                  let moved (u : State) : State :=
                    let v := areaSet u tn 8 8 (h + 1)
                    if h + 1 = areaTail v tn then v.modTenant tn fun x => { x with consuming := false, hostTail := false } else v
                  let forms : List (Nat × Instr × State) := [(0, .launchNop tn, x), (1, .submit tn, submitNode (discardCode x tn) tn p),
                    (2, .link tn, linkRecord x tn p), (3, .unlink tn, unlinkRecord x tn p), (4, .launchResume tn, resumeRecord x tn p)]
                  ∀ f ∈ forms, (f.1 = bNum r 0 1 → exec f.2.1 s = .next (moved f.2.2)) ∧ (f.1 ≠ bNum r 0 1 → exec f.2.1 s = .next s))))))
  ∧ (∀ (s : State) (tn : Nat),
    let k := tByte s tn true (ptrAdd (areaPtr s tn) 0x11)
    (hostReaches s k = false → exec (.launchAreaResume tn) s = .next s)
    ∧ (hostReaches s k = true → ∃ t, exec (.launchAreaResume tn) s = .next t ∧ t = (areaSet s tn 0x11 1 0).modTenant tn (fun x => { x with consuming := x.enable })
        ∧ t.ctxs = s.ctxs))
  ∧ (∀ (s : State) (tn node : Nat),
    let p := BitVec.ofNat 64 node
    let k := tByte s tn true (ptrAdd p 4)
    (rcbOk s tn p = false ∨ hostReaches s k = false → ∀ v, exec (.rcbStateWrite tn node v) s = .next s)
    ∧ (rcbOk s tn p = true → hostReaches s k = true →
        (rcbState s tn p = 1 → ∃ t, exec (.rcbStateWrite tn node 0) s = .next t ∧ t = rcbSet s tn p 4 1 0)
        ∧ (∃ t, exec (.rcbStateWrite tn node 2) s = .next t ∧ t = killSubtree s tn p)
        ∧ exec (.rcbStateWrite tn node 1) s = .next s ∧ (rcbState s tn p ≠ 1 → exec (.rcbStateWrite tn node 0) s = .next s)))
  ∧ ∀ (s : State) (node e : Nat),
    let s0 := s.ctxs.foldl (fun s e => accrue s e.1) s
    let go := exec (.quantumExpiry node e) s
    let q (v : State) (k : Nat) : Int := quantumOf v k
    let grown (v : State) (k : Nat) : Int := min (defOf v k + q v k) (q v k)
    let begun (v : State) (k : Nat) : State := { v with turns := smSet v.turns node k, defs := smSet v.defs k (grown v k) }
    let passed (v : State) (k : Nat) : State :=
      { v with servedLast := smSet v.servedLast (8 * node + nodeLevel v k) k, defs := smSet v.defs k (max (grown v k) (-(q v k))) }
    let first (v : State) : Option Nat := nextKid v node (List.range 8)
    let goesOn (v : State) : Prop :=
      (serves v node = false ∨ first v = none → go = .next v)
      ∧ (serves v node = true → ∀ k, first v = some k →
          (0 < grown v k → go = .next (begun v k))
          ∧ (grown v k ≤ 0 →
              ∀ j, first (passed v k) = some j → 0 < grown (passed v k) j → go = .next (begun (passed v k) j)))
    (smFind s0.turns node = none → goesOn s0)
    ∧ ∀ k, smFind s0.turns node = some k →
      let stays : Prop := runnable s0 k = true ∧ serves s0 node = true ∧ servedLevel s0 node = some (nodeLevel s0 k) ∧ (e : Int) < defOf s0 k
      (stays → -(q s0 k) ≤ defOf s0 k - e → go = .next { s0 with defs := smSet s0.defs k (defOf s0 k - e) })
      ∧ (¬stays → 0 ≤ q s0 k → goesOn
          { s0 with defs := smSet s0.defs k (if runnable s0 k then max (defOf s0 k - e) (-(q s0 k)) else 0), turns := smDel s0.turns node,
                    servedLast := smSet s0.servedLast (8 * node + nodeLevel s0 k) k })

/-! The host, virtual functions, peers. -/

/-- R339, R340: VF_ENABLE and VF_DISABLE set and clear ENABLE of a tenant, as PF0's writes of VF.CTL do, DONE telling whether every context has
retired; a reset of the VF also brings its block to its reset values. VF.ERR is cleared by ones that its own VF writes, VF.ROOT is PF0's and
only while ENABLE is 0; a write to VF.XTLEN begins a shoot-down. Nothing acts while the device does not answer. -/
def Obligations.VirtualFunctionsFollowTheirRegisters : Prop :=
  ∀ (s : State) (n off v : Nat),
    (hostUp s = false → ∀ i ∈ ([.vfEnable n, .vfDisable n, .vfFlr n, .vfXtlen n v, .registerWrite .pf0 (.vf n) off v, .registerWrite .pf0 .pf off v,
        .registerWrite (.vf n) (.vf n) off v, .registerWrite .pf0 (.bar2 n) off v] : List Instr), exec i s = .next s)
    ∧ (hostUp s = true →
        (n < 64 → (s.tenant n).enable = false →
          ∃ t, exec (.vfEnable n) s = .next t ∧ (t.tenant n).enable = true ∧ (t.tenant n).done = false ∧ (t.tenant n).hostTail = true
            ∧ (t.tenant n).root = (s.tenant n).root ∧ t.ctxs = s.ctxs ∧ ∀ k, k ≠ n → t.tenant k = s.tenant k)
        ∧ ((s.tenant n).enable = true ∨ 64 ≤ n → exec (.vfEnable n) s = .next s)
        ∧ ((s.tenant n).enable = true → ∃ t, exec (.vfDisable n) s = .next t ∧ (t.tenant n).enable = false ∧ (t.tenant n).consuming = false
            ∧ (t.tenant n).root = (s.tenant n).root ∧ (∀ e ∈ t.subs, (t.task e.2.task).tenant ≠ n)
            ∧ ((t.tenant n).done = true ↔ ∀ e ∈ t.ctxs, t.tenOf e.2 = n → e.2.st = .retired))
        ∧ ((s.tenant n).enable = false → exec (.vfDisable n) s = .next s)
        ∧ (∃ t, exec (.vfFlr n) s = .next t ∧ t.tenant n = { Tenant.reset with xgen := (t.tenant n).xgen, shoots := (t.tenant n).shoots, thresh := (t.tenant n).thresh })
        ∧ exec (.registerWrite (.vf n) .pf off v) s = .next s
        ∧ (∀ m, m ≠ n → exec (.registerWrite (.vf m) (.vf n) off v) s = .next s)
        ∧ (64 ≤ n → exec (.registerWrite .pf0 (.vf n) off v) s = .next s)
        ∧ (n < 64 →
            (bitOf v 0 = true → exec (.registerWrite .pf0 (.vf n) 0x30 v) s = exec (.vfEnable n) s)
            ∧ (bitOf v 0 = false → exec (.registerWrite .pf0 (.vf n) 0x30 v) s = exec (.vfDisable n) s)
            ∧ exec (.registerWrite (.vf n) (.vf n) 0x30 v) s = .next s
            ∧ (∀ f ∈ [Fn.pf0, Fn.vf n], exec (.registerWrite f (.vf n) 0x50 v) s = exec (.vfXtlen n (v % 2 ^ 64)) s)
            ∧ (∃ t, exec (.registerWrite (.vf n) (.vf n) 0x40 v) s = .next t ∧ t = { s with tenants := t.tenants }
              ∧ t.tenant n = { s.tenant n with err := (t.tenant n).err }
              ∧ ∀ b, bitOf (t.tenant n).err b = (bitOf (s.tenant n).err b && !(decide (b < 7) && bitOf v b)))
            ∧ exec (.registerWrite .pf0 (.vf n) 0x40 v) s = .next s ∧ exec (.registerWrite (.vf n) (.vf n) 0x08 v) s = .next s
            ∧ ((s.tenant n).enable = true → exec (.registerWrite .pf0 (.vf n) 0x08 v) s = .next s)
            ∧ ((s.tenant n).enable = false → ∃ t, exec (.registerWrite .pf0 (.vf n) 0x08 v) s = .next t ∧ t = { s with tenants := t.tenants }
                ∧ t.tenant n = { s.tenant n with root := BitVec.ofNat 64 v } ∧ ∀ k, k ≠ n → t.tenant k = s.tenant k)))

/-- R4, R339 to R344, R361, R363: each register of PF0 takes its own field, clamped where the table says so, and reads as it stands; a reserved
offset and the write-only VF.XTLEN read as zero, VF.TIME as the time in µs, and a control block beyond its window's COUNT as zero. PF.HCPKB
is not written while the partition holds host lines (log 142, the model's choice). -/
def Obligations.FunctionRegistersTakeAndGiveTheirFields : Prop :=
  ∀ (s : State) (n off v k : Nat),
    (hostUp s = true →
      let writes (o : Nat) (p : Pf) : Prop := ∃ t, exec (.registerWrite .pf0 .pf o v) s = .next t ∧ t = { s with pf := p }
      (s.part = [] → writes 0x10 { s.pf with hcpkb := min 85 (v % 2 ^ 7) })
      ∧ (s.part ≠ [] → exec (.registerWrite .pf0 .pf 0x10 v) s = .next s)
      ∧ writes 0x18 { s.pf with hdmbase := v % 2 ^ 64 / 2 ^ 28 * 2 ^ 28 }
      ∧ writes 0x20 { s.pf with hdmsize := min (v % 2 ^ 11) (s.pf.rsvbase / 2 ^ 28) }
      ∧ writes 0x28 { s.pf with powcap := min 2800 (max 400 (v % 2 ^ 12)) }
      ∧ writes 0x48 { s.pf with priocap := min 99 (max 50 (v % 2 ^ 7)) }
      ∧ writes 0x50 { s.pf with eccCor := if v % 2 ^ 32 = 0 then s.pf.eccCor else 0, eccUnc := if v / 2 ^ 32 % 2 ^ 32 = 0 then s.pf.eccUnc else 0 }
      ∧ (∀ o ∈ [0x00, 0x08, 0x30, 0x38, 0x40], exec (.registerWrite .pf0 .pf o v) s = .next s)
      ∧ (k < 255 → ∃ t, exec (.registerWrite .pf0 .pf (0x1000 + 8 * k) v) s = .next t ∧ t = { s with pf := t.pf } ∧ regRead t .pf (0x1000 + 8 * k) = v % 2 ^ 12
          ∧ ∀ j, j < 255 → j ≠ k → regRead t .pf (0x1000 + 8 * j) = regRead s .pf (0x1000 + 8 * j))
      ∧ (k < 256 → ∃ t, exec (.registerWrite .pf0 .pf (0x2000 + 8 * k) v) s = .next t ∧ t = { s with pf := t.pf }
          ∧ regRead t .pf (0x2000 + 8 * k) = Nat.land (v % 2 ^ 64) (ingressMask / 2 ^ (64 * (k % 4)) % 2 ^ 64)))
    ∧ regRead s .pf 0x00 = s.pf.failph * 256 + (if s.pf.throt then 8 else 0) + (if s.pf.trip then 4 else 0) + (if s.pf.fail then 2 else 0) + (if s.pf.ready then 1 else 0)
    ∧ regRead s .pf 0x08 = s.pf.rsvbase ∧ regRead s .pf 0x28 = s.pf.powcap ∧ regRead s .pf 0x40 = s.pf.clkmhz
    ∧ regRead s .pf 0x50 = s.pf.eccCor + s.pf.eccUnc * 2 ^ 32
    ∧ (0x50 < off → off < 0x1000 → regRead s .pf off = 0)
    ∧ regRead s (.vf n) 0x00 = n ∧ regRead s (.vf n) 0x08 = (s.tenant n).root.toNat ∧ regRead s (.vf n) 0x38 = s.us ∧ regRead s (.vf n) 0x40 = (s.tenant n).err
    ∧ regRead s (.vf n) 0x30 = (if (s.tenant n).enable then 1 else 0) + (if (s.tenant n).done then 2 else 0)
    ∧ regRead s (.vf n) 0x50 = 0 ∧ (0x68 < off → regRead s (.vf n) off = 0)
    ∧ (bitsOf (s.tenant n).qwin 44 32 ≤ off / 64 → off < 0x40000 → regRead s (.bar2 n) off = 0)
    ∧ (bitsOf (s.tenant n).mwin 42 32 ≤ (off - 0x40000) / 64 → 0x40000 ≤ off → regRead s (.bar2 n) off = 0)

/-- R319, R341, R342, R347: a host write inside its window of device memory stands at its home, and no other byte changes; a host read gives the
home's bytes, and the home notes the lines that the host may now cache; a write to such a line takes it from the filter. A snoop takes a
host line from the partition, where the host's bytes stand. Outside the window nothing happens. A failed MAC takes the link down. What a
read of a byte with an uncorrectable error answers is the model's choice (log 139). R157, R176, R261, R317, R337, R343 to R345: a peer's
request is performed at the home when a valid entry names its peer and tenant, holds every byte and grants the access; else it is refused
with nothing done. A monitor answers with the word, and its wake is sent once the condition holds. TSPAWN and pushes need W for a local
tenant that owns the node or queue, and are refused with code 3. A retried flit changes nothing. Packets of a port that cannot be delivered
are lost, and their tenants see UNDELIV. That an access beyond the memory stops the machine at its next step (log 14), that a QINSD to a
queue without DEDUP is answered 3 (log 50), and that the host's write of STATE = 2 kills a subtree (log 93), are the model's choices. -/
def Obligations.HostAndPeersActAtTheHome : Prop :=
  (
  ∀ (s : State) (addr n : Nat) (bs : List Byte),
    let key := hostKey addr
    (hdmPa s addr bs.length = none ∨ hostUp s = false → exec (.hostMemWrite addr bs) s = .next s)
    ∧ (hdmPa s addr n = none ∨ hostUp s = false ∨ n = 0 → exec (.hostMemRead addr n) s = .next s)
    ∧ (∀ pa, hdmPa s addr bs.length = some pa → hostUp s = true →
        ∃ t, exec (.hostMemWrite addr bs) s = .next t ∧ t = killWritten (tailWritten (hostPut s pa bs) pa bs.length)
          ∧ (s.Inv → NoneWaits s → s.launches = [] → memBytes t.mem pa bs.length = bs ∧ t.ctxs = s.ctxs
            ∧ (∀ k, k < pa ∨ pa + bs.length ≤ k → memGet t.mem k = memGet s.mem k)
            ∧ (pa + bs.length ≤ deviceBytes → ∀ l ∈ t.filter, l * 64 + 64 ≤ pa ∨ pa + bs.length ≤ l * 64)))
    ∧ (∀ pa, hdmPa s addr n = some pa → hostUp s = true → 0 < n → (∀ b ∈ s.ecc, b < pa ∨ pa + n ≤ b) → NoneWaits s →
        ∃ t, exec (.hostMemRead addr n) s = .next t ∧ t.outs = s.outs ++ [.hostRead (memBytes s.mem pa n)] ∧ t.mem = s.mem ∧ (pa + n - 1) / 64 ∈ t.filter)
    ∧ (∀ pa b, hdmPa s addr n = some pa → hostUp s = true → b ∈ s.ecc → pa ≤ b → b < pa + n →
        ∃ t, exec (.hostMemRead addr n) s = .next t ∧ t.outs = s.outs ++ [.hostPoison addr] ∧ t.mem = s.mem ∧ t.filter = s.filter)
    ∧ (addr + bs.length ≤ 2 ^ 48 → s.pf.linkUp = true → s.Inv → NoneWaits s →
        ∃ t, exec (.hostSnoop addr bs) s = .next t ∧ memBytes t.mem key bs.length = bs
          ∧ (∀ e ∈ t.part, e.1 ≠ key / 64 ∧ e.1 ≠ (key + max 1 bs.length - 1) / 64)
          ∧ ∀ k, k < key ∨ key + bs.length ≤ k → memGet t.mem k = memGet s.mem k)
    ∧ (2 ^ 48 < addr + bs.length ∨ s.pf.linkUp = false → exec (.hostSnoop addr bs) s = .next s)
    ∧ ∃ t, exec .ideMacFailure s = .next t ∧ t = { s with pf := { s.pf with linkUp := false } } ∧ hostUp t = false ∧ exec (.hostMemWrite addr bs) t = .next t)
  ∧ (
  ∀ (s : State) (peer rt pa n v w q id port : Nat) (bs : List Byte) (ws : List W64) (op : AOp) (ty : ATy) (node : W64) (dd rg wide : Bool) (cc : WCond) (rq : InReq),
    let refused (u t : State) (code : Nat) : Prop := t = { u with outs := u.outs ++ [.peerReply peer false code] }
    let at_ (bit len : Nat) (r : InReq) : Prop :=
      (inLocal s peer rt bit pa len = none → ∃ t, exec (.ingressRequest peer rt r) s = .next t ∧ refused s t 0)
      ∧ ∀ loc, inLocal s peer rt bit pa len = some loc → deviceBytes < pa + len →
          ∃ t, exec (.ingressRequest peer rt r) s = .next t ∧ t = { s with hole := some pa }
    let clean (len : Nat) : Prop := ∀ b ∈ s.ecc, b < pa ∨ pa + len ≤ b
    let poison (bit len : Nat) (r : InReq) : Prop := ∀ loc, inLocal s peer rt bit pa len = some loc → pa + len ≤ deviceBytes → ¬clean len →
      ∃ t, exec (.ingressRequest peer rt r) s = .next t ∧ t.outs = s.outs ++ [.peerPoison peer] ∧ t.mem = s.mem ∧ t.peerMons = s.peerMons
    let held (len : Nat) (t : State) : Prop := t.ctxs = s.ctxs ∧ t.cur = s.cur ∧ ∀ k, k < pa ∨ pa + len ≤ k → memGet t.mem k = memGet s.mem k
    (s.pf.ready = false ∨ s.pf.trip = true → exec (.ingressRequest peer rt rq) s = .next s)
    ∧ (s.pf.ready = true → s.pf.trip = false →
        at_ 62 n (.load pa n) ∧ at_ 61 bs.length (.store pa bs) ∧ at_ 62 (wcSize wide) (.monitor pa wide cc v id)
        ∧ at_ 60 (atySize ty) (.atom op ty pa v) ∧ at_ 60 (atySize ty) (.cas ty pa v w) ∧ at_ 60 (atySize ty) (.red op ty pa v)
        ∧ poison 62 n (.load pa n) ∧ poison 62 (wcSize wide) (.monitor pa wide cc v id) ∧ poison 60 (atySize ty) (.atom op ty pa v)
        ∧ poison 60 (atySize ty) (.cas ty pa v w)
        ∧ (∀ loc, inLocal s peer rt 62 pa n = some loc → pa + n ≤ deviceBytes → clean n → NoneWaits s →
            ∃ t, exec (.ingressRequest peer rt (.load pa n)) s = .next t ∧ t.outs = s.outs ++ [.peerReply peer true (leNat (memBytes s.mem pa n))] ∧ held 0 t)
        ∧ (∀ loc, inLocal s peer rt 61 pa bs.length = some loc → pa + bs.length ≤ deviceBytes → s.Inv → NoneWaits s →
            ∃ t, exec (.ingressRequest peer rt (.store pa bs)) s = .next t ∧ t.outs = s.outs ++ [.peerReply peer true 0]
              ∧ memBytes t.mem pa bs.length = bs ∧ held bs.length t)
        ∧ (∀ loc, inLocal s peer rt 60 pa (atySize ty) = some loc → pa + atySize ty ≤ deviceBytes → clean (atySize ty) → s.Inv → NoneWaits s → (s.cl 192).l1 = [] →
            (∃ t, exec (.ingressRequest peer rt (.atom op ty pa v)) s = .next t ∧ t.outs = s.outs ++ [.peerReply peer true (memNat s.mem pa (atySize ty))]
              ∧ memNat t.mem pa (atySize ty) = atomNew op ty (memNat s.mem pa (atySize ty)) v % 2 ^ (8 * atySize ty) ∧ held (atySize ty) t)
            ∧ (∃ t, exec (.ingressRequest peer rt (.cas ty pa v w)) s = .next t ∧ t.outs = s.outs ++ [.peerReply peer true (memNat s.mem pa (atySize ty))]
              ∧ memNat t.mem pa (atySize ty) = (if memNat s.mem pa (atySize ty) = v % 2 ^ (8 * atySize ty) then w % 2 ^ (8 * atySize ty) else memNat s.mem pa (atySize ty))
              ∧ held (atySize ty) t)
            ∧ (ty.isInt = true → ∃ t, exec (.ingressRequest peer rt (.red op ty pa v)) s = .next t ∧ t.outs = s.outs ++ [.peerReply peer true 0]
              ∧ memNat t.mem pa (atySize ty) = atomNew op ty (memNat s.mem pa (atySize ty)) v % 2 ^ (8 * atySize ty) ∧ held (atySize ty) t))
        ∧ (∀ loc, inLocal s peer rt 62 pa (wcSize wide) = some loc → pa + wcSize wide ≤ deviceBytes → clean (wcSize wide) → NoneWaits s →
            ∃ t, exec (.ingressRequest peer rt (.monitor pa wide cc v id)) s = .next t ∧ t.outs = s.outs ++ [.peerReply peer true (memNat s.mem pa (wcSize wide))]
              ∧ t.peerMons = s.peerMons ++ [⟨peer, id, pa, wcSize wide, cc, v⟩] ∧ held 0 t)
        ∧ ((∀ x ∈ locTenants s peer rt, (rcbOk s x node && rcb s x node 5 1 = x) = false) →
            ∃ t, exec (.ingressRequest peer rt (.tspawn node)) s = .next t ∧ refused s t 3)
        ∧ (∀ x, ((locTenants s peer rt).find? fun k => rcbOk s k node && rcb s k node 5 1 = k) = some x →
            let u := submitNode s.fresh.2 x node
            (Config.spawnFull s.ticks = true → ∃ t, exec (.ingressRequest peer rt (.tspawn node)) s = .next t ∧ t = { s with outs := s.outs ++ [.peerReply peer true 1] })
            ∧ (Config.spawnFull s.ticks = false → ∃ t, exec (.ingressRequest peer rt (.tspawn node)) s = .next t
                ∧ t = { u with remotes := u.remotes ++ [⟨s.fresh.1, none, some peer, true, some (lkey u x node)⟩], outs := u.outs ++ [.peerReply peer true 0] }))
        ∧ ((∀ x ∈ locTenants s peer rt, qOwned s x q = false) → ∃ t, exec (.ingressRequest peer rt (.push q dd rg ws)) s = .next t ∧ refused s t 3)
        ∧ ((∃ x ∈ locTenants s peer rt, qOwned s x q = true) →
            let u := qCheck s q
            let k : PushK := if rg then .range else if dd then .insd else .plain
            (qState u q ≠ 1 ∨ (k = .insd ∧ qDedup u q = false) → ∃ t, exec (.ingressRequest peer rt (.push q dd rg ws)) s = .next t ∧ refused u t 3)
            ∧ (qState u q = 1 → (k = .insd → qDedup u q = true) →
                let x := qPushAt u.fresh.2 q k none false (some (peer * 2 ^ 32 + u.fresh.1)) ws
                ∃ t, exec (.ingressRequest peer rt (.push q dd rg ws)) s = .next t ∧ t = { x.1 with outs := x.1.outs ++ [.peerReply peer true x.2] })))
    ∧ (∀ p : PeerMon, s.peerMons = [p] → s.ctxs = [] → isCached p.key = true → NoneWaits s →
        (wcHolds p.cc (8 * p.n) (memNat s.mem p.key p.n) p.b = true → smGet 0 s.pf.route p.peer ≠ 0 →
          ∃ x, (serveWatches s).outs = s.outs ++ [.wake x p.peer p.id] ∧ (serveWatches s).peerMons = [])
        ∧ (wcHolds p.cc (8 * p.n) (memNat s.mem p.key p.n) p.b = false ∨ smGet 0 s.pf.route p.peer = 0 → serveWatches s = s))
    ∧ exec (.flitRetry port v) s = .next s
    ∧ ((∀ p ∈ s.packets, p.port ≠ port) → exec (.drawbarTimeout port) s = .next s)
    ∧ ((∃ p ∈ s.packets, p.port = port) → ∃ t, exec (.drawbarTimeout port) s = .next t ∧ (∀ p ∈ t.packets, p.port ≠ port ∧ p ∈ s.packets)
        ∧ ∀ p ∈ s.packets, p.port = port → bitOf (t.tenant p.tenant).err 4 = true))

/-! Management, reset, power, translation. -/

/-- R364, R348: a management request of a device that answers gets one response that repeats its code, with status 0 once its command has acted,
1 for an unknown code, 2 for a context that is not there or a request of a wrong form; while an image is being staged, status 3 but for
STATUS. SETCAP and SETPRIO act as register writes. An SPDM request gets one response, with the signature that its kind asks for. A device
whose link is down, or that tripped, gives no answer. How long staging lasts, and status 2 for a wrong form, are the model's choices (logs
96 and 141). So are the answers of SETCAP and SETPRIO before the device is ready (log 104), and the code 0xFE of a vendor-defined request
(log 105). R361, R362: each power sample gives the average of the last ten; above the cap the main clock falls by 100 MHz, to 1,200 at the
least; below 95% of it for 50 ms the clock rises by 100, unless heat holds it; nothing else is touched. At 105 degrees the clock falls by
one step and THROT is set; below it THROT is clear; at 120, or rising at the slowest clock, the device trips: it is not ready, every VF is
done, and no sample has effect any more. The average of fewer than ten samples (log 101), that heat holds the clock (log 102), what rising
is (log 103), and when THROT clears (log 161), are the model's choices. -/
def Obligations.ManagementAndClockControl : Prop :=
  (
  ∀ (s : State) (w c cl cx n : Nat) (blk : List Byte),
    let cmds : List (Nat × Instr) := [(1, .mgmtStatus), (2, .setcap w), (3, .setprio c), (4, .attach cl cx n), (5, .stage blk), (6, .counters)]
    let busy := s.pf.staging && Config.stagingBusy s.ticks
    let p : Pf := { s.pf with staging := busy }
    let answer (t : State) (code st : Nat) (vals : List Nat) : Prop := t.outs = s.outs ++ [.mgmt code st vals]
    let only (i : Instr) (code st : Nat) (vals : List Nat) (q : Pf) : Prop :=
      ∃ t, exec i s = .next t ∧ t = { s with pf := q, outs := s.outs ++ [.mgmt code st vals] }
    (mailUp s = false → (∀ e ∈ cmds, exec e.2 s = .next s) ∧ exec (.spdmRequest blk) s = .next s ∧ exec (.mgmtUnknownCode n) s = .next s)
    ∧ (mailUp s = true →
        only .mgmtStatus 1 0 [pfStatus s.pf, s.pf.pownow, s.pf.temp, s.pf.clkmhz] p
        ∧ (busy = true → (∀ e ∈ cmds, e.1 ≠ 1 → only e.2 e.1 3 [] p) ∧ (n % 256 ≠ 1 → only (.mgmtUnknownCode n) (n % 256) 3 [] p))
        ∧ (busy = false →
            only (.stage blk) 5 0 [] { s.pf with staged := s.pf.staged ++ blk, staging := true }
            ∧ only (.setcap w) 2 0 [] (if s.pf.ready then { p with powcap := min 2800 (max 400 (w % 2 ^ 12)) } else p)
            ∧ only (.setprio c) 3 0 [] (if s.pf.ready then { p with priocap := min 99 (max 50 (c % 2 ^ 7)) } else p)
            ∧ only .counters 6 0 ((s.pf.eccCor + 2 ^ 32 * s.pf.eccUnc) :: s.pf.dieEcc) p
            ∧ (s.ctxAt cl cx = none ∨ 1 < n → only (.attach cl cx n) 4 2 [] p)
            ∧ (∀ e, s.ctxAt cl cx = some e → n ≤ 1 → ∃ t, exec (.attach cl cx n) s = .next t ∧ answer t 4 0 [] ∧ (t.ctx e.1).trap.dbgatt = decide (n = 1)
                ∧ ∀ k, k ≠ e.1 → t.ctx k = s.ctx k))
        ∧ (busy = false ∨ n % 256 = 1 → only (.mgmtUnknownCode n) (n % 256) (if 1 ≤ n % 256 ∧ n % 256 ≤ 6 then 2 else 1) [] p)
        ∧ ∃ t m, exec (.spdmRequest blk) s = .next t ∧ t.outs = s.outs ++ [.spdm (decide (blk.getD 1 0 = 0xFE#8)) m] ∧ t.mem = s.mem ∧ t.ctxs = s.ctxs ∧ t.pf = s.pf))
  ∧ (
  ∀ (s : State) (w a b : Nat),
    let l := (w :: s.pf.samples).take 10
    let sum := l.foldl (· + ·) 0
    let cap := s.pf.powcap * l.length
    (s.pf.trip = true → exec (.powerSample w) s = .next s ∧ exec (.thermalSample a b) s = .next s)
    ∧ (s.pf.trip = false →
        (∃ t, exec (.powerSample w) s = .next t ∧ t = { s with pf := t.pf } ∧ t.pf.samples = l ∧ t.pf.pownow = sum / l.length % 2 ^ 12 ∧ t.pf.powcap = s.pf.powcap
          ∧ (cap < sum → t.pf.clkmhz = max 1200 (s.pf.clkmhz - 100))
          ∧ (sum ≤ cap → (95 * cap ≤ 100 * sum ∨ s.pf.lowMs + 1 < 50 ∨ s.pf.throt = true) → t.pf.clkmhz = s.pf.clkmhz)
          ∧ (95 * cap ≤ 100 * sum → t.pf.lowMs = 0) ∧ (100 * sum < 95 * cap → s.pf.lowMs + 1 < 50 → t.pf.lowMs = s.pf.lowMs + 1)
          ∧ (100 * sum < 95 * cap → 49 ≤ s.pf.lowMs → s.pf.throt = false → t.pf.clkmhz = min 3300 (s.pf.clkmhz + 100) ∧ t.pf.lowMs = 0))
        ∧ (max a b < 105 → ∃ t, exec (.thermalSample a b) s = .next t ∧ t = { s with pf := t.pf } ∧ t.pf.throt = false ∧ t.pf.clkmhz = s.pf.clkmhz
            ∧ t.pf.temp = min 255 b * 256 + min 255 a)
        ∧ (105 ≤ max a b → max a b < 120 → (s.pf.clkmhz ≠ 1200 ∨ max a b ≤ s.pf.lastTemp) →
            ∃ t, exec (.thermalSample a b) s = .next t ∧ t = { s with pf := t.pf } ∧ t.pf.throt = true ∧ t.pf.clkmhz = max 1200 (s.pf.clkmhz - 100))
        ∧ (120 ≤ max a b ∨ 105 ≤ max a b ∧ s.pf.lastTemp < max a b ∧ s.pf.clkmhz = 1200 →
            ∃ t, exec (.thermalSample a b) s = .next t ∧ t.pf.trip = true ∧ t.pf.ready = false
              ∧ (∀ n, n < 64 → (t.tenant n).done = true ∧ (t.tenant n).enable = false) ∧ hostUp t = false ∧ mailUp t = false)))

/-! One step, the encoding, the invariant, reset. -/

/-- R358, R339, R363, R180, R202: after reset there is no context, task, launch or tenant, memory lists nothing, PF0 is ready with the table's
reset values, the engine is free with its registers zero, and the invariant holds. PF.RSVBASE is the model's choice (log 5). R358, R348,
R355: a cold reset discards every context, task, queue and byte of the package's memory, and takes PF0 and every VF to their reset values.
READY tells that no phase failed; else FAIL stands with the phase's number, phase 2 failing when neither the staged nor the previous image
verifies; after phase 6 the link is down. The erase counts stay, and those translations in flash whose check passes; memory of the host and
of peers is not the package's. A reset of PF0 does the same on a device whose link is up and that did not trip. What a reset keeps (log 98),
that a tripped device needs the cold reset (log 106), and which phases fail (log 107), are the model's choices. -/
def Obligations.ResetLeavesTheResetValues : Prop :=
  (
  let s := State.reset
  s.Inv ∧ s.ctxs = [] ∧ s.tasks = [] ∧ s.launches = [] ∧ s.mem = [] ∧ s.hole = none ∧ s.peerMons = [] ∧ s.reports = []
  ∧ s.pf.ready = true ∧ s.pf.fail = false ∧ s.pf.trip = false ∧ s.pf.throt = false ∧ s.pf.failph = 0 ∧ s.pf.hcpkb = 0 ∧ s.pf.hdmbase = 0 ∧ s.pf.hdmsize = 0
  ∧ s.pf.powcap = 2800 ∧ s.pf.pownow = 0 ∧ s.pf.clkmhz = 3300 ∧ s.pf.priocap = 90 ∧ s.pf.eccCor = 0 ∧ s.pf.eccUnc = 0
  ∧ (∀ n, (s.tenant n).enable = false ∧ (s.tenant n).done = false ∧ (s.tenant n).root = 0#64 ∧ (s.tenant n).ptroot = 0 ∧ (s.tenant n).bnds = 0
      ∧ (s.tenant n).qwin = 0 ∧ (s.tenant n).mwin = 0 ∧ (s.tenant n).err = 0 ∧ (s.tenant n).savevec = 0#64 ∧ (s.tenant n).restvec = 0#64)
  ∧ ∀ k, (s.eng k).owner = none ∧ (s.eng k).q = [] ∧ (s.eng k).opa = OpDesc.zero ∧ (s.eng k).opb = OpDesc.zero ∧ (s.eng k).prog = 0#64 ∧ (s.eng k).param = 0#64)
  ∧ (
  ∀ s : State,
    let clean (t : State) : Prop := t.ctxs = [] ∧ t.tasks = [] ∧ t.launches = [] ∧ t.queues = [] ∧ t.mrings = [] ∧ t.cls = [] ∧ t.rows = [] ∧ t.tenants = []
      ∧ t.mem = s.mem.filter (fun e => isHost e.1) ∧ t.peerMem = s.peerMem ∧ t.outs = s.outs
      ∧ t.hole = none ∧ t.pf.powcap = 2800 ∧ t.pf.hdmsize = 0 ∧ t.pf.priocap = 90 ∧ t.pf.clkmhz = 3300 ∧ t.pf.trip = false ∧ t.pf.throt = false
      ∧ t.pf.ready = !t.pf.fail ∧ (t.pf.linkUp = false ↔ t.pf.fail = true ∧ t.pf.failph = 6) ∧ (t.pf.fail = true → 1 ≤ t.pf.failph ∧ t.pf.failph ≤ 6)
      ∧ (t.pf.fail = false → t.pf.failph = 0 ∧ imageOk t.pf.image = true)
      ∧ (imageOk s.pf.staged = true → s.pf.staged ≠ [] → t.pf.image = s.pf.staged)
      ∧ (imageOk s.pf.staged = false → t.pf.image = s.pf.image)
      ∧ t.erases = s.erases
      ∧ t.transl = (s.transl.filter fun x => x.blk.isSome && Config.flashOk (s.pf.resets + 1) x.digest).map fun x => { x with addr := none, used := x.used - s.us }
    (∃ t, exec .coldReset s = .next t ∧ clean t)
    ∧ (s.pf.trip = false → s.pf.linkUp = true → ∃ t, exec .pf0Flr s = .next t ∧ clean t)
    ∧ (s.pf.trip = true ∨ s.pf.linkUp = false → exec .pf0Flr s = .next s))

/-! Management, reset, power, translation. -/

/-- R351 to R353: the translation of a portable task that has none is made when its header and code keep the rules, stands in the region under
its key with the portable code translated, and is written to flash; what cannot be translated fails the task with ILLEGAL, and nothing is
cached. One in the region is used as it stands; one that stands in flash only is brought back to the region. A word GW becomes the context's
team width times its constant, and a branch leads to the new place of its target. That a GW instruction becomes CSRR of CTX.TEAMW and MUL
(log 63), and the place that a translation takes in the region (log 100), are the model's choices. -/
def Obligations.PortableCodeRunsFromItsTranslation : Prop :=
  (∀ (s : State) (tn l lin : Nat) (r : TRec),
    (dispatchable s tn l lin = false → exec (.portableTranslation tn l lin) s = .next s)
    ∧ (dispatchable s tn l lin = true → readRec s tn (s.launch l).node lin = some r →
        (r.isav ≠ 0x8001 ∨ r.ok = false → exec (.portableTranslation tn l lin) s = .next s)
        ∧ (r.isav = 0x8001 → r.ok = true →
            (∀ x, translOf s tn r = some x → x.addr.isSome = true → ∃ t, exec (.portableTranslation tn l lin) s = .next t
              ∧ t = { s with transl := t.transl } ∧ t.transl.length = s.transl.length ∧ t.transl.map (·.code) = s.transl.map (·.code))
            ∧ (∀ x, translOf s tn r = some x → x.addr = none → ∃ t, exec (.portableTranslation tn l lin) s = .next t ∧ t = toRegion s x)
            ∧ (translOf s tn r = none → tRead s tn r.entry 64 = none → ∃ t, exec (.portableTranslation tn l lin) s = .next t ∧ t = failTask s tn l lin fILLEGAL)
            ∧ (∀ h, translOf s tn r = none → tRead s tn r.entry 64 = some h →
                ((headerOk s tn r h).bind (fun c => translate c.1 c.2) = none →
                  ∃ t, exec (.portableTranslation tn l lin) s = .next t ∧ t = failTask s tn l lin fILLEGAL ∧ t.transl = s.transl)
                ∧ (∀ code entry o, (headerOk s tn r h).bind (fun c => translate c.1 c.2) = some (code, entry) → s.transl = [] → regionPlace s code.length = some o → s.Inv → NoneWaits s →
                  ∃ t x, exec (.portableTranslation tn l lin) s = .next t ∧ t.transl = [x] ∧ x.code = code ∧ x.entry = entry ∧ x.addr = some (regionBase s + o)
                    ∧ x.digest = (h.drop 0x10).take 32 ∧ x.tws = r.nctx :: r.tw ∧ memBytes t.mem (regionBase s + o) code.length = code)))))
  ∧ ∀ (d : GReg) (v : BitVec 34) (ws : List W64),
    portItem ((GWord.mk 0x1D#7 0#6 d 0#5 0#5 0#1 v).word :: ws) = some (.gw d v)
    ∧ (∀ lay i n, portEmit lay [.item i (.gw d v)] n = some (encode (.csrr d 0x006#12) ++ encode (.mul d d (.imm v))))
    ∧ (∀ lay i n w k, placeOfWord (branchTarget i w) lay 0 = some k → ∃ x : W64, portEmit lay [.item i (.branch w)] n = some [x]
        ∧ x.extractLsb' 34 30 = w.extractLsb' 34 30 ∧ x.extractLsb' 0 34 = BitVec.ofInt 34 ((k : Int) - (n : Int)))
    ∧ portItem (encode (.teamN (.reg d)) ++ ws) = none

/-! One step, the encoding, the invariant, reset. -/

/-- R30 to R32, R48, R81, R96, R99, R205, R336: a step stops at an access beyond the memory; else it takes the head of the agenda, or one of the
moves that are open when there is none, in its turn on a port or a slice. A generator that nothing is due for executes the instruction that
its fetched word, or its fetched two words, decode to, where a word that ILLEGAL or PRIV refuses is judged first; a lane word's unit is
emitted; a team executes the unit or entry at the head of its stream, an epilogue processor its next micro-instruction, and an event its own
step. Of the teams of a slice that are ready the oldest issues, unless its word would take another past 64 passes. A word of code that the
cluster does not hold is the eight bytes at its home. The agenda, the open moves and their arbitration (log 1), the fault of an access
beyond the memory (log 14), that a unit is fetched whole before its words are judged (log 126), and how the passes of a slice are counted
(log 128), are the model's choices. -/
def Obligations.AStepRunsTheDecodedInstruction : Prop :=
  ∀ (s : State) (m0 : Move) (rest : List Move),
    let s1 : State := { tick s with agenda := rest }
    let m := arbitrate s1 m0
    let u := aim s1 m
    let ends (b : State) (x : Move) (o : Host.Outcome State Fault Refusal) : Host.Outcome State Fault Refusal :=
      match o with | .next t => .next (settleStep (noteMove b x t)) | o => o
    let runs (v : State) (i : Instr) : Prop := step s = ends s1 m (exec i v)
    let stops (v : State) : Prop := step s = .next (settleStep v)
    let refused (v : State) (i : Instr) : Prop := (isPriv i = true ∧ v.me.trap.pl = false) ∨ csrRefused v i = true
    let issuesWord (v : State) (i : Instr) : Prop := (v.me.tryw = none ∨ boundable i = true) →
      (refused v i → runs v i)
      ∧ (¬refused v i → v.me.cap.holes = [] ∨ (match i with | .hole .. => True | _ => False) →
          ∀ j, resolveForm v i = some j → (handlesOf j).any (aliasAway v) = false → runs v j)
      ∧ (¬refused v i → v.me.cap.holes ≠ [] → (match i with | .hole .. => False | _ => True) → stops (stretch v 3 true))
    (∀ pa, s.hole = some pa → step s = .fault (.noDevice pa))
    ∧ (s.hole = none → (tick s).agenda = [] → ∃ o ∈ openMoves (tick s),
        let x := arbitrate (tick s) o
        let v := moveNext (aim (tick s) x) x
        step s = match v.2 with | none => .next (settleStep v.1) | some i => ends (tick s) x (exec i v.1))
    ∧ (s.hole = none → (tick s).agenda = m0 :: rest →
        (∀ cid, m = .gen cid → u.me.st.resident = true → u.me.dbg.halted = false → dueAt u u.me = .none → u.me.expired u.mc = false →
          brkMatch u.me.dbg false u.me.pc = none →
          (∀ e, fetchAt u u.me u.me.pc = .fault e → stops (trap u e u.me.pc)) ∧ (∀ v, fetchAt u u.me u.me.pc = .wait v → stops v)
          ∧ ∀ v w, fetchAt u u.me u.me.pc = .word v w →
            (isLaneClass w = false → (GWord.ofWord w).maj ≠ 0x1A#7 →
              (∀ i, decodeG (GWord.ofWord w) 0#64 = some i → issuesWord v i) ∧ (decodeG (GWord.ofWord w) 0#64 = none → stops (trap v fILLEGAL 0)))
            ∧ (isLaneClass w = false → (GWord.ofWord w).maj = 0x1A#7 → ∀ v2 w2 i, fetchAt v u.me (u.me.pc + 8#64) = .word v2 w2 → decodeG (GWord.ofWord w) w2 = some i →
              issuesWord v2 i)
            ∧ (isLaneClass w = true → ∀ v2 ws, u.me.tryw = none → gather u.me 4 0 v w [] = .unit v2 ws → runs v2 (.laneUnitEmission ws)))
        ∧ (∀ cid, m = .team cid → u.me.st.resident = true → u.me.dbg.halted = false → u.me.strm.stopped = false → u.me.strm.gate = false →
            u.me.trap.intrap = false → u.me.trap.inSave = false → (mayStart u.me = true ∨ quiet u.me = false) →
            (∀ ws i, headUnit u.me = some ws → decodeUnit ws = some i → runs u i)
            ∧ (∀ a b c w d es, u.me.strm.pres = none → u.me.strm.ents = .inst a b c w d :: es → (w ≠ 0 ∨ mayStart u.me = true) → runs u .replayInstanceExpansion)
            ∧ (∀ c es, u.me.strm.pres = none → u.me.strm.ents = .ctrl c :: es → runs u .controlEntryEffect))
        ∧ (∀ cl w i, m = .epi cl → (u.epi cl).on = true → (u.epi cl).prog[(u.epi cl).pcw]? = some w → decodeE (EWord.ofWord w) = some i → runs u i)
        ∧ (∀ cid cl i, m = .event cid cl i → u.cur = cid ∧ u.curCl = cl ∧ runs u i))
    ∧ (∀ cid,
        let p := pickTeam s cid
        let ready (k : Nat) : Prop := (k = cid ∨ k ∈ sliceRivals s cid) ∧ passReady s k = true
        let due (o k : Nat) : Prop := ready k ∧ k ≠ o ∧ 64 < (s.ctx k).strm.passed + headPasses s o
        (passReady s cid = false → p = cid)
        ∧ (passReady s cid = true → ready p ∧ ∃ o, ready o ∧ (∀ k, ready k → older s k o = false) ∧ ((∀ k, ¬due o k) → p = o)
            ∧ ((∃ k, due o k) → due o p ∧ ∀ k, due o k → (s.ctx k).strm.passed ≤ (s.ctx p).strm.passed)))
    ∧ (∀ cid, issues s (.gen cid) cid = true → issues s (.gen (pickGen s cid)) (pickGen s cid) = true)
    ∧ ∀ cl tn k, smFind (s.cl cl).icache k = none → isPeer k = false → NoneWaits s → (codeWord s cl tn k).2 = BitVec.ofNat 64 (memNat s.mem k 8)

/-- R32 to R34: decoding a well-formed generator instruction's words gives it back, whatever its operands. MIGOP and DBGOP are one word each,
whose form the register selects when it runs. R35, R40, R42, R45, R46, R99, R205: decoding a well-formed lane unit, with its order, its
32-bit immediate and its base, or a micro-instruction of the epilogue, gives it back, whatever its operands. -/
def Obligations.DecodingReversesEncoding : Prop :=
  (
  ∀ (i : Instr) (ws : List W64), i.wf = true → encodeG i = some ws →
    decodeWords ws = some (match i with
      | .migopComplete d a b => .migopClaim d a b
      | .haltHard d a b => .haltSoft d a b
      | .resume d a b => .haltSoft d a b
      | .dbgopStatus d a b => .haltSoft d a b
      | j => j))
  ∧ (
  (∀ (i : Instr) (u : LUnit), i.wf = true → encodeL i = some u → decodeWords u.words = some i)
  ∧ ∀ (i : Instr) (e : EWord), i.wf = true → encodeE i = some e → decodeE (EWord.ofWord e.word) = some i)

/-- R32, R35, R40, R46: words written out from the spec's encodings decode to the instructions they stand for, and reserved encodings to none. -/
def Obligations.WrittenOutWordsDecode : Prop :=
  let g0 : Guard := ⟨false, 0#3, false⟩
  (∀ p ∈ ([([0x0100C60400000008], .add 6#5 6#5 (.imm 8#34)), ([0x1A01200000000000, 0xFE0000003FC00100], .li 9#5 0xFE0000003FC00100#64),
      ([0x1C04A00400000020], .csrwSet 5#5 0x020#12 0#5), ([0x200CE41400000010], .ld ⟨.d64, .rlx, .cluster, 7#5, 4#5, 16#34⟩),
      ([0x29080503FFFFFFFD], .bc .lt 5#5 0#5 0x3FFFFFFFD#34), ([0x34200A0000000000], .hole 1#3 .base (.reg 10#5)),
      ([0x4D147520B4000000], .waitc true .ge ⟨.acq, .task, 3#5, 21#5, 4#5, 0#20⟩), ([0x440C800400000001], .semacq 4#5 3#6 (.imm 1#34)),
      ([0x5308050400000000], .mloopr false true 0#3 false 0#4 0#4 5#5), ([0x5B04680400000003], .spxFb 3#5 3#3 8#5),
      ([0x6248863800000000], .rtagCas 4#5 2#4 6#5 7#5), ([0x6D00884800000000], .tspawn 4#5 8#5 9#5), ([0x7401000400000024], .msgpop 8#5 (.imm 36#34)),
      ([0x7904000000000000], .eretSkip), ([0x7F08A63800000000], .sysopXtinv 5#5 6#5 7#5),
      ([0x8000A030001C0100], .viadd ⟨g0, .s32, false, 5#9, ⟨3#9, false⟩, .imm (.i9 7#9)⟩),
      ([0x88C14080482801C0], .vffma ⟨g0, .f32, 7#3, 10#9, ⟨8#9, false⟩, ⟨9#9, false⟩, .reg ⟨10#9, false⟩⟩),
      ([0xBF8B000000000000, 0xBF40000400000000, 0xA001803000000420, 0x7E0000003FC00100],
        .vld ⟨g0, .n32, .normal, false, 12#9, ⟨0#2, some ⟨3#9, false⟩, .x32 0x1000#32, 0x7E0000003FC00100#64, .acq, .task⟩⟩)] : List (List W64 × Instr)),
    decodeWords p.1 = some p.2)
  ∧ (∀ p ∈ ([(0x78000030, .est 0#3 0#2 0#3 12#4 0#2), (0x28B98000, .esel 0#3 5#3 6#3 3#3 0#3), (0x80000000, .eend)] : List (W32 × Instr)),
      decodeE (EWord.ofWord p.1) = some p.2)
  ∧ (∀ w ∈ ([0x0104C60400000008, 0x1D00000000000000, 0x7F18000000000000] : List W64), decodeWords [w] = none) ∧ decodeE (EWord.ofWord 0x88000000#32) = none

/-- R143, R144: reads and writes at homes, and loads and stores through an L1, keep memory and L1 in their canonical forms; what is written at a
home is read back, and every other byte stays. -/
def Obligations.MemoryOperationsKeepTheirFormAndReadBack : Prop :=
  ∀ (s : State) (cl k n : Nat) (p : Pol) (ks : List Nat) (bs : List Byte), s.Inv →
    (homeRead s k n).1.Inv ∧ (homeWrite s k bs).Inv ∧ (loadKeys s cl p ks).1.Inv ∧ (storeKeys s cl p ks bs).Inv
    ∧ memBytes (homeWrite s k bs).mem k bs.length = bs
    ∧ (NoneWaits s → (homeRead s k n).2 = memBytes s.mem k n ∧ ∀ j, j < k ∨ k + bs.length ≤ j → memGet (homeWrite s k bs).mem j = memGet s.mem j)

/-- The invariant of a run (logs 3 and 15: the model's own form of memory and L1): a step keeps memory and every L1 in their canonical forms. -/
def Obligations.StepKeepsTheInvariant : Prop := ∀ s t : State, s.Inv → step s = .next t → t.Inv
end

