-- ==== Sys2Proof/Laws/Map.lean ====
section
/-! SUPPORT. Laws of sparse maps and of memory: read after write, other places unchanged, the canonical form is kept. -/

namespace Sys2Proof.Machine

@[simp] theorem smGet_nil {α : Type} (d : α) (k : Nat) : smGet d [] k = d := rfl

theorem smGet_smSet {α : Type} (d : α) (m : SMap α) (k : Nat) (v : α) (j : Nat) :
    smGet d (smSet m k v) j = if j = k then v else smGet d m j := by
  induction m with
  | nil => simp [smSet, smGet]
  | cons e m ih =>
    obtain ⟨a, w⟩ := e
    simp only [smSet]
    split
    · simp [smGet]
    · split
      · subst_vars; simp only [smGet]; split <;> rfl
      · simp only [smGet, ih]; split <;> split <;> simp_all

@[simp] theorem smGet_smSet_self {α : Type} (d : α) (m : SMap α) (k : Nat) (v : α) : smGet d (smSet m k v) k = v := by
  simp [smGet_smSet]

theorem smGet_smSet_ne {α : Type} (d : α) (m : SMap α) {k j : Nat} (v : α) (h : j ≠ k) : smGet d (smSet m k v) j = smGet d m j := by
  simp [smGet_smSet, h]

theorem smGet_smDel {α : Type} (d : α) (m : SMap α) (k j : Nat) : smGet d (smDel m k) j = if j = k then d else smGet d m j := by
  induction m with
  | nil => simp [smDel, smGet]
  | cons e m ih =>
    obtain ⟨a, w⟩ := e
    simp only [smDel]
    split <;> simp only [smGet, ih] <;> split <;> simp_all
    intro h; exact absurd h.symm (by assumption)

theorem smFind_smSet {α : Type} (m : SMap α) (k : Nat) (v : α) (j : Nat) :
    smFind (smSet m k v) j = if j = k then some v else smFind m j := by
  induction m with
  | nil => simp [smSet, smFind]
  | cons e m ih =>
    obtain ⟨a, w⟩ := e
    simp only [smSet]
    split
    · simp [smFind]
    · split
      · subst_vars; simp only [smFind]; split <;> rfl
      · simp only [smFind, ih]; split <;> split <;> simp_all

/-- A map read with a default, through its entry. -/
theorem smGet_eq_find {α : Type} (d : α) (m : SMap α) (k : Nat) : smGet d m k = (smFind m k).getD d := by
  induction m with
  | nil => rfl
  | cons e m ih => obtain ⟨a, w⟩ := e; simp only [smGet, smFind]; split <;> simp [ih]

/-! Memory. -/

/-- Read after write. -/
theorem memGet_memSet (m : List Host.Cell) (a : Nat) (v : Byte) (b : Nat) :
    memGet (memSet m a v) b = if b = a then v else memGet m b := by
  unfold memSet memGet
  split
  · next h => rw [smGet_smDel]; split <;> simp_all
  · exact smGet_smSet _ _ _ _ _

/-- Consecutive bytes leave every other address alone. -/
theorem memGet_memSetList_out (bs : List Byte) (m : List Host.Cell) (a b : Nat) (h : b < a ∨ a + bs.length ≤ b) :
    memGet (memSetList m a bs) b = memGet m b := by
  induction bs generalizing m a with
  | nil => rfl
  | cons v vs ih =>
    simp only [memSetList, List.length_cons] at *
    rw [ih _ _ (by omega), memGet_memSet]
    split
    · omega
    · rfl

/-- Consecutive bytes are what was written. -/
theorem memGet_memSetList_in (bs : List Byte) (m : List Host.Cell) (a k : Nat) (h : k < bs.length) :
    memGet (memSetList m a bs) (a + k) = bs[k] := by
  induction bs generalizing m a k with
  | nil => simp at h
  | cons v vs ih =>
    cases k with
    | zero => simp only [memSetList, Nat.add_zero]; rw [memGet_memSetList_out _ _ _ _ (by omega), memGet_memSet]; simp
    | succ k =>
      simp only [memSetList, List.getElem_cons_succ]
      have := ih (memSet m a v) (a + 1) k (by simpa using h)
      rw [← this]; congr 1; omega

/-! The canonical form. -/

theorem sorted_mono {α : Type} (m : SMap α) {lo lo' : Nat} (h : lo' ≤ lo) (hs : smSortedFrom lo m = true) : smSortedFrom lo' m = true := by
  cases m with
  | nil => rfl
  | cons e m => obtain ⟨a, w⟩ := e; simp only [smSortedFrom, Bool.and_eq_true, decide_eq_true_eq] at *; exact ⟨by omega, hs.2⟩

theorem sorted_smSet {α : Type} (m : SMap α) (k : Nat) (v : α) (lo : Nat) (hlo : lo ≤ k) (hs : smSortedFrom lo m = true) :
    smSortedFrom lo (smSet m k v) = true := by
  induction m generalizing lo with
  | nil => simp [smSet, smSortedFrom, hlo]
  | cons e m ih =>
    obtain ⟨a, w⟩ := e
    simp only [smSortedFrom, Bool.and_eq_true, decide_eq_true_eq] at hs
    simp only [smSet]
    split
    · simp [smSortedFrom, hlo, hs.2]; omega
    · split
      · subst_vars; simp [smSortedFrom, hs]
      · simp only [smSortedFrom, Bool.and_eq_true, decide_eq_true_eq]
        exact ⟨hs.1, ih _ (by omega) hs.2⟩

theorem sorted_smDel {α : Type} (m : SMap α) (k lo : Nat) (hs : smSortedFrom lo m = true) : smSortedFrom lo (smDel m k) = true := by
  induction m generalizing lo with
  | nil => rfl
  | cons e m ih =>
    obtain ⟨a, w⟩ := e
    simp only [smSortedFrom, Bool.and_eq_true, decide_eq_true_eq] at hs
    simp only [smDel]
    split
    · exact sorted_mono _ (by omega) (ih _ hs.2)
    · simp only [smSortedFrom, Bool.and_eq_true, decide_eq_true_eq]; exact ⟨hs.1, ih _ hs.2⟩

theorem noDefault_smSet (m : List Host.Cell) (k : Nat) (v : Byte) (hv : v ≠ memDefault) (h : memNoDefault m = true) :
    memNoDefault (smSet m k v) = true := by
  induction m with
  | nil => simp [smSet, memNoDefault, hv]
  | cons e m ih =>
    obtain ⟨a, w⟩ := e
    simp only [memNoDefault, Bool.and_eq_true] at h
    simp only [smSet]
    split
    · simp only [memNoDefault, Bool.and_eq_true]; exact ⟨by simp [hv], h⟩
    · split
      · simp only [memNoDefault, Bool.and_eq_true]; exact ⟨by simp [hv], h.2⟩
      · simp only [memNoDefault, Bool.and_eq_true]; exact ⟨h.1, ih h.2⟩

theorem noDefault_smDel (m : List Host.Cell) (k : Nat) (h : memNoDefault m = true) : memNoDefault (smDel m k) = true := by
  induction m with
  | nil => rfl
  | cons e m ih =>
    obtain ⟨a, w⟩ := e
    simp only [memNoDefault, Bool.and_eq_true] at h
    simp only [smDel]
    split
    · exact ih h.2
    · simp only [memNoDefault, Bool.and_eq_true]; exact ⟨h.1, ih h.2⟩

/-- A byte's write keeps the canonical form. -/
theorem memWf_memSet (m : List Host.Cell) (a : Nat) (v : Byte) (h : memWf m = true) : memWf (memSet m a v) = true := by
  simp only [memWf, Bool.and_eq_true] at *
  unfold memSet
  split
  · exact ⟨sorted_smDel _ _ _ h.1, noDefault_smDel _ _ h.2⟩
  · next hv => exact ⟨sorted_smSet _ _ _ _ (by omega) h.1, noDefault_smSet _ _ _ hv h.2⟩

/-- Writes of consecutive bytes keep the canonical form. -/
theorem memWf_memSetList (bs : List Byte) (m : List Host.Cell) (a : Nat) (h : memWf m = true) : memWf (memSetList m a bs) = true := by
  induction bs generalizing m a with
  | nil => exact h
  | cons v vs ih => exact ih _ _ (memWf_memSet _ _ _ h)

/-! Numbers as bytes. -/

@[simp] theorem leBytes_length (n v : Nat) : (leBytes n v).length = n := by
  induction n generalizing v with
  | zero => rfl
  | succ n ih => simp [leBytes, ih]

/-- A number read back from its bytes. -/
theorem leNat_leBytes (n v : Nat) : leNat (leBytes n v) = v % 256 ^ n := by
  induction n generalizing v with
  | zero => simp [leBytes, leNat, Nat.mod_one]
  | succ n ih =>
    simp only [leBytes, leNat, ih, BitVec.toNat_ofNat]
    have h := @Nat.mod_mul 256 (256 ^ n) v
    have e : 256 ^ (n + 1) = 256 * 256 ^ n := by rw [Nat.pow_succ, Nat.mul_comm]
    rw [e, h]

/-- A question about a map that no value at key k answers yes is not changed by a write at k. -/
theorem any_smSet {α : Type} (m : SMap α) (k : Nat) (v : α) (p : Nat × α → Bool) (h : ∀ v, p (k, v) = false) : (smSet m k v).any p = m.any p := by
  induction m with
  | nil => simp [smSet, h]
  | cons e m ih =>
    obtain ⟨a, x⟩ := e
    by_cases h1 : k < a
    · simp [smSet, h1, h]
    · by_cases h2 : k = a
      · subst h2; simp [smSet, h]
      · simp [smSet, h1, h2, ih]

end Sys2Proof.Machine
end

