-- ==== Sys2Proof/Laws/State.lean ====
section
/-! SUPPORT. Laws of State: each field after each update of a part, and each part read back. -/

namespace Sys2Proof.Machine

@[simp] theorem setCtx_agenda (s : State) (k : Nat) (v : Ctx) : (s.setCtx k v).agenda = s.agenda := rfl
@[simp] theorem setCtx_cur (s : State) (k : Nat) (v : Ctx) : (s.setCtx k v).cur = s.cur := rfl
@[simp] theorem setCtx_curCl (s : State) (k : Nat) (v : Ctx) : (s.setCtx k v).curCl = s.curCl := rfl
@[simp] theorem setCtx_ticks (s : State) (k : Nat) (v : Ctx) : (s.setCtx k v).ticks = s.ticks := rfl
@[simp] theorem setCtx_freeCtr (s : State) (k : Nat) (v : Ctx) : (s.setCtx k v).freeCtr = s.freeCtr := rfl
@[simp] theorem setCtx_nextId (s : State) (k : Nat) (v : Ctx) : (s.setCtx k v).nextId = s.nextId := rfl
@[simp] theorem setCtx_mc (s : State) (k : Nat) (v : Ctx) : (s.setCtx k v).mc = s.mc := rfl
@[simp] theorem setCtx_us (s : State) (k : Nat) (v : Ctx) : (s.setCtx k v).us = s.us := rfl
@[simp] theorem setCtx_mem (s : State) (k : Nat) (v : Ctx) : (s.setCtx k v).mem = s.mem := rfl
@[simp] theorem setCtx_ecc (s : State) (k : Nat) (v : Ctx) : (s.setCtx k v).ecc = s.ecc := rfl
@[simp] theorem setCtx_redq (s : State) (k : Nat) (v : Ctx) : (s.setCtx k v).redq = s.redq := rfl
@[simp] theorem setCtx_reports (s : State) (k : Nat) (v : Ctx) : (s.setCtx k v).reports = s.reports := rfl
@[simp] theorem setCtx_peerMem (s : State) (k : Nat) (v : Ctx) : (s.setCtx k v).peerMem = s.peerMem := rfl
@[simp] theorem setCtx_peerRed (s : State) (k : Nat) (v : Ctx) : (s.setCtx k v).peerRed = s.peerRed := rfl
@[simp] theorem setCtx_rows (s : State) (k : Nat) (v : Ctx) : (s.setCtx k v).rows = s.rows := rfl
@[simp] theorem setCtx_empt (s : State) (k : Nat) (v : Ctx) : (s.setCtx k v).empt = s.empt := rfl
@[simp] theorem setCtx_ctxs (s : State) (k : Nat) (v : Ctx) : (s.setCtx k v).ctxs = smSet s.ctxs k v := rfl
@[simp] theorem setCtx_tasks (s : State) (k : Nat) (v : Ctx) : (s.setCtx k v).tasks = s.tasks := rfl
@[simp] theorem setCtx_launches (s : State) (k : Nat) (v : Ctx) : (s.setCtx k v).launches = s.launches := rfl
@[simp] theorem setCtx_tenants (s : State) (k : Nat) (v : Ctx) : (s.setCtx k v).tenants = s.tenants := rfl
@[simp] theorem setCtx_cls (s : State) (k : Nat) (v : Ctx) : (s.setCtx k v).cls = s.cls := rfl
@[simp] theorem setCtx_sems (s : State) (k : Nat) (v : Ctx) : (s.setCtx k v).sems = s.sems := rfl
@[simp] theorem setCtx_semAway (s : State) (k : Nat) (v : Ctx) : (s.setCtx k v).semAway = s.semAway := rfl
@[simp] theorem setCtx_chans (s : State) (k : Nat) (v : Ctx) : (s.setCtx k v).chans = s.chans := rfl
@[simp] theorem setCtx_ringObjs (s : State) (k : Nat) (v : Ctx) : (s.setCtx k v).ringObjs = s.ringObjs := rfl
@[simp] theorem setCtx_queues (s : State) (k : Nat) (v : Ctx) : (s.setCtx k v).queues = s.queues := rfl
@[simp] theorem setCtx_mrings (s : State) (k : Nat) (v : Ctx) : (s.setCtx k v).mrings = s.mrings := rfl
@[simp] theorem setCtx_subs (s : State) (k : Nat) (v : Ctx) : (s.setCtx k v).subs = s.subs := rfl
@[simp] theorem setCtx_warm (s : State) (k : Nat) (v : Ctx) : (s.setCtx k v).warm = s.warm := rfl
@[simp] theorem setCtx_walks (s : State) (k : Nat) (v : Ctx) : (s.setCtx k v).walks = s.walks := rfl
@[simp] theorem setCtx_ttdir (s : State) (k : Nat) (v : Ctx) : (s.setCtx k v).ttdir = s.ttdir := rfl
@[simp] theorem setCtx_comps (s : State) (k : Nat) (v : Ctx) : (s.setCtx k v).comps = s.comps := rfl
@[simp] theorem setCtx_remotes (s : State) (k : Nat) (v : Ctx) : (s.setCtx k v).remotes = s.remotes := rfl
@[simp] theorem setCtx_packets (s : State) (k : Nat) (v : Ctx) : (s.setCtx k v).packets = s.packets := rfl
@[simp] theorem setCtx_peerMons (s : State) (k : Nat) (v : Ctx) : (s.setCtx k v).peerMons = s.peerMons := rfl
@[simp] theorem setCtx_ports (s : State) (k : Nat) (v : Ctx) : (s.setCtx k v).ports = s.ports := rfl
@[simp] theorem setCtx_seqs (s : State) (k : Nat) (v : Ctx) : (s.setCtx k v).seqs = s.seqs := rfl
@[simp] theorem setCtx_transl (s : State) (k : Nat) (v : Ctx) : (s.setCtx k v).transl = s.transl := rfl
@[simp] theorem setCtx_turns (s : State) (k : Nat) (v : Ctx) : (s.setCtx k v).turns = s.turns := rfl
@[simp] theorem setCtx_servedLast (s : State) (k : Nat) (v : Ctx) : (s.setCtx k v).servedLast = s.servedLast := rfl
@[simp] theorem setCtx_defs (s : State) (k : Nat) (v : Ctx) : (s.setCtx k v).defs = s.defs := rfl
@[simp] theorem setCtx_turnLog (s : State) (k : Nat) (v : Ctx) : (s.setCtx k v).turnLog = s.turnLog := rfl
@[simp] theorem setCtx_erases (s : State) (k : Nat) (v : Ctx) : (s.setCtx k v).erases = s.erases := rfl
@[simp] theorem setCtx_filter (s : State) (k : Nat) (v : Ctx) : (s.setCtx k v).filter = s.filter := rfl
@[simp] theorem setCtx_part (s : State) (k : Nat) (v : Ctx) : (s.setCtx k v).part = s.part := rfl
@[simp] theorem setCtx_pf (s : State) (k : Nat) (v : Ctx) : (s.setCtx k v).pf = s.pf := rfl
@[simp] theorem setCtx_outs (s : State) (k : Nat) (v : Ctx) : (s.setCtx k v).outs = s.outs := rfl
@[simp] theorem setCtx_saved (s : State) (k : Nat) (v : Ctx) : (s.setCtx k v).saved = s.saved := rfl
@[simp] theorem setCtx_hole (s : State) (k : Nat) (v : Ctx) : (s.setCtx k v).hole = s.hole := rfl

@[simp] theorem setTask_agenda (s : State) (k : Nat) (v : Task) : (s.setTask k v).agenda = s.agenda := rfl
@[simp] theorem setTask_cur (s : State) (k : Nat) (v : Task) : (s.setTask k v).cur = s.cur := rfl
@[simp] theorem setTask_curCl (s : State) (k : Nat) (v : Task) : (s.setTask k v).curCl = s.curCl := rfl
@[simp] theorem setTask_ticks (s : State) (k : Nat) (v : Task) : (s.setTask k v).ticks = s.ticks := rfl
@[simp] theorem setTask_freeCtr (s : State) (k : Nat) (v : Task) : (s.setTask k v).freeCtr = s.freeCtr := rfl
@[simp] theorem setTask_nextId (s : State) (k : Nat) (v : Task) : (s.setTask k v).nextId = s.nextId := rfl
@[simp] theorem setTask_mc (s : State) (k : Nat) (v : Task) : (s.setTask k v).mc = s.mc := rfl
@[simp] theorem setTask_us (s : State) (k : Nat) (v : Task) : (s.setTask k v).us = s.us := rfl
@[simp] theorem setTask_mem (s : State) (k : Nat) (v : Task) : (s.setTask k v).mem = s.mem := rfl
@[simp] theorem setTask_ecc (s : State) (k : Nat) (v : Task) : (s.setTask k v).ecc = s.ecc := rfl
@[simp] theorem setTask_redq (s : State) (k : Nat) (v : Task) : (s.setTask k v).redq = s.redq := rfl
@[simp] theorem setTask_reports (s : State) (k : Nat) (v : Task) : (s.setTask k v).reports = s.reports := rfl
@[simp] theorem setTask_peerMem (s : State) (k : Nat) (v : Task) : (s.setTask k v).peerMem = s.peerMem := rfl
@[simp] theorem setTask_peerRed (s : State) (k : Nat) (v : Task) : (s.setTask k v).peerRed = s.peerRed := rfl
@[simp] theorem setTask_rows (s : State) (k : Nat) (v : Task) : (s.setTask k v).rows = s.rows := rfl
@[simp] theorem setTask_empt (s : State) (k : Nat) (v : Task) : (s.setTask k v).empt = s.empt := rfl
@[simp] theorem setTask_ctxs (s : State) (k : Nat) (v : Task) : (s.setTask k v).ctxs = s.ctxs := rfl
@[simp] theorem setTask_tasks (s : State) (k : Nat) (v : Task) : (s.setTask k v).tasks = smSet s.tasks k v := rfl
@[simp] theorem setTask_launches (s : State) (k : Nat) (v : Task) : (s.setTask k v).launches = s.launches := rfl
@[simp] theorem setTask_tenants (s : State) (k : Nat) (v : Task) : (s.setTask k v).tenants = s.tenants := rfl
@[simp] theorem setTask_cls (s : State) (k : Nat) (v : Task) : (s.setTask k v).cls = s.cls := rfl
@[simp] theorem setTask_sems (s : State) (k : Nat) (v : Task) : (s.setTask k v).sems = s.sems := rfl
@[simp] theorem setTask_semAway (s : State) (k : Nat) (v : Task) : (s.setTask k v).semAway = s.semAway := rfl
@[simp] theorem setTask_chans (s : State) (k : Nat) (v : Task) : (s.setTask k v).chans = s.chans := rfl
@[simp] theorem setTask_ringObjs (s : State) (k : Nat) (v : Task) : (s.setTask k v).ringObjs = s.ringObjs := rfl
@[simp] theorem setTask_queues (s : State) (k : Nat) (v : Task) : (s.setTask k v).queues = s.queues := rfl
@[simp] theorem setTask_mrings (s : State) (k : Nat) (v : Task) : (s.setTask k v).mrings = s.mrings := rfl
@[simp] theorem setTask_subs (s : State) (k : Nat) (v : Task) : (s.setTask k v).subs = s.subs := rfl
@[simp] theorem setTask_warm (s : State) (k : Nat) (v : Task) : (s.setTask k v).warm = s.warm := rfl
@[simp] theorem setTask_walks (s : State) (k : Nat) (v : Task) : (s.setTask k v).walks = s.walks := rfl
@[simp] theorem setTask_ttdir (s : State) (k : Nat) (v : Task) : (s.setTask k v).ttdir = s.ttdir := rfl
@[simp] theorem setTask_comps (s : State) (k : Nat) (v : Task) : (s.setTask k v).comps = s.comps := rfl
@[simp] theorem setTask_remotes (s : State) (k : Nat) (v : Task) : (s.setTask k v).remotes = s.remotes := rfl
@[simp] theorem setTask_packets (s : State) (k : Nat) (v : Task) : (s.setTask k v).packets = s.packets := rfl
@[simp] theorem setTask_peerMons (s : State) (k : Nat) (v : Task) : (s.setTask k v).peerMons = s.peerMons := rfl
@[simp] theorem setTask_ports (s : State) (k : Nat) (v : Task) : (s.setTask k v).ports = s.ports := rfl
@[simp] theorem setTask_seqs (s : State) (k : Nat) (v : Task) : (s.setTask k v).seqs = s.seqs := rfl
@[simp] theorem setTask_transl (s : State) (k : Nat) (v : Task) : (s.setTask k v).transl = s.transl := rfl
@[simp] theorem setTask_turns (s : State) (k : Nat) (v : Task) : (s.setTask k v).turns = s.turns := rfl
@[simp] theorem setTask_servedLast (s : State) (k : Nat) (v : Task) : (s.setTask k v).servedLast = s.servedLast := rfl
@[simp] theorem setTask_defs (s : State) (k : Nat) (v : Task) : (s.setTask k v).defs = s.defs := rfl
@[simp] theorem setTask_turnLog (s : State) (k : Nat) (v : Task) : (s.setTask k v).turnLog = s.turnLog := rfl
@[simp] theorem setTask_erases (s : State) (k : Nat) (v : Task) : (s.setTask k v).erases = s.erases := rfl
@[simp] theorem setTask_filter (s : State) (k : Nat) (v : Task) : (s.setTask k v).filter = s.filter := rfl
@[simp] theorem setTask_part (s : State) (k : Nat) (v : Task) : (s.setTask k v).part = s.part := rfl
@[simp] theorem setTask_pf (s : State) (k : Nat) (v : Task) : (s.setTask k v).pf = s.pf := rfl
@[simp] theorem setTask_outs (s : State) (k : Nat) (v : Task) : (s.setTask k v).outs = s.outs := rfl
@[simp] theorem setTask_saved (s : State) (k : Nat) (v : Task) : (s.setTask k v).saved = s.saved := rfl
@[simp] theorem setTask_hole (s : State) (k : Nat) (v : Task) : (s.setTask k v).hole = s.hole := rfl

@[simp] theorem setTenant_agenda (s : State) (k : Nat) (v : Tenant) : (s.setTenant k v).agenda = s.agenda := rfl
@[simp] theorem setTenant_cur (s : State) (k : Nat) (v : Tenant) : (s.setTenant k v).cur = s.cur := rfl
@[simp] theorem setTenant_curCl (s : State) (k : Nat) (v : Tenant) : (s.setTenant k v).curCl = s.curCl := rfl
@[simp] theorem setTenant_ticks (s : State) (k : Nat) (v : Tenant) : (s.setTenant k v).ticks = s.ticks := rfl
@[simp] theorem setTenant_freeCtr (s : State) (k : Nat) (v : Tenant) : (s.setTenant k v).freeCtr = s.freeCtr := rfl
@[simp] theorem setTenant_nextId (s : State) (k : Nat) (v : Tenant) : (s.setTenant k v).nextId = s.nextId := rfl
@[simp] theorem setTenant_mc (s : State) (k : Nat) (v : Tenant) : (s.setTenant k v).mc = s.mc := rfl
@[simp] theorem setTenant_us (s : State) (k : Nat) (v : Tenant) : (s.setTenant k v).us = s.us := rfl
@[simp] theorem setTenant_mem (s : State) (k : Nat) (v : Tenant) : (s.setTenant k v).mem = s.mem := rfl
@[simp] theorem setTenant_ecc (s : State) (k : Nat) (v : Tenant) : (s.setTenant k v).ecc = s.ecc := rfl
@[simp] theorem setTenant_redq (s : State) (k : Nat) (v : Tenant) : (s.setTenant k v).redq = s.redq := rfl
@[simp] theorem setTenant_reports (s : State) (k : Nat) (v : Tenant) : (s.setTenant k v).reports = s.reports := rfl
@[simp] theorem setTenant_peerMem (s : State) (k : Nat) (v : Tenant) : (s.setTenant k v).peerMem = s.peerMem := rfl
@[simp] theorem setTenant_peerRed (s : State) (k : Nat) (v : Tenant) : (s.setTenant k v).peerRed = s.peerRed := rfl
@[simp] theorem setTenant_rows (s : State) (k : Nat) (v : Tenant) : (s.setTenant k v).rows = s.rows := rfl
@[simp] theorem setTenant_empt (s : State) (k : Nat) (v : Tenant) : (s.setTenant k v).empt = s.empt := rfl
@[simp] theorem setTenant_ctxs (s : State) (k : Nat) (v : Tenant) : (s.setTenant k v).ctxs = s.ctxs := rfl
@[simp] theorem setTenant_tasks (s : State) (k : Nat) (v : Tenant) : (s.setTenant k v).tasks = s.tasks := rfl
@[simp] theorem setTenant_launches (s : State) (k : Nat) (v : Tenant) : (s.setTenant k v).launches = s.launches := rfl
@[simp] theorem setTenant_tenants (s : State) (k : Nat) (v : Tenant) : (s.setTenant k v).tenants = smSet s.tenants k v := rfl
@[simp] theorem setTenant_cls (s : State) (k : Nat) (v : Tenant) : (s.setTenant k v).cls = s.cls := rfl
@[simp] theorem setTenant_sems (s : State) (k : Nat) (v : Tenant) : (s.setTenant k v).sems = s.sems := rfl
@[simp] theorem setTenant_semAway (s : State) (k : Nat) (v : Tenant) : (s.setTenant k v).semAway = s.semAway := rfl
@[simp] theorem setTenant_chans (s : State) (k : Nat) (v : Tenant) : (s.setTenant k v).chans = s.chans := rfl
@[simp] theorem setTenant_ringObjs (s : State) (k : Nat) (v : Tenant) : (s.setTenant k v).ringObjs = s.ringObjs := rfl
@[simp] theorem setTenant_queues (s : State) (k : Nat) (v : Tenant) : (s.setTenant k v).queues = s.queues := rfl
@[simp] theorem setTenant_mrings (s : State) (k : Nat) (v : Tenant) : (s.setTenant k v).mrings = s.mrings := rfl
@[simp] theorem setTenant_subs (s : State) (k : Nat) (v : Tenant) : (s.setTenant k v).subs = s.subs := rfl
@[simp] theorem setTenant_warm (s : State) (k : Nat) (v : Tenant) : (s.setTenant k v).warm = s.warm := rfl
@[simp] theorem setTenant_walks (s : State) (k : Nat) (v : Tenant) : (s.setTenant k v).walks = s.walks := rfl
@[simp] theorem setTenant_ttdir (s : State) (k : Nat) (v : Tenant) : (s.setTenant k v).ttdir = s.ttdir := rfl
@[simp] theorem setTenant_comps (s : State) (k : Nat) (v : Tenant) : (s.setTenant k v).comps = s.comps := rfl
@[simp] theorem setTenant_remotes (s : State) (k : Nat) (v : Tenant) : (s.setTenant k v).remotes = s.remotes := rfl
@[simp] theorem setTenant_packets (s : State) (k : Nat) (v : Tenant) : (s.setTenant k v).packets = s.packets := rfl
@[simp] theorem setTenant_peerMons (s : State) (k : Nat) (v : Tenant) : (s.setTenant k v).peerMons = s.peerMons := rfl
@[simp] theorem setTenant_ports (s : State) (k : Nat) (v : Tenant) : (s.setTenant k v).ports = s.ports := rfl
@[simp] theorem setTenant_seqs (s : State) (k : Nat) (v : Tenant) : (s.setTenant k v).seqs = s.seqs := rfl
@[simp] theorem setTenant_transl (s : State) (k : Nat) (v : Tenant) : (s.setTenant k v).transl = s.transl := rfl
@[simp] theorem setTenant_turns (s : State) (k : Nat) (v : Tenant) : (s.setTenant k v).turns = s.turns := rfl
@[simp] theorem setTenant_servedLast (s : State) (k : Nat) (v : Tenant) : (s.setTenant k v).servedLast = s.servedLast := rfl
@[simp] theorem setTenant_defs (s : State) (k : Nat) (v : Tenant) : (s.setTenant k v).defs = s.defs := rfl
@[simp] theorem setTenant_turnLog (s : State) (k : Nat) (v : Tenant) : (s.setTenant k v).turnLog = s.turnLog := rfl
@[simp] theorem setTenant_erases (s : State) (k : Nat) (v : Tenant) : (s.setTenant k v).erases = s.erases := rfl
@[simp] theorem setTenant_filter (s : State) (k : Nat) (v : Tenant) : (s.setTenant k v).filter = s.filter := rfl
@[simp] theorem setTenant_part (s : State) (k : Nat) (v : Tenant) : (s.setTenant k v).part = s.part := rfl
@[simp] theorem setTenant_pf (s : State) (k : Nat) (v : Tenant) : (s.setTenant k v).pf = s.pf := rfl
@[simp] theorem setTenant_outs (s : State) (k : Nat) (v : Tenant) : (s.setTenant k v).outs = s.outs := rfl
@[simp] theorem setTenant_saved (s : State) (k : Nat) (v : Tenant) : (s.setTenant k v).saved = s.saved := rfl
@[simp] theorem setTenant_hole (s : State) (k : Nat) (v : Tenant) : (s.setTenant k v).hole = s.hole := rfl

@[simp] theorem setLaunch_agenda (s : State) (k : Nat) (v : Launch) : (s.setLaunch k v).agenda = s.agenda := rfl
@[simp] theorem setLaunch_cur (s : State) (k : Nat) (v : Launch) : (s.setLaunch k v).cur = s.cur := rfl
@[simp] theorem setLaunch_curCl (s : State) (k : Nat) (v : Launch) : (s.setLaunch k v).curCl = s.curCl := rfl
@[simp] theorem setLaunch_ticks (s : State) (k : Nat) (v : Launch) : (s.setLaunch k v).ticks = s.ticks := rfl
@[simp] theorem setLaunch_freeCtr (s : State) (k : Nat) (v : Launch) : (s.setLaunch k v).freeCtr = s.freeCtr := rfl
@[simp] theorem setLaunch_nextId (s : State) (k : Nat) (v : Launch) : (s.setLaunch k v).nextId = s.nextId := rfl
@[simp] theorem setLaunch_mc (s : State) (k : Nat) (v : Launch) : (s.setLaunch k v).mc = s.mc := rfl
@[simp] theorem setLaunch_us (s : State) (k : Nat) (v : Launch) : (s.setLaunch k v).us = s.us := rfl
@[simp] theorem setLaunch_mem (s : State) (k : Nat) (v : Launch) : (s.setLaunch k v).mem = s.mem := rfl
@[simp] theorem setLaunch_ecc (s : State) (k : Nat) (v : Launch) : (s.setLaunch k v).ecc = s.ecc := rfl
@[simp] theorem setLaunch_redq (s : State) (k : Nat) (v : Launch) : (s.setLaunch k v).redq = s.redq := rfl
@[simp] theorem setLaunch_reports (s : State) (k : Nat) (v : Launch) : (s.setLaunch k v).reports = s.reports := rfl
@[simp] theorem setLaunch_peerMem (s : State) (k : Nat) (v : Launch) : (s.setLaunch k v).peerMem = s.peerMem := rfl
@[simp] theorem setLaunch_peerRed (s : State) (k : Nat) (v : Launch) : (s.setLaunch k v).peerRed = s.peerRed := rfl
@[simp] theorem setLaunch_rows (s : State) (k : Nat) (v : Launch) : (s.setLaunch k v).rows = s.rows := rfl
@[simp] theorem setLaunch_empt (s : State) (k : Nat) (v : Launch) : (s.setLaunch k v).empt = s.empt := rfl
@[simp] theorem setLaunch_ctxs (s : State) (k : Nat) (v : Launch) : (s.setLaunch k v).ctxs = s.ctxs := rfl
@[simp] theorem setLaunch_tasks (s : State) (k : Nat) (v : Launch) : (s.setLaunch k v).tasks = s.tasks := rfl
@[simp] theorem setLaunch_launches (s : State) (k : Nat) (v : Launch) : (s.setLaunch k v).launches = smSet s.launches k v := rfl
@[simp] theorem setLaunch_tenants (s : State) (k : Nat) (v : Launch) : (s.setLaunch k v).tenants = s.tenants := rfl
@[simp] theorem setLaunch_cls (s : State) (k : Nat) (v : Launch) : (s.setLaunch k v).cls = s.cls := rfl
@[simp] theorem setLaunch_sems (s : State) (k : Nat) (v : Launch) : (s.setLaunch k v).sems = s.sems := rfl
@[simp] theorem setLaunch_semAway (s : State) (k : Nat) (v : Launch) : (s.setLaunch k v).semAway = s.semAway := rfl
@[simp] theorem setLaunch_chans (s : State) (k : Nat) (v : Launch) : (s.setLaunch k v).chans = s.chans := rfl
@[simp] theorem setLaunch_ringObjs (s : State) (k : Nat) (v : Launch) : (s.setLaunch k v).ringObjs = s.ringObjs := rfl
@[simp] theorem setLaunch_queues (s : State) (k : Nat) (v : Launch) : (s.setLaunch k v).queues = s.queues := rfl
@[simp] theorem setLaunch_mrings (s : State) (k : Nat) (v : Launch) : (s.setLaunch k v).mrings = s.mrings := rfl
@[simp] theorem setLaunch_subs (s : State) (k : Nat) (v : Launch) : (s.setLaunch k v).subs = s.subs := rfl
@[simp] theorem setLaunch_warm (s : State) (k : Nat) (v : Launch) : (s.setLaunch k v).warm = s.warm := rfl
@[simp] theorem setLaunch_walks (s : State) (k : Nat) (v : Launch) : (s.setLaunch k v).walks = s.walks := rfl
@[simp] theorem setLaunch_ttdir (s : State) (k : Nat) (v : Launch) : (s.setLaunch k v).ttdir = s.ttdir := rfl
@[simp] theorem setLaunch_comps (s : State) (k : Nat) (v : Launch) : (s.setLaunch k v).comps = s.comps := rfl
@[simp] theorem setLaunch_remotes (s : State) (k : Nat) (v : Launch) : (s.setLaunch k v).remotes = s.remotes := rfl
@[simp] theorem setLaunch_packets (s : State) (k : Nat) (v : Launch) : (s.setLaunch k v).packets = s.packets := rfl
@[simp] theorem setLaunch_peerMons (s : State) (k : Nat) (v : Launch) : (s.setLaunch k v).peerMons = s.peerMons := rfl
@[simp] theorem setLaunch_ports (s : State) (k : Nat) (v : Launch) : (s.setLaunch k v).ports = s.ports := rfl
@[simp] theorem setLaunch_seqs (s : State) (k : Nat) (v : Launch) : (s.setLaunch k v).seqs = s.seqs := rfl
@[simp] theorem setLaunch_transl (s : State) (k : Nat) (v : Launch) : (s.setLaunch k v).transl = s.transl := rfl
@[simp] theorem setLaunch_turns (s : State) (k : Nat) (v : Launch) : (s.setLaunch k v).turns = s.turns := rfl
@[simp] theorem setLaunch_servedLast (s : State) (k : Nat) (v : Launch) : (s.setLaunch k v).servedLast = s.servedLast := rfl
@[simp] theorem setLaunch_defs (s : State) (k : Nat) (v : Launch) : (s.setLaunch k v).defs = s.defs := rfl
@[simp] theorem setLaunch_turnLog (s : State) (k : Nat) (v : Launch) : (s.setLaunch k v).turnLog = s.turnLog := rfl
@[simp] theorem setLaunch_erases (s : State) (k : Nat) (v : Launch) : (s.setLaunch k v).erases = s.erases := rfl
@[simp] theorem setLaunch_filter (s : State) (k : Nat) (v : Launch) : (s.setLaunch k v).filter = s.filter := rfl
@[simp] theorem setLaunch_part (s : State) (k : Nat) (v : Launch) : (s.setLaunch k v).part = s.part := rfl
@[simp] theorem setLaunch_pf (s : State) (k : Nat) (v : Launch) : (s.setLaunch k v).pf = s.pf := rfl
@[simp] theorem setLaunch_outs (s : State) (k : Nat) (v : Launch) : (s.setLaunch k v).outs = s.outs := rfl
@[simp] theorem setLaunch_saved (s : State) (k : Nat) (v : Launch) : (s.setLaunch k v).saved = s.saved := rfl
@[simp] theorem setLaunch_hole (s : State) (k : Nat) (v : Launch) : (s.setLaunch k v).hole = s.hole := rfl

@[simp] theorem setCl_agenda (s : State) (k : Nat) (v : Cluster) : (s.setCl k v).agenda = s.agenda := rfl
@[simp] theorem setCl_cur (s : State) (k : Nat) (v : Cluster) : (s.setCl k v).cur = s.cur := rfl
@[simp] theorem setCl_curCl (s : State) (k : Nat) (v : Cluster) : (s.setCl k v).curCl = s.curCl := rfl
@[simp] theorem setCl_ticks (s : State) (k : Nat) (v : Cluster) : (s.setCl k v).ticks = s.ticks := rfl
@[simp] theorem setCl_freeCtr (s : State) (k : Nat) (v : Cluster) : (s.setCl k v).freeCtr = s.freeCtr := rfl
@[simp] theorem setCl_nextId (s : State) (k : Nat) (v : Cluster) : (s.setCl k v).nextId = s.nextId := rfl
@[simp] theorem setCl_mc (s : State) (k : Nat) (v : Cluster) : (s.setCl k v).mc = s.mc := rfl
@[simp] theorem setCl_us (s : State) (k : Nat) (v : Cluster) : (s.setCl k v).us = s.us := rfl
@[simp] theorem setCl_mem (s : State) (k : Nat) (v : Cluster) : (s.setCl k v).mem = s.mem := rfl
@[simp] theorem setCl_ecc (s : State) (k : Nat) (v : Cluster) : (s.setCl k v).ecc = s.ecc := rfl
@[simp] theorem setCl_redq (s : State) (k : Nat) (v : Cluster) : (s.setCl k v).redq = s.redq := rfl
@[simp] theorem setCl_reports (s : State) (k : Nat) (v : Cluster) : (s.setCl k v).reports = s.reports := rfl
@[simp] theorem setCl_peerMem (s : State) (k : Nat) (v : Cluster) : (s.setCl k v).peerMem = s.peerMem := rfl
@[simp] theorem setCl_peerRed (s : State) (k : Nat) (v : Cluster) : (s.setCl k v).peerRed = s.peerRed := rfl
@[simp] theorem setCl_rows (s : State) (k : Nat) (v : Cluster) : (s.setCl k v).rows = s.rows := rfl
@[simp] theorem setCl_empt (s : State) (k : Nat) (v : Cluster) : (s.setCl k v).empt = s.empt := rfl
@[simp] theorem setCl_ctxs (s : State) (k : Nat) (v : Cluster) : (s.setCl k v).ctxs = s.ctxs := rfl
@[simp] theorem setCl_tasks (s : State) (k : Nat) (v : Cluster) : (s.setCl k v).tasks = s.tasks := rfl
@[simp] theorem setCl_launches (s : State) (k : Nat) (v : Cluster) : (s.setCl k v).launches = s.launches := rfl
@[simp] theorem setCl_tenants (s : State) (k : Nat) (v : Cluster) : (s.setCl k v).tenants = s.tenants := rfl
@[simp] theorem setCl_cls (s : State) (k : Nat) (v : Cluster) : (s.setCl k v).cls = smSet s.cls k v := rfl
@[simp] theorem setCl_sems (s : State) (k : Nat) (v : Cluster) : (s.setCl k v).sems = s.sems := rfl
@[simp] theorem setCl_semAway (s : State) (k : Nat) (v : Cluster) : (s.setCl k v).semAway = s.semAway := rfl
@[simp] theorem setCl_chans (s : State) (k : Nat) (v : Cluster) : (s.setCl k v).chans = s.chans := rfl
@[simp] theorem setCl_ringObjs (s : State) (k : Nat) (v : Cluster) : (s.setCl k v).ringObjs = s.ringObjs := rfl
@[simp] theorem setCl_queues (s : State) (k : Nat) (v : Cluster) : (s.setCl k v).queues = s.queues := rfl
@[simp] theorem setCl_mrings (s : State) (k : Nat) (v : Cluster) : (s.setCl k v).mrings = s.mrings := rfl
@[simp] theorem setCl_subs (s : State) (k : Nat) (v : Cluster) : (s.setCl k v).subs = s.subs := rfl
@[simp] theorem setCl_warm (s : State) (k : Nat) (v : Cluster) : (s.setCl k v).warm = s.warm := rfl
@[simp] theorem setCl_walks (s : State) (k : Nat) (v : Cluster) : (s.setCl k v).walks = s.walks := rfl
@[simp] theorem setCl_ttdir (s : State) (k : Nat) (v : Cluster) : (s.setCl k v).ttdir = s.ttdir := rfl
@[simp] theorem setCl_comps (s : State) (k : Nat) (v : Cluster) : (s.setCl k v).comps = s.comps := rfl
@[simp] theorem setCl_remotes (s : State) (k : Nat) (v : Cluster) : (s.setCl k v).remotes = s.remotes := rfl
@[simp] theorem setCl_packets (s : State) (k : Nat) (v : Cluster) : (s.setCl k v).packets = s.packets := rfl
@[simp] theorem setCl_peerMons (s : State) (k : Nat) (v : Cluster) : (s.setCl k v).peerMons = s.peerMons := rfl
@[simp] theorem setCl_ports (s : State) (k : Nat) (v : Cluster) : (s.setCl k v).ports = s.ports := rfl
@[simp] theorem setCl_seqs (s : State) (k : Nat) (v : Cluster) : (s.setCl k v).seqs = s.seqs := rfl
@[simp] theorem setCl_transl (s : State) (k : Nat) (v : Cluster) : (s.setCl k v).transl = s.transl := rfl
@[simp] theorem setCl_turns (s : State) (k : Nat) (v : Cluster) : (s.setCl k v).turns = s.turns := rfl
@[simp] theorem setCl_servedLast (s : State) (k : Nat) (v : Cluster) : (s.setCl k v).servedLast = s.servedLast := rfl
@[simp] theorem setCl_defs (s : State) (k : Nat) (v : Cluster) : (s.setCl k v).defs = s.defs := rfl
@[simp] theorem setCl_turnLog (s : State) (k : Nat) (v : Cluster) : (s.setCl k v).turnLog = s.turnLog := rfl
@[simp] theorem setCl_erases (s : State) (k : Nat) (v : Cluster) : (s.setCl k v).erases = s.erases := rfl
@[simp] theorem setCl_filter (s : State) (k : Nat) (v : Cluster) : (s.setCl k v).filter = s.filter := rfl
@[simp] theorem setCl_part (s : State) (k : Nat) (v : Cluster) : (s.setCl k v).part = s.part := rfl
@[simp] theorem setCl_pf (s : State) (k : Nat) (v : Cluster) : (s.setCl k v).pf = s.pf := rfl
@[simp] theorem setCl_outs (s : State) (k : Nat) (v : Cluster) : (s.setCl k v).outs = s.outs := rfl
@[simp] theorem setCl_saved (s : State) (k : Nat) (v : Cluster) : (s.setCl k v).saved = s.saved := rfl
@[simp] theorem setCl_hole (s : State) (k : Nat) (v : Cluster) : (s.setCl k v).hole = s.hole := rfl

@[simp] theorem setSem_agenda (s : State) (k : Nat) (v : Sem) : (s.setSem k v).agenda = s.agenda := rfl
@[simp] theorem setSem_cur (s : State) (k : Nat) (v : Sem) : (s.setSem k v).cur = s.cur := rfl
@[simp] theorem setSem_curCl (s : State) (k : Nat) (v : Sem) : (s.setSem k v).curCl = s.curCl := rfl
@[simp] theorem setSem_ticks (s : State) (k : Nat) (v : Sem) : (s.setSem k v).ticks = s.ticks := rfl
@[simp] theorem setSem_freeCtr (s : State) (k : Nat) (v : Sem) : (s.setSem k v).freeCtr = s.freeCtr := rfl
@[simp] theorem setSem_nextId (s : State) (k : Nat) (v : Sem) : (s.setSem k v).nextId = s.nextId := rfl
@[simp] theorem setSem_mc (s : State) (k : Nat) (v : Sem) : (s.setSem k v).mc = s.mc := rfl
@[simp] theorem setSem_us (s : State) (k : Nat) (v : Sem) : (s.setSem k v).us = s.us := rfl
@[simp] theorem setSem_mem (s : State) (k : Nat) (v : Sem) : (s.setSem k v).mem = s.mem := rfl
@[simp] theorem setSem_ecc (s : State) (k : Nat) (v : Sem) : (s.setSem k v).ecc = s.ecc := rfl
@[simp] theorem setSem_redq (s : State) (k : Nat) (v : Sem) : (s.setSem k v).redq = s.redq := rfl
@[simp] theorem setSem_reports (s : State) (k : Nat) (v : Sem) : (s.setSem k v).reports = s.reports := rfl
@[simp] theorem setSem_peerMem (s : State) (k : Nat) (v : Sem) : (s.setSem k v).peerMem = s.peerMem := rfl
@[simp] theorem setSem_peerRed (s : State) (k : Nat) (v : Sem) : (s.setSem k v).peerRed = s.peerRed := rfl
@[simp] theorem setSem_rows (s : State) (k : Nat) (v : Sem) : (s.setSem k v).rows = s.rows := rfl
@[simp] theorem setSem_empt (s : State) (k : Nat) (v : Sem) : (s.setSem k v).empt = s.empt := rfl
@[simp] theorem setSem_ctxs (s : State) (k : Nat) (v : Sem) : (s.setSem k v).ctxs = s.ctxs := rfl
@[simp] theorem setSem_tasks (s : State) (k : Nat) (v : Sem) : (s.setSem k v).tasks = s.tasks := rfl
@[simp] theorem setSem_launches (s : State) (k : Nat) (v : Sem) : (s.setSem k v).launches = s.launches := rfl
@[simp] theorem setSem_tenants (s : State) (k : Nat) (v : Sem) : (s.setSem k v).tenants = s.tenants := rfl
@[simp] theorem setSem_cls (s : State) (k : Nat) (v : Sem) : (s.setSem k v).cls = s.cls := rfl
@[simp] theorem setSem_sems (s : State) (k : Nat) (v : Sem) : (s.setSem k v).sems = smSet s.sems k v := rfl
@[simp] theorem setSem_semAway (s : State) (k : Nat) (v : Sem) : (s.setSem k v).semAway = s.semAway := rfl
@[simp] theorem setSem_chans (s : State) (k : Nat) (v : Sem) : (s.setSem k v).chans = s.chans := rfl
@[simp] theorem setSem_ringObjs (s : State) (k : Nat) (v : Sem) : (s.setSem k v).ringObjs = s.ringObjs := rfl
@[simp] theorem setSem_queues (s : State) (k : Nat) (v : Sem) : (s.setSem k v).queues = s.queues := rfl
@[simp] theorem setSem_mrings (s : State) (k : Nat) (v : Sem) : (s.setSem k v).mrings = s.mrings := rfl
@[simp] theorem setSem_subs (s : State) (k : Nat) (v : Sem) : (s.setSem k v).subs = s.subs := rfl
@[simp] theorem setSem_warm (s : State) (k : Nat) (v : Sem) : (s.setSem k v).warm = s.warm := rfl
@[simp] theorem setSem_walks (s : State) (k : Nat) (v : Sem) : (s.setSem k v).walks = s.walks := rfl
@[simp] theorem setSem_ttdir (s : State) (k : Nat) (v : Sem) : (s.setSem k v).ttdir = s.ttdir := rfl
@[simp] theorem setSem_comps (s : State) (k : Nat) (v : Sem) : (s.setSem k v).comps = s.comps := rfl
@[simp] theorem setSem_remotes (s : State) (k : Nat) (v : Sem) : (s.setSem k v).remotes = s.remotes := rfl
@[simp] theorem setSem_packets (s : State) (k : Nat) (v : Sem) : (s.setSem k v).packets = s.packets := rfl
@[simp] theorem setSem_peerMons (s : State) (k : Nat) (v : Sem) : (s.setSem k v).peerMons = s.peerMons := rfl
@[simp] theorem setSem_ports (s : State) (k : Nat) (v : Sem) : (s.setSem k v).ports = s.ports := rfl
@[simp] theorem setSem_seqs (s : State) (k : Nat) (v : Sem) : (s.setSem k v).seqs = s.seqs := rfl
@[simp] theorem setSem_transl (s : State) (k : Nat) (v : Sem) : (s.setSem k v).transl = s.transl := rfl
@[simp] theorem setSem_turns (s : State) (k : Nat) (v : Sem) : (s.setSem k v).turns = s.turns := rfl
@[simp] theorem setSem_servedLast (s : State) (k : Nat) (v : Sem) : (s.setSem k v).servedLast = s.servedLast := rfl
@[simp] theorem setSem_defs (s : State) (k : Nat) (v : Sem) : (s.setSem k v).defs = s.defs := rfl
@[simp] theorem setSem_turnLog (s : State) (k : Nat) (v : Sem) : (s.setSem k v).turnLog = s.turnLog := rfl
@[simp] theorem setSem_erases (s : State) (k : Nat) (v : Sem) : (s.setSem k v).erases = s.erases := rfl
@[simp] theorem setSem_filter (s : State) (k : Nat) (v : Sem) : (s.setSem k v).filter = s.filter := rfl
@[simp] theorem setSem_part (s : State) (k : Nat) (v : Sem) : (s.setSem k v).part = s.part := rfl
@[simp] theorem setSem_pf (s : State) (k : Nat) (v : Sem) : (s.setSem k v).pf = s.pf := rfl
@[simp] theorem setSem_outs (s : State) (k : Nat) (v : Sem) : (s.setSem k v).outs = s.outs := rfl
@[simp] theorem setSem_saved (s : State) (k : Nat) (v : Sem) : (s.setSem k v).saved = s.saved := rfl
@[simp] theorem setSem_hole (s : State) (k : Nat) (v : Sem) : (s.setSem k v).hole = s.hole := rfl

@[simp] theorem setChan_agenda (s : State) (k : Nat) (v : Chan) : (s.setChan k v).agenda = s.agenda := rfl
@[simp] theorem setChan_cur (s : State) (k : Nat) (v : Chan) : (s.setChan k v).cur = s.cur := rfl
@[simp] theorem setChan_curCl (s : State) (k : Nat) (v : Chan) : (s.setChan k v).curCl = s.curCl := rfl
@[simp] theorem setChan_ticks (s : State) (k : Nat) (v : Chan) : (s.setChan k v).ticks = s.ticks := rfl
@[simp] theorem setChan_freeCtr (s : State) (k : Nat) (v : Chan) : (s.setChan k v).freeCtr = s.freeCtr := rfl
@[simp] theorem setChan_nextId (s : State) (k : Nat) (v : Chan) : (s.setChan k v).nextId = s.nextId := rfl
@[simp] theorem setChan_mc (s : State) (k : Nat) (v : Chan) : (s.setChan k v).mc = s.mc := rfl
@[simp] theorem setChan_us (s : State) (k : Nat) (v : Chan) : (s.setChan k v).us = s.us := rfl
@[simp] theorem setChan_mem (s : State) (k : Nat) (v : Chan) : (s.setChan k v).mem = s.mem := rfl
@[simp] theorem setChan_ecc (s : State) (k : Nat) (v : Chan) : (s.setChan k v).ecc = s.ecc := rfl
@[simp] theorem setChan_redq (s : State) (k : Nat) (v : Chan) : (s.setChan k v).redq = s.redq := rfl
@[simp] theorem setChan_reports (s : State) (k : Nat) (v : Chan) : (s.setChan k v).reports = s.reports := rfl
@[simp] theorem setChan_peerMem (s : State) (k : Nat) (v : Chan) : (s.setChan k v).peerMem = s.peerMem := rfl
@[simp] theorem setChan_peerRed (s : State) (k : Nat) (v : Chan) : (s.setChan k v).peerRed = s.peerRed := rfl
@[simp] theorem setChan_rows (s : State) (k : Nat) (v : Chan) : (s.setChan k v).rows = s.rows := rfl
@[simp] theorem setChan_empt (s : State) (k : Nat) (v : Chan) : (s.setChan k v).empt = s.empt := rfl
@[simp] theorem setChan_ctxs (s : State) (k : Nat) (v : Chan) : (s.setChan k v).ctxs = s.ctxs := rfl
@[simp] theorem setChan_tasks (s : State) (k : Nat) (v : Chan) : (s.setChan k v).tasks = s.tasks := rfl
@[simp] theorem setChan_launches (s : State) (k : Nat) (v : Chan) : (s.setChan k v).launches = s.launches := rfl
@[simp] theorem setChan_tenants (s : State) (k : Nat) (v : Chan) : (s.setChan k v).tenants = s.tenants := rfl
@[simp] theorem setChan_cls (s : State) (k : Nat) (v : Chan) : (s.setChan k v).cls = s.cls := rfl
@[simp] theorem setChan_sems (s : State) (k : Nat) (v : Chan) : (s.setChan k v).sems = s.sems := rfl
@[simp] theorem setChan_semAway (s : State) (k : Nat) (v : Chan) : (s.setChan k v).semAway = s.semAway := rfl
@[simp] theorem setChan_chans (s : State) (k : Nat) (v : Chan) : (s.setChan k v).chans = smSet s.chans k v := rfl
@[simp] theorem setChan_ringObjs (s : State) (k : Nat) (v : Chan) : (s.setChan k v).ringObjs = s.ringObjs := rfl
@[simp] theorem setChan_queues (s : State) (k : Nat) (v : Chan) : (s.setChan k v).queues = s.queues := rfl
@[simp] theorem setChan_mrings (s : State) (k : Nat) (v : Chan) : (s.setChan k v).mrings = s.mrings := rfl
@[simp] theorem setChan_subs (s : State) (k : Nat) (v : Chan) : (s.setChan k v).subs = s.subs := rfl
@[simp] theorem setChan_warm (s : State) (k : Nat) (v : Chan) : (s.setChan k v).warm = s.warm := rfl
@[simp] theorem setChan_walks (s : State) (k : Nat) (v : Chan) : (s.setChan k v).walks = s.walks := rfl
@[simp] theorem setChan_ttdir (s : State) (k : Nat) (v : Chan) : (s.setChan k v).ttdir = s.ttdir := rfl
@[simp] theorem setChan_comps (s : State) (k : Nat) (v : Chan) : (s.setChan k v).comps = s.comps := rfl
@[simp] theorem setChan_remotes (s : State) (k : Nat) (v : Chan) : (s.setChan k v).remotes = s.remotes := rfl
@[simp] theorem setChan_packets (s : State) (k : Nat) (v : Chan) : (s.setChan k v).packets = s.packets := rfl
@[simp] theorem setChan_peerMons (s : State) (k : Nat) (v : Chan) : (s.setChan k v).peerMons = s.peerMons := rfl
@[simp] theorem setChan_ports (s : State) (k : Nat) (v : Chan) : (s.setChan k v).ports = s.ports := rfl
@[simp] theorem setChan_seqs (s : State) (k : Nat) (v : Chan) : (s.setChan k v).seqs = s.seqs := rfl
@[simp] theorem setChan_transl (s : State) (k : Nat) (v : Chan) : (s.setChan k v).transl = s.transl := rfl
@[simp] theorem setChan_turns (s : State) (k : Nat) (v : Chan) : (s.setChan k v).turns = s.turns := rfl
@[simp] theorem setChan_servedLast (s : State) (k : Nat) (v : Chan) : (s.setChan k v).servedLast = s.servedLast := rfl
@[simp] theorem setChan_defs (s : State) (k : Nat) (v : Chan) : (s.setChan k v).defs = s.defs := rfl
@[simp] theorem setChan_turnLog (s : State) (k : Nat) (v : Chan) : (s.setChan k v).turnLog = s.turnLog := rfl
@[simp] theorem setChan_erases (s : State) (k : Nat) (v : Chan) : (s.setChan k v).erases = s.erases := rfl
@[simp] theorem setChan_filter (s : State) (k : Nat) (v : Chan) : (s.setChan k v).filter = s.filter := rfl
@[simp] theorem setChan_part (s : State) (k : Nat) (v : Chan) : (s.setChan k v).part = s.part := rfl
@[simp] theorem setChan_pf (s : State) (k : Nat) (v : Chan) : (s.setChan k v).pf = s.pf := rfl
@[simp] theorem setChan_outs (s : State) (k : Nat) (v : Chan) : (s.setChan k v).outs = s.outs := rfl
@[simp] theorem setChan_saved (s : State) (k : Nat) (v : Chan) : (s.setChan k v).saved = s.saved := rfl
@[simp] theorem setChan_hole (s : State) (k : Nat) (v : Chan) : (s.setChan k v).hole = s.hole := rfl

@[simp] theorem setRing_agenda (s : State) (k : Nat) (v : RingObj) : (s.setRing k v).agenda = s.agenda := rfl
@[simp] theorem setRing_cur (s : State) (k : Nat) (v : RingObj) : (s.setRing k v).cur = s.cur := rfl
@[simp] theorem setRing_curCl (s : State) (k : Nat) (v : RingObj) : (s.setRing k v).curCl = s.curCl := rfl
@[simp] theorem setRing_ticks (s : State) (k : Nat) (v : RingObj) : (s.setRing k v).ticks = s.ticks := rfl
@[simp] theorem setRing_freeCtr (s : State) (k : Nat) (v : RingObj) : (s.setRing k v).freeCtr = s.freeCtr := rfl
@[simp] theorem setRing_nextId (s : State) (k : Nat) (v : RingObj) : (s.setRing k v).nextId = s.nextId := rfl
@[simp] theorem setRing_mc (s : State) (k : Nat) (v : RingObj) : (s.setRing k v).mc = s.mc := rfl
@[simp] theorem setRing_us (s : State) (k : Nat) (v : RingObj) : (s.setRing k v).us = s.us := rfl
@[simp] theorem setRing_mem (s : State) (k : Nat) (v : RingObj) : (s.setRing k v).mem = s.mem := rfl
@[simp] theorem setRing_ecc (s : State) (k : Nat) (v : RingObj) : (s.setRing k v).ecc = s.ecc := rfl
@[simp] theorem setRing_redq (s : State) (k : Nat) (v : RingObj) : (s.setRing k v).redq = s.redq := rfl
@[simp] theorem setRing_reports (s : State) (k : Nat) (v : RingObj) : (s.setRing k v).reports = s.reports := rfl
@[simp] theorem setRing_peerMem (s : State) (k : Nat) (v : RingObj) : (s.setRing k v).peerMem = s.peerMem := rfl
@[simp] theorem setRing_peerRed (s : State) (k : Nat) (v : RingObj) : (s.setRing k v).peerRed = s.peerRed := rfl
@[simp] theorem setRing_rows (s : State) (k : Nat) (v : RingObj) : (s.setRing k v).rows = s.rows := rfl
@[simp] theorem setRing_empt (s : State) (k : Nat) (v : RingObj) : (s.setRing k v).empt = s.empt := rfl
@[simp] theorem setRing_ctxs (s : State) (k : Nat) (v : RingObj) : (s.setRing k v).ctxs = s.ctxs := rfl
@[simp] theorem setRing_tasks (s : State) (k : Nat) (v : RingObj) : (s.setRing k v).tasks = s.tasks := rfl
@[simp] theorem setRing_launches (s : State) (k : Nat) (v : RingObj) : (s.setRing k v).launches = s.launches := rfl
@[simp] theorem setRing_tenants (s : State) (k : Nat) (v : RingObj) : (s.setRing k v).tenants = s.tenants := rfl
@[simp] theorem setRing_cls (s : State) (k : Nat) (v : RingObj) : (s.setRing k v).cls = s.cls := rfl
@[simp] theorem setRing_sems (s : State) (k : Nat) (v : RingObj) : (s.setRing k v).sems = s.sems := rfl
@[simp] theorem setRing_semAway (s : State) (k : Nat) (v : RingObj) : (s.setRing k v).semAway = s.semAway := rfl
@[simp] theorem setRing_chans (s : State) (k : Nat) (v : RingObj) : (s.setRing k v).chans = s.chans := rfl
@[simp] theorem setRing_ringObjs (s : State) (k : Nat) (v : RingObj) : (s.setRing k v).ringObjs = smSet s.ringObjs k v := rfl
@[simp] theorem setRing_queues (s : State) (k : Nat) (v : RingObj) : (s.setRing k v).queues = s.queues := rfl
@[simp] theorem setRing_mrings (s : State) (k : Nat) (v : RingObj) : (s.setRing k v).mrings = s.mrings := rfl
@[simp] theorem setRing_subs (s : State) (k : Nat) (v : RingObj) : (s.setRing k v).subs = s.subs := rfl
@[simp] theorem setRing_warm (s : State) (k : Nat) (v : RingObj) : (s.setRing k v).warm = s.warm := rfl
@[simp] theorem setRing_walks (s : State) (k : Nat) (v : RingObj) : (s.setRing k v).walks = s.walks := rfl
@[simp] theorem setRing_ttdir (s : State) (k : Nat) (v : RingObj) : (s.setRing k v).ttdir = s.ttdir := rfl
@[simp] theorem setRing_comps (s : State) (k : Nat) (v : RingObj) : (s.setRing k v).comps = s.comps := rfl
@[simp] theorem setRing_remotes (s : State) (k : Nat) (v : RingObj) : (s.setRing k v).remotes = s.remotes := rfl
@[simp] theorem setRing_packets (s : State) (k : Nat) (v : RingObj) : (s.setRing k v).packets = s.packets := rfl
@[simp] theorem setRing_peerMons (s : State) (k : Nat) (v : RingObj) : (s.setRing k v).peerMons = s.peerMons := rfl
@[simp] theorem setRing_ports (s : State) (k : Nat) (v : RingObj) : (s.setRing k v).ports = s.ports := rfl
@[simp] theorem setRing_seqs (s : State) (k : Nat) (v : RingObj) : (s.setRing k v).seqs = s.seqs := rfl
@[simp] theorem setRing_transl (s : State) (k : Nat) (v : RingObj) : (s.setRing k v).transl = s.transl := rfl
@[simp] theorem setRing_turns (s : State) (k : Nat) (v : RingObj) : (s.setRing k v).turns = s.turns := rfl
@[simp] theorem setRing_servedLast (s : State) (k : Nat) (v : RingObj) : (s.setRing k v).servedLast = s.servedLast := rfl
@[simp] theorem setRing_defs (s : State) (k : Nat) (v : RingObj) : (s.setRing k v).defs = s.defs := rfl
@[simp] theorem setRing_turnLog (s : State) (k : Nat) (v : RingObj) : (s.setRing k v).turnLog = s.turnLog := rfl
@[simp] theorem setRing_erases (s : State) (k : Nat) (v : RingObj) : (s.setRing k v).erases = s.erases := rfl
@[simp] theorem setRing_filter (s : State) (k : Nat) (v : RingObj) : (s.setRing k v).filter = s.filter := rfl
@[simp] theorem setRing_part (s : State) (k : Nat) (v : RingObj) : (s.setRing k v).part = s.part := rfl
@[simp] theorem setRing_pf (s : State) (k : Nat) (v : RingObj) : (s.setRing k v).pf = s.pf := rfl
@[simp] theorem setRing_outs (s : State) (k : Nat) (v : RingObj) : (s.setRing k v).outs = s.outs := rfl
@[simp] theorem setRing_saved (s : State) (k : Nat) (v : RingObj) : (s.setRing k v).saved = s.saved := rfl
@[simp] theorem setRing_hole (s : State) (k : Nat) (v : RingObj) : (s.setRing k v).hole = s.hole := rfl

@[simp] theorem setQueue_agenda (s : State) (k : Nat) (v : Queue) : (s.setQueue k v).agenda = s.agenda := rfl
@[simp] theorem setQueue_cur (s : State) (k : Nat) (v : Queue) : (s.setQueue k v).cur = s.cur := rfl
@[simp] theorem setQueue_curCl (s : State) (k : Nat) (v : Queue) : (s.setQueue k v).curCl = s.curCl := rfl
@[simp] theorem setQueue_ticks (s : State) (k : Nat) (v : Queue) : (s.setQueue k v).ticks = s.ticks := rfl
@[simp] theorem setQueue_freeCtr (s : State) (k : Nat) (v : Queue) : (s.setQueue k v).freeCtr = s.freeCtr := rfl
@[simp] theorem setQueue_nextId (s : State) (k : Nat) (v : Queue) : (s.setQueue k v).nextId = s.nextId := rfl
@[simp] theorem setQueue_mc (s : State) (k : Nat) (v : Queue) : (s.setQueue k v).mc = s.mc := rfl
@[simp] theorem setQueue_us (s : State) (k : Nat) (v : Queue) : (s.setQueue k v).us = s.us := rfl
@[simp] theorem setQueue_mem (s : State) (k : Nat) (v : Queue) : (s.setQueue k v).mem = s.mem := rfl
@[simp] theorem setQueue_ecc (s : State) (k : Nat) (v : Queue) : (s.setQueue k v).ecc = s.ecc := rfl
@[simp] theorem setQueue_redq (s : State) (k : Nat) (v : Queue) : (s.setQueue k v).redq = s.redq := rfl
@[simp] theorem setQueue_reports (s : State) (k : Nat) (v : Queue) : (s.setQueue k v).reports = s.reports := rfl
@[simp] theorem setQueue_peerMem (s : State) (k : Nat) (v : Queue) : (s.setQueue k v).peerMem = s.peerMem := rfl
@[simp] theorem setQueue_peerRed (s : State) (k : Nat) (v : Queue) : (s.setQueue k v).peerRed = s.peerRed := rfl
@[simp] theorem setQueue_rows (s : State) (k : Nat) (v : Queue) : (s.setQueue k v).rows = s.rows := rfl
@[simp] theorem setQueue_empt (s : State) (k : Nat) (v : Queue) : (s.setQueue k v).empt = s.empt := rfl
@[simp] theorem setQueue_ctxs (s : State) (k : Nat) (v : Queue) : (s.setQueue k v).ctxs = s.ctxs := rfl
@[simp] theorem setQueue_tasks (s : State) (k : Nat) (v : Queue) : (s.setQueue k v).tasks = s.tasks := rfl
@[simp] theorem setQueue_launches (s : State) (k : Nat) (v : Queue) : (s.setQueue k v).launches = s.launches := rfl
@[simp] theorem setQueue_tenants (s : State) (k : Nat) (v : Queue) : (s.setQueue k v).tenants = s.tenants := rfl
@[simp] theorem setQueue_cls (s : State) (k : Nat) (v : Queue) : (s.setQueue k v).cls = s.cls := rfl
@[simp] theorem setQueue_sems (s : State) (k : Nat) (v : Queue) : (s.setQueue k v).sems = s.sems := rfl
@[simp] theorem setQueue_semAway (s : State) (k : Nat) (v : Queue) : (s.setQueue k v).semAway = s.semAway := rfl
@[simp] theorem setQueue_chans (s : State) (k : Nat) (v : Queue) : (s.setQueue k v).chans = s.chans := rfl
@[simp] theorem setQueue_ringObjs (s : State) (k : Nat) (v : Queue) : (s.setQueue k v).ringObjs = s.ringObjs := rfl
@[simp] theorem setQueue_queues (s : State) (k : Nat) (v : Queue) : (s.setQueue k v).queues = smSet s.queues k v := rfl
@[simp] theorem setQueue_mrings (s : State) (k : Nat) (v : Queue) : (s.setQueue k v).mrings = s.mrings := rfl
@[simp] theorem setQueue_subs (s : State) (k : Nat) (v : Queue) : (s.setQueue k v).subs = s.subs := rfl
@[simp] theorem setQueue_warm (s : State) (k : Nat) (v : Queue) : (s.setQueue k v).warm = s.warm := rfl
@[simp] theorem setQueue_walks (s : State) (k : Nat) (v : Queue) : (s.setQueue k v).walks = s.walks := rfl
@[simp] theorem setQueue_ttdir (s : State) (k : Nat) (v : Queue) : (s.setQueue k v).ttdir = s.ttdir := rfl
@[simp] theorem setQueue_comps (s : State) (k : Nat) (v : Queue) : (s.setQueue k v).comps = s.comps := rfl
@[simp] theorem setQueue_remotes (s : State) (k : Nat) (v : Queue) : (s.setQueue k v).remotes = s.remotes := rfl
@[simp] theorem setQueue_packets (s : State) (k : Nat) (v : Queue) : (s.setQueue k v).packets = s.packets := rfl
@[simp] theorem setQueue_peerMons (s : State) (k : Nat) (v : Queue) : (s.setQueue k v).peerMons = s.peerMons := rfl
@[simp] theorem setQueue_ports (s : State) (k : Nat) (v : Queue) : (s.setQueue k v).ports = s.ports := rfl
@[simp] theorem setQueue_seqs (s : State) (k : Nat) (v : Queue) : (s.setQueue k v).seqs = s.seqs := rfl
@[simp] theorem setQueue_transl (s : State) (k : Nat) (v : Queue) : (s.setQueue k v).transl = s.transl := rfl
@[simp] theorem setQueue_turns (s : State) (k : Nat) (v : Queue) : (s.setQueue k v).turns = s.turns := rfl
@[simp] theorem setQueue_servedLast (s : State) (k : Nat) (v : Queue) : (s.setQueue k v).servedLast = s.servedLast := rfl
@[simp] theorem setQueue_defs (s : State) (k : Nat) (v : Queue) : (s.setQueue k v).defs = s.defs := rfl
@[simp] theorem setQueue_turnLog (s : State) (k : Nat) (v : Queue) : (s.setQueue k v).turnLog = s.turnLog := rfl
@[simp] theorem setQueue_erases (s : State) (k : Nat) (v : Queue) : (s.setQueue k v).erases = s.erases := rfl
@[simp] theorem setQueue_filter (s : State) (k : Nat) (v : Queue) : (s.setQueue k v).filter = s.filter := rfl
@[simp] theorem setQueue_part (s : State) (k : Nat) (v : Queue) : (s.setQueue k v).part = s.part := rfl
@[simp] theorem setQueue_pf (s : State) (k : Nat) (v : Queue) : (s.setQueue k v).pf = s.pf := rfl
@[simp] theorem setQueue_outs (s : State) (k : Nat) (v : Queue) : (s.setQueue k v).outs = s.outs := rfl
@[simp] theorem setQueue_saved (s : State) (k : Nat) (v : Queue) : (s.setQueue k v).saved = s.saved := rfl
@[simp] theorem setQueue_hole (s : State) (k : Nat) (v : Queue) : (s.setQueue k v).hole = s.hole := rfl

@[simp] theorem setSub_agenda (s : State) (k : Nat) (v : Sub) : (s.setSub k v).agenda = s.agenda := rfl
@[simp] theorem setSub_cur (s : State) (k : Nat) (v : Sub) : (s.setSub k v).cur = s.cur := rfl
@[simp] theorem setSub_curCl (s : State) (k : Nat) (v : Sub) : (s.setSub k v).curCl = s.curCl := rfl
@[simp] theorem setSub_ticks (s : State) (k : Nat) (v : Sub) : (s.setSub k v).ticks = s.ticks := rfl
@[simp] theorem setSub_freeCtr (s : State) (k : Nat) (v : Sub) : (s.setSub k v).freeCtr = s.freeCtr := rfl
@[simp] theorem setSub_nextId (s : State) (k : Nat) (v : Sub) : (s.setSub k v).nextId = s.nextId := rfl
@[simp] theorem setSub_mc (s : State) (k : Nat) (v : Sub) : (s.setSub k v).mc = s.mc := rfl
@[simp] theorem setSub_us (s : State) (k : Nat) (v : Sub) : (s.setSub k v).us = s.us := rfl
@[simp] theorem setSub_mem (s : State) (k : Nat) (v : Sub) : (s.setSub k v).mem = s.mem := rfl
@[simp] theorem setSub_ecc (s : State) (k : Nat) (v : Sub) : (s.setSub k v).ecc = s.ecc := rfl
@[simp] theorem setSub_redq (s : State) (k : Nat) (v : Sub) : (s.setSub k v).redq = s.redq := rfl
@[simp] theorem setSub_reports (s : State) (k : Nat) (v : Sub) : (s.setSub k v).reports = s.reports := rfl
@[simp] theorem setSub_peerMem (s : State) (k : Nat) (v : Sub) : (s.setSub k v).peerMem = s.peerMem := rfl
@[simp] theorem setSub_peerRed (s : State) (k : Nat) (v : Sub) : (s.setSub k v).peerRed = s.peerRed := rfl
@[simp] theorem setSub_rows (s : State) (k : Nat) (v : Sub) : (s.setSub k v).rows = s.rows := rfl
@[simp] theorem setSub_empt (s : State) (k : Nat) (v : Sub) : (s.setSub k v).empt = s.empt := rfl
@[simp] theorem setSub_ctxs (s : State) (k : Nat) (v : Sub) : (s.setSub k v).ctxs = s.ctxs := rfl
@[simp] theorem setSub_tasks (s : State) (k : Nat) (v : Sub) : (s.setSub k v).tasks = s.tasks := rfl
@[simp] theorem setSub_launches (s : State) (k : Nat) (v : Sub) : (s.setSub k v).launches = s.launches := rfl
@[simp] theorem setSub_tenants (s : State) (k : Nat) (v : Sub) : (s.setSub k v).tenants = s.tenants := rfl
@[simp] theorem setSub_cls (s : State) (k : Nat) (v : Sub) : (s.setSub k v).cls = s.cls := rfl
@[simp] theorem setSub_sems (s : State) (k : Nat) (v : Sub) : (s.setSub k v).sems = s.sems := rfl
@[simp] theorem setSub_semAway (s : State) (k : Nat) (v : Sub) : (s.setSub k v).semAway = s.semAway := rfl
@[simp] theorem setSub_chans (s : State) (k : Nat) (v : Sub) : (s.setSub k v).chans = s.chans := rfl
@[simp] theorem setSub_ringObjs (s : State) (k : Nat) (v : Sub) : (s.setSub k v).ringObjs = s.ringObjs := rfl
@[simp] theorem setSub_queues (s : State) (k : Nat) (v : Sub) : (s.setSub k v).queues = s.queues := rfl
@[simp] theorem setSub_mrings (s : State) (k : Nat) (v : Sub) : (s.setSub k v).mrings = s.mrings := rfl
@[simp] theorem setSub_subs (s : State) (k : Nat) (v : Sub) : (s.setSub k v).subs = smSet s.subs k v := rfl
@[simp] theorem setSub_warm (s : State) (k : Nat) (v : Sub) : (s.setSub k v).warm = s.warm := rfl
@[simp] theorem setSub_walks (s : State) (k : Nat) (v : Sub) : (s.setSub k v).walks = s.walks := rfl
@[simp] theorem setSub_ttdir (s : State) (k : Nat) (v : Sub) : (s.setSub k v).ttdir = s.ttdir := rfl
@[simp] theorem setSub_comps (s : State) (k : Nat) (v : Sub) : (s.setSub k v).comps = s.comps := rfl
@[simp] theorem setSub_remotes (s : State) (k : Nat) (v : Sub) : (s.setSub k v).remotes = s.remotes := rfl
@[simp] theorem setSub_packets (s : State) (k : Nat) (v : Sub) : (s.setSub k v).packets = s.packets := rfl
@[simp] theorem setSub_peerMons (s : State) (k : Nat) (v : Sub) : (s.setSub k v).peerMons = s.peerMons := rfl
@[simp] theorem setSub_ports (s : State) (k : Nat) (v : Sub) : (s.setSub k v).ports = s.ports := rfl
@[simp] theorem setSub_seqs (s : State) (k : Nat) (v : Sub) : (s.setSub k v).seqs = s.seqs := rfl
@[simp] theorem setSub_transl (s : State) (k : Nat) (v : Sub) : (s.setSub k v).transl = s.transl := rfl
@[simp] theorem setSub_turns (s : State) (k : Nat) (v : Sub) : (s.setSub k v).turns = s.turns := rfl
@[simp] theorem setSub_servedLast (s : State) (k : Nat) (v : Sub) : (s.setSub k v).servedLast = s.servedLast := rfl
@[simp] theorem setSub_defs (s : State) (k : Nat) (v : Sub) : (s.setSub k v).defs = s.defs := rfl
@[simp] theorem setSub_turnLog (s : State) (k : Nat) (v : Sub) : (s.setSub k v).turnLog = s.turnLog := rfl
@[simp] theorem setSub_erases (s : State) (k : Nat) (v : Sub) : (s.setSub k v).erases = s.erases := rfl
@[simp] theorem setSub_filter (s : State) (k : Nat) (v : Sub) : (s.setSub k v).filter = s.filter := rfl
@[simp] theorem setSub_part (s : State) (k : Nat) (v : Sub) : (s.setSub k v).part = s.part := rfl
@[simp] theorem setSub_pf (s : State) (k : Nat) (v : Sub) : (s.setSub k v).pf = s.pf := rfl
@[simp] theorem setSub_outs (s : State) (k : Nat) (v : Sub) : (s.setSub k v).outs = s.outs := rfl
@[simp] theorem setSub_saved (s : State) (k : Nat) (v : Sub) : (s.setSub k v).saved = s.saved := rfl
@[simp] theorem setSub_hole (s : State) (k : Nat) (v : Sub) : (s.setSub k v).hole = s.hole := rfl

@[simp] theorem emit_agenda (s : State) (o : Out) : (s.emit o).agenda = s.agenda := rfl
@[simp] theorem emit_cur (s : State) (o : Out) : (s.emit o).cur = s.cur := rfl
@[simp] theorem emit_curCl (s : State) (o : Out) : (s.emit o).curCl = s.curCl := rfl
@[simp] theorem emit_ticks (s : State) (o : Out) : (s.emit o).ticks = s.ticks := rfl
@[simp] theorem emit_freeCtr (s : State) (o : Out) : (s.emit o).freeCtr = s.freeCtr := rfl
@[simp] theorem emit_nextId (s : State) (o : Out) : (s.emit o).nextId = s.nextId := rfl
@[simp] theorem emit_mc (s : State) (o : Out) : (s.emit o).mc = s.mc := rfl
@[simp] theorem emit_us (s : State) (o : Out) : (s.emit o).us = s.us := rfl
@[simp] theorem emit_mem (s : State) (o : Out) : (s.emit o).mem = s.mem := rfl
@[simp] theorem emit_ecc (s : State) (o : Out) : (s.emit o).ecc = s.ecc := rfl
@[simp] theorem emit_redq (s : State) (o : Out) : (s.emit o).redq = s.redq := rfl
@[simp] theorem emit_reports (s : State) (o : Out) : (s.emit o).reports = s.reports := rfl
@[simp] theorem emit_peerMem (s : State) (o : Out) : (s.emit o).peerMem = s.peerMem := rfl
@[simp] theorem emit_peerRed (s : State) (o : Out) : (s.emit o).peerRed = s.peerRed := rfl
@[simp] theorem emit_rows (s : State) (o : Out) : (s.emit o).rows = s.rows := rfl
@[simp] theorem emit_empt (s : State) (o : Out) : (s.emit o).empt = s.empt := rfl
@[simp] theorem emit_ctxs (s : State) (o : Out) : (s.emit o).ctxs = s.ctxs := rfl
@[simp] theorem emit_tasks (s : State) (o : Out) : (s.emit o).tasks = s.tasks := rfl
@[simp] theorem emit_launches (s : State) (o : Out) : (s.emit o).launches = s.launches := rfl
@[simp] theorem emit_tenants (s : State) (o : Out) : (s.emit o).tenants = s.tenants := rfl
@[simp] theorem emit_cls (s : State) (o : Out) : (s.emit o).cls = s.cls := rfl
@[simp] theorem emit_sems (s : State) (o : Out) : (s.emit o).sems = s.sems := rfl
@[simp] theorem emit_chans (s : State) (o : Out) : (s.emit o).chans = s.chans := rfl
@[simp] theorem emit_ringObjs (s : State) (o : Out) : (s.emit o).ringObjs = s.ringObjs := rfl
@[simp] theorem emit_queues (s : State) (o : Out) : (s.emit o).queues = s.queues := rfl
@[simp] theorem emit_mrings (s : State) (o : Out) : (s.emit o).mrings = s.mrings := rfl
@[simp] theorem emit_subs (s : State) (o : Out) : (s.emit o).subs = s.subs := rfl
@[simp] theorem emit_warm (s : State) (o : Out) : (s.emit o).warm = s.warm := rfl
@[simp] theorem emit_walks (s : State) (o : Out) : (s.emit o).walks = s.walks := rfl
@[simp] theorem emit_ttdir (s : State) (o : Out) : (s.emit o).ttdir = s.ttdir := rfl
@[simp] theorem emit_comps (s : State) (o : Out) : (s.emit o).comps = s.comps := rfl
@[simp] theorem emit_remotes (s : State) (o : Out) : (s.emit o).remotes = s.remotes := rfl
@[simp] theorem emit_packets (s : State) (o : Out) : (s.emit o).packets = s.packets := rfl
@[simp] theorem emit_seqs (s : State) (o : Out) : (s.emit o).seqs = s.seqs := rfl
@[simp] theorem emit_transl (s : State) (o : Out) : (s.emit o).transl = s.transl := rfl
@[simp] theorem emit_turns (s : State) (o : Out) : (s.emit o).turns = s.turns := rfl
@[simp] theorem emit_servedLast (s : State) (o : Out) : (s.emit o).servedLast = s.servedLast := rfl
@[simp] theorem emit_defs (s : State) (o : Out) : (s.emit o).defs = s.defs := rfl
@[simp] theorem emit_turnLog (s : State) (o : Out) : (s.emit o).turnLog = s.turnLog := rfl
@[simp] theorem emit_erases (s : State) (o : Out) : (s.emit o).erases = s.erases := rfl
@[simp] theorem emit_filter (s : State) (o : Out) : (s.emit o).filter = s.filter := rfl
@[simp] theorem emit_part (s : State) (o : Out) : (s.emit o).part = s.part := rfl
@[simp] theorem emit_pf (s : State) (o : Out) : (s.emit o).pf = s.pf := rfl
@[simp] theorem emit_outs (s : State) (o : Out) : (s.emit o).outs = s.outs ++ [o] := rfl
@[simp] theorem emit_saved (s : State) (o : Out) : (s.emit o).saved = s.saved := rfl
@[simp] theorem emit_hole (s : State) (o : Out) : (s.emit o).hole = s.hole := rfl

@[simp] theorem setLane_agenda (s : State) (c : Ctx) (r l : Nat) (v : W32) : (s.setLane c r l v).agenda = s.agenda := rfl
@[simp] theorem setLane_cur (s : State) (c : Ctx) (r l : Nat) (v : W32) : (s.setLane c r l v).cur = s.cur := rfl
@[simp] theorem setLane_curCl (s : State) (c : Ctx) (r l : Nat) (v : W32) : (s.setLane c r l v).curCl = s.curCl := rfl
@[simp] theorem setLane_ticks (s : State) (c : Ctx) (r l : Nat) (v : W32) : (s.setLane c r l v).ticks = s.ticks := rfl
@[simp] theorem setLane_freeCtr (s : State) (c : Ctx) (r l : Nat) (v : W32) : (s.setLane c r l v).freeCtr = s.freeCtr := rfl
@[simp] theorem setLane_nextId (s : State) (c : Ctx) (r l : Nat) (v : W32) : (s.setLane c r l v).nextId = s.nextId := rfl
@[simp] theorem setLane_mc (s : State) (c : Ctx) (r l : Nat) (v : W32) : (s.setLane c r l v).mc = s.mc := rfl
@[simp] theorem setLane_us (s : State) (c : Ctx) (r l : Nat) (v : W32) : (s.setLane c r l v).us = s.us := rfl
@[simp] theorem setLane_mem (s : State) (c : Ctx) (r l : Nat) (v : W32) : (s.setLane c r l v).mem = s.mem := rfl
@[simp] theorem setLane_ecc (s : State) (c : Ctx) (r l : Nat) (v : W32) : (s.setLane c r l v).ecc = s.ecc := rfl
@[simp] theorem setLane_redq (s : State) (c : Ctx) (r l : Nat) (v : W32) : (s.setLane c r l v).redq = s.redq := rfl
@[simp] theorem setLane_reports (s : State) (c : Ctx) (r l : Nat) (v : W32) : (s.setLane c r l v).reports = s.reports := rfl
@[simp] theorem setLane_peerMem (s : State) (c : Ctx) (r l : Nat) (v : W32) : (s.setLane c r l v).peerMem = s.peerMem := rfl
@[simp] theorem setLane_peerRed (s : State) (c : Ctx) (r l : Nat) (v : W32) : (s.setLane c r l v).peerRed = s.peerRed := rfl
@[simp] theorem setLane_rows (s : State) (c : Ctx) (r l : Nat) (v : W32) : (s.setLane c r l v).rows = smSet s.rows (c.laneKey r l) v := rfl
@[simp] theorem setLane_empt (s : State) (c : Ctx) (r l : Nat) (v : W32) : (s.setLane c r l v).empt = s.empt := rfl
@[simp] theorem setLane_ctxs (s : State) (c : Ctx) (r l : Nat) (v : W32) : (s.setLane c r l v).ctxs = s.ctxs := rfl
@[simp] theorem setLane_tasks (s : State) (c : Ctx) (r l : Nat) (v : W32) : (s.setLane c r l v).tasks = s.tasks := rfl
@[simp] theorem setLane_launches (s : State) (c : Ctx) (r l : Nat) (v : W32) : (s.setLane c r l v).launches = s.launches := rfl
@[simp] theorem setLane_tenants (s : State) (c : Ctx) (r l : Nat) (v : W32) : (s.setLane c r l v).tenants = s.tenants := rfl
@[simp] theorem setLane_cls (s : State) (c : Ctx) (r l : Nat) (v : W32) : (s.setLane c r l v).cls = s.cls := rfl
@[simp] theorem setLane_sems (s : State) (c : Ctx) (r l : Nat) (v : W32) : (s.setLane c r l v).sems = s.sems := rfl
@[simp] theorem setLane_semAway (s : State) (c : Ctx) (r l : Nat) (v : W32) : (s.setLane c r l v).semAway = s.semAway := rfl
@[simp] theorem setLane_chans (s : State) (c : Ctx) (r l : Nat) (v : W32) : (s.setLane c r l v).chans = s.chans := rfl
@[simp] theorem setLane_ringObjs (s : State) (c : Ctx) (r l : Nat) (v : W32) : (s.setLane c r l v).ringObjs = s.ringObjs := rfl
@[simp] theorem setLane_queues (s : State) (c : Ctx) (r l : Nat) (v : W32) : (s.setLane c r l v).queues = s.queues := rfl
@[simp] theorem setLane_mrings (s : State) (c : Ctx) (r l : Nat) (v : W32) : (s.setLane c r l v).mrings = s.mrings := rfl
@[simp] theorem setLane_subs (s : State) (c : Ctx) (r l : Nat) (v : W32) : (s.setLane c r l v).subs = s.subs := rfl
@[simp] theorem setLane_warm (s : State) (c : Ctx) (r l : Nat) (v : W32) : (s.setLane c r l v).warm = s.warm := rfl
@[simp] theorem setLane_walks (s : State) (c : Ctx) (r l : Nat) (v : W32) : (s.setLane c r l v).walks = s.walks := rfl
@[simp] theorem setLane_ttdir (s : State) (c : Ctx) (r l : Nat) (v : W32) : (s.setLane c r l v).ttdir = s.ttdir := rfl
@[simp] theorem setLane_comps (s : State) (c : Ctx) (r l : Nat) (v : W32) : (s.setLane c r l v).comps = s.comps := rfl
@[simp] theorem setLane_remotes (s : State) (c : Ctx) (r l : Nat) (v : W32) : (s.setLane c r l v).remotes = s.remotes := rfl
@[simp] theorem setLane_packets (s : State) (c : Ctx) (r l : Nat) (v : W32) : (s.setLane c r l v).packets = s.packets := rfl
@[simp] theorem setLane_peerMons (s : State) (c : Ctx) (r l : Nat) (v : W32) : (s.setLane c r l v).peerMons = s.peerMons := rfl
@[simp] theorem setLane_ports (s : State) (c : Ctx) (r l : Nat) (v : W32) : (s.setLane c r l v).ports = s.ports := rfl
@[simp] theorem setLane_seqs (s : State) (c : Ctx) (r l : Nat) (v : W32) : (s.setLane c r l v).seqs = s.seqs := rfl
@[simp] theorem setLane_transl (s : State) (c : Ctx) (r l : Nat) (v : W32) : (s.setLane c r l v).transl = s.transl := rfl
@[simp] theorem setLane_turns (s : State) (c : Ctx) (r l : Nat) (v : W32) : (s.setLane c r l v).turns = s.turns := rfl
@[simp] theorem setLane_servedLast (s : State) (c : Ctx) (r l : Nat) (v : W32) : (s.setLane c r l v).servedLast = s.servedLast := rfl
@[simp] theorem setLane_defs (s : State) (c : Ctx) (r l : Nat) (v : W32) : (s.setLane c r l v).defs = s.defs := rfl
@[simp] theorem setLane_turnLog (s : State) (c : Ctx) (r l : Nat) (v : W32) : (s.setLane c r l v).turnLog = s.turnLog := rfl
@[simp] theorem setLane_erases (s : State) (c : Ctx) (r l : Nat) (v : W32) : (s.setLane c r l v).erases = s.erases := rfl
@[simp] theorem setLane_filter (s : State) (c : Ctx) (r l : Nat) (v : W32) : (s.setLane c r l v).filter = s.filter := rfl
@[simp] theorem setLane_part (s : State) (c : Ctx) (r l : Nat) (v : W32) : (s.setLane c r l v).part = s.part := rfl
@[simp] theorem setLane_pf (s : State) (c : Ctx) (r l : Nat) (v : W32) : (s.setLane c r l v).pf = s.pf := rfl
@[simp] theorem setLane_outs (s : State) (c : Ctx) (r l : Nat) (v : W32) : (s.setLane c r l v).outs = s.outs := rfl
@[simp] theorem setLane_saved (s : State) (c : Ctx) (r l : Nat) (v : W32) : (s.setLane c r l v).saved = s.saved := rfl
@[simp] theorem setLane_hole (s : State) (c : Ctx) (r l : Nat) (v : W32) : (s.setLane c r l v).hole = s.hole := rfl

/-! Parts read back. -/

theorem ctx_setCtx (s : State) (k : Nat) (v : Ctx) (j : Nat) : (s.setCtx k v).ctx j = if j = k then v else s.ctx j := smGet_smSet _ _ _ _ _
@[simp] theorem ctx_setCtx_self (s : State) (k : Nat) (v : Ctx) : (s.setCtx k v).ctx k = v := smGet_smSet_self _ _ _ _
theorem task_setTask (s : State) (k : Nat) (v : Task) (j : Nat) : (s.setTask k v).task j = if j = k then v else s.task j := smGet_smSet _ _ _ _ _
@[simp] theorem task_setTask_self (s : State) (k : Nat) (v : Task) : (s.setTask k v).task k = v := smGet_smSet_self _ _ _ _
theorem tenant_setTenant (s : State) (k : Nat) (v : Tenant) (j : Nat) : (s.setTenant k v).tenant j = if j = k then v else s.tenant j := smGet_smSet _ _ _ _ _
@[simp] theorem tenant_setTenant_self (s : State) (k : Nat) (v : Tenant) : (s.setTenant k v).tenant k = v := smGet_smSet_self _ _ _ _
theorem launch_setLaunch (s : State) (k : Nat) (v : Launch) (j : Nat) : (s.setLaunch k v).launch j = if j = k then v else s.launch j := smGet_smSet _ _ _ _ _
@[simp] theorem launch_setLaunch_self (s : State) (k : Nat) (v : Launch) : (s.setLaunch k v).launch k = v := smGet_smSet_self _ _ _ _
theorem cl_setCl (s : State) (k : Nat) (v : Cluster) (j : Nat) : (s.setCl k v).cl j = if j = k then v else s.cl j := smGet_smSet _ _ _ _ _
@[simp] theorem cl_setCl_self (s : State) (k : Nat) (v : Cluster) : (s.setCl k v).cl k = v := smGet_smSet_self _ _ _ _
theorem sem_setSem (s : State) (k : Nat) (v : Sem) (j : Nat) : (s.setSem k v).sem j = if j = k then v else s.sem j := smGet_smSet _ _ _ _ _
@[simp] theorem sem_setSem_self (s : State) (k : Nat) (v : Sem) : (s.setSem k v).sem k = v := smGet_smSet_self _ _ _ _
theorem chan_setChan (s : State) (k : Nat) (v : Chan) (j : Nat) : (s.setChan k v).chan j = if j = k then v else s.chan j := smGet_smSet _ _ _ _ _
@[simp] theorem chan_setChan_self (s : State) (k : Nat) (v : Chan) : (s.setChan k v).chan k = v := smGet_smSet_self _ _ _ _
theorem ring_setRing (s : State) (k : Nat) (v : RingObj) (j : Nat) : (s.setRing k v).ring j = if j = k then v else s.ring j := smGet_smSet _ _ _ _ _
@[simp] theorem ring_setRing_self (s : State) (k : Nat) (v : RingObj) : (s.setRing k v).ring k = v := smGet_smSet_self _ _ _ _
theorem queue_setQueue (s : State) (k : Nat) (v : Queue) (j : Nat) : (s.setQueue k v).queue j = if j = k then v else s.queue j := smGet_smSet _ _ _ _ _
@[simp] theorem queue_setQueue_self (s : State) (k : Nat) (v : Queue) : (s.setQueue k v).queue k = v := smGet_smSet_self _ _ _ _
theorem sub_setSub (s : State) (k : Nat) (v : Sub) (j : Nat) : (s.setSub k v).sub j = if j = k then v else s.sub j := smGet_smSet _ _ _ _ _
@[simp] theorem sub_setSub_self (s : State) (k : Nat) (v : Sub) : (s.setSub k v).sub k = v := smGet_smSet_self _ _ _ _
@[simp] theorem task_setCtx (s : State) (k : Nat) (v : Ctx) (j : Nat) : (s.setCtx k v).task j = s.task j := rfl
@[simp] theorem tenant_setCtx (s : State) (k : Nat) (v : Ctx) (j : Nat) : (s.setCtx k v).tenant j = s.tenant j := rfl
@[simp] theorem launch_setCtx (s : State) (k : Nat) (v : Ctx) (j : Nat) : (s.setCtx k v).launch j = s.launch j := rfl
@[simp] theorem cl_setCtx (s : State) (k : Nat) (v : Ctx) (j : Nat) : (s.setCtx k v).cl j = s.cl j := rfl
@[simp] theorem sem_setCtx (s : State) (k : Nat) (v : Ctx) (j : Nat) : (s.setCtx k v).sem j = s.sem j := rfl
@[simp] theorem chan_setCtx (s : State) (k : Nat) (v : Ctx) (j : Nat) : (s.setCtx k v).chan j = s.chan j := rfl
@[simp] theorem ring_setCtx (s : State) (k : Nat) (v : Ctx) (j : Nat) : (s.setCtx k v).ring j = s.ring j := rfl
@[simp] theorem queue_setCtx (s : State) (k : Nat) (v : Ctx) (j : Nat) : (s.setCtx k v).queue j = s.queue j := rfl
@[simp] theorem sub_setCtx (s : State) (k : Nat) (v : Ctx) (j : Nat) : (s.setCtx k v).sub j = s.sub j := rfl
@[simp] theorem ctx_setTask (s : State) (k : Nat) (v : Task) (j : Nat) : (s.setTask k v).ctx j = s.ctx j := rfl
@[simp] theorem tenant_setTask (s : State) (k : Nat) (v : Task) (j : Nat) : (s.setTask k v).tenant j = s.tenant j := rfl
@[simp] theorem launch_setTask (s : State) (k : Nat) (v : Task) (j : Nat) : (s.setTask k v).launch j = s.launch j := rfl
@[simp] theorem cl_setTask (s : State) (k : Nat) (v : Task) (j : Nat) : (s.setTask k v).cl j = s.cl j := rfl
@[simp] theorem sem_setTask (s : State) (k : Nat) (v : Task) (j : Nat) : (s.setTask k v).sem j = s.sem j := rfl
@[simp] theorem chan_setTask (s : State) (k : Nat) (v : Task) (j : Nat) : (s.setTask k v).chan j = s.chan j := rfl
@[simp] theorem ring_setTask (s : State) (k : Nat) (v : Task) (j : Nat) : (s.setTask k v).ring j = s.ring j := rfl
@[simp] theorem queue_setTask (s : State) (k : Nat) (v : Task) (j : Nat) : (s.setTask k v).queue j = s.queue j := rfl
@[simp] theorem sub_setTask (s : State) (k : Nat) (v : Task) (j : Nat) : (s.setTask k v).sub j = s.sub j := rfl
@[simp] theorem ctx_setTenant (s : State) (k : Nat) (v : Tenant) (j : Nat) : (s.setTenant k v).ctx j = s.ctx j := rfl
@[simp] theorem task_setTenant (s : State) (k : Nat) (v : Tenant) (j : Nat) : (s.setTenant k v).task j = s.task j := rfl
@[simp] theorem launch_setTenant (s : State) (k : Nat) (v : Tenant) (j : Nat) : (s.setTenant k v).launch j = s.launch j := rfl
@[simp] theorem cl_setTenant (s : State) (k : Nat) (v : Tenant) (j : Nat) : (s.setTenant k v).cl j = s.cl j := rfl
@[simp] theorem sem_setTenant (s : State) (k : Nat) (v : Tenant) (j : Nat) : (s.setTenant k v).sem j = s.sem j := rfl
@[simp] theorem chan_setTenant (s : State) (k : Nat) (v : Tenant) (j : Nat) : (s.setTenant k v).chan j = s.chan j := rfl
@[simp] theorem ring_setTenant (s : State) (k : Nat) (v : Tenant) (j : Nat) : (s.setTenant k v).ring j = s.ring j := rfl
@[simp] theorem queue_setTenant (s : State) (k : Nat) (v : Tenant) (j : Nat) : (s.setTenant k v).queue j = s.queue j := rfl
@[simp] theorem sub_setTenant (s : State) (k : Nat) (v : Tenant) (j : Nat) : (s.setTenant k v).sub j = s.sub j := rfl
@[simp] theorem ctx_setLaunch (s : State) (k : Nat) (v : Launch) (j : Nat) : (s.setLaunch k v).ctx j = s.ctx j := rfl
@[simp] theorem task_setLaunch (s : State) (k : Nat) (v : Launch) (j : Nat) : (s.setLaunch k v).task j = s.task j := rfl
@[simp] theorem tenant_setLaunch (s : State) (k : Nat) (v : Launch) (j : Nat) : (s.setLaunch k v).tenant j = s.tenant j := rfl
@[simp] theorem cl_setLaunch (s : State) (k : Nat) (v : Launch) (j : Nat) : (s.setLaunch k v).cl j = s.cl j := rfl
@[simp] theorem sem_setLaunch (s : State) (k : Nat) (v : Launch) (j : Nat) : (s.setLaunch k v).sem j = s.sem j := rfl
@[simp] theorem chan_setLaunch (s : State) (k : Nat) (v : Launch) (j : Nat) : (s.setLaunch k v).chan j = s.chan j := rfl
@[simp] theorem ring_setLaunch (s : State) (k : Nat) (v : Launch) (j : Nat) : (s.setLaunch k v).ring j = s.ring j := rfl
@[simp] theorem queue_setLaunch (s : State) (k : Nat) (v : Launch) (j : Nat) : (s.setLaunch k v).queue j = s.queue j := rfl
@[simp] theorem sub_setLaunch (s : State) (k : Nat) (v : Launch) (j : Nat) : (s.setLaunch k v).sub j = s.sub j := rfl
@[simp] theorem ctx_setCl (s : State) (k : Nat) (v : Cluster) (j : Nat) : (s.setCl k v).ctx j = s.ctx j := rfl
@[simp] theorem task_setCl (s : State) (k : Nat) (v : Cluster) (j : Nat) : (s.setCl k v).task j = s.task j := rfl
@[simp] theorem tenant_setCl (s : State) (k : Nat) (v : Cluster) (j : Nat) : (s.setCl k v).tenant j = s.tenant j := rfl
@[simp] theorem launch_setCl (s : State) (k : Nat) (v : Cluster) (j : Nat) : (s.setCl k v).launch j = s.launch j := rfl
@[simp] theorem sem_setCl (s : State) (k : Nat) (v : Cluster) (j : Nat) : (s.setCl k v).sem j = s.sem j := rfl
@[simp] theorem chan_setCl (s : State) (k : Nat) (v : Cluster) (j : Nat) : (s.setCl k v).chan j = s.chan j := rfl
@[simp] theorem ring_setCl (s : State) (k : Nat) (v : Cluster) (j : Nat) : (s.setCl k v).ring j = s.ring j := rfl
@[simp] theorem queue_setCl (s : State) (k : Nat) (v : Cluster) (j : Nat) : (s.setCl k v).queue j = s.queue j := rfl
@[simp] theorem sub_setCl (s : State) (k : Nat) (v : Cluster) (j : Nat) : (s.setCl k v).sub j = s.sub j := rfl
@[simp] theorem ctx_setSem (s : State) (k : Nat) (v : Sem) (j : Nat) : (s.setSem k v).ctx j = s.ctx j := rfl
@[simp] theorem task_setSem (s : State) (k : Nat) (v : Sem) (j : Nat) : (s.setSem k v).task j = s.task j := rfl
@[simp] theorem tenant_setSem (s : State) (k : Nat) (v : Sem) (j : Nat) : (s.setSem k v).tenant j = s.tenant j := rfl
@[simp] theorem launch_setSem (s : State) (k : Nat) (v : Sem) (j : Nat) : (s.setSem k v).launch j = s.launch j := rfl
@[simp] theorem cl_setSem (s : State) (k : Nat) (v : Sem) (j : Nat) : (s.setSem k v).cl j = s.cl j := rfl
@[simp] theorem chan_setSem (s : State) (k : Nat) (v : Sem) (j : Nat) : (s.setSem k v).chan j = s.chan j := rfl
@[simp] theorem ring_setSem (s : State) (k : Nat) (v : Sem) (j : Nat) : (s.setSem k v).ring j = s.ring j := rfl
@[simp] theorem queue_setSem (s : State) (k : Nat) (v : Sem) (j : Nat) : (s.setSem k v).queue j = s.queue j := rfl
@[simp] theorem sub_setSem (s : State) (k : Nat) (v : Sem) (j : Nat) : (s.setSem k v).sub j = s.sub j := rfl
@[simp] theorem ctx_setChan (s : State) (k : Nat) (v : Chan) (j : Nat) : (s.setChan k v).ctx j = s.ctx j := rfl
@[simp] theorem task_setChan (s : State) (k : Nat) (v : Chan) (j : Nat) : (s.setChan k v).task j = s.task j := rfl
@[simp] theorem tenant_setChan (s : State) (k : Nat) (v : Chan) (j : Nat) : (s.setChan k v).tenant j = s.tenant j := rfl
@[simp] theorem launch_setChan (s : State) (k : Nat) (v : Chan) (j : Nat) : (s.setChan k v).launch j = s.launch j := rfl
@[simp] theorem cl_setChan (s : State) (k : Nat) (v : Chan) (j : Nat) : (s.setChan k v).cl j = s.cl j := rfl
@[simp] theorem sem_setChan (s : State) (k : Nat) (v : Chan) (j : Nat) : (s.setChan k v).sem j = s.sem j := rfl
@[simp] theorem ring_setChan (s : State) (k : Nat) (v : Chan) (j : Nat) : (s.setChan k v).ring j = s.ring j := rfl
@[simp] theorem queue_setChan (s : State) (k : Nat) (v : Chan) (j : Nat) : (s.setChan k v).queue j = s.queue j := rfl
@[simp] theorem sub_setChan (s : State) (k : Nat) (v : Chan) (j : Nat) : (s.setChan k v).sub j = s.sub j := rfl
@[simp] theorem ctx_setRing (s : State) (k : Nat) (v : RingObj) (j : Nat) : (s.setRing k v).ctx j = s.ctx j := rfl
@[simp] theorem task_setRing (s : State) (k : Nat) (v : RingObj) (j : Nat) : (s.setRing k v).task j = s.task j := rfl
@[simp] theorem tenant_setRing (s : State) (k : Nat) (v : RingObj) (j : Nat) : (s.setRing k v).tenant j = s.tenant j := rfl
@[simp] theorem launch_setRing (s : State) (k : Nat) (v : RingObj) (j : Nat) : (s.setRing k v).launch j = s.launch j := rfl
@[simp] theorem cl_setRing (s : State) (k : Nat) (v : RingObj) (j : Nat) : (s.setRing k v).cl j = s.cl j := rfl
@[simp] theorem sem_setRing (s : State) (k : Nat) (v : RingObj) (j : Nat) : (s.setRing k v).sem j = s.sem j := rfl
@[simp] theorem chan_setRing (s : State) (k : Nat) (v : RingObj) (j : Nat) : (s.setRing k v).chan j = s.chan j := rfl
@[simp] theorem queue_setRing (s : State) (k : Nat) (v : RingObj) (j : Nat) : (s.setRing k v).queue j = s.queue j := rfl
@[simp] theorem sub_setRing (s : State) (k : Nat) (v : RingObj) (j : Nat) : (s.setRing k v).sub j = s.sub j := rfl
@[simp] theorem ctx_setQueue (s : State) (k : Nat) (v : Queue) (j : Nat) : (s.setQueue k v).ctx j = s.ctx j := rfl
@[simp] theorem task_setQueue (s : State) (k : Nat) (v : Queue) (j : Nat) : (s.setQueue k v).task j = s.task j := rfl
@[simp] theorem tenant_setQueue (s : State) (k : Nat) (v : Queue) (j : Nat) : (s.setQueue k v).tenant j = s.tenant j := rfl
@[simp] theorem launch_setQueue (s : State) (k : Nat) (v : Queue) (j : Nat) : (s.setQueue k v).launch j = s.launch j := rfl
@[simp] theorem cl_setQueue (s : State) (k : Nat) (v : Queue) (j : Nat) : (s.setQueue k v).cl j = s.cl j := rfl
@[simp] theorem sem_setQueue (s : State) (k : Nat) (v : Queue) (j : Nat) : (s.setQueue k v).sem j = s.sem j := rfl
@[simp] theorem chan_setQueue (s : State) (k : Nat) (v : Queue) (j : Nat) : (s.setQueue k v).chan j = s.chan j := rfl
@[simp] theorem ring_setQueue (s : State) (k : Nat) (v : Queue) (j : Nat) : (s.setQueue k v).ring j = s.ring j := rfl
@[simp] theorem sub_setQueue (s : State) (k : Nat) (v : Queue) (j : Nat) : (s.setQueue k v).sub j = s.sub j := rfl
@[simp] theorem ctx_setSub (s : State) (k : Nat) (v : Sub) (j : Nat) : (s.setSub k v).ctx j = s.ctx j := rfl
@[simp] theorem task_setSub (s : State) (k : Nat) (v : Sub) (j : Nat) : (s.setSub k v).task j = s.task j := rfl
@[simp] theorem tenant_setSub (s : State) (k : Nat) (v : Sub) (j : Nat) : (s.setSub k v).tenant j = s.tenant j := rfl
@[simp] theorem launch_setSub (s : State) (k : Nat) (v : Sub) (j : Nat) : (s.setSub k v).launch j = s.launch j := rfl
@[simp] theorem cl_setSub (s : State) (k : Nat) (v : Sub) (j : Nat) : (s.setSub k v).cl j = s.cl j := rfl
@[simp] theorem sem_setSub (s : State) (k : Nat) (v : Sub) (j : Nat) : (s.setSub k v).sem j = s.sem j := rfl
@[simp] theorem chan_setSub (s : State) (k : Nat) (v : Sub) (j : Nat) : (s.setSub k v).chan j = s.chan j := rfl
@[simp] theorem ring_setSub (s : State) (k : Nat) (v : Sub) (j : Nat) : (s.setSub k v).ring j = s.ring j := rfl
@[simp] theorem queue_setSub (s : State) (k : Nat) (v : Sub) (j : Nat) : (s.setSub k v).queue j = s.queue j := rfl

/-! The executing context. -/

theorem me_setCtx (s : State) (k : Nat) (v : Ctx) : (s.setCtx k v).me = if s.cur = k then v else s.me := ctx_setCtx s k v s.cur
@[simp] theorem me_setCtx_self (s : State) (v : Ctx) : (s.setCtx s.cur v).me = v := ctx_setCtx_self s s.cur v
@[simp] theorem modCtx_eq (s : State) (k : Nat) (f : Ctx → Ctx) : s.modCtx k f = s.setCtx k (f (s.ctx k)) := rfl
@[simp] theorem setMe_eq (s : State) (v : Ctx) : s.setMe v = s.setCtx s.cur v := rfl
@[simp] theorem modMe_eq (s : State) (f : Ctx → Ctx) : s.modMe f = s.setCtx s.cur (f s.me) := rfl
@[simp] theorem modTask_eq (s : State) (k : Nat) (f : Task → Task) : s.modTask k f = s.setTask k (f (s.task k)) := rfl
@[simp] theorem modTenant_eq (s : State) (k : Nat) (f : Tenant → Tenant) : s.modTenant k f = s.setTenant k (f (s.tenant k)) := rfl
@[simp] theorem modLaunch_eq (s : State) (k : Nat) (f : Launch → Launch) : s.modLaunch k f = s.setLaunch k (f (s.launch k)) := rfl
@[simp] theorem modCl_eq (s : State) (k : Nat) (f : Cluster → Cluster) : s.modCl k f = s.setCl k (f (s.cl k)) := rfl

/-- Two writes of one context leave the second. -/
theorem smSet_smSet {α : Type} (m : SMap α) (k : Nat) (v w : α) : smSet (smSet m k v) k w = smSet m k w := by
  induction m with
  | nil => simp [smSet]
  | cons e m ih =>
    obtain ⟨a, x⟩ := e
    by_cases h1 : k < a
    · simp [smSet, h1]
    · by_cases h2 : k = a
      · simp [smSet, h2]
      · simp [smSet, h1, h2, ih]

@[simp] theorem setCtx_setCtx (s : State) (k : Nat) (v w : Ctx) : (s.setCtx k v).setCtx k w = s.setCtx k w := by
  simp only [State.setCtx, smSet_smSet]

/-! g registers: g0 reads zero and discards writes (R33, R83). -/

@[simp] theorem reg_zero (c : Ctx) : c.reg 0#5 = 0#64 := by simp [Ctx.reg]
@[simp] theorem setReg_zero (c : Ctx) (v : W64) : c.setReg 0#5 v = c := by simp [Ctx.setReg]

/-- A register read after a write. -/
theorem reg_setReg (c : Ctx) (r : GReg) (v : W64) (q : GReg) : (c.setReg r v).reg q = if q = r ∧ r ≠ 0#5 then v else c.reg q := by
  unfold Ctx.setReg Ctx.reg
  by_cases hr : r = 0#5
  · simp [hr]
  · by_cases hq : q = 0#5
    · subst hq; simp [hr, Ne.symm hr]
    · simp only [hr, hq, if_false, smGet_smSet]
      by_cases h : q = r
      · simp [h, hr]
      · have : q.toNat ≠ r.toNat := fun e => h (BitVec.eq_of_toNat_eq e)
        simp [h, this]

@[simp] theorem setReg_st (c : Ctx) (r : GReg) (v : W64) : (c.setReg r v).st = c.st := by unfold Ctx.setReg; split <;> rfl
@[simp] theorem setReg_task (c : Ctx) (r : GReg) (v : W64) : (c.setReg r v).task = c.task := by unfold Ctx.setReg; split <;> rfl
@[simp] theorem setReg_idx (c : Ctx) (r : GReg) (v : W64) : (c.setReg r v).idx = c.idx := by unfold Ctx.setReg; split <;> rfl
@[simp] theorem setReg_gpos (c : Ctx) (r : GReg) (v : W64) : (c.setReg r v).gpos = c.gpos := by unfold Ctx.setReg; split <;> rfl
@[simp] theorem setReg_gsize (c : Ctx) (r : GReg) (v : W64) : (c.setReg r v).gsize = c.gsize := by unfold Ctx.setReg; split <;> rfl
@[simp] theorem setReg_cl (c : Ctx) (r : GReg) (v : W64) : (c.setReg r v).cl = c.cl := by unfold Ctx.setReg; split <;> rfl
@[simp] theorem setReg_slot (c : Ctx) (r : GReg) (v : W64) : (c.setReg r v).slot = c.slot := by unfold Ctx.setReg; split <;> rfl
@[simp] theorem setReg_slice (c : Ctx) (r : GReg) (v : W64) : (c.setReg r v).slice = c.slice := by unfold Ctx.setReg; split <;> rfl
@[simp] theorem setReg_quarter (c : Ctx) (r : GReg) (v : W64) : (c.setReg r v).quarter = c.quarter := by unfold Ctx.setReg; split <;> rfl
@[simp] theorem setReg_pc (c : Ctx) (r : GReg) (v : W64) : (c.setReg r v).pc = c.pc := by unfold Ctx.setReg; split <;> rfl
@[simp] theorem setReg_team (c : Ctx) (r : GReg) (v : W64) : (c.setReg r v).team = c.team := by unfold Ctx.setReg; split <;> rfl
@[simp] theorem setReg_strm (c : Ctx) (r : GReg) (v : W64) : (c.setReg r v).strm = c.strm := by unfold Ctx.setReg; split <;> rfl
@[simp] theorem setReg_cap (c : Ctx) (r : GReg) (v : W64) : (c.setReg r v).cap = c.cap := by unfold Ctx.setReg; split <;> rfl
@[simp] theorem setReg_trap (c : Ctx) (r : GReg) (v : W64) : (c.setReg r v).trap = c.trap := by unfold Ctx.setReg; split <;> rfl
@[simp] theorem setReg_dbg (c : Ctx) (r : GReg) (v : W64) : (c.setReg r v).dbg = c.dbg := by unfold Ctx.setReg; split <;> rfl
@[simp] theorem setReg_hold (c : Ctx) (r : GReg) (v : W64) : (c.setReg r v).hold = c.hold := by unfold Ctx.setReg; split <;> rfl
@[simp] theorem setReg_bounds (c : Ctx) (r : GReg) (v : W64) : (c.setReg r v).bounds = c.bounds := by unfold Ctx.setReg; split <;> rfl
@[simp] theorem setReg_rings (c : Ctx) (r : GReg) (v : W64) : (c.setReg r v).rings = c.rings := by unfold Ctx.setReg; split <;> rfl
@[simp] theorem setReg_ringsGone (c : Ctx) (r : GReg) (v : W64) : (c.setReg r v).ringsGone = c.ringsGone := by unfold Ctx.setReg; split <;> rfl
@[simp] theorem setReg_fills (c : Ctx) (r : GReg) (v : W64) : (c.setReg r v).fills = c.fills := by unfold Ctx.setReg; split <;> rfl
@[simp] theorem setReg_bgerr (c : Ctx) (r : GReg) (v : W64) : (c.setReg r v).bgerr = c.bgerr := by unfold Ctx.setReg; split <;> rfl
@[simp] theorem setReg_lookups (c : Ctx) (r : GReg) (v : W64) : (c.setReg r v).lookups = c.lookups := by unfold Ctx.setReg; split <;> rfl
@[simp] theorem setReg_misses (c : Ctx) (r : GReg) (v : W64) : (c.setReg r v).misses = c.misses := by unfold Ctx.setReg; split <;> rfl
@[simp] theorem setReg_tryw (c : Ctx) (r : GReg) (v : W64) : (c.setReg r v).tryw = c.tryw := by unfold Ctx.setReg; split <;> rfl
@[simp] theorem setReg_watch (c : Ctx) (r : GReg) (v : W64) : (c.setReg r v).watch = c.watch := by unfold Ctx.setReg; split <;> rfl
@[simp] theorem setReg_waitAt (c : Ctx) (r : GReg) (v : W64) : (c.setReg r v).waitAt = c.waitAt := by unfold Ctx.setReg; split <;> rfl
@[simp] theorem setReg_ticket (c : Ctx) (r : GReg) (v : W64) : (c.setReg r v).ticket = c.ticket := by unfold Ctx.setReg; split <;> rfl
@[simp] theorem setReg_spErr (c : Ctx) (r : GReg) (v : W64) : (c.setReg r v).spErr = c.spErr := by unfold Ctx.setReg; split <;> rfl
@[simp] theorem setReg_spx (c : Ctx) (r : GReg) (v : W64) : (c.setReg r v).spx = c.spx := by unfold Ctx.setReg; split <;> rfl
@[simp] theorem setReg_remote (c : Ctx) (r : GReg) (v : W64) : (c.setReg r v).remote = c.remote := by unfold Ctx.setReg; split <;> rfl
@[simp] theorem setReg_sysWait (c : Ctx) (r : GReg) (v : W64) : (c.setReg r v).sysWait = c.sysWait := by unfold Ctx.setReg; split <;> rfl
@[simp] theorem setReg_report (c : Ctx) (r : GReg) (v : W64) : (c.setReg r v).report = c.report := by unfold Ctx.setReg; split <;> rfl
@[simp] theorem setReg_runUs (c : Ctx) (r : GReg) (v : W64) : (c.setReg r v).runUs = c.runUs := by unfold Ctx.setReg; split <;> rfl
@[simp] theorem setReg_owed (c : Ctx) (r : GReg) (v : W64) : (c.setReg r v).owed = c.owed := by unfold Ctx.setReg; split <;> rfl
@[simp] theorem setReg_born (c : Ctx) (r : GReg) (v : W64) : (c.setReg r v).born = c.born := by unfold Ctx.setReg; split <;> rfl
@[simp] theorem setReg_outTurn (c : Ctx) (r : GReg) (v : W64) : (c.setReg r v).outTurn = c.outTurn := by unfold Ctx.setReg; split <;> rfl

/-- A context that is not RESIDENT-EARLY has no cluster-time to put by. -/
theorem counted_of_not_early (c : Ctx) (us : Nat) (h : c.st.isEarly = false) : c.counted us = c := by simp [Ctx.counted, h]
/-- Past a word only the PC, what ends with a wait, SKIP1 and the cluster-time that is owed differ. -/
theorem past_eq (c : Ctx) (us n : Nat) :
    c.past us n = { c with pc := c.pc + BitVec.ofNat 64 (8 * n), st := c.st.awake, watch := none, dbg := { c.dbg with skip1 := false },
                           owed := (c.counted us).owed, runUs := (c.counted us).runUs } := by
  unfold Ctx.past Ctx.counted; split
  · rfl
  · split <;> rfl
theorem past_withG (c : Ctx) (us n : Nat) (g : SMap W64) : ({ c with g := g } : Ctx).past us n = { c.past us n with g := g } := by
  unfold Ctx.past Ctx.counted; simp only; split
  · rfl
  · have e : Ctx.charged { c with g := g } = c.charged := rfl
    simp only [e]; split <;> rfl
@[simp] theorem past_reg (c : Ctx) (us n : Nat) (r : GReg) : (c.past us n).reg r = c.reg r := by rw [past_eq]; rfl
@[simp] theorem past_pc (c : Ctx) (us n : Nat) : (c.past us n).pc = c.pc + BitVec.ofNat 64 (8 * n) := rfl
@[simp] theorem past_st (c : Ctx) (us n : Nat) : (c.past us n).st = c.st.awake := rfl
@[simp] theorem past_trap (c : Ctx) (us n : Nat) : (c.past us n).trap = c.trap := by rw [past_eq]
@[simp] theorem past_team (c : Ctx) (us n : Nat) : (c.past us n).team = c.team := by rw [past_eq]
@[simp] theorem past_strm (c : Ctx) (us n : Nat) : (c.past us n).strm = c.strm := by rw [past_eq]
@[simp] theorem past_g (c : Ctx) (us n : Nat) : (c.past us n).g = c.g := by rw [past_eq]

@[simp] theorem State.setReg_eq (s : State) (r : GReg) (v : W64) : s.setReg r v = s.setCtx s.cur (s.me.setReg r v) := rfl
@[simp] theorem State.adv_eq (s : State) : s.adv = s.setCtx s.cur (s.me.past s.us 1) := rfl
@[simp] theorem State.done_eq (s : State) (d : GReg) (v : W64) : s.done d v = s.setCtx s.cur ((s.me.setReg d v).past s.us 1) := by
  simp [State.done]

/-- A register does not depend on the PC and the state of the context. -/
@[simp] theorem reg_with (c : Ctx) (p : W64) (st : CState) (r : GReg) : ({ c with pc := p, st := st } : Ctx).reg r = c.reg r := rfl

end Sys2Proof.Machine
end

