-- ==== Sys2Proof/Laws/Mem.lean ====
section
/-! SUPPORT. What the memory operations do, once for each: the canonical forms they keep, the memory they leave, the bytes they bring. -/

namespace Sys2Proof.Machine

/-- Consecutive bytes are read back. -/
theorem memBytes_memSetList (m : List Host.Cell) (a : Nat) (bs : List Byte) : memBytes (memSetList m a bs) a bs.length = bs := by
  apply List.ext_getElem
  · simp [memBytes, rangeFrom]
  · intro i h1 h2
    simp only [memBytes, rangeFrom, List.getElem_map, List.getElem_range]
    exact memGet_memSetList_in bs m a i h2

theorem memBytes_congr (m m' : List Host.Cell) (a n : Nat) (h : ∀ k, a ≤ k → k < a + n → memGet m k = memGet m' k) : memBytes m a n = memBytes m' a n := by
  apply List.ext_getElem
  · simp [memBytes, rangeFrom]
  · intro i h1 h2
    have : i < n := by simpa [memBytes, rangeFrom] using h1
    simp only [memBytes, rangeFrom, List.getElem_map, List.getElem_range]
    exact h _ (by omega) (by omega)

/-! The invariant looks at memory and at the L1s. -/

theorem inv_congr {s t : State} (hm : t.mem = s.mem) (hc : t.cls = s.cls) (h : s.Inv) : t.Inv := by
  unfold State.Inv at *; rw [hm, hc]; exact h

theorem inv_setMem {s : State} (m : List Host.Cell) (hm : memWf m = true) (h : s.Inv) : State.Inv { s with mem := m } := ⟨hm, h.2⟩

theorem mem_smSet {α : Type} (m : SMap α) (k : Nat) (v : α) (e : Nat × α) (h : e ∈ smSet m k v) : e = (k, v) ∨ e ∈ m := by
  induction m with
  | nil => simpa [smSet] using h
  | cons x m ih =>
    obtain ⟨a, w⟩ := x
    simp only [smSet] at h
    split at h
    · simpa using h
    · split at h
      · rcases List.mem_cons.1 h with h | h
        · exact .inl h
        · exact .inr (List.mem_cons_of_mem _ h)
      · rcases List.mem_cons.1 h with h | h
        · exact .inr (h ▸ List.mem_cons_self)
        · exact (ih h).imp_right (List.mem_cons_of_mem _)

theorem smGet_mem {α : Type} (d : α) (m : SMap α) (k : Nat) : smGet d m k = d ∨ ∃ e ∈ m, e.2 = smGet d m k := by
  induction m with
  | nil => exact .inl rfl
  | cons x m ih =>
    obtain ⟨a, w⟩ := x
    simp only [smGet]
    split
    · exact .inr ⟨(a, w), List.mem_cons_self, rfl⟩
    · exact ih.imp_right fun ⟨e, he, h⟩ => ⟨e, List.mem_cons_of_mem _ he, h⟩

/-- The L1 of any cluster is in order. -/
theorem linesOk_cl {s : State} (h : s.Inv) (cl : Nat) : linesOk (s.cl cl).l1 = true := by
  rcases smGet_mem Cluster.reset s.cls cl with e | ⟨e, he, hh⟩
  · unfold State.cl; rw [e]; rfl
  · unfold State.cl; rw [← hh]; exact h.2 e he

theorem inv_setCl {s : State} (cl : Nat) (c : Cluster) (hc : linesOk c.l1 = true) (h : s.Inv) : (s.setCl cl c).Inv := by
  refine ⟨h.1, fun e he => ?_⟩
  rcases mem_smSet _ _ _ _ he with rfl | he
  · exact hc
  · exact h.2 e he

/-- A change of a cluster that leaves its L1 alone. -/
theorem inv_modCl {s : State} (cl : Nat) (f : Cluster → Cluster) (hf : ∀ c, (f c).l1 = c.l1) (h : s.Inv) : (s.modCl cl f).Inv :=
  inv_setCl cl _ (by rw [hf]; exact linesOk_cl h cl) h

theorem sorted_filter {α : Type} (p : Nat × α → Bool) (m : SMap α) (lo : Nat) (hs : smSortedFrom lo m = true) : smSortedFrom lo (m.filter p) = true := by
  induction m generalizing lo with
  | nil => rfl
  | cons x m ih =>
    obtain ⟨a, w⟩ := x
    simp only [smSortedFrom, Bool.and_eq_true, decide_eq_true_eq] at hs
    simp only [List.filter]
    split
    · simp only [smSortedFrom, Bool.and_eq_true, decide_eq_true_eq]; exact ⟨hs.1, ih _ hs.2⟩
    · exact sorted_mono _ (by omega) (ih _ hs.2)

theorem linesOk_smSet (m : SMap L1Line) (k : Nat) (l : L1Line) (hk : k < 2 ^ 43) (h : linesOk m = true) : linesOk (smSet m k l) = true := by
  simp only [linesOk, Bool.and_eq_true, List.all_eq_true, decide_eq_true_eq] at *
  refine ⟨sorted_smSet _ _ _ _ (Nat.zero_le _) h.1, fun e he => ?_⟩
  rcases mem_smSet _ _ _ _ he with rfl | he
  · exact hk
  · exact h.2 e he

theorem linesOk_smDel (m : SMap L1Line) (k : Nat) (h : linesOk m = true) : linesOk (smDel m k) = true := by
  simp only [linesOk, Bool.and_eq_true, List.all_eq_true, decide_eq_true_eq] at *
  refine ⟨sorted_smDel _ _ _ h.1, fun e he => h.2 e ?_⟩
  clear h
  induction m with
  | nil => exact he
  | cons x m ih =>
    obtain ⟨a, w⟩ := x
    simp only [smDel] at he
    split at he
    · exact List.mem_cons_of_mem _ (ih he)
    · rcases List.mem_cons.1 he with he | he
      · exact he ▸ List.mem_cons_self
      · exact List.mem_cons_of_mem _ (ih he)

theorem inv_setLine {s : State} (cl line : Nat) (l : L1Line) (hk : line < 2 ^ 43) (h : s.Inv) : (setLine s cl line l).Inv :=
  inv_setCl cl _ (linesOk_smSet _ _ _ hk (linesOk_cl h cl)) h

theorem inv_dropLine {s : State} (cl line : Nat) (h : s.Inv) : (dropLine s cl line).Inv :=
  inv_setCl cl _ (linesOk_smDel _ _ (linesOk_cl h cl)) h

/-! Pending reductions, and what stands in front of a home. -/

theorem memWf_apply (r : RedE) (m : List Host.Cell) (h : memWf m = true) : memWf (r.apply m) = true := memWf_memSetList _ _ _ h

theorem memWf_foldl_apply (rs : List RedE) (m : List Host.Cell) (h : memWf m = true) : memWf (rs.foldl (fun m r => r.apply m) m) = true := by
  induction rs generalizing m with
  | nil => exact h
  | cons r rs ih => exact ih _ (memWf_apply r m h)

/-- Without a reduction that waits, settling changes nothing. -/
theorem settle_none {s : State} (k n : Nat) (h : NoneWaits s) : settle s k n = s := by
  unfold settle; rw [h]; rfl

/-- Two states agree in memory, in what waits at homes, in the L1s, the contexts, the rows and the clocks. -/
structure SameCore (s t : State) : Prop where
  mem : t.mem = s.mem
  cls : t.cls = s.cls
  redq : t.redq = s.redq
  ctxs : t.ctxs = s.ctxs
  cur : t.cur = s.cur
  us : t.us = s.us
  mc : t.mc = s.mc
  rows : t.rows = s.rows
  empt : t.empt = s.empt

theorem SameCore.refl (s : State) : SameCore s s := ⟨rfl, rfl, rfl, rfl, rfl, rfl, rfl, rfl, rfl⟩

theorem SameCore.trans {s t u : State} (h : SameCore s t) (g : SameCore t u) : SameCore s u :=
  ⟨g.mem.trans h.mem, g.cls.trans h.cls, g.redq.trans h.redq, g.ctxs.trans h.ctxs, g.cur.trans h.cur, g.us.trans h.us, g.mc.trans h.mc,
    g.rows.trans h.rows, g.empt.trans h.empt⟩

/-- A function of the state that touches none of these. -/
def KeepsMem (f : State → State) : Prop := ∀ s, SameCore s (f s)

theorem keepsMem_foldl {α : Type} (f : State → α → State) (h : ∀ a, KeepsMem fun s => f s a) (l : List α) : KeepsMem fun s => l.foldl f s := by
  induction l with
  | nil => exact .refl
  | cons a l ih => exact fun s => (h a s).trans (ih _)

theorem keepsMem_comp {f g : State → State} (hf : KeepsMem f) (hg : KeepsMem g) : KeepsMem fun s => g (f s) :=
  fun s => (hf s).trans (hg _)

theorem keepsMem_mergeNote (cid : Nat) (r : Bool) (ks : List Nat) : KeepsMem fun s => mergeNote s cid r ks := by
  intro s; simp only [mergeNote, addReport]; split
  · exact .refl s
  · split <;> constructor <;> rfl

theorem keepsMem_mergeWho (ks : List Nat) (who : Nat → Nat) : KeepsMem fun s => mergeWho s ks who := by
  intro s; simp only [mergeWho]; split
  · exact .refl s
  · exact (SameCore.mk rfl rfl rfl rfl rfl rfl rfl rfl rfl : SameCore s (countUnc s)).trans
      (keepsMem_foldl (fun s k => addReport s (3 * who k + 2)) (fun k s => by simp only [addReport]; split <;> constructor <;> rfl) _ _)

theorem keepsMem_ttTouch (k n : Nat) : KeepsMem fun s => ttTouch s k n := by
  intro s; simp only [ttTouch]; split <;> constructor <;> rfl

theorem keepsMem_backInval (k n : Nat) : KeepsMem fun s => backInval s k n := by
  intro s; simp only [backInval]; split <;> constructor <;> rfl

/-- What settling notes of each entry that it applies. -/
theorem keepsMem_settled (rs : List RedE) :
    KeepsMem fun s => rs.foldl (fun s r => mergeNote (backInval (ttTouch s r.key 4) r.key 4) r.by_ true (rangeFrom r.key 4)) s :=
  keepsMem_foldl _ (fun r : RedE =>
    keepsMem_comp (keepsMem_comp (keepsMem_ttTouch r.key 4) (keepsMem_backInval r.key 4)) (keepsMem_mergeNote r.by_ true (rangeFrom r.key 4))) rs

/-- Settling applies the entries that the bytes meet, and leaves the rest as it was. -/
theorem settle_eqs (s : State) (k n : Nat) :
    (settle s k n).mem = (s.redq.filter fun r => r.meets k n).foldl (fun m r => r.apply m) s.mem
    ∧ SameCore s { settle s k n with mem := s.mem, redq := s.redq } := by
  unfold settle
  simp only
  split
  · next h => rw [List.isEmpty_iff.1 h]; exact ⟨rfl, .refl s⟩
  · have e := keepsMem_settled (s.redq.filter fun r => r.meets k n) s
    exact ⟨by simp only [e.mem], ⟨rfl, e.cls, rfl, e.ctxs, e.cur, e.us, e.mc, e.rows, e.empt⟩⟩

theorem settle_redq (s : State) (k n : Nat) : (settle s k n).redq = s.redq.filter fun r => !r.meets k n := by
  unfold settle
  simp only
  split
  · next h =>
    refine (List.filter_eq_self.2 fun r hr => ?_).symm
    have := List.filter_eq_nil_iff.1 (List.isEmpty_iff.1 h) r hr
    simpa using this
  · simp only [(keepsMem_settled _ s).redq]

theorem inv_settle {s : State} (k n : Nat) (h : s.Inv) : (settle s k n).Inv :=
  ⟨(settle_eqs s k n).1 ▸ memWf_foldl_apply _ _ h.1, by have e := (settle_eqs s k n).2.cls; exact (e : (settle s k n).cls = s.cls) ▸ h.2⟩

@[simp] theorem recallBar_mem (s : State) (k n : Nat) : (recallBar s k n).mem = s.mem := by unfold recallBar; simp only; split <;> rfl
@[simp] theorem recallBar_redq (s : State) (k n : Nat) : (recallBar s k n).redq = s.redq := by unfold recallBar; simp only; split <;> rfl
theorem inv_recallBar {s : State} (k n : Nat) (h : s.Inv) : (recallBar s k n).Inv := by
  unfold recallBar
  simp only
  split
  · refine ⟨h.1, fun e he => ?_⟩
    obtain ⟨x, hx, rfl⟩ := List.mem_map.1 he
    exact h.2 x hx
  · exact h

@[simp] theorem ttTouch_mem (s : State) (k n : Nat) : (ttTouch s k n).mem = s.mem := (keepsMem_ttTouch k n s).mem
@[simp] theorem ttTouch_cls (s : State) (k n : Nat) : (ttTouch s k n).cls = s.cls := (keepsMem_ttTouch k n s).cls
@[simp] theorem backInval_mem (s : State) (k n : Nat) : (backInval s k n).mem = s.mem := (keepsMem_backInval k n s).mem
@[simp] theorem backInval_cls (s : State) (k n : Nat) : (backInval s k n).cls = s.cls := (keepsMem_backInval k n s).cls
theorem keepsMem_healLine (e : Nat × Nat) : KeepsMem fun s => healLine s e := by
  intro s; simp only [healLine]; split
  · exact .refl s
  · constructor <;> rfl

theorem keepsMem_partTouch (k n st : Nat) : KeepsMem fun s => partTouch s k n st := by
  intro s; simp only [partTouch]; split
  · refine keepsMem_foldl _ (fun l s => ?_) _ s
    simp only [partLine]
    split
    · constructor <;> rfl
    · split
      · constructor <;> rfl
      · split
        · refine SameCore.trans ?_ (keepsMem_healLine _ _)
          constructor <;> rfl
        · constructor <;> rfl
  · exact .refl s
@[simp] theorem partTouch_mem (s : State) (k n st : Nat) : (partTouch s k n st).mem = s.mem := (keepsMem_partTouch k n st s).mem
@[simp] theorem partTouch_cls (s : State) (k n st : Nat) : (partTouch s k n st).cls = s.cls := (keepsMem_partTouch k n st s).cls

/-! Homes. -/

theorem homeRead_mem {s : State} (k n : Nat) (h : NoneWaits s) : (homeRead s k n).1.mem = s.mem ∧ (homeRead s k n).2 = memBytes s.mem k n := by
  simp [homeRead, settle_none k n h]

/-- A write at a home: what it leaves in memory, and what it does not touch. -/
theorem homePut_eqs (s : State) (k : Nat) (bs : List Byte) :
    (homePut s k bs).mem = memSetList (settle s k bs.length).mem k bs ∧ SameCore s { homePut s k bs with mem := s.mem, redq := s.redq } := by
  have e := ((keepsMem_ttTouch k bs.length (settle s k bs.length)).trans (keepsMem_backInval k bs.length _)).trans (keepsMem_partTouch k bs.length 2 _)
  have f := (settle_eqs s k bs.length).2
  exact ⟨by simp [homePut], ⟨rfl, e.cls.trans f.cls, rfl, e.ctxs.trans f.ctxs, e.cur.trans f.cur, e.us.trans f.us, e.mc.trans f.mc,
    e.rows.trans f.rows, e.empt.trans f.empt⟩⟩

theorem homePut_mem {s : State} (k : Nat) (bs : List Byte) (h : NoneWaits s) : (homePut s k bs).mem = memSetList s.mem k bs := by
  simp [homePut, settle_none k bs.length h]

theorem homeWrite_mem {s : State} (k : Nat) (bs : List Byte) (h : NoneWaits s) : (homeWrite s k bs).mem = memSetList s.mem k bs := by
  rw [homeWrite, homePut_mem k bs ((recallBar_redq s k bs.length).trans h), recallBar_mem]

theorem inv_homeRead {s : State} (k n : Nat) (h : s.Inv) : (homeRead s k n).1.Inv :=
  inv_congr (partTouch_mem _ _ _ _) (partTouch_cls _ _ _ _) (inv_recallBar k n (inv_settle k n h))

theorem inv_homePut {s : State} (k : Nat) (bs : List Byte) (h : s.Inv) : (homePut s k bs).Inv := by
  have h1 := inv_settle k bs.length h
  refine ⟨memWf_memSetList _ _ _ ?_, ?_⟩
  · simp only [partTouch_mem, backInval_mem, ttTouch_mem]; exact h1.1
  · show ∀ e ∈ (partTouch _ _ _ _).cls, _
    simp only [partTouch_cls, backInval_cls, ttTouch_cls]; exact h1.2

theorem inv_homeWrite {s : State} (k : Nat) (bs : List Byte) (h : s.Inv) : (homeWrite s k bs).Inv := inv_homePut k bs (inv_recallBar k bs.length h)

theorem inv_writeDirty {s : State} (line : Nat) (l : L1Line) (h : s.Inv) : (writeDirty s line l).Inv := by
  unfold writeDirty
  have hn := keepsMem_mergeWho ((l.dirtyBytes line).map (·.1)) l.storer s
  have h : (mergeWho s ((l.dirtyBytes line).map (·.1)) l.storer).Inv := inv_congr hn.mem hn.cls h
  clear hn
  revert h
  simp only
  generalize l.dirtyBytes line = ps
  generalize mergeWho s (ps.map (·.1)) l.storer = s'
  intro h
  induction ps generalizing s' with
  | nil => exact h
  | cons p ps ih => exact ih _ (inv_homeWrite _ _ h)

theorem smFind_mem {α : Type} (m : SMap α) (k : Nat) (v : α) (h : smFind m k = some v) : (k, v) ∈ m := by
  induction m with
  | nil => cases h
  | cons x m ih =>
    obtain ⟨a, w⟩ := x
    simp only [smFind] at h
    split at h
    · next hk => cases h; subst hk; exact List.mem_cons_self
    · exact List.mem_cons_of_mem _ (ih h)

theorem line_bound {s : State} (h : s.Inv) {cl line : Nat} {l : L1Line} (hl : smFind (s.cl cl).l1 line = some l) : line < 2 ^ 43 := by
  have := linesOk_cl h cl
  simp only [linesOk, Bool.and_eq_true, List.all_eq_true, decide_eq_true_eq] at this
  exact this.2 _ (smFind_mem _ _ _ hl)

theorem inv_cleanLine {s : State} (cl line : Nat) (h : s.Inv) : (cleanLine s cl line).Inv := by
  unfold cleanLine
  split
  · exact h
  · next l hl =>
    split
    · exact h
    · exact inv_setLine _ _ _ (line_bound h hl) (inv_writeDirty _ _ h)

/-! The WAITCL bit (R172). -/

/-- What clearing a WAITCL bit leaves alone. -/
theorem clearWaitcl_core (s : State) (cid : Nat) : SameCore s { clearWaitcl s cid with mem := s.mem, redq := s.redq } := by
  unfold clearWaitcl
  split
  · next k _ _ =>
    split
    · exact .refl s
    · simp only
      generalize leBytes 24 _ = bs
      have f := (settle_eqs s (k + 0x10) 24).2
      have e := keepsMem_mergeNote cid true (rangeFrom (k + 0x10) 24) (settle s (k + 0x10) 24)
      have g := (homePut_eqs (mergeNote (settle s (k + 0x10) 24) cid true (rangeFrom (k + 0x10) 24)) (k + 0x10) bs).2
      exact ⟨rfl, g.cls.trans (e.cls.trans f.cls), rfl, g.ctxs.trans (e.ctxs.trans f.ctxs), g.cur.trans (e.cur.trans f.cur),
        g.us.trans (e.us.trans f.us), g.mc.trans (e.mc.trans f.mc), g.rows.trans (e.rows.trans f.rows), g.empt.trans (e.empt.trans f.empt)⟩
  · exact .refl s

/-- The memory that clearing a WAITCL bit leaves depends on memory, on what waits at homes, and on what the contexts wait on. -/
theorem clearWaitcl_mem_congr {s t : State} (cid : Nat) (hm : t.mem = s.mem) (hr : t.redq = s.redq) (hw : (t.ctx cid).watch = (s.ctx cid).watch)
    (hl : (t.ctx cid).cl = (s.ctx cid).cl) (hb : ∀ k, barWaited t cid k = barWaited s cid k) :
    (clearWaitcl t cid).mem = (clearWaitcl s cid).mem := by
  have hs : ∀ k n, (settle t k n).mem = (settle s k n).mem := fun k n => by rw [(settle_eqs t k n).1, (settle_eqs s k n).1, hm, hr]
  unfold clearWaitcl
  rw [hw, hl]
  split
  · next k _ _ =>
    rw [hb]
    split
    · exact hm
    · simp only
      have nt := keepsMem_mergeNote cid true (rangeFrom (k + 0x10) 24) (settle t (k + 0x10) 24)
      have ns := keepsMem_mergeNote cid true (rangeFrom (k + 0x10) 24) (settle s (k + 0x10) 24)
      rw [(homePut_eqs _ _ _).1, (homePut_eqs _ _ _).1, (settle_eqs (mergeNote _ _ _ _) _ _).1, (settle_eqs (mergeNote _ _ _ _) _ _).1,
        nt.mem, ns.mem, nt.redq, ns.redq, settle_redq, settle_redq, hr, hs]
  · exact hm

/-! Bytes that no L1 holds. -/

/-- Loads of bytes beside L1: what memory holds. -/
theorem loadKeys_plain (s : State) (cl : Nat) (p : Pol) (ks : List Nat) (h : ∀ k ∈ ks, isCached k = false ∧ isPeer k = false ∧ k < 2 ^ 62) :
    loadKeys s cl p ks = (s, ks.map (memGet s.mem)) := by
  have hc : ks.filter isCached = [] := List.filter_eq_nil_iff.2 fun k hk => by simp [(h k hk).1]
  have hp : peerLines ks = [] := by
    unfold peerLines
    rw [List.filter_eq_nil_iff.2 fun k hk => by simp [(h k hk).2.1]]; rfl
  have he : loadEach s cl ks = (s, ks.map (memGet s.mem)) := by
    clear hc hp
    induction ks with
    | nil => rfl
    | cons k ks ih =>
      obtain ⟨h1, h2, h3⟩ := h k List.mem_cons_self
      have e : loadB s cl k = (s, memGet s.mem k) := by
        unfold loadB
        rw [h1, h2, if_neg Bool.false_ne_true, if_neg Bool.false_ne_true, if_pos h3]
      simp only [loadEach, e, ih fun k hk => h k (List.mem_cons_of_mem _ hk), List.map_cons]
  unfold loadKeys
  simp only [hc, hp, List.foldl_nil, List.map_nil]
  exact he

end Sys2Proof.Machine
end

