-- ==== Sys2Proof/Laws/Ops.lean ====
section
/-! SUPPORT. What the shared operations do, once for each: ends of words, jumps, traps, lane words. -/

namespace Sys2Proof.Machine

theorem onlyMe_setCtx (s : State) (c : Ctx) : OnlyMe s (s.setCtx s.cur c) :=
  ⟨rfl, fun k h => by simp [ctx_setCtx, h]⟩

/-- The end of a generator word with a result. -/
theorem ends_done (s : State) (d : GReg) (v : W64) : Ends s (s.done d v) 1 d v := by
  rw [State.done_eq]
  refine ⟨onlyMe_setCtx _ _, ?_, fun r => ?_⟩
  · rw [me_setCtx_self]; unfold Ctx.setReg; split
    · rfl
    · rw [past_withG]
  · show (State.me _).reg r = _
    rw [me_setCtx_self, past_reg, reg_setReg]; rfl

/-- The end of a generator word without a result. -/
theorem ends_adv (s : State) (v : W64) : Ends s s.adv 1 0#5 v := by
  rw [State.adv_eq]
  refine ⟨onlyMe_setCtx _ _, ?_, fun r => ?_⟩
  · rw [me_setCtx_self]
  · show (State.me _).reg r = _
    rw [me_setCtx_self]; simp; rfl

/-- A jump with a register. -/
theorem jumps_jumpTo (s : State) (p : W64) (d : GReg) (v : W64) (h : aligned p 8 = true) :
    Jumps s (jumpTo s p fun s => s.setReg d v) p d v := by
  unfold jumpTo
  simp only [h, Bool.not_true, Bool.false_eq_true, if_false, modMe_eq, State.setReg_eq, setCtx_cur, setCtx_setCtx, me_setCtx_self]
  refine ⟨onlyMe_setCtx _ _, ?_, fun r => ?_⟩
  · rw [me_setCtx_self]; unfold Ctx.setReg; split <;> rfl
  · show (State.me _).reg r = _
    rw [me_setCtx_self]
    show (s.me.setReg d v).reg r = _
    rw [reg_setReg]; rfl

/-- What leaving the queues of waiters does to memory and to the contexts. -/
theorem unwait_eqs (s : State) (cid : Nat) :
    (unwait s cid).ctxs = s.ctxs ∧ (unwait s cid).cur = s.cur ∧ (unwait s cid).us = s.us ∧ (unwait s cid).mc = s.mc
    ∧ (unwait s cid).mem = (clearWaitcl s cid).mem ∧ (unwait s cid).cls = s.cls ∧ (unwait s cid).rows = s.rows ∧ (unwait s cid).empt = s.empt := by
  have h := clearWaitcl_core s cid
  exact ⟨h.ctxs, h.cur, h.us, h.mc, rfl, h.cls, h.rows, h.empt⟩

/-- The trap of a context that may enter its handler (R276). -/
theorem takeTrap_handled (s : State) (r : TrapRec) (hv : canTrap s) (hn : r.code ≠ fNOTPRESENT) :
    Trapped s (takeTrap s s.cur r) (reasonWord r.orig r.imp r.acc r.lane r.code) r.info r.epc := by
  obtain ⟨hv, hi⟩ := hv
  have e : takeTrap s s.cur r
      = trapGo ((trapRegs s s.cur r).modCtx s.cur fun c => { c with trap := { c.trap with restoring := false } }) s.cur s.me.trap.vec := by
    unfold takeTrap
    simp only [hn, if_false]
    rw [if_neg]
    · rfl
    · show ¬(s.me.trap.vec = 0 ∨ s.me.trap.intrap = true)
      simp [hv, hi]
  rw [e]
  unfold trapGo trapRegs
  obtain ⟨h1, h2, -, -, h5, h6, h7, h8⟩ := unwait_eqs s s.cur
  have hu : ∀ k, (unwait s s.cur).ctx k = s.ctx k := fun k => by unfold State.ctx; rw [h1]
  have hme : (unwait s s.cur).ctx s.cur = s.me := hu _
  simp only [modCtx_eq, hme, ctx_setCtx_self, setCtx_setCtx]
  have hm : ∀ c, ((unwait s s.cur).setCtx s.cur c).me = c := fun c => by rw [me_setCtx, h2, if_pos rfl]
  unfold Trapped
  rw [hm]
  refine ⟨rfl, rfl, rfl, rfl, rfl, rfl, ?_, ?_, ?_, fun k hk => by rw [ctx_setCtx]; simp [hk, hu], h5, h6, h7, h8⟩ <;>
    (unfold Ctx.counted; split <;> (try split) <;> rfl)

/-- Whose WAITCL bit is cleared depends on what the context waits on, not on the rest of its record. -/
theorem clearWaitcl_setCtx (s : State) (cid : Nat) (c : Ctx) (hw : c.watch = (s.ctx cid).watch) (hl : c.cl = (s.ctx cid).cl) :
    (clearWaitcl (s.setCtx cid c) cid).mem = (clearWaitcl s cid).mem := by
  refine clearWaitcl_mem_congr cid rfl rfl ?_ ?_ fun k => ?_
  · rw [ctx_setCtx_self, hw]
  · rw [ctx_setCtx_self, hl]
  · unfold barWaited
    rw [ctx_setCtx_self, hl]
    exact any_smSet _ _ _ _ fun v => by simp

/-- What is noted of a fault: causes of the VF with their vector, counts of PF0, and the walks that are over. -/
theorem noteFault_eq (s : State) (c : Ctx) (code : Nat) :
    ∃ pf ts os ws, noteFault s c code = { s with pf := pf, tenants := ts, outs := os, walks := ws } := by
  unfold noteFault
  split
  · unfold vfErr
    dsimp only
    split
    · exact ⟨s.pf, s.tenants, s.outs, s.walks, rfl⟩
    · exact ⟨s.pf, _, _, s.walks, rfl⟩
  · split
    · exact ⟨_, s.tenants, s.outs, _, rfl⟩
    · exact ⟨s.pf, s.tenants, s.outs, s.walks, rfl⟩

/-- A precise trap of the executing context (R276, R278), its cause not a page that is missing. A packet that was lost is reported as PERM. -/
theorem trap_handled (s : State) (code : Nat) (info : W64) (hv : canTrap s) (hn : code ≠ fNOTPRESENT) :
    Trapped s (trap s code info) (reasonWord 0 false 0 0 (plainCode code)) info s.me.pc := by
  have hp : plainCode code ≠ fNOTPRESENT := by
    unfold plainCode; split
    · decide
    · exact hn
  obtain ⟨p, ts, os, ws, e⟩ := noteFault_eq s s.me code
  unfold trap
  simp only [hn, if_false, e]
  generalize hd : ({ s.me.dbg with skip1 := false } : Dbg) = d
  have hs : (({ s with pf := p, tenants := ts, outs := os, walks := ws } : State).modMe fun c => { c with dbg := { c.dbg with skip1 := false } })
      = ({ s with pf := p, tenants := ts, outs := os, walks := ws } : State).setCtx s.cur { s.me with dbg := d } := by rw [← hd]; rfl
  rw [hs]
  have hme : (({ s with pf := p, tenants := ts, outs := os, walks := ws } : State).setCtx s.cur { s.me with dbg := d }).me = { s.me with dbg := d } :=
    ctx_setCtx_self _ _ _
  have t := takeTrap_handled (({ s with pf := p, tenants := ts, outs := os, walks := ws } : State).setCtx s.cur { s.me with dbg := d })
    { code := plainCode code, orig := 0, imp := false, acc := 0, lane := 0, info := info, tag := none, epc := s.me.pc }
    ⟨by rw [hme]; exact hv.1, by rw [hme]; exact hv.2⟩ hp
  unfold Trapped at t ⊢
  rw [hme] at t
  obtain ⟨t1, t2, t3, t4, t5, t6, t7, t8, t9, t10, t11, t12, t13, t14⟩ := t
  refine ⟨t1, t2, t3, t4, t5, t6, t7, t8, t9, fun k hk => ?_, ?_, t12, t13, t14⟩
  · exact (t10 k hk).trans (by rw [ctx_setCtx]; exact if_neg hk)
  · exact (t11.trans (clearWaitcl_setCtx { s with pf := p, tenants := ts, outs := os, walks := ws } s.cur { s.me with dbg := d } rfl rfl)).trans
      (clearWaitcl_mem_congr s.cur rfl rfl rfl rfl fun _ => rfl)

/-! Lane words. -/

/-- Lanes of one register have different keys. -/
theorem laneKey_inj (c : Ctx) (r l l' : Nat) (h : c.laneKey r l = c.laneKey r l') : l = l' := by
  unfold Ctx.laneKey Ctx.rowOf Ctx.dpLane at h
  split at h
  · omega
  · omega

theorem smGet_foldl_setLane_out (c : Ctx) (r : Nat) (v : Nat → W32) (ls : List Nat) (s : State) (k : Nat)
    (h : ∀ l ∈ ls, k ≠ c.laneKey r l) :
    smGet 0#32 (ls.foldl (fun t l => t.setLane c r l (v l)) s).rows k = smGet 0#32 s.rows k := by
  induction ls generalizing s with
  | nil => rfl
  | cons x xs ih =>
    simp only [List.foldl_cons]
    rw [ih _ (fun l hl => h l (List.mem_cons_of_mem _ hl)), setLane_rows, smGet_smSet, if_neg (h x List.mem_cons_self)]

theorem lane_foldl_setLane (c : Ctx) (r : Nat) (v : Nat → W32) (ls : List Nat) (s : State) (l : Nat) (h : l ∈ ls) :
    (ls.foldl (fun t l => t.setLane c r l (v l)) s).lane c r l = v l := by
  induction ls generalizing s with
  | nil => cases h
  | cons x xs ih =>
    simp only [List.foldl_cons]
    by_cases hx : l ∈ xs
    · exact ih _ hx
    · have hl : l = x := by cases h with | head => rfl | tail _ h => exact absurd h hx
      subst hl
      show smGet 0#32 _ _ = _
      rw [smGet_foldl_setLane_out]
      · simp
      · intro l' hl' e
        have := laneKey_inj c r l l' e
        exact hx (this ▸ hl')

theorem foldl_setLane_rows (c : Ctx) (r : Nat) (v : Nat → W32) (ls : List Nat) (s : State) :
    ls.foldl (fun t l => t.setLane c r l (v l)) s = { s with rows := (ls.foldl (fun t l => t.setLane c r l (v l)) s).rows } := by
  induction ls generalizing s with
  | nil => rfl
  | cons x xs ih => simp only [List.foldl_cons]; rw [ih]; rfl

/-- A lane word with one destination (R37, R38). -/
theorem laneAlu_ends (i : Instr) (g : Guard) (d : VReg) (v : State → Ctx → Nat → W32) (s : State) (h : issueCheck s s.me i = .go) :
    LaneEnds s (laneAlu i g d v s) g d (v s s.me) := by
  have e : laneAlu i g d v s = wrGuard s.me g d (v s s.me) (popHead s) := by unfold laneAlu issueLane; rw [h]
  rw [e]
  have hr : (popHead s).rows = s.rows := rfl
  unfold LaneEnds wrGuard wr Team.dests
  split
  · next hu =>
    simp only [Nat.add_zero]
    refine ⟨foldl_setLane_rows _ _ _ _ _, fun l hl => ?_, fun k hk => ?_⟩
    · exact lane_foldl_setLane s.me _ (fun _ => v s s.me 0) _ _ l hl
    · rw [smGet_foldl_setLane_out s.me _ (fun _ => v s s.me 0) _ _ _ hk, hr]
  · next hu =>
    simp only [Nat.add_zero]
    refine ⟨foldl_setLane_rows _ _ _ _ _, fun l hl => ?_, fun k hk => ?_⟩
    · exact lane_foldl_setLane s.me _ _ _ _ l hl
    · rw [smGet_foldl_setLane_out s.me _ _ _ _ _ hk, hr]

end Sys2Proof.Machine
end

