-- ==== Sys2Proof/Tests/Slice0.lean ====
section
/-! SUPPORT. Tests: ill-formed terms, words written out in the spec, one step of instructions on small states, and for each statement
states and operands that meet its hypotheses. Expected results are the spec's examples and tables, or worked by hand from its rules. -/

open Sys2Proof Sys2Proof.Machine

namespace Sys2Proof.Tests

/-! Small states. -/

def t0 : Team := { Team.none with w := 32, vl := 64, act := 2 ^ 32 - 1 }
/-- A running context with registers g, at 0x1000, whose handler stands at 0x2000. -/
def cx (g : SMap W64) : Ctx :=
  { Ctx.none with st := .running, pc := 0x1000, g := g, team := t0, trap := { Trap.none with vec := 0x2000 } }
def st (c : Ctx) : State := { State.reset with ctxs := [(0, c)] }
def stG (g : SMap W64) : State := st (cx g)
/-- At level 1, in a handler. -/
def hx (g : SMap W64) : Ctx := let c := cx g; { c with trap := { c.trap with pl := true, intrap := true, epc := 0x3000 } }
/-- The task has 4,096 bytes of vault on cluster 0, from byte 0. -/
def vTask : Task := { Task.none with st := .resident, vbase := [(0, 0)], r := { TRec.none with vbytes := 4096 } }
def stV (g : SMap W64) : State := { stG g with tasks := [(0, vTask)] }
/-- Byte 0 of the task's own vault. -/
def vault : W64 := 0xFE0000003FC00000
/-- A task with one region of 4 MiB, RW, at 0x0100_0000_0000_0000, whose bytes stand at the same offsets of device memory. -/
def dTask : Task :=
  { vTask with regions := [⟨0x0100000000000000, 0, 2 ^ 22, 2, 0, 0, false, false⟩], extents := [⟨0, 2 ^ 22, 0, 0, 0, 0⟩] }
def cxD (g : SMap W64) : Ctx := { cx g with bounds := [(0, 0x1F00000000400#128)] }
def stD (g : SMap W64) : State := { st (cxD g) with tasks := [(0, dTask)] }
def dev : W64 := 0x0100000000000000
/-- The step answers a next state of which p holds. -/
def ok (o : Host.Outcome State Fault Refusal) (p : State → Bool) : Bool := match o with | .next t => p t | _ => false
def run (i : Instr) (s : State) (p : State → Bool) : Bool := ok (exec i s) p
/-- The context has trapped with a reason, in all its bits. -/
def trapped (w : W64) (s : State) : Bool := s.me.pc == 0x2000#64 && s.me.trap.reason == w && s.me.trap.pl

theorem memInv (s : State) (hm : s.mem = []) (hc : s.cls = []) : s.Inv := by
  refine ⟨by rw [hm]; rfl, ?_⟩
  rw [hc]; exact fun _ h => nomatch h
theorem canTrap_of (s : State) (h : (s.me.trap.vec != 0#64 && !s.me.trap.intrap) = true) : canTrap s := by
  simpa [canTrap] using h

/-! Generator words. -/

theorem test_add_wraps : run (.add 1 2 (.imm 1)) (stG [(2, 0xFFFFFFFFFFFFFFFF)]) (fun t => t.reg 1 == 0 && t.me.pc == 0x1008) = true := by decide
theorem test_g0_discards : run (.sub 0 2 (.imm 1)) (stG [(2, 5)]) (fun t => t.reg 0 == 0 && t.me.pc == 0x1008) = true := by decide
theorem test_mulh_signed : run (.mulh 1 2 (.imm 2)) (stG [(2, 0xFFFFFFFFFFFFFFFF)]) (fun t => t.reg 1 == 0xFFFFFFFFFFFFFFFF) = true := by decide
theorem test_mulhn : run (.mulhn 1 2 (.imm 2)) (stG [(2, 0xFFFFFFFFFFFFFFFF)]) (fun t => t.reg 1 == 1) = true := by decide
theorem test_max_signed : run (.max 1 2 (.imm 2)) (stG [(2, 0xFFFFFFFFFFFFFFFF)]) (fun t => t.reg 1 == 2) = true := by decide
theorem test_minn : run (.minn 1 2 (.imm 2)) (stG [(2, 0xFFFFFFFFFFFFFFFF)]) (fun t => t.reg 1 == 2) = true := by decide
theorem test_sel_takes_second : run (.sel 1 2 (.imm 9)) (stG [(2, 4)]) (fun t => t.reg 1 == 9) = true := by decide
theorem test_sar : run (.sar 1 2 (.imm 68)) (stG [(2, 0x8000000000000000)]) (fun t => t.reg 1 == 0xF800000000000000) = true := by decide
theorem test_clz_zero : run (.clz 1 2) (stG []) (fun t => t.reg 1 == 64) = true := by decide
theorem test_clz_one : run (.clz 1 2) (stG [(2, 1)]) (fun t => t.reg 1 == 63) = true := by decide
theorem test_popc : run (.popc 1 2) (stG [(2, 0xF0)]) (fun t => t.reg 1 == 4) = true := by decide
theorem test_remn_row4 : run (.remn 1 2 (.imm (-1))) (stG [(2, 0x8000000000000000)]) (fun t => t.reg 1 == 0x8000000000000000) = true := by decide
theorem test_divn_row2 : run (.divn 1 2 (.imm 2)) (stG [(2, -7)]) (fun t => t.reg 1 == 0x7FFFFFFFFFFFFFFC) = true := by decide

/-- Rows of R90's table: a zero divisor, the most negative number by -1, and -7 by 2. -/
theorem witness_DivisionTruncatesAndNeverFaults :
    let s := stG [(1, 0x8000000000000000), (3, -1), (4, -7), (5, 2)]
    s.reg 2 = 0 ∧ (s.reg 1 = 0x8000000000000000 ∧ s.reg 3 = 0xFFFFFFFFFFFFFFFF) ∧ s.reg 5 ≠ 0 ∧ ¬(s.reg 4 = 0x8000000000000000 ∧ s.reg 5 = 0xFFFFFFFFFFFFFFFF)
    ∧ run (.div 6 4 (.reg 2)) s (fun t => t.reg 6 == -1) ∧ run (.div 6 1 (.reg 3)) s (fun t => t.reg 6 == 0x8000000000000000)
    ∧ run (.rem 6 1 (.reg 3)) s (fun t => t.reg 6 == 0) ∧ run (.div 6 4 (.reg 5)) s (fun t => t.reg 6 == -3) ∧ run (.rem 6 4 (.reg 5)) s (fun t => t.reg 6 == -1) := by decide

theorem witness_LoadImmediate : (GWord.ofWord 0x1A01200000000000).maj = 0x1A ∧ run (.li 9 5) (stG []) (fun t => t.reg 9 == 5 && t.me.pc == 0x1010) := by decide

theorem witness_ControlTransfers :
    let s := stG [(5, 1), (6, 0x2000), (7, 9), (31, 0x3000)]
    let u := stG [(6, 0x2001), (7, 9), (31, 0x3001)]
    let m := st { cx [(7, 9)] with pc := 0x1004 }
    s.me.pc.toNat % 8 = 0 ∧ (s.reg 5).toInt < (s.reg 6).toInt ∧ ¬(s.reg 6).toInt < (s.reg 5).toInt ∧ s.reg 7 ≠ 1 ∧ s.reg 5 = 1
    ∧ (s.reg 31).toNat % 8 = 0 ∧ (s.reg 6).toNat % 8 = 0 ∧ (u.reg 31).toNat % 8 ≠ 0 ∧ (u.reg 6).toNat % 8 ≠ 0
    ∧ (m.me.pc + 8 * (1 : BitVec 34).signExtend 64).toNat % 8 ≠ 0 ∧ bcHolds .ne (m.reg 7) (m.reg 0) = true ∧ m.me.trap.vec ≠ 0 ∧ m.me.trap.intrap = false
    ∧ run (.bc .lt 5 6 (-3)) s (fun t => t.me.pc == 0xFE8) ∧ run (.loop 7 (-4)) s (fun t => t.me.pc == 0xFE0 && t.reg 7 == 8)
    ∧ run (.jr 6 6) s (fun t => t.me.pc == 0x2000 && t.reg 6 == 0x1008) ∧ run .ret u (trapped 0x0A) ∧ run (.jr 1 6) u (trapped 0x0A)
    ∧ run (.loop 7 1) m (trapped 0x0A) ∧ run (.bc .ne 7 0 1) m (trapped 0x0A) ∧ run (.call 1) m (trapped 0x0A) := by decide

theorem witness_Csrs :
    let s := stG [(1, 0xFF)]
    let h := st (hx [(1, 0xFF), (2, 0x4000)])
    let e := st { cx [] with strm := { Strm.none with ents := [.ctrl .mcastOff] } }
    (s.me.strm.ents = [] ∧ s.me.strm.pres = none) ∧ e.me.strm.ents ≠ [] ∧ (s.me.trap.vec ≠ 0 ∧ s.me.trap.intrap = false) ∧ h.me.trap.pl = true
    ∧ (h.reg 2).toNat % 8 = 0
    ∧ run (.csrr 3 0x000) s (fun t => t.reg 3 == 0x0302) ∧ run (.csrr 3 0x012) s (fun t => t.reg 3 == 64) ∧ run (.csrr 3 0x012) e (fun t => t.me.pc == 0x1000)
    ∧ run (.csrr 3 0x007) s (trapped 0x01) ∧ run (.csrwSet 3 0x403 1) h (fun t => t.reg 3 == 3300000 && t.me.trap.wdog == 3300095)
    ∧ run (.csrw 0x020 2) h (fun t => t.me.trap.vec == 0x4000)
    ∧ run (.csrw 0x024 3) (st (hx [(3, 0xFFFF000000000001)])) (fun t => csrRead t t.me 0x024 == some 1) := by decide

theorem witness_Privilege :
    let s := stG [(1, 1)]
    (s.me.trap.vec ≠ 0 ∧ s.me.trap.intrap = false) ∧ s.me.trap.pl = false ∧ (s.reg 1).toNat % 8 ≠ 0
    ∧ run .eret s (trapped 0x05) ∧ run (.sysopXtinv 1 2 3) s (trapped 0x05) ∧ run (.csrw 0x018 1) s (trapped 0x05) ∧ run (.csrw 0x000 1) s (trapped 0x01)
    ∧ run (.csrw 0x020 1) s (trapped 0x0A) := by decide

/-! Accesses of the generator. -/

def ld1 (r a : GReg) (ty : LdTy) : LdF := ⟨ty, .rlx, .cluster, r, a, 0⟩
def keys (b n : Nat) : List Nat := rangeFrom (vaultKey 0 b) n
def dkeys (b n : Nat) : List Nat := rangeFrom b n

theorem test_store_then_load :
    run (.st (ld1 1 2 .n16)) (stV [(1, 0x1234), (2, vault)])
      (fun t => memNat t.mem (vaultKey 0 0) 2 == 0x1234 && run (.ld ⟨.s8, .rlx, .cluster, 3, 2, 1⟩) t (fun u => u.reg 3 == 0x12)) = true := by decide
theorem test_ld_signs :
    run (.ld (ld1 3 2 .s16)) { stV [(2, vault)] with mem := [(vaultKey 0 1, 0x80)] } (fun u => u.reg 3 == 0xFFFFFFFFFFFF8000) = true := by decide

theorem witness_Loads : let s := stD [(2, dev)]
    (s.reg 2 + (0 : BitVec 34).signExtend 64).toNat % 2 = 0 ∧ ¬(ridOf (s.reg 2) = 0xFF ∧ 2 = 8) ∧ s.Inv ∧ NoneWaits s ∧ genAccess s .ld (genPol .cluster) (s.reg 2) 2 = .ok (dkeys 0 2)
    ∧ (∀ k ∈ dkeys 0 2, k < 2 ^ 62 ∧ isPeer k = false ∧ k / 64 = (dkeys 0 2).headD 0 / 64) ∧ smFind (s.cl 0).l1 ((dkeys 0 2).headD 0 / 64) = none :=
  ⟨by decide, by decide, memInv _ rfl rfl, rfl, rfl, by decide, rfl⟩
/-- A line that L1 holds valid: a narrow access brings L1's byte. -/
theorem witness_Loads_valid_line :
    let l : L1Line := ⟨1, 0, 2, [(0, 7)], false, []⟩
    let s : State := { stD [(2, dev)] with cls := [(0, { Cluster.reset with l1 := [(0, l)] })] }
    s.Inv ∧ NoneWaits s ∧ genAccess s .ld (genPol .cluster) (s.reg 2) 1 = .ok (dkeys 0 1) ∧ isCached 0 = true ∧ smFind (s.cl 0).l1 0 = some l ∧ bitOf l.valid 0 = true
    ∧ run (.ld (ld1 3 2 .n8)) s (fun t => t.reg 3 == 7) = true :=
  ⟨⟨rfl, by simp; decide⟩, rfl, rfl, rfl, rfl, by decide, by decide⟩

theorem witness_Stores : let s := stD [(1, 0x1234), (2, dev), (8, 3), (9, 0x55)]
    (s.reg 2 + (0 : BitVec 34).signExtend 64).toNat % 32 = 0 ∧ genAccess s .st (genPol .cluster) (s.reg 2) 2 = .ok (dkeys 0 2) ∧ (dkeys 0 2).Nodup ∧ (dkeys 0 2).length = 2
    ∧ s.Inv ∧ NoneWaits s ∧ (8 : GReg).toNat % 4 = 0 ∧ genAccess s .ld (genPol .cluster) (s.reg 2) 32 = .ok (dkeys 0 32) ∧ ¬(ridOf (s.reg 2) = 0xFF ∧ offOf (s.reg 2) < 0x1000)
    ∧ genAccess s .st (genPol .cluster) (s.reg 2) 32 = .ok (dkeys 0 32) ∧ (dkeys 0 32).Nodup
    ∧ (dkeys 0 32).all (fun k => decide (k < 2 ^ 62) && !isPeer k && decide (k / 64 = (dkeys 0 32).headD 0 / 64)) = true :=
  ⟨by decide, rfl, by decide, rfl, memInv _ rfl rfl, rfl, by decide, rfl, by decide, rfl, by decide, rfl⟩
set_option maxRecDepth 8000 in
theorem test_stx_ldx : run (.stx ⟨.rlx, .cluster, 8, 2, 0⟩) (stD [(2, dev), (8, 3), (9, 0x55)])
    (fun t => run (.ldx ⟨.rlx, .cluster, 12, 2, 0⟩) t (fun u => u.reg 12 == 3 && u.reg 13 == 0x55 && u.reg 14 == 0)) = true := by decide

theorem witness_AccessFaults :
    let s := stD [(2, dev), (3, dev + 1), (4, 1), (5, dev + 0x400000)]
    let r : State := { st { cxD [(2, dev)] with bounds := [(0, 0x1000000000400#128)] } with tasks := [(0, { dTask with regions := [] })] }
    let u : State := { stD [(2, dev)] with tasks := [(0, { dTask with regions := [] })] }
    let g : State := { stD [(2, dev), (3, dev + 0x1000)] with tasks := [(0, { dTask with regions := [⟨dev.toNat, 0, 0x1000, 0, 0, 0, false, false⟩, ⟨dev.toNat + 0x1000, 0, 0x800, 3, 0, 0, false, false⟩] })] }
    canTrap s ∧ (s.reg 3).toNat % 2 ≠ 0 ∧ ridOf (s.reg 4) = 0 ∧ 0 < ridOf (s.reg 5) ∧ ridOf (s.reg 5) < 0xFD ∧ (bndOf s.me (s.reg 5)).limit * 4096 < offOf (s.reg 5) + 1
    ∧ (bndOf r.me dev).ok r = true ∧ (bndOf r.me dev).rp = false ∧ (bndOf r.me dev).w = false
    ∧ (bndOf u.me dev).ok u = true ∧ (bndOf u.me dev).rp = true ∧ (bndOf u.me dev).w = true ∧ (u.task u.me.task).regions = [] ∧ (s.reg 3).toNat % 32 ≠ 0
    ∧ run (.ld (ld1 1 3 .n16)) s (trapped 0x0A) ∧ run (.ld (ld1 1 4 .n8)) s (trapped 0x07) ∧ run (.st (ld1 1 5 .n8)) s (trapped 0x07)
    ∧ run (.ld (ld1 1 2 .n8)) r (trapped 0x08) ∧ run (.st (ld1 1 2 .n8)) r (trapped 0x08) ∧ run (.ld (ld1 1 2 .n8)) u (trapped 0x06)
    ∧ run (.st (ld1 1 2 .n8)) u (trapped 0x06) ∧ run (.ldx ⟨.rlx, .cluster, 4, 3, 0⟩) s (trapped 0x0A)
    ∧ (∀ r ∈ (g.task 0).regions, r.has dev.toNat = true → r.allows .st = false) ∧ (∀ r ∈ (g.task 0).regions, r.has (dev.toNat + 0x1000) = true → r.allows .ld = false)
    ∧ run (.ld (ld1 1 2 .n8)) g (fun t => t.me.pc == 0x1008) ∧ run (.st (ld1 1 2 .n8)) g (trapped 0x06) ∧ run (.ld (ld1 1 3 .n8)) g (fun t => trapped 0x06 t && t.me.trap.info == dev + 0x1000) :=
  ⟨canTrap_of _ rfl, by decide⟩

/-- An access whose page no walker has brought yet waits; a range lock and a bad byte stand on the way of others. -/
theorem witness_Accesses_wait :
    let u : State := { stD [(2, dev)] with tasks := [(0, { dTask with extents := [] })] }
    let l : State := { stD [(2, dev)] with cls := [(0, { Cluster.reset with locks := [⟨1, 5, true, 0, [(0, 64)]⟩] })] }
    let e : State := { stD [(2, dev)] with ecc := [1] }
    (∃ v, genAccess u .ld (genPol .cluster) (u.reg 2) 2 = .wait v) ∧ (∃ v, genAccess u .st (genPol .cluster) (u.reg 2) 2 = .wait v)
    ∧ (∃ v, genAccess u .ld (genPol .cluster) (u.reg 2) 32 = .wait v) ∧ (∃ v, genAccess u .st (genPol .cluster) (u.reg 2) 32 = .wait v)
    ∧ run (.ld (ld1 1 2 .n16)) u (fun t => t.me.pc == 0x1000 && t.walks.length == 1) = true
    ∧ resolve l l.me 0 false .ld dev 2 = .ok (dkeys 0 2) ∧ resolve l l.me 0 false .st dev 2 = .ok (dkeys 0 2) ∧ lockHit l 0 0 false = true ∧ lockHit l 0 0 true = true
    ∧ resolve e e.me 0 false .ld dev 2 = .ok (dkeys 0 2) ∧ (∀ k ∈ dkeys 0 2, lockHit e 0 k false = false) ∧ eccHit e 0 (genPol .cluster) (dkeys 0 2) = true
    ∧ run (.ld (ld1 1 2 .n16)) l (trapped 0x0B) = true ∧ run (.st (ld1 1 2 .n16)) l (trapped 0x0B) = true ∧ run (.ld (ld1 1 2 .n16)) e (trapped 0x14) = true :=
  ⟨⟨_, rfl⟩, ⟨_, rfl⟩, ⟨_, rfl⟩, ⟨_, rfl⟩, by decide, rfl, rfl, by decide, by decide, rfl, by decide, by decide, by decide, by decide, by decide⟩

/-! Traps, emission. -/

/-- A second context of the same task, at slot 1. -/
def two (c d : Ctx) : State := { State.reset with ctxs := [(0, c), (1, { d with slot := 1, idx := 1 })] }
/-- A group of two: positions 0 and 1. -/
def grp (c d : Ctx) : State := { State.reset with ctxs := [(0, { c with gsize := 2 }), (8, { d with gsize := 2, gpos := 1, cl := 1 })] }
/-- VIADD v5, v3, 7 (R121's example). -/
def uAdd : List W64 := [0x8000A030001C0100]

theorem test_trap_eret : run (.trap 0x42) (stG []) (fun t => trapped 0x22 t && t.me.trap.info == 0x42 && t.me.trap.epc == 0x1008
    && run .eret t (fun u => u.me.pc == 0x1008 && !u.me.trap.pl)) = true := by decide
theorem witness_Trap : canTrap (stG []) := canTrap_of _ rfl

theorem witness_Eret :
    let s := st (hx [])
    let b := st { hx [] with strm := { Strm.none with stopped := true, ents := [.lane 0x1000 uAdd] } }
    let k : Rake := { Rake.zero with flags := 1, ws := uAdd ++ uAdd }
    let n := st { hx [] with strm := { Strm.none with stopped := true, ents := [.inst 0 3 0 0 []] }, cap := { Cap.none with rakes := [(3, k)] } }
    let m := st { hx [] with strm := { Strm.none with stopped := true, ents := [.inst 0 3 0 1 []] }, cap := { Cap.none with rakes := [(3, k)] } }
    let o := st { cx [] with trap := { (cx []).trap with pl := true } }
    s.me.trap.pl = true ∧ s.me.trap.intrap = true ∧ s.me.strm.stopped = false ∧ b.me.strm.stopped = true ∧ b.me.strm.ents = [.lane 0x1000 uAdd]
    ∧ n.me.strm.ents = [.inst 0 3 0 0 []] ∧ 0 + unitLen (k.ws.drop 0) < k.ws.length ∧ m.me.strm.ents = [.inst 0 3 0 1 []] ∧ k.ws.length ≤ 1 + unitLen (k.ws.drop 1)
    ∧ o.me.trap.pl = true ∧ o.me.trap.intrap = false ∧ o.me.trap.vec ≠ 0
    ∧ run .eret s (fun t => t.me.pc == 0x3000 && !t.me.trap.pl) ∧ run .eretSkip b (fun t => t.me.strm.ents.isEmpty && !t.me.strm.stopped)
    ∧ run .eretSkip n (fun t => t.me.strm.ents == [.inst 0 3 0 1 []]) ∧ run .eretSkip m (fun t => t.me.strm.ents.isEmpty)
    ∧ run .eretFlush b (fun t => t.me.strm.ents.isEmpty && t.me.pc == 0x3000) ∧ run .eret o (fun t => trapped 0x01 t && t.me.trap.info == 0x41) := by decide

theorem witness_Brk :
    let s := st { cx [] with trap := { (cx []).trap with dbgatt := true } }
    let n := st { cx [] with trap := { (cx []).trap with brkskip := 0xFFFFFFFFFFFFFFFF } }
    canTrap s ∧ s.me.trap.dbgatt = true ∧ s.me.dbg.brkhalt = false ∧ n.me.trap.dbgatt = false ∧ s.ctxAt 0 0 = some (0, s.me) ∧ s.pf.linkUp = true ∧ s.pf.trip = false
    ∧ s.pf.staging = false ∧ run (.brk 7) s (fun t => trapped 0x15 t && t.me.trap.info == 7 && t.me.trap.epc == 0x1000)
    ∧ run (.brk 7) n (fun t => t.me.trap.brkskip == 0 && t.me.pc == 0x1008) ∧ run (.attach 0 0 0) s (fun t => !t.me.trap.dbgatt) :=
  ⟨canTrap_of _ rfl, by decide⟩

theorem witness_Debug :
    let s := st { cx [] with trap := { (cx []).trap with dbgatt := true }, dbg := { Dbg.none with brkhalt := true } }
    let h := { two (hx [(2, 0x100), (3, 0x1100), (4, 0x500)]) (cx []) with tasks := [(0, vTask)] }
    let f := { two (hx [(2, 0x100)]) { cx [] with task := 1 } with tasks := [(0, vTask), (1, { vTask with tenant := 1 })] }
    let c := st { hx [] with trap := { (cx []).trap with pl := true } }
    let p := st { cx [] with dbg := { Dbg.none with pend := some (true, 0x21) } }
    s.me.trap.dbgatt = true ∧ s.me.dbg.brkhalt = true ∧ s.me.trap.intrap = false ∧ quiet s.me = true ∧ s.pf.linkUp = true
    ∧ h.me.trap.pl = true ∧ (h.reg 2).toNat < 2 ^ 13 ∧ (h.reg 2).toNat.testBit 11 = false ∧ (h.reg 2).toNat.testBit 12 = false ∧ (h.reg 3).toNat.testBit 12 = true
    ∧ h.ctxAt 0 1 = some (1, h.ctx 1) ∧ h.tenOf (h.ctx 1) = h.tenOf h.me ∧ 1 ≠ h.cur ∧ h.ctxAt ((h.reg 4).toNat % 256) ((h.reg 4).toNat / 256 % 8) = none
    ∧ f.ctxAt 0 1 = some (1, f.ctx 1) ∧ f.tenOf (f.ctx 1) ≠ f.tenOf f.me
    ∧ p.me.st.resident = true ∧ p.me.dbg.halted = false ∧ p.me.trap.intrap = false ∧ p.me.trap.preempt = none ∧ p.me.dbg.pend = some (true, 0x21) ∧ quiet p.me = true
    ∧ run (.brk 7) s (fun t => t.me.dbg.halted && t.me.dbg.reason == 0x15) ∧ run (.haltHard 1 2 5) h (fun t => (t.ctx 1).dbg.pend == some (true, 0x21) && t.reg 1 == 0)
    ∧ run (.haltSoft 1 3 5) h (fun t => (t.ctx 1).dbg.pend == some (false, 0x21) && t.me.dbg.pend == some (false, 0x21)) ∧ run (.dbgopStatus 1 4 5) h (fun t => t.reg 1 == 1)
    ∧ run .sysopHalt c (fun t => t.me.dbg.pend == some (false, 0x21)) ∧ run .trapEntry p (fun t => t.me.dbg.halted && t.me.dbg.hard && t.me.dbg.reason == 0x21) := by decide
theorem witness_Debug_other_tenant :
    let c := { hx [(2, 0x100)] with trap := { (cx []).trap with pl := true } }
    let f := { two c { cx [] with task := 1 } with tasks := [(0, vTask), (1, { vTask with tenant := 1 })] }
    canTrap f ∧ f.tenOf (f.ctx 1) ≠ f.tenOf f.me ∧ run (.haltSoft 1 2 5) f (trapped 0x08) = true := ⟨canTrap_of _ rfl, by decide⟩

theorem witness_Imprecise :
    let tr := (cx []).trap
    let l := st { cx [] with trap := { tr with laneF := some ⟨0x07, 5, 3, 1, 0x1000, false⟩ } }
    let e := (st { cx [] with trap := { tr with engF := true } }).setEng 0 { Eng.reset with fcode := 0x08, frow := 4 }
    let k := st { cx [] with trap := { tr with copyF := [⟨0x0F, 9⟩] } }
    let p := st { cx [] with trap := { tr with preempt := some 2, savevec := 0x5000 } }
    let n := st { cx [] with trap := { tr with laneF := some ⟨0x09, 5, 3, 1, 0x1000, false⟩, savevec := 0x5000 } }
    let w := { st { hx [] with trap := { (hx []).trap with wdog := 10, since := 5 } } with mc := 16 }
    canTrap l ∧ canTrap e ∧ canTrap k ∧ l.me.st.resident = true ∧ l.me.dbg.halted = false ∧ l.me.trap.preempt = none ∧ l.me.dbg.pend = none
    ∧ l.me.trap.laneF = some ⟨0x07, 5, 3, 1, 0x1000, false⟩ ∧ e.me.trap.laneF = none ∧ e.me.trap.engF = true ∧ (e.eng 0).fcode ≠ 0x09 ∧ k.me.trap.engF = false
    ∧ k.me.trap.copyF = [⟨0x0F, 9⟩] ∧ p.me.trap.intrap = false ∧ quiet p.me = true ∧ p.me.trap.preempt = some 2 ∧ n.me.trap.laneF = some ⟨0x09, 5, 3, 1, 0x1000, false⟩
    ∧ w.me.trap.intrap = true ∧ w.me.trap.wdog.toNat < w.mc - w.me.trap.since ∧ ({ w with mc := 15 } : State).mc - w.me.trap.since ≤ w.me.trap.wdog.toNat
    ∧ run .trapEntry l (trapped 0x54030007) ∧ run .trapEntry e (trapped 0x9C040008) ∧ run .trapEntry k (trapped 0xD000000F)
    ∧ run .preempt p (fun t => t.me.pc == 0x5000 && t.me.trap.reason == 0x20 && t.me.trap.info == 2) ∧ run .notpresentSave n (fun t => t.me.pc == 0x5000 && t.me.trap.info == 5)
    ∧ run .watchdog w (fun t => t.me.st == .retired) ∧ run .watchdog { w with mc := 15 } (fun t => t.me.st == .running) :=
  ⟨canTrap_of _ rfl, canTrap_of _ rfl, canTrap_of _ rfl, by decide⟩

/-- What is held back: a halt inside a handler, a breakpoint while the team is part way, and everything between a HOLE and its unit; the
holes that a trap has put by come back. A HARD halt stops a busy engine. -/
theorem witness_Held :
    let d := { Dbg.none with brkhalt := true }
    let b := st { hx [] with trap := { (hx []).trap with dbgatt := true }, dbg := d }
    let u := st { cx [] with trap := { (cx []).trap with dbgatt := true }, dbg := d, strm := { Strm.none with pres := some (0, uAdd) } }
    let cap := { Cap.none with openR := some 5, holes := [(1, .base, 7)] }
    let o := st { cx [] with trap := { (cx []).trap with laneF := some ⟨0x07, 5, 3, 1, 0x1000, false⟩ }, cap := cap }
    let p := st { cx [] with trap := { (cx []).trap with preempt := some 2 }, cap := cap }
    let k := st { hx [] with cap := { Cap.none with kept := [(1, .base, 7)] } }
    let e := (st { cx [] with dbg := { Dbg.none with pend := some (true, 0x21) } }).setEng 0
      { Eng.reset with owner := some 0, q := [⟨.mzero 1, 0, 1, false, false, false, false, none, none, none, []⟩] }
    b.me.trap.intrap = true ∧ b.me.trap.dbgatt = true ∧ b.me.dbg.brkhalt = true ∧ b.me.dbg.pend = none ∧ u.me.trap.intrap = false ∧ quiet u.me = false
    ∧ o.me.cap.holes ≠ [] ∧ canTrap o ∧ p.me.cap.holes ≠ [] ∧ k.me.trap.restoring = false ∧ (∀ j, j < 8 → ∀ w ∈ smGet [] k.semAway (8 * k.cur + j), w.1 ≠ k.cur)
    ∧ (e.eng 0).owner = some e.me.task ∧ (e.eng 0).q ≠ [] ∧ (e.eng 0).faulted = false
    ∧ run (.brk 7) b (fun t => t.me.dbg.pend == some (false, 0x15) && t.me.pc == 0x1008) ∧ run (.brk 7) u (fun t => t.me.pc == 0x1000 && !t.me.dbg.halted)
    ∧ run .trapEntry o (fun t => t.me.pc == 0x1000) ∧ run .preempt p (fun t => t.me.pc == 0x1000) ∧ run .eret k (fun t => t.me.cap.holes == [(1, .base, 7)] && t.me.cap.kept.isEmpty)
    ∧ run .trapEntry e (fun t => (t.eng 0).stopped && t.me.dbg.hard) :=
  ⟨by decide, by decide, by decide, by decide, by decide, by decide, by decide, canTrap_of _ rfl, by decide⟩

theorem witness_Emission :
    let s := stG []
    let full := st { cx [] with strm := { Strm.none with ents := [.inst 0 0 0 0 []], pres := none } }
    let k : Rake := { Rake.zero with flags := 2 }
    let o := st { cx [] with cap := { Cap.none with openR := some 5, rakes := [(5, k)] } }
    let h := st { cx [] with cap := { Cap.none with openR := some 5, rakes := [(5, { k with hmask := 2, ws := uAdd })] } }
    let z := st { cx [] with cap := { Cap.none with openR := some 5, rakes := [(5, k)], holes := [(1, .base, 3)] } }
    let a := st { cx [] with cap := { Cap.none with openR := some 5, rakes := [(5, k)], holes := [(1, .i9, 3)] } }
    canTrap s ∧ s.me.trap.inSave = false ∧ (match checkUnit s.reg uAdd with | .ok (_, us) => us == uAdd | _ => false) = true ∧ s.me.cap.holes = [] ∧ s.me.strm.mcOn = false
    ∧ s.me.cap.openR = none ∧ entWords s.me.strm.ents + 1 ≤ 128 ∧ o.me.cap.openR = some 5 ∧ (smGet Rake.zero o.me.cap.rakes 5).ws.length + 1 ≤ 512
    ∧ (match checkUnit s.reg [0xBFC0000000000000] with | .error _ => true | _ => false) = true
    ∧ (∀ cid ∈ s.cur :: followers s s.me, (s.ctx cid).strm.hasInst s.cur 5 = false) ∧ (smGet Rake.zero o.me.cap.rakes 5).ws = [] ∧ (smGet Rake.zero h.me.cap.rakes 5).ws ≠ []
    ∧ (smGet Rake.zero h.me.cap.rakes 5).hmask.testBit 1 = true ∧ (smGet Rake.zero o.me.cap.rakes 5).hmask.testBit 1 = false ∧ (∀ x ∈ o.me.cap.holes, x.1 ≠ 1)
    ∧ full.me.strm.ents ≠ []
    ∧ holeAt (uAdd.take 1) .base = none ∧ holeAt [0x8000A03000000100] .i9 = some 0
    ∧ run (.laneUnitEmission uAdd) z (fun t => trapped 0x0D t && t.me.trap.info == 4 && t.me.cap.openR == some 5 && smGet Rake.zero t.me.cap.rakes 5 == k)
    ∧ run (.laneUnitEmission [0x8000A03000000100]) a (fun t => t.me.strm.ents == [.lane 0x1000 [0x8000A030000C0100]] && t.me.cap.holes == [])
    ∧ run (.laneUnitEmission uAdd) s (fun t => t.me.strm.ents == [.lane 0x1000 uAdd] && t.me.pc == 0x1008)
    ∧ run (.laneUnitEmission uAdd) o (fun t => (smGet Rake.zero t.me.cap.rakes 5).ws == uAdd)
    ∧ run (.laneUnitEmission [0xBFC0000000000000]) s (trapped 0x01) ∧ run (.laneUnitEmission [0xBF8B000000000000, 0x8000A030001C0100]) s (trapped 0x02)
    ∧ run (.beginS 5) s (fun t => t.me.cap.openR == some 5) ∧ run (.beginS 6) o (trapped 0x0D) ∧ run .endS s (trapped 0x0D) ∧ run .endS o (trapped 0x0D)
    ∧ run .endS h (fun t => t.me.cap.openR == none && (smGet Rake.zero t.me.cap.rakes 5).flags == 1) ∧ run (.hole 1 .base (.reg 1)) h (trapped 0x0D)
    ∧ run (.hole 1 .base (.reg 1)) o (fun t => t.me.cap.holes == [(1, .base, 0)]) ∧ run (.hole 1 .base (.reg 1)) s (trapped 0x0D) :=
  ⟨canTrap_of _ rfl, by decide⟩
set_option maxRecDepth 8000 in
/-- A stream and a rake without room. -/
theorem witness_Emission_full :
    let s := st { cx [] with strm := { Strm.none with ents := List.replicate 128 (.lane 0 uAdd) } }
    let o := st { cx [] with cap := { Cap.none with openR := some 5, rakes := [(5, { Rake.zero with ws := List.replicate 512 0 })] } }
    128 < entWords s.me.strm.ents + 1 ∧ 512 < (smGet Rake.zero o.me.cap.rakes 5).ws.length + 1
    ∧ run (.laneUnitEmission uAdd) s (fun t => t.me.pc == 0x1000 && t.me.cap.want == 1) ∧ run (.laneUnitEmission uAdd) o (fun t => trapped 0x0D t && t.me.cap.openR == none) := by decide

theorem witness_ControlEntries :
    let s := stG [(1, 0xF0), (2, 16)]
    let m := st { cx [] with strm := { Strm.none with ents := [.ctrl (.teamM 0 0xF0)] } }
    let n := st { cx [] with strm := { Strm.none with ents := [.ctrl (.teamN 40)] } }
    let sib : Ctx := { cx [] with team := { t0 with vb := 64 } }
    let q := two (cx [(2, 16)]) sib
    let r := two { cx [] with strm := { Strm.none with ents := [.ctrl (.qset 1 16)] } } sib
    let u := two { cx [] with strm := { Strm.none with ents := [.ctrl (.qset 1 16)] }, team := { t0 with vb := 64 } } (cx [])
    canTrap s ∧ s.me.cap.openR = none ∧ s.me.strm.mcOn = false ∧ entWords s.me.strm.ents + 1 ≤ 128 ∧ 0 < max 1 (s.me.team.w / 32) ∧ max 1 (s.me.team.w / 32) ≤ (s.reg 2).toNat
    ∧ q.sibling q.me 1 = 1 ∧ (q.ctx 1).st.resident = true ∧ (q.ctx 1).cl = q.me.cl ∧ (q.ctx 1).slice = q.me.slice ∧ (q.reg 2).toNat ≤ q.me.team.vl
    ∧ (q.ctx 1).team.vb = q.me.team.vb + q.me.team.vl ∧ q.me.strm.ents.any isQset = false ∧ q.sibling q.me 1 ≠ q.cur
    ∧ r.me.strm.ents = [.ctrl (.qset 1 16)] ∧ (r.ctx 1).team.vb = r.me.team.vb + r.me.team.vl ∧ r.empt = [] ∧ (u.ctx 1).team.vb ≠ u.me.team.vb + u.me.team.vl
    ∧ (u.ctx 1).team.vb + (u.ctx 1).team.vl = u.me.team.vb
    ∧ run (.teamN (.imm 40)) s (fun t => t.me.strm.ents == [.ctrl (.teamN 40)]) ∧ run (.teamM 1 (.imm 0)) s (fun t => t.me.strm.ents == [.ctrl (.teamM 0 0xF0)])
    ∧ run (.teamM 1 (.imm 1)) s (trapped 0x0D) ∧ run (.qset 1 2) q (fun t => t.me.strm.ents == [.ctrl (.qset 1 16)] && t.me.pc == 0x1000)
    ∧ run .controlEntryEffect m (fun t => t.me.team.act == 0xF0) ∧ run .controlEntryEffect n (fun t => t.me.team.act == 0xFFFFFFFF)
    ∧ run .controlEntryEffect r (fun t => t.me.team.vl == 48 && (t.ctx 1).team.vb == 48 && (t.ctx 1).team.vl == 80 && t.me.pc == 0x1008)
    ∧ run .controlEntryEffect u (fun t => t.me.team.vb == 80 && t.me.team.vl == 48 && (t.ctx 1).team.vl == 80) := ⟨canTrap_of _ rfl, by decide⟩

theorem witness_Replay :
    let k : Rake := { Rake.zero with flags := 1, hmask := 2, votes := 1, holes := [(1, 2)], last := [(1, 0x100)], ws := uAdd ++ [0x8000A030001C0200, 0] }
    let s := st { cx [(5, 0x40)] with cap := { Cap.none with rakes := [(3, k)] } }
    let i := st { cx [] with cap := { Cap.none with rakes := [(3, k)] }, strm := { Strm.none with ents := [.inst 0 3 7 0 [(1, 0x140)]] } }
    canTrap s ∧ s.me.cap.openR = none ∧ (smGet Rake.zero s.me.cap.rakes 3).flags = 1 ∧ (∀ j ∈ (List.range 8).filter fun j => k.hmask.testBit j, (4 : GReg).toNat + j ≤ 31)
    ∧ s.me.strm.votesOut + k.votes ≤ 16 ∧ s.me.strm.mcOn = false ∧ entWords s.me.strm.ents + 1 ≤ 128 ∧ (smGet Rake.zero s.me.cap.rakes 4).flags ≠ 1
    ∧ i.me.strm.pres = none ∧ i.me.strm.ents = [.inst 0 3 7 0 [(1, 0x140)]] ∧ i.me.dbg.bpc = [] ∧ (decodeUnit uAdd).any (boundClear i.me.team) = false
    ∧ (∀ cid ∈ s.cur :: followers s s.me, (s.ctx cid).strm.hasInst s.cur 3 = false)
    ∧ run (.replay 3 4) s (fun t => t.me.strm.ents == [.inst 0 3 0 0 [(1, 0x40)]] && t.me.strm.instCount == 1 && t.me.strm.votesOut == 1)
    ∧ run (.replayi 3 4) s (fun t => t.me.strm.ents == [.inst 0 3 0 0 [(1, 0x140)]]) ∧ run (.replay 4 4) s (trapped 0x0D)
    ∧ run .replayInstanceExpansion i (fun t => t.me.strm.pres == some (0x1C0019, uAdd))
    ∧ run (.dropS 3) s (fun t => (smGet Rake.zero t.me.cap.rakes 3).flags == 0) ∧ run .dropSAll s (fun t => (smGet Rake.zero t.me.cap.rakes 3).flags == 0) := ⟨canTrap_of _ rfl, by decide⟩
theorem witness_Replay_dropAll (q : Nat) : (stG []).me.cap.openR ≠ some q ∧ ∀ cid ∈ (stG []).cur :: followers (stG []) (stG []).me, ((stG []).ctx cid).strm.hasInst (stG []).cur q = false :=
  ⟨nofun, fun cid h => by
    have h' : cid ∈ [0] := h
    cases h' with
    | head => rfl
    | tail _ h => cases h⟩

theorem witness_Multicast :
    let s := grp (cx []) (cx [])
    let o := grp { cx [] with strm := { Strm.none with mcOn := true } } { cx [] with strm := { Strm.none with mcRecv := true } }
    let f := { s with cur := 8 }
    let v := st { cx [] with strm := { Strm.none with votesOut := 2, voteQ := [0x11] } }
    let n := st { cx [] with strm := { Strm.none with votesOut := 1, voteFly := [(some 0x22, none)] } }
    s.me.cap.openR = none ∧ s.me.gsize ≠ 1 ∧ s.me.gpos = 0 ∧ entWords s.me.strm.ents + 1 ≤ 128 ∧ (stG []).me.gsize = 1 ∧ o.me.strm.mcOn = true ∧ followers o o.me = [8]
    ∧ (o.ctx 8).strm.mcRecv = true ∧ f.me.gpos ≠ 0 ∧ f.me.gsize ≠ 1 ∧ canTrap f ∧ canTrap s ∧ v.me.tryw = none ∧ v.me.strm.voteQ = [0x11] ∧ v.me.strm.votesOut ≠ 0
    ∧ n.me.strm.voteQ = [] ∧ n.me.st = .running ∧ (stG []).me.strm.votesOut = 0 ∧ n.me.strm.voteFly = [(some 0x22, none)]
    ∧ s.me.strm.mcOn = false ∧ o.cur ∉ followers o o.me ∧ entWords (o.ctx 8).strm.ents + 1 ≤ 128
    ∧ run .mcastOn o (fun t => t.me.strm.mcOn && t.me.strm.ents == [.ctrl .mcastOn] && (t.ctx 8).strm.ents == [.ctrl .mcastOn] && (t.ctx 8).pc == 0x1000)
    ∧ run .mcastOn s (fun t => t.me.strm.mcOn && t.me.strm.ents == [.ctrl .mcastOn]) ∧ run .mcastRecv f (fun t => t.me.strm.mcRecv && t.me.pc == 0x1000)
    ∧ run .mcastOff o (fun t => !t.me.strm.mcOn && (t.ctx 8).strm.ents == [.ctrl .mcastOff] && (t.ctx 8).pc == 0x1008) ∧ run .mcastOn f (trapped 0x0D)
    ∧ run .mcastRecv s (trapped 0x0D) ∧ run (.vqpop 4) v (fun t => t.reg 4 == 0x11 && t.me.strm.votesOut == 1) ∧ run (.vqtry 4) n (fun t => t.reg 4 == -1)
    ∧ run (.vqpop 4) n (fun t => t.me.st == .waiting false) ∧ run (.vqpop 4) (stG []) (trapped 0x0D) ∧ run .voteResultReady n (fun t => t.me.strm.voteQ == [0x22])
    ∧ run .drain (stG []) (fun t => t.me.pc == 0x1008) :=
  ⟨by decide, by decide, by decide, by decide, by decide, by decide, by decide, by decide, by decide, by decide, canTrap_of _ rfl, canTrap_of _ rfl, by decide⟩
theorem witness_Multicast_drain_waits :
    let s := st { cx [] with strm := { Strm.none with ents := [.lane 0x1000 uAdd] } }
    s.me.strm.ents ≠ [] ∧ run .drain s (fun t => t.me.pc == 0x1000) = true := by decide

/-! Atomics and synchronisation. -/

def at1 (d a b : GReg) : AtF := ⟨.rlx, .cluster, d, a, b, 0⟩
theorem witness_Atomics : let s : State := { stD [(2, dev), (3, 7)] with mem := [(0, 0xFE), (1, 0xFF), (2, 0xFF), (3, 0xFF)] }
    atomAccess s .at_ true (s.reg 2) 4 (typeOk .n32) = .ok (dkeys 0 4) ∧ s.Inv ∧ NoneWaits s ∧ (dkeys 0 4).headD 0 % 4 = 0 ∧ isPeer ((dkeys 0 4).headD 0) = false
    ∧ atomAccess s (.red AOp.add.code ATy.f32.code.toNat) false (s.reg 2) 4 (typeOk .f32) = .ok (dkeys 0 4)
    ∧ run (.atom .add .s32 (at1 1 2 3)) s (fun t => t.reg 1 == -2 && memNat t.mem 0 4 == 5) = true
    ∧ run (.atom .incw .n32 (at1 1 2 3)) s (fun t => t.reg 1 == 0xFFFFFFFE && memNat t.mem 0 4 == 0) = true
    ∧ run (.cas .n32 (at1 1 2 3)) s (fun t => t.reg 1 == 0xFFFFFFFE && memNat t.mem 0 4 == 0xFFFFFFFE) = true
    ∧ run (.red .or .n32 (at1 0 2 3)) s (fun t => memNat t.mem 0 4 == 0xFFFFFFFF) = true
    ∧ run (.red .add .f32 (at1 0 2 3)) s (fun t => t.redq.length == 1 && memNat t.mem 0 4 == 0xFFFFFFFE) = true :=
  ⟨rfl, ⟨by decide, fun _ h => nomatch h⟩, rfl, by decide, by decide, rfl, by decide, by decide, by decide, by decide, by decide⟩

theorem witness_Fences :
    let l : L1Line := ⟨3, 1, 0, [(0, 7), (1, 9)], false, []⟩
    let s : State := { stD [] with cls := [(0, { Cluster.reset with l1 := [(0, l)] })] }
    s.Inv ∧ NoneWaits s ∧ smFind (s.cl 0).l1 0 = some l ∧ l.t < scopeRank .task ∧ bitOf l.dirty 0 = true
    ∧ run (.fence ⟨.rel, .task⟩) s (fun t => memGet t.mem 0 == 7) = true
    ∧ run (.fence ⟨.acq, .task⟩) s (fun t => (smFind (t.cl 0).l1 0).all fun l => l.valid == l.dirty) = true :=
  ⟨⟨rfl, by simp; decide⟩, rfl, rfl, by decide, by decide, by decide, by decide⟩
theorem witness_Barriers :
    let s : State := { stD [(2, dev), (3, 3), (4, 5)] with mem := [(0, 2), (4, 1), (8, 4)] }
    let z := stD [(2, dev), (3, 3)]
    s.Inv ∧ NoneWaits s ∧ (s.cl 0).l1 = [] ∧ s.me.tryw = none ∧ (dkeys 0 64).headD 0 % 64 = 0 ∧ memNat s.mem 0 4 ≠ 0 ∧ memNat z.mem 0 4 = 0 ∧ canTrap z
    ∧ memNat s.mem 8 2 ≠ (s.reg 3).toNat % 2 ^ 16 ∧ s.me.st = .running :=
  ⟨⟨by decide, fun _ h => nomatch h⟩, rfl, rfl, rfl, by decide, by decide, by decide, canTrap_of _ rfl, by decide, rfl⟩
set_option maxRecDepth 8000 in
theorem witness_Barriers_access : let s : State := { stD [(2, dev), (3, 3), (4, 5)] with mem := [(0, 2), (4, 1), (8, 4)] }
    atomAccess s .at_ true (s.reg 2) 64 barOk = .ok (dkeys 0 64) ∧ atomAccess s .rd true (s.reg 2) 64 barOk = .ok (dkeys 0 64) := ⟨rfl, rfl⟩
set_option maxRecDepth 8000 in
theorem test_bararr : run (.bararr (at1 1 2 3)) { stD [(2, dev), (3, 4)] with mem := [(0, 2), (4, 1), (8, 4)] }
    (fun t => t.reg 1 == 4 && memNat t.mem 4 4 == 1 && memNat t.mem 8 2 == 6) = true := by decide
set_option maxRecDepth 8000 in
theorem test_barwait : run (.barwait (at1 1 2 3)) { stD [(2, dev), (3, 4)] with mem := [(8, 4)] }
    (fun t => t.me.st == .waiting false && memNat t.mem 0x10 1 == 1) = true := by decide
set_option maxRecDepth 8000 in
theorem test_bartest : run (.bartest (at1 1 2 3)) { stD [(2, dev), (3, 3)] with mem := [(8, 4)] } (fun t => t.reg 1 == 1) = true := by decide

theorem witness_Waiting :
    let s : State := { stD [(2, dev), (3, 5)] with mem := [(0, 7)] }
    let w := { s with ctxs := [(0, { s.me with st := .waiting false })] }
    let o := st { cx [] with st := .waiting true, tryw := some { d := 9, t := 10, at_ := 0xFF8, start := 0, met := false } }
    let v := st { cx [] with tryw := some { d := 9, t := 0, at_ := 0xFF8, start := 0, met := false }, strm := { Strm.none with votesOut := 1 } }
    let u := st { cx [] with tryw := some { d := 9, t := 0, at_ := 0xFF8, start := 0, met := false }, strm := { Strm.none with votesOut := 1, voteQ := [3] } }
    s.Inv ∧ NoneWaits s ∧ s.me.tryw = none ∧ atomAccess s .rd true (s.reg 2) 4 (fun _ => true) = .ok (dkeys 0 4)
    ∧ leNat ((rangeFrom 0 4).map (byteAt s 0)) ≠ (s.reg 3).toNat ∧ s.me.st = .running ∧ w.me.st = .waiting false
    ∧ o.me.st = .waiting true ∧ ({ o with mc := 10 } : State).me.tryw = some { d := 9, t := 10, at_ := 0xFF8, start := 0, met := false } ∧ o.mc < 0 + 10
    ∧ v.me.strm.votesOut ≠ 0 ∧ v.me.strm.voteQ = [] ∧ u.me.strm.voteQ = [3]
    ∧ run (.waitc false .ne (at1 1 2 3)) s (fun t => t.reg 1 == 7) = true ∧ run (.waitc false .eq (at1 1 2 3)) s (fun t => t.me.st == .waiting false) = true
    ∧ run (.waitc false .ge (at1 1 2 3)) s (fun t => t.reg 1 == 7) = true
    ∧ run (.tryw 9 (.imm 10)) s (fun t => t.me.tryw == some { d := 9, t := 10, at_ := 0x1000, start := 0, met := false }) = true
    ∧ run .trywTimeout { o with mc := 10 } (fun t => t.reg 9 == 1 && t.me.st == .early && t.me.pc == 0x1008) = true ∧ run .trywTimeout { o with mc := 9 } (fun t => t.me.st == .waiting true) = true
    ∧ run (.vqpop 4) v (fun t => t.reg 9 == 1 && t.me.pc == 0x1008) = true ∧ run (.vqpop 4) u (fun t => t.reg 9 == 0 && t.reg 4 == 3) = true :=
  ⟨⟨by decide, fun _ h => nomatch h⟩, rfl, rfl, rfl, by decide, rfl, rfl, rfl, rfl, by decide, by decide, rfl, rfl, by decide, by decide, by decide, by decide, by decide, by decide, by decide, by decide⟩
/-- A waiting context whose word now meets the condition: the generator stands at its WAITC. -/
theorem witness_Waiting_poll :
    let w : Ctx := { cxD [(2, dev), (3, 5)] with st := .waiting false, pc := 0x0100000000001000 }
    let s0 : State := { st w with tasks := [(0, dTask)], mem := [(0, 7)] ++ [(0x1004, 0x10), (0x1005, 0x92), (0x1006, 0x04), (0x1007, 0x4D)],
                                  cls := [(0, { Cluster.reset with tc := [⟨0, 0, 0, 0, 0, 0⟩] })] }
    (genNext s0).2 = decodeG (GWord.ofWord 0x4D04921000000000) 0 := by decide

theorem witness_Waiting_more :
    let tw : Tryw := { d := 9, t := 10, at_ := 0xFF8, start := 0, met := true }
    let o : State := { st { cx [] with st := .waiting true, tryw := some tw } with mc := 10 }
    let v := st { cx [] with tryw := some { tw with met := false }, strm := { Strm.none with votesOut := 1 } }
    let v2 := st { cx [] with st := .waiting false, tryw := some tw, strm := { Strm.none with votesOut := 1 } }
    let p := st { cx [] with cap := { Cap.none with rakes := [(3, { Rake.zero with flags := 1, ws := uAdd })] }, trap := { (cx []).trap with preempt := some 0 },
                             strm := { Strm.none with ents := [.inst 0 3 7 0 []] } }
    let g := grp { cx [] with strm := { Strm.none with mcOn := true } } { cx [] with strm := { Strm.none with mcRecv := true } }
    o.me.tryw = some tw ∧ o.me.st = .waiting true ∧ v.me.strm.votesOut ≠ 0 ∧ v.me.strm.voteQ = [] ∧ v.me.st = .running ∧ v2.me.st = .waiting false
    ∧ p.me.strm.pres = none ∧ p.me.trap.preempt ≠ none ∧ p.me.cap.holes = [] ∧ g.cur ∉ followers g g.me ∧ (match checkUnit g.reg uAdd with
        | .ok (i, us) =>
          us == uAdd && !illegalHere g.me.team i && !boundClear g.me.team i && !isQVote i
        | _ => false) = true
    ∧ run .trywTimeout o (fun t => t.me.st == .waiting true) ∧ run (.vqpop 4) v (fun t => t.me.st == .waiting false && t.me.watch == some .vote)
    ∧ run (.vqpop 4) v2 (fun t => t.me.tryw == some { tw with met := false }) ∧ run .replayInstanceExpansion p (fun t => t.me.strm.pres == none)
    ∧ run (.laneUnitEmission uAdd) g (fun t => t.me.strm.ents == [.lane 0x1000 uAdd] && (t.ctx 8).strm.ents == [.lane 0x1000 uAdd] && (t.ctx 8).pc == 0x1000) := by decide
/-- R177: a DRAIN after a TRYW. -/
theorem witness_Waiting_bad :
    let w := st { cx [] with tryw := some { d := 9, t := 10, at_ := 0xFF8, start := 0, met := false } }
    canTrap w ∧ w.me.tryw ≠ none ∧ (admit1 w .drain).2 = none ∧ trapped 0x01 (admit1 w .drain).1 = true ∧ (admit1 w .drain).1.me.tryw = none ∧ (admit1 w (.vqpop 4)).2 = some (.vqpop 4) :=
  ⟨canTrap_of _ rfl, by decide⟩
/-- A monitor serves a context whose word has come to hold; a barrier and a semaphore whose owner is saved make their contexts wait. -/
theorem witness_Watches :
    let f : AtF := ⟨.rlx, .cluster, 1, 2, 3, 0⟩
    let s : State := { st { cxD [(2, dev), (3, 5)] with st := .waiting false, watch := some (.word 0 4 .eq 7 true f) } with tasks := [(0, dTask)], mem := [(0, 7)] }
    let a : State := { two (cx [(2, 3)]) { cx [] with st := .saved, gpos := 1 } with tasks := [(0, { vTask with r := { TRec.none with nctx := 2 } })] }
    s.me.st.resident = true ∧ s.me.watch = some (.word 0 4 .eq 7 true f) ∧ s.me.tryw = none ∧ wcHolds .eq 32 (wordAtHome s 0 0 4) 7 = true
    ∧ (serveCtx s 0).me.reg 1 = 7 ∧ (serveCtx s 0).me.st = .running ∧ (serveCtx s 0).me.watch = none
    ∧ a.me.tryw = none ∧ (8 : BitVec 6).toNat < 8 * (a.task 0).r.nctx ∧ semKey a a.me 8 = none
    ∧ run (.semacq 1 8 (.imm 5)) a (fun t => t.me.st == .waiting false && smGet [] t.semAway (8 * a.sibling a.me 1) == [(0, 5, 1)])
    ∧ run (.semget 1 8) a (fun t => t.me.st == .waiting false && t.semAway == []) := by decide

theorem witness_Semaphores :
    let r2 : TRec := { TRec.none with nctx := 2 }
    let s : State := { stG [(2, 0x100000005)] with tasks := [(0, { vTask with r := r2 })], sems := [(3, { Sem.zero with v := 7 })] }
    let e : State := { s with sems := [(3, { Sem.zero with v := 7, e := true })] }
    let w : State := { s with ctxs := [(0, cx []), (1, { cx [] with slot := 1, gpos := 1, st := .waiting false }), (2, { cx [] with slot := 2, gpos := 2, st := .waiting false })],
                              sems := [(3, ⟨1, false, [(1, 9, 4), (2, 3, 4)]⟩)] }
    s.me.tryw = none ∧ (3 : BitVec 6).toNat < 8 * (s.task 0).r.nctx ∧ semKey s s.me 3 = some 3 ∧ (s.sem 3).ws = [] ∧ 5 ≤ (s.sem 3).v ∧ (s.sem 3).v < 8 ∧ (e.sem 3).e = true
    ∧ (w.sem 3).e = false ∧ (w.sem 3).v + 2 < 2 ^ 32 ∧ (w.sem 3).ws = [(1, 9, 4), (2, 3, 4)] ∧ (w.ctx 2).tryw = none ∧ (w.sem 3).v + 2 < 9 ∧ 3 ≤ (w.sem 3).v + 2
    ∧ run (.semacq 1 3 (.imm 5)) s (fun t => t.reg 1 == 7 && (t.sem 3).v == 2) ∧ run (.semtry 1 3 (.imm 8)) s (fun t => t.reg 1 == 0x200000007)
    ∧ run (.semacq 1 3 (.imm 8)) e (fun t => t.reg 1 == 0x300000007) ∧ run (.semacq 1 3 (.imm 8)) s (fun t => (t.sem 3).ws == [(0, 8, 1)] && t.me.st == .waiting false)
    ∧ run (.semrel 1 3 (.imm 0xFFFFFFFF)) s (fun t => (t.sem 3).v == 0xFFFFFFFF && (t.sem 3).e) ∧ run (.semset 3 2) s (fun t => (t.sem 3).v == 5 && (t.sem 3).e)
    ∧ run (.semget 1 3) e (fun t => t.reg 1 == 0x100000007) ∧ run (.semrel 1 3 (.imm 2)) w (fun t => (t.sem 3).v == 0 && (t.ctx 2).reg 4 == 3 && (t.ctx 2).pc == 0x1008) := by decide

/-! The matrix engine. -/

/-- The context's task owns an engine e. -/
def stE (c : Ctx) (e : Eng) : State := { (st c).setEng 0 { e with owner := some 0 } with tasks := [(0, vTask)] }
/-- Operands of a format: of KIND 0 at a base, of KIND 1 from a tile, of KIND 2. -/
def opMem (f : Nat) (p : W64) : OpDesc := ⟨p, 0, 0, BitVec.ofNat 64 f⟩
def opTile (f : Nat) (z : W64) : OpDesc := ⟨z, 0, 0, BitVec.ofNat 64 (f + 16)⟩
def opRing (f : Nat) : OpDesc := ⟨0, 0, 0, BitVec.ofNat 64 (f + 32)⟩
def eop (k : EOpK) : EOp := ⟨k, 0, 1, false, false, false, false, none, none, none, []⟩
def eng1 (k : EOpK) : Eng := { Eng.reset with q := [eop k] }
theorem noLocks (s : State) (h : s.cls.all fun e => e.2.locks.length ≤ 50) : ∀ k, (s.cl k).locks.length ≤ 50 := by
  intro k
  have : ∀ m : SMap Cluster, (m.all fun e => e.2.locks.length ≤ 50) = true → (smGet Cluster.reset m k).locks.length ≤ 50 := by
    intro m
    induction m with
    | nil => intro _; simp [smGet, Cluster.reset]
    | cons x m ih =>
      obtain ⟨a, v⟩ := x
      intro h
      simp only [List.all_cons, Bool.and_eq_true, decide_eq_true_eq] at h
      simp only [smGet]
      split
      · exact h.1
      · exact ih h.2
  exact this _ (by simpa using h)

theorem witness_MatrixConfiguration :
    let s := stE (cx [(2, 0xFE0000003FC00000), (5, 8), (6, 0xFE0000003FC00000), (7, 0xFE0000003FC00100), (13, 12), (16, 0xFE0000003FC00020)]) Eng.reset
    let m : State := { s with mem := memSet s.mem (vaultKey 0 3) 0x80 }
    let p := stE (cx []) { Eng.reset with adpend := true }
    let o := (stG []).setEng 0 { Eng.reset with owner := some 5 }
    (s.eng 0).owner = some 0 ∧ s.me.task = 0 ∧ 5 ≠ o.me.task ∧ (o.eng o.me.cl).owner = some 5 ∧ ((stG []).eng 0).owner = none
    ∧ descIllegal ⟨s.reg 10, s.reg 11, s.reg 12, s.reg 13⟩ = true
    ∧ descIllegal ⟨s.reg 16, s.reg 17, s.reg 18, s.reg 19⟩ = false ∧ descOff ⟨s.reg 16, s.reg 17, s.reg 18, s.reg 19⟩ = true
    ∧ descIllegal ⟨s.reg 7, s.reg 8, s.reg 9, s.reg 10⟩ = false ∧ descOff ⟨s.reg 7, s.reg 8, s.reg 9, s.reg 10⟩ = false
    ∧ (s.eng 0).adpend = false ∧ (p.eng 0).adpend = true ∧ (p.eng p.me.cl).owner = some p.me.task
    ∧ run (.mcfgA 7) s (fun t => (t.eng 0).opa == ⟨0xFE0000003FC00100, 0, 0, 0⟩ && t.me.pc == 0x1008) ∧ run (.mcfgB 10) s (fun t => trapped 0x01 t)
    ∧ run (.mcfgA 16) s (fun t => trapped 0x0A t && t.me.trap.info == 0xFE0000003FC00020) ∧ run .mwait (stG []) (fun t => (t.eng 0).owner == some 0)
    ∧ run .madptOff p (fun t => trapped 0x12 t && t.me.trap.info == 3) ∧ run .mwait o (fun t => t.me.pc == 0x1000)
    ∧ (s.reg 6).toNat % 4 = 0 ∧ (s.reg 7).toNat % 64 = 0
    ∧ (match readProg m.cur m.me.trap.pl (m.reg 6) 32 0 [] m with | .ok _ r => r == ([0x80000000], none) | _ => false) = true
    ∧ run (.mprog 6 7) m (fun t => (t.eng 0).words == [0x80000000] && (t.eng 0).prog == 0xFE0000003FC00000) := by decide
theorem witness_MatrixConfiguration_traps : canTrap (stE (cx []) Eng.reset) := canTrap_of _ rfl

theorem witness_MatrixOperations :
    let e := { Eng.reset with opa := opTile 6 2, opb := opTile 7 4 }
    let c := cx [(2, 2), (3, 0xFE0000003FC00000), (4, 8)]
    let s := stE c e
    let r : State := { stE { c with rings := [(3, 3)] } { Eng.reset with opa := opRing 6, opb := opTile 6 4 } with ringObjs := [(3, ⟨0, 0, 0x400, 0, 6144, 2, 0, 0, []⟩)] }
    let d := stE c { e with ad := some (opMem 6 0) }
    let k := stE c { e with opb := opTile 8 4 }
    let m := stE c { Eng.reset with opa := opMem 6 0xFE0000003FC00000, opb := opMem 6 0xFE0000003FC00000 }
    let full := stE c { e with q := List.replicate 16 (eop (.mzero 1)) }
    (s.eng 0).owner = some 0 ∧ (s.eng 0).q.length < 16 ∧ 16 ≤ (full.eng 0).q.length ∧ s.me.strm.ents = [] ∧ s.me.strm.pres = none ∧ s.empt = []
    ∧ (s.reg 3).toNat % 8 = 0 ∧ (s.reg 4).toNat % 8 = 0 ∧ (s.reg 2).toNat % 2 ^ 32 = 2 ∧ (m.reg 0).toNat % 2 ^ 32 = 0
    ∧ (fmtOfDesc (s.eng 0).opa).width = (fmtOfDesc (s.eng 0).opb).width ∧ (fmtOfDesc (k.eng 0).opa).width ≠ (fmtOfDesc (k.eng 0).opb).width
    ∧ descKind (s.eng 0).opa = 1 ∧ descTile (s.eng 0).opa + 2 ≤ 8 ∧ 7 ≥ descTile (s.eng 0).opa + 2 ∧ 8 < descTile (s.eng 0).opa + 8
    ∧ ringOf r r.me 3 = some 3 ∧ stepBytes (r.eng 0).opa ≤ (r.ring 3).size ∧ (d.eng 0).ad ≠ none ∧ (match downMismatch d (fmtOfDesc (d.eng 0).opa).width with | .ok _ b => !b | _ => false) = true
    ∧ (d.eng 0).adpend = false ∧ descKind (m.eng 0).opa = 0 ∧ descKind (m.eng 0).opb = 0
    ∧ 200 * s.me.team.rpr + movRegs s.me.team false * s.me.team.rpr ≤ 232 * s.me.team.rpr ∧ 0 * s.me.team.rpr + movRegs s.me.team true * s.me.team.rpr ≤ s.me.team.vl
    ∧ run (.mloop 7 false 2) s (fun t => (t.eng 0).q.map (·.k) == [.mloop 7 2 false (opTile 6 2) (opTile 7 4) 0 [0, 0, 0, 0] none none] && t.me.pc == 0x1008)
    ∧ run (.mloop 3 false 2) s (fun t => trapped 0x01 t && t.me.trap.info == 2) ∧ run (.mloop 7 false 2) k (fun t => trapped 0x01 t && t.me.trap.info == 1)
    ∧ run (.mloop 7 false 4) s (fun t => trapped 0x01 t && t.me.trap.info == 2) ∧ run (.mloop 7 true 2) d (fun t => (t.eng 0).adpend && (t.eng 0).adtile == 7)
    ∧ run (.mloopr true false 7 false 3 0 2) r (fun t => (t.eng 0).q.map (fun o => match o.k with | .mloop _ _ _ _ _ _ _ ra rb => (ra, rb) | _ => (none, none)) == [(some 3, none)])
    ∧ run (.mloop 7 false 0) m (fun t => (t.eng 0).q == [] && t.me.pc == 0x1008) ∧ run (.mzero 0x81) s (fun t => (t.eng 0).q.map (·.k) == [.mzero 0x81])
    ∧ run (.mtile .l32x192 1 3 4) s (fun t => (t.eng 0).q.map (·.k) == [.mtile .l32x192 1 0xFE0000003FC00000 8]) ∧ run (.mstt .l32x192 1 3 4) s (fun t => (t.eng 0).q.length == 1)
    ∧ run (.mdrain 1 true 3 4 none) s (fun t => (t.eng 0).q.map (·.k) == [.mdrain 1 true 0xFE0000003FC00000 8 none 0 [] 0]) ∧ run (.mzero 1) full (fun t => t.me.pc == 0x1000) := by decide
theorem witness_MatrixOperations_locks : (∀ k, ((stE (cx []) Eng.reset).cl k).locks.length ≤ 50) ∧ canTrap (stE (cx []) Eng.reset) :=
  ⟨noLocks _ (by decide), canTrap_of _ rfl⟩
set_option maxRecDepth 20000 in
/-- R195: a lane holding 1.0 at FP32 becomes 1.0 of the tile. -/
theorem witness_MatrixOperations_moves :
    let s := { stE (cx []) Eng.reset with rows := [(0, 0x3F800000)] }
    run (.mmovt true false 1 0) s (fun t => (t.eng 0).q.any fun o => match o.k with | .mmovtIn 1 vs => vs.take 2 == [0x3FF000000000, 0] && vs.length == 1024 | _ => false)
    ∧ run (.mmovt false false 1 0) s (fun t => (t.eng 0).q.map (·.k) == [.mmovtOut 1 0 false] && !t.empt.isEmpty) := by decide

theorem witness_EngineWaits :
    let c := cx [(3, 0xFE0000003FC00000)]
    let s := stE c Eng.reset
    let b := stE c (eng1 (.mzero 2))
    let f := stE c { eng1 (.mzero 2) with faulted := true, fop := some 1 }
    let h := { b with ctxs := [(0, { c with trap := { c.trap with intrap := true } })] }
    let r := eop (.mdrain 1 false 0 0 (some (some 3)) 0 [] 0)
    let d : State := { stE c { Eng.reset with q := [{ r with sa := some 1, begun := true }], faulted := true, fop := some 1 } with ringObjs := [(3, ⟨0, 0, 0x400, 0, 6144, 2, 0, 0, [1]⟩)] }
    (s.eng 0).owner = some 0 ∧ (s.eng 0).q = [] ∧ (b.eng 0).q ≠ [] ∧ b.me.trap.intrap = false ∧ (∀ o ∈ (b.eng 0).q, 3 ∉ o.k.reads ∧ 3 ∉ o.k.writes)
    ∧ (b.eng 0).faulted = false ∧ (b.eng 0).stopped = false ∧ (f.eng 0).faulted = true ∧ (∀ o ∈ (b.eng 0).q, o.ovr = false) ∧ (s.reg 3).toNat % 64 = 0
    ∧ run .mwait s (fun t => t.me.pc == 0x1008) ∧ run .mwait b (fun t => t.me.pc == 0x1000) ∧ run (.mwaitTile 3) b (fun t => t.me.pc == 0x1008) ∧ run (.mwaitTile 1) b (fun t => t.me.pc == 0x1000)
    ∧ run .mwaitStop b (fun t => (t.eng 0).stopped && t.me.pc == 0x1008) ∧ run .mcfgResume f (fun t => !(t.eng 0).faulted && (t.eng 0).q.length == 1)
    ∧ run .mcfgAbandon f (fun t => !(t.eng 0).faulted && (t.eng 0).q == []) ∧ run .mcfgAbandon d (fun t => (t.eng 0).q == [] && (t.ring 3).claimed == [])
    ∧ run .mwait { h with cls := [(0, { h.cl 0 with eng := { h.eng 0 with stopped := true } })] } (fun t => t.me.pc == 0x1008)
    ∧ run .mwait { h with cls := [(0, { h.cl 0 with eng := { h.eng 0 with stopped := true, q := [{ eop (.mstt .l32x192 1 0xFE0000003FC00000 8) with ovr := true }] } })] } (fun t => t.me.pc == 0x1000) := by decide

/-- A program whose first word is refused, one that no region holds, one that waits for a walk; a frame without operations; a drain without a program. -/
theorem witness_MatrixConfiguration_program :
    let s := stE (cx [(6, vault), (8, 4)]) Eng.reset
    let m : State := { s with mem := [(vaultKey 0 3, 0x88)] }
    let u : State := { stE (cxD [(6, dev)]) Eng.reset with tasks := [(0, { dTask with extents := [] })] }
    (match readProg m.cur false (m.reg 6) 32 0 [] m with | .ok _ r => r == ([], some 0) | _ => false) = true
    ∧ (match readProg s.cur false (s.reg 8) 32 0 [] s with | .fault c _ => c == 0x07 | _ => false) = true
    ∧ (match readProg u.cur false (u.reg 6) 32 0 [] u with | .wait _ => true | _ => false) = true
    ∧ (match drainBlk s 0 false [] 0 with | .ok _ b => b == none | _ => false) = true
    ∧ (match frameOps [] s with | .ok v xs => xs == [] && relock 0 xs v == some s && relooks xs s == (s, []) | _ => false) = true
    ∧ run (.mprog 6 7) m (trapped 0x01) ∧ run (.mprog 8 7) s (trapped 0x07) ∧ run (.mprog 6 7) u (fun t => t.me.pc == 0x1000 && t.walks.length == 1)
    ∧ run .mcfgResume s (fun t => t.me.pc == 0x1008) ∧ run .mcfgAbandon s (fun t => t.me.pc == 0x1008) := by decide

theorem witness_EngineCompletions :
    let e : Eng := { Eng.reset with tiles := [(0, 5), (1024, 7), (2048, 9)] }
    let z := stE (cx []) { e with q := [eop (.mzero 2)] }
    let l := stE (cx []) { e with q := [{ eop (.mloop 1 2 false (opTile 6 2) (opTile 7 4) 0 [] none none) with running := true }], rp := ⟨2, 0, false, 0⟩ }
    engOp z 0 false = some (eop (.mzero 2)) ∧ (engOp l 0 false).isSome
    ∧ 2 ≤ (l.eng 0).rp.step
    ∧ run (.engineOpCompletion 0 false) z (fun t => tileElem (t.eng 0) 1 0 0 == 0 && tileElem (t.eng 0) 0 0 0 == 5 && tileElem (t.eng 0) 2 0 0 == 9 && (t.eng 0).q == [])
    ∧ run (.engineOpCompletion 0 false) l (fun t => (t.eng 0).tiles == e.tiles && (t.eng 0).q == [] && (t.eng 0).rp == RowProg.zero) := by decide
theorem witness_EngineCompletions_move :
    let v := stE (cx []) { Eng.reset with q := [eop (.mmovtIn 1 (List.replicate 1024 4#48))] }
    engOp v 0 false = some (eop (.mmovtIn 1 (List.replicate 1024 4#48))) ∧ (List.replicate 1024 4#48).length = 1024 := ⟨rfl, List.length_replicate⟩

/-- The task has 64 KiB of vault. -/
def bTask : Task := { vTask with r := { vTask.r with vbytes := 0x10000 } }
theorem frame_access (s : State) (k : AKind) (cid : Nat) (p : W64) (h1 : ridOf p = 0xFE) (h2 : offOf p = 0x3FC00000) (h3 : (s.ctx cid).cl = 0)
    (h4 : smFind (s.task (s.ctx cid).task).vbase 0 = some 0) (h5 : (s.task (s.ctx cid).task).r.vbytes = 0x10000) (h6 : s.ecc = []) (h7 : s.ringObjs = []) :
    engAccess s cid false true k p 0x4000 = .ok (rangeFrom (vaultKey 0 0) 0x4000) := by
  have hr : resolve s (s.ctx cid) cid false k p 0x4000 = .ok (rangeFrom (vaultKey 0 0) 0x4000) := by
    simp only [resolve, h1, vaultKeys, h2, bitsOf]
    simp [h3, h4, h5, isRingTag, h7]
  simp [engAccess, h1, hr, eccHit, h6]
theorem frame_read (s : State) (cid : Nat) (p : W64) (h1 : ridOf p = 0xFE) (h : engAccess s cid false true .ld p 0x4000 = .ok (rangeFrom (vaultKey 0 0) 0x4000)) :
    engRead s cid false true p 0x4000 = .ok s (memBytes s.mem (vaultKey 0 0) 0x4000) := by
  have plain : ∀ k ∈ rangeFrom (vaultKey 0 0) 0x4000, isCached k = false ∧ isPeer k = false ∧ k < 2 ^ 62 := by
    intro k hk
    simp only [rangeFrom, List.mem_map, List.mem_range, vaultKey] at hk
    obtain ⟨i, hi, rfl⟩ := hk
    simp only [isCached, isPeer, Bool.and_eq_false_iff, decide_eq_false_iff_not]
    omega
  have hu : used s (s.ctx cid) .ld p 0x4000 = s := by
    simp [used, tcWins, h1, tcUse]
  simp only [engRead, h, hu, loadKeys_plain _ _ _ _ plain, memBytes]
/-- Its context's frames stand in its vault. -/
def stF (mm : List Host.Cell) (sv : SMap Saved) : State :=
  { stE (cx [(3, 0xFE0000003FC00000)]) Eng.reset with tasks := [(0, bTask)], mem := mm, saved := sv }
theorem stF_access (mm : List Host.Cell) (sv : SMap Saved) (k : AKind) (f : Nat) :
    engAccess { stF mm sv with freeCtr := f } 0 false true k 0xFE0000003FC00000 0x4000 = .ok (rangeFrom (vaultKey 0 0) 0x4000) :=
  frame_access _ k 0 _ (by decide) (by decide) rfl rfl rfl rfl rfl
theorem find_frame (s : State) (sv : Saved) (n a : Nat) (he : sv.isEng = true) (h : s.saved = [(0, sv)]) (hm : s.mem = memSetList [] a (frameBytes n 0)) :
    findSaved s (memBytes s.mem a n) 0 = some sv := by
  have hl : (frameBytes n 0).length = n := by simp [frameBytes]
  have hb : memBytes s.mem a n = frameBytes n 0 := by
    have := memBytes_memSetList [] a (frameBytes n 0)
    rwa [hl, ← hm] at this
  have hf : ((List.range n).map fun b => Config.frameByte 0 (0 + b)) = frameBytes n 0 := by simp only [frameBytes, Nat.zero_add]
  rw [hb, findSaved, hl, h]
  simp only [List.reverse_singleton, List.find?_cons, he, hf, decide_true, Bool.and_self, Option.map_some]
theorem find_none (s : State) (bs : List Byte) (h : s.saved = []) : findSaved s bs 0 = none := by simp [findSaved, h]
theorem witness_EngineFrames_at : let s := stF [] []
    s.cur = 0 ∧ s.me.trap.pl = false ∧ s.reg 3 = 0xFE0000003FC00000#64 ∧ (s.reg 3).toNat % 64 = 0 ∧ (s.eng s.me.cl).q = [] ∧ (s.eng s.me.cl).owner = some s.me.task
    ∧ s.freeCtr = 0 := ⟨rfl, rfl, by decide, by decide, rfl, rfl, rfl⟩
theorem witness_EngineFrames_stored : ∃ ks, engAccess { stF [] [] with freeCtr := 1 } 0 false true .st 0xFE0000003FC00000 0x4000 = .ok ks :=
  ⟨_, stF_access [] [] .st 1⟩
theorem witness_EngineFrames_none : ∃ bs, engRead (stF [] []) 0 false true 0xFE0000003FC00000 0x4000 = .ok (stF [] []) bs ∧ findSaved (stF [] []) bs 0 = none :=
  ⟨_, frame_read _ 0 _ (by decide) (stF_access [] [] .ld 0), find_none _ _ rfl⟩
theorem witness_EngineFrames_found (e : Eng) : ∃ mm, ∃ bs, engRead (stF mm [(0, .eng e)]) 0 false true 0xFE0000003FC00000 0x4000 = .ok (stF mm [(0, .eng e)]) bs
    ∧ findSaved (stF mm [(0, .eng e)]) bs 0 = some (.eng e) := by
  obtain ⟨mm, h⟩ : ∃ mm, mm = memSetList [] (vaultKey 0 0) (frameBytes 0x4000 0) := ⟨_, rfl⟩
  exact ⟨mm, _, frame_read _ 0 _ (by decide) (stF_access _ _ .ld 0), find_frame _ _ 0x4000 _ rfl rfl h⟩
/-- R193: the queue of a frame, its store's range in a table that has room and in one that is full. -/
theorem witness_EngineFrames_queue :
    let o := eop (.mstt .l32x192 1 0xFE0000003FC08000 8)
    let s := stF [] []
    let n := s.modCl 0 fun c => { c with locks := List.replicate 64 ⟨9, 0, true, 0, []⟩ }
    (match frameOps [o] s with | .ok v xs => xs.length == 1 && (relock 0 xs v).isSome | _ => false) = true
    ∧ (match frameOps [o] n with | .ok v xs => (relock 0 xs v).isNone | _ => false) = true := by decide

theorem witness_EngineSteps :
    let o := { eop (.mloop 7 2 false (opTile 6 2) (opTile 7 4) 0 [] none none) with running := true, begun := true }
    let s := stE (cx []) { Eng.reset with q := [o] }
    engOp s s.curCl false = some o ∧ o.begun = true ∧ (s.eng s.curCl).rp = ⟨0, 0, false, 0⟩ ∧ 0 + 1 < 2 ∧ descKind (opTile 6 2) = 1 ∧ descKind (opTile 7 4) = 1
    ∧ descScl (opTile 6 2) = false ∧ descScl (opTile 7 4) = false ∧ descTile (opTile 6 2) + 0 ≠ 7 ∧ descTile (opTile 7 4) + 0 ≠ 7 := by decide
/-- R62: 1 + 1.5 * 2 - 0.5 * 4 is 2; infinities of both signs give NaN; a sum of zeros keeps the accumulator's sign. -/
theorem test_kstep :
    kstep false 0x3FF000000000 [(.fin false 3 (-1), .fin false 2 0), (.fin true 1 (-1), .fin false 4 0)] = 0x400000000000#48
    ∧ kstep false 0 [(.inf false, .fin false 1 0), (.inf true, .fin false 1 0)] = 0x7FF800000000#48
    ∧ kstep false 0x800000000000 [(.zero true, .fin false 1 0)] = 0x800000000000#48 := by decide

/-- R199: an adapter of rank 8 in FP32, its Down lines in the task's vault; every row has adapter 5. -/
def adEnt : List Byte := leBytes 8 0xFE0000003FC00000 ++ List.replicate 17 0 ++ [12] ++ List.replicate 38 0
set_option maxRecDepth 8000 in
theorem witness_EngineSteps_side :
    let q : List W64 := [0, 0, 0, 0]
    let o := { eop (.mloop 7 2 true (opTile 12 2) (opTile 12 4) 0 q none none) with running := true, begun := true }
    let s := stE (cx []) { Eng.reset with q := [o], rp := ⟨0, 0, true, 0⟩, adTags := 6 :: List.replicate 31 5, adEnts := [(5, adEnt), (6, adEnt)] }
    engOp s s.curCl false = some o ∧ (s.eng s.curCl).rp = ⟨0, 0, true, 0⟩ ∧ 0 < 2 ∧ descKind (opTile 12 2) = 1 ∧ descScl (opTile 12 2) = false
    ∧ (sideList (s.eng s.curCl).adTags (s.eng s.curCl).adEnts)[0]? = some (5, 0) ∧ 0 + 1 < (sideList (s.eng s.curCl).adTags (s.eng s.curCl).adEnts).length
    ∧ (s.eng s.curCl).adTags.length = 32
    ∧ (match downLines o.cid o.lvl1 adEnt 0 ((quadDesc q).q3.toNat + 0) ((rangeFrom (32 * 0) 32).filter fun m => decide (m < adRank adEnt)) s with
        | .ok u dl => decide (u.cls = s.cls) && decide ((dl.map (·.1)).Nodup) && dl.all (fun p => p.1 < 64) && dl.length == 8
        | _ => false) = true := by decide

/-! The epilogue processor. -/

/-- A processor whose e1 holds 2.0, e2 holds 3.0 and e3 holds -1.0 in each element, at row 2, with a parameter block whose pointers stand in the vault. -/
def epi1 : Epi := { Epi.idle with
  on := true, row := 2,
  regs := (rangeFrom 32 32).map (fun k => (k, 0x400000000000)) ++ (rangeFrom 64 32).map (fun k => (k, 0x400800000000)) ++ (rangeFrom 96 32).map (fun k => (k, 0xBFF000000000)),
  param := List.replicate 0x80 0 ++ leBytes 8 0xFE0000003FC00000 ++ leBytes 8 0xFE0000003FC00040 ++ leBytes 8 0xFE0000003FC00100 ++ leBytes 4 128 ++ [12, 12] ++ List.replicate 0x22 0
  dst := 0xFE0000003FC00400, stride := 128, lvl1 := false }
def stP (m : List Host.Cell) : State := { (stE (cx []) Eng.reset).setEpi 0 epi1 with mem := m }
def eIs (d : BitVec 3) (v : W48) (t : State) : Bool := (t.epi 0).get d 0 == v && (t.epi 0).get d 31 == v && (t.epi 0).pcw == 1

set_option maxRecDepth 8000 in
/-- R206: 2 + 3, 2 * 3, 2 * 3 - 1, the larger, the smaller, the choice by a negative, 2 ^ 2, 1 / 2. -/
theorem test_epilogue :
    run (.eadd 4 1 2) (stP []) (eIs 4 0x401400000000) ∧ run (.emul 4 1 2) (stP []) (eIs 4 0x401800000000) ∧ run (.efma 4 1 2 3) (stP []) (eIs 4 0x401400000000)
    ∧ run (.emax 4 1 2) (stP []) (eIs 4 0x400800000000) ∧ run (.emin 4 1 2) (stP []) (eIs 4 0x400000000000) ∧ run (.esel 4 1 2 3 4) (stP []) (eIs 4 0x400000000000)
    ∧ run (.eexp2 4 1) (stP []) (eIs 4 0x401000000000) ∧ run (.ercp 4 1) (stP []) (eIs 4 0x3FE000000000) := by decide
set_option maxRecDepth 8000 in
/-- R206: the row number, the row's maximum and sum (32 * 3), a row without an adapter, a conversion to FP16 and back. -/
theorem test_epilogue_rows :
    run (.eldc 4 1 0) (stP []) (eIs 4 0x400000000000) ∧ run (.ermax 4 2) (stP []) (eIs 4 0x400800000000) ∧ run (.ersum 4 2) (stP []) (eIs 4 0x405800000000)
    ∧ run (.eadpt 4 2) (stP []) (eIs 4 0x400800000000) ∧ run (.ecvt 4 2 0 10) (stP []) (eIs 4 0x400800000000) ∧ EFmt.ofCode 10 = some .fp16 := by decide

set_option maxRecDepth 8000 in
theorem witness_EpilogueStores :
    let s := stP [(vaultKey 0 10, 0x80), (vaultKey 0 11, 0x3F)]
    let blk (off n : Nat) : Nat := leNat (((s.epi s.curCl).param.drop off).take n)
    blk 0x9D 1 = 12 ∧ blk 0x9C 1 = 12 ∧ blk 0x80 8 = 0xFE0000003FC00000 ∧ (s.epi s.curCl).slot = none
    ∧ (match engRead s 0 false false 0xFE0000003FC00008 4 with | .ok u bs => decide (u.epi u.curCl = s.epi s.curCl) && bs == [0, 0, 0x80, 0x3F] | _ => false) = true
    ∧ (match engRead s 0 false false 0xFE0000003FC00200 128 with | .ok u bs => decide (u.epi u.curCl = s.epi s.curCl) && bs.length == 128 | _ => false) = true
    ∧ (match engAccess s 0 false false .st ((s.epi s.curCl).dst + 2 * (s.epi s.curCl).stride) 128 with | .ok ks => ks.length == 128 | _ => false) = true
    ∧ (match engAccess s 0 false false .st 0xFE0000003FC00048 4 with | .ok _ => true | _ => false) = true
    ∧ run (.eldr 4 false) s (eIs 4 0x3FF000000000) ∧ run (.eldm 4) s (eIs 4 0)
    ∧ run (.est 1 0 3 0xC 0) s (fun t => (t.epi 0).stores.length == 128 && (t.epi 0).stores.take 4 == [(vaultKey 0 0x500, 0), (vaultKey 0 0x501, 0), (vaultKey 0 0x502, 0), (vaultKey 0 0x503, 0x40)])
    ∧ run (.est 2 0 3 0 2) s (fun t => (t.epi 0).stores == [(vaultKey 0 0x48, 0), (vaultKey 0 0x49, 0), (vaultKey 0 0x4A, 0x40), (vaultKey 0 0x4B, 0x40)])
    ∧ run .eend s (fun t => !(t.epi 0).on)
    ∧ run (.est 1 1 3 4 0) { s with cls := [(0, { s.cl 0 with epi := { epi1 with param := epi1.param.take 0xA0 ++ leBytes 8 0xFE0000003FC00200 ++ leBytes 4 3 ++ List.replicate 0x14 0 } })] }
      (fun t => (t.epi 0).stores.length == 17 && (t.epi 0).stores.take 1 == [(vaultKey 0 0x500, 0x66)] && (t.epi 0).stores.drop 16 == [(vaultKey 0 0x206, 126)] && (t.epi 0).pcw == 1) := by decide

set_option maxRecDepth 8000 in
theorem witness_DrainRow :
    let o := { eop (.mdrain 1 false 0xFE0000003FC00400 128 none 0 [] 0) with running := true, begun := true }
    let s := (stE (cx []) { Eng.reset with q := [o], drow := 2, tiles := [(1024 + 64, 0x400000000000)] }).setEpi 0 { epi1 with prog := [0x78000030, 0x80000000], z := 1 }
    engOp s s.curCl true = some o ∧ o.begun = true ∧ (s.eng s.curCl).drow = 2 ∧ (s.epi s.curCl).prog = [0x78000030#32, 0x80000000#32] ∧ (s.epi s.curCl).slot = none
    ∧ ridOf ((s.epi s.curCl).dst + 2 * (s.epi s.curCl).stride) = 0xFE ∧ s.ringObjs = []
    ∧ (match vaultKeys s (s.ctx 0) false ((s.epi s.curCl).dst + 2 * (s.epi s.curCl).stride) 128 with
        | some ks => decide ks.Nodup && ks.length == 128 && ks.all isVault | none => false) = true
    ∧ run .drainRow (stE (cx []) { Eng.reset with q := [{ o with k := .mdrain 1 true 0xFE0000003FC00400 128 none 0 [] 0 }], drow := 31, tiles := [(1024 + 31 * 32, 0x400000000000)] } |>.setEpi 0 { epi1 with prog := [0x80000000], z := 1 })
      (fun t => (t.eng 0).drow == 32 && tileElem (t.eng 0) 1 31 0 == 0)
    ∧ run .drainRow (s.setEpi 0 { epi1 with prog := [0x78000030, 0x80000000], z := 1, dst := 0x7FC00400 })
      (fun t => (t.eng 0).faulted && (t.eng 0).fcode == 7 && (t.eng 0).faddr == 0x7FC00500 && (t.eng 0).drow == 2 && t.mem == s.mem)
    ∧ run .drainRow s (fun t => (t.eng 0).drow == 3 && memBytes t.mem (vaultKey 0 0x500) 8 == [0, 0, 0, 0x40, 0, 0, 0, 0]) := by decide

/-! Sparse tiles. -/

/-- R211: an object of one step in s8, two coordinates: row 0, columns 3 and 4, with the values 5 and 6; 192 bytes. -/
def spObj : List Host.Cell :=
  [(0, 1), (1, 6), (4, 1), (8, 2), (0x0C, 192), (0x10, 64), (0x14, 128), (64, 3), (68, 4), (128, 5), (129, 6)]
/-- Its timetable: one group of step 0 with one run of two codes from column 3. -/
def spTT : List W64 := [0x1000000000000001, 0x2000000301000000, 0xF000000000000001]
def spHdr : List Byte := memBytes spObj 0 64
def spEnt : TtEnt := ⟨0, 0, 6, false, 1, [(some 0, 192)], false, 2, spTT⟩
def stS (e : Eng) (tt : List TtEnt) (cs : SMap (List Comp)) (m : List Host.Cell) : State :=
  { (st (cxD [(2, dev), (3, 1), (4, 70)])).setEng 0 { e with owner := some 0 } with tasks := [(0, dTask)], mem := m, ttdir := tt, comps := cs }
def spEng : Eng := { Eng.reset with opb := opTile 7 4 }
def spq (run : Bool) (bg : List Nat) : Comp := ⟨1, 0, 0, 6, false, 1, dev, [(some 0, 192)], bg, run, 60, 0, false⟩

set_option maxRecDepth 8000 in
theorem witness_Sparse :
    let s := stS spEng [spEnt] [] spObj
    let n := stS spEng [] [] spObj
    let p := stS spEng [] [(0, [spq false []])] spObj
    let full := stS spEng [] [(0, List.replicate 64 { spq false [] with pa := 4096 })] spObj
    (s.eng s.me.cl).owner = some s.me.task ∧ (s.eng s.me.cl).q.length < 16 ∧ s.me.strm.ents = [] ∧ s.me.strm.pres = none ∧ (s.reg 2).toNat % 64 = 0 ∧ ridOf (s.reg 2) < 0xFD
    ∧ (match genAccess s .ld polEng (s.reg 2) 64 with
        | .ok ks => ks.headD 0 == 0 && (loadKeys (used s s.me .ld (s.reg 2) 64) s.me.cl polEng ks).2 == spHdr && headerBad spHdr == none && spxBad spHdr (s.eng 0).opb 7 == none
            && ((writeBackObj (loadKeys (used s s.me .ld (s.reg 2) 64) s.me.cl polEng ks).1 (s.reg 2) (hTotal spHdr)).ttdir == [spEnt])
        | _ => false) = true
    ∧ (writeBackObj n (n.reg 2) (hTotal spHdr)).comps = [] ∧ n.me.spx = none ∧ n.me.spErr = none ∧ (s.reg 3).toNat < 1024
    ∧ ((smGet [] full.comps 0).filter fun q => !q.running).length = 64
    ∧ run (.spxWait 5 7 2) s (fun t => t.reg 5 == 0 && (t.eng 0).q.map (·.k) == [.spx 7 dev spHdr (some spTT) spEng.opb 0] && t.me.lookups == 1 && t.me.misses == 0)
    ∧ run (.spxFb 5 7 2) n (fun t => t.reg 5 == 2 && (t.eng 0).q.map (·.k) == [.spx 7 dev spHdr none spEng.opb 0] && t.me.misses == 1 && (smGet [] t.comps 0).length == 1)
    ∧ run (.spxWait 5 7 2) n (fun t => t.me.pc == 0x1000 && t.me.ticket.isSome && t.me.misses == 1)
    ∧ run (.spcomp 5 2) s (fun t => t.reg 5 == 0) ∧ run (.spcomp 5 2) n (fun t => t.reg 5 == 1) ∧ run (.spcomp 5 2) p (fun t => t.reg 5 == 2)
    ∧ run (.spcomp 5 2) full (fun t => t.reg 5 == 3) ∧ run (.spinv 2) s (fun t => t.ttdir == []) ∧ run .spinvAll s (fun t => t.ttdir == [])
    ∧ run (.spqry 5 2) s (fun t => t.reg 5 == 0x0000000200030002) ∧ run (.spqry 5 2) p (fun t => t.reg 5 == 1) ∧ run (.spqryWord 5 2 3) s (fun t => t.reg 5 == 0x2000000301000000)
    ∧ run (.spqryWord 5 2 4) s (fun t => t.reg 5 == 0xFFFFFFFFFFFFFFFF) ∧ run (.spcfg 5 4) s (fun t => t.reg 5 == 60 && (t.tenant 0).thresh == 70) := by decide
theorem witness_Sparse_locks : ∀ k, ((stS spEng [spEnt] [] spObj).cl k).locks.length ≤ 50 := noLocks _ (by decide)

set_option maxRecDepth 8000 in
theorem witness_Sparse_waits :
    let n := stS spEng [] [] spObj
    let s := stS spEng [spEnt] [] spObj
    let b := stS spEng [spEnt] [] (memSet spObj 0 0xFF)
    let x := stS { spEng with opb := opTile 6 4 } [spEnt] [] (memSet spObj 1 6)
    let p := stS spEng [] [(0, [spq false []])] spObj
    let full := stS spEng [] [(0, List.replicate 64 { spq false [] with pa := 4096 })] spObj
    let e : State := { n with ctxs := [(0, { n.me with ticket := some 1, spErr := some 7 })] }
    let i : SpxIssue := ⟨dev, spHdr, 0, spEng.opb, 0⟩
    let k : State := { s with ctxs := [(0, { s.me with ticket := some 1, spx := some i })] }
    let y : State := { b with ctxs := [(0, { s.me with spx := some i })], cls := x.cls }
    (headerBad (memBytes b.mem 0 64)).isSome ∧ headerBad (memBytes x.mem 0 64) = none ∧ e.me.spErr = some 7 ∧ k.me.spx = some i ∧ canTrap e
    ∧ run (.spxWait 5 7 2) b (trapped 0x01) ∧ run (.spcomp 5 2) b (trapped 0x01) ∧ run (.spxWait 5 7 2) e (trapped 0x0E)
    ∧ run (.spxWait 5 7 2) full (fun t => t.me.ticket == some 0 && t.me.misses == 1 && t.me.pc == 0x1000) ∧ run (.spxWait 5 7 2) p (fun t => t.me.ticket == some 1)
    ∧ run (.spxFb 5 7 2) full (fun t => t.reg 5 == 2 && t.comps == full.comps)
    ∧ run (.spxWait 5 7 2) k (fun t => t.reg 5 == 1 && t.me.lookups == 0 && t.me.ticket == none && t.me.spx == none)
    ∧ run (.spxWait 5 7 2) y (fun t => (t.eng 0).q.map (·.k) == [.spx 7 dev spHdr (some spTT) spEng.opb 0]) :=
  ⟨by decide, by decide, by decide, by decide, canTrap_of _ rfl, by decide⟩

set_option maxRecDepth 8000 in
theorem witness_Compiles :
    let w := stS spEng [] [(0, [spq false []]), (1, [spq false [0]])] spObj
    let r := stS spEng [] [(0, [spq true []])] spObj
    let x := stS spEng [] [(0, [{ spq true [] with stale := true }])] spObj
    let b := stS spEng [] [(0, [spq true [0]])] (memSet spObj 68 2)
    smGet [] w.comps 0 = [spq false []] ∧ (([] : List Comp).filter (·.running)).length < 4 ∧ r.redq = [] ∧ (spq true []).stale = false
    ∧ structBad spHdr (fun k => (memBytes spObj 0 192).getD k 0) = none ∧ structBad spHdr (fun k => (memBytes (memSet spObj 68 2) 0 192).getD k 0) = some 0x100000001
    ∧ run (.patternCompile 0) w (fun t => t.comps == [(0, [spq true []]), (1, [spq false [0]])]) ∧ run (.patternCompile 0) x (fun t => t.comps == [(0, [])] && t.ttdir == [])
    ∧ run (.patternCompile 0) b (fun t => t.me.bgerr == dev ||| 1 && t.ttdir == []) := by decide
set_option maxRecDepth 8000 in
/-- R215: the micro-ops of row 0 and of row 1. -/
theorem test_timetable :
    let o : Obj := fun k => (memBytes spObj 0 192).getD k 0
    rowOps spHdr o false (codeMap spHdr o) 0 0 = [0x2000000301000000#64] ∧ rowOps spHdr o false (codeMap spHdr o) 0 1 = [] := by decide

set_option maxRecDepth 8000 in
theorem witness_TimetableGroups :
    let o := { eop (.spx 7 dev spHdr (some spTT) (opTile 7 4) 0) with running := true, begun := true }
    let s := stS { spEng with q := [o] } [] [] spObj
    let u := setProg s s.curCl ⟨0, 0, false, 0⟩
    engOp s s.curCl false = some o ∧ (groupsOf spTT).filter (fun g => decide ((s.eng s.curCl).rp.step ≤ g.1)) = [(0, [0x2000000301000000#64])] ∧ (s.eng s.curCl).rp.row = 0
    ∧ descKind (opTile 7 4) = 1 ∧ descScl (opTile 7 4) = false ∧ descTile (opTile 7 4) + 0 ≠ 7
    ∧ (match readRuns o.cid o.lvl1 dev spHdr 0 0 0 [0x2000000301000000] [] u with
        | .ok v m => m.length == 2 && decide (v.eng s.curCl = u.eng s.curCl) | _ => false) = true := by decide

/-! Copy channels and rings. -/

/-- R227: two elements of 4 bytes on both sides, no ring, a semaphore (0xFF for none) and its increment. -/
def tmpl (sem inc : Byte) : List Byte :=
  [2, 0, 0, sem, 0xFF, inc, 0, 0] ++ leBytes 4 2 ++ leBytes 4 1 ++ leBytes 4 1 ++ List.replicate 20 0 ++ leBytes 4 2 ++ leBytes 4 1 ++ List.replicate 16 0
def cells (a : Nat) (bs : List Byte) : List Host.Cell := memSetList [] a bs
/-- A copy of 8 bytes from byte 0 of the vault to byte 0x100. -/
def cp (started : Bool) (n : Nat) : Copy :=
  { cid := 0, task := 0, tidx := 7, tmpl := tmpl 0xFF 0, n2 := 1, nosem := false, lvl1 := false, src := 0xFE0000003FC00000, dst := 0xFE0000003FC00100, started := started,
    slot := none, ring := none, elems := n, off := 4 * n, lock := 1, via := [] }
def ring1 : RingObj := ⟨0, 0, 0x400, 0x200, 256, 2, 0, 0, []⟩
/-- A context of a task with a vault, copies in channel 2 and a ring by handle 3. -/
def stCh (g : SMap W64) (ch : Chan) (m : List Host.Cell) : State :=
  { st { cx g with rings := [(3, 3)] } with tasks := [(0, { vTask with r := { vTask.r with nctx := 1 }, tmpl := [(7, tmpl 0xFF 0)] })], chans := [(2, ch)], ringObjs := [(3, ring1)], mem := m }

theorem witness_CopyStores :
    let s := { stCh [(2, 0xFE0000003FC00000), (8, 7), (9, 0xFE0000003FC00000), (10, 0xFE0000003FC00100), (3, 0xFF00000000000400)] Chan.idle (cells (vaultKey 0 0) (tmpl 0xFF 0)) with chans := [] }
    let b : State := { s with mem := cells (vaultKey 0 0) ((tmpl 0xFF 0).set 0 16) }
    let n : State := { stG [(8, 7), (3, 0xFF00000000000400)] with tasks := [(0, vTask)] }
    let r := { stCh [(8, 0x1000000007), (3, 0xFF00000000000400)] Chan.idle [] with chans := [] }
    let full := stCh [(8, 7), (3, 0xFF00000000000400)] { Chan.idle with q := List.replicate 4 (cp true 0) } []
    let f : LdxF := ⟨.rlx, .cluster, 8, 3, 0⟩
    (s.reg 2).toNat % 64 = 0 ∧ (match genAccess s .ld polCl (s.reg 2) 64 with | .ok ks => ks.all isVault && !templateBad (loadKeys s 0 polCl ks).2 | _ => false) = true
    ∧ (match genAccess b .ld polCl (b.reg 2) 64 with | .ok ks => ks.all isVault && templateBad (loadKeys b 0 polCl ks).2 | _ => false) = true
    ∧ (s.reg 3 + 0).toNat % 32 = 0 ∧ ridOf (s.reg 3) = 0xFF ∧ offOf (s.reg 3) < 0x1000 ∧ (s.reg 3).toNat / 512 % 8 = 2 ∧ 4 ≤ (full.chan 2).q.length ∧ (s.chan 2).q.length < 4
    ∧ smFind (n.task 0).tmpl 7 = none ∧ smFind (s.task 0).tmpl 7 = some (tmpl 0xFF 0) ∧ tRing (tmpl 0xFF 0) = 0xFF ∧ aliasAway s 0xFF = false
    ∧ (s.reg 8).extractLsb' 16 16 = 0#16 ∧ (s.reg 8).toNat / 256 % 256 = 0 ∧ (s.reg 8).toNat / 2 ^ 32 = 0 ∧ s.reg 11 = 0 ∧ (s.reg 9).toNat % srcSize (tmpl 0xFF 0) = 0
    ∧ (s.reg 10).toNat % dstSize (tmpl 0xFF 0) = 0 ∧ tSemidx (tmpl 0xFF 0) = 0xFF ∧ (r.reg 8).toNat / 256 % 256 % 2 = 0 ∧ (r.reg 8).toNat / 2 ^ 32 ≠ 0
    ∧ run (.ctpl 9 2) s (fun t => smFind (t.task 0).tmpl 9 == some (tmpl 0xFF 0) && t.me.pc == 0x1008) ∧ run (.ctpl 9 2) b (fun t => trapped 0x01 t && t.me.trap.info == 0x21)
    ∧ run (.stx f) s (fun t => (t.chan 2).q == [{ cp false 0 with lock := ((t.chan 2).q.map (·.lock)).headD 0 }] && t.me.pc == 0x1008) ∧ run (.stx f) n (fun t => trapped 0x0F t && t.me.trap.info == 1)
    ∧ run (.stx f) r (fun t => trapped 0x0F t && t.me.trap.info == 2) ∧ run (.stx f) full (fun t => t.me.pc == 0x1000) := by decide
theorem witness_CopyStores_aliases : canTrap (stG []) ∧ aliasAway (stG []) 3 = false := ⟨canTrap_of _ rfl, by decide⟩

theorem witness_Channels :
    let s := stCh [] { Chan.idle with q := [cp false 0] } []
    let c := { cp false 0 with ring := some 3 }
    let r := stCh [] { Chan.idle with q := [c] } []
    let b := stCh [] { Chan.idle with q := [cp true 1] } [(vaultKey 0 4, 9), (vaultKey 0 5, 8)]
    let f := stCh [] { Chan.idle with q := [{ cp true 1 with src := 0xFD00000001000000 }] } []
    let d := stCh [] { Chan.idle with q := [{ cp true 2 with nosem := true }] } []
    let e := stCh [] { Chan.idle with q := [{ cp true 2 with ring := some 3, slot := some (3, 0), tmpl := tmpl 1 5 }] } [(vaultKey 0 0x200, 1)]
    let v : State := { b with chans := [(2, { Chan.idle with q := [{ cp true 1 with via := [3, 19] }] })], ctxs := b.ctxs ++ [(1, { cx [] with st := .saved })] }
    (s.chan 2).q.head? = some (cp false 0) ∧ (s.chan 2).fault = none ∧ hardHeld s 0 = false ∧ (r.chan 2).q.head? = some c ∧ viaHeld s [] = false ∧ viaHeld r c.via = false ∧ viaHeld v [3, 19] = true ∧ ringTag r 3 (r.ring 3).ppos = 0
    ∧ (cp true 1).elems + 1 = (cp true 1).total ∧ tConv (cp true 1).tmpl = false ∧ (cp true 2).total ≤ (cp true 2).elems
    ∧ (match copyAccess b (cp true 1) .ld (ptrAdd (cp true 1).src ((cp true 1).srcOff 1)) 4, copyAccess b (cp true 1) .st (ptrAdd (cp true 1).dst ((cp true 1).dstOff 1)) 4 with
        | .ok ks, .ok kd => (ks ++ kd).all isVault && decide kd.Nodup && ks.length == kd.length | _, _ => false) = true
    ∧ (match copyAccess f ((f.chan 2).q.headD c) .ld 0xFD00000001000004 4 with | .fault 8 p => p == 0xFD00000001000004 | _ => false) = true
    ∧ semKey e e.me 1 = some 1 ∧ (e.sem 1).ws = [] ∧ tSemidx (tmpl 1 5) ≠ 0xFF
    ∧ run (.copyStart 0 2) s (fun t => (t.chan 2).q == [cp true 0]) ∧ run (.copyStart 0 2) r (fun t => ringTag t 3 0 == 1 && (t.ring 3).ppos == 1 && (t.chan 2).q.map (·.slot) == [some (3, 0)])
    ∧ run (.copyBeat 0 2) b (fun t => memBytes t.mem (vaultKey 0 0x104) 4 == [9, 8, 0, 0] && (t.chan 2).q.map (·.elems) == [2])
    ∧ run (.copyBeat 0 2) f (fun t => (t.chan 2).fault == some 8 && t.me.trap.copyF == [⟨0x0F, 0x20808⟩])
    ∧ run (.copyBeat 0 2) v (fun t => t.chans == v.chans)
    ∧ run (.copyCompletion 0 2) d (fun t => (t.chan 2).q == []) ∧ run (.copyCompletion 0 2) e (fun t => (t.chan 2).q == [] && ringTag t 3 0 == 2 && (t.sem 1).v == 5) := by decide
theorem witness_Channels_locks : ∀ k, ((stCh [] { Chan.idle with q := [cp false 0] } []).cl k).locks.length ≤ 60 := fun _ => by
  simp [stCh, st, State.cl, State.reset, Cluster.reset]

theorem witness_ChannelRepairs :
    let s := stCh [(4, 5)] { Chan.idle with q := [cp true 1] } []
    let z := { s with chans := [] }
    let f := stCh [] ⟨[{ cp true 1 with nosem := true }], some 8, 0x77⟩ []
    let r := stCh [] ⟨[{ cp true 1 with nosem := true, slot := some (3, 1), ring := some 3 }], some 8, 0x77⟩ []
    let o := stCh [] ⟨[{ cp true 1 with task := 5 }], some 8, 0x77⟩ []
    let h := stCh [(4, 5)] Chan.idle []
    let w := { s with ctxs := [(0, { s.me with waitAt := some (0, 9, 6) })], mc := 16 * 9 }
    (z.chan 2).q = [] ∧ (s.chan 2).q = [cp true 1] ∧ (s.chan 2).fault = none ∧ (f.chan 2).fault ≠ none ∧ ((f.chan 2).q.headD (cp true 1)).task = f.me.task
    ∧ ((o.chan 2).q.headD (cp true 1)).task ≠ o.me.task ∧ s.me.waitAt = none ∧ (s.srcN (.reg 0)).toNat = 0 ∧ (s.srcN (.reg 4)).toNat ≠ 0 ∧ w.me.st.resident = true ∧ 9 ≤ w.mc - 0
    ∧ run (.chst 5 2) s (fun t => t.reg 5 == 0x0000000400000705) ∧ run (.chst 5 2) z (fun t => t.reg 5 == 0) ∧ run (.chst 5 2) f (fun t => t.reg 5 == 0x0000000400080706)
    ∧ run (.chresRetry 5 2) s (fun t => t.reg 5 == 0x0000000400000705 && t.chans == s.chans) ∧ run (.chresRetry 5 2) f (fun t => (t.chan 2).fault == none && (t.chan 2).q.length == 1)
    ∧ run (.chresAbort 5 2) f (fun t => (t.chan 2).q == []) ∧ run (.chresAbort 5 2) r (fun t => (t.chan 2).q == [] && ringTag t 3 1 == 4) ∧ run (.chresAbort 5 2) o (trapped 0x08)
    ∧ run (.chdrain 5 (.reg 4)) h (fun t => t.reg 5 == 0 && t.me.pc == 0x1008) := by decide
/-- R239: the task's copy in channel 0 of the cluster holds CHDRAIN until its bound. -/
theorem witness_ChannelRepairs_drain :
    let s := { stCh [(4, 5)] Chan.idle [] with chans := [(0, { Chan.idle with q := [cp true 1] })] }
    let w := { s with ctxs := [(0, { s.me with waitAt := some (0, 9, 6) })], mc := 9 }
    (s.chan (8 * s.me.cl)).q = [cp true 1] ∧ (cp true 1).task = s.me.task ∧ (s.chan 0).fault = none
    ∧ run (.chdrain 5 (.reg 0)) s (fun t => (t.reg 5).getLsbD 0 && t.me.pc == 0x1008) ∧ run (.chdrain 5 (.reg 4)) s (fun t => t.me.waitAt == some (0, 5, 5) && t.me.pc == 0x1000)
    ∧ run .chdrainBound w (fun t => t.reg 6 == 1 && t.me.pc == 0x1008) ∧ run .chdrainBound { w with mc := 8 } (fun t => t.me.pc == 0x1000) := by decide

set_option maxRecDepth 8000 in
theorem witness_Rings :
    let q (s c : W64) : SMap W64 := [(4, 0xFE0000003FC00400), (5, 0xFE0000003FC00200), (6, s ||| (c <<< 32)), (8, 1), (9, 0x202), (10, 5), (11, 0x801), (12, 0x201), (13, 0x102)]
    let c (g : SMap W64) : Ctx := { cx g with rings := [(3, 3)] }
    let s : State := { st (c (q 256 2)) with tasks := [(0, { vTask with r := { vTask.r with nctx := 2 } })], ringObjs := [(3, ring1)], mem := [(vaultKey 0 0x201, 2)] }
    let n : State := { s with ringObjs := [], ctxs := [(0, { s.me with rings := [] })] }
    let b : State := { n with ctxs := [(0, cx (q 300 2))] }
    let d : State := { s with ctxs := [(0, s.me), (1, { c [] with slot := 1, idx := 1 })] }
    let k : State := { s with ringObjs := [(3, { ring1 with claimed := [1] })], mem := [(vaultKey 0 0x201, 3)] }
    (s.reg 4).toNat % 256 = 0 ∧ s.reg 7 = 0#64 ∧ (s.reg 6).toNat % 2 ^ 32 = 256 ∧ (s.reg 6).toNat / 2 ^ 32 = 2 ∧ (b.reg 6).toNat % 2 ^ 32 % 256 ≠ 0 ∧ n.ringObjs = []
    ∧ ringByte n (n.reg 4) (256 * 2) = some 0x400 ∧ ringByte n (n.reg 5) 2 = some 0x200 ∧ ringOf d (d.ctx (d.sibling d.me 1)) 3 = some 3 ∧ 1 < (d.task 0).r.nctx
    ∧ (d.ctx 1).st.resident = true ∧ (d.ctx 1).task = d.me.task ∧ (d.ctx 1).cl = d.me.cl ∧ ringOf n n.me 3 = none ∧ ringOf s s.me 3 = some 3 ∧ handleSubbed s 3 = false ∧ handleBusy s 3 = false
    ∧ (ringChain d chainFuel 19).contains 5 = false ∧ (ringChain d chainFuel 19).contains 3 = true ∧ smFind d.me.rings 5 ≠ some 5 ∧ aliasesOf s 3 = []
    ∧ s.cls = [] ∧ s.chans = [] ∧ ringTag s 3 1 = 2 ∧ (s.ring 3).count ≤ (s.reg 10).toNat ∧ (s.reg 8).toNat < (s.ring 3).count
    ∧ (s.reg 9).toNat < 0x800 ∧ 0x800 ≤ (s.reg 11).toNat ∧ 1 ∉ (s.ring 3).claimed ∧ 1 ∈ (k.ring 3).claimed ∧ ringTag k 3 1 % 4 = 3 ∧ s.me.tryw = none ∧ s.me.st = .running
    ∧ run (.ringdef 4 4) n (fun t => t.ring 4 == ⟨0, 0, 0x400, 0x200, 256, 2, 0, 0, []⟩ && ringOf t t.me 4 == some 4) ∧ run (.ringdef 4 4) b (fun t => trapped 0x01 t && t.me.trap.info == 0x22)
    ∧ run (.ringdefShare 5 1 3) d (fun t => ringOf t t.me 5 == some 3) ∧ run (.ringdefOff 3) n (fun t => t.me.pc == 0x1008) ∧ run (.ringdefOff 3) s (fun t => ringOf t t.me 3 == none)
    ∧ run (.rtag 5 3 8) s (fun t => t.reg 5 == 2) ∧ run (.rtag 5 3 10) s (fun t => trapped 0x07 t && t.me.trap.info == 5)
    ∧ run (.rtagCas 5 3 8 9) s (fun t => t.reg 5 == 2 && ringTag t 3 1 == 2) ∧ run (.rtagCas 5 3 8 13) s (fun t => t.reg 5 == 2 && ringTag t 3 1 == 1)
    ∧ run (.rtagCas 5 3 8 12) s (fun t => t.reg 5 == 2 && ringTag t 3 1 == 2) ∧ run (.rtagCas 5 3 8 12) k (fun t => t.reg 5 == 0x103) ∧ run (.rtagCas 5 3 8 11) s (fun t => trapped 0x01 t)
    ∧ run (.rwait 5 3 8 9) s (fun t => t.reg 5 == 2 && t.me.pc == 0x1008) ∧ run (.rwait 5 3 8 12) s (fun t => t.me.st == .waiting false && t.me.pc == 0x1000) := by decide

/-- R241: a pattern of one line of 64 bytes and of n tiles 64 bytes apart, from a base; R242: warming of queue 5's ids below 10. -/
def sdesc (base n : Nat) : List Byte := leBytes 8 base ++ leBytes 8 0 ++ leBytes 8 64 ++ leBytes 8 0 ++ leBytes 4 64 ++ leBytes 4 1 ++ leBytes 4 n ++ leBytes 4 1 ++ List.replicate 16 0
def kdesc : List Byte := leBytes 2 5 ++ [4, 0] ++ leBytes 4 10 ++ leBytes 8 0x0100000000000000 ++ leBytes 4 64 ++ leBytes 4 0 ++ List.replicate 40 0
def stU (ds : List Byte) (subs : SMap Sub) : State :=
  { st { cxD [(2, 0xFE0000003FC00000), (3, 5)] with rings := [(3, 3)] } with
    tasks := [(0, dTask)], ringObjs := [(3, ring1)], mem := cells (vaultKey 0 0) ds, subs := subs, tenants := [(0, { Tenant.reset with qwin := 0x1000000000 })] }
def sb (k : SubK) (n : Nat) : Sub := { Sub.none with k := k, cid := 0, task := 0, cl := 0, ring := 3, desc := sdesc 0x0100000000000000 n, lock := 1 }

theorem witness_Subscriptions :
    let s := stU (sdesc 0x0100000000000000 2) []
    let b := stU (sdesc 0x0100000000000001 2) []
    let k := stU kdesc []
    let kb := stU (kdesc.set 3 2) []
    let n : State := { s with ctxs := [(0, { s.me with rings := [] })] }
    let u := stU [] [(5, { sb .fill 4 with tile := 2 })]
    let o := stU [] [(5, { sb .fill 4 with task := 3 })]
    (s.reg 2).toNat % 64 = 0 ∧ ringOf s s.me 3 = some 3 ∧ ringOf n n.me 3 = none
    ∧ (match genAccess s .ld polCl (s.reg 2) 64 with | .ok ks => ks.all isVault && ks.map (memGet s.mem) == sdesc 0x0100000000000000 2 | _ => false) = true
    ∧ (match genAccess b .ld polCl (b.reg 2) 64 with | .ok ks => ks.all isVault && subsBad (ks.map (memGet b.mem)) 256 | _ => false) = true
    ∧ subsBad (sdesc 0x0100000000000000 2) (s.ring 3).size = false
    ∧ (match subCheck s .ld 64 (subLines (sdesc 0x0100000000000000 2)), subCheck s .st 64 (subLines (sdesc 0x0100000000000000 2)) with | .ok a, .ok _ => a == [[(0, 64)], [(64, 64)]] | _, _ => false) = true
    ∧ subkBad kdesc = false ∧ kQueue kdesc ≤ 4095 ∧ inQwin k (k.tenOf k.me) (kQueue kdesc) = true ∧ kVault kdesc = false ∧ k.subs = [] ∧ subkBad (kdesc.set 3 2) = true
    ∧ smFind u.subs (u.reg 3).toNat = some { sb .fill 4 with tile := 2 } ∧ (sb .fill 4).task = u.me.task ∧ (smFind o.subs (o.reg 3).toNat).map (·.task) = some 3
    ∧ run (.subsFill 5 3 2) b (fun t => trapped 0x01 t && t.me.trap.info == 0x24) ∧ run (.subk 5 3 2) kb (fun t => trapped 0x01 t && t.me.trap.info == 0x24)
    ∧ run (.subsStore 5 3 2) n (fun t => trapped 0x07 t && t.me.trap.info == 3) ∧ run (.unsub 5 3) u (fun t => t.reg 5 == 2 && t.subs == []) ∧ run (.unsub 5 3) o (fun t => t.reg 5 == 0xFFFFFFFFFFFFFFFF) := by decide
theorem witness_Subscriptions_slots (key : Nat) : subSlot (stU [] []) key = some (Config.stackOf key % 12 * 64 + 0) ∧ (Config.stackOf key % 12 * 64 + 0) % 64 = 0 :=
  ⟨rfl, by omega⟩
theorem witness_Subscriptions_full : ∀ key, subSlot (stU [] ((List.range 768).map fun k => (k, sb .fill 1))) key = none := by
  intro key
  have h : Config.stackOf key % 12 < 12 := Nat.mod_lt _ (by decide)
  simp only [subSlot, firstFree, Option.map_eq_none_iff, List.find?_eq_none, List.mem_range]
  intro k hk
  simp only [stU, List.contains_iff_mem, List.mem_map, List.mem_filter, List.mem_range, Bool.not_eq_true', Bool.not_eq_false, decide_eq_true_eq]
  exact ⟨(Config.stackOf key % 12 * 64 + k, sb .fill 1), ⟨⟨_, by omega, rfl⟩, by show (Config.stackOf key % 12 * 64 + k) / 64 = _; omega⟩, by show (Config.stackOf key % 12 * 64 + k) % 64 = _; omega⟩

/-- R240: two lines of 64 bytes make a tile: the slot is claimed first, then each beat moves 64 bytes. -/
def sb2 (k : SubK) (n : Nat) : Sub :=
  { sb k n with desc := leBytes 8 0x0100000000000000 ++ leBytes 8 64 ++ leBytes 8 128 ++ leBytes 8 0 ++ leBytes 4 64 ++ leBytes 4 2 ++ leBytes 4 n ++ leBytes 4 1 ++ List.replicate 16 0,
                lines := [[(0, 64)], [(64, 64)], [(128, 64)], [(192, 64)]] }
set_option maxRecDepth 8000 in
theorem witness_SubscriptionTiles :
    let m (b : Sub) (x : State) : State := { x with subs := [(5, b)] }
    let b := sb2 .fill 2
    let s := { stU [] [(5, b)] with mem := [(64, 9), (127, 7)] }
    let h := { m { b with slot := some 0, off := 64 } s with mem := [(64, 9), (127, 7), (vaultKey 0 0x200, 1)], ringObjs := [(3, { ring1 with ppos := 1, claimed := [0] })] }
    let z := m { b with slot := some 0 } h
    let l := m { b with slot := some 0, off := 64, tile := 1 } h
    let w := { m (sb2 .store 2) s with mem := [(vaultKey 0 0x200, 2), (vaultKey 0 0x440, 6)] }
    let v := { m { sb2 .store 2 with slot := some 0, off := 64 } w with mem := [(vaultKey 0 0x200, 3), (vaultKey 0 0x440, 6)] }
    let p := { w with mem := [(vaultKey 0 0x200, 6)] }
    let x := { h with ecc := [100] }
    b.stopped = false ∧ hardHeld s 0 = false ∧ sLines b.desc = 2 ∧ sLbytes b.desc = 64 ∧ subLines b.desc = [dev, dev + 64, dev + 128, dev + 192] ∧ subTiles b.desc = 2
    ∧ ring1.tbase + 2 ≤ ring1.sbase ∧ ring1.sbase + 2 * ring1.size ≤ 2 ^ 22 ∧ ringTag s 3 0 = 0 ∧ ringTag w 3 0 = 2 ∧ (ringTag p 3 0).testBit 2 = true
    ∧ (let line := ((runKeys (b.lines.getD 1 [])).drop 0).take 64
       line = rangeFrom 64 64 ∧ line.Nodup ∧ (∀ k ∈ line, isDevice k = true) ∧ eccHit h 0 polEng line = false ∧ eccHit x 0 polEng line = true)
    ∧ run (.subsTile 5) s (fun t => ringTag t 3 0 == 1 && (t.ring 3).ppos == 1 && (t.ring 3).claimed == [0] && (t.sub 5) == { b with slot := some 0 })
    ∧ run (.subsTile 5) z (fun t => ringTag t 3 0 == 1 && (t.sub 5).off == 64)
    ∧ run (.subsTile 5) h (fun t => ringTag t 3 0 == 2 && (t.sub 5).tile == 1 && (t.sub 5).slot == none && (t.ring 3).claimed == []
        && memGet t.mem (vaultKey 0 0x440) == 9 && memGet t.mem (vaultKey 0 0x47F) == 7)
    ∧ run (.subsTile 5) l (fun t => smFind t.subs 5 == none) ∧ run (.subsTile 5) w (fun t => ringTag t 3 0 == 3 && (t.ring 3).cpos == 1)
    ∧ run (.subsTile 5) v (fun t => ringTag t 3 0 == 0 && memGet t.mem 64 == 6)
    ∧ run (.subsTile 5) p (fun t => (t.sub 5).stopped && t.me.trap.copyF == [⟨0x0F, 0x0F08⟩]) ∧ run (.subsTile 5) x (fun t => (t.sub 5).stopped && t.me.trap.copyF == [⟨0x0F, 0x1408⟩]) := by decide
theorem witness_SubscriptionTiles_inv : ({ stU [] [(5, { sb2 .fill 2 with slot := some 0, off := 64 })] with mem := [(64, 9), (127, 7)] } : State).Inv :=
  ⟨by decide, fun _ h => nomatch h⟩
theorem witness_SubscriptionTiles_noneWaits : NoneWaits (stU [] [(5, { sb2 .fill 2 with slot := some 0 })]) := rfl
set_option maxRecDepth 20000 in
theorem witness_SubscriptionWarm :
    let e (i : Byte) : List Byte := [0, 0, 0, 0, i, 0, 0, 0]
    let b := { sb .adapt 1 with desc := kdesc, ids := [3], pend := [e 3, e 4] }
    let s := stU [] [(64, b)]
    let n := stU [] [(64, { b with pend := [e 4] })]
    let i (x : Byte) : Nat := leNat (((e x).drop (kOff b.desc)).take 4)
    i 3 ∈ b.ids ∧ i 4 < kCount b.desc ∧ i 4 ∉ b.ids ∧ kVault b.desc = false ∧ kCount b.desc ≤ i 12
    ∧ run (.subkWarm 64) s (fun t => (t.sub 64).pend == [e 4] && smGet 0 (t.cl 0).kskip 0 == 1) ∧ run (.subkWarm 64) n (fun t => (t.sub 64).ids == [4, 3] && smFind t.warm 4 == some 0) := by decide

/-- R230 to R232, R237: a destination that faults or whose page is walked for, a completion and an abort whose semaphore's owner is away. -/
theorem witness_Channels_more :
    let f := stCh [] { Chan.idle with q := [{ cp true 1 with dst := 0xFD00000001000000 }] } []
    let g := stCh [] { Chan.idle with q := [{ cp true 1 with src := 0x0100000000000000 }] } []
    let w : State := { g with tasks := [(0, { g.task 0 with regions := dTask.regions })], ctxs := [(0, { g.me with bounds := (cxD []).bounds })] }
    let e := stCh [] { Chan.idle with q := [{ cp true 2 with ring := some 3, slot := some (3, 0), tmpl := tmpl 9 5 }] } [(vaultKey 0 0x200, 1)]
    let a := stCh [] ⟨[{ cp true 1 with tmpl := tmpl 9 5 }], some 8, 0x77⟩ []
    let s := stCh [] ⟨[{ cp true 1 with tmpl := tmpl 1 5 }], some 8, 0x77⟩ []
    (match copyAccess f ((f.chan 2).q.headD (cp true 1)) .st 0xFD00000001000004 4 with | .fault 8 _ => true | _ => false) = true
    ∧ run (.copyBeat 0 2) f (fun t => (t.chan 2).fault == some 8 && (t.chan 2).faddr == 0xFD00000001000004)
    ∧ (match copyAccess w ((w.chan 2).q.headD (cp true 1)) .ld 0x0100000000000004 4 with | .wait _ => true | _ => false) = true
    ∧ semKey e e.me 9 = none ∧ semKey a a.me 9 = none ∧ semKey s s.me 1 = some 1 ∧ (s.sem 1).ws = []
    ∧ run (.copyBeat 0 2) w (fun t => (t.chan 2).q.map (·.elems) == [1] && t.walks.length == 1)
    ∧ run (.copyCompletion 0 2) e (fun t => (t.chan 2).q.map (·.slot) == [none] && ringTag t 3 0 == 2 && t.sems == [])
    ∧ run (.chresAbort 5 2) a (fun t => t.chans == a.chans && t.me.pc == 0x1000)
    ∧ run (.chresAbort 5 2) s (fun t => (t.chan 2).q == [] && (t.sem 1).v == 5 && (t.sem 1).e) := by decide

set_option maxRecDepth 8000 in
/-- R234, R242, R243, R245: SHARE over a ring of one's own, RINGDEF under a subscription, RWAIT, UNSUB of a stopped fill, SUBK of a queue outside
the window, of a table whose page is walked for, and without a ring, and the staging of an adapter in a slot. -/
theorem witness_Rings_more :
    let d : State := { stCh [] Chan.idle [] with ctxs := [(0, { cx [] with rings := [(5, 5)] }), (1, { cx [] with rings := [(3, 19)], slot := 1, idx := 1 })],
                                                 tasks := [(0, { vTask with r := { vTask.r with nctx := 2 } })], ringObjs := [(5, ring1), (19, ring1)] }
    let b : State := { d with subs := [(5, { sb .fill 2 with ring := 5, via := [5] })] }
    let n : State := { stCh [(4, 0xFE0000003FC00400), (5, 0xFE0000003FC00200), (6, 0x200000100)] Chan.idle [] with subs := [(5, { sb .fill 2 with via := [3] })] }
    let x : State := { stU [] [(5, { sb .fill 4 with tile := 2, slot := some 0, stopped := true })] with mem := [(vaultKey 0 0x200, 1)], ringObjs := [(3, { ring1 with ppos := 1, claimed := [0] })] }
    let v : State :=
      let a : Sub := { sb .adapt 1 with desc := kdesc.set 3 1, pend := [leBytes 8 0x700000000] }
      let s := stU [] [(64, a)]
      { s with mem := cells (8 * 64 - 64) (leBytes 8 0x1FF ++ List.replicate 8 0) }
    let k : State := stU (kdesc.set 0 200) []
    let o : State := let s := stU (kdesc.set 3 1) []
      { s with ctxs := [(0, { s.me with rings := [] })] }
    let wk : State := let s := stU kdesc []
      { s with tasks := [(0, { dTask with extents := [] })] }
    smFind d.me.rings 5 = some 5 ∧ ringOf d (d.ctx (d.sibling d.me 1)) 3 = some 19 ∧ (ringChain d chainFuel 19).contains 5 = false ∧ handleBusy d 5 = false ∧ handleSubbed d 5 = false
    ∧ handleSubbed b 5 = true
    ∧ (match tableKey wk (kTable kdesc) with | .wait _ => true | _ => false) = true ∧ inQwin k 0 200 = false
    ∧ run (.ringdefShare 5 1 3) d (fun t => ringOf t t.me 5 == some 19 && smFind t.ringObjs 5 == none) ∧ run (.ringdefShare 5 1 3) b (fun t => t.me.pc == 0x1000)
    ∧ run (.ringdef 3 4) n (fun t => trapped 0x01 t && t.me.trap.info == 0x23)
    ∧ run (.unsub 5 3) x (fun t => t.reg 5 == 2 && t.subs == [] && ringTag t 3 0 == 0 && (t.ring 3).claimed == [])
    ∧ run (.subk 5 3 2) k (trapped 0x08) ∧ run (.subk 5 3 2) wk (fun t => t.me.pc == 0x1000 && t.walks.length == 1)
    ∧ run (.subk 5 3 2) o (fun t => trapped 0x07 t && t.me.trap.info == 3)
    ∧ kVault (v.sub 64).desc = true ∧ subkBad (v.sub 64).desc = false ∧ leNat (((leBytes 8 0x700000000).drop 4).take 4) = 7 ∧ (stageWait v (v.sub 64) 7).isNone = true ∧ ringTag v 3 0 = 0
    ∧ run (.subkWarm 64) v (fun t => ringTag t 3 0 == 1 && (t.sub 64).ids == [7] && (t.sub 64).slot == some 0 && (t.sub 64).off == 64 && (t.sub 64).aid == 7)
    ∧ run (.subkWarm 64) { v with mem := [(vaultKey 0 0x200, 2)] } (fun t => (t.sub 64).pend.length == 1 && ringTag t 3 0 == 2) := by decide
set_option maxRecDepth 20000 in
/-- R240, R242, R369: a part-staged slot, after its entry and at its end; a loader whose ring was named by an alias of a context that is away. -/
theorem witness_SubscriptionStaging :
    let a (off : Nat) : Sub := { sb .adapt 1 with desc := kdesc.set 3 1, ids := [7], slot := some 0, off := off, aid := 7, part := true }
    let m := memSetList (cells (8 * 64 - 64) (leBytes 8 0x1FF ++ List.replicate 8 0)) (vaultKey 0 0x200) [1]
    let r : RingObj := { ring1 with ppos := 1, claimed := [0] }
    let v (off : Nat) : State := { stU [] [(64, a off)] with mem := m, ringObjs := [(3, r)] }
    let h : State := { stU [] [(64, { sb .fill 1 with via := [3, 19] })] with ctxs := [(0, cx []), (1, { cx [] with st := .saved })] }
    r.tbase + r.count ≤ r.sbase ∧ (quietWait (v 64) (a 64) (entryAt (a 64) 7)).isNone = true ∧ viaHeld (v 0) (a 0).via = false ∧ viaHeld h [3, 19] = true
    ∧ run (.subkWarm 64) (v 64) (fun t => memGet t.mem (vaultKey 0 0x440) == 0xFF && memGet t.mem (vaultKey 0 0x441) == 1 && (t.sub 64).slot == some 0 && ringTag t 3 0 == 1)
    ∧ run (.subkWarm 64) (v 0) (fun t => ringTag t 3 0 == 2 && memGet t.mem (vaultKey 0 0x400) == 7 && memGet t.mem (vaultKey 0 0x404) == 1 && smFind t.warm 7 == some 0
        && (t.sub 64).slot == none && (t.ring 3).claimed == []) ∧ run (.subsTile 64) h (fun t => t.subs == h.subs) := by decide

/-! Launch trees and tasks. -/

/-- Tenant 0's page table (one leaf of 1 GiB, the identity), its bounds table (4 MiB, RWX+A, at region 1), a TENANT node, a LAUNCH of two
tasks below it, their record (one context of width 32 and 64 rows, one region), its waybill (RW, 4,096 bytes from 0), and a PAUSED node. -/
def treeMem : List Host.Cell :=
  [(0x10000, 0x01), (0x10001, 0x10), (0x10002, 0x01), (0x11000, 0x01), (0x11001, 0x20), (0x11002, 0x01), (0x12000, 0x03)]
  ++ [(0x13001, 0x04), (0x13005, 0xF0), (0x13006, 0x01)]
  ++ [(0x20000, 1), (0x20007, 1), (0x20011, 1), (0x20012, 2), (0x20017, 1), (0x20020, 4), (0x20025, 0x10), (0x20028, 8), (0x20031, 0x30), (0x20032, 2), (0x20037, 1)]
  ++ [(0x20100, 3), (0x20101, 1), (0x2010A, 2), (0x2010F, 1), (0x20131, 0x10), (0x20132, 2), (0x20137, 1), (0x20139, 0x20), (0x2013A, 2), (0x2013F, 1),
      (0x20140, 2), (0x20144, 1), (0x20148, 1), (0x20204, 1)]
  ++ [(0x21001, 0x10), (0x21007, 1), (0x21008, 2), (0x21009, 3), (0x2100A, 1), (0x2100C, 1), (0x2100D, 1), (0x21010, 5), (0x21018, 64),
      (0x21029, 0x10), (0x21039, 0x40), (0x2103A, 2), (0x2103F, 1)]
  ++ [(0x24007, 1), (0x24009, 0x10), (0x2400D, 2)]
def node : W64 := 0x0100000000020100
def ten1 : Tenant := { Tenant.reset with ptroot := 0x10000, bnds := 0x13000, enable := true, root := 0x0100000000020000 }
def lau : Launch := { Launch.none with node := node, submitted := true }
/-- Nothing is resident; the launch has been submitted, and the tree's root has the turn of the package. -/
def stL (m : List Host.Cell) : State := { State.reset with
    tenants := [(0, ten1)], launches := [(0x20100, lau)], mem := m, turns := [(pkgNode, 0x0100000000020000)], defs := [(0x0100000000020000, 50)] }

/-! Reads through tenant 0's pointers of region 1 find the bytes of memory. -/
/-- The memory has the tables of treeMem, outside reserved memory; no reduction waits at a home. -/
structure Good (s : State) : Prop where
  ten : (s.tenant 0).ptroot = 0x10000 ∧ (s.tenant 0).bnds = 0x13000
  red : s.redq = []
  rsv : 2 ^ 22 ≤ s.pf.rsvbase
  l3 : memNat s.mem 0x10000 8 = 0x11001
  l2 : memNat s.mem 0x11000 8 = 0x12001
  l1 : memNat s.mem 0x12000 8 = 3
  bn : memNat s.mem 0x13000 16 = 0x1F00000000400
theorem home_good (s : State) (h : s.redq = []) : homeMem s = s.mem := by rw [homeMem, h]; rfl
theorem notPeer (k : Nat) (hk : k < 2 ^ 49) : isPeer k = false := by
  have : ¬ 2 ^ 49 ≤ k := by omega
  rw [isPeer, decide_eq_false this, Bool.false_and]
theorem homeByte_good (s : State) (h : s.redq = []) (k : Nat) (hk : k < 2 ^ 49) : homeByte s k = memGet s.mem k := by
  simp [homeByte, notPeer k hk, home_good s h]
theorem ptr_parts (p : W64) (a : Nat) (hp : p.toNat = 2 ^ 56 + a) (ha : a < 2 ^ 22) : ridOf p = 1 ∧ offOf p = a := by
  simp only [ridOf, offOf, BitVec.extractLsb'_toNat, Nat.shiftRight_eq_div_pow, hp]
  omega
theorem ptrAdd_good (p : W64) (a k : Nat) (hp : p.toNat = 2 ^ 56 + a) (ha : a + k < 2 ^ 22) : (ptrAdd p k).toNat = 2 ^ 56 + (a + k) := by
  simp only [ptrAdd, BitVec.toNat_append, BitVec.extractLsb'_toNat, BitVec.toNat_add, BitVec.toNat_ofInt, Nat.shiftRight_eq_div_pow, hp]
  rw [Nat.shiftLeft_eq, ← Nat.shiftLeft_eq, ← Nat.shiftLeft_add_eq_or_of_lt (by omega), Nat.shiftLeft_eq]
  omega
theorem walk_good (s : State) (h : Good s) (a : Nat) (ha : a < 2 ^ 22) : walkVA s 0 a = some (a / 2 ^ 21 * 2 ^ 21, 0, 0) := by
  have e3 : bitsOf a 56 48 = 0 := by simp only [bitsOf]; omega
  have e2 : bitsOf a 47 39 = 0 := by simp only [bitsOf]; omega
  have e1 : bitsOf a 38 30 = 0 := by simp only [bitsOf]; omega
  have e0 : bitsOf a 29 21 = a / 2 ^ 21 := by simp only [bitsOf]; omega
  have hl : ¬ 2 ^ 57 ≤ a := by omega
  have p3 : pteBad 0x11001 = false ∧ bitOf 0x11001 1 = false ∧ bitsOf 0x11001 47 12 * 2 ^ 12 = 0x11000 := by decide
  have p2 : pteBad 0x12001 = false ∧ bitOf 0x12001 1 = false ∧ bitsOf 0x12001 47 12 * 2 ^ 12 = 0x12000 := by decide
  have p1 : pteBad 3 = false ∧ bitOf 3 1 = true ∧ bitsOf 3 47 30 * 2 ^ 30 = 0 ∧ bitsOf 3 3 2 = 0 ∧ bitsOf 3 63 56 = 0 := by decide
  have w : walkFrom s.mem a 3 0x10000 = some (a / 2 ^ 21 * 2 ^ 21, 0, 0) := by
    simp only [walkFrom, pteAddr, show 29 + 9 * (2 + 1) = 56 from rfl, show 21 + 9 * (2 + 1) = 48 from rfl, show 29 + 9 * (1 + 1) = 47 from rfl,
      show 21 + 9 * (1 + 1) = 39 from rfl, show 29 + 9 * (0 + 1) = 38 from rfl, show 21 + 9 * (0 + 1) = 30 from rfl, e3, e2, e1, e0, Nat.mul_zero, Nat.add_zero, h.l3, h.l2, h.l1, p3.1, p3.2.1, p3.2.2, p2.1, p2.2.1, p2.2.2, p1.1, p1.2.1, p1.2.2.1, p1.2.2.2.1, p1.2.2.2.2]
    simp
  have hr : ¬ s.pf.rsvbase ≤ a / 2 ^ 21 * 2 ^ 21 := by have := h.rsv; omega
  simp only [walkVA, if_neg hl, home_good s h.red, h.ten.1, w, Option.filter_some, hr, decide_false, Bool.and_false, Bool.not_false, if_true]
theorem tPlace_good (s : State) (h : Good s) (w : Bool) (p : W64) (a : Nat) (hp : p.toNat = 2 ^ 56 + a) (ha : a < 2 ^ 22) : tPlace s 0 w p = some a := by
  obtain ⟨h1, h2⟩ := ptr_parts p a hp ha
  have hb : tBnd s 0 p = ⟨0, 0, 0, true, true, true, true, true, 0x400⟩ := by
    simp only [tBnd, home_good s h.red, h1, h.ten.2]
    rw [show 0x13000 + 16 * (1 - 1) = 0x13000 from rfl, h.bn]
    decide
  have hv : (0 * 4096 + a) % 2 ^ 64 = a := by omega
  have hd : a / 2 ^ 21 * 2 ^ 21 + a % 2 ^ 21 = a := by omega
  simp only [tPlace, h1, h2, hb, Bnd.ok, Bnd.va, hv, walk_good s h a ha, Option.map_some, tgtKey, hd]
  have : ¬ 0x400 * 4096 ≤ a := by omega
  cases w <;> simp [this]
theorem tByte_good (s : State) (h : Good s) (w : Bool) (p : W64) (a : Nat) (hp : p.toNat = 2 ^ 56 + a) (ha : a < 2 ^ 22) : tByte s 0 w p = some a := by
  have hq : peerOpen s a = true := by simp [peerOpen, notPeer a (by omega)]
  simp [tByte, tPlace_good s h w p a hp ha, hq]
theorem keysOf_good (f : W64 → Option Nat) (hf : ∀ (p : W64) (a : Nat), p.toNat = 2 ^ 56 + a → a < 2 ^ 22 → f p = some a) (n : Nat) (p : W64) (a : Nat)
    (hp : p.toNat = 2 ^ 56 + a) (ha : a + n ≤ 2 ^ 22) : keysOf f p n = some (rangeFrom a n) := by
  have key : ∀ l : List Nat, (∀ k ∈ l, k < n) →
      (l.map fun (k : Nat) => f (ptrAdd p k)).foldr (fun x acc => x.bind fun k => acc.map fun ks => k :: ks) (some []) = some (l.map (a + ·)) := by
    intro l
    induction l with
    | nil => intro _; rfl
    | cons k l ih =>
      intro hk
      have hk0 := hk k List.mem_cons_self
      simp only [List.map_cons, List.foldr_cons, ih fun j hj => hk j (List.mem_cons_of_mem _ hj),
        hf _ (a + k) (ptrAdd_good p a k hp (by omega)) (by omega), Option.bind_some, Option.map_some]
  exact key _ fun k hk => List.mem_range.mp hk
theorem tPlaces_good (s : State) (h : Good s) (w : Bool) (n : Nat) (p : W64) (a : Nat) (hp : p.toNat = 2 ^ 56 + a) (ha : a + n ≤ 2 ^ 22) :
    keysOf (tPlace s 0 w) p n = some (rangeFrom a n) := keysOf_good _ (tPlace_good s h w) n p a hp ha
theorem tKeys_good (s : State) (h : Good s) (w : Bool) (n : Nat) (p : W64) (a : Nat) (hp : p.toNat = 2 ^ 56 + a) (ha : a + n ≤ 2 ^ 22) :
    tKeys s 0 w p n = some (rangeFrom a n) := keysOf_good _ (tByte_good s h w) n p a hp ha
theorem tLook_good (s : State) (h : Good s) (n : Nat) (p : W64) (a : Nat) (hp : p.toNat = 2 ^ 56 + a) (ha : a + n ≤ 2 ^ 22) : tLook s 0 p n = some (memBytes s.mem a n) := by
  simp only [tLook, tKeys_good s h false n p a hp ha, Option.map_some, memBytes, Option.some.injEq, rangeFrom, List.map_map, List.map_inj_left, List.mem_range]
  exact fun k hk => homeByte_good s h.red (a + k) (by omega)
theorem tRead_good (s : State) (h : Good s) (he : s.ecc = []) (n : Nat) (p : W64) (a : Nat) (hp : p.toNat = 2 ^ 56 + a) (ha : a + n ≤ 2 ^ 22) : tRead s 0 p n = some (memBytes s.mem a n) := by
  simp [tRead, tLook_good s h n p a hp ha, he]
theorem rcb_good (s : State) (h : Good s) (p : W64) (a off n : Nat) (hp : p.toNat = 2 ^ 56 + a) (ha : a + off + n ≤ 2 ^ 22) (hn : 0 < n) : rcb s 0 p off n = memNat s.mem (a + off) n := by
  simp only [rcb, tNat, tLook_good s h n _ _ (ptrAdd_good p a off hp (by omega)) ha, Option.getD_some, memNat]
theorem good_tree : Good (stL treeMem) := ⟨⟨rfl, rfl⟩, rfl, by decide, by decide, by decide, by decide, by decide⟩

def root : W64 := 0x0100000000020000
def sL : State := stL treeMem
/-- Tenant 0's tree stands in memory. -/
structure Tree (s : State) : Prop where
  ten : (s.tenant 0).ptroot = 0x10000 ∧ (s.tenant 0).bnds = 0x13000
  mem : s.mem = treeMem
  red : s.redq = []
  ecc : s.ecc = []
  rsv : 2 ^ 22 ≤ s.pf.rsvbase
theorem Tree.good {s : State} (h : Tree s) : Good s :=
  ⟨h.ten, h.red, h.rsv, by rw [h.mem]; exact good_tree.l3, by rw [h.mem]; exact good_tree.l2, by rw [h.mem]; exact good_tree.l1, by rw [h.mem]; exact good_tree.bn⟩
theorem tree_sL : Tree sL := ⟨⟨rfl, rfl⟩, rfl, rfl, rfl, by decide⟩
theorem node_at {s : State} (t : Tree s) (off n v : Nat) (h : memNat treeMem (0x20100 + off) n = v) (hn : off + n ≤ 256 ∧ 0 < n) : rcb s 0 node off n = v := by
  rw [rcb_good s t.good node 0x20100 off n rfl (by omega) hn.2, t.mem]; exact h
theorem root_at {s : State} (t : Tree s) (off n v : Nat) (h : memNat treeMem (0x20000 + off) n = v) (hn : off + n ≤ 256 ∧ 0 < n) : rcb s 0 root off n = v := by
  rw [rcb_good s t.good root 0x20000 off n rfl (by omega) hn.2, t.mem]; exact h
theorem node_fields {s : State} (t : Tree s) : rcb s 0 node 0 1 = 3 ∧ rcb s 0 node 2 2 = 0 ∧ rcb s 0 node 4 1 = 0 ∧ rcb s 0 node 5 1 = 0 ∧ rcb s 0 node 8 8 = root.toNat ∧ rcb s 0 node 0x10 8 = 0
    ∧ rcb s 0 node 0x18 8 = 0 ∧ rcb s 0 node 0x30 8 = 0x0100000000021000 ∧ rcb s 0 node 0x38 8 = 0x0100000000022000 ∧ rcb s 0 node 0x40 4 = 2 ∧ rcb s 0 node 0x44 4 = 1
    ∧ rcb s 0 node 0x48 4 = 1 ∧ rcb s 0 node 0x4C 1 = 0 := by
  refine ⟨?_, ?_, ?_, ?_, ?_, ?_, ?_, ?_, ?_, ?_, ?_, ?_, ?_⟩ <;> exact node_at t _ _ _ (by decide) (by decide)
theorem root_fields {s : State} (t : Tree s) : rcb s 0 root 0 1 = 1 ∧ rcb s 0 root 2 2 = 0 ∧ rcb s 0 root 4 1 = 0 ∧ rcb s 0 root 5 1 = 0 ∧ rcb s 0 root 7 1 = 1 ∧ rcb s 0 root 8 8 = 0 ∧ rcb s 0 root 0x10 8 = 0x0100000000020100
    ∧ rcb s 0 root 0x18 8 = 0 ∧ rcb s 0 root 0x20 2 = 4 ∧ rcb s 0 root 0x24 4 = 0x1000 ∧ rcb s 0 root 0x30 8 = 0x0100000000023000 ∧ rcb s 0 root 0x38 8 = 0 := by
  refine ⟨?_, ?_, ?_, ?_, ?_, ?_, ?_, ?_, ?_, ?_, ?_, ?_⟩ <;> exact root_at t _ _ _ (by decide) (by decide)
theorem pathUp_up {s : State} {tn k : Nat} {seen : List W64} {p : W64} (hp : p ≠ 0#64) (hs : seen.contains p = false) (hk : rcbKind s tn p ≠ 1) :
    pathUp s tn (k + 1) seen p = p :: pathUp s tn k (p :: seen) (rcbPtr s tn p 8) := by
  simp [pathUp, hp, hs, hk, -List.contains_eq_mem]
theorem pathUp_root {s : State} {tn k : Nat} {seen : List W64} {p : W64} (hp : p ≠ 0#64) (hs : seen.contains p = false) (hk : rcbKind s tn p = 1) :
    pathUp s tn (k + 1) seen p = [p] := by
  simp [pathUp, hp, hs, hk, -List.contains_eq_mem]
theorem path_node {s : State} (t : Tree s) : pathOf s 0 node = [node, root] := by
  obtain ⟨h0, -, -, -, h8, -⟩ := node_fields t
  obtain ⟨r0, -⟩ := root_fields t
  have hr : rcbPtr s 0 node 8 = root := by rw [rcbPtr, h8]; decide
  rw [pathOf, show 2 ^ 48 = 281474976710654 + 1 + 1 from rfl, pathUp_up (by decide) (by decide) (by rw [rcbKind, h0]; decide), hr,
    pathUp_root (by decide) (by decide) (by rw [rcbKind, r0])]
theorem live_node {s : State} (t : Tree s) : pathLive s 0 [node, root] = true := by
  obtain ⟨-, n2, n4, -⟩ := node_fields t
  obtain ⟨-, r2, r4, -, r7, -⟩ := root_fields t
  simp [pathLive, effWeight, effVal, rcbState, n2, n4, r4, r7, bitOf]
theorem size_of (s : State) (tn x y z : Nat) (p : W64) (h1 : rcb s tn p 0x40 4 = x) (h2 : rcb s tn p 0x44 4 = y) (h3 : rcb s tn p 0x48 4 = z) : launchSize s tn p = x * y * z := by
  rw [launchSize, h1, h2, h3]
theorem size_node {s : State} (t : Tree s) : launchSize s 0 node = 2 :=
  size_of s 0 2 1 1 node (node_at t _ _ _ (by decide) (by decide)) (node_at t _ _ _ (by decide) (by decide)) (node_at t _ _ _ (by decide) (by decide))
theorem ptr_at {s : State} (t : Tree s) (w : Bool) (p : W64) (a n : Nat) (hp : p.toNat = 2 ^ 56 + a) (ha : a + n ≤ 2 ^ 22) (hn : 0 < n) : ptrOk s 0 w p n = true := by
  have ht : (ptrAdd p (n - 1 : Nat)).toNat = 2 ^ 56 + (a + (n - 1)) := ptrAdd_good p a _ hp (by omega)
  simp [ptrOk, tByte_good s t.good w p a hp (by omega), tByte_good s t.good w _ _ ht (by omega)]
theorem ptr_good (w : Bool) (p : W64) (a n : Nat) (hp : p.toNat = 2 ^ 56 + a) (ha : a + n ≤ 2 ^ 22) (hn : 0 < n) : ptrOk sL 0 w p n = true := ptr_at tree_sL w p a n hp ha hn
theorem rcbSet_node : rcbSet sL 0 node 1 1 1 = sL := by
  have hk := tPlaces_good sL good_tree true 1 (ptrAdd node (1 : Nat)) 0x20101 rfl (by decide)
  simp only [rcbSet, tWrite, show (leBytes 1 1).length = 1 from rfl, hk]
  decide
theorem rcbSet_root : rcbSet sL 0 root 1 1 0 = sL := by
  have hk := tPlaces_good sL good_tree true 1 (ptrAdd root (1 : Nat)) 0x20001 rfl (by decide)
  simp only [rcbSet, tWrite, show (leBytes 1 0).length = 1 from rfl, hk]
  decide
theorem judge_node : judgePath sL 0 [node, root] = (sL, true) := by
  obtain ⟨h0, h2, h4, h5, h8, h10, h18, h30, h38, h40, h44, h48, h4c⟩ := node_fields tree_sL
  obtain ⟨r0, r2, r4, r5, r7, r8, r10, r18, r20, r24, r30, r38⟩ := root_fields tree_sL
  have ok (w : Bool) (p : W64) (a n : Nat) (hp : p.toNat = 2 ^ 56 + a) (ha : a + n ≤ 2 ^ 22) (hn : 0 < n) := ptr_good w p a n hp ha hn
  have on : rcbOk sL 0 node = true := by simp [rcbOk, ok _ node 0x20100 256 rfl (by decide) (by decide)]; decide
  have or : rcbOk sL 0 root = true := by simp [rcbOk, ok _ root 0x20000 256 rfl (by decide) (by decide)]; decide
  have bn : nodeBad sL 0 node [root] = false := by
    simp only [nodeBad, on, or, rcbKind, rcbPtr, h0, h5, h10, h18, h30, h38, gridOk, h40, h44, h48, size_node tree_sL, ptrOk0, List.length, List.isEmpty,
      ok false (BitVec.ofNat 64 0x0100000000021000) 0x21000 128 rfl (by decide) (by decide), ok _ (BitVec.ofNat 64 0x0100000000022000) 0x22000 1 rfl (by decide) (by decide),
      show ceilDiv 2 8 = 1 from rfl, show taskTableBytes sL 0 node = 128 from by simp [taskTableBytes, h4c]]
    simp
  have br : nodeBad sL 0 root [] = false := by
    simp only [nodeBad, or, rcbKind, rcbPtr, r0, r5, r8, r10, r18, r30, r38, ptrOk0, List.length, List.isEmpty,
      ok _ (BitVec.ofNat 64 0x0100000000020100) 0x20100 256 rfl (by decide) (by decide), ok true (BitVec.ofNat 64 0x0100000000023000) 0x23000 64 rfl (by decide) (by decide), ok false (BitVec.ofNat 64 0x0100000000023000) 0x23000 64 rfl (by decide) (by decide)]
    simp
  have jr : judgePath sL 0 [root] = (sL, true) := by
    rw [judgePath, br]
    simp [judgePath, rcbSet_root]
  rw [judgePath, bn]
  simp [jr, rcbSet_node]
def rec1 : TRec :=
  ⟨0x0100000000001000, 0x0302, 1, 0, 1, 1, 0, [5, 0, 0, 0, 0, 0, 0, 0], [64, 0, 0, 0, 0, 0, 0, 0], 4096, 0, 0, 0x0100000000024000, 0,
    [(0, 0, 0), (0, 0, 0), (0, 0, 0)], 0, 0⟩
def reg1 : Region := ⟨0x0100000000000000, 0, 4096, 2, 0, 0, false, false⟩
theorem rec_at {s : State} (t : Tree s) (l : Nat) : readRec s 0 node l = some rec1 := by
  simp only [readRec, rcbPtr, node_at t 0x30 8 0x0100000000021000 (by decide) (by decide), node_at t 0x4C 1 0 (by decide) (by decide)]
  rw [if_neg (by decide), tRead_good s t.good t.ecc 128 _ 0x21000 rfl (by decide), t.mem]
  decide
theorem bnd_tree {s : State} (t : Tree s) : tBnd s 0 0x0100000000000000 = ⟨0, 0, 0, true, true, true, true, true, 0x400⟩ := by
  simp only [tBnd, home_good s t.red, t.ten.2]
  rw [show 0x13000 + 16 * (ridOf 0x0100000000000000 - 1) = 0x13000 from rfl, t.good.bn]
  decide
theorem region_tree {s : State} (t : Tree s) (bs : List Byte) (h0 : bW64 bs 0 = 0x0100000000000000) (h8 : bNum bs 8 8 = 0x20000001000) : regionsFrom s 0 [bs] = .ok [reg1] := by
  simp only [regionsFrom, Region.of, h0, h8, bnd_tree t]
  rfl
theorem waybill_tree {s : State} (t : Tree s) : readWaybill s 0 rec1 = .ok [reg1] := by
  have hl : (List.range rec1.nreg).map (fun k => ((memBytes treeMem 0x24000 16).drop (16 * k)).take 16) = [memBytes treeMem 0x24000 16] := by decide
  have hw : tRead s 0 rec1.waybill (16 * rec1.nreg) = some (memBytes s.mem 0x24000 16) := tRead_good s t.good t.ecc 16 _ 0x24000 rfl (by decide)
  simp only [readWaybill, hw, t.mem, hl, region_tree t _ (show bW64 (memBytes treeMem 0x24000 16) 0 = 0x0100000000000000 by decide)
    (show bNum (memBytes treeMem 0x24000 16) 8 8 = 0x20000001000 by decide)]
  rfl
theorem checkTask_of (s : State) (tn lin : Nat) (p : W64) (r : TRec) (regs : List Region) (h1 : readRec s tn p lin = some r) (ho : r.ok = true)
    (hv : vimageOk s tn r = true) (hr : producerReads s tn r = true) (hj : objectOk s tn r = true) (hw : readWaybill s tn r = .ok regs) : checkTask s tn p lin = .ok (r, regs) := by
  simp [checkTask, h1, ho, hv, hr, hj, hw, Except.map]
theorem check_node {s : State} (t : Tree s) (l : Nat) : checkTask s 0 node l = .ok (rec1, [reg1]) :=
  checkTask_of _ _ _ _ _ _ (rec_at t l) (by decide) (by simp [vimageOk, rec1]) (by simp [producerReads, ptrOk0, rec1]) (by simp [objectOk, rec1]) (waybill_tree t)
theorem coords_node {s : State} (t : Tree s) (l : Nat) (hl : l < 2) : coordsOf s 0 node l = (l, 0, 0) := by
  obtain ⟨-, -, -, -, -, -, -, -, -, h1, h2, -⟩ := node_fields t
  have : l / 2 = 0 ∧ l % 2 = l := by omega
  simp [coordsOf, h1, h2, this]
theorem ready_node {s : State} (t : Tree s) (c : Nat × Nat × Nat) : readyRec s 0 node rec1 c = true := by
  simp [readyRec, path_node t, live_node t, producersDone, entryOf, show rec1.producer = 0#64 from rfl, show rec1.isav = 0x0302 from rfl]
theorem runs_all (n : Nat) : runsWhere (fun _ => true) (n + 1) = [(0, n + 1)] := by
  induction n with
  | zero => rfl
  | succ m ih =>
    simp only [runsWhere, List.reverse_eq_iff] at ih ⊢
    rw [List.range_succ, List.foldl_append, ih]
    simp
theorem fit_node : fitOn sL 0 rec1.shapes 4096 none = some ⟨0, [(0, (0, 0, 0))], 0, true⟩ := by
  have hf (sl : Nat) : freeRuns [] sl = [(0, 2048)] := by
    simp only [freeRuns, List.filter_nil, List.any_nil, Bool.not_false]
    exact runs_all 2047
  have hs : spotsFor [] [(32, 64)] = some [(0, 0, 0)] := by
    simp only [spotsFor, List.all_cons, List.all_nil, spotFor, hf]
    decide
  have ho : occOf sL 0 = [] := by decide
  simp only [fitOn, show rec1.shapes = [(32, 64)] by decide, ho, hs]
  decide
theorem preferred_aff {s : State} {tn : Nat} {r : TRec} {regs : List Region} (h : r.affcl < 192) : ∃ l, preferred s tn r regs none = r.affcl :: l := by
  unfold preferred
  simp only [if_pos h, List.nil_append, List.cons_append, List.eraseDups_cons]
  exact ⟨_, rfl⟩
theorem room_node : roomFor? sL 0 node rec1 (0, 0, 0) [reg1] true = some [⟨0, [(0, (0, 0, 0))], 0, true⟩] := by
  obtain ⟨-, n2, -⟩ := node_fields tree_sL
  obtain ⟨-, -, -, -, -, -, -, -, r20, r24, -⟩ := root_fields tree_sL
  have hp : ∃ l, preferred sL 0 rec1 [reg1] (forwardCl sL 0 rec1 (0, 0, 0)) = 0 :: l := by
    rw [show forwardCl sL 0 rec1 (0, 0, 0) = none by decide]
    exact preferred_aff (by decide)
  obtain ⟨l, hl⟩ := hp
  have hbud : budgetOk sL 0 [0] 4096 [node, root] = true := by
    simp only [budgetOk, effMaxcl, effVault, effMin, n2, r20, r24]
    decide
  simp only [roomFor?, path_node tree_sL, if_true, hl, findRoom, show rec1.vbytes = 4096 from rfl, fit_node, show rec1.mcg = 1 from rfl, Nat.sub_self, groupFits, List.take_zero]
  simp [hbud]
theorem first_node : isFirst sL 0 0x20100 0 node = true := by
  simp [isFirst]
theorem kids_root {s : State} (t : Tree s) : kidsOf s (nodeId 0 root) = [nodeId 0 node] := by
  obtain ⟨-, -, -, -, -, -, r10, -⟩ := root_fields t
  obtain ⟨-, -, -, -, -, -, n18, -⟩ := node_fields t
  have hp : rcbPtr s 0 root 0x10 = node := by rw [rcbPtr, r10]; decide
  have hs : rcbPtr s 0 node 0x18 = 0#64 := by rw [rcbPtr, n18]
  rw [kidsOf, if_neg (by decide), show nodeTn (nodeId 0 root) = 0 by decide, show nodePtr (nodeId 0 root) = root by decide, childrenOf, hp,
    show (65536 : Nat) = 65534 + 1 + 1 from rfl, listFrom, if_neg (by decide), hs, listFrom, if_pos rfl]
  rfl
theorem next_node : isNext sL 0 [node, root] = true := by
  simp only [isNext, parentOf, kids_root tree_sL, show kidsOf sL pkgNode = [nodeId 0 root] by decide]
  simp
/-- A task below another of its launch that is ready waits for it (R333). -/
theorem second_node : dormantLins sL 0x20100 = [0, 1] := by
  have hs : launchSize sL (sL.launch 0x20100).tenant (sL.launch 0x20100).node = 2 := size_node tree_sL
  simp only [dormantLins, hs]
  decide
theorem witness_TaskPlacement :
    pathOf sL 0 (sL.launch 0x20100).node = [node, root] ∧ judgePath sL 0 [node, root] = (sL, true) ∧ dispatchable sL 0 0x20100 0 = true ∧ dispatchable sL 0 0x20100 2 = false
    ∧ pathLive sL 0 [node, root] = true ∧ readRec sL 0 node 0 = some rec1 ∧ producerBad sL 0 rec1 = false ∧ mayStartRec sL 0 node rec1 (coordsOf sL 0 node 0) = true
    ∧ checkTask sL 0 node 0 = .ok (rec1, [reg1])
    ∧ readyRec sL 0 node rec1 (coordsOf sL 0 node 0) = true ∧ heldBy sL 0 0x20100 0 rec1 (coordsOf sL 0 node 0) [reg1] = false
    ∧ roomFor? sL 0 node rec1 (coordsOf sL 0 node 0) [reg1] true = some [⟨0, [(0, (0, 0, 0))], 0, true⟩] ∧ isFirst sL 0 0x20100 0 node = true ∧ isNext sL 0 [node, root] = true
    ∧ rec1.isav ≠ 0x8001 ∧ rec1.nctx ≤ 8 ∧ rec1.mcg = 1 := by
  rw [coords_node tree_sL 0 (by decide)]
  refine ⟨path_node tree_sL, judge_node, ?_, ?_, live_node tree_sL, rec_at tree_sL 0, by decide, ?_, check_node tree_sL 0, ready_node tree_sL _, by decide, room_node, first_node, next_node, by decide, by decide, rfl⟩
  rotate_right 1
  · simp [mayStartRec, path_node tree_sL, live_node tree_sL, producersDone, show rec1.producer = 0#64 from rfl]
  all_goals simp only [dispatchable, show (sL.launch 0x20100).node = node from rfl, size_node tree_sL]; decide

/-- The task's one region is covered by an edge-in; it has no producers. -/
def eTask : Task := { vTask with regions := [reg1], r := { vTask.r with nreg := 1 }, extents := [⟨0, 4096, 0, 0, 0, 0⟩], cls := [0] }
/-- As eTask, with both tasks of the launch at node in its box. -/
def pTask : Task := { eTask with r := { eTask.r with producer := node, box := [(0, 0, 1), (0, 0, 0), (0, 0, 0)] } }
def stK (k : Task) (c : Ctx) : State := { st c with tasks := [(0, k)] }

theorem witness_Tasks :
    let s := stK eTask (cx [])
    let e := stK { eTask with early := true, edgedIn := [0] } { cx [] with st := .early }
    let w := stK { eTask with early := true, edgedIn := [0] } { cx [] with st := .waiting true }
    let n := stK { eTask with early := true } { cx [] with st := .early }
    let o := stK { eTask with st := .edgeOut } (cx [])
    let d := stK { vTask with r := { vTask.r with nctx := 1 } } (cx [])
    let h := stK { eTask with hinted := true } (cx [])
    s.me.tryw = none ∧ s.me.st = .running ∧ 0 < (s.task 0).r.nreg ∧ (s.task 0).r.nreg ≤ 1 ∧ (s.task 0).r.producer = 0 ∧ (s.task 0).regions[0]? = some reg1 ∧ reg1.covered = true
    ∧ e.me.st = .early ∧ w.me.st = .waiting true ∧ taskReady e 0 = true ∧ allEdged e 0 e.me.cl = true ∧ s.me.st.isEarly = false ∧ e.me.st.isEarly = true ∧ allEdged n 0 0 = false
    ∧ (n.task 0).st = .resident ∧ (n.residentOf 0).any (fun e => e.2.cl == 0 && e.2.st.isEarly) = true ∧ taskReady n 0 = true
    ∧ d.me.trap.intrap = false ∧ tdoneReady d = true ∧ lastCtx d 0 0 = true ∧ (o.task 0).st = .edgeOut ∧ (h.task 0).hinted = true ∧ consumersOf s (s.task 0) = [] ∧ s.redq = []
    ∧ run (.twaitp 1) s (fun t => trapped 0x01 t && t.me.trap.info == 0x31) ∧ run (.twaitp 0) s (fun t => t.me.pc == 0x1008 && (t.task 0).edgedIn == [0])
    ∧ run .twaitpAll s (fun t => t.me.pc == 0x1008 && (t.task 0).edgedIn == [0]) ∧ run .earlyToRunning e (fun t => t.me.st == .running && !(t.task 0).early)
    ∧ run .earlyToRunning n (fun t => t.me.st == .early) ∧ run (.edgeIn 0 0) n (fun t => (t.task 0).edgedIn == [0]) ∧ run .tdone d (fun t => t.me.st == .retired && (t.task 0).st == .edgeOut)
    ∧ run .tdone e (trapped 0x01) ∧ run (.edgeOut 0) o (fun t => (t.task 0).st == .retired && (t.task 0).extents == []) ∧ run .thint h (fun t => t.me.pc == 0x1008)
    ∧ run .thint s (fun t => (t.task 0).hinted) := by decide
/-- R252: with a producer that has not completed, its writes to the region hold TWAITP, and its being in the box TWAITP.ALL. -/
theorem witness_Tasks_waits :
    let s : State := { sL with ctxs := [(0, cx [])], tasks := [(0, pTask)] }
    let x := s.task s.me.task
    (0 < x.r.nreg ∧ s.me.tryw = none ∧ s.me.st = .running ∧ x.r.producer ≠ 0#64) ∧ prodLins s x.tenant x.r (x.x, x.y, x.z) = [0, 1] ∧ 0 ∈ writersOf s x 0
      ∧ doneBit s x.tenant x.r.producer 0 = false := by
  intro s x
  have t : Tree s := ⟨⟨rfl, rfl⟩, rfl, rfl, rfl, by decide⟩
  have hl : prodLins s 0 pTask.r (0, 0, 0) = [0, 1] := by
    simp only [prodLins, show pTask.r.producer = node from rfl, node_at t 0x40 4 2 (by decide) (by decide), node_at t 0x44 4 1 (by decide) (by decide), node_at t 0x48 4 1 (by decide) (by decide)]
    decide
  have hw : 0 ∈ writersOf s pTask 0 := by
    have hk : lkey s 0 node = 0x20100 := by rw [lkey, tByte_good s t.good false node 0x20100 rfl (by decide)]; rfl
    have hf : s.tasks.find? (fun e => e.2.tenant = 0 && e.2.launch = lkey s 0 node && e.2.lin = 0) = none := by rw [hk]; decide
    have hb : waybillOf s 0 node 0 = [reg1] := by
      simp only [waybillOf, hf, rec_at t, show rec1.nreg = 1 from rfl, show tRead s 0 rec1.waybill (16 * 1) = some (memBytes s.mem 0x24000 16) from tRead_good s t.good t.ecc 16 _ 0x24000 rfl (by decide)]
      simp only [show List.range 1 = [0] from rfl, List.map_cons, List.map_nil, Region.of, t.mem, show bW64 ((((memBytes treeMem 0x24000 16).drop (16 * 0)).take 16)) 0 = 0x0100000000000000 by decide,
        show bNum ((((memBytes treeMem 0x24000 16).drop (16 * 0)).take 16)) 8 8 = 0x20000001000 by decide, bnd_tree t]
      rfl
    unfold writersOf
    simp only [show pTask.tenant = 0 from rfl, show (pTask.x, pTask.y, pTask.z) = (0, 0, 0) from rfl, hl, show pTask.regions[0]? = some reg1 from rfl, show pTask.r.producer = node from rfl,
      List.mem_filter, hb]
    decide
  have hd : doneBit s 0 node 0 = false := by
    simp only [doneBit, doneByte, rcbPtr, node_at t 0x38 8 0x0100000000022000 (by decide) (by decide)]
    rw [tByte_good s t.good false (ptrAdd (BitVec.ofNat 64 0x0100000000022000) (0 / 8 : Nat)) 0x22000 (by decide) (by decide), Option.map_some, homeByte_good s t.red _ (by decide), t.mem]
    decide
  exact ⟨by decide, hl, hw, hd⟩

/-- A context whose region 1 is peer 3's by its bounds entry, and a route to peer 3; the pages stand here, where what a load finds is no free value. -/
def stR (b : W64) : State :=
  { st { cx [(2, dev), (3, b), (4, dev + 8)] with bounds := [(0, 0x0381F00000000400#128)] } with
    tasks := [(0, dTask)], pf := { State.reset.pf with route := [(3, 1)] } }
/-- A spawn in flight to peer 3. -/
def stSp : State :=
  { stR 3 with ctxs := [(0, { cx [] with remote := some (9, 5) })], remotes := [⟨9, none, some 3, true, none⟩], packets := [⟨1, 0, 0, none, some 9⟩] }
set_option maxRecDepth 8000 in
theorem witness_Spawned :
    let s := stR 3
    let n : State := { s with pf := { s.pf with route := [] } }
    let r := stSp
    let q : State := { stSp with packets := [] }
    let k : State := { q with remotes := [⟨9, some 7, none, true, some 4⟩] }
    0x100 ≤ ((stR 0x100).reg 3).toNat ∧ (s.reg 3).toNat = 3 ∧ (s.reg 2).toNat % 256 = 0 ∧ (s.reg 4).toNat % 256 ≠ 0 ∧ ridOf (s.reg 2) = 1 ∧ (bndOf s.me (s.reg 2)).tgt = 2
    ∧ (bndOf s.me (s.reg 2)).peer = 3 ∧ (bndOf (cxD []) dev).tgt ≠ 2 ∧ smGet 0 n.pf.route 3 = 0 ∧ smGet 0 s.pf.route 3 ≠ 0
    ∧ (match genAccess s .ld polCl (s.reg 2) 256, genAccess (stD [(2, dev), (3, 0xFF)]) .ld polCl dev 256 with | .ok _, .ok _ => true | _, _ => false) = true
    ∧ (r.packets.find? fun q => q.remote = some 9).isSome ∧ (r.remotes.find? fun q => q.id = 9).isSome ∧ (r.ctxs.find? fun q => (q.2.remote.map (·.1)) = some 9) = some (0, r.ctx 0)
    ∧ (q.remotes.find? fun q => q.id = 9).map (·.node) = some none ∧ (k.remotes.find? fun q => q.id = 9).map (·.node) = some (some 4) ∧ rcbOutst k (k.launch 4).tenant (k.launch 4).node = 0
    ∧ run (.tspawn 5 2 3) s (fun t => t.me.remote == some (s.nextId, 5) && t.remotes.length == 1 && t.packets.length == 1 && t.me.pc == 0x1000)
    ∧ run (.tspawn 5 2 3) n (fun t => t.reg 5 == 2) ∧ run (.tspawn 5 2 3) (stR 0x100) (fun t => trapped 0x01 t && t.me.trap.info == 0x32) ∧ run (.tspawn 5 4 3) s (trapped 0x0A)
    ∧ run (.tspawn 5 2 3) (stD [(2, dev), (3, 2)]) (trapped 0x08) ∧ run (.remoteReply 9 1) r (fun t => t.reg 5 == 1 && t.me.pc == 0x1008 && t.remotes == [] && t.packets == [])
    ∧ run (.remoteReply 9 0) r (fun t => t.reg 5 == 0 && t.remotes.length == 1) ∧ run (.retireNotice 9) q (fun t => t.remotes == []) := by decide

/-- R232, R261: a TDONE whose copy has faulted, one whose copy is still queued, an early task whose producers have completed, and a dispatcher asked
through the device's own pointer. -/
theorem witness_Tasks_more :
    let f := stCh [] ⟨[cp true 1], some 8, 0x77⟩ []
    let q := stCh [] { Chan.idle with q := [cp true 1] } []
    let w := stK { eTask with early := true, edgedIn := [0] } { cx [] with st := .waiting true, watch := some (.prod none) }
    let l := stD [(2, dev), (3, 0xFF)]
    f.me.trap.intrap = false ∧ f.me.st.isEarly = false ∧ faultedCopy (abandonCapture f) 0 = some (2, 8) ∧ faultedCopy (abandonCapture q) 0 = none ∧ tdoneReady (abandonCapture q) = false
    ∧ (l.reg 3).toNat = 0xFF ∧ (l.reg 2).toNat % 256 = 0
    ∧ run .tdone f (fun t => trapped 0xD000000F t && t.me.trap.info == 0x20808) ∧ run .tdone q (fun t => t.me.pc == 0x1000 && t.me.st == .running)
    ∧ run .earlyToRunning w (fun t => t.me.st == .waiting false && !(t.task 0).early)
    ∧ run (.twaitp 0) { w with tasks := [(0, eTask)] } (fun t => t.me.pc == 0x1008 && t.me.watch == none) := by decide

/-! Queues and rings. -/

/-- Queue 5 of the tenant, enabled and checked: 256 entries at 0x100000, with or without DEDUP on bytes 0 to 7; its block stands where R263 lets the
model put it. -/
def qAt : Nat := 430 * 2 ^ 30 + 0x20000000 + 64 * 5
def stQ (c : Ctx) (flags : Byte) (k : Queue) : State :=
  { st c with tenants := [(0, { Tenant.reset with qwin := 0x1000000000, mwin := 0x1000000000 })], queues := [(5, { k with checked := true })],
              mem := [(0x100020, 0x77), (qAt, 1), (qAt + 2, 8), (qAt + 3, flags), (qAt + 10, 0x10), (qAt + 0x18, 1), (qAt + 0x20, 3)].filter fun e => e.2 ≠ 0 }
def qReg : SMap W64 := [(2, 0xFF0005), (3, 5), (4, 7), (5, 9), (6, 11), (7, 13), (8, 0x030005), (12, 9), (13, 9)]
def ent (range : Bool) (key : Option W64) : QEnt := ⟨range, key, none, false, none⟩
set_option maxRecDepth 8000 in
theorem witness_Pushes :
    let s := stQ (cx qReg) 0 Queue.none
    let d := stQ (cx qReg) 1 { Queue.none with ents := [ent false (some 7)] }
    let f := stQ (cx qReg) 1 { Queue.none with ents := List.replicate 256 (ent false none) }
    let o : State := { s with tenants := [] }
    let off := { stQ (cx qReg) 0 Queue.none with mem := [] }
    let b : State := { s with launches := [(0, { Launch.none with node := 0x0100000000000100 })] }
    let p : State := { s with pf := { s.pf with route := [(3, 1)] } }
    qOwned s 0 5 = true ∧ qState s 5 = 1 ∧ (s.queue 5).checked = true ∧ qOwned o 0 5 = false ∧ qState off 5 = 0 ∧ qDedup s 5 = false ∧ qDedup d 5 = true
    ∧ (s.reg 5).toNat > (s.reg 4).toNat ∧ (s.reg 13).toNat ≤ (s.reg 12).toNat ∧ taskPath s 0 = [] ∧ qslotsFull s 0 [] = false ∧ qslotsFull (release b 0 5) 0 (taskPath b 0) = true
    ∧ (d.queue 5).ents.any (fun e => e.key == some (qKey d 5 [7, 9, 11, 13])) = true ∧ ((f.queue 5).ents.all fun e => e.key != some (qKey f 5 [7, 9, 11, 13])) = true ∧ qFull f 5 = true
    ∧ qFull s 5 = false ∧ (s.queue 5).ws = [] ∧ s.redq = [] ∧ entAddr s 5 (qTail s 5) + 32 ≤ qcbAddr s 5 ∧ smGet 0 s.pf.route 3 = 0 ∧ smGet 0 p.pf.route 3 ≠ 0
    ∧ (s.reg 2).toNat = 5 + 0xFF0000 ∧ (s.reg 8).toNat = 5 + 3 * 2 ^ 16 ∧ (s.srcN (.reg 3)).toNat = 5
    ∧ run (.qpush 1 2 4) s (fun t => t.reg 1 == 0 && t.me.pc == 0x1008 && (t.queue 5).ents == [⟨false, none, some 0, false, none⟩] && memNat t.mem 0x100060 8 == 7 && memNat t.mem 0x100078 8 == 13 && qTail t 5 == 4)
    ∧ run (.qinsd 1 2 4) d (fun t => t.reg 1 == 2 && (t.queue 5).ents.length == 1) ∧ run (.qpush 1 2 4) f (fun t => t.reg 1 == 1) ∧ run (.qpush 1 2 4) b (fun t => t.reg 1 == 1)
    ∧ run (.qrange 1 2 4) s (fun t => t.reg 1 == 0 && (t.queue 5).ents == [⟨true, none, some 0, false, none⟩]) ∧ run (.qrange 1 2 12) s (fun t => trapped 0x11 t && t.me.trap.info == 0x50004)
    ∧ run (.qinsd 1 2 4) s (fun t => trapped 0x11 t && t.me.trap.info == 0x50005) ∧ run (.qpush 1 2 4) o (fun t => trapped 0x11 t && t.me.trap.info == 0x50001)
    ∧ run (.qpush 1 8 4) s (fun t => trapped 0x11 t && t.me.trap.info == 0x50001) ∧ run (.qpush 1 8 4) p (fun t => t.me.remote == some (p.nextId, 1) && t.packets.length == 1)
    ∧ run (.qstat 1 (.reg 3)) d (fun t => t.reg 1 == 0x4100000000000001) ∧ run (.qstat 1 (.reg 3)) o (fun t => trapped 0x11 t) := by decide

set_option maxRecDepth 8000 in
theorem witness_Pops :
    let h (c : Ctx) (w lo hi : W64) : Ctx := { c with hold := [w, lo, hi, 6, 7] }
    let s := stQ (cx qReg) 0 { Queue.none with ents := [ent true none] }
    let n := stQ (cx qReg) 0 Queue.none
    let b := stQ (h (cx qReg) 0x8000000000000005 3 9) 0 { Queue.none with ents := [ent true none] }
    let x := stQ (h (cx qReg) 0x8000000000000005 8 9) 0 Queue.none
    let y := stQ (h (cx qReg) 0xC000000000000005 3 9) 0 { Queue.none with steals := [(0, 4)] }
    (s.srcN (.reg 3)).toNat = 5 ∧ qOwned s 0 5 = true ∧ qState s 5 = 1 ∧ (s.queue 5).checked = true ∧ holds s.me = false ∧ s.me.tryw = none ∧ (s.queue 5).ents = [ent true none]
    ∧ holds b.me = true ∧ b.me.hold.getD 1 0 < b.me.hold.getD 2 0 ∧ (n.queue 5).ents = [] ∧ (n.queue 5).ws = [] ∧ stealable n 5 [0] = [] ∧ n.me.st = .running ∧ n.redq = []
    ∧ x.me.hold = [0x8000000000000005, 8, 9, 6, 7] ∧ (0x8000000000000005#64).getLsbD 63 = true ∧ (0x8000000000000005#64).getLsbD 62 = false ∧ (0xC000000000000005#64).getLsbD 62 = true
    ∧ (0xC000000000000005#64).toNat % 4096 = 5 ∧ (y.queue 5).steals = [(0, 4)] ∧ (y.queue 5).ws = [] ∧ qFull y 5 = false ∧ (3 : W64) < 9 ∧ 3 ≤ (9 - 3 : W64).toNat
    ∧ qHeadBad { s with ecc := [0x10003F] } 5 = true ∧ qHeadBad { s with ecc := [0x100040] } 5 = false
    ∧ run (.qpopb 8 (.reg 3)) { s with ecc := [0x10003F] } (fun t => trapped 0x14 t && t.me.trap.info == 0x100020 && (t.queue 5).ents == [ent true none])
    ∧ run (.qpopb 8 (.reg 3)) s (fun t => t.reg 8 == 0x77 && t.reg 9 == 0 && t.me.hold == [0x8000000000000005, 0x77, 0, 0, 0] && (t.queue 5).ents == [] && qHead t 5 == 2)
    ∧ run (.qpopb 8 (.reg 3)) b (fun t => trapped 0x11 t && t.me.trap.info == 0x50003) ∧ run (.qpopb 8 (.reg 3)) n (fun t => t.me.st == .waiting false && (t.queue 5).ws == [(0, 8)])
    ∧ run (.qnext 1) n (fun t => t.reg 1 == 0xFFFFFFFFFFFFFFFF) ∧ run (.qnext 1) b (fun t => t.reg 1 == 3 && t.me.hold == [0x8000000000000005, 4, 9, 6, 7])
    ∧ run (.qnext 1) x (fun t => t.reg 1 == 8 && t.me.hold == [0, 9, 9, 6, 7])
    ∧ run (.qnext 1) y (fun t => t.reg 1 == 3 && t.me.hold == [0x8000000000000005, 4, 6, 6, 7] && (t.queue 5).ents.length == 1 && memNat t.mem 0x100000 8 == 6 && memNat t.mem 0x100008 8 == 9) := by decide

/-- Ring 2 of the tenant, enabled and checked: 16 slots at 0x200000, RIDX 17. -/
def mAt : Nat := 430 * 2 ^ 30 + 0x20040000 + 64 * 2
def stM (ty seq : Byte) : State :=
  { stG [(2, 2), (3, 5)] with
      tenants := [(0, { Tenant.reset with mwin := 0x1000000000 })], mrings := [(2, ⟨true⟩)],
      mem := [(0x200040, ty), (0x200042, 8), (0x200044, seq), (0x200048, 0x66), (mAt, 1), (mAt + 2, 4), (mAt + 10, 0x20), (mAt + 0x10, 17)].filter fun e => e.2 ≠ 0 }
theorem witness_Messages :
    let s := stM 1 17
    let u := stM 0 0
    let v := stM 1 33
    let o : State := { s with tenants := [] }
    (s.srcN (.reg 2)).toNat = 2 ∧ mOwned s 0 2 = true ∧ mState s 2 = 1 ∧ (smGet MRing.none s.mrings 2).checked = true ∧ mcb s 2 8 8 + 64 * (mRidx s 2 % mSlots s 2) = 0x200040
    ∧ hdrType (memNat s.mem 0x200040 8) = 1 ∧ hdrSeq (memNat s.mem 0x200040 8) = 17 ∧ hdrBad (memNat s.mem 0x200040 8) = false ∧ s.me.tryw = none ∧ s.redq = [] ∧ mRidx s 2 = 17 ∧ mSlots s 2 = 16
    ∧ hdrType (memNat u.mem 0x200040 8) = 0 ∧ hdrSeq (memNat v.mem 0x200040 8) = 33 ∧ mOwned o 0 2 = false ∧ u.me.st = .running
    ∧ unitBad { s with ecc := [0x200047] } 0x200040 8 = true ∧ unitBad { s with ecc := [0x20007F] } 0x200040 8 = false ∧ unitBad { s with ecc := [0x20007F] } 0x200040 64 = true
    ∧ run (.msgpop 8 (.reg 2)) { s with ecc := [0x200047] } (fun t => trapped 0x14 t && t.me.trap.info == 0x200040 && mRidx t 2 == 17)
    ∧ run (.msgpeek 8 (.reg 2)) { s with ecc := [0x20007F] } (fun t => trapped 0x14 t && t.me.trap.info == 0x200040 && mRidx t 2 == 17)
    ∧ run (.msgpop 8 (.reg 2)) s (fun t => t.reg 8 == 0x0000001100080001 && t.reg 9 == 0x66 && t.reg 15 == 0 && mRidx t 2 == 18) ∧ run (.msgpeek 8 (.reg 2)) s (fun t => t.reg 9 == 0x66 && mRidx t 2 == 17)
    ∧ run (.msgpop 8 (.reg 2)) u (fun t => t.me.st == .waiting false) ∧ run (.msgpop 8 (.reg 2)) v (fun t => trapped 0x10 t && t.me.trap.info == 0x0000001100020003 && mState t 2 == 2)
    ∧ run (.msgrst 1 2 3) s (fun t => t.reg 1 == 17 && mRidx t 2 == 5) ∧ run (.msgpeek 8 (.reg 2)) o (fun t => trapped 0x10 t && t.me.trap.info == 0x20001)
    ∧ run (.msgrst 1 2 3) o (fun t => trapped 0x10 t && t.me.trap.info == 0x20001) := by decide

set_option maxRecDepth 8000 in
/-- R266 to R275: what a waiting word waits for, a push to a waiter that has gone, a ring that goes to ERROR under another context, a reserved
header, a block out of range, and a ring put back. -/
theorem witness_QueuesAndRings_more :
    let w := stQ (cx qReg) 0 { Queue.none with ws := [(1, 8)] }
    let p : State := { w with mem := memSet w.mem (qAt + 0x18) 3, ctxs := w.ctxs ++ [(1, { (cx []).waits 0 .served with slot := 1, idx := 1 })] }
    let u := stM 0 0
    let z := stM 1 33
    let v : State := { z with ctxs := z.ctxs ++ [(1, { (cx []).waits 0 (.msg 2 true 8 (.reg 2)) with slot := 1, idx := 1 })] }
    let r := stM 0xF1 17
    let b : State := { stM 1 17 with mem := (stM 1 17).mem.filter fun e => e.1 ≠ mAt + 2, mrings := [(2, ⟨false⟩)] }
    let e : State := { stM 1 17 with mem := memSet (stM 1 17).mem mAt 2 }
    (p.ctx 1).expired p.mc = false ∧ (8 : GReg).toNat % 4 = 0 ∧ qHead p 5 = qTail p 5 ∧ (b.me.tryw = none ∧ mState b 2 = 1 ∧ mBad b 2 = true) ∧ mState e 2 = 2 ∧ hdrBad (memNat r.mem 0x200040 8) = true
    ∧ run (.msgpop 8 (.reg 2)) u (fun t => t.me.watch == some (.msg 2 true 8 (.reg 2))) ∧ run (.qpopb 8 (.reg 3)) (stQ (cx qReg) 0 Queue.none) (fun t => t.me.watch == some .served)
    ∧ run (.msgpop 8 (.reg 2)) v (fun t => trapped 0x10 t && (t.ctx 1).pc == 0x2000 && (t.ctx 1).trap.info == 0x0000001100020004)
    ∧ run (.msgpeek 8 (.reg 2)) r (fun t => trapped 0x10 t && t.me.trap.info == 0x0000001100020002) ∧ run (.msgpop 8 (.reg 2)) b (fun t => trapped 0x10 t && t.me.trap.info == 0x0000001100020005)
    ∧ run (.msgpop 8 (.reg 2)) e (fun t => trapped 0x10 t && t.me.trap.info == 0x0000001100020004) ∧ run (.msgrst 1 2 3) e (fun t => t.reg 1 == 17 && mState t 2 == 1)
    ∧ run (.qpush 1 2 4) p (fun t => (t.ctx 1).pc == 0x1008 && (t.ctx 1).reg 8 == 7 && (t.ctx 1).reg 11 == 13 && (t.queue 5).ents == [] && t.me.pc == 0x1008) := by decide

/-! Saving and restoring. -/

/-- At level 1 with its vault on cluster 0, from byte 0; the part is at byte 0 of the vault. -/
theorem vault_access (s : State) (k : AKind) (pol : Pol) (n : Nat) (hn : n ≤ 2 ^ 22) (h0 : s.cls = []) (h1 : s.ecc = []) (h2 : s.ringObjs = []) (h3 : s.me.cl = 0) (h4 : s.me.trap.pl = true)
    (h5 : smFind (s.task s.me.task).vbase 0 = some 0) : genAccess s k pol 0xFE0000003FC00000 n = .ok (rangeFrom (vaultKey 0 0) n) := by
  have hl : ∀ q, lockHit s s.me.cl q k.isStore = false := fun q => by simp [lockHit, State.cl, h0, Cluster.reset]
  have hr : resolve s s.me s.cur s.me.trap.pl k 0xFE0000003FC00000 n = .ok (rangeFrom (vaultKey 0 0) n) := by
    have ho : offOf 0xFE0000003FC00000 = 0x3FC00000 := by decide
    have hi : ridOf 0xFE0000003FC00000 = 0xFE := by decide
    simp only [resolve, hi, vaultKeys, ho, bitsOf, h4]
    have : ¬ 4194304 < n := by omega
    simp [h3, h5, isRingTag, h2, this]
  have he : eccHit s s.me.cl pol (rangeFrom (vaultKey 0 0) n) = false := by simp [eccHit, h1]
  simp only [genAccess, hr, lockEcc, he]
  simp [hl]
theorem vault_loads (s : State) (n : Nat) (hn : n ≤ 2 ^ 22) : (loadKeys s s.me.cl polCl (rangeFrom (vaultKey 0 0) n)).2 = memBytes s.mem (vaultKey 0 0) n := by
  have plain : ∀ k ∈ rangeFrom (vaultKey 0 0) n, isCached k = false ∧ isPeer k = false ∧ k < 2 ^ 62 := by
    intro k hk
    simp only [rangeFrom, List.mem_map, List.mem_range, vaultKey] at hk
    obtain ⟨i, hi, rfl⟩ := hk
    simp only [isCached, isPeer, Bool.and_eq_false_iff, decide_eq_false_iff_not]
    omega
  simp only [loadKeys_plain _ _ _ _ plain, memBytes]
/-- In a handler at level 1, with g2 at the part; what was saved, and memory. -/
def stZ (m : List Host.Cell) (sv : SMap Saved) : State := { st (hx [(2, 0xFE0000003FC00000)]) with tasks := [(0, bTask)], mem := m, saved := sv }
theorem stZ_access (m : List Host.Cell) (sv : SMap Saved) (k : AKind) : genAccess (stZ m sv) k polCl 0xFE0000003FC00000 0x8000 = .ok (rangeFrom (vaultKey 0 0) 0x8000) :=
  vault_access _ k polCl 0x8000 (by decide) rfl rfl rfl rfl rfl rfl
theorem witness_Save_stores :
    let s := stZ [] []
    s.me.trap.pl = true ∧ s.reg 2 = 0xFE0000003FC00000#64 ∧ s.me.strm.voteFly = [] ∧ quiet s.me = true ∧ s.me.strm.idle = true ∧ s.me.trap.intrap = true
    ∧ (∃ ks, genAccess s .st polCl 0xFE0000003FC00000 0x8000 = .ok ks) ∧ canTrap { s with ctxs := [(0, cx [])] } :=
  ⟨rfl, by decide, rfl, rfl, rfl, rfl, ⟨_, stZ_access [] [] .st⟩, canTrap_of _ rfl⟩
theorem bytes_of_set (m : List Host.Cell) (a n : Nat) (bs : List Byte) (h : bs.length = n) : memBytes (memSetList m a bs) a n = bs := h ▸ memBytes_memSetList m a bs
theorem bytes_sub (mm : List Host.Cell) (a n off len : Nat) (h : off + len ≤ n) : ((memBytes mm a n).drop off).take len = memBytes mm (a + off) len := by
  apply List.ext_getElem
  · simp only [memBytes, rangeFrom, List.length_take, List.length_drop, List.length_map, List.length_range]; omega
  · intro i h1 h2
    simp only [memBytes, rangeFrom, List.getElem_take, List.getElem_drop, List.getElem_map, List.getElem_range, Nat.add_assoc]
theorem bytes_low (m : List Host.Cell) (a k n : Nat) (bs : List Byte) (h : k + n ≤ a) : memBytes (memSetList m a bs) k n = memBytes m k n :=
  memBytes_congr _ _ _ _ fun j _ h2 => memGet_memSetList_out bs m a j (Or.inl (by omega))
theorem drawn_length (num off n : Nat) : (drawnBytes num off n).length = n := by simp only [drawnBytes, List.length_map, List.length_range]
/-- R288: a part of no records, of a context whose team has width 32. -/
theorem witness_Save_loads (t0 : Team) : ∃ mm, let s := stZ mm [(0, .strm [] [] false [] t0)]
    ∃ ks, genAccess s .st polCl 0xFE0000003FC00000 0x8000 = .ok ks ∧
      let bs := (loadKeys s s.me.cl polCl ks).2
      findPart s bs (min 128 (bNum bs 0 2)) = some (.strm [] [] false [] t0) ∧ ∀ r ∈ (List.range (min 128 (bNum bs 0 2))).map (partRec bs), recKind r < 3 := by
  obtain ⟨mm, hmm⟩ : ∃ mm, mm = memSetList (memSetList [] (vaultKey 0 0 + ringsOff) (drawnBytes 0 ringsOff 512)) (vaultKey 0 0 + teamOff) (drawnBytes 0 teamOff teamBytes) := ⟨_, rfl⟩
  have hr : memBytes mm (vaultKey 0 0 + ringsOff) 512 = drawnBytes 0 ringsOff 512 := by
    rw [hmm, bytes_low _ _ _ _ _ (by simp only [teamOff, ringsOff]; omega)]
    exact bytes_of_set _ _ _ _ (drawn_length _ _ _)
  have ht : memBytes mm (vaultKey 0 0 + teamOff) teamBytes = drawnBytes 0 teamOff teamBytes := by
    rw [hmm]
    exact bytes_of_set _ _ _ _ (drawn_length _ _ _)
  have hn : bNum (memBytes mm (vaultKey 0 0) 0x8000) 0 2 = 0 := by
    have z : memBytes mm (vaultKey 0 0 + 0) 2 = memBytes [] (vaultKey 0 0 + 0) 2 := by
      rw [hmm, bytes_low _ _ _ _ _ (by simp only [teamOff]; omega), bytes_low _ _ _ _ _ (by simp only [ringsOff]; omega)]
    rw [bNum, bytes_sub _ _ _ _ _ (by omega), z]
    decide
  refine ⟨mm, _, stZ_access mm _ .st, ?_⟩
  rw [vault_loads _ _ (by decide)]
  have hm : (stZ mm [(0, .strm [] [] false [] t0)]).mem = mm := rfl
  simp only [hm, hn]
  refine ⟨?_, fun r h => absurd h (by simp)⟩
  simp only [findPart, bytes_sub mm (vaultKey 0 0) 0x8000 ringsOff 512 (by decide), bytes_sub mm (vaultKey 0 0) 0x8000 teamOff teamBytes (by decide), hr, ht]
  simp [stZ, Saved.isEng]
theorem witness_Save_part_free : findPart (stZ [] []) [] 0 = none := rfl

set_option maxRecDepth 8000 in
theorem witness_Yield :
    let c := hx []
    let s := { st { c with trap := { c.trap with inSave := true, svDone := true, pl := true } } with tasks := [(0, { vTask with r := { vTask.r with vbytes := 256 } })] }
    let n := { st { c with trap := { c.trap with inSave := true } } with tasks := [(0, { vTask with r := { vTask.r with vbytes := 256 } })] }
    s.me.trap.pl = true ∧ s.me.trap.inSave = true ∧ s.me.trap.svDone = true ∧ engUnsaved s = false ∧ drained s.me = true ∧ copyLeft s s.cur = false ∧ s.redq = []
    ∧ n.me.trap.svDone = false ∧ n.me.trap.inSave = true ∧ n.me.trap.intrap = true ∧ run .yield n (fun t => t.me.trap.reason == 1 && t.me.trap.info == 0x44 && t.me.trap.epc == 0x1000) ∧ run .barfl s (fun t => t.me.pc == 0x1008)
    ∧ run .yield s (fun t => t.me.st == .saved && !t.me.trap.pl && memNat t.mem (frameKey 0 8) 8 == 0x3000 && memGet t.mem (frameKey 0 0) == 1) := by decide
theorem witness_Yield_inv : ({ st (hx []) with tasks := [(0, vTask)] } : State).Inv := memInv _ rfl rfl
theorem witness_Yield_early :
    let c := cx []
    let s := st { c with trap := { c.trap with pl := true } }
    canTrap s ∧ s.me.trap.pl = true ∧ s.me.trap.inSave = false ∧ run .yield s (fun t => trapped 0x01 t && t.me.trap.info == 0x42) := ⟨canTrap_of _ rfl, by decide⟩

/-- A saved context of width 32 and 64 rows, pinned to cluster 0, with CTX.EPC 0x3000 in its frame. -/
def stB : State :=
  { st { Ctx.none with st := .saved, team := { t0 with w := 32 } } with
    tasks := [(0, { vTask with cls := [0] })], tenants := [(0, { Tenant.reset with enable := true })],
    mem := [(frameKey 0 0, 1), (frameKey 0 2, 1), (frameKey 0 9, 0x30), (frameKey 0 0x28, 64)] }
theorem spots_wide : spotsFor [] [(32, 64)] = some [(0, 0, 0)] := by
  have hf (sl : Nat) : freeRuns [] sl = [(0, 2048)] := by
    simp only [freeRuns, List.filter_nil, List.any_nil, Bool.not_false]
    exact runs_all 2047
  simp only [spotsFor, List.all_cons, List.all_nil, spotFor, hf]
  decide
theorem groups_stB : backGroups stB stB.cur = [(stB.me.gpos, [stB.cur])] := by decide
theorem room_stB : roomBack stB stB stB.cur = some [⟨0, [(0, (0, 0, 0))], 0, false⟩] := by
  have hb : boundCl stB stB.me.task stB.me.gpos [stB.cur] = some 0 := by decide
  have hf : backFit stB stB.me.task [stB.cur] 0 = some ⟨0, [(0, (0, 0, 0))], 0, false⟩ := by
    simp only [backFit, fitOn, show ([stB.cur].map fun c => ((stB.ctx c).team.w, hdrNat stB c 0x28 4)) = [(32, 64)] by decide, show occOf stB 0 = [] by decide, spots_wide]
    decide
  show findBack stB stB stB.me.task (backGroups stB stB.cur) = _
  simp only [groups_stB, findBack, hb, List.findSome?_cons, hf, backRest]
  decide
theorem witness_Restore :
    let k := stB.task stB.me.task
    comesBack stB stB.cur = true ∧ backGroups stB stB.cur = [(stB.me.gpos, [stB.cur])] ∧ roomBack stB stB stB.cur = some [⟨0, [(0, (0, 0, 0))], 0, false⟩]
    ∧ isNext stB k.tenant (taskPath stB stB.me.task) = true ∧ smSortedFrom 0 stB.ctxs = true ∧ (0 : Nat) < 192 ∧ 0 + k.r.vbytes ≤ 2 ^ 22 ∧ NoneWaits stB ∧ stB.Inv :=
  ⟨by decide, groups_stB, room_stB, by decide, by decide, by decide, by decide, rfl, by decide, fun _ h => nomatch h⟩
theorem witness_Restore_not : let s : State := { stB with tenants := [] }; comesBack s s.cur = false := by decide

/-! Translation and migration. -/

/-- Cluster 0 caches windows 0 and 4 of the tenant and window 0 of another. -/
def tcs : Cluster := { Cluster.reset with tc := [⟨0, 0, 0, 0, 0, 0⟩, ⟨0, 0, 4, 0, 0, 0⟩, ⟨1, 1, 0, 0, 0, 0⟩], icache := [(0x1000, (5, 0))] }
def stT (c : Ctx) : State := { st { c with trap := { c.trap with pl := true } } with tasks := [(0, vTask)], cls := [(0, tcs)] }
def wk : Walk := ⟨0, 0, 0, 0, 0, false, false⟩

set_option maxRecDepth 8000 in
theorem witness_ShootDowns :
    let g : SMap W64 := [(2, 0x1000), (3, 0x2000)]
    let s := stT (cx g)
    let w := stT { cx g with sysWait := some 1 }
    let b : State := { w with walks := [(5, wk)] }
    let p : State := { sL with ctxs := [(0, cx [])], walks := [(5, wk)] }
    let q : State := { p with tenants := [(0, { ten1 with shoots := [(1, 0, 0x200000)], xgen := 1 })] }
    let m : State := { stG [] with walks := [(5, wk)] }
    let x : State := { stG [] with tenants := [(0, { Tenant.reset with xtbusy := true, xtnew := 3 })], walks := [(5, wk)] }
    let l : L1Line := { valid := 3, dirty := 2, t := 0, data := [(0, 5), (1, 6)], ef := false, by_ := [] }
    let d : State := { stG [] with cls := [(0, { Cluster.reset with l1 := [(2, l)] })] }
    s.me.trap.pl = true ∧ s.me.sysWait = none ∧ (s.reg 4).toNat = 0 ∧ 0 < (s.reg 3).toNat ∧ w.me.sysWait = some 1 ∧ shootOver w 0 1 0 = true ∧ shootOver b 0 1 0 = false
    ∧ smFind p.walks 5 = some wk ∧ wk.missing = false ∧ walkStale p wk = false ∧ walkStale q wk = true ∧ walkStale m wk = false ∧ walkVA m 0 0 = none
    ∧ (m.tenant 0).xtbusy = false ∧ (x.tenant 0).xtbusy = true ∧ shootOver x 0 3 (2 ^ 64) = false ∧ smFind (d.cl 0).l1 2 = some l ∧ bitOf l.dirty 1 = true ∧ d.redq = []
    ∧ run (.sysopXtinv 1 2 4) s (fun t => t.reg 1 == 0 && t.me.pc == 0x1008) ∧ run (.sysopXtinv 1 2 3) s (fun t => (t.tenant 0).xgen == 1 && (t.cl 0).tc == [⟨0, 0, 4, 0, 0, 0⟩, ⟨1, 1, 0, 0, 0, 0⟩] && t.me.sysWait == some 1)
    ∧ run (.sysopXtinv 1 2 3) w (fun t => t.reg 1 == 1 && t.me.sysWait == none && t.me.pc == 0x1008) ∧ run (.sysopXtinv 1 2 3) b (fun t => t.me.pc == 0x1000)
    ∧ run (.sysopTcinv 2 3) s (fun t => (t.cl 0).tc == [⟨0, 0, 4, 0, 0, 0⟩, ⟨1, 1, 0, 0, 0, 0⟩] && t.me.pc == 0x1008) ∧ run .sysopIcsync s (fun t => (t.cl 0).icache == [] && t.me.pc == 0x1008)
    ∧ run (.pageWalk 5) q (fun t => t.walks == [] && t.cls == []) ∧ run (.pageWalk 5) m (fun t => t.walks == [(5, { wk with missing := true })])
    ∧ hostUp m = true ∧ run (.vfXtlen 0 0x1000) m (fun t => (t.tenant 0).xgen == 1) ∧ run (.vfXtlen 0 0x1000) x (fun t => t.tenants == x.tenants)
    ∧ run (.l1Sweep 0 2) d (fun t => memGet t.mem 129 == 6 && memGet t.mem 128 == 0) := by decide
theorem witness_ShootDowns_walk : walkVA sL wk.tenant (wk.win * 2 ^ 21) = some (0, 0, 0) := walk_good sL good_tree 0 (by decide)
theorem witness_ShootDowns_inv : ({ stG [] with cls := [(0, { Cluster.reset with l1 := [(2, { valid := 3, dirty := 2, t := 0, data := [(0, 5), (1, 6)], ef := false, by_ := [] })] })] } : State).Inv := by
  refine ⟨rfl, ?_⟩
  decide

/-- A residence word at the task's page 0: its bytes from the lowest. -/
def stMg (us : Nat) (w : List Byte) (sw : Option Nat) : State :=
  { st { (cxD [(2, dev), (3, dev)]) with sysWait := sw, trap := { (cx []).trap with pl := true } } with
    tasks := [(0, dTask)], us := us, mem := cells 0 w }
set_option maxRecDepth 8000 in
theorem witness_Migration :
    let host := stMg 5000 [1, 2, 7, 0, 1] none
    let here := stMg 5000 [0] none
    let busy := stMg 5000 [2] none
    let held := stMg 500 [0x09] none
    let aft := stMg 5000 [0] (some 0)
    host.me.trap.pl = true ∧ (host.reg 2).toNat % 8 = 0 ∧ (match genAccess host .at_ polEng (host.reg 2) 8 with | .ok ks => ks == rangeFrom 0 8 | _ => false) = true ∧ isPeer 0 = false
    ∧ (host.cl 0).l1 = [] ∧ host.redq = [] ∧ host.us < 2 ^ 40 ∧ host.me.sysWait = none ∧ aft.me.sysWait ≠ none ∧ memNat host.mem 0 8 % 8 = 1 ∧ memNat here.mem 0 8 % 8 = 0 ∧ memNat busy.mem 0 8 % 8 = 2
    ∧ memNat held.mem 0 8 / 8 % 2 = 1 ∧ held.us < memNat held.mem 0 8 / 2 ^ 24 + 1000 ∧ memNat aft.mem 0 8 / 2 ^ 8 % 256 ≤ 2 ∧ memNat host.mem 0 8 / 2 ^ 24 = 256 ∧ leafOf host 0 0 = none
    ∧ run (.migopClaim 1 2 3) host (fun t => t.reg 1 == 0 && memBytes t.mem 0 5 == [2, 2, 7, 0, 1]) ∧ run (.migopClaim 1 2 3) here (fun t => t.reg 1 == 2) ∧ run (.migopClaim 1 2 3) held (fun t => t.reg 1 == 3)
    ∧ run (.migopClaim 1 2 3) busy (fun t => t.me.sysWait == some 0 && t.me.pc == 0x1000) ∧ run (.migopClaim 1 2 3) aft (fun t => t.reg 1 == 1 && t.me.sysWait == none)
    ∧ run (.migopComplete 1 2 3) busy (fun t => memBytes t.mem 0 6 == [0, 1, 0, 0x88, 0x13, 0] && t.me.pc == 0x1008)
    ∧ run (.holdOffExpiry 0 0) { host with cls := [(0, { Cluster.reset with tc := [⟨0, 0, 0, 0, 1, 0⟩, ⟨0, 0, 0, 0, 0, 0⟩] })] } (fun t => (t.cl 0).tc == [⟨0, 0, 0, 0, 0, 0⟩]) := by decide

/-- R297: a page whose leaf stands at 0x12000 is held off until a millisecond after its last move. -/
theorem witness_Migration_held :
    let s : State := { stG [] with us := 500, tenants := [(0, { Tenant.reset with ptroot := 0x10000 })], cls := [(0, { Cluster.reset with tc := [⟨0, 0, 0, 0, 1, 0⟩] })],
                                   mem := [(0x10000, 0x01), (0x10001, 0x10), (0x10002, 0x01), (0x11000, 0x01), (0x11001, 0x20), (0x11002, 0x01), (0x12000, 0x03), (0x13000, 8)] }
    leafOf s 0 0 = some 0x12000 ∧ s.redq = [] ∧ memNat s.mem (0x12000 + 4096) 8 / 8 % 2 = 1 ∧ s.us < memNat s.mem (0x12000 + 4096) 8 / 2 ^ 24 + 1000
    ∧ run (.holdOffExpiry 0 0) s (fun t => t.cls == s.cls) ∧ run (.holdOffExpiry 0 0) { s with us := 1000 } (fun t => (t.cl 0).tc == []) := by decide

/-! Lane words. -/

/-- Eight lanes, of which 0 and 1 are on and lane 1 has predicate p1; the word under issue is at the head of the stream. v1 holds 5 and −3,
v2 holds 7 and 0x7FFFFFFF. -/
def tl : Team := { t0 with w := 8, act := 3, preds := [(1, 2)] }
def cl8 : Ctx := { cxD [] with team := tl, strm := { Strm.none with ents := [.lane 0x1000 uAdd] } }
def lanes (c : Ctx) (vs : List (Nat × Nat × W32)) : State :=
  vs.foldl (fun s v => s.setLane c v.1 v.2.1 v.2.2) { st c with tasks := [(0, dTask)] }
def twoV : List (Nat × Nat × W32) := [(1, 0, 5), (1, 1, 0xFFFFFFFD), (2, 0, 7), (2, 1, 0x7FFFFFFF)]
def lInt : State := lanes cl8 twoV
def gA : Guard := ⟨false, 0, false⟩
def gU : Guard := ⟨true, 0, false⟩
def gP : Guard := ⟨false, 1, false⟩
def v (n : BitVec 9) : Src := ⟨n, false⟩
def vl (n : BitVec 9) : LSrc := .reg (v n)
def imm9 (n : BitVec 9) : LSrc := .imm (.i9 n)
/-- The word may issue, leaves the stream, and lanes 0 and 1 of a register hold these values after it. -/
def lane2 (s : State) (i : Instr) (d : Nat) (x y : W32) : Bool :=
  issueCheck s s.me i == .go && run i s fun t => t.lane t.me d 0 == x && t.lane t.me d 1 == y && t.me.strm.ents.isEmpty && !t.me.strm.stopped
def io (ty : ITy) (sat : Bool) : IOp := ⟨gA, ty, sat, 4, v 1, vl 2⟩
def bo : BOp := ⟨gA, 4, v 1, vl 2⟩
def uo : UOp := ⟨gA, 4, v 1⟩

set_option maxRecDepth 8000 in
theorem witness_LaneIntegerWords :
    lane2 lInt (.viadd (io .s32 false)) 4 12 0x7FFFFFFC ∧ lane2 lInt (.visub (io .n32 true)) 4 0 0x7FFFFFFE ∧ lane2 lInt (.vimul (io .s32 false)) 4 35 0x80000003
    ∧ lane2 lInt (.vimulh (io .s32 false)) 4 0 0xFFFFFFFE ∧ lane2 lInt (.vimin (io .s32 false)) 4 5 0xFFFFFFFD ∧ lane2 lInt (.vimax (io .n32 false)) 4 7 0xFFFFFFFD
    ∧ lane2 lInt (.vimad ⟨gA, .s32, true, 4, v 1, v 2, imm9 9⟩) 4 44 0x80000000 ∧ lane2 lInt (.viabs false uo) 4 5 3 ∧ lane2 lInt (.vand bo) 4 5 0x7FFFFFFD
    ∧ lane2 lInt (.vor bo) 4 7 0xFFFFFFFF ∧ lane2 lInt (.vxor bo) 4 2 0x80000002 ∧ lane2 lInt (.vshl bo) 4 0x280 0x80000000 ∧ lane2 lInt (.vshr bo) 4 0 1
    ∧ lane2 lInt (.vsar bo) 4 0 0xFFFFFFFF ∧ lane2 lInt (.vnot uo) 4 0xFFFFFFFA 2 ∧ lane2 lInt (.vclz uo) 4 29 0 ∧ lane2 lInt (.vpopc uo) 4 2 31 := by decide
set_option maxRecDepth 8000 in
theorem test_lane_guards :
    lane2 lInt (.viadd ⟨gP, .s32, false, 4, v 1, imm9 0x1FF⟩) 4 0 0xFFFFFFFC
    ∧ run (.viadd ⟨gU, .s32, false, 4, v 1, vl 2⟩) lInt (fun t => t.lane t.me 4 0 == 12 && t.lane t.me 4 7 == 12)
    ∧ run (.viadd ⟨gA, .s32, false, 321, v 1, vl 2⟩) lInt (fun t => t.me.strm.stopped && (t.me.trap.laneF.map (·.code)) == some fREGBOUND) := by decide

/-- The word may issue and leaves the stream with a team of which p holds. -/
def teamOk (s : State) (i : Instr) (p : Team → Bool) : Bool := issueCheck s s.me i == .go && run i s fun t => p t.me.team && t.me.strm.ents.isEmpty && !t.me.strm.stopped

set_option maxRecDepth 8000 in
theorem witness_MovesPredicatesAndPaths :
    let e : PathE := ⟨3, 0x10, 2⟩
    let q := lanes { cl8 with team := { tl with act := 2, stack := [e] } } twoV
    lane2 lInt (.vmov gA 4 (imm9 0x1FF)) 4 0xFFFFFFFF 0xFFFFFFFF ∧ lane2 lInt (.vsel gA 1 4 (v 1) (vl 2)) 4 7 0xFFFFFFFD ∧ lane2 lInt (.vlid gA 0 4) 4 0 1
    ∧ lane2 lInt (.vlid gA 1 4) 4 0 1 ∧ lane2 lInt (.vlid gA 2 4) 4 0 0
    ∧ teamOk lInt (.viset gA .s32 .lt 2 (v 1) (vl 2)) (fun t => t.pred 2 0 && t.pred 2 1) ∧ teamOk lInt (.viset gA .n32 .lt 2 (v 1) (vl 2)) (fun t => t.pred 2 0 && !t.pred 2 1)
    ∧ teamOk lInt (.vplog gA .and 2 (v 1) 0) (fun t => !t.pred 2 0 && t.pred 2 1) ∧ teamOk lInt (.vplog gA .andn 2 (v 0) 1) (fun t => t.pred 2 0 && !t.pred 2 1)
    ∧ teamOk lInt (.vplog gA .fromv 3 (v 1) 0) (fun t => t.pred 3 0 && t.pred 3 1 && !t.pred 3 2) ∧ lane2 lInt (.vplog gA .tov 4 (v 1) 0) 4 0 1
    ∧ teamOk lInt (.vxi true (imm9 5)) (fun t => t.xi == 5) ∧ teamOk lInt (.vppush 1 false) (fun t => t.act == 2 && (t.stack.map (·.act)) == [3])
    ∧ q.me.team.stack = [e] ∧ teamOk q .vppop (fun t => t.act == 3 && t.fmt == 0x10 && t.stack.isEmpty) ∧ teamOk q .vppopElse (fun t => t.act == 1 && t.fmt == 0x10 && t.stack == [e])
    ∧ teamOk lInt (.vfmt 0 (.imm (.x32 0x30))) (fun t => t.fmt == 0x30) ∧ fmtBad (0x60 &&& 0x8000FFF0#32) = true ∧ issueCheck lInt lInt.me (.vfmt 0 (.imm (.x32 0x60))) = .go
    ∧ run (.vfmt 0 (.imm (.x32 0x60))) lInt (fun t => t.me.strm.stopped && (t.me.trap.laneF.map (·.code)) == some 1 && t.me.team == tl) := by decide

/-- v1: 1.5 and −2; v2: 2.5 and 0.5; v3: 4 and 0.25; v5: 4 and −2. -/
def lFlt : State := lanes cl8 [(1, 0, 0x3FC00000), (1, 1, 0xC0000000), (2, 0, 0x40200000), (2, 1, 0x3F000000), (3, 0, 0x40800000), (3, 1, 0x3E800000),
  (5, 0, 0x40800000), (5, 1, 0xC0000000)]
def fo : FOp := ⟨gA, .f32, 0, 4, v 1, vl 2⟩
def u3 : UOp := ⟨gA, 4, v 3⟩

set_option maxRecDepth 8000 in
theorem witness_LaneArithmetic_float :
    lane2 lFlt (.vfadd fo) 4 0x40800000 0xBFC00000 ∧ lane2 lFlt (.vfsub fo) 4 0xBF800000 0xC0200000 ∧ lane2 lFlt (.vfmul fo) 4 0x40700000 0xBF800000
    ∧ lane2 lFlt (.vfmin fo) 4 0x3FC00000 0xC0000000 ∧ lane2 lFlt (.vfmax fo) 4 0x40200000 0x3F000000
    ∧ lane2 lFlt (.vffma ⟨gA, .f32, 0, 4, v 1, v 2, vl 3⟩) 4 0x40F80000 0xBF400000 ∧ lane2 lFlt (.vfsgn gA .f32 1 4 (v 1) (v 2)) 4 0xBFC00000 0xC0000000
    ∧ teamOk lFlt (.vfset gA 2 2 (v 1) (vl 2)) (fun t => t.pred 2 0 && t.pred 2 1) ∧ teamOk lFlt (.vfset gA 4 2 (v 3) (vl 2)) (fun t => t.pred 2 0 && !t.pred 2 1)
    ∧ lane2 lFlt (.vrcp .f32 0 u3) 4 0x3E800000 0x40800000 ∧ lane2 lFlt (.vrsq .f32 0 u3) 4 0x3F000000 0x40000000 ∧ lane2 lFlt (.vexp2 .f32 ⟨gA, 4, v 5⟩) 4 0x41800000 0x3E800000
    ∧ lane2 lFlt (.vlog2 .f32 u3) 4 0x40000000 0xC0000000 ∧ lane2 lFlt (.vfclass .f32 uo) 4 0x40 2
    ∧ rmOf lFlt.me.team.fmt 0 ≠ .sr ∧ lane2 lFlt (.vcvt 3 0 0 uo) 4 2 0xFFFFFFFE := by decide
set_option maxRecDepth 8000 in
/-- R126 to R128: v1 to v4 as E4M3, plain and with block scales of 2⁻⁶, back again, and with the tensor scale 4 in v16. -/
theorem witness_LaneArithmetic_pack :
    let b (n : W32) (vs : List (Nat × Nat × W32)) : State := lanes { cl8 with team := { tl with fmt := n } } ([(1, 0, 0x3FC00000), (1, 1, 0xC0000000), (2, 0, 0x40200000),
      (2, 1, 0x3F000000), (3, 0, 0x40800000), (3, 1, 0x3E800000)] ++ vs)
    let p : QOp := ⟨gA, 1, 0, 9, v 1, some (v 10), none⟩
    let q : QOp := ⟨gA, 1, 0, 12, v 9, some (v 10), none⟩
    let packed : List (Nat × Nat × W32) := [(9, 0, 0x0078726C), (9, 1, 0x005860F0), (10, 0, 121), (10, 1, 121)]
    qFmt 0 1 = some .e4m3 ∧ qScaled 0 .e4m3 = false ∧ qScaled 0x400 .e4m3 = true ∧ tl.w < 32
    ∧ lane2 (b 0 []) (.vqpack p) 9 0x0048423C 0x002830C0 ∧ lane2 (b 0 []) (.vqpack p) 10 127 127
    ∧ lane2 (b 0x400 []) (.vqpack p) 9 0x0078726C 0x005860F0 ∧ lane2 (b 0x400 []) (.vqpack p) 10 121 121
    ∧ lane2 (b 0x400 packed) (.vqunpk q) 12 0x3FC00000 0xC0000000 ∧ lane2 (b 0x400 packed) (.vqunpk q) 14 0x40800000 0x3E800000
    ∧ lane2 (b 0x800 ((16, 0, 0x40800000) :: packed)) (.vqunpk { q with t := some (v 16) }) 12 0x40C00000 0xC1000000
    ∧ lane2 (b 0x800 [(16, 0, 0x40800000)]) (.vqpack { p with t := some (v 16) }) 10 119 119
    ∧ lane2 (b 0x800 []) (.vqpack { p with t := some (v 16) }) 10 0xFF 0xFF := by decide
set_option maxRecDepth 8000 in
theorem witness_LaneArithmetic_cross :
    let s8 : QOp := ⟨gA, 6, 7, 10, v 1, none, none⟩
    teamOk lInt (.vcvtSeed gA (vl 1)) (fun t => t.lfsrAt 0 == 5 && t.lfsrAt 1 == 0xFFFFFFFD && t.lfsrAt 2 == 3) ∧ teamOk lInt (.vcvtSeed gA (imm9 0)) (fun t => t.lfsrAt 1 == 1)
    ∧ qFmt lInt.me.team.fmt 6 = some .s8 ∧ qElems .s8 = 4 ∧ qWords .s8 = 1 ∧ lane2 lInt (.vqpack s8) 10 0x705 0xFFFD ∧ lane2 lInt (.vqunpk s8) 10 5 0xFFFFFFFD ∧ lane2 lInt (.vqunpk s8) 11 0 0xFFFFFFFF
    ∧ lane2 lInt (.vshfl gA .xor 1 4 (v 1) (imm9 1)) 4 0xFFFFFFFD 5 ∧ lane2 lInt (.vshfl gA .up 1 4 (v 1) (imm9 1)) 4 5 5
    ∧ lane2 lInt (.vtred gA .addS 1 4 (v 1)) 4 2 2 ∧ lane2 lInt (.vtred gA .minS 0 4 (v 1)) 4 5 0xFFFFFFFD ∧ lane2 lInt (.vtscan gA .addS 1 true 4 (v 1)) 4 0 5 ∧ lane2 lInt (.vtscan gA .addS 1 false 4 (v 1)) 4 5 2
    ∧ issueCheck lInt lInt.me (.vvote gA .popc .qv 4 1) = .go ∧ run (.vvote gA .popc .qv 4 1) lInt (fun t => t.me.strm.voteFly == [(some 1, some lInt.nextId)] && (smFind t.me.fills lInt.nextId).isSome)
    ∧ run (.vvote gA .all .q 4 1) lInt (fun t => t.me.strm.voteFly == [(some 0, none)]) ∧ run (.vvote gA .any .q 4 1) lInt (fun t => t.me.strm.voteFly == [(some 1, none)]) := by decide

/-- The cells 0x11 0x80 … at bytes 0 and 4 of the vault, which lanes 0 and 1 address; v6 holds 0 and 2. -/
def lMem : State := { lanes cl8 (twoV ++ [(6, 0, 0), (6, 1, 2)]) with mem := cells (vaultKey 0 0) [0x11, 0x80, 0, 0, 0x22, 0x90, 1, 2] }
def la (sc : BitVec 2) (ix : Option Src) : LAddr := ⟨sc, ix, .i9 0, vault, .rlx, .cluster⟩
def ldv (ty : LTy) : VLd := ⟨gA, ty, .normal, false, 4, la 2 none⟩
def stv (ty : LTy) (n : BitVec 9) : VSt := ⟨gA, ty, .normal, false, v n, la 2 none⟩
def accOf (s : State) (k : AKind) (m : LAddr) (wide uni : Bool) (n : Nat) (xs : List (Nat × List Nat)) : Bool :=
  gatherRes ((s.me.team.lanes gA).map fun l => (l, laneAccess s s.me k false n (laneLock s s.me.cl k.isStore) (lanePtr m (laneOff s s.me m wide uni l)))) == .ok xs
def vk (o n : Nat) : List Nat := rangeFrom (vaultKey 0 0 + o) n
/-- The load issues, its rows are empty until it completes, and lanes 0 and 1 hold these values then. -/
def brings (i : Instr) (d : Nat) (x y : W32) : Bool :=
  issueCheck lMem lMem.me i == .go && run i lMem fun t =>
    t.isEmpty ((t.me.feKeys d 0).headD 0) && t.rows == lMem.rows && t.me.strm.ents.isEmpty && run (.accessCompletion 0 lMem.nextId) t fun u =>
      u.lane u.me d 0 == x && u.lane u.me d 1 == y && !u.isEmpty ((u.me.feKeys d 0).headD 0)
def leaves (i : Instr) (p : SMap Byte → Bool) : Bool := issueCheck lMem lMem.me i == .go && run i lMem fun t => p t.mem && t.me.strm.ents.isEmpty

theorem witness_LaneAccesses_inv : lMem.Inv := ⟨by decide, fun _ h => nomatch h⟩
set_option maxRecDepth 8000 in
theorem witness_LaneAccesses :
    accOf lMem .ld (la 2 none) false false 2 [(0, vk 0 2), (1, vk 4 2)] ∧ accOf lMem .ld (la 3 (some (v 6))) true false 2 [(0, vk 0 2), (1, vk 16 2)]
    ∧ accOf lMem .ld (la 2 none) false true 2 [(0, vk 0 2), (1, vk 0 2)] ∧ accOf lMem .ld (la 3 (some (v 6))) false false 16 [(0, vk 0 16), (1, vk 16 16)]
    ∧ accOf lMem .st (la 2 none) false false 2 [(0, vk 0 2), (1, vk 4 2)] ∧ lMem.me.team.lanes gA = [0, 1] ∧ lMem.ecc = [] ∧ lMem.redq = []
    ∧ (∀ k ∈ vk 0 32, isVault k = true) ∧ (vk 0 2 ++ vk 4 2).Nodup := by decide
set_option maxRecDepth 8000 in
theorem witness_LaneAccesses_loads :
    brings (.vld (ldv .n16)) 4 0x8011 0x9022 ∧ brings (.vld (ldv .s16)) 4 0xFFFF8011 0xFFFF9022 ∧ brings (.vld (ldv .s8)) 4 0x11 0x22
    ∧ brings (.vldg { ldv .n32 with m := la 1 (some (v 6)) }) 4 0x8011 0x02019022 ∧ brings (.vldu (ldv .n32)) 4 0x8011 0x8011
    ∧ brings (.vldq { ldv .n32 with m := la 3 (some (v 6)) }) 5 0x02019022 0 ∧ brings (.vld { ldv .d64 with m := la 3 none }) 5 0x02019022 0
    ∧ run (.vld { ldv .n32 with g := ⟨false, 1, true⟩ }) { lMem with ctxs := [(0, { cl8 with team := { tl with preds := [(1, 3)] } })] } (fun t => t.me.fills == [] && t.me.strm.ents.isEmpty) := by decide
set_option maxRecDepth 8000 in
theorem witness_LaneAccesses_stores :
    leaves (.vst (stv .n16 1)) (fun m => memNat m (vaultKey 0 0) 8 == 0x0201FFFD00000005) ∧ leaves (.vstg { stv .n8 1 with m := la 1 (some (v 6)) }) (fun m => memNat m (vaultKey 0 0) 8 == 0x020190FD00008005)
    ∧ leaves (.vstq { stv .n32 1 with m := la 3 (some (v 6)) }) (fun m => memNat m (vaultKey 0 0) 16 == 0x700000005 && memNat m (vaultKey 0 16) 16 == 0x7FFFFFFFFFFFFFFD)
    ∧ leaves (.vpref gA false (la 2 none)) (fun m => m == lMem.mem)
    ∧ run (.vst { stv .n32 1 with m := la 0 none }) lMem (fun t => t.me.strm.stopped && (t.me.trap.laneF.map fun f => (f.code, f.lane)) == some (fALIGN, 1) && t.mem == lMem.mem) := by decide

def lAt : State := { lMem with mem := cells (vaultKey 0 0) [5, 0, 0, 0, 0x22, 0x90, 1, 2] }
def atv (ty : ATy) (op : AOp) : VAt := ⟨gA, ty, op, 4, v 1, la 2 none⟩
def atIs (k : AKind) (ty : ATy) (xs : List (Nat × List Nat)) : Bool :=
  gatherRes ((lAt.me.team.lanes gA).map fun l => (l, (laneAtAcc lAt (la 2 none) k ty).check lAt lAt.me l)) == .ok xs
/-- The same with one executing lane l: the order of the lanes is free. The atomic issues, memory holds this word at once, and the old value
comes with the completion. -/
def oneLane (l : Nat) : State := { lAt with ctxs := [(0, { cl8 with team := { tl with act := 2 ^ l } })] }
def swaps (i : Instr) (l m : Nat) (x : W32) : Bool :=
  issueCheck lAt lAt.me i == .go && run i (oneLane l) fun t => t.rows == lAt.rows && memNat t.mem (vaultKey 0 (4 * l)) 4 == m
    && run (.accessCompletion 0 lAt.nextId) t fun u => u.lane u.me 4 l == x

set_option maxRecDepth 8000 in
theorem witness_LaneAtomics :
    atIs .at_ .n32 [(0, vk 0 4), (1, vk 4 4)] ∧ atIs (.red AOp.add.code ATy.n32.code.toNat) .n32 [(0, vk 0 4), (1, vk 4 4)]
    ∧ (∀ x ∈ [vk 0 4, vk 4 4], isVault (x.headD 0) = true ∧ isVault (x.headD 0 + 3) = true) ∧ lAt.me.team.lanes gA ≠ [] ∧ 0 < lAt.me.team.w
    ∧ swaps (.vatom (atv .n32 .add)) 0 10 5 ∧ swaps (.vatom (atv .s32 .add)) 1 0x0201901F 0x02019022 ∧ swaps (.vcas (atv .n32 .add)) 0 7 5 ∧ swaps (.vcas (atv .n32 .add)) 1 0x02019022 0x02019022
    ∧ issueCheck lAt lAt.me (.vred (atv .n32 .max)) = .go ∧ run (.vred (atv .s32 .min)) (oneLane 1) (fun t => memNat t.mem (vaultKey 0 0) 8 == 0xFFFFFFFD00000005 && t.me.fills == []) := by decide
theorem witness_LaneAtomics_inv : lAt.Inv := ⟨by decide, fun _ h => nomatch h⟩
theorem witness_LaneAtomics_fence :
    let l : L1Line := ⟨3, 1, 0, [(0, 7), (1, 9)], false, []⟩
    let s : State := { lInt with cls := [(0, { Cluster.reset with l1 := [(0, l)] })] }
    run (.vfence ⟨.acq, .task⟩) s (fun t => (smFind (t.cl 0).l1 0).any fun x => x.valid == x.dirty && x.valid == 1) = true
    ∧ run (.vfence ⟨.sc, .task⟩) s (fun t => memGet t.mem 0 == 7 && (t.cl 0).l1.all fun e => e.2.valid == e.2.dirty) = true
    ∧ s.Inv ∧ NoneWaits s ∧ smFind (s.cl 0).l1 0 = some l ∧ l.t < scopeRank .task ∧ bitOf l.dirty 0 = true ∧ issueCheck s s.me (.vfence ⟨.rel, .task⟩) = .go
    ∧ run (.vfence ⟨.rel, .task⟩) s (fun t => memGet t.mem 0 == 7 && t.me.strm.ents.isEmpty) = true :=
  ⟨by decide, by decide, ⟨rfl, by simp; decide⟩, rfl, rfl, by decide, by decide, by decide, by decide⟩
set_option maxRecDepth 8000 in
theorem witness_LaneAtomics_barrier :
    let s : State := { lInt with mem := [(0, 4), (4, 1), (8, 4)] }
    let one := Instr.vbararr gA false 0 dev .rlx .cluster
    let all := Instr.vbararr gA true 0 dev .rlx .cluster
    issueCheck s s.me one = .go ∧ issueCheck s s.me all = .go ∧ (s.me.team.lanes gA).head? = some 0 ∧ s.mem.map (·.1) = [0, 4, 8] ∧ (s.cl 0).l1 = [] ∧ memNat s.mem 0 4 ≠ 0 ∧ isDevice 0 = true
    ∧ (match laneAccess s s.me .at_ false 64 (fun p ks => atomLate s 0 true false p (fun k => barOk k && barTarget s k ≠ 0) ks) (lanePtr ⟨0, none, .i9 0, dev, .rlx, .cluster⟩ (offOf dev + 0)) with
      | .ok ks => ks == dkeys 0 64 | _ => false) = true
    ∧ run one s (fun t => memNat t.mem 4 4 == 2 && memNat t.mem 8 2 == 4 && t.me.strm.ents.isEmpty) ∧ run all s (fun t => memNat t.mem 4 4 == 3) := by decide

/-! Launch areas and turns. -/

def put (m : List Host.Cell) (c : Host.Cell) : List Host.Cell := m.takeWhile (fun x => x.1 < c.1) ++ c :: m.dropWhile fun x => x.1 < c.1
/-- The tree's area holds one record of 64 bytes, of which these are not zero, and the dispatcher consumes it. -/
def stA (tl : Byte) (xs : List Host.Cell) : State :=
  { stL (xs.foldl put (put treeMem (0x23000, tl))) with tenants := [(0, { ten1 with consuming := true })], launches := [] }
/-- A record that names the node at 0x20100. -/
def recN (op : Byte) : List Host.Cell := [(0x23040, op), (0x23051, 1), (0x23052, 2), (0x23057, 1)]
theorem area_of (s : State) (h : Good s) (tl : Nat) (he : (s.tenant 0).enable = true ∧ (s.tenant 0).root = root)
    (hr : ([(0, 1), (4, 1), (5, 1), (8, 8), (0x10, 8), (0x18, 8), (0x30, 8), (0x38, 8)] : List (Nat × Nat)).map (fun x => memNat s.mem (0x20000 + x.1) x.2) = [1, 0, 0, 0, 0x0100000000020100, 0, 0x0100000000023000, 0])
    (ha : memNat s.mem 0x23000 8 = tl ∧ memNat s.mem 0x23008 8 = 0 ∧ memNat s.mem 0x23010 1 = 0 ∧ memNat s.mem 0x23011 1 = 0) :
    areaOpen s 0 = true ∧ areaHead s 0 = 0 ∧ areaTail s 0 = tl ∧ tailBad s 0 = decide (1 < tl) ∧ (s.ecc = [] → recordAt s 0 0 = some (memBytes s.mem 0x23040 64))
      ∧ (s.ecc = [0x23040] → recordAt s 0 0 = none) := by
  simp only [List.map_cons, List.map_nil, List.cons.injEq, and_true] at hr
  obtain ⟨r0, r4, r5, r8, r10, r18, r30, r38⟩ := hr
  have f (off n v : Nat) (hm : memNat s.mem (0x20000 + off) n = v) (hn : off + n ≤ 256 ∧ 0 < n) : rcb s 0 root off n = v :=
    (rcb_good s h root 0x20000 off n rfl (by omega) hn.2).trans hm
  have ptr (w : Bool) (p : W64) (a n : Nat) (hp : p.toNat = 2 ^ 56 + a) (ha : a + n ≤ 2 ^ 22) (hn : 0 < n) : ptrOk s 0 w p n = true := by
    have ht : (ptrAdd p (n - 1 : Nat)).toNat = 2 ^ 56 + (a + (n - 1)) := ptrAdd_good p a _ hp (by omega)
    simp [ptrOk, tByte_good s h w p a hp (by omega), tByte_good s h w _ _ ht (by omega)]
  have hap : areaPtr s 0 = 0x0100000000023000 := by
    simp only [areaPtr, rcbPtr, he.2, f 0x30 8 _ r30 (by decide)]
    rfl
  have hat (off n v : Nat) (hm : memNat s.mem (0x23000 + off) n = v) (hn : off + n ≤ 4096) : area s 0 off n = v := by
    rw [area, hap, tNat, tLook_good s h n _ _ (ptrAdd_good 0x0100000000023000 0x23000 off rfl (by omega)) (by omega), Option.getD_some]
    exact hm
  have or : rcbOk s 0 root = true := by simp [rcbOk, ptr _ root 0x20000 256 rfl (by decide) (by decide)]; decide
  have nb : nodeBad s 0 root [] = false := by
    simp only [nodeBad, or, rcbKind, rcbPtr, f 0 1 _ r0 (by decide), f 5 1 _ r5 (by decide), f 8 8 _ r8 (by decide), f 0x10 8 _ r10 (by decide), f 0x18 8 _ r18 (by decide),
      f 0x30 8 _ r30 (by decide), f 0x38 8 _ r38 (by decide), ptrOk0, List.length, List.isEmpty, List.any_cons, List.any_nil, ptr _ (BitVec.ofNat 64 0x0100000000020100) 0x20100 256 rfl (by decide) (by decide),
      ptr _ (BitVec.ofNat 64 0x0100000000023000) 0x23000 64 rfl (by decide) (by decide)]
    simp
  have hh : areaHead s 0 = 0 := hat 8 8 0 ha.2.1 (by decide)
  have ht : areaTail s 0 = tl := hat 0 8 tl ha.1 (by decide)
  have hs : areaSlots s 0 = 1 := by simp [areaSlots, hat 0x10 1 0 ha.2.2.1 (by decide)]
  have hp : recordPtr s 0 0 = 0x0100000000023040 := by rw [recordPtr, hap, hs]; decide
  refine ⟨?_, hh, ht, ?_, fun he => ?_, fun he => ?_⟩
  · simp only [areaOpen, he.1, he.2, nb, hat 0x11 1 0 ha.2.2.2 (by decide)]; rfl
  · simp [tailBad, hh, ht, hs]
  · rw [recordAt, hp]; exact tRead_good s h he 64 _ 0x23040 rfl (by decide)
  · rw [recordAt, hp, tRead, tLook_good s h 64 _ 0x23040 rfl (by decide), tKeys_good s h false 64 _ 0x23040 rfl (by decide), he]
    rw [Option.filter_some, if_neg (by decide)]
/-- The areas of the witness: TAIL, the record's bytes that are not zero, and the bytes in error. -/
def areas : List (Byte × List Host.Cell × List Nat) :=
  [(1, [(0x23041, 1)], []), (1, recN 0, []), (1, recN 1, []), (1, recN 2, []), (1, recN 3, []), (1, recN 4, []), (3, recN 0, []), (1, recN 0, [0x23040])]
theorem stA_area (x : Byte × List Host.Cell × List Nat) (hx : x ∈ areas) :
    let s := { stA x.1 x.2.1 with ecc := x.2.2 }
    areaOpen s 0 = true ∧ areaHead s 0 = 0 ∧ areaTail s 0 = x.1.toNat ∧ tailBad s 0 = decide (1 < x.1.toNat) ∧ (x.2.2 = [] → recordAt s 0 0 = some (memBytes s.mem 0x23040 64))
      ∧ (x.2.2 = [0x23040] → recordAt s 0 0 = none) := by
  simp only [areas, List.mem_cons, List.not_mem_nil, or_false] at hx
  rcases hx with rfl | rfl | rfl | rfl | rfl | rfl | rfl | rfl <;>
    exact area_of { stA _ _ with ecc := _ } ⟨⟨rfl, rfl⟩, rfl, by decide, by decide, by decide, by decide, by decide⟩ _ ⟨rfl, rfl⟩ (by decide) (by decide)
set_option maxRecDepth 8000 in
/-- R325, R326: an area that is closed; one that is not read, whose TAIL is out of range, whose slot cannot be read, whose record is bad, and whose record is each operation. -/
theorem witness_LaunchRecords :
    areaOpen State.reset 0 = false ∧ ((State.reset).tenant 0).consuming = false ∧ ((stA 3 []).tenant 0).consuming = true ∧ ((stA 1 (recN 0)).tenant 0).consuming = true
    ∧ (∀ op ∈ ([0, 1, 2, 3, 4] : List Byte), let r := memBytes (stA 1 (recN op)).mem 0x23040 64
      recordBad 0 r = false ∧ bNum r 0 1 = op.toNat ∧ bW64 r 0x10 = node ∧ ((stA 1 (recN op)).tenant 0).consuming = true)
    ∧ recordBad 0 (memBytes (stA 1 [(0x23041, 1)]).mem 0x23040 64) = true ∧ ((stA 1 [(0x23041, 1)]).tenant 0).consuming = true := by decide
theorem linRunnable_of {s : State} {tn key lin : Nat} {p : W64} {r : TRec} {regs : List Region} (h1 : checkTask s tn p lin = .ok (r, regs))
    (h2 : readyRec s tn p r (coordsOf s tn p lin) = true) (h3 : heldBy s tn key lin r (coordsOf s tn p lin) regs = false) : linRunnable s tn key p lin = true := by
  simp [linRunnable, h1, h2, h3]
theorem launchUnder_of {s : State} {n : Nat} {l : Launch} {path : List W64} (ht : l.tenant = nodeTn n) (hs : l.submitted = true) (hp : pathOf s l.tenant l.node = path)
    (hc : path.contains (nodePtr n) = true) : launchUnder s n l = true := by
  rw [launchUnder, decide_eq_true ht, hs, hp, hc]; rfl
theorem runnable_of {s : State} {n key lin : Nat} {l : Launch} (hl : (key, l) ∈ s.launches) (hu : launchUnder s n l = true) (hm : lin ∈ dormantLins s key)
    (hr : linRunnable s l.tenant key l.node lin = true) : runnable s n = true := by
  rw [runnable, Bool.or_eq_true]
  exact .inl (List.any_eq_true.mpr ⟨_, hl, by rw [Bool.and_eq_true]; exact ⟨hu, List.any_eq_true.mpr ⟨lin, hm, hr⟩⟩⟩)
/-- Only tenant 0's tree and its one launch, of which nothing is resident, before any turn has ended. -/
structure Lone (s : State) : Prop extends Tree s where
  tens : s.tenants = [(0, ten1)]
  lone : s.launches = [(0x20100, lau)]
  idle : s.tasks = []
  log : s.turnLog = []
/-- sL with other turns. -/
def stT' (d : List (Nat × Int)) (w l : List (Nat × Nat)) : State := { sL with defs := d, turns := w, servedLast := l }
theorem lone_turns (d : List (Nat × Int)) (w l : List (Nat × Nat)) : Lone (stT' d w l) := ⟨⟨⟨rfl, rfl⟩, rfl, rfl, rfl, tree_sL.rsv⟩, rfl, rfl, rfl, rfl⟩
theorem held_node {s : State} (h : Lone s) (l : Nat) (c : Nat × Nat × Nat) : heldBy s 0 0x20100 l rec1 c [reg1] = false := by
  simp [heldBy, h.idle, show ([reg1] : List Region).length = 1 from rfl]
theorem run_node {s : State} (h : Lone s) : linRunnable s 0 0x20100 node 1 = true :=
  linRunnable_of (check_node h.toTree 1) (ready_node h.toTree _) (held_node h _ _)
theorem dormant_node {s : State} (h : Lone s) : dormantLins s 0x20100 = [0, 1] := by
  have hl : s.launch 0x20100 = lau := by simp [State.launch, h.lone, smGet]
  simp only [dormantLins, hl, show lau.tenant = 0 from rfl, show lau.node = node from rfl, size_node h.toTree]
  decide
theorem kid_runs {s : State} (h : Lone s) (p : W64) (hp : [node, root].contains p = true) (k : Nat) (hn : nodeTn k = 0 ∧ nodePtr k = p) : runnable s k = true := by
  obtain ⟨hn, rfl⟩ := hn
  exact runnable_of (l := lau) (key := 0x20100) (lin := 1) (by rw [h.lone]; exact List.mem_singleton.mpr rfl) (launchUnder_of hn.symm rfl (path_node h.toTree) hp)
    (by rw [dormant_node h]; decide) (run_node h)
/-- R330: the only child of a node, runnable and of level 0 before any turn has ended, takes the turn, whoever was served last. -/
theorem nextKid_one {s : State} {n k : Nat} (h1 : kidsOf s n = [k]) (h2 : runnable s k = true) (h3 : nodeLevel s k = 0) (h4 : s.turnLog = [])
    (h5 : roundFrom (smFind s.servedLast (8 * n + 0)) [k] = [k]) : nextKid s n (List.range 8) = some k := by
  have hl (f : Nat → Bool) : levelTime s n f = 0 := by simp [levelTime, h4]
  have hr : runKids s n = [k] := by simp [runKids, h1, h2]
  have hf : [k].filter (fun j => nodeLevel s j = 0) = [k] := by simp [h3]
  rw [show List.range 8 = 0 :: [1, 2, 3, 4, 5, 6, 7] from rfl, nextKid]
  simp only [h1, hf, h5, hr]
  simp [lends, capped, hl]
theorem path_root {s : State} (t : Tree s) : pathOf s 0 root = [root] := by
  obtain ⟨r0, -⟩ := root_fields t
  rw [pathOf, show 2 ^ 48 = 281474976710655 + 1 from rfl, pathUp_root (by decide) (by decide) (by rw [rcbKind, r0])]
theorem level_root {s : State} (t : Tree s) : nodeLevel s root.toNat = 0 := by
  rw [nodeLevel, show nodeTn root.toNat = 0 by decide, show nodePtr root.toNat = root by decide, path_root t]
  simp only [effPrio, effVal]
  rw [root_at t 6 1 0 (by decide) (by decide)]
theorem level_node {s : State} (t : Tree s) : nodeLevel s node.toNat = 0 := by
  rw [nodeLevel, show nodeTn node.toNat = 0 by decide, show nodePtr node.toNat = node by decide, path_node t]
  simp only [effPrio, effVal]
  rw [node_at t 6 1 0 (by decide) (by decide), root_at t 6 1 0 (by decide) (by decide)]
  simp
theorem quantum_root {s : State} (t : Tree s) : quantumOf s root.toNat = 100 := by
  simp only [quantumOf, show nodeTn root.toNat = 0 by decide, show nodePtr root.toNat = root by decide, path_root t, effWeight, effVal, root_at t 7 1 1 (by decide) (by decide)]
  decide
theorem quantum_node {s : State} (t : Tree s) : quantumOf s node.toNat = 100 := by
  simp only [quantumOf, show nodeTn node.toNat = 0 by decide, show nodePtr node.toNat = node by decide, path_node t, effWeight, effVal, node_at t 2 2 0 (by decide) (by decide),
    root_at t 7 1 1 (by decide) (by decide)]
  simp [bitOf]
theorem next_root {s : State} (h : Lone s) (h5 : roundFrom (smFind s.servedLast (8 * pkgNode + 0)) [root.toNat] = [root.toNat]) : nextKid s pkgNode (List.range 8) = some root.toNat :=
  nextKid_one (by rw [kidsOf, if_pos rfl, h.tens]; decide) (kid_runs h root (by decide) _ (by decide)) (level_root h.toTree) h.log h5
theorem next_node' {s : State} (h : Lone s) (h5 : roundFrom (smFind s.servedLast (8 * root.toNat + 0)) [node.toNat] = [node.toNat]) : nextKid s root.toNat (List.range 8) = some node.toNat :=
  nextKid_one (kids_root h.toTree) (kid_runs h node (by decide) _ (by decide)) (level_node h.toTree) h.log h5
/-- The root serves its children while it has the turn, and DEF. -/
theorem root_serves {s : State} (h : Lone s) (h1 : smFind s.turns pkgNode = some root.toNat) (h2 : 0 < defOf s root.toNat)
    (h5 : roundFrom (smFind s.servedLast (8 * pkgNode + 0)) [root.toNat] = [root.toNat]) : serves s root.toNat = true := by
  have hn : nodeId 0 root = root.toNat := by decide
  simp only [serves, show nodeTn root.toNat = 0 by decide, show nodePtr root.toNat = root by decide, path_root h.toTree, holdsTurn, show parentOf 0 [] = pkgNode from rfl, hn, h1, h2,
    servedLevel, next_root h h5, Option.map_some]
  decide
/-- R330, R331: a first turn, a child passed over, and a turn that goes on or ends; the first is at the root, where a child in debt is passed over, the last at the package. -/
theorem witness_LaunchRecords_turns :
    let r := root.toNat
    let n := node.toNat
    let s := stT' [(r, 50)] [(pkgNode, r)] []
    let d := stT' [(r, 50), (n, -100)] [(pkgNode, r)] []
    let d' := stT' [(r, 50), (n, 0)] [(pkgNode, r)] [(8 * r, n)]
    let e := stT' [(r, -10)] [] [(8 * pkgNode, r)]
    let o := { State.reset with turns := [(pkgNode, 5)] }
    (rcbOk s 0 node = true ∧ rcbState s 0 node ≠ 1 ∧ s.ctxs = [] ∧ d.ctxs = [] ∧ e.ctxs = [] ∧ o.ctxs = [])
    ∧ (smFind s.turns r = none ∧ serves s r = true ∧ nextKid s r (List.range 8) = some n ∧ 0 < min (defOf s n + quantumOf s n) (quantumOf s n))
    ∧ (smFind d.turns r = none ∧ serves d r = true ∧ nextKid d r (List.range 8) = some n ∧ min (defOf d n + quantumOf d n) (quantumOf d n) = 0 ∧ nodeLevel d n = 0
        ∧ { d with servedLast := smSet d.servedLast (8 * r + 0) n, defs := smSet d.defs n 0 } = d' ∧ nextKid d' r (List.range 8) = some n ∧ 0 < min (defOf d' n + quantumOf d' n) (quantumOf d' n))
    ∧ (smFind e.turns r = none ∧ serves e r = false)
    ∧ (smFind s.turns pkgNode = some r ∧ serves s pkgNode = true ∧ servedLevel s pkgNode = some (nodeLevel s r) ∧ runnable s r = true ∧ (10 : Int) < defOf s r
        ∧ -quantumOf s r ≤ defOf s r - 10 ∧ ¬(60 : Int) < defOf s r ∧ 0 ≤ quantumOf s r)
    ∧ ({ s with defs := smSet s.defs r (max (defOf s r - 60) (-quantumOf s r)), turns := smDel s.turns pkgNode, servedLast := smSet s.servedLast (8 * pkgNode + nodeLevel s r) r } = e
        ∧ serves e pkgNode = true ∧ nextKid e pkgNode (List.range 8) = some r ∧ 0 < min (defOf e r + quantumOf e r) (quantumOf e r))
    ∧ (smFind o.turns pkgNode = some 5 ∧ runnable o 5 = false ∧ nextKid State.reset pkgNode (List.range 8) = none ∧ smFind State.reset.turns pkgNode = none) := by
  intro r n s d d' e o
  have ts : Lone s := lone_turns _ _ _
  have td : Lone d := lone_turns _ _ _
  have td' : Lone d' := lone_turns _ _ _
  have te : Lone e := lone_turns _ _ _
  have on : rcbOk s 0 node = true := by
    simp [s, rcbOk, ptr_at ts.toTree _ node 0x20100 256 rfl (by decide) (by decide)]; decide
  obtain ⟨-, -, n4, -⟩ := node_fields ts.toTree
  have qr := @quantum_root
  have qn := @quantum_node
  refine ⟨⟨on, by rw [rcbState, n4]; decide, rfl, rfl, rfl, rfl⟩, ⟨by decide, root_serves ts (by decide) (by decide) (by decide), next_node' ts (by decide), ?_⟩,
    ⟨by decide, root_serves td (by decide) (by decide) (by decide), next_node' td (by decide), ?_, level_node td.toTree, by decide, next_node' td' (by decide), ?_⟩, ⟨by decide, ?_⟩,
    ⟨by decide, rfl, ?_, kid_runs ts root (by decide) _ (by decide), by decide, ?_, by decide, ?_⟩, ⟨?_, rfl, next_root te (by decide), ?_⟩, by decide, by decide, by decide, by decide⟩
  · rw [quantum_node ts.toTree]; decide
  · rw [quantum_node td.toTree]; decide
  · rw [quantum_node td'.toTree]; decide
  · simp only [serves, r, show nodeTn root.toNat = 0 by decide, show nodePtr root.toNat = root by decide, path_root te.toTree]
    rfl
  · simp only [servedLevel, next_root ts (by decide), Option.map_some, r]
  · rw [quantum_root ts.toTree]; decide
  · rw [quantum_root ts.toTree]; decide
  · rw [quantum_root ts.toTree, level_root ts.toTree]; decide
  · rw [quantum_root te.toTree]; decide
theorem witness_LaunchRecords_paused : rcbState sL 0 0x0100000000020200 = 1 ∧ rcbOk sL 0 0x0100000000020200 = true := by
  refine ⟨?_, ?_⟩
  · rw [rcbState, rcb_good sL good_tree _ 0x20200 4 1 rfl (by decide) (by decide)]; decide
  · have h (w : Bool) := ptr_good w 0x0100000000020200 0x20200 256 rfl (by decide) (by decide)
    simp only [rcbOk, h]; decide
/-- R13: a host with the first 256 MiB of device memory reaches the STATE byte of the node, and one without does not. -/
theorem witness_LaunchRecords_host :
    let u : State := { sL with pf := { sL.pf with hdmsize := 1 } }
    hostReaches u (tByte u 0 true (ptrAdd node (4 : Nat))) = true ∧ hostReaches sL (tByte sL 0 true (ptrAdd node (4 : Nat))) = false := by
  intro u
  have g : Good u := ⟨good_tree.ten, good_tree.red, good_tree.rsv, good_tree.l3, good_tree.l2, good_tree.l1, good_tree.bn⟩
  rw [tByte_good u g true _ 0x20104 (by decide) (by decide), tByte_good sL good_tree true _ 0x20104 (by decide) (by decide)]
  decide

/-! The host, peers, management. -/

def pf (f : Pf → Pf) : State := { State.reset with pf := f State.reset.pf }
def vfN (n : Nat) (t : Tenant) : State := { State.reset with tenants := [(n, t)] }

set_option maxRecDepth 8000 in
theorem witness_VirtualFunctions :
    let down := pf fun p => { p with linkUp := false }
    let s := State.reset
    let e := vfN 3 { Tenant.reset with enable := true, err := 0x13, root := 0x500 }
    hostUp down = false ∧ hostUp s = true ∧ (s.tenant 3).enable = false ∧ (e.tenant 3).enable = true
    ∧ run (.vfEnable 3) s (fun t => (t.tenant 3).enable && !(t.tenant 4).enable) ∧ run (.vfDisable 3) e (fun t => !(t.tenant 3).enable && (t.tenant 3).done && (t.tenant 3).root == 0x500)
    ∧ run (.vfFlr 3) e (fun t => (t.tenant 3).root == 0) ∧ run (.registerWrite .pf0 .pf 0x28 100) s (fun t => t.pf.powcap == 400) ∧ run (.registerWrite .pf0 .pf 0x28 4000) s (fun t => t.pf.powcap == 2800)
    ∧ run (.registerWrite (.vf 3) (.vf 3) 0x40 0x11) e (fun t => (t.tenant 3).err == 2) ∧ run (.registerWrite .pf0 (.vf 3) 0x08 0x700) s (fun t => (t.tenant 3).root == 0x700)
    ∧ run (.registerWrite .pf0 (.vf 3) 0x08 0x700) e (fun t => (t.tenant 3).root == 0x500)
    ∧ run (.registerWrite .pf0 (.vf 3) 0x30 1) s (fun t => (t.tenant 3).enable) ∧ run (.registerWrite .pf0 (.vf 3) 0x30 0) e (fun t => !(t.tenant 3).enable)
    ∧ run (.registerWrite (.vf 3) (.vf 3) 0x30 1) s (fun t => !(t.tenant 3).enable) ∧ run (.registerWrite (.vf 3) (.vf 3) 0x50 0x1000) e (fun t => (t.tenant 3).xgen == 1) := by decide

/-- R339 to R344, R363: the clamps of the table, a partition that holds a line, and what reads give. -/
theorem witness_FunctionRegisters :
    let s := State.reset
    let h : State := { s with part := [(2 ^ 42, 1)] }
    let e := vfN 3 { Tenant.reset with enable := true, err := 0x13, qwin := 0x0000000200000000 }
    hostUp s = true ∧ s.part = [] ∧ h.part ≠ [] ∧ bitsOf (e.tenant 3).qwin 44 32 = 2
    ∧ run (.registerWrite .pf0 .pf 0x10 100) s (fun t => t.pf.hcpkb == 85) ∧ run (.registerWrite .pf0 .pf 0x10 100) h (fun t => t.pf.hcpkb == s.pf.hcpkb)
    ∧ run (.registerWrite .pf0 .pf 0x1008 0xFFFF) s (fun t => regRead t .pf 0x1008 == 0xFFF && regRead t .pf 0x1000 == 0)
    ∧ regRead s .pf 0 = 1 ∧ regRead s .pf 0x58 = 0 ∧ regRead e (.vf 3) 0 = 3 ∧ regRead e (.vf 3) 0x40 = 0x13 ∧ regRead e (.vf 3) 0x50 = 0 ∧ regRead e (.bar2 3) 0x80 = 0 := by decide

/-- 256 MiB of device memory seen by the host from 4 GiB; peer 3's tenant 2 may read, write and use atomics on the first 4 KiB, as local tenant 1. -/
def stH : State :=
  { pf fun p => { p with hdmbase := 2 ^ 32, hdmsize := 1, ingress := [(0, 2 ^ 192 + 0xF003020100000000)] } with
    mem := cells 0x40 [7, 8, 9], part := [(2 ^ 42, 1)], packets := [⟨5, 0, 1, none, none⟩] }
theorem witness_HostAndPeers_inv : stH.Inv := ⟨by decide, fun _ h => nomatch h⟩
set_option maxRecDepth 8000 in
theorem witness_HostAndPeers :
    let s := stH
    let f : State := { stH with filter := [1] }
    hdmPa s (2 ^ 32 + 0x3F) 2 = some 0x3F ∧ hdmPa s 0x3F 2 = none ∧ hdmPa s (2 ^ 32) 3 = some 0 ∧ hostUp s = true ∧ s.launches = [] ∧ s.redq = [] ∧ s.pf.linkUp = true ∧ hostKey 0x40 / 64 = 2 ^ 42 + 1
    ∧ inLocal s 3 2 62 0xFF0 16 = some 1 ∧ inLocal s 3 2 62 0xFF1 16 = none ∧ inLocal s 3 1 61 0 2 = none ∧ inLocal s 3 2 61 0x40 2 = some 1 ∧ inLocal s 4 2 60 0 4 = none ∧ inLocal s 3 2 60 0x40 4 = some 1
    ∧ (s.cl 192).l1 = [] ∧ locTenants s 3 2 = [1] ∧ locTenants s 3 3 = [] ∧ s.packets.any (·.port = 5) ∧ s.packets.all (·.port ≠ 6)
    ∧ run (.hostMemWrite (2 ^ 32 + 0x3F) [1, 2]) f (fun t => memBytes t.mem 0x3F 4 == [1, 2, 8, 9] && t.filter == []) ∧ run (.hostMemRead (2 ^ 32 + 0x40) 3) s (fun t => t.outs == [.hostRead [7, 8, 9]] && t.filter == [1])
    ∧ run (.hostSnoop 0 [5]) s (fun t => memGet t.mem (2 ^ 48) == 5 && t.part == []) ∧ run .ideMacFailure s (fun t => !hostUp t)
    ∧ run (.ingressRequest 3 2 (.load 0x40 2)) s (fun t => t.outs == [.peerReply 3 true 0x807]) ∧ run (.ingressRequest 3 1 (.store 0 [1, 2])) s (fun t => t.outs == [.peerReply 3 false 0] && t.mem == s.mem)
    ∧ run (.ingressRequest 3 2 (.store 0x41 [1, 2])) s (fun t => t.outs == [.peerReply 3 true 0] && memBytes t.mem 0x40 3 == [7, 1, 2])
    ∧ run (.ingressRequest 3 2 (.atom .add .n32 0x40 0x100)) s (fun t => t.outs == [.peerReply 3 true 0x90807] && memNat t.mem 0x40 4 == 0x90907)
    ∧ run (.ingressRequest 3 2 (.cas .n32 0x40 0x090807 5)) s (fun t => t.outs == [.peerReply 3 true 0x90807] && memNat t.mem 0x40 4 == 5)
    ∧ run (.ingressRequest 3 2 (.red .add .n32 0x40 1)) s (fun t => t.outs == [.peerReply 3 true 0] && memNat t.mem 0x40 4 == 0x90808)
    ∧ run (.ingressRequest 3 2 (.monitor 0x40 false .eq 0x90807 6)) s (fun t => t.outs == [.peerReply 3 true 0x90807] && t.peerMons == [⟨3, 6, 0x40, 4, .eq, 0x90807⟩])
    ∧ run (.ingressRequest 3 2 (.load 0x40 2)) { s with ecc := [0x41] } (fun t => t.outs == [.peerPoison 3]) ∧ run (.ingressRequest 3 2 (.load 0x40 2)) { s with ecc := [0x42] } (fun t => t.outs == [.peerReply 3 true 0x807])
    ∧ run (.hostMemRead (2 ^ 32 + 0x40) 3) { s with ecc := [0x41] } (fun t => t.outs == [.hostPoison (2 ^ 32 + 0x40)])
    ∧ run (.ingressRequest 3 3 (.tspawn 0)) s (fun t => t.outs == [.peerReply 3 false 3]) ∧ run (.drawbarTimeout 5) s (fun t => t.packets == [] && bitOf (t.tenant 1).err 4) ∧ run (.drawbarTimeout 6) s (fun t => t.packets == s.packets) := by decide

theorem witness_HostAndPeers_wakes :
    let p : PeerMon := ⟨3, 6, 0x40, 4, .eq, 0x90807⟩
    let n : State := { stH with peerMons := [p] }
    let s : State := { n with pf := { n.pf with route := [(3, 1)] } }
    s.peerMons = [p] ∧ smGet 0 s.pf.route p.peer ≠ 0 ∧ smGet 0 n.pf.route p.peer = 0 ∧ s.ctxs = [] ∧ isCached p.key = true ∧ s.redq = [] ∧ wcHolds p.cc (8 * p.n) (memNat s.mem p.key p.n) p.b = true ∧ wcHolds .eq 32 (memNat s.mem p.key p.n) 4 = false
    ∧ ((serveWatches s).outs.map fun o => match o with | .wake _ q i => (q, i) | _ => (0, 0)) = [(3, 6)] ∧ (serveWatches n).outs = [] ∧ (serveWatches n).peerMons = [p] := by decide

theorem witness_ManagementAndClock :
    let s := State.reset
    let dn := pf fun p => { p with linkUp := false }
    let stg := pf fun p => { p with staging := true }
    let hot := pf fun p => { p with powcap := 1000, lastTemp := 104 }
    let low := pf fun p => { p with powcap := 1000, clkmhz := 2000, lowMs := 49 }
    let slow := pf fun p => { p with clkmhz := 1200, lastTemp := 105 }
    let off := pf fun p => { p with trip := true }
    mailUp dn = false ∧ mailUp s = true ∧ stg.pf.staging = true ∧ s.pf.staging = false ∧ s.pf.ready = true ∧ s.ctxAt 0 0 = none ∧ off.pf.trip = true ∧ s.pf.trip = false
    ∧ run .mgmtStatus s (fun t => t.outs == [.mgmt 1 0 [1, 0, 0, 3300]]) ∧ run .counters s (fun t => t.outs == [.mgmt 6 0 (0 :: s.pf.dieEcc)]) ∧ run (.setcap 5000) s (fun t => t.pf.powcap == 904)
    ∧ run (.setprio 10) s (fun t => t.pf.priocap == 50) ∧ run (.attach 0 0 1) s (fun t => t.outs == [.mgmt 4 2 []]) ∧ run (.mgmtUnknownCode 7) s (fun t => t.outs == [.mgmt 7 1 []])
    ∧ run (.stage [1]) s (fun t => t.pf.staged == [1] && t.pf.staging) ∧ run (.powerSample 1001) hot (fun t => t.pf.clkmhz == 3200 && t.pf.pownow == 1001) ∧ run (.powerSample 900) low (fun t => t.pf.clkmhz == 2100 && t.pf.lowMs == 0)
    ∧ run (.powerSample 960) low (fun t => t.pf.clkmhz == 2000) ∧ run (.thermalSample 104 90) hot (fun t => !t.pf.throt && t.pf.clkmhz == 3300) ∧ run (.thermalSample 90 105) hot (fun t => t.pf.throt && t.pf.clkmhz == 3200)
    ∧ run (.thermalSample 105 105) slow (fun t => t.pf.throt && t.pf.clkmhz == 1200 && t.pf.ready) ∧ run (.thermalSample 106 0) slow (fun t => t.pf.trip && !t.pf.ready && (t.tenant 63).done)
    ∧ run (.thermalSample 0 120) s (fun t => t.pf.trip && !hostUp t && !mailUp t) := by decide

/-- While staging lasts, which is free, commands but STATUS are turned away; a request of a wrong form and one of no command have their own codes. -/
theorem witness_Management_staging :
    let s := pf fun p => { p with staging := true }
    let b := Config.stagingBusy s.ticks
    s.pf.staging = true ∧ mailUp s = true ∧ run (.mgmtUnknownCode 3) State.reset (fun t => t.outs == [.mgmt 3 2 []]) = true
    ∧ run .counters s (fun t => t.outs == [if b then .mgmt 6 3 [] else .mgmt 6 0 (0 :: s.pf.dieEcc)]) = true
    ∧ run (.stage [1]) s (fun t => t.outs == [.mgmt 5 (if b then 3 else 0) []] && t.pf.staged == if b then [] else [1]) = true
    ∧ run (.mgmtUnknownCode 3) s (fun t => t.outs == [.mgmt 3 (if b then 3 else 2) []]) = true ∧ run .mgmtStatus s (fun t => t.outs == [.mgmt 1 0 [1, 0, 0, 3300]]) = true := by
  intro s b
  refine ⟨rfl, by decide, by decide, ?_, ?_, ?_, ?_⟩ <;>
    (simp only [run, exec, execCounters, execStage, execMgmtUnknownCode, execMgmtStatus, mgmtDo, b, s, pf]; generalize Config.stagingBusy _ = x; cases x <;> decide)

theorem witness_Reset :
    let s := State.reset
    let down := pf fun p => { p with linkUp := false }
    s.Inv ∧ s.pf.trip = false ∧ s.pf.linkUp = true ∧ down.pf.linkUp = false ∧ (imageOk [1] = true ∨ imageOk [1] = false) :=
  ⟨⟨rfl, fun _ h => nomatch h⟩, rfl, rfl, rfl, by cases imageOk [1] <;> simp⟩

/-! Portable code: the digests are SHA3-256's of no bytes and of the eight bytes of TDONE. -/

set_option maxRecDepth 100000 in
theorem test_sha3 : sha3 [] = [0xa7, 0xff, 0xc6, 0xf8, 0xbf, 0x1e, 0xd7, 0x66, 0x51, 0xc1, 0x47, 0x56, 0xa0, 0x61, 0xd6, 0x62, 0xf5, 0x80, 0xff, 0x4d, 0xe4, 0x3b, 0x49, 0xfa,
  0x82, 0xd8, 0x0a, 0x4b, 0x80, 0xf8, 0x43, 0x4a] := by decide
def digest : List Byte := [94, 92, 206, 19, 52, 233, 78, 45, 134, 58, 4, 173, 163, 230, 54, 91, 192, 184, 155, 171, 4, 216, 112, 223, 180, 152, 249, 48, 82, 111, 9, 211]
def tdoneCode : List Byte := [0, 0, 0, 0, 0, 0, 0, 0x6C]
def header (g : Byte) : List Byte := [0x50, 0x52, 0x57, 0x4C, 0x01, 0x80, g, 0, 8, 0, 0, 0, 0, 0, 0, 0] ++ digest ++ List.replicate 16 0
/-- The tree with a portable object at the entry of its task record: a header, and code that is one TDONE. -/
def portMem (g : Byte) : List Host.Cell := cells 0x1000 (header g ++ tdoneCode) ++ treeMem.map fun c => if c.1 = 0x21008 then (c.1, 1) else if c.1 = 0x21009 then (c.1, 0x80) else c
def recP : TRec := { rec1 with isav := 0x8001 }
theorem port_good (g : Byte) (hg : g = 32 ∨ g = 64) : Good (stL (portMem g)) := by
  rcases hg with rfl | rfl <;> exact ⟨⟨rfl, rfl⟩, rfl, by decide, by decide, by decide, by decide, by decide⟩
set_option maxRecDepth 100000 in
theorem sha3_tdone : sha3 tdoneCode = digest := by decide
set_option maxRecDepth 20000 in
theorem port_parts (g : Byte) (hg : g = 32 ∨ g = 64) :
    dispatchable (stL (portMem g)) 0 0x20100 1 = true ∧ dispatchable (stL (portMem g)) 0 0x20100 2 = false ∧ readRec (stL (portMem g)) 0 node 1 = some recP ∧ tRead (stL (portMem g)) 0 recP.entry 64 = some (header g)
      ∧ tRead (stL (portMem g)) 0 (ptrAdd recP.entry 64) 8 = some tdoneCode := by
  have hG := port_good g hg
  have f (off n v : Nat) (hm : memNat (portMem g) (0x20100 + off) n = v) (hn : off + n ≤ 256 ∧ 0 < n) : rcb (stL (portMem g)) 0 node off n = v :=
    (rcb_good _ hG node 0x20100 off n rfl (by omega) hn.2).trans hm
  have hd : [memNat (portMem g) 0x20130 8, memNat (portMem g) 0x2014C 1, memNat (portMem g) 0x20140 4, memNat (portMem g) 0x20144 4, memNat (portMem g) 0x20148 4] = [0x0100000000021000, 0, 2, 1, 1]
      ∧ memBytes (portMem g) 0x1000 64 = header g ∧ memBytes (portMem g) 0x1040 8 = tdoneCode ∧ memBytes (portMem g) 0x21000 128 = memBytes (portMem 32) 0x21000 128 := by
    rcases hg with rfl | rfl <;> exact ⟨by decide, by decide, by decide, by decide⟩
  obtain ⟨hd, h1, h2, h3⟩ := hd
  simp only [List.cons.injEq, and_true] at hd
  have hs (lin : Nat) : dispatchable (stL (portMem g)) 0 0x20100 lin = decide (lin < 2) := by
    simp only [dispatchable, show ((stL (portMem g)).launch 0x20100) = lau from rfl, show lau.node = node from rfl,
      size_of _ 0 2 1 1 node (f 0x40 4 2 hd.2.2.1 (by decide)) (f 0x44 4 1 hd.2.2.2.1 (by decide)) (f 0x48 4 1 hd.2.2.2.2 (by decide))]
    simp [lau, Launch.none]
  refine ⟨by rw [hs]; rfl, by rw [hs]; rfl, ?_, ?_, ?_⟩
  · simp only [readRec, rcbPtr, f 0x30 8 _ hd.1 (by decide), f 0x4C 1 _ hd.2.1 (by decide)]
    rw [if_neg (by decide), tRead_good _ hG rfl 128 _ 0x21000 rfl (by decide)]
    rw [show (stL (portMem g)).mem = portMem g from rfl, h3]
    decide
  · rw [tRead_good _ hG rfl 64 _ 0x1000 rfl (by decide)]; exact congrArg some h1
  · rw [tRead_good _ hG rfl 8 _ 0x1040 rfl (by decide)]; exact congrArg some h2
theorem translOf_none (s : State) (tn : Nat) (r : TRec) (h : s.transl = []) : translOf s tn r = none := by
  simp only [translOf, h]
  split <;> rfl
theorem header_of (s : State) (tn n g : Nat) (r : TRec) (h code : List Byte) (hn : leNat ((h.drop 8).take 4) = n) (hg : leNat ((h.drop 6).take 2) = g) (hc : tRead s tn (ptrAdd r.entry 64) n = some code)
    (hk : (leNat (h.take 4) = 0x4C575250 && leNat ((h.drop 4).take 2) = 0x8001 && [8, 16, 32, 64, 128, 256, 512, 1024].contains g
      && (h.drop 0x30).all (· = 0#8) && leNat ((h.drop 12).take 4) < n && (List.range r.nctx).all fun k => g ≤ 2 ^ r.tw.getD k 0) = true)
    (hd : sha3 code = (h.drop 0x10).take 32) : headerOk s tn r h = some (code, leNat ((h.drop 12).take 4)) := by
  simp only [headerOk, hn, hg, hc, hk, if_true, Option.bind_some, hd]
theorem header_none (s : State) (tn g : Nat) (r : TRec) (h : List Byte) (hg : leNat ((h.drop 6).take 2) = g) (hk : ((List.range r.nctx).all fun k => g ≤ 2 ^ r.tw.getD k 0) = false) :
    headerOk s tn r h = none := by
  simp only [headerOk, hg, hk, Bool.and_false, Bool.false_eq_true, if_false]
/-- R352: a branch back over a GW, which has become two words, goes back two. -/
theorem witness_Portable_branch :
    let w : W64 := 0x64000003FFFFFFFF
    let lay : List PPiece := [.item 0 (.gw 1 5), .item 1 (.branch w)]
    branchTarget 1 w = 0 ∧ placeOfWord (branchTarget 1 w) lay 0 = some 0 ∧ placeOfWord 1 lay 0 = some 2 ∧ portEmit lay [.item 1 (.branch w)] 2 = some [0x64000003FFFFFFFE] := by decide
theorem witness_Portable :
    let s := stL (portMem 32)
    let b := stL (portMem 64)
    dispatchable s 0 0x20100 1 = true ∧ (s.launch 0x20100).node = node ∧ readRec s 0 node 1 = some recP ∧ recP.isav = 0x8001 ∧ recP.ok = true ∧ translOf s 0 recP = none
    ∧ tRead s 0 recP.entry 64 = some (header 32) ∧ (headerOk s 0 recP (header 32)).bind (fun c => translate c.1 c.2) = some (tdoneCode, 0) ∧ s.transl = [] ∧ regionPlace s 8 = some 0 ∧ s.redq = []
    ∧ tRead b 0 recP.entry 64 = some (header 64) ∧ (headerOk b 0 recP (header 64)).bind (fun c => translate c.1 c.2) = none ∧ rec1.isav ≠ 0x8001 ∧ dispatchable s 0 0x20100 2 = false := by
  intro s b
  obtain ⟨h1, h5, h2, h3, h4⟩ := port_parts 32 (.inl rfl)
  obtain ⟨-, -, -, k3, -⟩ := port_parts 64 (.inr rfl)
  refine ⟨h1, rfl, h2, by decide, by decide, ?_, h3, ?_, rfl, by decide, rfl, k3, ?_, by decide, h5⟩
  · exact translOf_none s 0 recP rfl
  · rw [header_of s 0 8 32 recP (header 32) tdoneCode (by decide) (by decide) h4 (by decide) sha3_tdone, Option.bind_some]
    decide
  · rw [header_none b 0 64 recP (header 64) (by decide) (by decide)]; rfl
/-- A translation that stands under the object's key, in the region or in flash alone. -/
theorem witness_Portable_cached (a : Option Nat) :
    let x : Transl := { digest := digest, ver := Config.xlVersion State.reset.pf.image, tws := recP.nctx :: recP.tw, code := tdoneCode, entry := 0, addr := a, blk := some 3, used := 0 }
    let s : State := { stL (portMem 32) with transl := [x] }
    dispatchable s 0 0x20100 1 = true ∧ readRec s 0 node 1 = some recP ∧ translOf s 0 recP = some x := by
  intro x s
  obtain ⟨h1, -, h2, h3, -⟩ := port_parts 32 (.inl rfl)
  refine ⟨h1, h2, ?_⟩
  rw [translOf, show tRead s 0 recP.entry 64 = some (header 32) from h3]
  simp [s, x, stL]
  decide

/-! Steps. -/

def wAdd : Nat := 0x0100C60400000008
def wLi : Nat := 0xFE0000003FC001001A01200000000000
def wViadd : Nat := 0x8000A030001C0100
def wEend : Nat := 0x80000000
/-- What the head move of the agenda finds: the state it acts in. -/
def aimed (s : State) (m : Move) : State := let u : State := { tick s with agenda := [] }
  aim u (arbitrate u m)
/-- The generator's word at an offset from its program counter, fetched in a state, has p. -/
def fetched (u v : State) (off : W64) (p : State → W64 → Bool) : Bool := match fetchAt v u.me (u.me.pc + off) with | .word t w => p t w | _ => false
def mayIssue (v : State) (i : Instr) : Bool := v.me.tryw.isNone && v.me.cap.holes.isEmpty && !isPriv i && !csrRefused v i && !(handlesOf i).any (aliasAway v)
set_option maxRecDepth 8000 in
theorem witness_AStep :
    let s := State.reset.withFetchWord 64 wAdd
    let l := State.reset.withFetchWord 128 wLi
    let f : State := { s with mem := memSetList [] 0x1000 (leBytes 8 wViadd) }
    let u := aimed s (.gen 0)
    let x := aimed l (.gen 0)
    let y := aimed f (.gen 0)
    let i := Instr.add 6 6 (.imm 8)
    s.hole = none ∧ arbitrate { tick s with agenda := [] } (.gen 0) = .gen 0 ∧ u.me.expired u.mc = false ∧ (tick s).agenda = [.gen 0] ∧ (tick State.reset).agenda = [] ∧ u.me.st.resident = true ∧ u.me.dbg.halted = false ∧ dueAt u u.me = .none ∧ brkMatch u.me.dbg false u.me.pc = none
    ∧ fetched u u 0 (fun v w => w == BitVec.ofNat 64 wAdd && !isLaneClass w && (GWord.ofWord w).maj != 0x1A && decodeG (GWord.ofWord w) 0 == some i && resolveForm v i == some i && mayIssue v i)
    ∧ fetched x x 0 (fun v w => (GWord.ofWord w).maj == 0x1A && fetched x v 8 fun v2 w2 => decodeG (GWord.ofWord w) w2 == some (.li 9 0xFE0000003FC00100) && mayIssue v2 (.li 9 0))
    ∧ fetched y y 0 (fun v w => isLaneClass w && y.me.tryw.isNone && (match gather y.me 4 0 v w [] with | .unit _ ws => ws == [BitVec.ofNat 64 wViadd] | _ => false))
    ∧ smFind (s.cl 0).icache 0x1000 = none ∧ isPeer 0x1000 = false ∧ s.redq = [] := by decide
theorem witness_AStep_team :
    let k := State.reset.withFetchWord 64 wViadd
    let u := aimed k (.team 0)
    let e := State.reset.withFetchWord 32 wEend
    let x := (aimed e (.epi 0)).epi 0
    (tick k).agenda = [.team 0] ∧ arbitrate { tick k with agenda := [] } (.team 0) = .team 0 ∧ mayStart u.me = true ∧ u.me.trap.inSave = false ∧ u.me.st.resident = true ∧ u.me.dbg.halted = false ∧ u.me.strm.stopped = false ∧ u.me.strm.gate = false ∧ u.me.trap.intrap = false ∧ u.me.trap.preempt = none
    ∧ u.me.dbg.pend = none ∧ headUnit u.me = some [BitVec.ofNat 64 wViadd] ∧ (decodeUnit [BitVec.ofNat 64 wViadd]).isSome
    ∧ (tick e).agenda = [.epi 0] ∧ x.on = true ∧ x.prog[x.pcw]? = some 0x80000000 ∧ decodeE (EWord.ofWord 0x80000000) = some .eend := by decide
/-- R48, R84: with a hole pending a level-0 CSRW of a level-1 register raises PRIV, and one that may run STRETCH 3. -/
theorem test_step_order :
    let h (w : Nat) : State := (State.reset.withFetchWord 64 w).modCtx 0 fun c => { c with trap := { c.trap with vec := 0x2000 }, cap := { c.cap with holes := [(1, .base, 0)] } }
    let priv := 0x1C00020400000018
    let free := 0x0100C60400000008
    decodeG (GWord.ofWord (BitVec.ofNat 64 priv)) 0 = some (.csrw 0x018 2) ∧ csrRefused (aimed (h priv) (.gen 0)) (.csrw 0x018 2) = true
    ∧ ok (step (h priv)) (fun t => trapped 0x05 t) ∧ ok (step (h free)) (fun t => trapped 0x0D t && t.me.trap.info == 3) := by decide
/-- R336: of two ready teams of a slice the one with the older head issues, of equal age the lower context, and one passed over 64 times before both. -/
theorem witness_AStep_slice :
    let c (b o sl : Nat) : Ctx := { cl8 with strm := { cl8.strm with born := [b], passed := o }, slot := sl }
    let s (a b : Ctx) : State := { lInt with ctxs := [(0, a), (1, b)] }
    passReady (s (c 5 0 0) (c 3 0 1)) 0 = true ∧ passReady (s (c 5 0 0) (c 3 0 1)) 1 = true ∧ headPasses (s (c 5 0 0) (c 3 0 1)) 1 = 1
    ∧ passReady (s (cx []) (c 3 0 1)) 0 = false ∧ pickTeam (s (cx []) (c 3 0 1)) 0 = 0 ∧ pickTeam (s (c 5 63 0) (c 3 0 1)) 0 = 1
    ∧ issues (s (c 5 0 0) (c 3 0 1)) (.team 0) 0 = true ∧ sliceRivals (s (c 5 0 0) (c 3 0 1)) 0 = [1]
    ∧ pickTeam (s (c 5 0 0) (c 3 0 1)) 0 = 1 ∧ pickTeam (s (c 3 0 0) (c 3 0 1)) 1 = 0 ∧ pickTeam (s (c 5 64 0) (c 3 0 1)) 1 = 0 := by decide
set_option maxRecDepth 8000 in
theorem test_step :
    ok (step (State.reset.withFetchWord 64 wAdd)) (fun t => t.me.reg 6 == 8 && t.me.pc == 0x0100000000001008)
    ∧ ok (step (State.reset.withFetchWord 128 wLi)) (fun t => t.me.reg 9 == 0xFE0000003FC00100 && t.me.pc == 0x0100000000001010)
    ∧ ok (step (State.reset.withFetchWord 64 wViadd)) (fun t => t.lane t.me 5 31 == 7 && t.me.strm.ents.isEmpty)
    ∧ (match step { State.reset with hole := some 5 } with | .fault (.noDevice pa) => pa == 5 | _ => false) = true := by decide

/-! The encoding, memory, the invariant. -/

theorem witness_Decoding :
    let i := Instr.ld ⟨.s16, .acq, .task, 31, 17, -8⟩
    let j := Instr.migopComplete 1 2 3
    let k := Instr.vatom ⟨⟨false, 5, true⟩, .n64, .incw, 511, ⟨256, true⟩, ⟨3, some ⟨7, false⟩, .i9 255, 0x7E00000000000008, .acqrel, .die⟩⟩
    let e := Instr.esel 7 5 6 3 0
    i.wf = true ∧ (encodeG i).isSome ∧ j.wf = true ∧ (encodeG j).isSome ∧ k.wf = true ∧ (encodeL k).isSome ∧ e.wf = true ∧ (encodeE e).isSome
    ∧ (encodeG i).bind decodeWords = some i ∧ (encodeG j).bind decodeWords = some (.migopClaim 1 2 3) ∧ (encodeL k).bind (fun u => decodeWords u.words) = some k := by decide
theorem witness_MemoryOperations : let s : State := { stH with cls := [(0, { Cluster.reset with l1 := [(1, ⟨1, 1, 0, [(0, 7)], false, []⟩)] })] }
    s.Inv ∧ NoneWaits s ∧ memBytes (homeWrite s 0x3F [1, 2]).mem 0x3F 3 = [1, 2, 8] ∧ (homeRead s 0x41 2).2 = [8, 9] ∧ (loadKeys s 0 polCl [0x40, 0x41]).2 = [7, 8] :=
  ⟨⟨by decide, by simp; decide⟩, rfl, by decide, by decide, by decide⟩
set_option maxRecDepth 8000 in
theorem witness_StepKeepsTheInvariant : let s := State.reset.withFetchWord 64 wAdd
    s.Inv ∧ ∃ t, step s = .next t := by
  intro s
  refine ⟨⟨by decide, by decide⟩, ?_⟩
  have h : ok (step s) (fun _ => true) = true := by decide
  cases hs : step s with
  | next t => exact ⟨t, rfl⟩
  | _ => rw [hs] at h; cases h

/-! Words that the spec writes out, and what they stand for (its worked examples). -/

def g0 : Guard := ⟨false, 0, false⟩
def la0 (sc : BitVec 2) (ix : Option Src) (base : W64) : LAddr := ⟨sc, ix, .i9 0, base, .rlx, .cluster⟩
/-- Every code decodes to its instruction. -/
def decodes (xs : List (List W64 × Instr)) : Bool := xs.all fun x => decodeWords x.1 == some x.2
def decodesE (xs : List (W32 × Instr)) : Bool := xs.all fun x => decodeE (EWord.ofWord x.1) == some x.2

theorem test_words_generator : decodes [
    ([0x1C04A00400000020], .csrwSet 5 0x020 0), ([0x1800653800000000], .sltn 3 5 (.reg 7)), ([0x1B00200400000004], .csrr 1 0x004), ([0x1B03800400000023], .csrr 28 0x023),
    ([0x214CC41C00000000], .st ⟨.d64, .rel, .task, 6, 4, 0⟩), ([0x214D8A2C00000000], .st ⟨.d64, .rel, .package, 12, 10, 0⟩), ([0x2100CC14000003DF], .st ⟨.n8, .rlx, .cluster, 6, 12, 991⟩),
    ([0x2301941400000200], .stx ⟨.rlx, .cluster, 12, 20, 0x200⟩), ([0x2D00A003FFFFFFFC], .loop 5 (-4)), ([0x2900050000000003], .bc .eq 5 0 3), ([0x29040703FFFFFFFF], .bc .ne 7 0 (-1)),
    ([0x3100070400000001], .qset 1 7), ([0x3200000400000005], .beginS 5), ([0x3600080400000005], .replayi 5 8), ([0x3900800000000000], .vqpop 4)] = true := by decide
theorem test_words_shared : decodes [
    ([0x4004882820000100], .atom .add .n32 ⟨.rlx, .cluster, 4, 8, 5, 0x100⟩), ([0x4308001800000000], .fence ⟨.rel, .task⟩), ([0x4544000400000001], .semrel 0 17 (.imm 1)),
    ([0x6000090400000005], .ctpl 5 9), ([0x6104000400000101], .ringdefShare 1 0 1), ([0x6A00000400000002], .twaitp 2), ([0x6A04000000000000], .twaitpAll),
    ([0x6B00000000000000], .thint), ([0x6C00000000000000], .tdone), ([0x6E00664000000000], .qpush 3 6 8), ([0x6F01000400000005], .qpopb 8 (.imm 5)), ([0x7200A00000000000], .qnext 5),
    ([0x7402070000000000], .msgpop 16 (.reg 7)), ([0x7603DBE800000000], .msgrst 30 27 29), ([0x7800000400000042], .trap 0x42), ([0x7900000000000000], .eret), ([0x7B00940000000000], .svstrm 4 20),
    ([0x7F04000000000000], .sysopIcsync), ([0x7F14642800000000], .haltSoft 3 4 5)] = true := by decide
theorem test_words_matrix : decodes [
    ([0x50000C0000000000], .mcfgA 12), ([0x5004100000000000], .mcfgB 16), ([0x5100000400000008], .mzero 8), ([0x5200050400000002], .mloop 2 false 5), ([0x520005040000000A], .mloop 2 true 5),
    ([0x5600095000000000], .mdrain 0 false 9 10 none), ([0x5700000000000000], .mwait), ([0x5A04000400000020], .mmovt true false 0 32), ([0x5B00880400000000], .spxWait 4 0 8),
    ([0x5B01690400000006], .spxWait 11 6 9), ([0x5C00E80000000000], .spcomp 7 8), ([0x5E02880000000000], .spqry 20 8)] = true := by decide
theorem test_words_lane : decodes [
    ([0xA040000028000480, 0x123], .vst ⟨g0, .n32, .normal, false, ⟨5, false⟩, la0 2 none 0x123⟩), ([0xA001002000000260, 0], .vld ⟨g0, .n16, .normal, false, 8, la0 1 (some ⟨2, false⟩) 0⟩),
    ([0xA000200000000240, 0], .vld ⟨g0, .n16, .normal, false, 1, la0 1 none 0⟩), ([0xA040004050000260, 0], .vst ⟨g0, .n16, .normal, false, ⟨10, false⟩, la0 1 (some ⟨4, false⟩) 0⟩),
    ([0xA400C030380000A2, 0x123], .vatom ⟨g0, .n32, .add, 6, ⟨7, false⟩, la0 2 (some ⟨3, false⟩) 0x123⟩), ([0xA4C0000000000260], .vfence ⟨.rel, .task⟩),
    ([0x8881608048000200], .vfmul ⟨g0, .f16x2, 0, 11, ⟨8, false⟩, .reg ⟨9, false⟩⟩), ([0x880140A058000200], .vfadd ⟨g0, .f16x2, 0, 10, ⟨10, false⟩, .reg ⟨11, false⟩⟩),
    ([0x8800401000040420], .vfadd ⟨g0, .bf16x2, 0, 2, ⟨1, false⟩, .imm (.i9 1)⟩), ([0x8880401000080420], .vfmul ⟨g0, .bf16x2, 0, 2, ⟨1, false⟩, .imm (.i9 2)⟩)] = true := by decide
theorem test_words_epilogue : decodesE [
    (0x78600028, .est 3 0 0 0xA 0), (0x78A00001, .est 5 0 0 0 1), (0x78200002, .est 1 0 0 0 2), (0x59000000, .eldm 1), (0x52000000, .eldr 2 false), (0x10280000, .efma 0 1 2 0), (0x3C600000, .ercp 4 3),
    (0x0D100000, .emul 5 0 4)] = true := by decide
/-- R46, R47: reserved majors, forms, prefixes alone and fields that must be zero. -/
theorem test_words_refused : ([[0x1D00000000000000], [0x0104C60400000008], [0x7F18000000000000], [0x0000000000000001], [0xBF8B000000000000], [0x8600000000000001]] : List (List W64)).all (fun ws => decodeWords ws == none) = true := by decide

/-! Ill-formed terms: one for each check. -/

def ill (xs : List Instr) : Bool := xs.all fun i => !i.wf
def rlx : AtF := ⟨.rlx, .cluster, 0, 1, 2, 0⟩
def acq : AtF := ⟨.acq, .cluster, 0, 1, 2, 0⟩
def gN : Guard := ⟨false, 0, true⟩
def gUp : Guard := ⟨true, 1, false⟩
theorem test_ill_formed_generator : ill [.semacq 1 0 (.imm (2 ^ 32)), .semrel 1 0 (.imm (2 ^ 32)), .semtry 1 0 (.imm (2 ^ 33)), .ld ⟨.n8, .rel, .cluster, 1, 2, 0⟩, .st ⟨.n8, .acq, .cluster, 1, 2, 0⟩,
    .st ⟨.s16, .rlx, .cluster, 1, 2, 0⟩, .ldx ⟨.rlx, .cluster, 2, 1, 0⟩, .ldx ⟨.rel, .cluster, 4, 1, 0⟩, .stx ⟨.rlx, .cluster, 5, 1, 0⟩, .stx ⟨.acqrel, .cluster, 4, 1, 0⟩, .loop 0 1, .teamM 0 (.imm 32),
    .atom .and .f32 rlx, .atom .incw .s32 rlx, .cas .f32 rlx, .red .swap .n32 rlx, .red .decw .n32 rlx, .red .add .n32 { rlx with d := 1 }, .red .add .n32 acq, .fence ⟨.rlx, .task⟩, .barinit acq,
    .barwait { rlx with ord := .rel }, .bartest { rlx with ord := .rel }, .waitc true .eq { rlx with ord := .acqrel }] = true := by decide
theorem test_ill_formed_units : ill [.mcfgA 2, .mcfgB 6, .madpt 1, .ringdef 0 3, .mloopr false false 0 false 0 0 5, .mloopr true false 0 false 0 1 5, .mloopr false true 0 false 1 0 5, .mstt .l96x64 0 0 0,
    .mdrain 0 false 1 0 (some 1), .qpush 1 2 3, .qinsd 1 2 3, .qrange 1 2 6, .qpopb 1 (.imm 1), .qpopb 4 (.imm 4096), .qstat 1 (.imm 4096), .msgpop 4 (.imm 1), .msgpop 8 (.imm 1024), .msgpeek 4 (.imm 1),
    .esel 0 0 0 0 6, .ecvt 0 0 5 0, .ecvt 0 0 0 13, .eldc 0 3 0, .est 0 0 0 0 3, .est 0 3 0 0 0, .est 0 0 5 0 0, .est 0 0 0 14 0, .est 0 1 0 0 1, .est 0 1 0 6 0] = true := by decide
theorem test_ill_formed_arithmetic : ill [.viadd ⟨gN, .s32, false, 1, v 1, vl 2⟩, .visub ⟨gUp, .s32, false, 1, v 1, vl 2⟩, .vimul ⟨⟨true, 0, true⟩, .s32, false, 1, v 1, vl 2⟩, .vimulh ⟨gA, .s32, true, 1, v 1, vl 2⟩,
    .vimin ⟨gA, .s32, true, 1, v 1, vl 2⟩, .vimax ⟨gA, .s32, true, 1, v 1, vl 2⟩, .vimad ⟨gN, .s32, true, 1, v 1, v 2, vl 2⟩, .viabs true ⟨gN, 1, v 1⟩, .vnot ⟨gN, 1, v 1⟩, .vclz ⟨gUp, 1, v 1⟩, .vpopc ⟨gN, 1, v 1⟩,
    .vand ⟨gN, 1, v 1, vl 2⟩, .vor ⟨gN, 1, v 1, vl 2⟩, .vxor ⟨gN, 1, v 1, vl 2⟩, .vshl ⟨gN, 1, v 1, vl 2⟩, .vshr ⟨gN, 1, v 1, vl 2⟩, .vsar ⟨gN, 1, v 1, vl 2⟩, .viset gN .s32 .eq 1 (v 1) (vl 2),
    .vfadd ⟨gA, .f32, 4, 1, v 1, vl 2⟩, .vfsub ⟨gA, .f32, 5, 1, v 1, vl 2⟩, .vfmul ⟨gA, .f32, 6, 1, v 1, vl 2⟩, .vffma ⟨gA, .f32, 5, 1, v 1, v 2, vl 2⟩, .vfmin ⟨gA, .f32, 1, 1, v 1, vl 2⟩, .vfmax ⟨gA, .f32, 7, 1, v 1, vl 2⟩,
    .vfsgn gA .f32 3 1 (v 1) (v 2), .vfset gN 0 1 (v 1) (vl 2), .vrcp .f32 4 ⟨gA, 1, v 1⟩, .vrsq .f32 5 ⟨gA, 1, v 1⟩, .vexp2 .f32 ⟨gN, 1, v 1⟩, .vlog2 .f32 ⟨gN, 1, v 1⟩, .vfclass .f32 ⟨gN, 1, v 1⟩] = true := by decide
theorem test_ill_formed_conversion : ill [.vcvt 7 0 0 ⟨gA, 1, v 1⟩, .vcvt 0 7 0 ⟨gA, 1, v 1⟩, .vcvt 0 1 6 ⟨gA, 1, v 1⟩, .vcvt 0 1 5 ⟨gA, 1, v 1⟩, .vcvt 3 3 0 ⟨gA, 1, v 1⟩, .vcvt 0 1 0 ⟨gN, 1, v 1⟩, .vcvtSeed gN (vl 1),
    .vqpack ⟨gA, 12, 0, 1, v 2, none, none⟩, .vqpack ⟨gA, 0, 6, 1, v 2, none, none⟩, .vqpack ⟨gA, 0, 0, 1, v 2, some ⟨3, true⟩, none⟩, .vqunpk ⟨gN, 0, 0, 1, v 2, none, none⟩, .vqunpk ⟨gA, 0, 5, 1, v 2, none, none⟩, .vmov gN 1 (vl 1), .vsel gN 1 1 (v 1) (vl 1),
    .vlid gA 3 1, .vlid gU 0 1, .vplog gA .and 8 (v 1) 0, .vplog gA .and 1 (v 8) 0, .vplog gA .xor 1 ⟨1, true⟩ 0, .vplog gA .not 1 (v 1) 1, .vplog gA .set 1 (v 1) 0, .vplog gA .clr 1 (v 0) 1, .vplog gA .fromv 8 (v 1) 0,
    .vplog gA .tov 9 (v 8) 0, .vfmt 3 (vl 1), .vvote gU .any .v 1 1, .vvote gA .any .q 1 1, .vshfl gA .xor 0 1 (v 1) (vl 1), .vshfl gU .xor 1 1 (v 1) (vl 1), .vtred gA .addS 11 1 (v 1), .vtscan gU .addS 1 false 1 (v 1)] = true := by decide
theorem test_ill_formed_lane_memory : ill [.vld { ldv .n8 with g := gU }, .vld { ldv .n8 with m := { la 0 none with ord := .rel } }, .vst (stv .s8 1), .vst { stv .n8 1 with m := { la 0 none with ord := .acq } }, .vst { stv .n8 1 with g := gU },
    .vldg (ldv .n8), .vldg { ldv .n8 with g := gU, m := la 0 (some (v 1)) }, .vstg (stv .n8 1), .vstg { stv .s16 1 with m := la 0 (some (v 1)) }, .vldu (ldv .n8), .vldu { ldv .n8 with m := la 0 (some (v 1)) },
    .vpref gU false (la 0 none), .vpref gA false { la 0 none with ord := .acq }, .vpref gA false { la 0 none with scope := .task }, .vldq (ldv .n32), .vldq { ldv .n8 with ua := true }, .vstq (stv .n32 1), .vstq { stv .n8 1 with ua := true },
    .vatom (atv .f32 .and), .vatom { atv .n32 .add with g := gN }, .vcas (atv .n32 .add), .vcas (atv .f32 .swap), .vred { atv .n32 .add with d := 1 }, .vred { atv .n32 .swap with d := 0 },
    .vred { atv .n32 .add with d := 0, m := { la 0 none with ord := .acq } }, .vfence ⟨.rlx, .task⟩, .vbararr gU false 0 0 .rlx .cluster] = true := by decide

end Sys2Proof.Tests
end

section
/-! O51: the registers of PF0, of a VF and of BAR2 (R4, R339 to R344, R361, R363). -/

namespace Sys2Proof.Machine

/-! Fields of a number: 64-bit words of an ingress entry. -/

theorem bitsOf_land (a b hi lo : Nat) : bitsOf (Nat.land a b) hi lo = Nat.land (bitsOf a hi lo) (bitsOf b hi lo) := by
  change (a &&& b) / 2 ^ lo % 2 ^ (hi + 1 - lo) = a / 2 ^ lo % 2 ^ (hi + 1 - lo) &&& b / 2 ^ lo % 2 ^ (hi + 1 - lo)
  rw [Nat.and_div_two_pow, Nat.and_mod_two_pow]

theorem bitsOf_word (x j : Nat) : bitsOf x (64 * j + 63) (64 * j) = x / 2 ^ (64 * j) % 2 ^ 64 := by
  rw [bitsOf, show 64 * j + 63 + 1 - 64 * j = 64 by omega]

/-- A word written into an entry is read back: the old word is taken out, then the new one stands alone in its 64 bits. -/
theorem bitsOf_putWord64 (old j v : Nat) : bitsOf (putWord64 old j v) (64 * j + 63) (64 * j) = v % 2 ^ 64 := by
  have hpos : 0 < 2 ^ (64 * j) := Nat.two_pow_pos _
  have hold : (old - old / 2 ^ (64 * j) % 2 ^ 64 * 2 ^ (64 * j)) / 2 ^ (64 * j) = old / 2 ^ (64 * j) - old / 2 ^ (64 * j) % 2 ^ 64 := by
    rw [Nat.mul_comm, Nat.sub_mul_div]
  rw [bitsOf_word, putWord64, bitsOf_word, Nat.add_mul_div_right _ _ hpos, hold]
  omega

/-! Writes to PF0 (R344, R363). -/

theorem exec_registerWrite_pf {s : State} (h : hostUp s = true) (off v : Nat) :
    exec (.registerWrite .pf0 .pf off v) s = .next (pfWrite s off v) := by
  change execRegisterWrite .pf0 .pf off v s = _
  simp [execRegisterWrite, h]

/-- PF.ROUTEk. -/
theorem pfWrite_route (s : State) {k : Nat} (hk : k < 255) (v : Nat) :
    pfWrite s (0x1000 + 8 * k) v = { s with pf := { s.pf with route := smSet s.pf.route k (v % 2 ^ 12) } } := by
  have hk' : (0x1000 + 8 * k - 0x1000) / 8 = k := by omega
  have hin : 0x1000 ≤ 0x1000 + 8 * k ∧ 0x1000 + 8 * k < 0x1000 + 8 * 255 := by omega
  unfold pfWrite
  iterate 6 rw [if_neg (by omega)]
  rw [if_pos hin, hk']

/-- Word k % 4 of PF.INGRESS(k / 4): the word is put in its place, and reserved bits fall away. -/
theorem pfWrite_ingress (s : State) {k : Nat} (hk : k < 256) (v : Nat) :
    pfWrite s (0x2000 + 8 * k) v = { s with pf := { s.pf with
      ingress := smSet s.pf.ingress (k / 4) (Nat.land (putWord64 (smGet 0 s.pf.ingress (k / 4)) (k % 4) v) ingressMask) } } := by
  have hentry : (0x2000 + 8 * k - 0x2000) / 32 = k / 4 := by omega
  have hword : (0x2000 + 8 * k - 0x2000) % 32 / 8 = k % 4 := by omega
  have hin : 0x2000 ≤ 0x2000 + 8 * k ∧ 0x2000 + 8 * k < 0x2000 + 32 * 64 := by omega
  unfold pfWrite
  iterate 7 rw [if_neg (by omega)]
  rw [if_pos hin]
  simp only [hentry, hword]

/-- R363: registers that only the device writes ignore a write. -/
theorem pfWrite_readOnly (s : State) (v : Nat) {o : Nat} (ho : o ∈ [0x00, 0x08, 0x30, 0x38, 0x40]) : pfWrite s o v = s := by
  have hlow : o < 0x1000 ∧ o ≠ 0x10 ∧ o ≠ 0x18 ∧ o ≠ 0x20 ∧ o ≠ 0x28 ∧ o ≠ 0x48 ∧ o ≠ 0x50 := by
    simp only [List.mem_cons, List.not_mem_nil, or_false] at ho; omega
  obtain ⟨hlt, h10, h18, h20, h28, h48, h50⟩ := hlow
  simp only [pfWrite, h10, h18, h20, h28, h48, h50, if_false]
  rw [if_neg (by omega), if_neg (by omega)]

/-- Log 142: the partition is resized only while it holds no host line. -/
theorem pfWrite_hcpkb_empty {s : State} (h : s.part = []) (v : Nat) : pfWrite s 0x10 v = { s with pf := { s.pf with hcpkb := min 85 (v % 2 ^ 7) } } := by
  simp [pfWrite, h]

theorem pfWrite_hcpkb_held {s : State} (h : s.part ≠ []) (v : Nat) : pfWrite s 0x10 v = s := by
  simp [pfWrite, h]

/-! Reads of PF0. -/

/-- Beyond ECCCNT only the tables of ports and ingress entries stand. -/
theorem pfRead_beyond (s : State) {off : Nat} (h : 0x50 < off) :
    pfRead s off =
      if 0x1000 ≤ off ∧ off < 0x1000 + 8 * 255 then smGet 0 s.pf.route ((off - 0x1000) / 8)
      else if 0x2000 ≤ off ∧ off < 0x2000 + 32 * 64 then
        bitsOf (smGet 0 s.pf.ingress ((off - 0x2000) / 32)) (64 * ((off - 0x2000) % 32 / 8) + 63) (64 * ((off - 0x2000) % 32 / 8))
      else 0 := by
  unfold pfRead
  split
  case h_12 => rfl
  all_goals omega

theorem pfRead_route (s : State) {k : Nat} (hk : k < 255) : pfRead s (0x1000 + 8 * k) = smGet 0 s.pf.route k := by
  rw [pfRead_beyond s (by omega), if_pos (by omega), show (0x1000 + 8 * k - 0x1000) / 8 = k by omega]

theorem pfRead_ingress (s : State) {k : Nat} (hk : k < 256) :
    pfRead s (0x2000 + 8 * k) = bitsOf (smGet 0 s.pf.ingress (k / 4)) (64 * (k % 4) + 63) (64 * (k % 4)) := by
  rw [pfRead_beyond s (by omega), if_neg (by omega), if_pos (by omega), show (0x2000 + 8 * k - 0x2000) / 32 = k / 4 by omega,
    show (0x2000 + 8 * k - 0x2000) % 32 / 8 = k % 4 by omega]

/-- R4. -/
theorem pfRead_reserved (s : State) {off : Nat} (hlo : 0x50 < off) (hhi : off < 0x1000) : pfRead s off = 0 := by
  rw [pfRead_beyond s hlo, if_neg (by omega), if_neg (by omega)]

/-! What is written to a table of PF0 reads back, and the other entries stay. -/

theorem pfRead_pfWrite_route (s : State) {k : Nat} (hk : k < 255) (v : Nat) {j : Nat} (hj : j < 255) :
    pfRead (pfWrite s (0x1000 + 8 * k) v) (0x1000 + 8 * j) = if j = k then v % 2 ^ 12 else pfRead s (0x1000 + 8 * j) := by
  rw [pfWrite_route s hk, pfRead_route _ hj, pfRead_route _ hj]
  exact smGet_smSet ..

theorem pfRead_pfWrite_ingress (s : State) {k : Nat} (hk : k < 256) (v : Nat) :
    pfRead (pfWrite s (0x2000 + 8 * k) v) (0x2000 + 8 * k) = Nat.land (v % 2 ^ 64) (ingressMask / 2 ^ (64 * (k % 4)) % 2 ^ 64) := by
  rw [pfWrite_ingress s hk, pfRead_ingress _ hk, smGet_smSet_self, bitsOf_land, bitsOf_putWord64, bitsOf_word]

/-! Reads of a VF's block (R339, R340): a shoot-down that is over changes BUSY and the generation only. -/

theorem tenant_settleShoot (s : State) (n : Nat) :
    ∃ busy gen, (settleShoot s n).tenant n = { s.tenant n with xtbusy := busy, xtgen := gen } := by
  simp only [settleShoot]
  split
  · exact ⟨false, (s.tenant n).xtnew, by rw [tenant_setTenant, if_pos rfl]⟩
  · exact ⟨(s.tenant n).xtbusy, (s.tenant n).xtgen, rfl⟩

theorem vfRead_root (s : State) (n : Nat) : vfRead s n 0x08 = (s.tenant n).root.toNat := by
  obtain ⟨busy, gen, h⟩ := tenant_settleShoot s n
  simp only [vfRead, h]

theorem vfRead_err (s : State) (n : Nat) : vfRead s n 0x40 = (s.tenant n).err := by
  obtain ⟨busy, gen, h⟩ := tenant_settleShoot s n
  simp only [vfRead, h]

theorem vfRead_ctl (s : State) (n : Nat) : vfRead s n 0x30 = (if (s.tenant n).enable then 1 else 0) + (if (s.tenant n).done then 2 else 0) := by
  obtain ⟨busy, gen, h⟩ := tenant_settleShoot s n
  simp only [vfRead, h]

theorem vfRead_beyond (s : State) (n : Nat) {off : Nat} (h : 0x68 < off) : vfRead s n off = 0 := by
  unfold vfRead
  split
  case h_14 => rfl
  all_goals omega

/-! Reads of BAR2: a block beyond COUNT of its window reads as zero. -/

theorem bar2Read_queue_beyond (s : State) (n : Nat) {off : Nat} (hcount : bitsOf (s.tenant n).qwin 44 32 ≤ off / 64) (hoff : off < 0x40000) :
    bar2Read s n off = 0 := by
  have hout : ¬ off / 64 < bitsOf (s.tenant n).qwin 44 32 := by omega
  simp [bar2Read, hoff, hout]

theorem bar2Read_ring_beyond (s : State) (n : Nat) {off : Nat} (hcount : bitsOf (s.tenant n).mwin 42 32 ≤ (off - 0x40000) / 64) (hoff : 0x40000 ≤ off) :
    bar2Read s n off = 0 := by
  have hring : ¬ off < 0x40000 := by omega
  have hout : ¬ (off - 0x40000) / 64 < bitsOf (s.tenant n).mwin 42 32 := by omega
  simp [bar2Read, hring, hout]

end Sys2Proof.Machine

open Sys2Proof Sys2Proof.Machine

/-- Settles O51: each write goes through `exec_registerWrite_pf` to its register's equation of `pfWrite`; a table's entry is read back by the laws
of sparse maps, an ingress word by `bitsOf_putWord64`. -/
theorem functionRegistersTakeAndGiveTheirFields : Obligations.FunctionRegistersTakeAndGiveTheirFields := by
  intro s n off v k
  refine ⟨fun hup => ?_, rfl, rfl, rfl, rfl, rfl, fun hlo hhi => pfRead_reserved s hlo hhi, rfl, vfRead_root s n, rfl, vfRead_err s n, vfRead_ctl s n,
    rfl, fun h => vfRead_beyond s n h, bar2Read_queue_beyond s n, bar2Read_ring_beyond s n⟩
  have hexec := fun o => exec_registerWrite_pf hup o v
  refine ⟨fun hpart => ⟨_, hexec _, pfWrite_hcpkb_empty hpart v⟩, fun hpart => (hexec _).trans (congrArg _ (pfWrite_hcpkb_held hpart v)),
    ⟨_, hexec _, rfl⟩, ⟨_, hexec _, rfl⟩, ⟨_, hexec _, rfl⟩, ⟨_, hexec _, rfl⟩, ⟨_, hexec _, rfl⟩,
    fun o ho => (hexec o).trans (congrArg _ (pfWrite_readOnly s v ho)), fun hk => ⟨_, hexec _, ?_, ?_, ?_⟩, fun hk => ⟨_, hexec _, ?_, ?_⟩⟩
  · rw [pfWrite_route s hk]
  · exact (pfRead_pfWrite_route s hk v hk).trans (if_pos rfl)
  · exact fun j hj hne => (pfRead_pfWrite_route s hk v hj).trans (if_neg hne)
  · rw [pfWrite_ingress s hk]
  · exact pfRead_pfWrite_ingress s hk v
end

section
/-! O57, O58: the words of the ISA, decoded and encoded (R32 to R35, R40, R42, R45, R46, R99, R205). -/

namespace Sys2Proof

/-! Fields of a word made of parts. The model gives `++` the word's width as a literal, which the library's rules for `++`, stated for a sum of
widths, do not match: the rules here are about `BitVec.append`, and a proof that uses them unfolds `HAppend.hAppend` to it. -/

@[simp] theorem extractLsb'_append_low {m n lo k : Nat} (a : BitVec m) (b : BitVec n) (h : lo + k ≤ n) :
    (BitVec.append a b).extractLsb' lo k = b.extractLsb' lo k := BitVec.extractLsb'_append_eq_of_add_le h

@[simp] theorem extractLsb'_append_high {m n lo k : Nat} (a : BitVec m) (b : BitVec n) (h : n ≤ lo) :
    (BitVec.append a b).extractLsb' lo k = a.extractLsb' (lo - n) k := BitVec.extractLsb'_append_eq_of_le h

theorem extractLsb'_eq_zero_iff {w : Nat} (x : BitVec w) (lo k : Nat) : x.extractLsb' lo k = 0#k ↔ ∀ i < k, x.getLsbD (lo + i) = false := by
  constructor
  · intro h i hi
    have hbit := congrArg (BitVec.getLsbD · i) h
    simpa [hi] using hbit
  · intro h
    ext i hi
    simpa using h i hi

/-- A field that lies across two parts is zero when its share of each is. -/
@[simp] theorem extractLsb'_append_zero {m n lo k : Nat} (a : BitVec m) (b : BitVec n) (h : lo < n ∧ n < lo + k) :
    (BitVec.append a b).extractLsb' lo k = 0#k ↔ a.extractLsb' 0 (lo + k - n) = 0#_ ∧ b.extractLsb' lo (n - lo) = 0#_ := by
  obtain ⟨hlo, hhi⟩ := h
  simp only [extractLsb'_eq_zero_iff, BitVec.append_eq, BitVec.getLsbD_append, Nat.zero_add]
  constructor
  · intro hx
    refine ⟨fun i hi => ?_, fun i hi => ?_⟩
    · have := hx (n - lo + i) (by omega)
      rwa [if_neg (by omega), show lo + (n - lo + i) - n = i by omega] at this
    · have := hx i (by omega)
      rwa [if_pos (by omega)] at this
  · rintro ⟨ha, hb⟩ i hi
    split
    · exact hb i (by omega)
    · exact ha _ (by omega)

@[simp] theorem ofBit1_bit1 (b : Bool) : ofBit1 (bit1 b) = b := by cases b <;> rfl

@[simp] theorem bit1_false : bit1 false = 0#1 := rfl
@[simp] theorem ofBit1_zero : ofBit1 0#1 = false := rfl
@[simp] theorem ofBit1_one : ofBit1 1#1 = true := rfl

/-- What a register field holds that names a predicate (R38). -/
theorem toNat_zero_append_lt {n : Nat} (p : BitVec 3) : (BitVec.append 0#n p).toNat < 8 := by
  simpa using p.isLt

@[simp] theorem keep_true {α : Type} (x : α) : keep true x = some x := rfl

/-! The three word formats (R32, R35, R205). -/

@[simp] theorem GWord.ofWord_word (g : GWord) : GWord.ofWord g.word = g := by
  simp [GWord.ofWord, GWord.word, HAppend.hAppend, -BitVec.append_eq]

@[simp] theorem LWord.ofWord_word (l : LWord) : LWord.ofWord l.word = l := by
  simp [LWord.ofWord, LWord.word, HAppend.hAppend, -BitVec.append_eq]

@[simp] theorem EWord.ofWord_word (e : EWord) : EWord.ofWord e.word = e := by
  simp [EWord.ofWord, EWord.word, HAppend.hAppend, -BitVec.append_eq]

@[simp] theorem isLaneClass_gword (g : GWord) : isLaneClass g.word = false := by
  simp [isLaneClass, GWord.word, HAppend.hAppend, -BitVec.append_eq]

@[simp] theorem isLaneClass_lword (l : LWord) : isLaneClass l.word = true := by
  simp [isLaneClass, LWord.word, HAppend.hAppend, -BitVec.append_eq]

@[simp] theorem wOp_lword (l : LWord) : wOp l.word = l.op := by
  simp [wOp, LWord.word, HAppend.hAppend, -BitVec.append_eq]

/-! Codes of the enumerations. -/

@[simp] theorem MOrd.ofCode_code (o : MOrd) : MOrd.ofCode o.code = some o := by cases o <;> rfl
@[simp] theorem Scope.ofCode_code (s : Scope) : Scope.ofCode s.code = s := by cases s <;> rfl
@[simp] theorem LdTy.ofCode_code (t : LdTy) : LdTy.ofCode t.code = some t := by cases t <;> rfl
@[simp] theorem ATy.ofCode_code (t : ATy) : ATy.ofCode t.code = some t := by cases t <;> rfl
@[simp] theorem AOp.ofCode_code (o : AOp) : AOp.ofCode o.code = some o := by cases o <;> rfl
@[simp] theorem AOp.code_mod_64 (o : AOp) : o.code % 64 = o.code := by cases o <;> rfl
@[simp] theorem AOp.code_mod_16 (o : AOp) : o.code % 16 = o.code := by cases o <;> rfl
@[simp] theorem BCond.ofCode_code (c : BCond) : BCond.ofCode c.code = some c := by cases c <;> rfl
@[simp] theorem WCond.ofCode_code (c : WCond) : WCond.ofCode c.code = some c := by cases c <;> rfl
@[simp] theorem HoleKind.ofCode_code (k : HoleKind) : HoleKind.ofCode k.code = some k := by cases k <;> rfl
@[simp] theorem TLay.ofCode_code (l : TLay) : TLay.ofCode l.code = some l := by cases l <;> rfl
@[simp] theorem ITy.ofBit_bit (t : ITy) : ITy.ofBit t.bit = t := by cases t <;> rfl
@[simp] theorem ICc.ofCode_code (c : ICc) : ICc.ofCode c.code = some c := by cases c <;> rfl
@[simp] theorem FTy.ofCode_code (t : FTy) : FTy.ofCode t.code = some t := by cases t <;> rfl
@[simp] theorem LTy.ofCode_code (t : LTy) : LTy.ofCode t.code = some t := by cases t <;> rfl
@[simp] theorem Cp.ofCode_code (c : Cp) : Cp.ofCode c.code = some c := by cases c <;> rfl
@[simp] theorem VoteDest.ofCode_code (d : VoteDest) : VoteDest.ofCode d.code = some d := by cases d <;> rfl
@[simp] theorem VoteOp.ofCode_code (o : VoteOp) : VoteOp.ofCode o.code = some o := by cases o <;> rfl
@[simp] theorem ShMode.ofCode_code (m : ShMode) : ShMode.ofCode m.code = m := by cases m <;> rfl
@[simp] theorem RedOp.ofCode_code (o : RedOp) : RedOp.ofCode o.code = some o := by cases o <;> rfl
@[simp] theorem PlogOp.ofCode_code (o : PlogOp) : PlogOp.ofCode o.code = some o := by cases o <;> rfl

/-- The two bits of LD and ST have no code for acq_rel (R92). -/
theorem ord2_ord2Code {o : MOrd} (h : o ≠ .acqrel) : ord2 (ord2Code o) = o := by
  cases o with
  | acqrel => exact absurd rfl h
  | _ => rfl

theorem ne_acqrel_of_ordLoad {o : MOrd} (h : ordLoad o = true) : o ≠ .acqrel := by rintro rfl; cases h
theorem ne_acqrel_of_ordStore {o : MOrd} (h : ordStore o = true) : o ≠ .acqrel := by rintro rfl; cases h

/-- The minor of MTILE and MSTT in the engine's form has a layout code that names no layout (R194). -/
theorem TLay.code_append_ne_engine (l : TLay) (z : BitVec 3) : BitVec.append l.code z ≠ 56#6 := by
  intro h
  have hcode : l.code = 7#3 := by simpa [-BitVec.append_eq] using congrArg (BitVec.extractLsb' 3 3) h
  cases l <;> exact absurd hcode (by decide)

/-! The generator's readers. -/

/-- The fields of a word whose last source is in gb or imm34 (R32). -/
def GWord.src (maj : BitVec 7) (min : BitVec 6) (d a : GReg) : GSrc → GWord
  | .reg b => ⟨maj, min, d, a, b, 0, 0⟩
  | .imm v => ⟨maj, min, d, a, 0, 1, v⟩

theorem gEncS_eq (maj : BitVec 7) (min : BitVec 6) (d a : GReg) (b : GSrc) :
    gEncS maj min d a b = (GWord.src maj min d a b).word := by cases b <;> rfl

/-- The fields of a word that names a queue or ring in ga or imm34 (R264, R274). -/
def GWord.name (maj : BitVec 7) (d : GReg) : GSrc → GWord
  | .reg a => ⟨maj, 0, d, a, 0, 0, 0⟩
  | .imm v => ⟨maj, 0, d, 0, 0, 1, v⟩

theorem gEncN_eq (maj : BitVec 7) (d : GReg) (n : GSrc) : gEncN maj d n = (GWord.name maj d n).word := by cases n <;> rfl

@[simp] theorem GWord.src_fields (maj : BitVec 7) (min : BitVec 6) (d a : GReg) (b : GSrc) :
    (GWord.src maj min d a b).maj = maj ∧ (GWord.src maj min d a b).min = min ∧ (GWord.src maj min d a b).gd = d
      ∧ (GWord.src maj min d a b).ga = a := by cases b <;> exact ⟨rfl, rfl, rfl, rfl⟩

@[simp] theorem GWord.name_fields (maj : BitVec 7) (d : GReg) (n : GSrc) :
    (GWord.name maj d n).maj = maj ∧ (GWord.name maj d n).min = 0 ∧ (GWord.name maj d n).gd = d := by
  cases n <;> exact ⟨rfl, rfl, rfl⟩

@[simp] theorem gsrc_src (maj : BitVec 7) (min : BitVec 6) (d a : GReg) (b : GSrc) : gsrc (GWord.src maj min d a b) = some b := by
  cases b <;> rfl

theorem gsrcFits_src {n : Nat} {b : GSrc} (h : b.fits n = true) (maj : BitVec 7) (min : BitVec 6) (d a : GReg) :
    gsrcFits (GWord.src maj min d a b) n = some b := by simp [gsrcFits, h]

theorem nameSrc_name {n : Nat} {x : GSrc} (h : x.fits n = true) (maj : BitVec 7) (d : GReg) :
    nameSrc n (GWord.name maj d x) = some x := by
  cases x with
  | reg a => rfl
  | imm v =>
    have hlt : v.toNat < 2 ^ n := of_decide_eq_true h
    simp [nameSrc, GWord.name, hlt]

@[simp] theorem immLow_setWidth {n : Nat} (h : n ≤ 34) (maj : BitVec 7) (min : BitVec 6) (d a b : GReg) (i : BitVec 1) (v : BitVec n) :
    immLow ⟨maj, min, d, a, b, i, v.setWidth 34⟩ n = some v := by
  have hlt : v.toNat % 2 ^ 34 < 2 ^ n := Nat.lt_of_le_of_lt (Nat.mod_le _ _) v.isLt
  simp [immLow, hlt, BitVec.setWidth_setWidth_of_le _ h, -Nat.reducePow]

@[simp] theorem decodeWords_gword (g : GWord) (r : List W64) : decodeWords (g.word :: r) = decodeG g (r.headD 0#64) := by
  simp [decodeWords]

theorem ldF_fields {f : LdF} (h : f.ord ≠ .acqrel) (maj : BitVec 7) :
    ldF ⟨maj, 0#1 ++ (ord2Code f.ord ++ f.ty.code), f.r, f.a, 0#2 ++ f.scope.code, 1#1, f.disp⟩ = some f := by
  simp [ldF, ord2_ord2Code h, HAppend.hAppend, -BitVec.append_eq]

theorem ldxF_fields {f : LdxF} (h : f.ord ≠ .acqrel) (hq : quadOk f.r = true) (maj : BitVec 7) :
    ldxF ⟨maj, 0#1 ++ (ord2Code f.ord ++ 0#3), f.r, f.a, 0#2 ++ f.scope.code, 1#1, f.disp⟩ = some f := by
  have hf := ldF_fields (f := ⟨.n8, f.ord, f.scope, f.r, f.a, f.disp⟩) h maj
  simp only [LdTy.code, BitVec.ofNat_eq_ofNat] at hf
  simp [ldxF, hf, hq]

/-- The fields of the layout of R162. -/
def GWord.at (maj : BitVec 7) (op : BitVec 6) (ty : BitVec 3) (f : AtF) : GWord :=
  ⟨maj, op, f.d, f.a, f.b, 0, f.ord.code ++ (f.scope.code ++ (ty ++ (0#5 ++ f.disp)))⟩

theorem encAt_eq (maj : BitVec 7) (op : BitVec 6) (ty : BitVec 3) (f : AtF) : encAt maj op ty f = (GWord.at maj op ty f).word := rfl
@[simp] theorem GWord.at_maj (maj : BitVec 7) (op : BitVec 6) (ty : BitVec 3) (f : AtF) : (GWord.at maj op ty f).maj = maj := rfl
@[simp] theorem GWord.at_min (maj : BitVec 7) (op : BitVec 6) (ty : BitVec 3) (f : AtF) : (GWord.at maj op ty f).min = op := rfl
@[simp] theorem atF_at (maj : BitVec 7) (op : BitVec 6) (ty : BitVec 3) (f : AtF) : atF (GWord.at maj op ty f) = some f := by
  simp [atF, GWord.at, HAppend.hAppend, -BitVec.append_eq]
@[simp] theorem atTy_at (maj : BitVec 7) (op : BitVec 6) (ty : BitVec 3) (f : AtF) : atTy (GWord.at maj op ty f) = ty := by
  simp [atTy, GWord.at, HAppend.hAppend, -BitVec.append_eq]

/-- What decoding an instruction's words gives: the register that picks the form of MIGOP and DBGOP is not in the word (R298, R303). -/
@[simp] def firstForm : Instr → Instr
  | .migopComplete d a b => .migopClaim d a b
  | .haltHard d a b | .resume d a b | .dbgopStatus d a b => .haltSoft d a b
  | i => i

/-! What the readers of one field find. -/

@[simp] theorem noFields_zero (maj : BitVec 7) (min : BitVec 6) : noFields ⟨maj, min, 0#5, 0#5, 0#5, 0#1, 0#34⟩ = true := rfl
@[simp] theorem noB_zero (maj : BitVec 7) (min : BitVec 6) (d a : GReg) : noB ⟨maj, min, d, a, 0#5, 0#1, 0#34⟩ = true := rfl
@[simp] theorem regForm_zero (maj : BitVec 7) (min : BitVec 6) (d a b : GReg) : regForm ⟨maj, min, d, a, b, 0#1, 0#34⟩ = true := rfl
@[simp] theorem immForm_one (maj : BitVec 7) (min : BitVec 6) (d a : GReg) (v : BitVec 34) : immForm ⟨maj, min, d, a, 0#5, 1#1, v⟩ = true := rfl
@[simp] theorem rakeOf_setWidth (maj : BitVec 7) (min : BitVec 6) (d a : GReg) (r : BitVec 6) :
    rakeOf ⟨maj, min, d, a, 0#5, 1#1, r.setWidth 34⟩ = some r := by simp [rakeOf]

@[simp] theorem decodeWords_gEnc (maj : BitVec 7) (min : BitVec 6) (d a b : GReg) (i : BitVec 1) (imm : BitVec 34) (r : List W64) :
    decodeWords (gEnc maj min d a b i imm :: r) = decodeG ⟨maj, min, d, a, b, i, imm⟩ (r.headD 0#64) := decodeWords_gword _ r

@[simp] theorem decodeWords_gEncImm (maj : BitVec 7) (min : BitVec 6) (d a : GReg) (v : BitVec 34) :
    decodeWords [gEncImm maj min d a v] = decodeG ⟨maj, min, d, a, 0#5, 1#1, v⟩ 0#64 := decodeWords_gword _ []

@[simp] theorem decodeWords_gEncS (maj : BitVec 7) (min : BitVec 6) (d a : GReg) (b : GSrc) :
    decodeWords [gEncS maj min d a b] = decodeG (GWord.src maj min d a b) 0#64 := by simp [gEncS_eq]

@[simp] theorem decodeWords_gEncN (maj : BitVec 7) (d : GReg) (n : GSrc) :
    decodeWords [gEncN maj d n] = decodeG (GWord.name maj d n) 0#64 := by simp [gEncN_eq]

@[simp] theorem decodeWords_encAt (maj : BitVec 7) (op : BitVec 6) (ty : BitVec 3) (f : AtF) :
    decodeWords [encAt maj op ty f] = decodeG (GWord.at maj op ty f) 0#64 := by simp [encAt_eq]

/-- R32 to R34: the cases are the rows of the opcode map. -/
theorem decodeWords_encodeG {i : Instr} {ws : List W64} (hwf : i.wf = true) (henc : encodeG i = some ws) :
    decodeWords ws = some (firstForm i) := by
  cases i with
  | add d a b | sub d a b | mul d a b | mulh d a b | mulhn d a b | div d a b | divn d a b | rem d a b | remn d a b | and d a b
  | or d a b | xor d a b | shl d a b | shr d a b | sar d a b | min d a b | max d a b | minn d a b | maxn d a b | seq d a b
  | slt d a b | sltn d a b | sel d a b =>
    cases henc
    simp [decodeG, decRow0, decRow1, dAlu]
  | clz d a | popc d a | jr d a | spcomp d a | spcfg d a | unsub d a | svstrm d a =>
    cases henc
    simp [decodeG, decRow1, decRow2, decRow5, decRow6, decRow7, dJr, dSpcomp, dSpcfg, dUnsub, dSvstrm, dUn]
  | nop | ret | endS | drain | thint | tdone | yield | barfl =>
    cases henc
    simp [decodeG, decRow0, decRow2, decRow3, decRow6, decRow7, dRet, dEnd, dDrain, dThint, dTdone, dYield, dBarfl]
  | tspawn d a b | msgrst d a b =>
    cases henc
    simp [decodeG, decRow6, decRow7, dTri]
  | qpush d a q | qinsd d a q | qrange d a q =>
    cases henc
    have hq : quadOk q = true := hwf
    simp [decodeG, decRow6, decRow7, dPush, hq]
  | li d v => cases henc; simp [decodeG, decRow1, dLi]
  | csrr d n | csrw n a | csrwSet d n a | csrwClr d n a =>
    cases henc
    simp [decodeG, decRow1, dCsrr, dCsrw]
  | ld f =>
    cases henc
    have ho : ordLoad f.ord = true := hwf
    simp [encLd, decodeG, decRow2, dLd, ldF_fields (ne_acqrel_of_ordLoad ho), ho]
  | st f =>
    cases henc
    obtain ⟨ho, ht⟩ : ordStore f.ord = true ∧ f.ty.storable = true := by simpa [Instr.wf] using hwf
    simp [encLd, decodeG, decRow2, dSt, ldF_fields (ne_acqrel_of_ordStore ho), ho, ht]
  | ldx f =>
    cases henc
    obtain ⟨ho, hq⟩ : ordLoad f.ord = true ∧ quadOk f.r = true := by simpa [Instr.wf] using hwf
    simp [encLdx, decodeG, decRow2, dLdx, ldxF_fields (ne_acqrel_of_ordLoad ho) hq, ho]
  | stx f =>
    cases henc
    obtain ⟨ho, hq⟩ : ordStore f.ord = true ∧ quadOk f.r = true := by simpa [Instr.wf] using hwf
    simp [encLdx, decodeG, decRow2, dStx, ldxF_fields (ne_acqrel_of_ordStore ho) hq, ho]
  | b o | bc c a b o | call o => cases henc; simp [decodeG, decRow2, dB, dBc, dCall]
  | loop d o =>
    cases henc
    have hd : (d == 0#5) = false := by simpa [Instr.wf] using hwf
    simp [decodeG, decRow2, dLoop, hd]
  | teamN n => cases n <;> (cases henc; simp [decodeG, decRow3, dTeam])
  | teamM a n =>
    cases henc
    simp [decodeG, decRow3, dTeam, gsrcFits_src (show n.fits 5 = true from hwf)]
  | qset c a | beginS r | replay r a | replayi r a | dropS r | dropSAll =>
    cases henc
    simp [decodeG, decRow3, dQset, dBegin, dReplay, dReplayi, dDrop]
  | hole k kd v =>
    cases v <;> (cases henc; simp [decodeG, decRow3, dHole, HAppend.hAppend, -BitVec.append_eq])
  | mcastOff | mcastOn | mcastRecv => cases henc; simp [decodeG, decRow3, dMcast]
  | vqpop d | vqtry d => cases henc; simp [decodeG, decRow3, dVqpop, dVqtry]
  | atom op ty f =>
    cases henc
    simp [decodeG, decRow4, dAtom, show atomOk false op ty = true from hwf]
  | cas ty f => cases henc; simp [decodeG, decRow4, dCas, show ty.isInt = true from hwf]
  | red op ty f =>
    cases henc
    obtain ⟨⟨hop, ho⟩, hd⟩ : (atomOk true op ty = true ∧ ordStore f.ord = true) ∧ f.d = 0#5 := by simpa [Instr.wf] using hwf
    simp [decodeG, decRow4, dRed, hop, ho, hd]
  | fence f =>
    cases henc
    simp [decodeG, decRow4, dFence, show ordFence f.ord = true from hwf, HAppend.hAppend, -BitVec.append_eq]
  | semacq d s n | semrel d s n | semtry d s n =>
    cases henc
    simp [decodeG, decRow4, dSem, gsrcFits_src (show n.fits 32 = true from hwf)]
  | semset s a | semget d s => cases henc; simp [decodeG, decRow4, dSemset, dSemget]
  | bararr f => cases henc; simp [decodeG, decRow4, dBar]
  | barinit f => cases henc; simp [decodeG, decRow4, dBar, show ordStore f.ord = true from hwf]
  | barwait f | bartest f =>
    cases henc
    simp [decodeG, decRow4, dBar, show ordLoad f.ord = true from hwf]
  | waitc w cc f =>
    cases henc
    cases w <;> simp [decodeG, decRow4, dWaitc, show ordLoad f.ord = true from hwf]
  | tryw d t => cases henc; simp [decodeG, decRow4, dTryw]
  | mcfgA q | mcfgB q | madpt q | ringdef h q =>
    cases henc
    simp [decodeG, decRow5, decRow6, dMcfg, dMadpt, dRingdef, show quadOk q = true from hwf]
  | mcfgResume | mcfgAbandon | madptOff | mwait | mwaitStop | mwaitTile z | spinvAll | spinv a | mzero m | mprog a b =>
    cases henc
    simp [decodeG, decRow5, dMcfg, dMadpt, dMwait, dSpinv, dMzero, dMprog]
  | mloop z adp a => cases henc; simp [decodeG, decRow5, dMloop, HAppend.hAppend, -BitVec.append_eq]
  | mloopr ra rb z adp ha hb a =>
    cases henc
    have hk : ((ra || rb) && (ra || ha == 0#4) && (rb || hb == 0#4)) = true := hwf
    simp [decodeG, decRow5, dMloopr, hk, HAppend.hAppend, -BitVec.append_eq]
  | mtile l z a b =>
    cases henc
    simp [decodeG, decRow5, dMtile, TLay.code_append_ne_engine, HAppend.hAppend, -BitVec.append_eq]
  | mstt l z a b =>
    cases henc
    simp [decodeG, decRow5, dMstt, show (l == .l32x192 || l == .w48) = true from hwf, TLay.code_append_ne_engine, HAppend.hAppend, -BitVec.append_eq]
  | mtileEng a | msttEng a => cases henc; simp [decodeG, decRow5, dMtile, dMstt]
  | mdrain z c a b ring =>
    cases ring with
    | none => cases henc; simp [decodeG, decRow5, dMdrain, HAppend.hAppend, -BitVec.append_eq]
    | some h =>
      cases henc
      obtain ⟨rfl, rfl⟩ : a = 0#5 ∧ b = 0#5 := by simpa [Instr.wf] using hwf
      simp [decodeG, decRow5, dMdrain, HAppend.hAppend, -BitVec.append_eq]
  | mmovt t w z v => cases henc; simp [decodeG, decRow5, dMmovt, HAppend.hAppend, -BitVec.append_eq]
  | spxWait d z a | spxFb d z a | spqry d a | spqryWord d a b =>
    cases henc
    simp [decodeG, decRow5, dSpx, dSpqry]
  | ctpl x a | ringdefOff h => cases henc; simp [decodeG, decRow6, dCtpl, dRingdef]
  | ringdefShare h c hs => cases henc; simp [decodeG, decRow6, dRingdef, HAppend.hAppend, -BitVec.append_eq]
  | rtag d h a | rtagCas d h a b | rwait d h a b | chst d c | chresRetry d c | chresAbort d c | subsFill d h a | subsStore d h a
  | subk d h a =>
    cases henc
    simp [decodeG, decRow6, dRtag, dRwait, dChst, dChres, dSubs, dSubk, HAppend.hAppend, -BitVec.append_eq]
  | chdrain d n => cases henc; simp [decodeG, decRow6, dChdrain]
  | twaitp k | twaitpAll => cases henc; simp [decodeG, decRow6, dTwaitp]
  | qpopb q n =>
    cases henc
    obtain ⟨hq, hn⟩ : quadOk q = true ∧ n.fits 12 = true := by simpa [Instr.wf] using hwf
    simp [decodeG, decRow6, dQpopb, nameSrc_name hn, hq]
  | qstat d n => cases henc; simp [decodeG, decRow7, dQstat, nameSrc_name (show n.fits 12 = true from hwf)]
  | msgpop o n | msgpeek o n =>
    cases henc
    obtain ⟨ho, hn⟩ : octOk o = true ∧ n.fits 10 = true := by simpa [Instr.wf] using hwf
    simp [decodeG, decRow7, dMsgpop, dMsgpeek, nameSrc_name hn, ho]
  | qnext d | trap c | eret | eretSkip | eretFlush | rsstrm a | brk c =>
    cases henc
    simp [decodeG, decRow7, dQnext, dTrap, dEret, dRsstrm, dBrk]
  | sysopHalt | sysopIcsync | sysopXtinv d a b | sysopTcinv a b | migopClaim d a b | migopComplete d a b | haltSoft d a b
  | haltHard d a b | resume d a b | dbgopStatus d a b =>
    cases henc
    simp [decodeG, decRow7, dSysop]
  | _ => cases henc

/-! Units: prefixes, word, base. -/

/-- The ORD word of an order and scope (R42). -/
def ordWord (os : MOrd × Scope) : W64 := 1#1 ++ (0#1 ++ (opORD ++ (os.1.code ++ (os.2.code ++ 0#48))))
/-- The XT word of an immediate (R42). -/
def xtWord (v : W32) : W64 := 1#1 ++ (0#1 ++ (opXT ++ (v ++ 0#22)))

@[simp] theorem isLaneClass_ordWord (os : MOrd × Scope) : isLaneClass (ordWord os) = true := by
  simp [isLaneClass, ordWord, HAppend.hAppend, -BitVec.append_eq]
@[simp] theorem wOp_ordWord (os : MOrd × Scope) : wOp (ordWord os) = opORD := by
  simp [wOp, ordWord, HAppend.hAppend, -BitVec.append_eq]
@[simp] theorem ordOf_ordWord (os : MOrd × Scope) : ordOf (ordWord os) = some os := by
  have hlow : (ordWord os).extractLsb' 0 48 = 0#48 := by simp [ordWord, HAppend.hAppend, -BitVec.append_eq]
  have hhigh : (ordWord os).extractLsb' 62 1 = 0#1 := by simp [ordWord, HAppend.hAppend, -BitVec.append_eq]
  have hord : (ordWord os).extractLsb' 51 3 = os.1.code := by simp [ordWord, HAppend.hAppend, -BitVec.append_eq]
  have hscope : (ordWord os).extractLsb' 48 3 = os.2.code := by simp [ordWord, HAppend.hAppend, -BitVec.append_eq]
  simp [ordOf, hlow, hhigh, hord, hscope]
@[simp] theorem isLaneClass_xtWord (v : W32) : isLaneClass (xtWord v) = true := by
  simp [isLaneClass, xtWord, HAppend.hAppend, -BitVec.append_eq]
@[simp] theorem wOp_xtWord (v : W32) : wOp (xtWord v) = opXT := by
  simp [wOp, xtWord, HAppend.hAppend, -BitVec.append_eq]
@[simp] theorem extractLsb'_xtWord (v : W32) : (xtWord v).extractLsb' 22 32 = v := by
  simp [xtWord, HAppend.hAppend, -BitVec.append_eq]

theorem LUnit.words_eq (u : LUnit) :
    u.words = (if u.os = (.rlx, .cluster) then [] else [ordWord u.os]) ++ (u.xt.elim [] fun v => [xtWord v]) ++ (u.l.word :: u.base.toList) := rfl

@[simp] theorem isPrefixWord_lword (l : LWord) : isPrefixWord l.word = (l.op == 0xFE#8 || l.op == 0xFD#8) := by
  simp [isPrefixWord, opORD, opXT]

@[simp] theorem takesSecond_lword (l : LWord) :
    takesSecond l.word
      = (decide (0x80 ≤ l.op.toNat ∧ l.op.toNat ≤ 0x87) || decide (0x90 ≤ l.op.toNat ∧ l.op.toNat ≤ 0x92) || decide (l.op.toNat = 0x94)) := by
  simp [takesSecond]

/-- R99: a unit is its word under its prefixes, when the word takes a second one just where the unit has a base. -/
theorem decodeWords_words {u : LUnit} (hprefix : isPrefixWord u.l.word = false) (hsecond : takesSecond u.l.word = u.base.isSome) :
    decodeWords u.words = decodeLane u.l u.xt u.os (u.base.getD 0#64) := by
  obtain ⟨os, xt, l, base⟩ := u
  obtain ⟨hord, hxt⟩ : l.op ≠ opORD ∧ l.op ≠ opXT := by simpa [opORD, opXT] using hprefix
  have hne : opXT ≠ opORD := by decide
  simp only [LUnit.words_eq]
  cases base with
  | none =>
    have hone : takesSecond l.word = false := hsecond
    by_cases hos : os = (.rlx, .cluster) <;> cases xt <;> simp [decodeWords, decodeUnit, hos, hord, hxt, hne, hone, -takesSecond_lword]
  | some b =>
    have htwo : takesSecond l.word = true := hsecond
    by_cases hos : os = (.rlx, .cluster) <;> cases xt <;> simp [decodeWords, decodeUnit, hos, hord, hxt, hne, htwo, -takesSecond_lword]

@[simp] theorem decodeWords_uPlain (xt : Option W32) {l : LWord} (hprefix : isPrefixWord l.word = false) (hsecond : takesSecond l.word = false) :
    decodeWords (uPlain xt l).words = decodeLane l xt (.rlx, .cluster) 0#64 := decodeWords_words (u := uPlain xt l) hprefix hsecond

@[simp] theorem decodeWords_uMem (m : LAddr) {l : LWord} (hprefix : isPrefixWord l.word = false) (hsecond : takesSecond l.word = true) :
    decodeWords (uMem m l).words = decodeLane l m.disp.xt (m.ord, m.scope) m.base := decodeWords_words (u := uMem m l) hprefix hsecond

/-! The lane's readers, over the encoder's fields. -/

section
variable (op : BitVec 8) (g : Guard) (vd va vb vc : VReg) (fa fb fc : Bool) (mods : BitVec 11)

@[simp] theorem lEnc_op : (lEnc op g vd va vb vc fa fb fc mods).op = op := rfl
@[simp] theorem lEnc_vd : (lEnc op g vd va vb vc fa fb fc mods).vd = vd := rfl
@[simp] theorem lEnc_va : (lEnc op g vd va vb vc fa fb fc mods).va = va := rfl
@[simp] theorem lEnc_vb : (lEnc op g vd va vb vc fa fb fc mods).vb = vb := rfl
@[simp] theorem lEnc_vc : (lEnc op g vd va vb vc fa fb fc mods).vc = vc := rfl
@[simp] theorem lEnc_fea : (lEnc op g vd va vb vc fa fb fc mods).fea = bit1 fa := rfl
@[simp] theorem lEnc_feb : (lEnc op g vd va vb vc fa fb fc mods).feb = bit1 fb := rfl
@[simp] theorem lEnc_fec : (lEnc op g vd va vb vc fa fb fc mods).fec = bit1 fc := rfl
@[simp] theorem srcA_lEnc : srcA (lEnc op g vd va vb vc fa fb fc mods) = ⟨va, fa⟩ := by simp [srcA]
@[simp] theorem srcB_lEnc : srcB (lEnc op g vd va vb vc fa fb fc mods) = ⟨vb, fb⟩ := by simp [srcB]
@[simp] theorem srcC_lEnc : srcC (lEnc op g vd va vb vc fa fb fc mods) = ⟨vc, fc⟩ := by simp [srcC]
@[simp] theorem lFld_lEnc (lo n : Nat) : lFld (lEnc op g vd va vb vc fa fb fc mods) lo n = mods.extractLsb' lo n := rfl
@[simp] theorem lBit_lEnc (k : Nat) : lBit (lEnc op g vd va vb vc fa fb fc mods) k = ofBit1 (mods.extractLsb' k 1) := rfl
@[simp] theorem lowZero_lEnc (n : Nat) : lowZero (lEnc op g vd va vb vc fa fb fc mods) n = (mods.extractLsb' 0 n == 0) := rfl

theorem guardU_lEnc {g : Guard} (h : g.wf = true) : guardU (lEnc op g vd va vb vc fa fb fc mods) = some g := by
  simp [guardU, lEnc, h]
theorem guardN_lEnc {g : Guard} (h : g.wfN = true) : guardN (lEnc op g vd va vb vc fa fb fc mods) = some g := by
  simp [guardN, lEnc, h]
@[simp] theorem guardNone_lEnc : guardNone (lEnc op Guard.plain vd va vb vc fa fb fc mods) = true := rfl
@[simp] theorem zeroD_lEnc : zeroD (lEnc op g 0#9 va vb vc fa fb fc mods) = true := rfl
@[simp] theorem zeroA_lEnc : zeroA (lEnc op g vd 0#9 vb vc false fb fc mods) = true := rfl
@[simp] theorem zeroB_lEnc : zeroB (lEnc op g vd va 0#9 vc fa false fc mods) = true := rfl
@[simp] theorem zeroC_lEnc : zeroC (lEnc op g vd va vb 0#9 fa fb false mods) = true := rfl

@[simp] theorem predD_lEnc (p : BitVec 3) : predD (lEnc op g (BitVec.append 0#6 p) va vb vc fa fb fc mods) = some p := by
  simp [predD, toNat_zero_append_lt, -BitVec.append_eq]
@[simp] theorem predA_lEnc (p : BitVec 3) : predA (lEnc op g vd (BitVec.append 0#6 p) vb vc false fb fc mods) = some p := by
  simp [predA, toNat_zero_append_lt, -BitVec.append_eq]

@[simp] theorem limm_lEnc (v : LImm) : limm (lEnc op g vd va vb v.field fa fb false mods) v.xt = some v := by
  cases v <;> rfl

@[simp] theorem lastB_lEnc (b : LSrc) :
    lastB (lEnc op g vd va b.inB.1 b.inB.2.2 fa b.inB.2.1 false mods) (ofBit1 b.isImm) b.xt = some b := by
  cases b with
  | reg s => simp [lastB, LSrc.inB, LSrc.isImm]
  | imm v => simp [lastB, LSrc.inB, LSrc.isImm, LSrc.xt]

@[simp] theorem lastC_lEnc (c : LSrc) :
    lastC (lEnc op g vd va vb c.inC.1 fa fb c.inC.2 mods) (ofBit1 c.isImm) c.xt = some c := by
  cases c with
  | reg s => simp [lastC, LSrc.inC, LSrc.isImm]
  | imm v => simp [lastC, LSrc.inC, LSrc.isImm, LSrc.xt]
end

@[simp] theorem lastA_lEncA (op : BitVec 8) (g : Guard) (d : VReg) (a : LSrc) (mods : BitVec 11) :
    lastA (lEncA op g d a mods) (ofBit1 a.isImm) a.xt = some a := by
  cases a with
  | reg s => simp [lastA, lEncA, LSrc.isImm]
  | imm v => simp [lastA, lEncA, LSrc.isImm, LSrc.xt]

section
variable (op : BitVec 8) (g : Guard) (d : VReg) (a : LSrc) (mods : BitVec 11)

@[simp] theorem lEncA_vd : (lEncA op g d a mods).vd = d := by cases a <;> rfl
@[simp] theorem lFld_lEncA (lo n : Nat) : lFld (lEncA op g d a mods) lo n = mods.extractLsb' lo n := by cases a <;> rfl
@[simp] theorem lBit_lEncA (k : Nat) : lBit (lEncA op g d a mods) k = ofBit1 (mods.extractLsb' k 1) := by cases a <;> rfl
@[simp] theorem zeroD_lEncA : zeroD (lEncA op g 0#9 a mods) = true := by cases a <;> rfl
@[simp] theorem guardNone_lEncA : guardNone (lEncA op Guard.plain d a mods) = true := by cases a <;> rfl
theorem guardU_lEncA {g : Guard} (h : g.wf = true) : guardU (lEncA op g d a mods) = some g := by
  cases a with
  | reg s => exact guardU_lEnc _ _ _ _ _ _ _ _ _ h
  | imm v => exact guardU_lEnc _ _ _ _ _ _ _ _ _ h
end

section
variable (op : BitVec 8) (o : UOp) (mods : BitVec 11)

@[simp] theorem lFld_lEncU (lo n : Nat) : lFld (lEncU op o mods) lo n = mods.extractLsb' lo n := rfl
@[simp] theorem lBit_lEncU (k : Nat) : lBit (lEncU op o mods) k = ofBit1 (mods.extractLsb' k 1) := rfl
@[simp] theorem lowZero_lEncU (n : Nat) : lowZero (lEncU op o mods) n = (mods.extractLsb' 0 n == 0) := rfl
end

theorem uOp_lEncU {o : UOp} (h : o.g.wf = true) (op : BitVec 8) (mods : BitVec 11) : uOp (lEncU op o mods) = some o := by
  simp [uOp, lEncU, guardU_lEnc, h]

@[simp] theorem lEncA_op (op : BitVec 8) (g : Guard) (d : VReg) (a : LSrc) (mods : BitVec 11) : (lEncA op g d a mods).op = op := by
  cases a <;> rfl
@[simp] theorem lEncB_op (op : BitVec 8) (g : Guard) (d : VReg) (a : Src) (b : LSrc) (mods : BitVec 11) : (lEncB op g d a b mods).op = op := rfl
@[simp] theorem lEncC_op (op : BitVec 8) (g : Guard) (d : VReg) (a b : Src) (c : LSrc) (mods : BitVec 11) :
    (lEncC op g d a b c mods).op = op := rfl
@[simp] theorem lEncU_op (op : BitVec 8) (o : UOp) (mods : BitVec 11) : (lEncU op o mods).op = op := rfl
@[simp] theorem iEnc_op (op : BitVec 8) (o : IOp) : (iEnc op o).op = op := rfl
@[simp] theorem bEnc_op (op : BitVec 8) (o : BOp) : (bEnc op o).op = op := rfl
@[simp] theorem fEnc_op (op : BitVec 8) (o : FOp) : (fEnc op o).op = op := rfl
@[simp] theorem qEnc_op (op : BitVec 8) (q : QOp) : (qEnc op q).op = op := rfl
@[simp] theorem ldEnc_op (op : BitVec 8) (o : VLd) : (ldEnc op o).op = op := rfl
@[simp] theorem stEnc_op (op : BitVec 8) (o : VSt) : (stEnc op o).op = op := rfl
@[simp] theorem atEnc_op (op : BitVec 8) (o : VAt) : (atEnc op o).op = op := rfl

/-! Modifiers. -/

@[simp] theorem intMods_fields (ty sat imm : BitVec 1) (cc : BitVec 3) :
    (intMods ty sat imm cc).extractLsb' 10 1 = ty ∧ (intMods ty sat imm cc).extractLsb' 9 1 = sat ∧ (intMods ty sat imm cc).extractLsb' 8 1 = imm
      ∧ (intMods ty sat imm cc).extractLsb' 5 3 = cc ∧ (intMods ty sat imm cc).extractLsb' 0 5 = 0#5 := by
  simp [intMods, HAppend.hAppend, -BitVec.append_eq]

@[simp] theorem fMods_fields (ty : BitVec 2) (rm : BitVec 3) (imm : BitVec 1) (cc : BitVec 3) :
    (fMods ty rm imm cc).extractLsb' 9 2 = ty ∧ (fMods ty rm imm cc).extractLsb' 6 3 = rm ∧ (fMods ty rm imm cc).extractLsb' 5 1 = imm
      ∧ (fMods ty rm imm cc).extractLsb' 2 3 = cc ∧ (fMods ty rm imm cc).extractLsb' 0 2 = 0#2 := by
  simp [fMods, HAppend.hAppend, -BitVec.append_eq]

@[simp] theorem intMods_low (ty sat imm : BitVec 1) : (intMods ty sat imm 0#3).extractLsb' 0 8 = 0#8 := by
  simp [intMods, HAppend.hAppend, -BitVec.append_eq]
  rfl

@[simp] theorem fMods_low (ty : BitVec 2) (rm : BitVec 3) (imm : BitVec 1) : (fMods ty rm imm 0#3).extractLsb' 0 5 = 0#5 := by
  simp [fMods, HAppend.hAppend, -BitVec.append_eq]
  rfl

@[simp] theorem qMods_fields (fmtc : BitVec 4) (rm : BitVec 3) (sc ts : BitVec 1) :
    (qMods fmtc rm sc ts).extractLsb' 7 4 = fmtc ∧ (qMods fmtc rm sc ts).extractLsb' 4 3 = rm ∧ (qMods fmtc rm sc ts).extractLsb' 3 1 = sc
      ∧ (qMods fmtc rm sc ts).extractLsb' 2 1 = ts ∧ (qMods fmtc rm sc ts).extractLsb' 0 2 = 0#2 := by
  simp [qMods, HAppend.hAppend, -BitVec.append_eq]

@[simp] theorem memMods_fields (ty : BitVec 3) (sc : BitVec 2) (ix : BitVec 1) (cp : BitVec 2) (ua : BitVec 1) :
    (memMods ty sc ix cp ua).extractLsb' 8 3 = ty ∧ (memMods ty sc ix cp ua).extractLsb' 6 2 = sc ∧ (memMods ty sc ix cp ua).extractLsb' 5 1 = ix
      ∧ (memMods ty sc ix cp ua).extractLsb' 3 2 = cp ∧ (memMods ty sc ix cp ua).extractLsb' 2 1 = ua ∧ (memMods ty sc ix cp ua).extractLsb' 0 2 = 0#2 := by
  simp [memMods, HAppend.hAppend, -BitVec.append_eq]

@[simp] theorem atMods_fields (ty : BitVec 3) (sc : BitVec 2) (ix : BitVec 1) (op : BitVec 4) :
    (atMods ty sc ix op).extractLsb' 8 3 = ty ∧ (atMods ty sc ix op).extractLsb' 6 2 = sc ∧ (atMods ty sc ix op).extractLsb' 5 1 = ix
      ∧ (atMods ty sc ix op).extractLsb' 1 4 = op ∧ (atMods ty sc ix op).extractLsb' 0 1 = 0#1 := by
  simp [atMods, HAppend.hAppend, -BitVec.append_eq]

/-! Families of instructions. -/

theorem dIOp_iEnc {satOk : Bool} {o : IOp} (hg : o.g.wf = true) (hsat : satOk = true ∨ o.sat = false) (op : BitVec 8) (mk : IOp → Instr) :
    dIOp satOk mk (iEnc op o) o.b.xt = some (mk o) := by
  simp [dIOp, iEnc, lEncB, guardU_lEnc, hg, hsat]

theorem dBOp_bEnc {o : BOp} (hg : o.g.wf = true) (op : BitVec 8) (mk : BOp → Instr) : dBOp mk (bEnc op o) o.b.xt = some (mk o) := by
  have hmods : (intMods 0#1 0#1 o.b.isImm 0#3).extractLsb' 9 2 = 0#2 := by simp [intMods, HAppend.hAppend, -BitVec.append_eq]
  simp [dBOp, bEnc, lEncB, guardU_lEnc, hg, hmods]

theorem dUnary_lEncU {o : UOp} (hg : o.g.wf = true) (op : BitVec 8) (mk : UOp → Instr) : dUnary mk (lEncU op o 0#11) = some (mk o) := by
  rw [dUnary, if_pos (by rfl), uOp_lEncU hg]; rfl

theorem dAbs_lEncU {o : UOp} (hg : o.g.wf = true) (op : BitVec 8) (sat : Bool) :
    dAbs (lEncU op o (intMods 0#1 (bit1 sat) 0#1 0#3)) = some (.viabs sat o) := by
  have hlow : (intMods 0#1 (bit1 sat) 0#1 0#3).extractLsb' 0 9 = 0#9 := by simp [intMods, HAppend.hAppend, -BitVec.append_eq]; rfl
  simp [dAbs, uOp_lEncU hg, hlow]

theorem dFOp_fEnc {rmOk : BitVec 3 → Bool} {o : FOp} (hg : o.g.wf = true) (hrm : rmOk o.rm = true) (op : BitVec 8) (mk : FOp → Instr) :
    dFOp rmOk mk (fEnc op o) o.b.xt = some (mk o) := by
  simp [dFOp, fEnc, lEncB, guardU_lEnc, hg, hrm]

theorem dFUn_lEncU {rmOk : BitVec 3 → Bool} {o : UOp} {rm : BitVec 3} (hg : o.g.wf = true) (hrm : rmOk rm = true) (op : BitVec 8) (ty : FTy)
    (mk : FTy → BitVec 3 → UOp → Instr) : dFUn rmOk mk (lEncU op o (fMods ty.code rm 0#1 0#3)) = some (mk ty rm o) := by
  have hlow : (fMods ty.code rm 0#1 0#3).extractLsb' 0 6 = 0#6 := by simp [fMods, HAppend.hAppend, -BitVec.append_eq]; rfl
  simp [dFUn, uOp_lEncU hg, hlow, hrm]

theorem qOp_qEnc {q : QOp} (hwf : q.wf = true) (op : BitVec 8) : qOp (qEnc op q) = some q := by
  obtain ⟨g, fmtc, rm, d, a, s, t⟩ := q
  obtain ⟨⟨hg, hf⟩, hr⟩ : (g.wf = true ∧ fmtcOk fmtc = true) ∧ rm ≠ 6#3 := by simpa [QOp.wf] using hwf
  cases s <;> cases t <;> simp [qOp, qEnc, guardU_lEnc, hg, hf, hr]

theorem qEnc_feb {q : QOp} (hs : q.s.elim true (fun s => !s.fe) = true) (op : BitVec 8) : (qEnc op q).feb = 0#1 := by
  have hfe : q.s.elim false Src.fe = false := by
    cases h : q.s with
    | none => rfl
    | some s => simpa [h] using hs
  simp [qEnc, hfe]

/-! Lane memory. -/

theorem laddr_lEnc (m : LAddr) (op : BitVec 8) (g : Guard) (vd vb : VReg) (fb : Bool) (mods : BitVec 11)
    {os : MOrd × Scope} (hos : os = (m.ord, m.scope)) (hsc : mods.extractLsb' 6 2 = m.sc) (hix : mods.extractLsb' 5 1 = bit1 m.ix.isSome) :
    laddr (lEnc op g vd (m.ix.elim 0#9 Src.r) vb m.disp.field (m.ix.elim false Src.fe) fb false mods) m.disp.xt os m.base = some m := by
  obtain ⟨sc, ix, disp, base, ord, scope⟩ := m
  simp only at hsc hix
  cases ix <;> simp [laddr, hos, hsc, hix]

theorem vldF_ldEnc {o : VLd} (hg : o.g.wfN = true) (ho : ordLoad o.m.ord = true) (op : BitVec 8) :
    vldF (ldEnc op o) o.m.disp.xt (o.m.ord, o.m.scope) o.m.base = some o := by
  simp [vldF, ldEnc, guardN_lEnc, hg, ho, laddr_lEnc]

theorem vstF_stEnc {o : VSt} (hg : o.g.wfN = true) (ht : o.ty.storable = true) (ho : ordStore o.m.ord = true) (op : BitVec 8) :
    vstF (stEnc op o) o.m.disp.xt (o.m.ord, o.m.scope) o.m.base = some o := by
  simp [vstF, stEnc, guardN_lEnc, hg, ht, ho, laddr_lEnc]

theorem vatF_atEnc {o : VAt} (hg : o.g.wf = true) (op : BitVec 8) :
    vatF (atEnc op o) o.m.disp.xt (o.m.ord, o.m.scope) o.m.base = some o := by
  simp [vatF, atEnc, guardU_lEnc, hg, laddr_lEnc]

/-- The modifiers of VPREF: type and UA zero, and the low bit of the cache policy (R149). -/
theorem prefMods_fields (sc : BitVec 2) (ix l2 : BitVec 1) :
    (memMods 0#3 sc ix (0#1 ++ l2) 0#1).extractLsb' 0 3 = 0#3 ∧ (memMods 0#3 sc ix (0#1 ++ l2) 0#1).extractLsb' 3 1 = l2
      ∧ (memMods 0#3 sc ix (0#1 ++ l2) 0#1).extractLsb' 4 1 = 0#1 := by
  refine ⟨?_, ?_, ?_⟩ <;> simp [memMods, HAppend.hAppend, -BitVec.append_eq]
  rfl

/-- R35, R45, R99: the cases are the rows of the lane's opcode map, each under the unit's prefixes. -/
theorem decodeWords_encodeL {i : Instr} {u : LUnit} (hwf : i.wf = true) (henc : encodeL i = some u) : decodeWords u.words = some i := by
  cases i with
  | viadd o | visub o | vimul o =>
    cases henc
    have hg : o.g.wf = true := hwf
    simp [decodeLane, decInt, dIOp_iEnc hg]
  | vimulh o | vimin o | vimax o =>
    cases henc
    obtain ⟨hg, hs⟩ : o.g.wf = true ∧ o.sat = false := by simpa [Instr.wf] using hwf
    simp [decodeLane, decInt, dIOp_iEnc hg, hs]
  | vimad o =>
    cases henc
    have hg : o.g.wf = true := hwf
    simp [decodeLane, decInt, dIMad, lEncC, guardU_lEnc, hg]
  | vand o | vor o | vxor o | vshl o | vshr o | vsar o =>
    cases henc
    have hg : o.g.wf = true := hwf
    simp [decodeLane, decInt, dBOp_bEnc hg]
  | vnot o | vclz o | vpopc o =>
    cases henc
    have hg : o.g.wf = true := hwf
    simp [decodeLane, decInt, dUnary_lEncU hg]
  | viabs sat o =>
    cases henc
    have hg : o.g.wf = true := hwf
    simp [decodeLane, decInt, dAbs_lEncU hg]
  | viset g ty cc pd a b =>
    cases henc
    have hg : g.wf = true := hwf
    simp [decodeLane, decInt, dViset, lEncB, guardU_lEnc, hg, HAppend.hAppend, -BitVec.append_eq]
  | vfadd o | vfsub o | vfmul o =>
    cases henc
    obtain ⟨hg, hr⟩ : o.g.wf = true ∧ rmArith o.rm = true := by simpa [Instr.wf] using hwf
    simp [decodeLane, decFp, dFOp_fEnc hg hr]
  | vfmin o | vfmax o =>
    cases henc
    obtain ⟨hg, hr⟩ : o.g.wf = true ∧ rmZero o.rm = true := by simpa [Instr.wf, rmZero] using hwf
    simp [decodeLane, decFp, dFOp_fEnc hg hr]
  | vffma o =>
    cases henc
    obtain ⟨hg, hr⟩ : o.g.wf = true ∧ rmArith o.rm = true := by simpa [Instr.wf] using hwf
    simp [decodeLane, decFp, dFMad, lEncC, guardU_lEnc, hg, hr]
  | vfsgn g ty op d a b =>
    cases henc
    obtain ⟨hg, ho⟩ : g.wf = true ∧ op ≠ 3#2 := by simpa [Instr.wf] using hwf
    simp [decodeLane, decFp, dVfsgn, lEncB, LSrc.inB, guardU_lEnc, hg, ho, fMods, HAppend.hAppend, -BitVec.append_eq]
  | vfset g cc pd a b =>
    cases henc
    have hg : g.wf = true := hwf
    have hmods : (fMods 0#2 0#3 b.isImm cc).extractLsb' 6 5 = 0#5 := by simp [fMods, HAppend.hAppend, -BitVec.append_eq]
    simp [decodeLane, decFp, dVfset, lEncB, guardU_lEnc, hg, hmods, HAppend.hAppend, -BitVec.append_eq]
  | vrcp ty rm o | vrsq ty rm o =>
    cases henc
    obtain ⟨hg, hr⟩ : o.g.wf = true ∧ rmArith rm = true := by simpa [Instr.wf] using hwf
    simp [decodeLane, decFp, dFUn_lEncU hg hr]
  | vexp2 ty o | vlog2 ty o | vfclass ty o =>
    cases henc
    have hg : o.g.wf = true := hwf
    simp [decodeLane, decFp, dFUn_lEncU hg (show rmZero 0#3 = true from rfl)]
  | vcvt dt st rm o =>
    cases henc
    obtain ⟨hg, hc⟩ : o.g.wf = true ∧ cvtOk dt st rm = true := by simpa [Instr.wf] using hwf
    simp [decodeLane, decConv, dVcvt, uOp_lEncU hg, hc, HAppend.hAppend, -BitVec.append_eq]
  | vcvtSeed g a =>
    cases henc
    have hg : g.wf = true := hwf
    simp [decodeLane, decConv, dVcvt, guardU_lEncA, hg, HAppend.hAppend, -BitVec.append_eq]
  | vqpack q =>
    cases henc
    obtain ⟨hq, hs⟩ : q.wf = true ∧ q.s.elim true (fun s => !s.fe) = true := by simpa [Instr.wf] using hwf
    simp [decodeLane, decConv, dVqpack, qOp_qEnc hq, qEnc_feb hs]
  | vqunpk q =>
    cases henc
    obtain ⟨hq, hr⟩ : q.wf = true ∧ q.rm ≠ 5#3 := by simpa [Instr.wf] using hwf
    simp [decodeLane, decConv, dVqunpk, qOp_qEnc hq, hr]
  | vmov g d a =>
    cases henc
    have hg : g.wf = true := hwf
    simp [decodeLane, decConv, dVmov, guardU_lEncA, hg, HAppend.hAppend, -BitVec.append_eq]
  | vsel g ps d a b =>
    cases henc
    have hg : g.wf = true := hwf
    simp [decodeLane, decConv, dVsel, lEncB, guardU_lEnc, hg, HAppend.hAppend, -BitVec.append_eq]
  | vlid g w d =>
    cases henc
    obtain ⟨hg, hw⟩ : g.wfN = true ∧ w ≠ 3#2 := by simpa [Instr.wf] using hwf
    simp [decodeLane, decConv, dVlid, guardN_lEnc, hg, hw, HAppend.hAppend, -BitVec.append_eq]
  | vxi add a =>
    cases henc
    simp [decodeLane, decConv, dVxi, HAppend.hAppend, -BitVec.append_eq]
  | vplog g op d a pb =>
    cases henc
    obtain ⟨hg, hp⟩ : g.wf = true ∧ plogOk op d a pb = true := by simpa [Instr.wf] using hwf
    simp [decodeLane, decCross, dVplog, guardU_lEnc, hg, hp, toNat_zero_append_lt, HAppend.hAppend, -BitVec.append_eq]
  | vppush ps neg =>
    cases henc
    simp [decodeLane, decCross, dVppush, HAppend.hAppend, -BitVec.append_eq]
  | vppop | vppopElse => cases henc; simp [decodeLane, decCross, dVppop]
  | vfmt op a =>
    cases henc
    have ho : op ≠ 3#2 := by simpa [Instr.wf] using hwf
    simp [decodeLane, decCross, dVfmt, ho, HAppend.hAppend, -BitVec.append_eq]
  | vvote g op de d ps =>
    cases henc
    obtain ⟨hg, hd⟩ : g.wfN = true ∧ (de != .q || d == 0#9) = true := by simpa [Instr.wf] using hwf
    simp [decodeLane, decCross, dVvote, guardN_lEnc, hg, hd, zeroD, HAppend.hAppend, -BitVec.append_eq]
  | vshfl g mode lg d a b =>
    cases henc
    obtain ⟨hg, hl⟩ : g.wfN = true ∧ lgOk lg = true := by simpa [Instr.wf] using hwf
    simp [decodeLane, decCross, dVshfl, lEncB, guardN_lEnc, hg, hl, HAppend.hAppend, -BitVec.append_eq]
  | vtred g op lg d a =>
    cases henc
    obtain ⟨hg, hl⟩ : g.wfN = true ∧ lgOk lg = true := by simpa [Instr.wf] using hwf
    simp [decodeLane, decCross, dVtred, guardN_lEnc, hg, hl, HAppend.hAppend, -BitVec.append_eq]
  | vtscan g op lg ex d a =>
    cases henc
    obtain ⟨hg, hl⟩ : g.wfN = true ∧ lgOk lg = true := by simpa [Instr.wf] using hwf
    simp [decodeLane, decCross, dVtscan, guardN_lEnc, hg, hl, HAppend.hAppend, -BitVec.append_eq]
  | vld o =>
    cases henc
    obtain ⟨hg, ho⟩ : o.g.wfN = true ∧ ordLoad o.m.ord = true := by simpa [Instr.wf] using hwf
    simp [decodeLane, decMem, vldF_ldEnc hg ho]
  | vldg o =>
    cases henc
    obtain ⟨⟨hg, hm⟩, ho⟩ : (o.g.wfN = true ∧ o.m.wfG = true) ∧ ordLoad o.m.ord = true := by simpa [Instr.wf] using hwf
    simp [decodeLane, decMem, vldF_ldEnc hg ho, hm]
  | vldu o =>
    cases henc
    obtain ⟨⟨hg, hm⟩, ho⟩ : (o.g.wfN = true ∧ o.m.wfU = true) ∧ ordLoad o.m.ord = true := by simpa [Instr.wf] using hwf
    simp [decodeLane, decMem, vldF_ldEnc hg ho, hm]
  | vldq o =>
    cases henc
    obtain ⟨⟨⟨hg, ht⟩, hu⟩, ho⟩ : ((o.g.wfN = true ∧ o.ty = .n8) ∧ o.ua = false) ∧ ordLoad o.m.ord = true := by
      simpa [Instr.wf] using hwf
    simp [decodeLane, decMem, vldF_ldEnc hg ho, ht, hu]
  | vst o =>
    cases henc
    obtain ⟨⟨hg, ht⟩, ho⟩ : (o.g.wfN = true ∧ o.ty.storable = true) ∧ ordStore o.m.ord = true := by simpa [Instr.wf] using hwf
    simp [decodeLane, decMem, vstF_stEnc hg ht ho]
  | vstg o =>
    cases henc
    obtain ⟨⟨⟨hg, ht⟩, hm⟩, ho⟩ : ((o.g.wfN = true ∧ o.ty.storable = true) ∧ o.m.wfG = true) ∧ ordStore o.m.ord = true := by
      simpa [Instr.wf] using hwf
    simp [decodeLane, decMem, vstF_stEnc hg ht ho, hm]
  | vstq o =>
    cases henc
    obtain ⟨⟨⟨hg, ht⟩, hu⟩, ho⟩ : ((o.g.wfN = true ∧ o.ty = .n8) ∧ o.ua = false) ∧ ordStore o.m.ord = true := by
      simpa [Instr.wf] using hwf
    have hs : o.ty.storable = true := by rw [ht]; rfl
    simp [decodeLane, decMem, vstF_stEnc hg hs ho, ht, hu]
  | vpref g l2 m =>
    cases henc
    obtain ⟨⟨hg, ho⟩, hs⟩ : (g.wfN = true ∧ m.ord = .rlx) ∧ m.scope = .cluster := by simpa [Instr.wf] using hwf
    simp [decodeLane, decMem, dVpref, guardN_lEnc, hg, ho, hs, laddr_lEnc, prefMods_fields]
  | vatom o =>
    cases henc
    obtain ⟨hg, hop⟩ : o.g.wf = true ∧ atomOk false o.op o.ty = true := by simpa [Instr.wf] using hwf
    simp [decodeLane, decMem, vatF_atEnc hg, hop]
  | vcas o =>
    cases henc
    obtain ⟨⟨hg, hop⟩, hty⟩ : (o.g.wf = true ∧ o.op = .swap) ∧ o.ty.isInt = true := by simpa [Instr.wf] using hwf
    simp [decodeLane, decMem, vatF_atEnc hg, hop, hty]
  | vred o =>
    cases henc
    obtain ⟨⟨⟨hg, hop⟩, ho⟩, hd⟩ : ((o.g.wf = true ∧ atomOk true o.op o.ty = true) ∧ ordStore o.m.ord = true) ∧ o.d = 0#9 := by
      simpa [Instr.wf] using hwf
    simp [decodeLane, decMem, vatF_atEnc hg, hop, ho, hd]
  | vfence f =>
    cases henc
    have ho : ordFence f.ord = true := hwf
    simp [decodeLane, decMem, dVfence, ho, HAppend.hAppend, -BitVec.append_eq]
  | vbararr g lanes disp base ord scope =>
    cases henc
    have hg : g.wfN = true := hwf
    rw [decodeWords_words (by simp) (by simp)]
    simp [decodeLane, decMem, dVbararr, guardN_lEnc, hg, HAppend.hAppend, -BitVec.append_eq]
  | _ => cases henc

/-! The epilogue (R205, R206). -/

theorem decodeE_encodeE {i : Instr} {e : EWord} (hwf : i.wf = true) (henc : encodeE i = some e) : decodeE (EWord.ofWord e.word) = some i := by
  rw [EWord.ofWord_word]
  cases i with
  | eadd d a b | emul d a b | efma d a b c | emax d a b | emin d a b | eexp2 d a | ercp d a | eldm d | eadpt d a | ermax d a
  | ersum d a | eend =>
    cases henc
    simp [decodeE, eZero]
  | eldr d rv =>
    cases henc
    simp [decodeE, eZero, eAux, HAppend.hAppend, -BitVec.append_eq]
  | esel d a b c cc =>
    cases henc
    have hcc : cc.toNat < 6 := of_decide_eq_true hwf
    simp [decodeE, eAux, hcc, HAppend.hAppend, -BitVec.append_eq]
  | ecvt d a rm fmt =>
    cases henc
    obtain ⟨⟨h5, h6⟩, hfmt⟩ : ((rm == 5#3) = false ∧ (rm == 6#3) = false) ∧ fmt.toNat ≤ 12 := by simpa [Instr.wf] using hwf
    simp [decodeE, eZero, eAux, h5, h6, hfmt, HAppend.hAppend, -BitVec.append_eq]
  | eldc d kind k =>
    cases henc
    have hk : (kind == 3#2) = false := by simpa [Instr.wf] using hwf
    simp [decodeE, eZero, eAux, hk, HAppend.hAppend, -BitVec.append_eq]
  | est a bs rm fmt mode =>
    cases henc
    have hok : estOk bs rm fmt mode = true := hwf
    simp [decodeE, eZero, eAux, hok, HAppend.hAppend, -BitVec.append_eq]
  | _ => cases henc
end Sys2Proof

open Sys2Proof

/-- Settles O57: the generator's part by the cases of `encodeG`, the lane's by those of `encodeL` under the unit's prefixes, the epilogue's by those
of `encodeE`. -/
theorem decodingReversesEncoding : Obligations.DecodingReversesEncoding :=
  ⟨fun _ _ hwf henc => decodeWords_encodeG hwf henc, fun _ _ hwf henc => decodeWords_encodeL hwf henc,
    fun _ _ hwf henc => decodeE_encodeE hwf henc⟩

/-- Settles O58: the decoder is run on each word. -/
theorem writtenOutWordsDecode : Obligations.WrittenOutWordsDecode := by
  unfold Obligations.WrittenOutWordsDecode
  simp only [List.forall_mem_cons, List.not_mem_nil, false_implies, implies_true, and_true]
  decide
end

section
/-! O26: K-steps of a loop over tile operands, and side steps (R62, R182, R186, R200). -/

namespace Sys2Proof.Machine

/-! Writes of a list of entries into a sparse map, each under a key of its own. -/

theorem smGet_foldl_smSet_out {α β : Type} (d : α) (key : β → Nat) (val : β → α) (l : List β) (m : SMap α) {j : Nat} (h : ∀ x ∈ l, j ≠ key x) :
    smGet d (l.foldl (fun m x => smSet m (key x) (val x)) m) j = smGet d m j := by
  induction l generalizing m with
  | nil => rfl
  | cons x xs ih => rw [List.foldl_cons, ih _ (fun y hy => h y (List.mem_cons_of_mem _ hy)), smGet_smSet_ne _ _ _ (h x List.mem_cons_self)]

theorem smGet_foldl_smSet_mem {α β : Type} (d : α) (key : β → Nat) (val : β → α) (l : List β) (m : SMap α) (hkeys : (l.map key).Nodup) {x : β}
    (hx : x ∈ l) : smGet d (l.foldl (fun m x => smSet m (key x) (val x)) m) (key x) = val x := by
  induction l generalizing m with
  | nil => cases hx
  | cons y ys ih =>
    obtain ⟨hy, hys⟩ := List.nodup_cons.mp hkeys
    rw [List.foldl_cons]
    rcases List.mem_cons.mp hx with rfl | hx
    · rw [smGet_foldl_smSet_out d key val ys _ fun w hw e => hy (List.mem_map.mpr ⟨w, hw, e.symm⟩), smGet_smSet_self]
    · exact ih _ hys hx

/-- Keys at a common base are different when their offsets are. -/
theorem nodup_map_add (base : Nat) {l : List Nat} (h : l.Nodup) : (l.map (base + ·)).Nodup :=
  List.Pairwise.map _ (fun _ _ hne heq => hne (Nat.add_left_cancel heq)) h

/-! The engine of a cluster, read back. -/

@[simp] theorem eng_modEng_self (s : State) (k : Nat) (f : Eng → Eng) : (s.modEng k f).eng k = f (s.eng k) :=
  congrArg Cluster.eng (cl_setCl_self ..)

theorem eng_of_cls {s u : State} (h : u.cls = s.cls) (k : Nat) : u.eng k = s.eng k := by rw [State.eng, State.cl, h]; rfl

@[simp] theorem eng_setProg (s : State) (k : Nat) (r : RowProg) : (setProg s k r).eng k = { s.eng k with rp := r } := eng_modEng_self ..
@[simp] theorem setProg_mem (s : State) (k : Nat) (r : RowProg) : (setProg s k r).mem = s.mem := rfl
@[simp] theorem setProg_ctxs (s : State) (k : Nat) (r : RowProg) : (setProg s k r).ctxs = s.ctxs := rfl

@[simp] theorem setOp_tiles (s : State) (k : Nat) (o : EOp) : ((setOp s k o).eng k).tiles = (s.eng k).tiles := by rw [setOp, eng_modEng_self]
@[simp] theorem setOp_mem (s : State) (k : Nat) (o : EOp) : (setOp s k o).mem = s.mem := rfl
@[simp] theorem setOp_ctxs (s : State) (k : Nat) (o : EOp) : (setOp s k o).ctxs = s.ctxs := rfl

/-! Operands in tiles (R182). -/

/-- Line i of a tile operand at step st, decoded. -/
def portLine (e : Eng) (d : OpDesc) (f : W32) (st i : Nat) : List FV :=
  (tileLine e (descTile d + st) i (fmtOfDesc d).width (descTrans d)).map fun x => readElem (fmtOfDesc d) (fmtFc f) (fmtFlush f) x

theorem withScales_nil (f : EFmt) (fc flush : Bool) (k : Nat) (cs : List Nat) : withScales f fc flush k cs [] = cs.map (readElem f fc flush) := by
  induction cs generalizing k with
  | nil => rfl
  | cons c cs ih => simp [withScales, ih]

section
variable {d : OpDesc} (hkind : descKind d = 1) (hscl : descScl d = false)
include hkind hscl

theorem operandLine_tile (s : State) (cl : Nat) (o : EOp) (slot : Option Nat) (f : W32) (st i : Nat) :
    operandLine s cl o d none slot f st i = .ok s (portLine (s.eng cl) d f st i) := by
  simp [operandLine, hkind, hscl, withScales_nil, portLine]

theorem operandLines_tile (s : State) (cl : Nat) (o : EOp) (slot : Option Nat) (f : W32) (st : Nat) (is : List Nat) :
    operandLines s cl o d none slot f st is = .ok s (is.map (portLine (s.eng cl) d f st)) := by
  induction is with
  | nil => rfl
  | cons i is ih => simp only [operandLines, operandLine_tile hkind hscl, ERes.bind, ih, List.map_cons]

end

/-- Two engines hold the same in tile z. -/
def SameTile (e' e : Eng) (z : Nat) : Prop := ∀ i j, i < 32 → j < 32 → tileElem e' z i j = tileElem e z i j

theorem SameTile.tileByte_eq {e' e : Eng} {z : Nat} (h : SameTile e' e z) {b : Nat} (hb : b < 6144) : tileByte e' z b = tileByte e z b := by
  have helem := h (b / 6 / 32) (b / 6 % 32) (by omega) (by omega)
  have hkey : z * 1024 + 32 * (b / 6 / 32) + b / 6 % 32 = z * 1024 + b / 6 := by omega
  simp only [tileElem, hkey] at helem
  rw [tileByte, tileByte, helem]

/-- Both ports read bytes of the tile only. -/
theorem SameTile.tileLine_eq {e' e : Eng} {z : Nat} (h : SameTile e' e z) {i : Nat} (hi : i < 32) (w : Nat) (col : Bool) :
    tileLine e' z i w col = tileLine e z i w col := by
  cases col with
  | false =>
    have hbytes : (List.range 192).map (fun b => tileByte e' z (192 * i + b)) = (List.range 192).map fun b => tileByte e z (192 * i + b) :=
      List.map_congr_left fun b hb => h.tileByte_eq (by have := List.mem_range.mp hb; omega)
    simp [tileLine, hbytes]
  | true =>
    have hbytes : ∀ k < 1536 / w, (List.range (4 * w)).map (fun b => tileByte e' z (4 * w * k + b))
        = (List.range (4 * w)).map fun b => tileByte e z (4 * w * k + b) := fun k hk =>
      List.map_congr_left fun b hb => h.tileByte_eq <| by
        have hb := List.mem_range.mp hb
        calc 4 * w * k + b < 4 * w * k + 4 * w := by omega
          _ = 4 * (w * (k + 1)) := by rw [Nat.mul_succ, Nat.mul_add, Nat.mul_assoc]
          _ ≤ 4 * (w * (1536 / w)) := Nat.mul_le_mul_left _ (Nat.mul_le_mul_left _ hk)
          _ ≤ 6144 := by have := Nat.mul_div_le 1536 w; omega
    simp only [tileLine, Bool.not_true, Bool.false_eq_true, if_false]
    exact List.map_congr_left fun k hk => by rw [hbytes k (List.mem_range.mp hk)]

theorem SameTile.portLine_eq {e' e : Eng} {d : OpDesc} {st : Nat} (h : SameTile e' e (descTile d + st)) (f : W32) {i : Nat} (hi : i < 32) :
    portLine e' d f st i = portLine e d f st i := by rw [portLine, h.tileLine_eq hi, portLine]

theorem portLine_of_tiles {e' e : Eng} (h : e'.tiles = e.tiles) (d : OpDesc) (f : W32) (st i : Nat) : portLine e' d f st i = portLine e d f st i := by
  simp only [portLine, tileLine, tileByte, h]

/-! The main step (R62, R186). -/

/-- One row of a K-step: its 32 elements become one K-step of their old values. -/
theorem tileElem_rowStep (e : Eng) (z : Nat) {i : Nat} (hi : i < 32) (f : W32) (a : List FV) (bl : Nat → List FV) (x : Nat) {k j : Nat} (hk : k < 32)
    (hj : j < 32) :
    tileElem (rowStep e z i f a ((List.range 32).map bl)) x k j
      = if x = z ∧ k = i then kstep (fmtSat f) (tileElem e z i j) (a.zip (bl j)) else tileElem e x k j := by
  have hfold : (rowStep e z i f a ((List.range 32).map bl)).tiles = (List.range 32).foldl (fun m j => smSet m (z * 1024 + 32 * i + j)
      (kstep (fmtSat f) (tileElem e z i j) (a.zip (bl j)))) e.tiles := by
    simp only [rowStep, ← List.map_prod_left_eq_zip, List.foldl_map]
  rw [tileElem, hfold]
  split
  · next h =>
    obtain ⟨rfl, rfl⟩ := h
    refine smGet_foldl_smSet_mem _ (x * 1024 + 32 * k + ·) (fun j => kstep (fmtSat f) (tileElem e x k j) (a.zip (bl j))) _ _ ?_ (List.mem_range.mpr hj)
    exact nodup_map_add _ List.nodup_range
  · next h =>
    refine smGet_foldl_smSet_out _ (z * 1024 + 32 * i + ·) (fun j => kstep (fmtSat f) (tileElem e z i j) (a.zip (bl j))) _ _ fun j' hj' => ?_
    have := List.mem_range.mp hj'
    omega

/-- The rows of a main step whose A line i is al i for as long as the tiles other than z stay. -/
theorem mainRows_accumulates {cl : Nat} {o : EOp} {z st : Nat} {f : W32} {al bl : Nat → List FV} {line : State → Nat → ERes (List FV)}
    {fin : State → State} {e : Eng}
    (hline : ∀ t, (∀ x, x ≠ z → SameTile (t.eng cl) e x) → ∀ i < 32, line t i = .ok t (al i))
    {rows : List Nat} (hrows : ∀ i ∈ rows, i < 32) (hnodup : rows.Nodup) (s : State) (hs : ∀ x, x ≠ z → SameTile (s.eng cl) e x) :
    ∃ t, mainRows cl o z st f ((List.range 32).map bl) line fin rows s = fin t ∧ t = { s with cls := t.cls }
      ∧ ∀ x i j, i < 32 → j < 32 → tileElem (t.eng cl) x i j
          = if x = z ∧ i ∈ rows then kstep (fmtSat f) (tileElem (s.eng cl) z i j) ((al i).zip (bl j)) else tileElem (s.eng cl) x i j := by
  induction rows generalizing s with
  | nil => exact ⟨s, rfl, rfl, fun x i j _ _ => by simp⟩
  | cons i is ih =>
    have hi : i < 32 := hrows i List.mem_cons_self
    obtain ⟨hnotin, his⟩ := List.nodup_cons.mp hnodup
    let s' := setProg (s.modEng cl fun e => rowStep e z i f (al i) ((List.range 32).map bl)) cl ⟨st, 0, false, i + 1⟩
    have hrun : mainRows cl o z st f ((List.range 32).map bl) line fin (i :: is) s = mainRows cl o z st f ((List.range 32).map bl) line fin is s' := by
      rw [mainRows, hline s hs i hi]; rfl
    have hframe : s' = { s with cls := s'.cls } := rfl
    have hstep : ∀ x k j, k < 32 → j < 32 → tileElem (s'.eng cl) x k j
        = if x = z ∧ k = i then kstep (fmtSat f) (tileElem (s.eng cl) z i j) ((al i).zip (bl j)) else tileElem (s.eng cl) x k j := by
      intro x k j hk hj
      rw [← tileElem_rowStep (s.eng cl) z hi f (al i) bl x hk hj]
      simp only [s', eng_setProg, eng_modEng_self, tileElem]
    clear_value s'
    have hs' : ∀ x, x ≠ z → SameTile (s'.eng cl) e x := fun x hx k j hk hj => by
      rw [hstep x k j hk hj, if_neg fun h => hx h.1, hs x hx k j hk hj]
    obtain ⟨t, hrest, hframe', ht⟩ := ih (fun k hk => hrows k (List.mem_cons_of_mem _ hk)) his s' hs'
    refine ⟨t, hrun.trans hrest, by rw [hframe', hframe], fun x k j hk hj => ?_⟩
    rw [ht x k j hk hj, hstep x k j hk hj, hstep z k j hk hj]
    by_cases hki : k = i
    · simp [hki, hnotin]
    · simp [hki]

/-- What a start or a resume does is not done again once the loop has begun. -/
theorem beginLoop_begun {s : State} {cl : Nat} {o : EOp} {z w : Nat} {adp : Bool} {ad : List W64} {f : State → EOp → State} (h : o.begun = true) :
    beginLoop s cl o z w adp ad f = f s o := if_pos h

/-- The operation with no ring slot held, as a loop without rings stands while it steps. -/
def EOp.unslotted (o : EOp) : EOp := { o with sa := none, sb := none }

theorem ringsReady_none (s : State) (cl : Nat) (o : EOp) (f : State → EOp → State) :
    ringsReady s cl o none none f = f (setOp (setOp s cl { o with sa := none }) cl o.unslotted) o.unslotted := rfl

theorem mainDone_none {s : State} {cl : Nat} {o : EOp} {st n : Nat} {a b : OpDesc} (h : st + 1 < n) :
    mainDone s cl o st n false a b none none = setOp s cl o.unslotted := if_neg (by omega)

/-- A K-step that is not the last, without side path and rings: around its rows only the queue and the progress change. -/
theorem loopStep_tiles {s : State} {cl : Nat} {o : EOp} {z n st : Nat} {a b : OpDesc} {f : W32} {ad : List W64} (hbegun : o.begun = true)
    (hrp : (s.eng cl).rp = ⟨st, 0, false, 0⟩) (hst : st + 1 < n) (hbkind : descKind b = 1) (hbscl : descScl b = false) :
    let s' := setOp (setOp s cl { o with sa := none }) cl o.unslotted
    loopStep s cl o z n false a b f ad none none
      = mainRows cl o.unslotted z st f ((List.range 32).map (portLine (s'.eng cl) b f st)) (fun t i => operandLine t cl o.unslotted a none none f st i)
          (fun t => setProg (setOp t cl o.unslotted) cl ⟨st + 1, 0, false, 0⟩) (rangeFrom 0 32) s' := by
  intro s'
  have hrun : ¬ (n ≤ st ∨ false = true) := not_or.mpr ⟨by omega, Bool.false_ne_true⟩
  have hlast : ¬ st + 1 = n := by omega
  rw [loopStep]
  simp only [hrp]
  rw [if_neg hrun, beginLoop_begun hbegun, ringsReady_none, operandLines_tile hbkind hbscl]
  simp only [ERes.pipe, mainDone_none hst, hlast, if_false, Bool.false_and, Bool.false_eq_true]
  rfl

/-- R62, R182, R186: B's columns are read before the first row, so that only A's tile must not be the output. -/
theorem kStep_accumulates {s : State} {o : EOp} {z n st : Nat} {a b : OpDesc} {f : W32} {ad : List W64}
    (hop : engOp s s.curCl false = some o) (hk : o.k = .mloop z n false a b f ad none none) (hbegun : o.begun = true)
    (hrp : (s.eng s.curCl).rp = ⟨st, 0, false, 0⟩) (hst : st + 1 < n) (hakind : descKind a = 1) (hbkind : descKind b = 1) (hascl : descScl a = false)
    (hbscl : descScl b = false) (haz : descTile a + st ≠ z) :
    ∃ t, exec .kStep s = .next t ∧ (t.eng s.curCl).rp = ⟨st + 1, 0, false, 0⟩ ∧ t.mem = s.mem ∧ t.ctxs = s.ctxs
      ∧ ∀ x i j, i < 32 → j < 32 → tileElem (t.eng s.curCl) x i j
          = if x = z then kstep (fmtSat f) (tileElem (s.eng s.curCl) z i j) ((portLine (s.eng s.curCl) a f st i).zip (portLine (s.eng s.curCl) b f st j))
            else tileElem (s.eng s.curCl) x i j := by
  let s' := setOp (setOp s s.curCl { o with sa := none }) s.curCl o.unslotted
  have htiles : ∀ x, SameTile (s'.eng s.curCl) (s.eng s.curCl) x := fun x i j _ _ => by simp only [s', tileElem, setOp_tiles]
  have hexec : exec .kStep s = .next (loopStep s s.curCl o z n false a b f ad none none) := by simp only [exec, execKStep, hop, hk]
  obtain ⟨t, hrows, hframe, ht⟩ := mainRows_accumulates (cl := s.curCl) (o := o.unslotted) (z := z) (st := st) (f := f)
    (al := portLine (s.eng s.curCl) a f st) (bl := portLine (s'.eng s.curCl) b f st)
    (line := fun t i => operandLine t s.curCl o.unslotted a none none f st i)
    (fin := fun t => setProg (setOp t s.curCl o.unslotted) s.curCl ⟨st + 1, 0, false, 0⟩)
    (e := s.eng s.curCl)
    (fun t h i hi => by rw [operandLine_tile hakind hascl, (h _ haz).portLine_eq f hi]) (rows := rangeFrom 0 32) (by simp [rangeFrom])
    (by simpa [rangeFrom] using List.nodup_range) s' fun x _ => htiles x
  refine ⟨_, hexec.trans (congrArg _ ((loopStep_tiles hbegun hrp hst hbkind hbscl).trans hrows)), ?_, ?_, ?_, fun x i j hi hj => ?_⟩
  · rw [eng_setProg]
  · rw [setProg_mem, setOp_mem, hframe]; rfl
  · rw [setProg_ctxs, setOp_ctxs, hframe]; rfl
  · have hmem : i ∈ rangeFrom 0 32 := by simp [rangeFrom, hi]
    have hfin : tileElem ((setProg (setOp t s.curCl o.unslotted) s.curCl ⟨st + 1, 0, false, 0⟩).eng s.curCl) x i j = tileElem (t.eng s.curCl) x i j := by
      simp only [tileElem, eng_setProg, setOp_tiles]
    rw [hfin, ht x i j hi hj, htiles z i j hi hj, htiles x i j hi hj, (htiles _).portLine_eq f hj]
    simp [hmem]

/-! Side steps (R200). -/

/-- T after one row of a side step: each Down line m adds its product with A's line to the row's element m. -/
def sideRow (f : W32) (dl : List (Nat × List FV)) (i : Nat) (a : List FV) (side : SMap W48) : SMap W48 :=
  dl.foldl (fun m p => smSet m (64 * i + p.1) (kstep (fmtSat f) (smGet 0#48 side (64 * i + p.1)) (a.zip p.2))) side

section
variable {dl : List (Nat × List FV)} (hbound : ∀ p ∈ dl, p.1 < 64)

theorem smGet_sideRow (hkeys : (dl.map (·.1)).Nodup) (f : W32) (i : Nat) (a : List FV) (side : SMap W48) {p : Nat × List FV} (hp : p ∈ dl) :
    smGet 0#48 (sideRow f dl i a side) (64 * i + p.1) = kstep (fmtSat f) (smGet 0#48 side (64 * i + p.1)) (a.zip p.2) := by
  refine smGet_foldl_smSet_mem _ (fun p : Nat × List FV => 64 * i + p.1) (fun p => kstep (fmtSat f) (smGet 0#48 side (64 * i + p.1)) (a.zip p.2)) dl side ?_ hp
  simpa only [List.map_map, Function.comp_def] using nodup_map_add (64 * i) hkeys

include hbound

theorem smGet_sideRow_other (f : W32) {i k m : Nat} (hk : k ≠ i) (hm : m < 64) (a : List FV) (side : SMap W48) :
    smGet 0#48 (sideRow f dl i a side) (64 * k + m) = smGet 0#48 side (64 * k + m) := by
  refine smGet_foldl_smSet_out _ (fun p : Nat × List FV => 64 * i + p.1) (fun p => kstep (fmtSat f) (smGet 0#48 side (64 * i + p.1)) (a.zip p.2)) dl side
    fun p hp => ?_
  have := hbound p hp
  omega

/-- The rows of a side step whose A line i is al i for as long as the tiles stay. -/
theorem sideRows_accumulates {cl : Nat} {o : EOp} {f : W32} {al : Nat → List FV} {line : State → Nat → ERes (List FV)} {fin : State → State} {e : Eng}
    (hline : ∀ t, (t.eng cl).tiles = e.tiles → ∀ i, line t i = .ok t (al i)) (hkeys : (dl.map (·.1)).Nodup)
    {rows : List Nat} (hnodup : rows.Nodup) (s : State) (hs : (s.eng cl).tiles = e.tiles) :
    ∃ t, sideRows cl o f dl line fin rows s = fin t ∧ t.eng cl = { s.eng cl with side := (t.eng cl).side }
      ∧ (∀ i ∈ rows, ∀ p ∈ dl,
          smGet 0#48 (t.eng cl).side (64 * i + p.1) = kstep (fmtSat f) (smGet 0#48 (s.eng cl).side (64 * i + p.1)) ((al i).zip p.2))
      ∧ ∀ i m, i ∉ rows → m < 64 → smGet 0#48 (t.eng cl).side (64 * i + m) = smGet 0#48 (s.eng cl).side (64 * i + m) := by
  induction rows generalizing s with
  | nil => exact ⟨s, rfl, rfl, by simp, fun _ _ _ _ => rfl⟩
  | cons i is ih =>
    obtain ⟨hnotin, his⟩ := List.nodup_cons.mp hnodup
    let s' := s.modEng cl fun e => { e with side := sideRow f dl i (al i) e.side }
    have hrun : sideRows cl o f dl line fin (i :: is) s = sideRows cl o f dl line fin is s' := by rw [sideRows, hline s hs i]; rfl
    have hstep : s'.eng cl = { s.eng cl with side := sideRow f dl i (al i) (s.eng cl).side } := eng_modEng_self ..
    obtain ⟨t, hrest, hframe, hin, hout⟩ := ih his s' (by rw [hstep, ← hs])
    rw [hstep] at hframe hin hout
    refine ⟨t, hrun.trans hrest, hframe, fun k hk p hp => ?_, fun k m hk hm => ?_⟩
    · rcases List.mem_cons.mp hk with rfl | hk
      · rw [hout k p.1 hnotin (hbound p hp), smGet_sideRow hkeys f k (al k) _ hp]
      · rw [hin k hk p hp, smGet_sideRow_other hbound f (fun e : k = i => hnotin (e ▸ hk)) (hbound p hp)]
    · obtain ⟨hki, hkis⟩ := not_or.mp fun h => hk (List.mem_cons.mpr h)
      rw [hout k m hkis hm, smGet_sideRow_other hbound f hki hm]

end

/-- Rows that have an adapter (R199). -/
def rowsOf (tags : List Nat) (id : Nat) : List Nat := ((List.range 32).zip tags).filterMap fun p => if p.2 = id then some p.1 else none

theorem rowsOf_eq_filter {tags : List Nat} (h : tags.length = 32) (id : Nat) : rowsOf tags id = (List.range 32).filter fun i => tags.getD i 0 = id := by
  have htags : tags = (List.range 32).map fun i => tags.getD i 0 := by
    refine List.ext_getElem (by simp [h]) fun i hi _ => ?_
    simp [List.getElem?_eq_getElem hi]
  have hzip : (List.range 32).zip tags = (List.range 32).map fun i => (i, tags.getD i 0) := by
    rw [List.map_prod_left_eq_zip, ← htags]
  rw [rowsOf, hzip, List.filterMap_map, ← List.filterMap_eq_filter]
  congr 1
  funext i
  simp [Option.guard]

theorem mem_rowsOf {tags : List Nat} (h : tags.length = 32) {id i : Nat} : i ∈ rowsOf tags id ↔ i < 32 ∧ tags.getD i 0 = id := by
  simp [rowsOf_eq_filter h]

theorem nodup_rowsOf {tags : List Nat} (h : tags.length = 32) (id : Nat) : (rowsOf tags id).Nodup := by
  rw [rowsOf_eq_filter h]
  exact List.nodup_range.filter _

/-- R200: a side step that is not the last of its step, of a loop whose A is a tile. -/
theorem sideStep_accumulates {s u : State} {o : EOp} {z n st k id c : Nat} {a b : OpDesc} {f : W32} {ad : List W64} {dl : List (Nat × List FV)}
    (hop : engOp s s.curCl false = some o) (hk : o.k = .mloop z n true a b f ad none none) (hbegun : o.begun = true)
    (hrp : (s.eng s.curCl).rp = ⟨st, k, true, 0⟩) (hst : st < n) (hakind : descKind a = 1) (hascl : descScl a = false)
    (hside : (sideList (s.eng s.curCl).adTags (s.eng s.curCl).adEnts)[k]? = some (id, c))
    (hlast : k + 1 < (sideList (s.eng s.curCl).adTags (s.eng s.curCl).adEnts).length) (htags : (s.eng s.curCl).adTags.length = 32)
    (hdown : downLines o.cid o.lvl1 (smGet [] (s.eng s.curCl).adEnts id) f ((quadDesc ad).q3.toNat + st)
      ((rangeFrom (32 * c) 32).filter fun m => decide (m < adRank (smGet [] (s.eng s.curCl).adEnts id))) s = .ok u dl)
    (hcls : u.cls = s.cls) (hkeys : (dl.map (·.1)).Nodup) (hbound : ∀ p ∈ dl, p.1 < 64) :
    ∃ t, exec .sideStep s = .next t ∧ t.eng s.curCl = { s.eng s.curCl with side := (t.eng s.curCl).side, rp := ⟨st, k + 1, true, 0⟩ }
      ∧ (∀ i ∈ rowsOf (s.eng s.curCl).adTags id, ∀ p ∈ dl, smGet 0#48 (t.eng s.curCl).side (64 * i + p.1)
          = kstep (fmtSat f) (smGet 0#48 (s.eng s.curCl).side (64 * i + p.1)) ((portLine (s.eng s.curCl) a f st i).zip p.2))
      ∧ ∀ i m, i ∉ rowsOf (s.eng s.curCl).adTags id → m < 64 →
          smGet 0#48 (t.eng s.curCl).side (64 * i + m) = smGet 0#48 (s.eng s.curCl).side (64 * i + m) := by
  have hu := eng_of_cls hcls s.curCl
  have hexec : exec .sideStep s = .next (loopSide s s.curCl o z n a f ad none) := by simp only [exec, execSideStep, hop, hk]
  obtain ⟨t, hrows, hframe, hin, hout⟩ := sideRows_accumulates (cl := s.curCl) (o := o) (f := f) (al := portLine (s.eng s.curCl) a f st)
    (line := fun t i => operandLine t s.curCl o a none o.sa f st i) (fin := fun t => setProg t s.curCl ⟨st, k + 1, true, 0⟩) (e := s.eng s.curCl) hbound
    (fun t ht i => by rw [operandLine_tile hakind hascl, portLine_of_tiles ht]) hkeys (nodup_rowsOf htags id) u (by rw [hu])
  refine ⟨setProg t s.curCl ⟨st, k + 1, true, 0⟩, hexec.trans (congrArg _ ?_), ?_, ?_, ?_⟩
  · have hrun : ¬ (n ≤ st ∨ (!true) = true) := not_or.mpr ⟨by omega, Bool.false_ne_true⟩
    rw [loopSide]
    simp only [hrp]
    rw [if_neg hrun, beginLoop_begun hbegun]
    simp only [hside, hdown, ERes.pipe, hlast, if_true]
    change (if ((sideRows _ _ _ _ _ _ (rowsOf _ _) _).eng _).rp = _ then _ else sideRows _ _ _ _ _ _ (rowsOf _ _) _) = _
    rw [hrows, if_neg]
    simp
  · rw [eng_setProg, hframe, hu]
  · simpa only [eng_setProg, hu] using hin
  · simpa only [eng_setProg, hu] using hout

end Sys2Proof.Machine

open Sys2Proof Sys2Proof.Machine

/-- Settles O26: the K-step by `kStep_accumulates`, the side step by `sideStep_accumulates`. -/
theorem engineStepsAccumulateOnce : Obligations.EngineStepsAccumulateOnce := by
  refine ⟨?_, ?_⟩
  · intro s o z n st a b f ad cl e hop hk hbegun hrp hst hakind hbkind hascl hbscl haz _ line
    obtain ⟨t, hexec, hprog, hmem, hctxs, htiles⟩ := kStep_accumulates hop hk hbegun hrp hst hakind hbkind hascl hbscl haz
    exact ⟨t, hexec, hprog, fun i j hi hj => (htiles z i j hi hj).trans (if_pos rfl), fun x i j hx hi hj => (htiles x i j hi hj).trans (if_neg hx),
      hmem, hctxs⟩
  · intro s u o z n st k id c a b f ad dl cl e hop hk hbegun hrp hst hakind hascl hside hlast htags en hdown hcls hkeys hbound line
    obtain ⟨t, hexec, heng, hin, hout⟩ := sideStep_accumulates hop hk hbegun hrp hst hakind hascl hside hlast htags hdown hcls hkeys hbound
    exact ⟨t, hexec, (congrArg Eng.rp heng :), (congrArg Eng.tiles heng :), fun i hi hid p hp => hin i ((mem_rowsOf htags).mpr ⟨hi, hid⟩) p hp,
      fun i m _ hm hid => hout i m (fun h => hid ((mem_rowsOf htags).mp h).2) hm⟩
end

section
/-! Streams and traps of the executing context: the entries that streams take, the STRETCH faults (R98, R99, R107, R112, R115, R276). -/

namespace Sys2Proof.Machine

/-! The executing context's record. -/

theorem meIs_setCtx (s : State) (c : Ctx) : MeIs s (s.setCtx s.cur c) c := ⟨onlyMe_setCtx s c, me_setCtx_self s c⟩

theorem OnlyMe.of_setMe {s t : State} {c : Ctx} (h : OnlyMe (s.setCtx s.cur c) t) : OnlyMe s t :=
  ⟨h.1, fun k hk => (h.2 k hk).trans (by rw [ctx_setCtx, if_neg hk])⟩

theorem counted_eq (c : Ctx) (us : Nat) : c.counted us = { c with owed := (c.counted us).owed, runUs := (c.counted us).runUs } := by
  unfold Ctx.counted; split
  · rfl
  · split <;> rfl

/-- What a word leaves of a context's stream, capture and team does not depend on its passing the word. -/
theorem past_with (c : Ctx) (us n : Nat) (team : Team) (strm : Strm) (cap : Cap) :
    ({ c with team := team, strm := strm, cap := cap } : Ctx).past us n = { c.past us n with team := team, strm := strm, cap := cap } := by
  have hcharged : Ctx.charged { c with team := team, strm := strm, cap := cap } = c.charged := rfl
  simp only [Ctx.past, Ctx.counted, hcharged]
  split
  · rfl
  · split <;> rfl

@[simp] theorem past_cap (c : Ctx) (us n : Nat) : (c.past us n).cap = c.cap := by rw [past_eq]

theorem past_withCap (c : Ctx) (us n : Nat) (cap : Cap) : ({ c with cap := cap } : Ctx).past us n = { c.past us n with cap := cap } := by
  simpa using past_with c us n c.team c.strm cap
theorem past_withStrm (c : Ctx) (us n : Nat) (strm : Strm) : ({ c with strm := strm } : Ctx).past us n = { c.past us n with strm := strm } := by
  simpa using past_with c us n c.team strm c.cap
theorem past_withTeamStrm (c : Ctx) (us n : Nat) (team : Team) (strm : Strm) :
    ({ c with team := team, strm := strm } : Ctx).past us n = { c.past us n with team := team, strm := strm } := by
  simpa using past_with c us n team strm c.cap
theorem past_withCapStrm (c : Ctx) (us n : Nat) (strm : Strm) (cap : Cap) :
    ({ c with strm := strm, cap := cap } : Ctx).past us n = { c.past us n with strm := strm, cap := cap } := by
  simpa using past_with c us n c.team strm cap

theorem meIs_adv (s : State) : MeIs s s.adv (s.me.past s.us 1) := by
  rw [State.adv_eq]; exact meIs_setCtx ..

/-- A word that changes its context's record, and ends. -/
theorem meIs_modMe_adv (s : State) (f : Ctx → Ctx) : MeIs s (s.modMe f).adv ((f s.me).past s.us 1) := by
  simp only [modMe_eq, State.adv_eq, setCtx_cur, setCtx_setCtx, me_setCtx_self]
  exact meIs_setCtx ..
theorem meIs_cap_adv (s : State) (cap : Cap) : MeIs s (s.modMe fun c => { c with cap := cap }).adv { s.me.past s.us 1 with cap := cap } :=
  past_withCap s.me s.us 1 cap ▸ meIs_modMe_adv s _

/-! Contexts of a group (R112). -/

/-- The other contexts whose streams take what the executing context emits. -/
def listeners (s : State) : List Nat := if s.me.strm.mcOn then followers s s.me else []

theorem receivers_eq (s : State) : receivers s = s.cur :: listeners s := by unfold receivers listeners; split <;> rfl

theorem listeners_off {s : State} (h : s.me.strm.mcOn = false) : listeners s = [] := if_neg (by simp [h])
theorem listeners_on {s : State} (h : s.me.strm.mcOn = true) : listeners s = followers s s.me := if_pos h

theorem nodup_followers (s : State) (c : Ctx) : (followers s c).Nodup := by
  refine List.Pairwise.map _ (fun g g' hne heq => hne ?_) (List.nodup_range.filter _)
  simp only [cidOf] at heq
  omega

theorem nodup_listeners (s : State) : (listeners s).Nodup := by
  unfold listeners; split
  · exact nodup_followers ..
  · exact List.nodup_nil

/-- The records of the executing context and of the contexts in fs alone differ: the former is c, each of the latter is changed by g. -/
def GroupIs (s t : State) (fs : List Nat) (c : Ctx) (g : Ctx → Ctx) : Prop :=
  t = { s with ctxs := t.ctxs } ∧ t.me = c ∧ (∀ f ∈ fs, t.ctx f = g (s.ctx f)) ∧ ∀ j, j ∉ fs → j ≠ s.cur → t.ctx j = s.ctx j

theorem GroupIs.refl (s : State) (fs : List Nat) : GroupIs s s fs s.me id := ⟨rfl, rfl, fun _ _ => rfl, fun _ _ _ => rfl⟩

section
variable {s t : State} {fs : List Nat} {c : Ctx} {g : Ctx → Ctx}

theorem GroupIs.cur_eq (h : GroupIs s t fs c g) : t.cur = s.cur := by rw [h.1]
theorem GroupIs.us_eq (h : GroupIs s t fs c g) : t.us = s.us := by rw [h.1]

theorem GroupIs.meIs (h : GroupIs s t [] c g) : MeIs s t c := by
  obtain ⟨hstate, hme, -, hother⟩ := h
  exact ⟨⟨hstate, fun k hk => hother k List.not_mem_nil hk⟩, hme⟩

/-- The executing context's record is replaced. -/
theorem GroupIs.setMe (h : GroupIs s t fs c g) (hcur : s.cur ∉ fs) (c' : Ctx) : GroupIs s (t.setCtx t.cur c') fs c' g := by
  have hc := h.cur_eq
  obtain ⟨hstate, -, hin, hout⟩ := h
  refine ⟨by rw [hstate]; rfl, me_setCtx_self t c', fun f hf => ?_, fun j hj hne => ?_⟩
  · rw [hc, ctx_setCtx, if_neg fun e : f = s.cur => hcur (e ▸ hf), hin f hf]
  · rw [hc, ctx_setCtx, if_neg hne, hout j hj hne]

theorem GroupIs.modMe (h : GroupIs s t fs c g) (hcur : s.cur ∉ fs) (f : Ctx → Ctx) : GroupIs s (t.modMe f) fs (f c) g := by
  rw [modMe_eq, h.2.1]
  exact h.setMe hcur _

theorem GroupIs.advN (h : GroupIs s t fs c g) (hcur : s.cur ∉ fs) (n : Nat) : GroupIs s (t.advN n) fs (c.past s.us n) g :=
  h.us_eq ▸ h.modMe hcur fun c => c.past t.us n

end

/-- Each context of a list without repetitions is changed once. -/
theorem foldl_modCtx (g : Ctx → Ctx) {fs : List Nat} (hnodup : fs.Nodup) (s : State) :
    let t := fs.foldl (fun t k => t.modCtx k g) s
    t = { s with ctxs := t.ctxs } ∧ ∀ j, t.ctx j = if j ∈ fs then g (s.ctx j) else s.ctx j := by
  induction fs generalizing s with
  | nil => exact ⟨rfl, fun j => by simp⟩
  | cons k ks ih =>
    obtain ⟨hk, hks⟩ := List.nodup_cons.mp hnodup
    obtain ⟨hstate, hctx⟩ := ih hks (s.modCtx k g)
    refine ⟨by rw [List.foldl_cons, hstate]; rfl, fun j => ?_⟩
    rw [List.foldl_cons, hctx, modCtx_eq, ctx_setCtx]
    by_cases hj : j = k
    · simp [hj, hk]
    · simp [hj]

/-- The contexts in fs are changed, after the executing context's record became c and theirs were changed by g. -/
theorem GroupIs.foldl_modCtx {s t : State} {fs : List Nat} {c : Ctx} {g : Ctx → Ctx} (h : GroupIs s t fs c g) (hcur : s.cur ∉ fs) (hnodup : fs.Nodup)
    (g' : Ctx → Ctx) : GroupIs s (fs.foldl (fun t k => t.modCtx k g') t) fs c (g' ∘ g) := by
  have hc := h.cur_eq
  obtain ⟨hstate, hme, hin, hout⟩ := h
  obtain ⟨hstate', hctx⟩ := Machine.foldl_modCtx g' hnodup t
  refine ⟨by rw [hstate', hstate], ?_, fun f hf => ?_, fun j hj hne => ?_⟩
  · rw [State.me, hctx, hstate', hc, if_neg hcur, ← hc]; exact hme
  · rw [hctx, if_pos hf, hin f hf]; rfl
  · rw [hctx, if_neg hj, hout j hj hne]

/-! Entries (R98, R99). -/

theorem foldl_pushEnt (s : State) (e : SEnt) (fs : List Nat) :
    fs.foldl (fun s cid => pushEnt s cid e) s = fs.foldl (fun t k => t.modCtx k fun c => c.queues s.mc e) s := by
  suffices h : ∀ t : State, t.mc = s.mc → fs.foldl (fun s cid => pushEnt s cid e) t = fs.foldl (fun t k => t.modCtx k fun c => c.queues s.mc e) t from
    h s rfl
  induction fs with
  | nil => exact fun _ _ => rfl
  | cons k ks ih =>
    intro t ht
    rw [List.foldl_cons, List.foldl_cons, pushEnt, ht]
    exact ih _ ht

/-- An entry enters the stream of the executing context and those of its listeners. -/
theorem emitEnt_group {s : State} (hcur : s.cur ∉ listeners s) (e : SEnt) :
    GroupIs s (emitEnt s e) (listeners s) (s.me.queues s.mc e) fun c => c.queues s.mc e := by
  rw [emitEnt, receivers_eq, foldl_pushEnt]
  obtain ⟨hstate, hctx⟩ := foldl_modCtx (fun c => c.queues s.mc e) (List.nodup_cons.mpr ⟨hcur, nodup_listeners s⟩) s
  refine ⟨hstate, ?_, fun f hf => ?_, fun j hj hne => ?_⟩
  · rw [State.me, hctx, hstate, if_pos List.mem_cons_self]; rfl
  · rw [hctx, if_pos (List.mem_cons_of_mem _ hf)]
  · rw [hctx, if_neg (by simp [hj, hne])]

/-- Every listener is in RECV, and has room for n words. -/
def ListenersFit (s : State) (n : Nat) : Prop :=
  ∀ f ∈ listeners s, entWords (s.ctx f).strm.ents + n ≤ 128 ∧ (s.ctx f).strm.mcRecv = true

theorem listenersFit_off {s : State} (h : s.me.strm.mcOn = false) (n : Nat) : ListenersFit s n := by
  intro f hf
  rw [listeners_off h] at hf
  exact absurd hf List.not_mem_nil

theorem cur_notMem_listeners_off {s : State} (h : s.me.strm.mcOn = false) : s.cur ∉ listeners s := by
  rw [listeners_off h]; exact List.not_mem_nil

theorem roomFor_of_fits {s : State} {n : Nat} (hme : entWords s.me.strm.ents + n ≤ 128) (hfit : ListenersFit s n) : roomFor s n = true := by
  rw [roomFor, receivers_eq, List.all_cons, Bool.and_eq_true, List.all_eq_true]
  refine ⟨?_, fun f hf => ?_⟩
  · have hfree : n ≤ (s.ctx s.cur).strm.free := by
      change n ≤ 128 - entWords s.me.strm.ents
      omega
    simp [hfree]
  · obtain ⟨hroom, hrecv⟩ := hfit f hf
    have hfree : n ≤ (s.ctx f).strm.free := by
      change n ≤ 128 - entWords (s.ctx f).strm.ents
      omega
    simp [hfree, hrecv]

theorem roomFor_full {s : State} {n : Nat} (hn : 0 < n) (hme : 128 < entWords s.me.strm.ents + n) : roomFor s n = false := by
  have hfree : ¬ n ≤ (s.ctx s.cur).strm.free := by
    change ¬ n ≤ 128 - entWords s.me.strm.ents
    omega
  simp [roomFor, receivers_eq, hfree]

/-! Traps (R276) and STRETCH faults (R115). -/

/-- A trap does not depend on what the context's record holds beyond what the handler finds and what it waited on. -/
theorem Trapped.of_setMe {s t : State} {c : Ctx} {reason info epc : W64} (htrap : c.trap = s.me.trap) (hg : c.g = s.me.g) (hteam : c.team = s.me.team)
    (hwatch : c.watch = s.me.watch) (hcl : c.cl = s.me.cl) (h : Trapped (s.setCtx s.cur c) t reason info epc) : Trapped s t reason info epc := by
  obtain ⟨hpc, hepc, hreason, hinfo, hpl, hintrap, hvec, hgt, hteamt, hother, hmem, hcls, hrows, hempt⟩ := h
  rw [me_setCtx_self] at hpc hvec hgt hteamt
  refine ⟨htrap ▸ hpc, hepc, hreason, hinfo, hpl, hintrap, htrap ▸ hvec, hgt.trans hg, hteamt.trans hteam, fun k hk => ?_, ?_, hcls, hrows, hempt⟩
  · rw [hother k hk, ctx_setCtx, if_neg hk]
  · exact hmem.trans (clearWaitcl_setCtx s s.cur c hwatch hcl)

/-- A trap that goes to the handler. -/
theorem takeTrap_eq_trapGo (s : State) (r : TrapRec) (hv : canTrap s) (hn : r.code ≠ fNOTPRESENT) :
    takeTrap s s.cur r
      = trapGo ((trapRegs s s.cur r).modCtx s.cur fun c => { c with trap := { c.trap with restoring := false } }) s.cur s.me.trap.vec := by
  obtain ⟨hvec, hintrap⟩ := hv
  have hgo : ¬((s.ctx s.cur).trap.vec = 0 ∨ (s.ctx s.cur).trap.intrap = true) := by
    rintro (h | h)
    · exact hvec h
    · exact Bool.false_ne_true (hintrap.symm.trans h)
  unfold takeTrap
  rw [if_neg hn, if_neg hgo]
  rfl

/-- What trap entry does to the capture and to the stream: holes that are pending are put by, a QSET that waits is over. -/
theorem takeTrap_streams (s : State) (r : TrapRec) (hv : canTrap s) (hn : r.code ≠ fNOTPRESENT) :
    (takeTrap s s.cur r).me.cap = s.me.cap.putBy ∧ (takeTrap s s.cur r).me.strm.ents = s.me.strm.ents.filter fun e => !isQset e := by
  obtain ⟨hctxs, hcur, -⟩ := unwait_eqs s s.cur
  have hrecord : (unwait s s.cur).ctx s.cur = s.me := by rw [State.ctx, hctxs]; rfl
  rw [takeTrap_eq_trapGo s r hv hn]
  simp only [trapGo, trapRegs, modCtx_eq, State.me, setCtx_cur, hcur, hrecord, ctx_setCtx_self]
  rw [counted_eq]
  exact ⟨rfl, rfl⟩

theorem trap_streams (s : State) (code : Nat) (info : W64) (hv : canTrap s) (hn : plainCode code ≠ fNOTPRESENT) :
    (trap s code info).me.cap = s.me.cap.putBy ∧ (trap s code info).me.strm.ents = s.me.strm.ents.filter fun e => !isQset e := by
  obtain ⟨pf, ts, os, ws, hnote⟩ := noteFault_eq s s.me code
  unfold trap
  rw [hnote]
  generalize hu : State.modMe _ _ = u
  have hme : u.me = { s.me with dbg := { s.me.dbg with skip1 := false } } := by rw [← hu]; exact ctx_setCtx_self ..
  have hcur : s.cur = u.cur := by rw [← hu]; rfl
  rw [hcur]
  have hv' : canTrap u := by rw [canTrap, hme]; exact hv
  rw [show s.me.cap = u.me.cap by rw [hme], show s.me.strm.ents = u.me.strm.ents by rw [hme]]
  exact takeTrap_streams u _ hv' hn

/-- The capture store once the open capture is given up (R107). -/
def Cap.abandoned (c : Cap) : Cap :=
  match c.openR with
  | .none => c
  | some r => { openR := .none, holes := [], kept := [], want := 0, rakes := smSet c.rakes r { smGet Rake.zero c.rakes r with flags := 0 } }

theorem Cap.abandoned_open {c : Cap} {r : Nat} (h : c.openR = some r) : c.abandoned =
    { openR := .none, holes := [], kept := [], want := 0, rakes := smSet c.rakes r { smGet Rake.zero c.rakes r with flags := 0 } } := by
  simp only [Cap.abandoned, h]

theorem abandonCapture_eq (s : State) : abandonCapture s = s.setCtx s.cur { s.me with cap := s.me.cap.abandoned } := by
  cases hopen : s.me.cap.openR <;> simp only [abandonCapture, modMe_eq, Cap.abandoned, hopen]

section
variable {s : State} (htrap : canTrap s)
include htrap

theorem stretch_trapped (sub : Nat) : Trapped s (stretch s sub false) 0x0D#64 (BitVec.ofNat 64 sub) s.me.pc :=
  trap_handled s fSTRETCH _ htrap (by decide)

theorem stretch_streams (sub : Nat) : (stretch s sub false).me.cap = s.me.cap.putBy
    ∧ (stretch s sub false).me.strm.ents = s.me.strm.ents.filter fun e => !isQset e :=
  trap_streams s fSTRETCH _ htrap (by decide)

/-- A fault that gives up an open capture is one of the context whose capture has been given up. -/
theorem canTrap_abandoned : canTrap (abandonCapture s) := by
  rw [abandonCapture_eq, canTrap, me_setCtx_self]; exact htrap

theorem stretch_abandon_trapped (sub : Nat) : Trapped s (stretch s sub true) 0x0D#64 (BitVec.ofNat 64 sub) s.me.pc := by
  have h := stretch_trapped (canTrap_abandoned htrap) sub
  change Trapped s (stretch (abandonCapture s) sub false) _ _ _
  generalize stretch (abandonCapture s) sub false = t at h ⊢
  rw [abandonCapture_eq, me_setCtx_self] at h
  refine Trapped.of_setMe ?_ ?_ ?_ ?_ ?_ h <;> rfl

theorem stretch_abandon_streams (sub : Nat) : (stretch s sub true).me.cap = s.me.cap.abandoned.putBy
    ∧ (stretch s sub true).me.strm.ents = s.me.strm.ents.filter fun e => !isQset e := by
  have h := stretch_streams (canTrap_abandoned htrap) sub
  rwa [show (abandonCapture s).me = { s.me with cap := s.me.cap.abandoned } by rw [abandonCapture_eq, me_setCtx_self]] at h

end

end Sys2Proof.Machine
end

section
/-! O15: emission and capture (R47, R98, R99, R107, R108). -/

namespace Sys2Proof.Machine

theorem bitOf_eq_testBit (v k : Nat) : bitOf v k = v.testBit k := (Nat.testBit_eq_decide_div_mod_eq ..).symm

theorem rakeBusy_eq_false_iff {s : State} {r : Nat} :
    rakeBusy s r = false ↔ ∀ cid ∈ s.cur :: followers s s.me, (s.ctx cid).strm.hasInst s.cur r = false := by
  simp only [rakeBusy, List.any_eq_false, Bool.not_eq_true]

/-- A unit that passes its check has a word. -/
theorem checkUnit_length_pos {g : GReg → W64} {ws us : List W64} {i : Instr} (h : checkUnit g ws = .ok (i, us)) : 0 < us.length := by
  suffices ∃ ps w r, us = ps ++ w :: r by
    obtain ⟨ps, w, r, rfl⟩ := this
    rw [List.length_append, List.length_cons]
    omega
  unfold checkUnit at h
  dsimp only at h
  repeat' split at h
  all_goals cases h
  all_goals exact ⟨_, _, _, rfl⟩

/-! A unit of emission (R99). -/

section
variable {s : State} {ws us : List W64} {i : Instr}

/-- The capture store once a unit with the holes hs is emitted: an open rake has the unit as captured, and no hole is pending. -/
def Cap.takes (c : Cap) (code us : List W64) (hs : List (Nat × HoleKind × W64)) (vote : Bool) : Cap :=
  { (match c.openR with
      | .none => c
      | some r => { c with rakes := smSet c.rakes r (rakeAppend (smGet Rake.zero c.rakes r) code us hs vote) }) with holes := [], want := 0 }

/-- The context's record once it has emitted a unit. -/
def Ctx.emits (c : Ctx) (mc clk : Nat) (code us : List W64) (vote : Bool) : Ctx :=
  let q := (c.queues mc (.lane c.pc (fillHoles code us c.cap.holes))).past clk us.length
  { q with strm := { q.strm with votesOut := c.strm.votesOut + b2n vote }, cap := c.cap.takes code us c.cap.holes vote }

theorem emitUnit_eq (s : State) (code us : List W64) (i : Instr) :
    emitUnit s code us i = ((emitEnt s (.lane s.me.pc (fillHoles code us s.me.cap.holes))).modMe fun c => { c with
      cap := c.cap.takes code us s.me.cap.holes (isQVote i), strm := { c.strm with votesOut := c.strm.votesOut + b2n (isQVote i) } }).advN us.length :=
  rfl

theorem emitUnit_group (hcur : s.cur ∉ listeners s) (code us : List W64) (i : Instr) :
    GroupIs s (emitUnit s code us i) (listeners s) (s.me.emits s.mc s.us code us (isQVote i))
      fun c => c.queues s.mc (.lane s.me.pc (fillHoles code us s.me.cap.holes)) := by
  rw [emitUnit_eq, Ctx.emits, past_strm, ← past_withCapStrm]
  exact ((emitEnt_group hcur _).modMe hcur fun c => { c with
    cap := c.cap.takes code us s.me.cap.holes (isQVote i), strm := { c.strm with votesOut := c.strm.votesOut + b2n (isQVote i) } }).advN hcur us.length

theorem Cap.takes_closed {c : Cap} (h : c.openR = .none) (code us : List W64) (vote : Bool) : c.takes code us c.holes vote = { c with holes := [], want := 0 } := by
  simp only [Cap.takes, h]

theorem Cap.takes_plain {c : Cap} {r : Nat} (h : c.openR = some r) (hholes : c.holes = []) (code us : List W64) (vote : Bool) :
    c.takes code us c.holes vote = { c with want := 0, rakes := smSet c.rakes r { smGet Rake.zero c.rakes r with
      ws := (smGet Rake.zero c.rakes r).ws ++ us, votes := (smGet Rake.zero c.rakes r).votes + b2n vote } } := by
  simp only [Cap.takes, rakeAppend, h, hholes, List.foldl_nil]

/-- R108: a hole of the unit becomes one of the open rake, with its place, its kind and its capture value. -/
theorem Cap.takes_hole {c : Cap} {r h j : Nat} {kind : HoleKind} {v : W64} {code : List W64} (hopen : c.openR = some r) (hholes : c.holes = [(h, kind, v)])
    (hat : holeAt code kind = some j) (us : List W64) (vote : Bool) :
    c.takes code us c.holes vote = { c with holes := [], want := 0, rakes := smSet c.rakes r { smGet Rake.zero c.rakes r with
      ws := (smGet Rake.zero c.rakes r).ws ++ us, votes := (smGet Rake.zero c.rakes r).votes + b2n vote,
      hmask := orBit (smGet Rake.zero c.rakes r).hmask h,
      holes := smSet (smGet Rake.zero c.rakes r).holes h ((smGet Rake.zero c.rakes r).ws.length + j + 512 * kind.code.toNat),
      last := smSet (smGet Rake.zero c.rakes r).last h v } } := by
  simp only [Cap.takes, rakeAppend, hopen, hholes, hat, List.foldl_cons, List.foldl_nil, Option.getD_some]

/-- No hole that is pending lacks its field when none is pending. -/
theorem noBadHole_nil {c : Cap} (h : c.holes = []) (code : List W64) : c.holes.any (fun x => (holeAt code x.2.1).isNone) = false := by rw [h]; rfl

theorem fillHoles_nil {c : Cap} (h : c.holes = []) (code us : List W64) : fillHoles code us c.holes = us := by rw [h]; rfl

theorem fillHoles_hole {c : Cap} {code : List W64} {h j : Nat} {kind : HoleKind} {v : W64} (hholes : c.holes = [(h, kind, v)])
    (hat : holeAt code kind = some j) (us : List W64) : fillHoles code us c.holes = us.set j (holePut kind (us.getD j 0) v) := by
  simp only [fillHoles, hholes, List.foldl_cons, List.foldl_nil, hat]

/-- Words of the open rake. -/
def Cap.openWords (c : Cap) : Nat := match c.openR with | some r => (smGet Rake.zero c.rakes r).ws.length | .none => 0

/-! LANE_UNIT_EMISSION, by the outcome of its tests, which come in the order of `execLaneUnitEmission`. -/

theorem exec_unit_illegal (hsave : s.me.trap.inSave = false) {k : Nat} (hcheck : checkUnit s.reg ws = .error (.illegalLane k)) :
    exec (.laneUnitEmission ws) s = .next (trap s fILLEGAL (s.me.pc + BitVec.ofNat 64 (8 * k))) := by
  change execLaneUnitEmission ws s = _
  simp [execLaneUnitEmission, hsave, hcheck]

theorem exec_unit_prefixMisuse (hsave : s.me.trap.inSave = false) (hcheck : checkUnit s.reg ws = .error .prefixMisuse) :
    exec (.laneUnitEmission ws) s = .next (trap s fPREFIX 0) := by
  change execLaneUnitEmission ws s = _
  simp [execLaneUnitEmission, hsave, hcheck]

section
variable (hsave : s.me.trap.inSave = false ∨ s.me.trap.svDone = true) (hcheck : checkUnit s.reg ws = .ok (i, us))
  (hlegal : illegalHere s.me.team i = false) (hbound : boundClear s.me.team i = false)
include hsave hcheck hlegal hbound

/-- A field that a pending hole cannot fill. -/
theorem exec_unit_badHole (hhole : s.me.cap.holes.any (fun h => (holeAt (ws.take us.length) h.2.1).isNone) = true) :
    exec (.laneUnitEmission ws) s = .next (stretch s 0x04 false) := by
  have hpass : (s.me.trap.inSave && !s.me.trap.svDone) = false := by rcases hsave with h | h <;> simp [h]
  change execLaneUnitEmission ws s = _
  simp only [execLaneUnitEmission, hpass, hcheck, hlegal, hbound, hhole, Bool.false_eq_true, if_false, if_true]

variable (hholes : s.me.cap.holes.any (fun h => (holeAt (ws.take us.length) h.2.1).isNone) = false)
  (hroom : isQVote i = true → s.me.strm.votesOut < 16) (hsolo : isQVote i = true → s.me.strm.mcOn = false)
include hholes hroom hsolo

/-- The unit has passed its tests but for the length of the rake and the room in the streams. -/
theorem exec_unit_passed :
    exec (.laneUnitEmission ws) s = .next
      (if s.me.cap.openR.isSome && 512 < s.me.cap.openWords + us.length then stretch s 0x07 true
        else if !roomFor s us.length then s.setCtx s.cur { s.me with cap := { s.me.cap with want := us.length } }
        else emitUnit s (ws.take us.length) us i) := by
  have hpass : (s.me.trap.inSave && !s.me.trap.svDone) = false := by rcases hsave with h | h <;> simp [h]
  have hvotes : (isQVote i && decide (16 ≤ s.me.strm.votesOut)) = false := by
    cases hq : isQVote i
    · rfl
    · simpa using hroom hq
  have hcast : (isQVote i && s.me.strm.mcOn) = false := by
    cases hq : isQVote i
    · rfl
    · simpa using hsolo hq
  change execLaneUnitEmission ws s = _
  simp only [execLaneUnitEmission, hpass, hcheck, hlegal, hbound, hholes, hvotes, hcast, Bool.false_eq_true, if_false]
  rfl

theorem exec_unit_noRoom (hopen : s.me.cap.openR = none) (hfull : 128 < entWords s.me.strm.ents + us.length) :
    exec (.laneUnitEmission ws) s = .next (s.setCtx s.cur { s.me with cap := { s.me.cap with want := us.length } }) := by
  rw [exec_unit_passed hsave hcheck hlegal hbound hholes hroom hsolo]
  simp [hopen, roomFor_full (checkUnit_length_pos hcheck) hfull]

theorem exec_unit_tooLong {r : Nat} (hopen : s.me.cap.openR = some r) (hlong : 512 < (smGet Rake.zero s.me.cap.rakes r).ws.length + us.length) :
    exec (.laneUnitEmission ws) s = .next (stretch s 0x07 true) := by
  rw [exec_unit_passed hsave hcheck hlegal hbound hholes hroom hsolo]
  simp [hopen, Cap.openWords, hlong]

theorem exec_unit_emits (hshort : ∀ r, s.me.cap.openR = some r → (smGet Rake.zero s.me.cap.rakes r).ws.length + us.length ≤ 512)
    (hme : entWords s.me.strm.ents + us.length ≤ 128) (hfit : ListenersFit s us.length) :
    exec (.laneUnitEmission ws) s = .next (emitUnit s (ws.take us.length) us i) := by
  have hlen : (s.me.cap.openR.isSome && decide (512 < s.me.cap.openWords + us.length)) = false := by
    cases hopen : s.me.cap.openR with
    | none => rfl
    | some r => simpa [Cap.openWords, hopen] using hshort r hopen
  rw [exec_unit_passed hsave hcheck hlegal hbound hholes hroom hsolo, hlen, roomFor_of_fits hme hfit]
  rfl

theorem exec_unit_emits_meIs (hmc : s.me.strm.mcOn = false)
    (hshort : ∀ r, s.me.cap.openR = some r → (smGet Rake.zero s.me.cap.rakes r).ws.length + us.length ≤ 512)
    (hme : entWords s.me.strm.ents + us.length ≤ 128) :
    ∃ t, exec (.laneUnitEmission ws) s = .next t ∧ MeIs s t (s.me.emits s.mc s.us (ws.take us.length) us (isQVote i)) :=
  ⟨_, exec_unit_emits hsave hcheck hlegal hbound hholes hroom hsolo hshort hme (listenersFit_off hmc _),
    (listeners_off hmc ▸ emitUnit_group (cur_notMem_listeners_off hmc) (ws.take us.length) us i).meIs⟩

end
end

/-! BEGIN.S, END.S and HOLE (R107, R108). -/

section
variable {s : State}

theorem exec_beginS {r : BitVec 6} (hopen : s.me.cap.openR = none) (hidle : rakeBusy s r.toNat = false) :
    exec (.beginS r) s = .next (s.modMe fun c => { c with cap := { s.me.cap with
      openR := some r.toNat, rakes := smSet s.me.cap.rakes r.toNat { Rake.zero with flags := 2, beginpc := s.me.pc } } }).adv := by
  change execBeginS r s = _
  simp [execBeginS, hopen, hidle]

theorem exec_beginS_nested {r : BitVec 6} (hopen : s.me.cap.openR ≠ none) : exec (.beginS r) s = .next (stretch s 0x05 false) := by
  change execBeginS r s = _
  rw [execBeginS, if_pos (Option.isSome_iff_ne_none.mpr hopen)]

theorem exec_endS {q : Nat} (hopen : s.me.cap.openR = some q) (hwords : (smGet Rake.zero s.me.cap.rakes q).ws ≠ []) :
    exec .endS s = .next (s.modMe fun c => { c with cap := { s.me.cap with
      openR := none, rakes := smSet s.me.cap.rakes q { smGet Rake.zero s.me.cap.rakes q with flags := 1 } } }).adv := by
  change execEndS s = _
  simp [execEndS, hopen, hwords]

theorem exec_endS_closed (hopen : s.me.cap.openR = none) : exec .endS s = .next (stretch s 0x06 false) := by
  change execEndS s = _
  simp only [execEndS, hopen]

theorem exec_endS_empty {q : Nat} (hopen : s.me.cap.openR = some q) (hwords : (smGet Rake.zero s.me.cap.rakes q).ws = []) :
    exec .endS s = .next (stretch s 0x06 true) := by
  change execEndS s = _
  simp [execEndS, hopen, hwords]

theorem exec_hole {q : Nat} {h : BitVec 3} {kind : HoleKind} {v : GSrc} (hopen : s.me.cap.openR = some q)
    (hmask : (smGet Rake.zero s.me.cap.rakes q).hmask.testBit h.toNat = false) (hpending : ∀ x ∈ s.me.cap.holes, x.1 ≠ h.toNat) :
    exec (.hole h kind v) s = .next (s.modMe fun c => { c with cap := { s.me.cap with holes := s.me.cap.holes ++ [(h.toNat, kind, s.src v)] } }).adv := by
  have hnone : (s.me.cap.holes.any fun x => decide (x.1 = h.toNat)) = false := by simpa using hpending
  change execHole h kind v s = _
  simp [execHole, hopen, bitOf_eq_testBit, hmask, hnone]

theorem exec_hole_again {q : Nat} {h : BitVec 3} {kind : HoleKind} {v : GSrc} (hopen : s.me.cap.openR = some q)
    (hmask : (smGet Rake.zero s.me.cap.rakes q).hmask.testBit h.toNat = true) : exec (.hole h kind v) s = .next (stretch s 0x02 false) := by
  change execHole h kind v s = _
  simp [execHole, hopen, bitOf_eq_testBit, hmask]

theorem exec_hole_closed {h : BitVec 3} {kind : HoleKind} {v : GSrc} (hopen : s.me.cap.openR = none) :
    exec (.hole h kind v) s = .next (stretch s 0x01 false) := by
  change execHole h kind v s = _
  simp only [execHole, hopen]

end

end Sys2Proof.Machine

open Sys2Proof Sys2Proof.Machine

/-- Settles O15: a unit by the outcome of its tests (`exec_unit_emits` and its neighbours) and by what `Cap.takes` leaves in the rake; the words of
capture by an equation for each of their branches. -/
theorem emissionAppendsTheUnitToStreamAndCapture : Obligations.EmissionAppendsTheUnitToStreamAndCapture := by
  refine ⟨?_, ?_⟩
  · intro s ws us i c vote sent
    refine ⟨fun hsave hcheck hlegal hbound hvotes hmc => ?_, fun hsave htrap => ⟨fun k hcheck => ?_, fun hcheck => ?_⟩⟩
    · have hsolo : isQVote i = true → s.me.strm.mcOn = false := fun _ => hmc
      refine ⟨fun hopen hholes => ?_, fun r hopen => ?_⟩
      · have hgood := noBadHole_nil hholes (ws.take us.length)
        refine ⟨fun hroom => ?_, fun hfull => ⟨_, exec_unit_noRoom hsave hcheck hlegal hbound hgood hvotes hsolo hopen hfull, meIs_setCtx ..⟩⟩
        obtain ⟨t, hexec, hme⟩ := exec_unit_emits_meIs hsave hcheck hlegal hbound hgood hvotes hsolo hmc (fun r h => nomatch hopen.symm.trans h) hroom
        rw [Ctx.emits, Cap.takes_closed hopen, fillHoles_nil hholes] at hme
        exact ⟨t, hexec, hme⟩
      · refine ⟨fun hshort hroom => ?_, fun hlong hholes htrap => ?_, fun h kind v hholes hat htrap => ?_⟩
        · have hshort' : ∀ q, s.me.cap.openR = some q → (smGet Rake.zero s.me.cap.rakes q).ws.length + us.length ≤ 512 := fun q hq =>
            Option.some.inj (hopen.symm.trans hq) ▸ hshort
          refine ⟨fun hholes => ?_, fun h kind v j hholes hat => ?_⟩
          · have hgood := noBadHole_nil hholes (ws.take us.length)
            obtain ⟨t, hexec, hme⟩ := exec_unit_emits_meIs hsave hcheck hlegal hbound hgood hvotes hsolo hmc hshort' hroom
            rw [Ctx.emits, Cap.takes_plain hopen hholes, fillHoles_nil hholes] at hme
            exact ⟨t, hexec, hme⟩
          · have hgood : s.me.cap.holes.any (fun h => (holeAt (ws.take us.length) h.2.1).isNone) = false := by
              rw [show s.me.cap.holes = _ from hholes]; simp [hat]
            obtain ⟨t, hexec, hme⟩ := exec_unit_emits_meIs hsave hcheck hlegal hbound hgood hvotes hsolo hmc hshort' hroom
            rw [Ctx.emits, Cap.takes_hole hopen hholes hat, fillHoles_hole hholes hat] at hme
            refine ⟨t, hexec, ?_⟩
            simp only [sent, List.length_set]
            exact hme
        · have hgood := noBadHole_nil hholes (ws.take us.length)
          obtain ⟨hcap, hents⟩ := stretch_abandon_streams htrap 0x07
          refine ⟨_, exec_unit_tooLong hsave hcheck hlegal hbound hgood hvotes hsolo hopen hlong, stretch_abandon_trapped htrap _, ?_, ?_, hents⟩
          · rw [hcap, Cap.abandoned_open hopen]; rfl
          · rw [hcap, Cap.abandoned_open hopen]; exact congrArg Rake.flags (smGet_smSet_self ..)
        · have hbad : s.me.cap.holes.any (fun h => (holeAt (ws.take us.length) h.2.1).isNone) = true := by
            rw [show s.me.cap.holes = _ from hholes]; simp [hat]
          obtain ⟨hcap, -⟩ := stretch_streams htrap 0x04
          refine ⟨_, exec_unit_badHole hsave hcheck hlegal hbound hbad, stretch_trapped htrap _, ?_, ?_⟩
          · rw [hcap]; exact hopen
          · rw [hcap]; rfl
    · exact ⟨_, exec_unit_illegal hsave hcheck, trap_handled s fILLEGAL _ htrap (by decide)⟩
    · exact ⟨_, exec_unit_prefixMisuse hsave hcheck, trap_handled s fPREFIX _ htrap (by decide)⟩
  · intro s r c fault
    refine ⟨fun hopen hidle => ?_, fun hopen htrap => ?_, fun hopen htrap => ?_, fun q hopen => ?_, fun h kind v hopen htrap => ?_⟩
    · exact ⟨_, exec_beginS hopen (rakeBusy_eq_false_iff.mpr hidle), meIs_cap_adv ..⟩
    · exact ⟨_, exec_beginS_nested hopen, stretch_trapped htrap _⟩
    · exact ⟨_, exec_endS_closed hopen, stretch_trapped htrap _⟩
    · refine ⟨fun hwords htrap => ?_, fun hwords => ?_, fun h kind v => ⟨fun hmask hpending => ?_, fun hmask htrap => ?_⟩⟩
      · exact ⟨_, exec_endS_empty hopen hwords, stretch_abandon_trapped htrap _⟩
      · exact ⟨_, exec_endS hopen hwords, meIs_cap_adv ..⟩
      · exact ⟨_, exec_hole hopen hmask hpending, meIs_cap_adv ..⟩
      · exact ⟨_, exec_hole_again hopen hmask, stretch_trapped htrap _⟩
    · exact ⟨_, exec_hole_closed hopen, stretch_trapped htrap _⟩
end

section
/-! O16: control entries, TEAM and QSET (R103, R104). -/

namespace Sys2Proof.Machine

/-- A word of stream control queues its entry for the group, and ends. -/
theorem control_group {s : State} (hopen : s.me.cap.openR = none) (hcur : s.cur ∉ listeners s) (hme : entWords s.me.strm.ents + 1 ≤ 128)
    (hfit : ListenersFit s 1) (e : Ctl) :
    GroupIs s (control s e) (listeners s) ((s.me.queues s.mc (.ctrl e)).past s.us 1) fun c => c.queues s.mc (.ctrl e) := by
  have h : control s e = (emitEnt s (.ctrl e)).adv := by simp [control, hopen, roomFor_of_fits hme hfit]
  rw [h]
  exact (emitEnt_group hcur _).advN hcur 1

theorem control_meIs {s : State} (hopen : s.me.cap.openR = none) (hmc : s.me.strm.mcOn = false) (hme : entWords s.me.strm.ents + 1 ≤ 128) (e : Ctl) :
    MeIs s (control s e) ((s.me.queues s.mc (.ctrl e)).past s.us 1) :=
  (listeners_off hmc ▸ control_group hopen (cur_notMem_listeners_off hmc) hme (listenersFit_off hmc 1) e).meIs

/-! TEAM (R103). -/

theorem exec_teamM {s : State} {a : GReg} {n : GSrc} (hopen : s.me.cap.openR = none) (hindex : (s.srcN n).toNat < s.me.team.passes) :
    exec (.teamM a n) s = .next (control s (.teamM (s.srcN n).toNat ((s.reg a).setWidth 32))) := by
  change execTeamM a n s = _
  simp [execTeamM, hopen, Nat.not_le.mpr hindex]

theorem exec_teamM_beyond {s : State} {a : GReg} {n : GSrc} (hopen : s.me.cap.openR = none) (hindex : s.me.team.passes ≤ (s.srcN n).toNat) :
    exec (.teamM a n) s = .next (stretch s 0x0D true) := by
  change execTeamM a n s = _
  simp [execTeamM, hopen, hindex]

/-- The bits of a number made of the bits above a 32-bit word, the word, and the bits below it. -/
theorem testBit_parts {i m lo : Nat} (hm : m < 2 ^ 32) (hlo : lo < 2 ^ (32 * i)) (h l : Nat) :
    (2 ^ (32 * i) * (2 ^ 32 * h + m) + lo).testBit l
      = if l / 32 < i then lo.testBit l else if l / 32 = i then m.testBit (l % 32) else h.testBit (l - 32 * i - 32) := by
  rw [Nat.testBit_two_pow_mul_add _ hlo, Nat.testBit_two_pow_mul_add _ hm]
  by_cases hbelow : l / 32 < i
  · rw [if_pos hbelow, if_pos (by omega)]
  · rw [if_neg hbelow, if_neg (by omega)]
    by_cases hword : l / 32 = i
    · rw [if_pos hword, if_pos (by omega), show l - 32 * i = l % 32 by omega]
    · rw [if_neg hword, if_neg (by omega)]

/-- A mask with one of its words replaced. -/
theorem testBit_putWord (w act i : Nat) (v : W32) (l : Nat) :
    (putWord w act i v).testBit l = (decide (l < w) && (if l / 32 = i then v.getLsbD (l % 32) else act.testBit l)) := by
  let p := 2 ^ (32 * i)
  let h := act / p / 2 ^ 32
  let m := act / p % 2 ^ 32
  have hlo : act % p < p := Nat.mod_lt _ (Nat.two_pow_pos _)
  have hact : act = p * (2 ^ 32 * h + m) + act % p := by rw [Nat.div_add_mod, Nat.div_add_mod]
  have hput : act - m * p + v.toNat * p = p * (2 ^ 32 * h + v.toNat) + act % p := by
    rw [Nat.mul_add] at hact ⊢
    rw [Nat.mul_comm m, Nat.mul_comm v.toNat]
    omega
  have hword : bitsOf act (32 * i + 31) (32 * i) = m := by rw [bitsOf, show 32 * i + 31 + 1 - 32 * i = 32 by omega]
  have hbits : act.testBit l = _ := (congrArg (Nat.testBit · l) hact).trans (testBit_parts (Nat.mod_lt _ (Nat.two_pow_pos 32)) hlo h l)
  rw [putWord, hword, hput, Nat.testBit_mod_two_pow, testBit_parts v.isLt hlo, hbits]
  by_cases hi : l / 32 = i
  · simp [hi, BitVec.testBit_toNat]
  · simp [hi]

/-! QSET (R104). -/

theorem qsetSide_above {c o : Ctx} {n : Nat} (hres : o.st.resident = true) (hcl : o.cl = c.cl) (hslice : o.slice = c.slice) (hn : n ≤ c.team.vl)
    (hvb : o.team.vb = c.team.vb + c.team.vl) : qsetSide c o n = some true := by
  simp [qsetSide, hres, hcl, hslice, Nat.not_lt.mpr hn, hvb]

theorem qsetSide_below {c o : Ctx} {n : Nat} (hres : o.st.resident = true) (hcl : o.cl = c.cl) (hslice : o.slice = c.slice) (hn : n ≤ c.team.vl)
    (hne : o.team.vb ≠ c.team.vb + c.team.vl) (hvb : o.team.vb + o.team.vl = c.team.vb) : qsetSide c o n = some false := by
  simp [qsetSide, hres, hcl, hslice, Nat.not_lt.mpr hn, hne, hvb]

theorem qsetSide_isNone {c o : Ctx} {n : Nat} (hres : o.st.resident = true) (hcl : o.cl = c.cl) (hslice : o.slice = c.slice) (hn : n ≤ c.team.vl)
    (hvb : o.team.vb = c.team.vb + c.team.vl ∨ o.team.vb + o.team.vl = c.team.vb) : (qsetSide c o n).isNone = false := by
  by_cases habove : o.team.vb = c.team.vb + c.team.vl
  · rw [qsetSide_above hres hcl hslice hn habove]; rfl
  · rw [qsetSide_below hres hcl hslice hn habove (hvb.resolve_left habove)]; rfl

theorem exec_qset {s : State} {x : BitVec 3} {a : GReg} (hopen : s.me.cap.openR = none) (hmc : s.me.strm.mcOn = false)
    (hother : s.sibling s.me x.toNat ≠ s.cur) (hside : (qsetSide s.me (s.ctx (s.sibling s.me x.toNat)) (s.reg a).toNat).isNone = false)
    (hone : s.me.strm.ents.any isQset = false) (hroom : entWords s.me.strm.ents + 1 ≤ 128) :
    exec (.qset x a) s = .next (pushEnt s s.cur (.ctrl (.qset (s.sibling s.me x.toNat) (s.reg a).toNat))) := by
  change execQset x a s = _
  simp only [execQset, hopen, hmc, hother, hside, hone, roomFor_of_fits hroom (listenersFit_off hmc 1), decide_false, Bool.or_false, Bool.not_true,
    Option.isSome_none, Bool.false_eq_true, if_false]

theorem rowsFull_of_noneEmpty {s : State} (h : s.empt = []) (c : Ctx) (first n : Nat) : rowsFull s c first n = true := by
  simp [rowsFull, State.isEmpty, h]

/-! The entry at the head (R103, R104). -/

section
variable {s : State} {es : List SEnt}

theorem popCtl_eq {e : SEnt} (h : s.me.strm.ents = e :: es) : popCtl s = s.setCtx s.cur { s.me with strm := { s.me.strm with ents := es } } := by
  rw [popCtl, modMe_eq, h]; rfl

theorem exec_headTeamN {n : Nat} (h : s.me.strm.ents = .ctrl (.teamN n) :: es) :
    exec .controlEntryEffect s = .next ((popCtl s).modMe fun c => { c with team := { c.team with act := 2 ^ min n c.team.w - 1 } }) := by
  change execControlEntryEffect s = _
  simp only [execControlEntryEffect, h]
  rfl

theorem exec_headTeamM {i : Nat} {v : W32} (h : s.me.strm.ents = .ctrl (.teamM i v) :: es) :
    exec .controlEntryEffect s = .next ((popCtl s).modMe fun c => { c with team := { c.team with act := putWord c.team.w c.team.act i v } }) := by
  change execControlEntryEffect s = _
  simp only [execControlEntryEffect, h]
  rfl

theorem meIs_popCtl_modMe {e : SEnt} (h : s.me.strm.ents = e :: es) (f : Ctx → Ctx) :
    MeIs s ((popCtl s).modMe f) (f { s.me with strm := { s.me.strm with ents := es } }) := by
  rw [popCtl_eq h, modMe_eq, setCtx_cur, setCtx_setCtx, me_setCtx_self]
  exact meIs_setCtx ..

/-- A team whose upper (up) or lower n rows have left it, and one whose lower or upper side they have joined. -/
def Team.givesRows (t : Team) (up : Bool) (n : Nat) : Team := { t with vl := t.vl - n, vb := if up then t.vb else t.vb + n }
def Team.takesRows (t : Team) (up : Bool) (n : Nat) : Team := { t with vl := t.vl + n, vb := if up then t.vb - n else t.vb }

theorem exec_headQset {k n : Nat} {up : Bool} (h : s.me.strm.ents = .ctrl (.qset k n) :: es) (hside : qsetSide s.me (s.ctx k) n = some up)
    (hempt : s.empt = []) :
    exec .controlEntryEffect s = .next ((((popCtl s).modMe fun c => { c with team := c.team.givesRows up n }).modCtx k
      fun o => { o with team := o.team.takesRows up n }).advN 1) := by
  change execControlEntryEffect s = _
  simp only [execControlEntryEffect, h, hside, rowsFull_of_noneEmpty hempt]
  rfl

/-- The QSET at the head: rows leave the team of its context, on the side where the other's adjoin, and enter the other's. -/
theorem exec_headQset_group {k n : Nat} {up : Bool} (h : s.me.strm.ents = .ctrl (.qset k n) :: es) (hk : k ≠ s.cur)
    (hside : qsetSide s.me (s.ctx k) n = some up) (hempt : s.empt = []) :
    ∃ t, exec .controlEntryEffect s = .next t
      ∧ GroupIs s t [k] { s.me.past s.us 1 with strm := { s.me.strm with ents := es }, team := s.me.team.givesRows up n }
          fun o => { o with team := o.team.takesRows up n } := by
  have hcur : s.cur ∉ [k] := by simpa using hk.symm
  have hpopped : GroupIs s (popCtl s) [k] { s.me with strm := { s.me.strm with ents := es } } id := by
    rw [popCtl_eq h]; exact (GroupIs.refl s [k]).setMe hcur _
  refine ⟨_, exec_headQset h hside hempt, ?_⟩
  rw [← past_withTeamStrm]
  exact ((hpopped.modMe hcur fun c => { c with team := c.team.givesRows up n }).foldl_modCtx hcur (List.pairwise_singleton _ k)
    fun o => { o with team := o.team.takesRows up n }).advN hcur 1

end

end Sys2Proof.Machine

open Sys2Proof Sys2Proof.Machine

/-- Settles O16: TEAM and QSET queue their entry by `control_group`; at the head each entry by its equation. -/
theorem controlEntriesSetTheMaskAndMoveRows : Obligations.ControlEntriesSetTheMaskAndMoveRows := by
  intro s c room
  refine ⟨?_, ?_, ?_, ?_, ?_⟩
  · intro n a hopen hmc hroom
    exact ⟨⟨_, rfl, control_meIs hopen hmc hroom _⟩, fun hindex => ⟨_, exec_teamM hopen hindex, control_meIs hopen hmc hroom _⟩,
      fun hindex htrap => ⟨_, exec_teamM_beyond hopen hindex, stretch_abandon_trapped htrap _⟩⟩
  · intro x a hopen hmc hroom o hother hres hcl hslice hn hvb hone
    exact ⟨_, exec_qset hopen hmc hother (qsetSide_isNone hres hcl hslice hn hvb) hone hroom, meIs_setCtx ..⟩
  · intro n es hents
    exact ⟨_, exec_headTeamN hents, meIs_popCtl_modMe hents _⟩
  · intro i v es hents
    exact ⟨_, _, exec_headTeamM hents, meIs_popCtl_modMe hents _, testBit_putWord _ _ _ _⟩
  · intro k n es hents hk o hres hcl hslice hn hempt
    refine ⟨fun hvb => ?_, fun hne hvb => ?_⟩
    · obtain ⟨t, hexec, hstate, hme, hin, hout⟩ := exec_headQset_group hents hk (qsetSide_above hres hcl hslice hn hvb) hempt
      exact ⟨t, hexec, hstate, hme, hin k (List.mem_singleton_self k), fun j hj => hout j (by simpa using hj)⟩
    · obtain ⟨t, hexec, hstate, hme, hin, hout⟩ := exec_headQset_group hents hk (qsetSide_below hres hcl hslice hn hne hvb) hempt
      exact ⟨t, hexec, hstate, hme, hin k (List.mem_singleton_self k), fun j hj => hout j (by simpa using hj)⟩
end

section
/-! O17: replay of rakes, and their end (R109, R110, R365). -/

namespace Sys2Proof.Machine

/-! REPLAY and REPLAYI (R109). -/

/-- The numbers of a rake's holes. -/
def Rake.holeNumbers (k : Rake) : List Nat := (List.range 8).filter fun j => k.hmask.testBit j

theorem Rake.holeNumbers_eq (k : Rake) : (List.range 8).filter (bitOf k.hmask) = k.holeNumbers :=
  congrArg (List.filter · _) (funext (bitOf_eq_testBit k.hmask))

theorem Rake.nodup_holeNumbers (k : Rake) : k.holeNumbers.Nodup := List.nodup_range.filter _

/-- A rake whose holes have been given values. -/
def Rake.used (k : Rake) (vs : List (Nat × W64)) : Rake := { k with last := vs.foldl (fun m e => smSet m e.1 e.2) k.last }

theorem Rake.last_used {k : Rake} {val : Nat → W64} {j : Nat} (hj : j ∈ k.holeNumbers) :
    smGet 0 (k.used (k.holeNumbers.map fun j => (j, val j))).last j = val j := by
  have hkeys : ((k.holeNumbers.map fun j => (j, val j)).map Prod.fst).Nodup := by
    simpa [List.map_map, Function.comp_def] using k.nodup_holeNumbers
  exact smGet_foldl_smSet_mem 0 Prod.fst Prod.snd _ k.last hkeys (List.mem_map_of_mem (f := fun j => (j, val j)) hj)

/-- A context that has counted one more replay of rake r, of contents k, with values vs. -/
def Ctx.notes (c : Ctx) (r : Nat) (k : Rake) (vs : List (Nat × W64)) : Ctx :=
  { c with cap := { c.cap with rakes := smSet c.cap.rakes r (k.used vs) },
           strm := { c.strm with instCount := (c.strm.instCount + 1) % 2 ^ 30, votesOut := c.strm.votesOut + k.votes } }

section
variable {s : State} {r : Nat} {a : GReg} (hopen : s.me.cap.openR = none)
include hopen

theorem replay_invalid (f : Rake → Nat → W64) (hvalid : (smGet Rake.zero s.me.cap.rakes r).flags ≠ 1) : replay s r a f = stretch s 0x08 false := by
  simp [replay, hopen, hvalid]

variable {k : Rake} (hk : smGet Rake.zero s.me.cap.rakes r = k) (hvalid : k.flags = 1) (hregs : ∀ j ∈ k.holeNumbers, a.toNat + j ≤ 31)
  (hvotes : s.me.strm.votesOut + k.votes ≤ 16) (hmc : s.me.strm.mcOn = false) (hroom : entWords s.me.strm.ents + 1 ≤ 128)
include hk hvalid hregs hvotes hmc hroom

theorem replay_eq (f : Rake → Nat → W64) :
    let vs := k.holeNumbers.map fun j => (j, f k j)
    replay s r a f = ((emitEnt s (.inst s.cur r s.me.strm.instCount 0 vs)).modMe fun c => c.notes r k vs).adv := by
  have hnames : (k.holeNumbers.any fun j => decide (31 < a.toNat + j)) = false := by simpa [List.any_eq_false] using hregs
  unfold replay
  dsimp only
  rw [hk, Rake.holeNumbers_eq, if_neg (by simp [hopen]), if_neg fun h => h hvalid, if_neg (ne_true_of_eq_false hnames),
    if_neg (Nat.not_lt.mpr hvotes), if_neg (by simp [hmc]), if_neg (by simp [roomFor_of_fits hroom (listenersFit_off hmc 1)])]
  rfl

theorem replay_meIs (f : Rake → Nat → W64) :
    let vs := k.holeNumbers.map fun j => (j, f k j)
    MeIs s (replay s r a f) (((s.me.queues s.mc (.inst s.cur r s.me.strm.instCount 0 vs)).notes r k vs).past s.us 1) := by
  intro vs
  have hcur := cur_notMem_listeners_off hmc
  rw [replay_eq hopen hk hvalid hregs hvotes hmc hroom]
  exact (listeners_off hmc ▸ ((emitEnt_group hcur (.inst s.cur r s.me.strm.instCount 0 vs)).modMe hcur fun c => c.notes r k vs).advN hcur 1).meIs

/-- R109: what a replay leaves of its context, and of its rake the values last used. -/
theorem replay_queues (f : Rake → Nat → W64) :
    let t := replay s r a f
    let q := (s.me.queues s.mc (.inst s.cur r s.me.strm.instCount 0 (k.holeNumbers.map fun j => (j, f k j)))).past s.us 1
    OnlyMe s t
    ∧ t.me = { q with cap := { s.me.cap with rakes := t.me.cap.rakes },
                      strm := { q.strm with instCount := (s.me.strm.instCount + 1) % 2 ^ 30, votesOut := s.me.strm.votesOut + k.votes } }
    ∧ (∀ q, q ≠ r → smGet Rake.zero t.me.cap.rakes q = smGet Rake.zero s.me.cap.rakes q)
    ∧ (∀ j ∈ k.holeNumbers, smGet 0 (smGet Rake.zero t.me.cap.rakes r).last j = f k j)
    ∧ smGet Rake.zero t.me.cap.rakes r = { k with last := (smGet Rake.zero t.me.cap.rakes r).last } := by
  intro t q
  obtain ⟨honly, hme⟩ := replay_meIs hopen hk hvalid hregs hvotes hmc hroom f
  have hrakes : t.me.cap.rakes = smSet s.me.cap.rakes r (k.used (k.holeNumbers.map fun j => (j, f k j))) := by
    rw [show t.me = _ from hme, past_cap]; rfl
  refine ⟨honly, ?_, fun p hp => ?_, fun j hj => ?_, ?_⟩
  · rw [hrakes, show t.me = _ from hme, Ctx.notes, past_withCapStrm, past_strm]
    rfl
  · rw [hrakes, smGet_smSet_ne _ _ _ hp]
  · rw [hrakes, smGet_smSet_self, Rake.last_used hj]
  · rw [hrakes, smGet_smSet_self]; rfl

end

/-! Expansion (R110, R365). -/

theorem brkMatch_of_noComparator {d : Dbg} (h : d.bpc = []) (kind : Bool) (v : W64) : brkMatch d kind v = none := by
  simp [brkMatch, h]

theorem mayStart_of_preempt {c : Ctx} (hpreempt : c.trap.preempt ≠ none) (hholes : c.cap.holes = []) : mayStart c = false := by
  simp [mayStart, Option.isNone_iff_eq_none, hpreempt, hholes]

theorem instTag_eq (num w r : Nat) : instTag num w r = BitVec.ofNat 64 (1 + r * 2 ^ 3 + w * 2 ^ 9 + num * 2 ^ 18) := by
  simp [instTag, fields]

/-- A unit that reaches no register beyond the team's bound is presented. -/
theorem present_meIs {s : State} {us : List W64} (hbound : (decodeUnit us).any (boundClear s.me.team) = false) (tag : W64) :
    MeIs s (present s tag us) { s.me with dbg := { s.me.dbg with skip1 := false }, strm := { s.me.strm with pres := some (tag, us) } } := by
  simp only [present, modMe_eq, setCtx_cur, setCtx_setCtx, me_setCtx_self, hbound, Bool.false_eq_true, if_false]
  exact meIs_setCtx ..

section
variable {s : State} {l q n w : Nat} {vs : List (Nat × W64)} {es : List SEnt} (hpres : s.me.strm.pres = none)
  (hents : s.me.strm.ents = .inst l q n w vs :: es)
include hpres hents

theorem exec_expansion (hstart : w ≠ 0 ∨ s.me.trap.preempt = none) (hbpc : s.me.dbg.bpc = []) :
    exec .replayInstanceExpansion s = .next (present s (instTag n w q) (instUnit (smGet Rake.zero (s.ctx l).cap.rakes q) w vs)) := by
  have hmay : (decide (w = 0) && s.me.trap.preempt.isSome && !mayStart s.me) = false := by
    rcases hstart with h | h <;> simp [h]
  have hbrk : ∀ us : List W64, (List.range us.length).findSome? (fun j => brkMatch s.me.dbg true (instTag n (w + j) q)) = none := fun us => by
    simp [List.findSome?_eq_none_iff, brkMatch_of_noComparator hbpc]
  change execReplayInstanceExpansion s = _
  simp only [execReplayInstanceExpansion, hpres, hents, hmay, hbrk, Bool.false_eq_true, if_false]

theorem exec_expansion_held (hw : w = 0) (hpreempt : s.me.trap.preempt ≠ none) (hholes : s.me.cap.holes = []) :
    exec .replayInstanceExpansion s = .next s := by
  change execReplayInstanceExpansion s = _
  simp [execReplayInstanceExpansion, hpres, hents, hw, Option.isSome_iff_ne_none.mpr hpreempt, mayStart_of_preempt hpreempt hholes]

end

/-! DROP.S and DROP.S.ALL (R110). -/

/-- Rakes once those in rs have lost their validity. -/
def dropIn (m : SMap Rake) (rs : List Nat) : SMap Rake := rs.foldl (fun m r => smSet m r { smGet Rake.zero m r with flags := 0 }) m

theorem smGet_dropIn (m : SMap Rake) (rs : List Nat) (q : Nat) :
    smGet Rake.zero (dropIn m rs) q = if q ∈ rs then { smGet Rake.zero m q with flags := 0 } else smGet Rake.zero m q := by
  induction rs generalizing m with
  | nil => simp [dropIn]
  | cons r rs ih =>
    change smGet Rake.zero (dropIn (smSet m r _) rs) q = _
    rw [ih, smGet_smSet]
    by_cases hq : q = r <;> simp [hq]

theorem smGet_notMem_keys {α : Type} (d : α) {m : SMap α} {k : Nat} (h : k ∉ m.map (·.1)) : smGet d m k = d := by
  induction m with
  | nil => rfl
  | cons e m ih =>
    obtain ⟨hne, hnotin⟩ := not_or.mp fun h' => h (List.mem_cons.mpr h')
    obtain ⟨a, x⟩ := e
    rw [smGet, if_neg hne, ih hnotin]

/-- A word that makes the rakes in rs invalid. -/
theorem dropRakes_adv (s : State) (rs : List Nat) :
    let t := (s.modMe fun c => dropRakes c rs).adv
    OnlyMe s t ∧ t.me = { s.me.past s.us 1 with cap := { s.me.cap with rakes := t.me.cap.rakes } } ∧ t.me.cap.rakes = dropIn s.me.cap.rakes rs := by
  intro t
  obtain ⟨honly, hme⟩ := meIs_cap_adv s { s.me.cap with rakes := dropIn s.me.cap.rakes rs }
  have hme : t.me = _ := hme
  exact ⟨honly, by rw [hme], by rw [hme]⟩

theorem exec_dropS {s : State} {r : BitVec 6} (hopen : s.me.cap.openR ≠ some r.toNat) (hidle : rakeBusy s r.toNat = false) :
    exec (.dropS r) s = .next (s.modMe fun c =>
      dropRakes c (if (smGet Rake.zero s.me.cap.rakes r.toNat).flags = 1 then [r.toNat] else [])).adv := by
  change execDropS r s = _
  rw [execDropS, if_neg hopen, if_neg (ne_true_of_eq_false hidle)]
  by_cases hvalid : (smGet Rake.zero s.me.cap.rakes r.toNat).flags = 1
  · simp [hvalid]
  · simp [hvalid, dropRakes]

/-- The rakes that DROP.S.ALL makes invalid. -/
def Cap.closedRakes (c : Cap) : List Nat := (c.rakes.map (·.1)).filter fun r => c.openR ≠ some r

theorem Cap.mem_closedRakes {c : Cap} {q : Nat} : q ∈ c.closedRakes ↔ q ∈ c.rakes.map (·.1) ∧ c.openR ≠ some q := by
  simp only [Cap.closedRakes, List.mem_filter, decide_eq_true_eq]

theorem exec_dropSAll {s : State} (hidle : ∀ q, s.me.cap.openR ≠ some q → rakeBusy s q = false) :
    exec .dropSAll s = .next (s.modMe fun c => dropRakes c s.me.cap.closedRakes).adv := by
  have hnone : s.me.cap.closedRakes.any (rakeBusy s) = false := by
    rw [List.any_eq_false]
    intro q hq
    rw [hidle q (Cap.mem_closedRakes.mp hq).2]
    exact Bool.false_ne_true
  change execDropSAll s = _
  rw [execDropSAll]
  exact congrArg _ (if_neg (ne_true_of_eq_false hnone))

end Sys2Proof.Machine

open Sys2Proof Sys2Proof.Machine

/-- Settles O17: both replays by `replay_queues`, the expansion by `present_meIs`, the ends of rakes by `dropRakes_adv`. -/
theorem replayQueuesInstancesOfAValidRake : Obligations.ReplayQueuesInstancesOfAValidRake := by
  intro s r a c k hs queued
  refine ⟨fun hopen hvalid hregs hvotes hmc hroom => ?_, fun htrap hopen hvalid i hi => ?_, fun l q n w vs es hpres hents => ⟨?_, ?_⟩, ?_, ?_⟩
  · exact ⟨⟨_, rfl, replay_queues hopen rfl hvalid hregs hvotes hmc hroom _⟩, ⟨_, rfl, replay_queues hopen rfl hvalid hregs hvotes hmc hroom _⟩⟩
  · have hexec : exec i s = .next (stretch s 0x08 false) := by
      simp only [List.mem_cons, List.not_mem_nil, or_false] at hi
      rcases hi with rfl | rfl
      · exact congrArg _ (replay_invalid hopen _ hvalid)
      · exact congrArg _ (replay_invalid hopen _ hvalid)
    exact ⟨_, hexec, stretch_trapped htrap _⟩
  · intro hstart hbpc hbound
    refine ⟨_, exec_expansion hpres hents hstart hbpc, ?_⟩
    rw [instTag_eq]
    exact present_meIs hbound _
  · exact fun hw hpreempt hholes => exec_expansion_held hpres hents hw hpreempt hholes
  · intro hopen hidle
    obtain ⟨honly, hme, hrakes⟩ := dropRakes_adv s (if k.flags = 1 then [r.toNat] else [])
    refine ⟨_, exec_dropS hopen (rakeBusy_eq_false_iff.mpr hidle), honly, hme, ?_, fun q hq => ?_⟩
    · rw [hrakes, smGet_dropIn]
      by_cases hvalid : k.flags = 1
      · simp [hvalid]
      · simp [hvalid, k, c]
    · have hnotin : q ∉ (if k.flags = 1 then [r.toNat] else []) := by split <;> simp [hq]
      rw [hrakes, smGet_dropIn, if_neg hnotin]
  · intro hidle
    obtain ⟨honly, hme, hrakes⟩ := dropRakes_adv s s.me.cap.closedRakes
    refine ⟨_, exec_dropSAll fun q hq => rakeBusy_eq_false_iff.mpr (hidle q hq), honly, hme, fun q => ?_⟩
    rw [hrakes, smGet_dropIn]
    by_cases hopen : s.me.cap.openR = some q
    · rw [if_neg fun h => (Cap.mem_closedRakes.mp h).2 hopen, if_pos hopen]
    · by_cases hlisted : q ∈ s.me.cap.rakes.map (·.1)
      · rw [if_pos (Cap.mem_closedRakes.mpr ⟨hlisted, hopen⟩), if_neg hopen]
      · rw [smGet_notMem_keys _ hlisted, if_neg hopen]
        split <;> rfl
end

section
/-! O18: multicast of a group, the vote queue, and DRAIN (R112 to R114). -/

namespace Sys2Proof.Machine

/-! Multicast (R112). -/

/-- A stream with multicast turned on or off. -/
def Ctx.mcast (c : Ctx) (on : Bool) : Ctx := { c with strm := { c.strm with mcOn := on } }

theorem Ctx.mcast_past (c : Ctx) (on : Bool) (us n : Nat) : (c.mcast on).past us n = (c.past us n).mcast on := by
  rw [Ctx.mcast, Ctx.mcast, past_withStrm, past_strm]

theorem Ctx.mcast_self {c : Ctx} {on : Bool} (h : c.strm.mcOn = on) : c.mcast on = c := by rw [Ctx.mcast, ← h]

/-- A follower whose RECV is over. -/
def Ctx.received (c : Ctx) : Ctx := { c with pc := c.pc + 8#64, strm := { c.strm with mcRecv := false }, dbg := { c.dbg with skip1 := false } }

section
variable {s : State} (hopen : s.me.cap.openR = none)
include hopen

theorem exec_mcastOn_alone (h : s.me.gsize = 1) : exec .mcastOn s = .next s.adv := by
  change execMcastOn s = _
  simp [execMcastOn, hopen, h]

theorem exec_mcastOn_follower (hsize : s.me.gsize ≠ 1) (hpos : s.me.gpos ≠ 0) : exec .mcastOn s = .next (stretch s 0x0C false) := by
  change execMcastOn s = _
  simp [execMcastOn, hopen, hsize, hpos]

theorem exec_mcastOff_idle (h : s.me.strm.mcOn = false) : exec .mcastOff s = .next s.adv := by
  change execMcastOff s = _
  simp [execMcastOff, hopen, h]

theorem exec_mcastRecv (hpos : s.me.gpos ≠ 0) (hsize : s.me.gsize ≠ 1) :
    exec .mcastRecv s = .next (s.modMe fun c => { c with strm := { c.strm with mcRecv := true } }) := by
  change execMcastRecv s = _
  simp [execMcastRecv, hopen, hsize, hpos]

theorem exec_mcastRecv_misplaced (h : s.me.gpos = 0 ∨ s.me.gsize = 1) : exec .mcastRecv s = .next (stretch s 0x0C false) := by
  change execMcastRecv s = _
  rcases h with h | h <;> simp [execMcastRecv, hopen, h]

section
variable (hcur : s.cur ∉ listeners s) (hroom : entWords s.me.strm.ents + 1 ≤ 128) (hfit : ListenersFit s 1)
include hcur hroom hfit

/-- ON at the leader of a group enters the streams that listen, and multicast is on. -/
theorem exec_mcastOn_leader (hsize : s.me.gsize ≠ 1) (hpos : s.me.gpos = 0) :
    ∃ t, exec .mcastOn s = .next t
      ∧ GroupIs s t (listeners s) (((s.me.queues s.mc (.ctrl .mcastOn)).past s.us 1).mcast true) fun c => c.queues s.mc (.ctrl .mcastOn) := by
  have hexec : exec .mcastOn s = .next ((emitEnt s (.ctrl .mcastOn)).modMe fun c => c.mcast true).adv := by
    change execMcastOn s = _
    simp only [execMcastOn, hopen, hsize, hpos, roomFor_of_fits hroom hfit, Option.isSome_none, Bool.not_true, Bool.false_eq_true, ne_eq, not_true_eq_false,
      if_false]
    rfl
  refine ⟨_, hexec, ?_⟩
  rw [← Ctx.mcast_past]
  exact ((emitEnt_group hcur _).modMe hcur fun c => c.mcast true).advN hcur 1

/-- OFF goes to the group, every RECV of which it ends. -/
theorem exec_mcastOff_leader (hmc : s.me.strm.mcOn = true) :
    ∃ t, exec .mcastOff s = .next t
      ∧ GroupIs s t (listeners s) (((s.me.queues s.mc (.ctrl .mcastOff)).past s.us 1).mcast false)
          fun c => (c.queues s.mc (.ctrl .mcastOff)).received := by
  have hexec : exec .mcastOff s
      = .next (((listeners s).foldl (fun t k => t.modCtx k Ctx.received) (emitEnt s (.ctrl .mcastOff))).modMe fun c => c.mcast false).adv := by
    change execMcastOff s = _
    simp only [execMcastOff, hopen, hmc, roomFor_of_fits hroom hfit, listeners_on hmc, Option.isSome_none, Bool.not_true, Bool.false_eq_true, if_false]
    rfl
  refine ⟨_, hexec, ?_⟩
  rw [← Ctx.mcast_past]
  exact (((emitEnt_group hcur _).foldl_modCtx hcur (nodup_listeners s) Ctx.received).modMe hcur fun c => c.mcast false).advN hcur 1

end
end

theorem listenersFit_on {s : State} {n : Nat} (hmc : s.me.strm.mcOn = true)
    (h : ∀ f ∈ followers s s.me, entWords (s.ctx f).strm.ents + n ≤ 128 ∧ (s.ctx f).strm.mcRecv = true) : ListenersFit s n := by
  rwa [ListenersFit, listeners_on hmc]

theorem cur_notMem_listeners_on {s : State} (hmc : s.me.strm.mcOn = true) (h : s.cur ∉ followers s s.me) : s.cur ∉ listeners s := by
  rwa [listeners_on hmc]

/-- A unit that is no vote, with no capture open and no hole pending. -/
theorem Ctx.emits_plain {c : Ctx} (hopen : c.cap.openR = .none) (hholes : c.cap.holes = []) (mc clk : Nat) (code us : List W64) :
    c.emits mc clk code us false = { (c.queues mc (.lane c.pc us)).past clk us.length with cap := { c.cap with want := 0 } } := by
  have hcap : ({ c.cap with holes := [], want := 0 } : Cap) = { c.cap with want := 0 } := by rw [← hholes]
  have hstrm : ({ (c.queues mc (.lane c.pc us)).strm with votesOut := c.strm.votesOut + b2n false } : Strm) = (c.queues mc (.lane c.pc us)).strm := rfl
  rw [Ctx.emits, Cap.takes_closed hopen, hcap, fillHoles_nil hholes]
  simp only [past_strm, hstrm]

/-! Votes (R113). -/

theorem counted_withWatch (c : Ctx) (us : Nat) (w : Option Watch) : ({ c with watch := w } : Ctx).counted us = { c.counted us with watch := w } := by
  have hcharged : Ctx.charged { c with watch := w } = c.charged := rfl
  simp only [Ctx.counted, hcharged]
  split
  · rfl
  · split <;> rfl

/-- A waiting word that no TRYW bounds. -/
theorem waitOn_unbounded {s : State} (h : s.me.tryw = none) (w : Watch) : waitOn s w = s.setCtx s.cur (s.me.waits s.us w) := by
  have hwait : waitOn s w = (s.modMe fun c => { c with watch := some w }).toWait := by simp only [waitOn, h]
  rw [hwait, State.toWait]
  simp only [modMe_eq, setCtx_cur, setCtx_us, setCtx_setCtx, me_setCtx_self, counted_withWatch]
  rfl

/-- The end of a word that takes the oldest vote v of the queue. -/
theorem popVote_done {s : State} {v : W64} {vs : List W64} (h : s.me.strm.voteQ = v :: vs) (d : GReg) :
    let t := (popVote s).done d v
    OnlyMe s t
    ∧ t.me = { s.me.past s.us 1 with g := t.me.g, strm := { s.me.strm with voteQ := vs, votesOut := s.me.strm.votesOut - 1 } }
    ∧ ∀ r, t.reg r = if r = d ∧ d ≠ 0#5 then v else s.reg r := by
  intro t
  have hpop : popVote s = s.setCtx s.cur { s.me with strm := { s.me.strm with voteQ := vs, votesOut := s.me.strm.votesOut - 1 } } := by
    rw [popVote, modMe_eq, h]; rfl
  have hends : Ends (popVote s) t 1 d v := ends_done (popVote s) d v
  clear_value t
  rw [hpop] at hends
  obtain ⟨honly, hme, hreg⟩ := hends
  rw [me_setCtx_self, setCtx_us, past_withStrm] at hme
  refine ⟨honly.of_setMe, hme, fun r => (hreg r).trans ?_⟩
  rw [State.reg, me_setCtx_self]
  rfl

section
variable {s : State} (htryw : s.me.tryw = none)
include htryw

theorem exec_vqpop {v : W64} {vs : List W64} (h : s.me.strm.voteQ = v :: vs) (hvotes : s.me.strm.votesOut ≠ 0) (d : GReg) :
    exec (.vqpop d) s = .next ((popVote s).done d v) := by
  have hdone : waitDone ((popVote s).setReg d v) = (popVote s).done d v := by
    have : ((popVote s).setReg d v).me.tryw = none := by
      simp [popVote, htryw]
    simp only [waitDone, this]
    rfl
  change execVqpop d s = _
  simp only [execVqpop, hvotes, h, hdone, if_false]

theorem exec_vqpop_waits (h : s.me.strm.voteQ = []) (hvotes : s.me.strm.votesOut ≠ 0) (d : GReg) :
    exec (.vqpop d) s = .next (s.setCtx s.cur (s.me.waits s.us .vote)) := by
  change execVqpop d s = _
  simp only [execVqpop, hvotes, h, if_false]
  rw [waitOn_unbounded htryw]

end

section
variable {s : State}

theorem exec_vqpop_none (hvotes : s.me.strm.votesOut = 0) (d : GReg) : exec (.vqpop d) s = .next (stretch s 0x0B false) := by
  change execVqpop d s = _
  simp [execVqpop, hvotes]

theorem exec_vqtry {v : W64} {vs : List W64} (h : s.me.strm.voteQ = v :: vs) (d : GReg) : exec (.vqtry d) s = .next ((popVote s).done d v) := by
  change execVqtry d s = _
  simp only [execVqtry, h]

theorem exec_vqtry_empty (h : s.me.strm.voteQ = []) (d : GReg) : exec (.vqtry d) s = .next (s.done d (BitVec.allOnes 64)) := by
  change execVqtry d s = _
  simp only [execVqtry, h]

theorem exec_voteResultReady {v : W64} {r : List (Option W64 × Option Nat)} (h : s.me.strm.voteFly = (some v, none) :: r) :
    exec .voteResultReady s = .next (s.modMe fun c => { c with strm := { c.strm with voteFly := r, voteQ := c.strm.voteQ ++ [v] } }) := by
  change execVoteResultReady s = _
  simp only [execVoteResultReady, h]
  rfl

/-! DRAIN (R114). -/

theorem exec_drain (hents : s.me.strm.ents = []) (hpres : s.me.strm.pres = none) (hfills : s.me.fills = []) : exec .drain s = .next s.adv := by
  change execDrain s = _
  simp [execDrain, drained, Strm.idle, hents, hpres, hfills]

theorem exec_drain_waits (h : s.me.strm.ents ≠ [] ∨ s.me.fills ≠ []) : exec .drain s = .next s := by
  have hbusy : drained s.me = false := by
    rcases h with h | h <;> simp [drained, Strm.idle, h]
  change execDrain s = _
  rw [execDrain, hbusy]
  rfl

end

end Sys2Proof.Machine

open Sys2Proof Sys2Proof.Machine

/-- Settles O18: each word of multicast by what it leaves of the group (`exec_mcastOn_leader`, `exec_mcastOff_leader`, `emitUnit_group`), a vote that is
taken by `popVote_done`. -/
theorem multicastAndVotesOfATeam : Obligations.MulticastAndVotesOfATeam := by
  refine ⟨?_, ?_⟩
  · intro s c hopen
    refine ⟨?_, fun hsize => ?_, fun hmc => ?_, fun hmc hcur hroom hfit => ?_,
      fun ws us i hmc hcur hsave hcheck hlegal hbound hvote hholes hroom hfit => ?_, fun hpos hsize => ?_,
      fun htrap => ⟨fun hsize hpos => ?_, fun h => ?_⟩⟩
    · intro hsize hpos hroom q
      refine ⟨fun hmc => ?_, fun hmc hcur hfit => ?_⟩
      · obtain ⟨t, hexec, hgroup⟩ := exec_mcastOn_leader hopen (cur_notMem_listeners_off hmc) hroom (listenersFit_off hmc 1) hsize hpos
        exact ⟨t, hexec, (listeners_off hmc ▸ hgroup).meIs⟩
      · obtain ⟨t, hexec, hgroup⟩ := exec_mcastOn_leader hopen (cur_notMem_listeners_on hmc hcur) hroom (listenersFit_on hmc hfit) hsize hpos
        rw [listeners_on hmc, Ctx.mcast_self (by rw [past_strm]; exact hmc)] at hgroup
        exact ⟨t, hexec, hgroup⟩
    · exact ⟨_, exec_mcastOn_alone hopen hsize, meIs_adv s⟩
    · exact ⟨_, exec_mcastOff_idle hopen hmc, meIs_adv s⟩
    · obtain ⟨t, hexec, hgroup⟩ := exec_mcastOff_leader hopen (cur_notMem_listeners_on hmc hcur) hroom (listenersFit_on hmc hfit) hmc
      rw [listeners_on hmc] at hgroup
      exact ⟨t, hexec, hgroup⟩
    · have hnovote : isQVote i ≠ true := ne_true_of_eq_false hvote
      have hgroup := emitUnit_group (cur_notMem_listeners_on hmc hcur) (ws.take us.length) us i
      rw [listeners_on hmc, hvote, Ctx.emits_plain hopen hholes, fillHoles_nil hholes] at hgroup
      exact ⟨_, exec_unit_emits (.inl hsave) hcheck hlegal hbound (noBadHole_nil hholes _) (fun h => absurd h hnovote) (fun h => absurd h hnovote)
        (fun r h => nomatch hopen.symm.trans h) hroom (listenersFit_on hmc hfit), hgroup⟩
    · exact ⟨_, exec_mcastRecv hopen hpos hsize, meIs_setCtx ..⟩
    · exact ⟨_, exec_mcastOn_follower hopen hsize hpos, stretch_trapped htrap _⟩
    · exact ⟨_, exec_mcastRecv_misplaced hopen h, stretch_trapped htrap _⟩
  · intro s d c htryw
    refine ⟨?_, fun hqueue => ⟨?_, fun hvotes => ?_⟩, fun hvotes htrap => ?_, fun v r hfly => ?_, fun hents hpres hfills => ?_, fun h => ?_⟩
    · intro v vs hqueue popped
      exact ⟨fun hvotes => ⟨_, exec_vqpop htryw hqueue hvotes d, popVote_done hqueue d⟩, ⟨_, exec_vqtry hqueue d, popVote_done hqueue d⟩⟩
    · exact ⟨_, exec_vqtry_empty hqueue d, ends_done s d _⟩
    · exact ⟨_, exec_vqpop_waits htryw hqueue hvotes d, meIs_setCtx ..⟩
    · exact ⟨_, exec_vqpop_none hvotes d, stretch_trapped htrap _⟩
    · exact ⟨_, exec_voteResultReady hfly, meIs_setCtx ..⟩
    · exact ⟨_, exec_drain hents hpres hfills, meIs_adv s⟩
    · exact exec_drain_waits h
end

section
/-! Lane words at issue: words that write a register, a predicate or the team, and faults of the head word (R37, R38, R48, R98, R150). -/

namespace Sys2Proof.Machine

theorem issueLane_go {i : Instr} {s : State} (hgo : issueCheck s s.me i = .go) (eff : Ctx → State → State) :
    issueLane i s eff = eff s.me (popHead s) := by
  simp only [issueLane, hgo]

/-- A word with one destination register writes w there, when its values are w. -/
theorem laneAlu_writes {i : Instr} {g : Guard} {d : VReg} {s : State} {v : State → Ctx → Nat → W32} {w : Nat → W32}
    (hexec : exec i s = .next (laneAlu i g d v s)) (hv : ∀ l, v s s.me l = w l) (hgo : issueCheck s s.me i = .go) :
    ∃ u, exec i s = .next u ∧ LaneEnds s u g d w := by
  have hends := laneAlu_ends i g d v s hgo
  rw [funext hv] at hends
  exact ⟨_, hexec, hends⟩

/-! The head unit leaves the stream (R98). -/

theorem popHead_me (s : State) : (popHead s).me = { s.me with strm := (popHead s).me.strm } := by
  simp only [popHead, modMe_eq, me_setCtx_self]
  split <;> rfl

@[simp] theorem popHead_team (s : State) : (popHead s).me.team = s.me.team := by rw [popHead_me]
/-- The team may be written back. -/
theorem popHead_setTeam (s : State) : (popHead s).setCtx s.cur { (popHead s).me with team := s.me.team } = popHead s := by
  have hpop : popHead s = s.setCtx s.cur (popHead s).me := by
    rw [popHead, modMe_eq, me_setCtx_self]
  have hteam : ({ (popHead s).me with team := s.me.team } : Ctx) = (popHead s).me := by
    rw [← popHead_team]
  rw [hteam]
  calc (popHead s).setCtx s.cur (popHead s).me
      = (s.setCtx s.cur (popHead s).me).setCtx s.cur (popHead s).me := congrArg (State.setCtx · s.cur (popHead s).me) hpop
    _ = s.setCtx s.cur (popHead s).me := setCtx_setCtx ..
    _ = popHead s := hpop.symm

@[simp] theorem popHead_g (s : State) : (popHead s).me.g = s.me.g := by rw [popHead_me]
/-- Votes in flight stay. -/
@[simp] theorem popHead_voteFly (s : State) : (popHead s).me.strm.voteFly = s.me.strm.voteFly := by
  simp only [popHead, modMe_eq, me_setCtx_self]
  split <;> rfl

@[simp] theorem popHead_cur (s : State) : (popHead s).cur = s.cur := rfl
@[simp] theorem popHead_rows (s : State) : (popHead s).rows = s.rows := rfl
@[simp] theorem popHead_mem (s : State) : (popHead s).mem = s.mem := rfl
@[simp] theorem popHead_nextId (s : State) : (popHead s).nextId = s.nextId := rfl

/-- A word that changes the team alone. -/
theorem teamEnds_modMe {s : State} {f : Ctx → Ctx} {team : Team} (hf : f (popHead s).me = { (popHead s).me with team := team }) :
    TeamEnds s ((popHead s).modMe f) team := by
  rw [modMe_eq, hf]
  exact meIs_setCtx ..

/-- A fault of the head word stops the stream at it, and waits for its trap. -/
theorem headFault_record {s : State} (hown : s.me.ownHead = false) (code : Nat) (info : W64) (lane acc : Nat) :
    let u := headFault s code info lane acc
    u.me = { s.me with strm := { s.me.strm with stopped := true },
                       trap := { s.me.trap with laneF := some ⟨plainCode code, info, lane, acc, headTag s.me, false⟩ } } ∧ u.rows = s.rows := by
  obtain ⟨pf, ts, os, ws, hnote⟩ := noteFault_eq s s.me code
  have hme : (noteFault s s.me code).me = s.me := by rw [hnote]; rfl
  have hrows : (noteFault s s.me code).rows = s.rows := by rw [hnote]
  simp only [headFault, laneFault, raiseLane, hown, Bool.false_and, Bool.false_eq_true, if_false, modMe_eq, setCtx_cur, setCtx_rows, setCtx_setCtx,
    me_setCtx_self, hme, hrows, and_self]

/-! Predicates (R37, R120). -/

/-- A number with bit l replaced. -/
theorem testBit_replaceBit (m l : Nat) (b : Bool) (i : Nat) :
    (2 ^ l * (2 * (m / 2 ^ l / 2) + b.toNat) + m % 2 ^ l).testBit i = if i = l then b else m.testBit i := by
  rw [Nat.testBit_two_pow_mul_add _ (Nat.mod_lt m (Nat.two_pow_pos l))]
  rcases Nat.lt_trichotomy i l with h | rfl | h
  · simp [h, Nat.ne_of_lt h, Nat.testBit_mod_two_pow]
  · cases b <;> simp [Nat.testBit_zero]
  · obtain ⟨j, rfl⟩ : ∃ j, i = l + (j + 1) := ⟨i - l - 1, by omega⟩
    have hhalf : (2 * (m / 2 ^ l / 2) + b.toNat) / 2 = m / 2 ^ l / 2 := by
      have := b.toNat_le
      omega
    rw [if_neg (by omega), if_neg (by omega), Nat.add_sub_cancel_left, Nat.testBit_succ, hhalf, ← Nat.testBit_succ, Nat.testBit_div_two_pow, Nat.add_comm l]

/-- The bits of a number about bit l. -/
theorem eq_replaceBit (m l : Nat) : m = 2 ^ l * (2 * (m / 2 ^ l / 2) + (m.testBit l).toNat) + m % 2 ^ l := by
  rw [Nat.toNat_testBit, Nat.div_add_mod, Nat.div_add_mod]

theorem testBit_add_two_pow {m l : Nat} (h : m.testBit l = false) (i : Nat) : (m + 2 ^ l).testBit i = if i = l then true else m.testBit i := by
  have hm := eq_replaceBit m l
  rw [← testBit_replaceBit m l true]
  congr 1
  rw [h] at hm
  simp only [Bool.toNat_false, Bool.toNat_true, Nat.mul_add, Nat.mul_zero, Nat.mul_one] at hm ⊢
  omega

theorem testBit_sub_two_pow {m l : Nat} (h : m.testBit l = true) (i : Nat) : (m - 2 ^ l).testBit i = if i = l then false else m.testBit i := by
  have hm := eq_replaceBit m l
  rw [← testBit_replaceBit m l false]
  congr 1
  rw [h] at hm
  simp only [Bool.toNat_false, Bool.toNat_true, Nat.mul_add, Nat.mul_zero, Nat.mul_one] at hm ⊢
  omega

/-- A number with bit l written. -/
theorem testBit_writeBit (m l : Nat) (b : Bool) (i : Nat) :
    (if m.testBit l = b then m else if b then m + 2 ^ l else m - 2 ^ l).testBit i = if i = l then b else m.testBit i := by
  split
  · next hbit =>
    split
    · next hi => rw [hi, hbit]
    · rfl
  · next hbit =>
    cases b
    · exact testBit_sub_two_pow (by simpa using hbit) i
    · exact testBit_add_two_pow (by simpa using hbit) i

theorem pred_setPred (t : Team) (k l : Nat) (b : Bool) (j i : Nat) :
    (t.setPred k l b).pred j i = if j = k ∧ k ≠ 0 ∧ i = l then b else t.pred j i := by
  by_cases hk : k = 0
  · simp [Team.setPred, hk]
  · by_cases hj : j = k
    · subst hj
      simp [Team.setPred, Team.pred, hk, bitOf_eq_testBit, testBit_writeBit]
    · simp [Team.setPred, Team.pred, hk, hj, smGet_smSet]

/-- Only predicates change. -/
theorem setPreds_eq (t : Team) (k : Nat) (bs : List (Nat × Bool)) : t.setPreds k bs = { t with preds := (t.setPreds k bs).preds } := by
  induction bs generalizing t with
  | nil => rfl
  | cons e bs ih =>
    have hone : t.setPred k e.1 e.2 = { t with preds := (t.setPred k e.1 e.2).preds } := by
      unfold Team.setPred; split <;> rfl
    rw [Team.setPreds, ih, hone]

theorem pred_setPreds (t : Team) (k : Nat) (ls : List Nat) (v : Nat → Bool) (j i : Nat) :
    (t.setPreds k (ls.map fun l => (l, v l))).pred j i = if j = k ∧ k ≠ 0 ∧ i ∈ ls then v i else t.pred j i := by
  induction ls generalizing t with
  | nil => simp [Team.setPreds]
  | cons l ls ih =>
    rw [List.map_cons, Team.setPreds, ih, pred_setPred]
    by_cases hin : i ∈ ls
    · by_cases hjk : j = k ∧ k ≠ 0
      · simp [hjk, hin]
      · simp [hjk, ← and_assoc]
    · by_cases hil : i = l <;> simp_all

/-- A word that writes a predicate (R37, R120). -/
theorem lanePred_ends (i : Instr) (g : Guard) (pd : Nat) (v : State → Ctx → Nat → Bool) (s : State) (hgo : issueCheck s s.me i = .go) :
    PredEnds s (lanePred i g pd v s) g pd (v s s.me) := by
  rw [lanePred, issueLane_go hgo]
  obtain ⟨honly, hme⟩ := meIs_setCtx (popHead s) { (popHead s).me with
    team := (popHead s).me.team.setPreds pd ((s.me.team.dests g).map fun l => (l, v s s.me (if g.u then 0 else l))) }
  refine ⟨honly, ?_, fun k l => ?_⟩
  · rw [modMe_eq, hme, popHead_team]
    rw [setPreds_eq]
  · rw [modMe_eq, hme, popHead_team]
    exact pred_setPreds ..

/-- A word that writes a predicate writes w there, when its values are w. -/
theorem lanePred_sets {i : Instr} {g : Guard} {pd : Nat} {s : State} {v : State → Ctx → Nat → Bool} {w : Nat → Bool}
    (hexec : exec i s = .next (lanePred i g pd v s)) (hv : ∀ l, v s s.me l = w l) (hgo : issueCheck s s.me i = .go) :
    ∃ u, exec i s = .next u ∧ PredEnds s u g pd w := by
  have hends := lanePred_ends i g pd v s hgo
  rw [funext hv] at hends
  exact ⟨_, hexec, hends⟩

/-- A mask of the lanes that satisfy p. -/
theorem testBit_maskOf (w : Nat) (p : Nat → Bool) (l : Nat) : (maskOf w p).testBit l = (decide (l < w) && p l) := by
  induction w generalizing l with
  | zero => simp [maskOf]
  | succ w ih =>
    have hstep : maskOf (w + 1) p = if p w then maskOf w p + 2 ^ w else maskOf w p := by
      rw [maskOf, List.range_succ, List.foldl_append]; rfl
    have hclear : (maskOf w p).testBit w = false := by simp [ih]
    rw [hstep]
    rcases Nat.lt_trichotomy l w with h | rfl | h
    · split <;> simp [testBit_add_two_pow hclear, ih, h, Nat.ne_of_lt h, Nat.lt_succ_of_lt h]
    · split <;> simp_all [testBit_add_two_pow hclear]
    · split <;> simp [testBit_add_two_pow hclear, ih, Nat.ne_of_gt h, Nat.not_lt_of_lt h, show ¬ l < w + 1 by omega]

end Sys2Proof.Machine
end

section
/-! O44: integer lane words (R121, R122). -/

namespace Sys2Proof.Machine

theorem clampInt_eq {lo hi : Int} (h : lo ≤ hi) (v : Int) : clampInt lo hi v = max lo (min hi v) := by
  unfold clampInt
  split
  · omega
  · split <;> omega

/-- The integer words on two sources, with the exact result that each has. -/
def intWords (o : IOp) : List (Instr × (Int → Int → Int)) :=
  [(.viadd o, (· + ·)), (.visub o, (· - ·)), (.vimul o, (· * ·)), (.vimulh o, fun a b => a * b / 2 ^ 32), (.vimin o, min), (.vimax o, max)]

theorem exec_intWords (s : State) (o : IOp) : ∀ p ∈ intWords o, exec p.1 s = .next (laneI p.1 o p.2 s) := by
  simp only [intWords, List.forall_mem_cons]
  exact ⟨rfl, rfl, rfl, rfl, rfl, rfl, List.forall_mem_nil _⟩

/-- The bitwise words on two sources. -/
def bitWords (o : BOp) : List (Instr × (W32 → W32 → W32)) :=
  [(.vand o, (· &&& ·)), (.vor o, (· ||| ·)), (.vxor o, (· ^^^ ·)), (.vshl o, fun a b => a <<< (b.toNat % 32)),
    (.vshr o, fun a b => a >>> (b.toNat % 32)), (.vsar o, fun a b => a.sshiftRight (b.toNat % 32))]

theorem exec_bitWords (s : State) (o : BOp) : ∀ p ∈ bitWords o, exec p.1 s = .next (laneB p.1 o p.2 s) := by
  simp only [bitWords, List.forall_mem_cons]
  exact ⟨rfl, rfl, rfl, rfl, rfl, rfl, List.forall_mem_nil _⟩

/-- The leading zeros of a word bound it from both sides. -/
theorem clzNat_bounds (a : W32) :
    let n := (BitVec.ofNat 32 (clzNat 32 a.toNat)).toNat
    n ≤ 32 ∧ a.toNat < 2 ^ (32 - n) ∧ (a ≠ 0#32 → 2 ^ (31 - n) ≤ a.toNat) := by
  by_cases ha : a = 0#32
  · subst ha; decide
  · have hne : a.toNat ≠ 0 := fun h => ha (BitVec.eq_of_toNat_eq h)
    have hlog : a.toNat.log2 < 32 := (Nat.log2_lt hne).mpr a.isLt
    have hclz : (BitVec.ofNat 32 (clzNat 32 a.toNat)).toNat = 31 - a.toNat.log2 := by
      rw [clzNat, if_neg hne, BitVec.toNat_ofNat]; omega
    rw [hclz]
    dsimp only
    rw [show 32 - (31 - a.toNat.log2) = a.toNat.log2 + 1 by omega, show 31 - (31 - a.toNat.log2) = a.toNat.log2 by omega]
    exact ⟨by omega, Nat.lt_log2_self, fun _ => Nat.log2_self_le hne⟩

theorem popNat_toNat (a : W32) : popNat 32 a.toNat = ((List.range 32).filter fun k => a.getLsbD k).length := by
  rw [popNat, List.filter_congr fun k _ => (bitOf_eq_testBit a.toNat k).trans (BitVec.testBit_toNat a)]

end Sys2Proof.Machine

open Sys2Proof Sys2Proof.Machine

/-- Settles O44: every word is a `laneAlu`, whose values are those of the statement. -/
theorem laneIntegerWordsWriteTheirResult : Obligations.LaneIntegerWordsWriteTheirResult := by
  intro s t L X I W writes
  have hX (b : LSrc) (l : Nat) : rdLast s s.me b l = X b l := by
    rcases b with r | v | v <;> rfl
  have hI (ty : ITy) (v : W32) : ival ty v = I ty v := by
    cases ty <;> rfl
  have hW (ty : ITy) (sat : Bool) (v : Int) : isat ty sat v = W ty sat v := by
    cases ty
    · exact congrArg (fun x => BitVec.ofInt 32 (if sat then x else v)) (clampInt_eq (by decide) v)
    · exact congrArg (fun x => BitVec.ofInt 32 (if sat then x else v)) (clampInt_eq (by decide) v)
  refine ⟨fun o p hp => ?_, fun o => ?_, fun sat o => ?_, fun o p hp => ?_, fun o => ⟨?_, fun hgo => ?_, ?_⟩⟩
  · exact laneAlu_writes (exec_intWords s o p hp) fun l => by rw [hW, hI, hI, hX]; rfl
  · exact laneAlu_writes rfl fun l => by rw [hW, hI, hI, hI, hX]; rfl
  · exact laneAlu_writes rfl fun l => hW ..
  · exact laneAlu_writes (exec_bitWords s o p hp) fun l => by rw [hX]; rfl
  · exact laneAlu_writes rfl fun l => rfl
  · exact ⟨_, _, rfl, laneAlu_ends _ _ _ _ _ hgo, fun l => clzNat_bounds (L o.a l)⟩
  · exact laneAlu_writes rfl fun l => congrArg (BitVec.ofNat 32) (popNat_toNat _)
end

section
/-! O45: moves, predicates, paths and FMT (R129 to R132). -/

namespace Sys2Proof.Machine

/-- The words of VPLOG that write a predicate from predicates, with the function that each computes. -/
def plogWords : List (PlogOp × (Bool → Bool → Bool)) :=
  [(.and, fun x y => x && y), (.or, fun x y => x || y), (.xor, fun x y => x != y), (.andn, fun x y => x && !y), (.not, fun x _ => !x),
    (.set, fun _ _ => true), (.clr, fun _ _ => false)]

theorem exec_plogWords (s : State) (g : Guard) (d : VReg) (a : Src) (pb : BitVec 3) : ∀ p ∈ plogWords,
    exec (.vplog g p.1 d a pb) s = .next (lanePred (.vplog g p.1 d a pb) g (d.toNat % 8)
      (fun _ c l => p.2 (c.team.pred (a.r.toNat % 8) l) (c.team.pred pb.toNat l)) s) := by
  simp only [plogWords, List.forall_mem_cons]
  exact ⟨rfl, rfl, rfl, rfl, rfl, rfl, rfl, List.forall_mem_nil _⟩

section
variable {s : State}

theorem exec_vxi {add : Bool} {a : LSrc} (hgo : issueCheck s s.me (.vxi add a) = .go) :
    ∃ u, exec (.vxi add a) s = .next u
      ∧ TeamEnds s u { s.me.team with xi := if add then s.me.team.xi + (rdLastU s s.me a 0).setWidth 16 else (rdLastU s s.me a 0).setWidth 16 } := by
  refine ⟨_, congrArg Host.Outcome.next (issueLane_go hgo _), teamEnds_modMe ?_⟩
  simp only [popHead_team]

/-- VPPUSH keeps mask and FMT with the lanes of the predicate, and narrows the mask to them. -/
theorem exec_vppush {ps : BitVec 3} {neg : Bool} (hgo : issueCheck s s.me (.vppush ps neg) = .go) :
    let m := maskOf s.me.team.w fun l => s.me.team.pred ps.toNat l != neg
    ∃ u, exec (.vppush ps neg) s = .next u
      ∧ TeamEnds s u { s.me.team with stack := ⟨s.me.team.act, s.me.team.fmt, m⟩ :: s.me.team.stack.take 15, act := s.me.team.act &&& m } := by
  refine ⟨_, congrArg Host.Outcome.next (issueLane_go hgo _), teamEnds_modMe ?_⟩
  simp only [popHead_team]

section
variable {e : PathE} {r : List PathE} (hstack : s.me.team.stack = e :: r)
include hstack

theorem exec_vppop (hgo : issueCheck s s.me .vppop = .go) :
    ∃ u, exec .vppop s = .next u ∧ TeamEnds s u { s.me.team with stack := r, act := e.act, fmt := e.fmt } := by
  have hexec : exec .vppop s = .next ((popHead s).modMe fun c => { c with team := { c.team with stack := r, act := e.act, fmt := e.fmt } }) := by
    change execVppop s = _
    rw [execVppop, issueLane_go hgo, hstack]
  refine ⟨_, hexec, teamEnds_modMe ?_⟩
  simp only [popHead_team]

theorem exec_vppopElse (hgo : issueCheck s s.me .vppopElse = .go) :
    let act := e.act &&& (fullMask s.me.team.w ^^^ (e.c &&& fullMask s.me.team.w))
    ∃ u, exec .vppopElse s = .next u ∧ TeamEnds s u { s.me.team with act := act, fmt := e.fmt } := by
  intro act
  have hexec : exec .vppopElse s = .next ((popHead s).modMe fun c => { c with team := { c.team with act := act, fmt := e.fmt } }) := by
    change execVppopElse s = _
    rw [execVppopElse, issueLane_go hgo, hstack]
  refine ⟨_, hexec, teamEnds_modMe ?_⟩
  simp only [popHead_team]

end

section
variable {op : BitVec 2} {a : LSrc} (hgo : issueCheck s s.me (.vfmt op a) = .go)
include hgo

theorem exec_vfmt (hok : fmtBad (vfmtNew op s.me.team.fmt (rdLast s s.me a 0)) = false) :
    ∃ u, exec (.vfmt op a) s = .next u ∧ TeamEnds s u { s.me.team with fmt := vfmtNew op s.me.team.fmt (rdLast s s.me a 0) } := by
  have hexec : exec (.vfmt op a) s = .next ((popHead s).modMe fun c =>
      { c with team := { c.team with fmt := vfmtNew op s.me.team.fmt (rdLast s s.me a 0) } }) := by
    change execVfmt op a s = _
    simp only [execVfmt, hgo, hok, Bool.false_eq_true, if_false]
  refine ⟨_, hexec, teamEnds_modMe ?_⟩
  simp only [popHead_team]

theorem exec_vfmt_reserved (hbad : fmtBad (vfmtNew op s.me.team.fmt (rdLast s s.me a 0)) = true) :
    exec (.vfmt op a) s = .next (headFault s fILLEGAL 0 0 0) := by
  change execVfmt op a s = _
  simp only [execVfmt, hgo, hbad, if_true]

end
end

end Sys2Proof.Machine

open Sys2Proof Sys2Proof.Machine

/-- Settles O45: words with a destination by `laneAlu_writes`, comparisons and VPLOG by `lanePred_sets`, the words of the team by what each leaves of it. -/
theorem movesPredicatesAndPaths : Obligations.MovesPredicatesAndPaths := by
  intro s t L X U go writes sets P
  have hX (b : LSrc) (l : Nat) : rdLast s s.me b l = X b l := by
    rcases b with r | v | v <;> rfl
  have hU (b : LSrc) : rdLastU s s.me b 0 = U b := by
    rcases b with r | v | v <;> rfl
  refine ⟨fun g d a => ?_, fun g ps d a b => ?_, fun g d => ⟨?_, ?_, ?_⟩, fun g ty cc pd a b => ?_, fun g d a pb => ⟨fun p hp => ?_, ?_, ?_⟩,
    fun add a hgo => ?_, fun ps neg hgo => ?_, fun e r hstack hpop helse => ⟨?_, ?_⟩, fun op a hgo => ?_⟩
  · exact laneAlu_writes rfl (hX a)
  · exact laneAlu_writes rfl fun l => by rw [hX]; rfl
  · exact laneAlu_writes rfl fun l => rfl
  · exact laneAlu_writes rfl fun l => rfl
  · exact laneAlu_writes rfl fun l => rfl
  · refine lanePred_sets rfl fun l => ?_
    rw [hX]
    cases ty <;> cases cc <;> rfl
  · exact lanePred_sets (exec_plogWords s g d a pb p hp) fun l => rfl
  · exact lanePred_sets rfl fun l => rfl
  · exact laneAlu_writes rfl fun l => rfl
  · rw [← hU]
    exact exec_vxi hgo
  · obtain ⟨u, hexec, hends⟩ := exec_vppush hgo
    exact ⟨u, _, hexec, hends, fun l => (bitOf_eq_testBit ..).trans (testBit_maskOf ..)⟩
  · exact exec_vppop hstack hpop
  · exact exec_vppopElse hstack helse
  · intro v f
    have hf : vfmtNew op t.fmt (rdLast s s.me a 0) = f := by rw [hX]; rfl
    rw [← hf]
    refine ⟨exec_vfmt hgo, fun hbad hown => ?_⟩
    obtain ⟨hme, -⟩ := headFault_record hown fILLEGAL 0 0 0
    refine ⟨_, ⟨plainCode fILLEGAL, 0, 0, 0, headTag s.me, false⟩, exec_vfmt_reserved hgo hbad, ?_⟩
    rw [hme]
    exact ⟨rfl, rfl, rfl, rfl⟩
end

section
/-! Lane words that write a run of registers, and the stochastic-rounding states of the lanes (R36 to R38, R59). -/

namespace Sys2Proof.Machine

/-! Rows of different registers. -/

/-- A team's lanes fill whole passes, or one narrow pass. -/
def Team.Even (t : Team) : Prop := t.w < 32 ∨ t.w % 32 = 0

/-- Different registers of a team lie in different places. -/
theorem laneKey_ne {c : Ctx} (heven : c.team.Even) {r r' l l' : Nat} (hl : l < c.team.w) (hl' : l' < c.team.w) (hne : r ≠ r') :
    c.laneKey r l ≠ c.laneKey r' l' := by
  intro h
  simp only [Ctx.laneKey, Ctx.rowOf, Ctx.dpLane, Team.rpr] at h
  rcases heven with hw | hw
  · rw [if_pos hw, if_pos hw, if_pos hw, if_pos hw, show max 1 (c.team.w / 32) = 1 by omega] at h
    omega
  · by_cases hnarrow : c.team.w < 32
    · omega
    · rw [if_neg hnarrow, if_neg hnarrow, if_neg hnarrow, if_neg hnarrow, show max 1 (c.team.w / 32) = c.team.w / 32 by omega] at h
      have hpos : 0 < c.team.w / 32 := by omega
      have hrow : r * (c.team.w / 32) + l / 32 = r' * (c.team.w / 32) + l' / 32 := by omega
      have hdiv (q j : Nat) (hj : j < c.team.w) : (q * (c.team.w / 32) + j / 32) / (c.team.w / 32) = q := by
        rw [Nat.mul_comm, Nat.mul_add_div hpos, Nat.div_eq_of_lt (by omega), Nat.add_zero]
      exact hne ((hdiv r l hl).symm.trans ((congrArg (· / (c.team.w / 32)) hrow).trans (hdiv r' l' hl')))

theorem mem_dests_lt {t : Team} {g : Guard} {l : Nat} (h : l ∈ t.dests g) : l < t.w := by
  unfold Team.dests Team.lanes at h
  split at h
  · exact List.mem_range.mp h
  · exact List.mem_range.mp (List.mem_filter.mp h).1

/-- The lane that a lane of the destination takes its value from executes. -/
theorem source_mem_lanes {t : Team} {g : Guard} {l : Nat} (h : l ∈ t.dests g) : (if g.u then 0 else l) ∈ t.lanes g := by
  unfold Team.dests at h
  split at h
  · next hu => simp [Team.lanes, hu]
  · next hu => rwa [if_neg hu]

/-- Only the values in executing lanes matter. -/
theorem LaneEnds.congr {s t : State} {g : Guard} {d : VReg} {v w : Nat → W32} (h : LaneEnds s t g d v)
    (hvw : ∀ l ∈ s.me.team.lanes g, v l = w l) : LaneEnds s t g d w := by
  obtain ⟨hstate, hin, hout⟩ := h
  exact ⟨hstate, fun l hl => (hin l hl).trans (hvw _ (source_mem_lanes hl)), hout⟩

/-! Runs of registers. -/

/-- A write under a guard: each lane of the destination takes the value of its own lane, or of lane 0. -/
theorem wr_guard (s : State) (c : Ctx) (g : Guard) (d : VReg) (k : Nat) (v : Nat → W32) :
    (if g.u then wr s c d k (List.range c.team.w) fun _ => v 0 else wr s c d k (c.team.lanes g) v)
      = wr s c d k (c.team.dests g) fun l => v (if g.u then 0 else l) := by
  unfold Team.dests
  split <;> simp_all

theorem wrGuard_eq (c : Ctx) (g : Guard) (d : VReg) (v : Nat → W32) (s : State) :
    wrGuard c g d v s = wr s c d 0 (c.team.dests g) fun l => v (if g.u then 0 else l) :=
  wr_guard s c g d 0 v

theorem wr_rows (s : State) (c : Ctx) (d : VReg) (k : Nat) (ls : List Nat) (v : Nat → W32) :
    wr s c d k ls v = { s with rows := (wr s c d k ls v).rows } :=
  foldl_setLane_rows ..

theorem lane_wr_same {ls : List Nat} {l : Nat} (h : l ∈ ls) (s : State) (c : Ctx) (d : VReg) (k : Nat) (v : Nat → W32) :
    (wr s c d k ls v).lane c (regNo c.team d + k) l = v l :=
  lane_foldl_setLane c _ v ls s l h

theorem lane_wr_other {c : Ctx} (heven : c.team.Even) {g : Guard} {l r : Nat} (hl : l ∈ c.team.dests g) {d : VReg} {k : Nat}
    (hr : r ≠ regNo c.team d + k) (s : State) (v : Nat → W32) : (wr s c d k (c.team.dests g) v).lane c r l = s.lane c r l :=
  smGet_foldl_setLane_out c _ v _ s _ fun _ hl' => laneKey_ne heven (mem_dests_lt hl) (mem_dests_lt hl') hr

/-- Writes of the n registers of a run. -/
def wrRun (c : Ctx) (g : Guard) (d : VReg) (n : Nat) (out : Nat → Nat → W32) (s : State) : State :=
  (List.range n).foldl (fun t k => wr t c d k (c.team.dests g) fun l => out k (if g.u then 0 else l)) s

theorem wrRun_eq (c : Ctx) (g : Guard) (d : VReg) (n : Nat) (out : Nat → Nat → W32) (s : State) :
    wrRun c g d n out s = (List.range n).foldl (fun t k =>
      if g.u then wr t c d k (List.range c.team.w) fun _ => out k 0 else wr t c d k (c.team.lanes g) (out k)) s := by
  simp only [wrRun, wr_guard]

theorem wrRun_succ (c : Ctx) (g : Guard) (d : VReg) (n : Nat) (out : Nat → Nat → W32) (s : State) :
    wrRun c g d (n + 1) out s = wr (wrRun c g d n out s) c d n (c.team.dests g) fun l => out n (if g.u then 0 else l) := by
  rw [wrRun, List.range_succ, List.foldl_append]
  rfl

theorem wrRun_rows (c : Ctx) (g : Guard) (d : VReg) (n : Nat) (out : Nat → Nat → W32) (s : State) :
    wrRun c g d n out s = { s with rows := (wrRun c g d n out s).rows } := by
  induction n with
  | zero => rfl
  | succ n ih => rw [wrRun_succ, wr_rows, ih]

theorem lane_wrRun {c : Ctx} (heven : c.team.Even) {g : Guard} {l : Nat} (hl : l ∈ c.team.dests g) (d : VReg) {n k : Nat} (hk : k < n)
    (out : Nat → Nat → W32) (s : State) : (wrRun c g d n out s).lane c (regNo c.team d + k) l = out k (if g.u then 0 else l) := by
  induction n with
  | zero => exact absurd hk (Nat.not_lt_zero k)
  | succ n ih =>
    rw [wrRun_succ]
    by_cases hlast : k = n
    · rw [hlast, lane_wr_same hl]
    · rw [lane_wr_other heven hl (by omega), ih (by omega)]

/-! States of the lanes (R59). -/

theorem lfsrAt_setLfsr (t : Team) (l : Nat) (x : W32) (j : Nat) : (t.setLfsr l x).lfsrAt j = if j = l then x else t.lfsrAt j := smGet_smSet ..

/-- A state that does not differ is not written. -/
def Team.keepLfsr (t : Team) (l : Nat) (x : W32) : Team := if x = t.lfsrAt l then t else t.setLfsr l x

theorem lfsrAt_keepLfsr (t : Team) (l : Nat) (x : W32) (j : Nat) : (t.keepLfsr l x).lfsrAt j = if j = l then x else t.lfsrAt j := by
  unfold Team.keepLfsr
  split
  · next h =>
    split
    · next hj => rw [hj, h]
    · rfl
  · exact lfsrAt_setLfsr t l x j

/-- Only states change. -/
def LfsrOnly (t u : Team) : Prop := u = { t with lfsr := u.lfsr }

theorem lfsrOnly_setLfsr (t : Team) (l : Nat) (x : W32) : LfsrOnly t (t.setLfsr l x) := rfl

theorem lfsrOnly_keepLfsr (t : Team) (l : Nat) (x : W32) : LfsrOnly t (t.keepLfsr l x) := by
  unfold LfsrOnly Team.keepLfsr
  split <;> rfl

section
variable {step : Team → Nat → Team} {x : Nat → W32} (honly : ∀ t l, LfsrOnly t (step t l))
  (hstep : ∀ t l j, (step t l).lfsrAt j = if j = l then x l else t.lfsrAt j)

include honly in
theorem lfsrOnly_foldl (ls : List Nat) (t : Team) : LfsrOnly t (ls.foldl step t) := by
  induction ls generalizing t with
  | nil => rfl
  | cons l ls ih =>
    rw [List.foldl_cons, LfsrOnly, ih, honly]

include hstep in
theorem lfsrAt_foldl (ls : List Nat) (t : Team) (j : Nat) : (ls.foldl step t).lfsrAt j = if j ∈ ls then x j else t.lfsrAt j := by
  induction ls generalizing t with
  | nil => simp
  | cons l ls ih =>
    rw [List.foldl_cons, ih, hstep]
    by_cases hin : j ∈ ls
    · simp [hin]
    · by_cases hj : j = l <;> simp [hin, hj]

end

/-- States that do not differ leave the team as it is. -/
theorem foldl_keepLfsr_self {t : Team} {x : Nat → W32} (h : ∀ l, x l = t.lfsrAt l) (ls : List Nat) :
    ls.foldl (fun t l => t.keepLfsr l (x l)) t = t := by
  induction ls with
  | nil => rfl
  | cons l ls ih => rwa [List.foldl_cons, Team.keepLfsr, if_pos (h l)]

/-- What a list of lanes with their values holds for a lane. -/
theorem find?_lane {α : Type} {ls : List Nat} {l : Nat} (h : l ∈ ls) (f : Nat → α) :
    (ls.map fun l => (l, f l)).find? (fun r => r.1 = l) = some (l, f l) := by
  induction ls with
  | nil => cases h
  | cons x ls ih =>
    rw [List.map_cons, List.find?_cons]
    by_cases hx : x = l
    · simp [hx]
    · simpa [hx] using ih ((List.mem_cons.mp h).resolve_left (Ne.symm hx))

end Sys2Proof.Machine
end

section
/-! O46: floating-point, conversion and cross-lane words (R123 to R128, R133 to R135). -/

namespace Sys2Proof.Machine

/-- The arithmetic words on two sources, with the exact result that each has. -/
def floatWords (o : FOp) : List (Instr × (RM → FV → FV → FV)) :=
  [(.vfadd o, fun r x y => fvAdd r x y), (.vfsub o, fun r x y => fvAdd r x y.negate), (.vfmul o, fun _ x y => fvMul x y),
    (.vfmin o, fun _ x y => fvMinMax false x y), (.vfmax o, fun _ x y => fvMinMax true x y)]

theorem exec_floatWords (s : State) (o : FOp) : ∀ p ∈ floatWords o, exec p.1 s = .next (laneF2 p.1 o p.2 s) := by
  simp only [floatWords, List.forall_mem_cons]
  exact ⟨rfl, rfl, rfl, rfl, rfl, List.forall_mem_nil _⟩

/-! Conversion (R125). -/

/-- A mode other than SR leaves the lane's state, and does not look at it. -/
theorem vcvtCode_of_ne_sr {m : W32} {rm : BitVec 3} (h : rmOf m rm ≠ .sr) (dst src : EFmt) (code : Nat) (x : W32) :
    vcvtCode m dst src rm code x = ((vcvtCode m dst src rm code 0#32).1, x) := by
  unfold vcvtCode
  split
  · rfl
  · simp only [h, decide_false, Bool.false_and, Bool.false_eq_true, if_false]

/-- A word that leaves the states of the lanes. -/
theorem laneSr_writes {i : Instr} {g : Guard} {d : VReg} {s : State} {f : State → Ctx → Nat → W32 → W32 × W32} {w : Nat → W32}
    (hexec : exec i s = .next (laneSr i g d f s)) (hf : ∀ l x, f s s.me l x = (w l, x)) (hgo : issueCheck s s.me i = .go) :
    ∃ u, exec i s = .next u ∧ LaneEnds s u g d w := by
  let v (l : Nat) : W32 := (((s.me.team.lanes g).map fun l => (l, f s s.me l (s.me.team.lfsrAt l))).find? (fun r => r.1 = l)).elim 0 (·.2.1)
  have hstay : ((s.me.team.lanes g).map fun l => (l, f s s.me l (s.me.team.lfsrAt l))).foldl
      (fun m r => if r.2.2 = m.lfsrAt r.1 then m else m.setLfsr r.1 r.2.2) s.me.team = s.me.team := by
    rw [List.foldl_map]
    exact foldl_keepLfsr_self (fun l => by rw [hf]) _
  have halu : laneSr i g d f s = laneAlu i g d (fun _ _ => v) s := by
    rw [laneSr, laneAlu, issueLane_go hgo, issueLane_go hgo]
    dsimp only
    rw [modMe_eq, popHead_team, hstay, popHead_cur, popHead_setTeam]
  rw [hexec, halu]
  refine ⟨_, rfl, (laneAlu_ends i g d _ s hgo).congr fun l hl => ?_⟩
  change ((_ : List _).find? _).elim _ _ = _
  rw [find?_lane hl, hf]
  rfl

/-- VCVT.SEED stores a state in each lane that it writes. -/
theorem exec_vcvtSeed {s : State} {g : Guard} {a : LSrc} (hgo : issueCheck s s.me (.vcvtSeed g a) = .go) :
    ∃ u, exec (.vcvtSeed g a) s = .next u ∧ OnlyMe (popHead s) u ∧ u.rows = s.rows ∧ u.me.team.act = s.me.team.act
      ∧ ∀ l, u.me.team.lfsrAt l = if l ∈ s.me.team.dests g then
          (let v := rdLast s s.me a (if g.u then 0 else l); if v = 0#32 then 1#32 else v) else s.me.team.lfsrAt l := by
  let x (l : Nat) : W32 := let v := rdLast s s.me a (if g.u then 0 else l); if v = 0#32 then 1#32 else v
  let seeded (t : Team) : Team := (s.me.team.dests g).foldl (fun t l => t.setLfsr l (x l)) t
  have hexec : exec (.vcvtSeed g a) s = .next ((popHead s).modMe fun c => { c with team := seeded c.team }) :=
    congrArg Host.Outcome.next (issueLane_go hgo _)
  have hends : TeamEnds s ((popHead s).modMe fun c => { c with team := seeded c.team }) (seeded s.me.team) :=
    teamEnds_modMe (by rw [popHead_team])
  obtain ⟨honly, hme⟩ := hends
  refine ⟨_, hexec, honly, rfl, ?_, fun l => ?_⟩
  · have hseeded : LfsrOnly s.me.team (seeded s.me.team) := lfsrOnly_foldl (fun t l => lfsrOnly_setLfsr t l (x l)) _ _
    rw [hme]
    change (seeded s.me.team).act = _
    rw [hseeded]
  · rw [hme]
    exact lfsrAt_foldl (fun t l j => lfsrAt_setLfsr t l (x l) j) _ _ l

/-! Packing (R126, R127). -/

/-- The code of a quotient in a mode other than SR. -/
def quotCode (m : W32) (f : EFmt) (rm : BitVec 3) : QV → Nat
  | .nan => nanCode f (fmtFc m)
  | .inf n => infCode f (fmtFc m) (fmtSat m) n
  | .q n a b => roundQ f (fmtFc m) (fmtSat m) (fmtFtz m) (rmOf m rm) n a b

theorem qpackCode_of_ne_sr {m : W32} {rm : BitVec 3} (h : rmOf m rm ≠ .sr) (f : EFmt) (x t : FV) (st : W32) :
    qpackCode m f rm x t st = (quotCode m f rm (fvDiv x t), st) := by
  unfold qpackCode quotCode
  cases fvDiv x t with
  | nan => rfl
  | inf n => rfl
  | q n a b => simp only [h, if_false]

theorem foldl_append_fst {α β γ : Type} (g : α → β) (x : γ) (ls : List α) (xs : List β) :
    ls.foldl (fun (a : List β × γ) j => (a.1 ++ [g j], a.2)) (xs, x) = (xs ++ ls.map g, x) := by
  induction ls generalizing xs with
  | nil => simp
  | cons j ls ih => rw [List.foldl_cons, ih]; simp

section
variable (s : State) (c : Ctx) (o : QOp) (f : EFmt)

/-- The codes of a lane whose packing draws no random bits. -/
def undrawnCode (t : FV) (l j : Nat) : Nat :=
  if f.isInt then intToInt .s32 f (fmtSat c.team.fmt) (rd s c o.a.r j l).toInt
  else quotCode c.team.fmt f o.rm (fvDiv (fread c.team.fmt .fp32 (rd s c o.a.r j l).toNat) t)

/-- A lane whose packing draws no random bits keeps its state. -/
theorem qpackLane_undrawn (h : (!f.isInt && decide (rmOf c.team.fmt o.rm = .sr)) = false) (t : FV) (l : Nat) (x : W32) :
    qpackLane s c o f t l x = ((List.range (qElems f)).map (undrawnCode s c o f t l), x) := by
  rw [← List.nil_append (List.map _ _), ← foldl_append_fst]
  unfold qpackLane undrawnCode
  congr 1
  funext a j
  by_cases hint : f.isInt = true
  · simp only [hint, if_true]
  · have hsr : rmOf c.team.fmt o.rm ≠ .sr := by simpa [hint] using h
    simp only [hint, Bool.false_eq_true, if_false, qpackCode_of_ne_sr hsr]

/-- The quotients of a lane's block by the tensor scale (R127). -/
def blockQuots (l : Nat) : List QV :=
  ((c.team.lanes o.g).filter fun k => k / qBlock f = l / qBlock f).flatMap fun k =>
    (List.range (qElems f)).map fun j => fvDiv (fread c.team.fmt .fp32 (rd s c o.a.r j k).toNat) (fread c.team.fmt .fp32 (qTensor s c o))

/-- The scale byte of a lane's block, by the model's order of cases. -/
def blockScale (l : Nat) : Nat :=
  if !qScaled c.team.fmt f then 127
  else if !posNormal (qTensor s c o) then 0xFF
  else qScale (fmtFc c.team.fmt) f (blockQuots s c o f l)

theorem blockScale_eq (l : Nat) : blockScale s c o f l =
    if qScaled c.team.fmt f then (if posNormal (qTensor s c o) then qScale (fmtFc c.team.fmt) f (blockQuots s c o f l) else 0xFF) else 127 := by
  unfold blockScale
  cases qScaled c.team.fmt f
  · rfl
  · cases posNormal (qTensor s c o) <;> rfl

/-- What a lane divides its elements by. -/
def divisor (l : Nat) : FV :=
  if blockScale s c o f l = 0xFF then .ofInt 1 else scaleElem (blockScale s c o f l) (fread c.team.fmt .fp32 (qTensor s c o))

/-- What a lane packs, and its state after it. -/
def lanePacked (l : Nat) : List Nat × W32 := qpackLane s c o f (divisor s c o f l) l (c.team.lfsrAt l)

/-- The executing lanes, each with its scale byte, its codes and its state. -/
def packResults : List (Nat × Nat × List Nat × W32) := (c.team.lanes o.g).map fun l => (l, blockScale s c o f l, lanePacked s c o f l)

/-- Scale byte and codes of a lane. -/
def packedOf (l : Nat) : Nat × List Nat := ((packResults s c o f).find? (fun r => r.1 = l)).elim (0, []) fun r => (r.2.1, r.2.2.1)

variable {s c o f} in
theorem packedOf_eq {l : Nat} (h : l ∈ c.team.lanes o.g) : packedOf s c o f l = (blockScale s c o f l, (lanePacked s c o f l).1) := by
  rw [packedOf, packResults, find?_lane h]
  rfl

/-- Word k of a lane's packed codes. -/
def packedWord (k l : Nat) : W32 := BitVec.ofNat 32 (packNat f.width (packedOf s c o f l).2 / 2 ^ (32 * k))

/-- The team once the states have moved on. -/
def packedTeam (t : Team) : Team := (c.team.lanes o.g).foldl (fun t l => t.keepLfsr l (lanePacked s c o f l).2) t

theorem packedTeam_lfsrOnly (t : Team) : packedTeam s c o f t = { t with lfsr := (packedTeam s c o f t).lfsr } :=
  lfsrOnly_foldl (fun t l => lfsrOnly_keepLfsr t l _) _ t

theorem lfsrAt_packedTeam (t : Team) (l : Nat) :
    (packedTeam s c o f t).lfsrAt l = if l ∈ c.team.lanes o.g then (lanePacked s c o f l).2 else t.lfsrAt l :=
  lfsrAt_foldl (x := fun l => (lanePacked s c o f l).2) (fun t l j => lfsrAt_keepLfsr t l _ j) _ t l

end

/-- The states move on by the results. -/
theorem foldl_packResults (s : State) (c : Ctx) (o : QOp) (f : EFmt) (t : Team) :
    (packResults s c o f).foldl (fun m r => if r.2.2.2 = m.lfsrAt r.1 then m else m.setLfsr r.1 r.2.2.2) t = packedTeam s c o f t := by
  rw [packResults, List.foldl_map]
  rfl

/-- The stream without the word, and the states moved on. -/
def packMoved (s : State) (o : QOp) (f : EFmt) : State := (popHead s).modMe fun c => { c with team := packedTeam s s.me o f c.team }

theorem packMoved_me (s : State) (o : QOp) (f : EFmt) :
    (packMoved s o f).me = { (popHead s).me with team := packedTeam s s.me o f s.me.team } := by
  rw [packMoved, modMe_eq, me_setCtx_self, popHead_team]

/-- The packed words written as well. -/
def packWritten (s : State) (o : QOp) (f : EFmt) : State := wrRun s.me o.g o.d (qWords f) (packedWord s s.me o f) (packMoved s o f)

section
variable {s : State} {o : QOp} {f : EFmt} (hf : qFmt s.me.team.fmt o.fmtc = some f)
include hf

theorem exec_vqpack (hgo : issueCheck s s.me (.vqpack o) = .go) :
    exec (.vqpack o) s = .next (match o.s with
      | none => packWritten s o f
      | some v => wrGuard s.me o.g v.r (fun l => BitVec.ofNat 32 (packedOf s s.me o f l).1) (packWritten s o f)) := by
  change execVqpack o s = _
  simp only [execVqpack, hf, issueLane_go hgo, packWritten, packMoved, wrRun_eq, ← foldl_packResults]
  rfl

/-- VQPACK changes rows and the states of the lanes. -/
theorem vqpack_ends (hgo : issueCheck s s.me (.vqpack o) = .go) :
    ∃ u, exec (.vqpack o) s = .next u ∧ u = { packMoved s o f with rows := u.rows }
      ∧ (s.me.team.Even → ∀ l ∈ s.me.team.dests o.g,
          (∀ k, k < qWords f → (∀ v, o.s = some v → regNo s.me.team v.r ≠ regNo s.me.team o.d + k) →
            u.lane s.me (regNo s.me.team o.d + k) l = packedWord s s.me o f k (if o.g.u then 0 else l))
          ∧ ∀ v, o.s = some v → u.lane s.me (regNo s.me.team v.r) l = BitVec.ofNat 32 (packedOf s s.me o f (if o.g.u then 0 else l)).1) := by
  have hexec := exec_vqpack hf hgo
  have hrows : packWritten s o f = { packMoved s o f with rows := (packWritten s o f).rows } := wrRun_rows ..
  have hword (heven : s.me.team.Even) (l : Nat) (hl : l ∈ s.me.team.dests o.g) (k : Nat) (hk : k < qWords f) :
      (packWritten s o f).lane s.me (regNo s.me.team o.d + k) l = packedWord s s.me o f k (if o.g.u then 0 else l) :=
    lane_wrRun heven hl o.d hk _ _
  cases hs : o.s with
  | none =>
    rw [hs] at hexec
    exact ⟨_, hexec, hrows, fun heven l hl => ⟨fun k hk _ => hword heven l hl k hk, fun v hv => nomatch hv⟩⟩
  | some v =>
    rw [hs] at hexec
    dsimp only at hexec
    rw [wrGuard_eq] at hexec
    refine ⟨_, hexec, by rw [wr_rows, hrows], fun heven l hl => ⟨fun k hk hne => ?_, ?_⟩⟩
    · rw [lane_wr_other heven hl (Ne.symm (hne v rfl))]
      exact hword heven l hl k hk
    · rintro _ ⟨⟩
      exact lane_wr_same hl ..

end

/-! Unpacking (R128). -/

/-- Element j of a lane, unpacked. -/
def unpackedElem (s : State) (c : Ctx) (o : QOp) (f : EFmt) (j l : Nat) : W32 :=
  qunpkElem c.team.fmt f o.rm (match o.s with | some v => if qScaled c.team.fmt f then (rd s c v.r 0 l).toNat % 256 else 127 | none => 127)
    (fread c.team.fmt .fp32 (qTensor s c o))
    (packNat 32 ((List.range (qWords f)).map fun k => (rd s c o.a.r k l).toNat) / 2 ^ (f.width * j) % 2 ^ f.width)

section
variable {s : State} {o : QOp}

theorem exec_vqunpk {f : EFmt} (hf : qFmt s.me.team.fmt o.fmtc = some f) (hgo : issueCheck s s.me (.vqunpk o) = .go) :
    exec (.vqunpk o) s = .next (wrRun s.me o.g o.d (qElems f) (unpackedElem s s.me o f) (popHead s)) := by
  change execVqunpk o s = _
  simp only [execVqunpk, hf, issueLane_go hgo, wrRun_eq]
  rfl

/-- A format that FMT does not allow. -/
theorem exec_pack_illegal (hf : qFmt s.me.team.fmt o.fmtc = none) {i : Instr} (hi : i ∈ [Instr.vqpack o, .vqunpk o])
    (hgo : issueCheck s s.me i = .go) : exec i s = .next (headFault s fILLEGAL 0 0 0) := by
  simp only [List.mem_cons, List.not_mem_nil, or_false] at hi
  rcases hi with rfl | rfl
  · change execVqpack o s = _
    simp only [execVqpack, hf, hgo]
  · change execVqunpk o s = _
    simp only [execVqunpk, hf, hgo]

end

/-! Votes (R113, R133). -/

/-- What a vote brings to vd when it is ready. -/
def voteFill (c : Ctx) (d : VReg) (v : Nat) : Fill :=
  { vals := fillVals c d 0 ((List.range c.team.w).map fun l => (l, BitVec.ofNat 32 v)), rows := rowKeys c d 1 (List.range c.team.passes), ecc := none }

theorem mem_voteFill (c : Ctx) (d : VReg) (v : Nat) {l : Nat} (hl : l < c.team.w) : (c.laneKey (regNo c.team d) l, BitVec.ofNat 32 v) ∈ (voteFill c d v).vals := by
  simp only [voteFill, fillVals, List.map_map]
  exact List.mem_map.mpr ⟨l, List.mem_range.mpr hl, rfl⟩

/-- A fill is kept under the next number. -/
theorem pushFill_me (s : State) (f : Fill) : (pushFill s f).1.me = { s.me with fills := smSet s.me.fills s.nextId f } := by
  simp only [pushFill, State.fresh, modMe_eq]
  exact ctx_setCtx_self ..

/-- A vote takes flight: its value for the queue, and its fill's number. -/
def State.withVote (s : State) (e : Option W64 × Option Nat) : State :=
  s.modMe fun c => { c with strm := { c.strm with voteFly := c.strm.voteFly ++ [e] } }

theorem withVote_me (s : State) (e : Option W64 × Option Nat) :
    (s.withVote e).me = { s.me with strm := { s.me.strm with voteFly := s.me.strm.voteFly ++ [e] } } :=
  ctx_setCtx_self ..

/-- A vote is in flight with its value for the queue and the fill of vd. -/
theorem exec_vvote {s : State} {g : Guard} {op : VoteOp} {dest : VoteDest} {d : VReg} {ps : BitVec 3}
    (hgo : issueCheck s s.me (.vvote g op dest d ps) = .go) :
    let v := voteVal op ((s.me.team.lanes g).map (s.me.team.pred ps.toNat))
    ∃ u, exec (.vvote g op dest d ps) s = .next u ∧ u.rows = s.rows ∧ u.mem = s.mem ∧ u.me.team = s.me.team
      ∧ u.me.strm.voteFly = s.me.strm.voteFly
          ++ [(if dest = .v then none else some (BitVec.ofNat 64 v), if dest = .q then none else some s.nextId)]
      ∧ (dest ≠ .q → smFind u.me.fills s.nextId = some (voteFill s.me d v)) := by
  intro v
  let q : Option W64 := if dest = .v then none else some (BitVec.ofNat 64 v)
  by_cases hdest : dest = .q
  · have hexec : exec (.vvote g op dest d ps) s = .next ((popHead s).withVote (q, none)) := by
      change execVvote g op dest d ps s = _
      simp only [execVvote, issueLane_go hgo, if_pos hdest]
      rfl
    refine ⟨_, hexec, rfl, rfl, ?_, ?_, fun h => absurd hdest h⟩
    · rw [withVote_me, popHead_team]
    · rw [withVote_me, popHead_voteFly, if_pos hdest]
  · have hexec : exec (.vvote g op dest d ps) s = .next ((pushFill (popHead s) (voteFill s.me d v)).1.withVote (q, some s.nextId)) := by
      change execVvote g op dest d ps s = _
      simp only [execVvote, issueLane_go hgo, if_neg hdest]
      rfl
    refine ⟨_, hexec, rfl, rfl, ?_, ?_, fun _ => ?_⟩
    · rw [withVote_me, pushFill_me, popHead_team]
    · rw [withVote_me, pushFill_me, popHead_voteFly, if_neg hdest]
    · rw [withVote_me, pushFill_me, smFind_smSet, popHead_nextId, if_pos rfl]

end Sys2Proof.Machine

open Sys2Proof Sys2Proof.Machine

/-- Settles O46: words with a destination by `laneAlu_writes`, VQPACK and VQUNPK by the run of registers that each writes, VVOTE by the vote in flight. -/
theorem laneArithmeticAndCrossLaneWords : Obligations.LaneArithmeticAndCrossLaneWords := by
  intro s c t m L F go writes E R
  refine ⟨fun o p hp => ?_, fun o => ?_, fun g ty op d a b => ?_, fun g cc pd a b => ?_, fun ty rm o => ⟨?_, ?_, ?_, ?_, ?_⟩, fun dt st rm o hrm => ?_,
    fun g a => exec_vcvtSeed, fun o f hf => ?_, fun o hf hown i hi hgo => ?_, fun g mode lg d a b => ?_, fun g op lg d a => ⟨?_, fun ex => ?_⟩,
    fun g op dest d ps hgo => ?_⟩
  · exact laneAlu_writes (exec_floatWords s o p hp) fun l => rfl
  · exact laneAlu_writes rfl fun l => rfl
  · exact laneAlu_writes rfl fun l => rfl
  · exact lanePred_sets rfl fun l => rfl
  · exact laneAlu_writes rfl fun l => rfl
  · exact laneAlu_writes rfl fun l => rfl
  · exact laneAlu_writes rfl fun l => rfl
  · exact laneAlu_writes rfl fun l => rfl
  · exact laneAlu_writes rfl fun l => rfl
  · exact laneSr_writes rfl fun l x => by rw [vcvtCode_of_ne_sr hrm]; rfl
  · intro src T x quot block sc q draws code codes
    have hsc (l : Nat) : blockScale s c o f l = sc l := blockScale_eq s c o f l
    have hq (l : Nat) : divisor s c o f l = q l := by rw [divisor, hsc]
    have hdrawn (l : Nat) (y : W32) (h : draws = false) : qpackLane s c o f (q l) l y = ((List.range (qElems f)).map (code l), y) := by
      rw [qpackLane_undrawn s c o f h]
      rfl
    have hcodes (l : Nat) : (lanePacked s c o f l).1 = codes l := by
      rw [lanePacked, hq]
      cases hd : draws
      · rw [hdrawn l _ hd]
        exact (if_neg (by simp [hd])).symm
      · exact (if_pos hd).symm
    refine ⟨fun hgo => ?_, fun hgo => ?_⟩
    · obtain ⟨u, hexec, hrows, hlanes⟩ := vqpack_ends hf hgo
      have hme : u.me = { (popHead s).me with team := packedTeam s c o f t } := by rw [hrows]; exact packMoved_me s o f
      refine ⟨u, hexec, ?_, ?_, ?_, ?_, fun l => ?_, fun heven l hl => ?_⟩
      · rw [hme, popHead_g]
      · rw [hme, packedTeam_lfsrOnly]
      · rw [hrows]; rfl
      · rw [hme]
      · rw [hme]
        refine (lfsrAt_packedTeam ..).trans ?_
        rw [lanePacked, hq]
        cases hd : draws
        · rw [hdrawn l _ hd, Bool.false_and, if_neg Bool.false_ne_true]
          exact ite_self _
        · simp only [Bool.true_and, List.contains_iff_mem]
          rfl
      · obtain ⟨hword, hscale⟩ := hlanes heven l hl
        have hfound := packedOf_eq (s := s) (c := c) (f := f) (source_mem_lanes hl)
        refine ⟨fun k hk hne => ?_, fun v hv => ?_⟩
        · rw [hword k hk hne, packedWord, hfound, hcodes]
        · rw [hscale v hv, hfound, hsc]
    · refine ⟨_, exec_vqunpk hf hgo, wrRun_rows .., fun heven l hl j hj => ?_⟩
      exact lane_wrRun heven hl o.d hj _ _
  · obtain ⟨hme, hrows⟩ := headFault_record hown fILLEGAL 0 0 0
    refine ⟨_, ⟨plainCode fILLEGAL, 0, 0, 0, headTag s.me, false⟩, exec_pack_illegal hf hi hgo, ?_⟩
    rw [hme]
    exact ⟨rfl, rfl, rfl, hrows⟩
  · exact laneAlu_writes rfl fun l => by cases mode <;> rfl
  · exact laneAlu_writes rfl fun l => rfl
  · exact laneAlu_writes rfl fun l => rfl
  · intro bs v
    obtain ⟨u, hexec, hrows, hmem, hteam, hfly, hfill⟩ := exec_vvote hgo
    have hv : voteVal op ((s.me.team.lanes g).map (s.me.team.pred ps.toNat)) = v := by cases op <;> rfl
    rw [hv] at hfly hfill
    exact ⟨u, hexec, hrows, hmem, hteam, hfly, fun hdest => ⟨_, hfill hdest, fun l hl => mem_voteFill _ d v hl⟩⟩
end
